-- ==== Sys2Proof/Word.lean ====
section
/-! DEFINITION. Word types of the TL-8400 and their plainest arithmetic (00_scope R7, R8, R11). -/

namespace Sys2Proof

abbrev Byte := BitVec 8
abbrev W32 := BitVec 32
abbrev W64 := BitVec 64
/-- One bit per lane of a group (02 R52, 03 R70). -/
abbrev Lanes := BitVec 32
/-- One bit per team-wide lane (02 R42): bit 32g + i is lane i of group g. -/
abbrev Mask := BitVec 1024
/-- A vector element: 32 architectural bits and the 4-bit extension above them (02 R37). -/
abbrev Elem := BitVec 36
/-- A vector register of one group: its 32 elements, lane 0 first (02 R37). -/
abbrev VReg := List Elem
/-- A 96-bit lane word (00 R8). -/
abbrev LaneBits := BitVec 96

/-- The vector register whose every element is zero. -/
def VReg.zero : VReg := List.replicate 32 0

/-- Binary prefix sizes (00 R9). -/
def KiB : Nat := 1024
def MiB : Nat := 1048576
def GiB : Nat := 1073741824

end Sys2Proof
end

