-- ==== Sys2Proof/Syntax.lean ====
section
/-! DEFINITION. The steps of the part as syntax: one constructor per row of spec/opcode_table.json.
Control words (09 R234-R240), lane words (09 R241-R249), Claolaton commands (11 R322-R331), host writes
(11 R314) and the part's own events (spec/95). -/

namespace Sys2Proof

/-- The three header flags of a lane word, bits 95 to 93 (02 R56). -/
structure Hdr where
  fin : Bool
  bnd : Bool
  sw : Bool
  deriving DecidableEq, Repr

/-- The single and literal layouts of a lane word below its opcode (09 R242). `lit` is KIND 0b10. The lead
word of a double has the same layout (09 R244); its `lit` is false. -/
structure LaneWord where
  hdr : Hdr
  lit : Bool
  d : BitVec 8
  a : BitVec 8
  b : BitVec 8
  c : BitVec 8
  ty : BitVec 4
  tl : Bool
  md : BitVec 3
  sa : BitVec 3
  sb : BitVec 3
  sc : BitVec 3
  x : BitVec 32
  deriving DecidableEq, Repr

/-- The continuation word of a double (09 R244). -/
structure ContWord where
  hdr : Hdr
  kind : BitVec 2
  body : BitVec 91
  deriving DecidableEq, Repr

/-- One narrow operation of a paired word (09 R245). -/
structure Narrow where
  opn : BitVec 7
  d : BitVec 8
  a : BitVec 8
  b : BitVec 8
  ty : BitVec 4
  imm : BitVec 10
  deriving DecidableEq, Repr

/-- A paired word: two narrow operations and the reserved bit 0 (09 R245). -/
structure PairWord where
  hdr : Hdr
  op1 : Narrow
  op2 : Narrow
  r0 : Bool
  deriving DecidableEq, Repr

/-- Where a command block came from: page, submission ring, position and partition byte (11 R314, R317, R322). -/
structure CmdSrc where
  page : Nat
  ring : Nat
  pos : W32
  part : Nat
  deriving DecidableEq, Repr

/-- LAUNCH parameters (11 R325). -/
structure LaunchArgs where
  image : W64
  spill : W64
  arg : W64
  asid : BitVec 16
  clusters : BitVec 16
  teams : BitVec 4
  priority : BitVec 2
  debug : Bool
  groups : BitVec 8
  queues : BitVec 16
  producers : List W32
  deriving DecidableEq, Repr

/-- MAP parameters (11 R324). -/
structure MapArgs where
  va : W64
  pa : W64
  len : W64
  asid : BitVec 16
  r : Bool
  w : Bool
  x : Bool
  g : Bool
  size : BitVec 2
  deriving DecidableEq, Repr

/-- PARTITION CREATE parameters (11 R329). -/
structure CreateArgs where
  halfDecks : BitVec 8
  asidFirst : BitVec 16
  asidCount : BitVec 16
  reserve : BitVec 16
  stierBase : BitVec 32
  watchdog : BitVec 32
  priv : W64
  save : W64
  ringTable : W64
  pasid : BitVec 20
  deriving DecidableEq, Repr

/-- POOLCFG parameters but for its operation (11 R331). -/
structure PoolArgs where
  region : BitVec 32
  port : BitVec 8
  mode : BitVec 8
  owner : BitVec 8
  deriving DecidableEq, Repr

/-- What the bring-up training of R335 finished beside the decks. -/
inductive Trained where
  | stier
  | port (p rate lanes : Nat)
  deriving DecidableEq, Repr

/-- Where an uncorrectable error struck (10 R300, R301): a 32-bit word of storage, or hidden state of a partition, such as a block
queue. -/
inductive ErrLoc where
  | mem (pa : Nat)
  | pool (pa : Nat)
  | cache (pa : Nat)
  | scratch (core addr : Nat)
  | sreg (core ctx r : Nat)
  | mreg (core ctx r : Nat)
  | vreg (core ctx group reg lane : Nat)
  | greg (core ctx group reg : Nat)
  | special (core ctx group reg : Nat)
  | ret (core ctx i group : Nat)
  | token (core ctx i : Nat)
  | queue (core q i : Nat)
  | hidden (part : Nat)
  deriving DecidableEq, Repr

/-- The steps of the part: the rows of the opcode table in its order, but for the rows with no operand. -/
inductive Instr where
  -- control stream: integer group (12 R342)
  | add (d a b : BitVec 5)
  | sub (d a b : BitVec 5)
  | mul (d a b : BitVec 5)
  | mulh (d a b : BitVec 5) (u : Bool)
  | div (d a b : BitVec 5) (u : Bool)
  | rem (d a b : BitVec 5) (u : Bool)
  | and (d a b : BitVec 5)
  | or (d a b : BitVec 5)
  | xor (d a b : BitVec 5)
  | shl (d a b : BitVec 5)
  | shlImm (d a : BitVec 5) (k : BitVec 6)
  | shr (d a b : BitVec 5)
  | shrImm (d a : BitVec 5) (k : BitVec 6)
  | sra (d a b : BitVec 5)
  | sraImm (d a : BitVec 5) (k : BitVec 6)
  | slt (d a b : BitVec 5) (u : Bool)
  | min (d a b : BitVec 5) (u : Bool)
  | max (d a b : BitVec 5) (u : Bool)
  | addi (d a : BitVec 5) (i : BitVec 16)
  | andi (d a : BitVec 5) (i : BitVec 16)
  | ori (d a : BitVec 5) (i : BitVec 16)
  | xori (d a : BitVec 5) (i : BitVec 16)
  | sltImm (d a : BitVec 5) (i : BitVec 16)
  | lui (d : BitVec 5) (i : BitVec 16)
  | auipc (d : BitVec 5) (i : BitVec 16)
  | ld (d a : BitVec 5) (sz : BitVec 3) (o : BitVec 13)
  | st (d a : BitVec 5) (sz : BitVec 3) (o : BitVec 13)
  | ldk (d a : BitVec 5) (sz : BitVec 3) (o : BitVec 13)
  | amoAdd (d a b : BitVec 5) (w : Bool)
  | amoAnd (d a b : BitVec 5) (w : Bool)
  | amoOr (d a b : BitVec 5) (w : Bool)
  | amoXor (d a b : BitVec 5) (w : Bool)
  | amoSwap (d a b : BitVec 5) (w : Bool)
  | amoCas (d a b : BitVec 5) (w : Bool)
  | amoMin (d a b : BitVec 5) (w u : Bool)
  | amoMax (d a b : BitVec 5) (w u : Bool)
  | fence (scope : BitVec 3) (order : BitVec 2)
  | xfence (scope p q : BitVec 3)
  | jal (d : BitVec 5) (o : BitVec 21)
  | jalr (d a : BitVec 5) (i : BitVec 16)
  | beq (a b : BitVec 5) (o : BitVec 16)
  | bne (a b : BitVec 5) (o : BitVec 16)
  | blt (a b : BitVec 5) (o : BitVec 16)
  | bge (a b : BitVec 5) (o : BitVec 16)
  | bltN (a b : BitVec 5) (o : BitVec 16)
  | bgeN (a b : BitVec 5) (o : BitVec 16)
  | cloop (a : BitVec 5) (o : BitVec 16)
  | bmask (a : BitVec 4) (o : BitVec 16)
  | mand (d a b : BitVec 4)
  | mor (d a b : BitVec 4)
  | mxor (d a b : BitVec 4)
  | mandn (d a b : BitVec 4)
  | mnot (d a : BitVec 4)
  | mmov (d a : BitVec 4)
  | mcnt (a : BitVec 4) (s : BitVec 5)
  | mfirst (a : BitVec 4) (s : BitVec 5)
  | mwordR (a : BitVec 4) (s : BitVec 5) (w : BitVec 5)
  | mwordW (d : BitVec 4) (s : BitVec 5) (w : BitVec 5)
  | emit (a b t : BitVec 5) (m : BitVec 4) (push pop peek ret bar : Bool)
  | rpop (d : BitVec 4)
  | divg (a : BitVec 4)
  | regroup (k : BitVec 4) (n : BitVec 8)
  | rotb (d a : BitVec 5) (i : BitVec 16)
  | ewr (a : BitVec 5) (e : BitVec 8)
  | erd (d : BitVec 5) (e : BitVec 8)
  | ecommit (d : BitVec 5) (c : BitVec 3)
  | cwait (a : BitVec 5) (c scope : BitVec 3)
  | jwait (a : BitVec 5) (i : BitVec 16)
  | crd (d : BitVec 5) (e : BitVec 8)
  | cwr (a : BitVec 5) (e : BitVec 8)
  | trap (k : BitVec 6)
  -- lane stream
  | vnop (w : LaneWord)
  | vadd (w : LaneWord)
  | vsub (w : LaneWord)
  | vmul (w : LaneWord)
  | vmulh (w : LaneWord)
  | vmad (w : LaneWord)
  | vand (w : LaneWord)
  | vor (w : LaneWord)
  | vxor (w : LaneWord)
  | vandn (w : LaneWord)
  | vshl (w : LaneWord)
  | vshr (w : LaneWord)
  | vsra (w : LaneWord)
  | vmin (w : LaneWord)
  | vmax (w : LaneWord)
  | vsel (w : LaneWord)
  | vmov (w : LaneWord)
  | vabs (w : LaneWord)
  | vneg (w : LaneWord)
  | vclz (w : LaneWord)
  | vpopc (w : LaneWord)
  | vbfx (w : LaneWord)
  | vbfi (w : LaneWord)
  | vcmp (w : LaneWord)
  | fadd (w : LaneWord)
  | fsub (w : LaneWord)
  | fmul (w : LaneWord)
  | ffma (w : LaneWord)
  | fmin (w : LaneWord)
  | fmax (w : LaneWord)
  | fabs (w : LaneWord)
  | fneg (w : LaneWord)
  | frcp (w : LaneWord)
  | frsq (w : LaneWord)
  | fexp2 (w : LaneWord)
  | flog2 (w : LaneWord)
  | fcvt (w : LaneWord)
  | lcvt (w : LaneWord)
  | fcmp (w : LaneWord)
  | gadd (w : LaneWord)
  | gsub (w : LaneWord)
  | gand (w : LaneWord)
  | gor (w : LaneWord)
  | gxor (w : LaneWord)
  | gandn (w : LaneWord)
  | gshl (w : LaneWord)
  | gshr (w : LaneWord)
  | gmov (w : LaneWord)
  | gpopc (w : LaneWord)
  | gfirst (w : LaneWord)
  | gld (w : LaneWord)
  | exmset (w : LaneWord)
  | pret (w : LaneWord)
  | vote (w : LaneWord)
  | vshfl (w : LaneWord)
  | vbcast (w : LaneWord)
  | vred (w : LaneWord)
  | vscan (w : LaneWord)
  | laneid (w : LaneWord)
  | vld (w : LaneWord)
  | vst (w : LaneWord)
  | vldk (w : LaneWord)
  | vlds (w : LaneWord)
  | vsts (w : LaneWord)
  | vldx (w : LaneWord)
  | vatom (w : LaneWord)
  | vatoms (w : LaneWord)
  | vfence (w : LaneWord)
  | vxfence (w : LaneWord)
  | qpop (w : LaneWord)
  | qpush (w : LaneWord)
  | spawn (w : LaneWord)
  | spflush (w : LaneWord)
  | mmodeT (w : LaneWord)
  | mmodeV (w : LaneWord)
  | mloop (w : LaneWord) (y : ContWord)
  | mwait (w : LaneWord)
  | mzero (w : LaneWord)
  | acvt (w : LaneWord)
  | sunf (w : LaneWord) (y : ContWord)
  | tshape (w : LaneWord)
  | sfmt (w : LaneWord)
  | xpat (w : LaneWord)
  | srd (w : LaneWord)
  | swr (w : LaneWord)
  | vbrk (w : LaneWord)
  | vtrap (w : LaneWord)
  | paired (w : PairWord)
  -- Claolaton commands (11 R324)
  | launch (src : CmdSrc) (p : LaunchArgs)
  | copy (src : CmdSrc) (va : W64) (asid : BitVec 16)
  | map (src : CmdSrc) (p : MapArgs)
  | unmap (src : CmdSrc) (va len : W64) (asid : BitVec 16)
  | partitionCreate (src : CmdSrc) (p : CreateArgs)
  | partitionDestroy (src : CmdSrc)
  | partitionPower (src : CmdSrc) (watts : BitVec 16)
  | partitionWatchdog (src : CmdSrc) (us : BitVec 32)
  | preempt (src : CmdSrc) (id : W32)
  | debugHalt (src : CmdSrc) (id : W32)
  | resume (src : CmdSrc) (id : W32)
  | resumeEnter (src : CmdSrc) (id : W32) (cluster : BitVec 16) (team : BitVec 8)
  | freeze (src : CmdSrc) (target : BitVec 8) (addr size : W64)
  | thaw (src : CmdSrc) (kind : BitVec 8) (addr : W64)
  | queryFeatures (src : CmdSrc) (buf : W64)
  | queryStatus (src : CmdSrc) (buf : W64)
  | attest (src : CmdSrc) (nonce : BitVec 256) (buf : W64)
  | poolcfgMap (src : CmdSrc) (p : PoolArgs)
  | poolcfgUnmap (src : CmdSrc) (p : PoolArgs)
  | resetPartition (src : CmdSrc)
  | resetModule (src : CmdSrc)
  -- host writes to BAR0 (11 R314)
  | notify (page : Nat) (v : W64)
  | evcons (page : Nat) (v : W64)
  | mrtable (v : W64)
  | bar0OtherWrite (page off : Nat) (v : W64)
  -- side rows of EWR and CRD
  | engineRetry (core ch : Nat)
  | engineSkip (core ch : Nat)
  | frdataRead (d : BitVec 5)
  -- events
  | blockFetch (page ring : Nat)
  | tagMismatch (page ring : Nat)
  | coalescingDelayExpiry (page ring : Nat)
  | powerSample (watts : Nat)
  | thermalThrottle (die temp : Nat)
  | thermalTrip (die temp : Nat)
  | powerOn (ok : Bool)
  | deckTrainingComplete (deck : Nat)
  | deckTrainingFailed (deck : Nat)
  | launchPlace (part : Nat)
  | launchComplete (part : Nat) (id : W32)
  | descriptorVisible (core ctx group : Nat)
  | barrierRelease (core ctx : Nat)
  | stalledEmitRetire (core ctx : Nat)
  | returnReady (core ctx : Nat)
  | varResultWritten (core ctx group idx : Nat)
  | tlbWalkComplete (core ctx : Nat) (group : Option Nat)
  | qpopTake (core queue : Nat)
  | qpushEnter (core ctx group : Nat)
  | remoteScratchpadAccess (core ctx group idx : Nat)
  | remoteStoreAck (core ctx group idx : Nat)
  | fenceWorkDone (core ctx : Nat) (group : Option Nat)
  | ifenceComplete (core ctx : Nat)
  | ktrigComplete (core ctx : Nat)
  | kwaitSatisfied (core ctx : Nat)
  | jwaitZero (core ctx : Nat)
  | exitComplete (core ctx : Nat)
  | regroupMigration (core ctx : Nat)
  | spawnRecordsAccepted (core ctx group : Nat)
  | spillWriteComplete (core ctx group : Nat)
  | gathererRefill (core : Nat)
  | gathererIdleTimeout (core : Nat)
  | childTeamStart (core : Nat)
  | transferStart (core ch : Nat)
  | lineLanded (core ch line : Nat)
  | transferComplete (core ch : Nat)
  | transferHalt (core ch : Nat)
  | matrixLoopStep (core ctx group : Nat)
  | matrixLoopComplete (core ctx group : Nat)
  | routineEntry (core ctx : Nat)
  | watchdog (core ctx : Nat)
  | bisnpReceived (line : Nat)
  | poolLinkDown (port : Nat)
  | poolRequestTimeout (port : Nat)
  | poolIdeFailure (port : Nat)
  | uncorrectableError (loc : ErrLoc)
  -- words that trap by their encoding
  | cillop (w : BitVec 32)
  | cresfield (w : BitVec 32)
  | illop (w : LaneBits)
  | secondTierOrPoolPortTrained (what : Trained)
  -- the rows with no operand stand last: the runtime keeps at most 245 constructors with fields
  | nop
  | ifence
  | elseM
  | recon
  | ktrig
  | kwait
  | eret
  | exit
  | brk
  | powerLimitStop
  | powerLimitResume
  | hostRestart
  | singleBitError
  deriving DecidableEq, Repr

end Sys2Proof
end

