-- ==== Sys2Proof/Decode.lean ====
section
/-! DEFINITION. Decoding and encoding: control words (09 R234-R240), lane words (09 R241-R249), Claolaton command
blocks (11 R322-R331). Decoding is total; a word that is no instruction decodes to its trapping row. -/

namespace Sys2Proof

/-- Bits lo+len-1 down to lo of a word (00 R7). -/
def fld {n : Nat} (w : BitVec n) (lo len : Nat) : BitVec len := w.extractLsb' lo len

def bit {n : Nat} (w : BitVec n) (i : Nat) : Bool := w.getLsbD i

/-! ### Control words -/

/-- The fate of a control word whose function is assigned: the instruction, or CRESFIELD when a reserved field or
value is not as it must be (09 R250). -/
def ifClean (w : BitVec 32) (ok : Bool) (i : Instr) : Instr := if ok then i else .cresfield w

/-- Major opcode 0x00 (09 R238). -/
def decodeInt (w : BitVec 32) : Instr :=
  let d := fld w 21 5
  let a := fld w 16 5
  let b := fld w 11 5
  let u := bit w 4
  let is := bit w 5
  let sh5 := bit w 6
  let plain := fld w 7 4 == 0 && !is && !sh5
  let k : BitVec 6 := fld w 6 1 ++ b
  let shift (r i : Instr) : Instr :=
    ifClean w (fld w 7 4 == 0 && !u && (is || !sh5)) (if is then i else r)
  if w = 0 then .nop
  else match (fld w 0 4).toNat with
  | 0 => ifClean w (plain && !u) (.add d a b)
  | 1 => ifClean w (plain && !u) (.sub d a b)
  | 2 => ifClean w (plain && !u) (.mul d a b)
  | 3 => ifClean w plain (.mulh d a b u)
  | 4 => ifClean w plain (.div d a b u)
  | 5 => ifClean w plain (.rem d a b u)
  | 6 => ifClean w (plain && !u) (.and d a b)
  | 7 => ifClean w (plain && !u) (.or d a b)
  | 8 => ifClean w (plain && !u) (.xor d a b)
  | 9 => shift (.shl d a b) (.shlImm d a k)
  | 10 => shift (.shr d a b) (.shrImm d a k)
  | 11 => shift (.sra d a b) (.sraImm d a k)
  | 12 => ifClean w plain (.slt d a b u)
  | 13 => ifClean w plain (.min d a b u)
  | 14 => ifClean w plain (.max d a b u)
  | _ => .cillop w

/-- Major opcode 0x0B (09 R239). -/
def decodeAmo (w : BitVec 32) : Instr :=
  let d := fld w 21 5
  let a := fld w 16 5
  let b := fld w 11 5
  let w64 := bit w 5
  let u := bit w 4
  let z := fld w 6 5 == 0
  match (fld w 0 4).toNat with
  | 0 => ifClean w (z && !u) (.amoAdd d a b w64)
  | 1 => ifClean w (z && !u) (.amoAnd d a b w64)
  | 2 => ifClean w (z && !u) (.amoOr d a b w64)
  | 3 => ifClean w (z && !u) (.amoXor d a b w64)
  | 4 => ifClean w (z && !u) (.amoSwap d a b w64)
  | 5 => ifClean w (z && !u) (.amoCas d a b w64)
  | 6 => ifClean w z (.amoMin d a b w64 u)
  | 7 => ifClean w z (.amoMax d a b w64 u)
  | _ => .cillop w

/-- Scope codes 1 to 6 are legal in the control stream (08 R210, R224). -/
def ctrlScope (s : BitVec 3) : Bool := s != 0 && s != 7

/-- Path codes 0 to 4 (08 R208). -/
def pathOk (p : BitVec 3) : Bool := decide (p.toNat ≤ 4)

/-- Major opcode 0x0C (08 R223, R224). -/
def decodeFence (w : BitVec 32) : Instr :=
  let s := fld w 6 3
  let z := fld w 11 15 == 0
  match (fld w 9 2).toNat with
  | 0 => ifClean w (z && ctrlScope s && fld w 4 2 != 0 && fld w 0 4 == 0) (.fence s (fld w 4 2))
  | 1 => ifClean w (z && ctrlScope s && pathOk (fld w 3 3) && pathOk (fld w 0 3)) (.xfence s (fld w 3 3) (fld w 0 3))
  | 2 => ifClean w (z && fld w 0 9 == 0) .ifence
  | _ => .cillop w

/-- Major opcode 0x20 (09 R240). -/
def decodeMask (w : BitVec 32) : Instr :=
  let d := fld w 22 4
  let a := fld w 18 4
  let b := fld w 14 4
  let s := fld w 9 5
  let f := fld w 4 5
  let noS := s == 0 && f == 0
  let toS := d == 0 && b == 0 && f == 0
  match (fld w 0 4).toNat with
  | 0 => ifClean w noS (.mand d a b)
  | 1 => ifClean w noS (.mor d a b)
  | 2 => ifClean w noS (.mxor d a b)
  | 3 => ifClean w noS (.mandn d a b)
  | 4 => ifClean w (noS && b == 0) (.mnot d a)
  | 5 => ifClean w (noS && b == 0) (.mmov d a)
  | 6 => ifClean w toS (.mcnt a s)
  | 7 => ifClean w toS (.mfirst a s)
  | 8 =>
    if bit w 14 then ifClean w (fld w 15 3 == 0 && a == 0) (.mwordW d s f)
    else ifClean w (fld w 15 3 == 0 && d == 0) (.mwordR a s f)
  | _ => .cillop w

/-- A control word's instruction (09 R237, R250). -/
def decodeCtrl (w : BitVec 32) : Instr :=
  let d := fld w 21 5
  let a := fld w 16 5
  let i := fld w 0 16
  let e := fld w 8 8
  let sz := fld w 13 3
  let o13 := fld w 0 13
  let low26 := fld w 0 26 == 0
  match (fld w 26 6).toNat with
  | 0x00 => decodeInt w
  | 0x01 => .addi d a i
  | 0x02 => .andi d a i
  | 0x03 => .ori d a i
  | 0x04 => .xori d a i
  | 0x05 => .sltImm d a i
  | 0x06 => ifClean w (a == 0) (.lui d i)
  | 0x07 => ifClean w (a == 0) (.auipc d i)
  | 0x08 => ifClean w (sz != 7) (.ld d a sz o13)
  | 0x09 => ifClean w (sz != 7) (.st d a sz o13)
  | 0x0A => ifClean w (sz != 7) (.ldk d a sz o13)
  | 0x0B => decodeAmo w
  | 0x0C => decodeFence w
  | 0x10 => .jal d (fld w 0 21)
  | 0x11 => .jalr d a i
  | 0x12 => .beq d a i
  | 0x13 => .bne d a i
  | 0x14 => .blt d a i
  | 0x15 => .bge d a i
  | 0x16 => .bltN d a i
  | 0x17 => .bgeN d a i
  | 0x18 => ifClean w (d != 0 && a == 0) (.cloop d i)
  | 0x19 => ifClean w (!bit w 25 && a == 0) (.bmask (fld w 21 4) i)
  | 0x20 => decodeMask w
  | 0x24 => ifClean w (fld w 0 2 == 0) (.emit d a (fld w 11 5) (fld w 7 4) (bit w 6) (bit w 5) (bit w 4) (bit w 3) (bit w 2))
  | 0x25 => ifClean w (fld w 0 22 == 0) (.rpop (fld w 22 4))
  | 0x26 =>
    let z := fld w 22 4 == 0 && fld w 14 4 == 0 && fld w 9 5 == 0
    match (fld w 0 9).toNat with
    | 0 => ifClean w z (.divg (fld w 18 4))
    | 1 => ifClean w (z && fld w 18 4 == 0) .elseM
    | 2 => ifClean w (z && fld w 18 4 == 0) .recon
    | _ => .cillop w
  | 0x27 => ifClean w (fld w 22 4 == 0 && fld w 8 10 == 0) (.regroup (fld w 18 4) (fld w 0 8))
  | 0x28 => .rotb d a i
  | 0x2C => ifClean w (d == 0 && fld w 0 8 == 0) (.ewr a e)
  | 0x2D => ifClean w (a == 0 && fld w 0 8 == 0) (.erd d e)
  | 0x2E => ifClean w (a == 0 && fld w 0 13 == 0) (.ecommit d sz)
  | 0x2F => ifClean w (d == 0 && fld w 3 10 == 0 && ctrlScope (fld w 0 3)) (.cwait a sz (fld w 0 3))
  | 0x30 => ifClean w low26 .ktrig
  | 0x31 => ifClean w low26 .kwait
  | 0x32 => ifClean w (d == 0) (.jwait a i)
  | 0x38 => ifClean w (a == 0 && fld w 0 8 == 0 && decide (e.toNat ≤ 0x0F)) (.crd d e)
  | 0x39 => ifClean w (d == 0 && fld w 0 8 == 0 && decide (e.toNat ≤ 0x0F)) (.cwr a e)
  | 0x3A => ifClean w (fld w 6 20 == 0) (.trap (fld w 0 6))
  | 0x3B => ifClean w low26 .eret
  | 0x3C => ifClean w low26 .exit
  | 0x3E => ifClean w low26 .brk
  | _ => .cillop w

/-! ### Lane words -/

def decodeHdr (w : LaneBits) : Hdr := { fin := bit w 95, bnd := bit w 94, sw := bit w 93 }

def laneKind (w : LaneBits) : BitVec 2 := fld w 91 2

def laneOpc (w : LaneBits) : BitVec 10 := fld w 81 10

/-- The fields of the single and literal layouts (09 R242). -/
def decodeLaneWord (w : LaneBits) : LaneWord :=
  { hdr := decodeHdr w, lit := laneKind w == 2, d := fld w 73 8, a := fld w 65 8, b := fld w 57 8, c := fld w 49 8,
    ty := fld w 45 4, tl := bit w 44, md := fld w 41 3, sa := fld w 38 3, sb := fld w 35 3, sc := fld w 32 3,
    x := fld w 0 32 }

def decodeCont (w : LaneBits) : ContWord := { hdr := decodeHdr w, kind := laneKind w, body := fld w 0 91 }

/-- A narrow operation, `lo` being its lowest bit (09 R245). -/
def decodeNarrow (w : LaneBits) (lo : Nat) : Narrow :=
  { opn := fld w (lo + 38) 7, d := fld w (lo + 30) 8, a := fld w (lo + 22) 8, b := fld w (lo + 14) 8,
    ty := fld w (lo + 10) 4, imm := fld w lo 10 }

/-- Assigned OPN values (09 R245). -/
def opnAssigned (o : BitVec 7) : Bool :=
  let n := o.toNat
  decide (0x01 ≤ n ∧ n ≤ 0x14) || decide (0x20 ≤ n ∧ n ≤ 0x27) || decide (0x40 ≤ n ∧ n ≤ 0x4A) ||
    decide (0x60 ≤ n ∧ n ≤ 0x61)

/-- The instruction of an OPC in the single or literal kind (09 R248); none where the OPC is not assigned to it. -/
def laneInstr (opc : Nat) (w : LaneWord) : Option Instr :=
  match opc with
  | 0x000 => some (.vnop w)
  | 0x001 => some (.vadd w)
  | 0x002 => some (.vsub w)
  | 0x003 => some (.vmul w)
  | 0x004 => some (.vmulh w)
  | 0x005 => some (.vmad w)
  | 0x006 => some (.vand w)
  | 0x007 => some (.vor w)
  | 0x008 => some (.vxor w)
  | 0x009 => some (.vandn w)
  | 0x00A => some (.vshl w)
  | 0x00B => some (.vshr w)
  | 0x00C => some (.vsra w)
  | 0x00D => some (.vmin w)
  | 0x00E => some (.vmax w)
  | 0x00F => some (.vabs w)
  | 0x010 => some (.vneg w)
  | 0x011 => some (.vclz w)
  | 0x012 => some (.vpopc w)
  | 0x013 => some (.vsel w)
  | 0x014 => some (.vmov w)
  | 0x015 => some (.vbfx w)
  | 0x016 => some (.vbfi w)
  | 0x017 => some (.vcmp w)
  | 0x080 => some (.fadd w)
  | 0x081 => some (.fsub w)
  | 0x082 => some (.fmul w)
  | 0x083 => some (.ffma w)
  | 0x084 => some (.fmin w)
  | 0x085 => some (.fmax w)
  | 0x086 => some (.fabs w)
  | 0x087 => some (.fneg w)
  | 0x088 => some (.frcp w)
  | 0x089 => some (.frsq w)
  | 0x08A => some (.fexp2 w)
  | 0x08B => some (.flog2 w)
  | 0x08C => some (.fcvt w)
  | 0x08D => some (.lcvt w)
  | 0x08E => some (.fcmp w)
  | 0x100 => some (.gadd w)
  | 0x101 => some (.gsub w)
  | 0x102 => some (.gand w)
  | 0x103 => some (.gor w)
  | 0x104 => some (.gxor w)
  | 0x105 => some (.gandn w)
  | 0x106 => some (.gshl w)
  | 0x107 => some (.gshr w)
  | 0x108 => some (.gmov w)
  | 0x109 => some (.gpopc w)
  | 0x10A => some (.gfirst w)
  | 0x10B => some (.gld w)
  | 0x10C => some (.exmset w)
  | 0x10D => some (.pret w)
  | 0x10E => some (.vote w)
  | 0x180 => some (.vshfl w)
  | 0x181 => some (.vbcast w)
  | 0x182 => some (.vred w)
  | 0x183 => some (.vscan w)
  | 0x184 => some (.laneid w)
  | 0x200 => some (.vld w)
  | 0x201 => some (.vst w)
  | 0x202 => some (.vlds w)
  | 0x203 => some (.vsts w)
  | 0x204 => some (.vldx w)
  | 0x205 => some (.vldk w)
  | 0x206 => some (.vatom w)
  | 0x207 => some (.vatoms w)
  | 0x280 => some (.vfence w)
  | 0x281 => some (.vxfence w)
  | 0x282 => some (.qpop w)
  | 0x283 => some (.qpush w)
  | 0x284 => some (.spawn w)
  | 0x285 => some (.spflush w)
  | 0x300 => some (if bit w.x 0 then .mmodeT w else .mmodeV w)
  | 0x302 => some (.mwait w)
  | 0x303 => some (.mzero w)
  | 0x304 => some (.acvt w)
  | 0x306 => some (.tshape w)
  | 0x307 => some (.sfmt w)
  | 0x308 => some (.xpat w)
  | 0x309 => some (.srd w)
  | 0x30A => some (.swr w)
  | 0x380 => some (.vbrk w)
  | 0x381 => some (.vtrap w)
  | _ => none

/-- A lane word's instruction (09 R241-R248). `next` is the word after it, which a double needs; none means that the
double's continuation lies beyond the lane section (09 R251), and the answer is then none. -/
def decodeLane (w : LaneBits) (next : Option LaneBits) : Option Instr :=
  match (laneKind w).toNat with
  | 1 =>
    let p : PairWord := { hdr := decodeHdr w, op1 := decodeNarrow w 46, op2 := decodeNarrow w 1, r0 := bit w 0 }
    if opnAssigned p.op1.opn && opnAssigned p.op2.opn then some (.paired p) else some (.illop w)
  | 3 =>
    match (laneOpc w).toNat with
    | 0x301 => next.map (fun y => .mloop (decodeLaneWord w) (decodeCont y))
    | 0x305 => next.map (fun y => .sunf (decodeLaneWord w) (decodeCont y))
    | _ => next.map (fun _ => .illop w)
  | _ => some ((laneInstr (laneOpc w).toNat (decodeLaneWord w)).getD (.illop w))

/-! ### Command blocks -/

/-- Little-endian number of `n` bytes of a block from byte `off` (00 R8). -/
def leNat (b : List Byte) (off n : Nat) : Nat :=
  ((b.drop off).take n).foldr (fun x acc => x.toNat + 256 * acc) 0

def leBits (k : Nat) (b : List Byte) (off n : Nat) : BitVec k := BitVec.ofNat k (leNat b off n)

/-- Bytes off to off+n-1 are zero. -/
def zeros (b : List Byte) (off n : Nat) : Bool := leNat b off n == 0

/-- Status codes (11 R323). -/
def stOk : Nat := 0x0000
def stBadOpcode : Nat := 0x0001
def stBadVersion : Nat := 0x0002
def stBadSize : Nat := 0x0003
def stBadField : Nat := 0x0004
def stTagMismatch : Nat := 0x0005
def stRingOver : Nat := 0x0006
def stNotOwner : Nat := 0x0007
def stBadImage : Nat := 0x0008
def stLimit : Nat := 0x0009
def stDeclMismatch : Nat := 0x000A
def stBadProducer : Nat := 0x000B
def stNoFit : Nat := 0x000C
def stIdInUse : Nat := 0x000D
def stFaulted : Nat := 0x000E
def stTerminated : Nat := 0x000F
def stRefused : Nat := 0x0010
def stBadSig : Nat := 0x0011
def stNotReady : Nat := 0x0012
def stEngineBlock : Nat := 0x0013
def stEvent : Nat := 0x0014

/-- Rings that may issue an opcode (11 R324): the management page is page 8. -/
def opcodeAllowed (op : Nat) (mgmt : Bool) : Bool :=
  if mgmt then decide (op ∈ [0x03, 0x04, 0x05, 0x06, 0x07, 0x08, 0x09, 0x0A, 0x0B, 0x0C, 0x0D])
  else decide (op ∈ [0x01, 0x02, 0x03, 0x04, 0x06, 0x07, 0x0A, 0x0B, 0x0D])

/-- The parameters of a command: its unused bytes must be zero (11 R322), else BADFIELD; an operation byte beyond
those listed is a broken limit of the command. -/
def decodeParams (src : CmdSrc) (op : Nat) (b : List Byte) : Except Nat Instr :=
  let need (ok : Bool) (i : Except Nat Instr) : Except Nat Instr := if ok then i else .error stBadField
  match op with
  | 0x01 =>
    let b44 : BitVec 8 := leBits 8 b 44 1
    need (!bit b44 7)
      (.ok (.launch src {
        image := leBits 64 b 16 8, spill := leBits 64 b 24 8, arg := leBits 64 b 32 8,
        asid := leBits 16 b 40 2, clusters := leBits 16 b 42 2, teams := fld b44 0 4, priority := fld b44 4 2,
        debug := bit b44 6, groups := leBits 8 b 45 1, queues := leBits 16 b 46 2,
        producers := [leBits 32 b 48 4, leBits 32 b 52 4, leBits 32 b 56 4, leBits 32 b 60 4] }))
  | 0x02 => need (zeros b 26 38) (.ok (.copy src (leBits 64 b 16 8) (leBits 16 b 24 2)))
  | 0x03 =>
    let f : BitVec 8 := leBits 8 b 42 1
    need (zeros b 43 21 && fld f 6 2 == 0)
      (.ok (.map src {
        va := leBits 64 b 16 8, pa := leBits 64 b 24 8, len := leBits 64 b 32 8, asid := leBits 16 b 40 2,
        r := bit f 0, w := bit f 1, x := bit f 2, g := bit f 3, size := fld f 4 2 }))
  | 0x04 => need (zeros b 24 8 && zeros b 42 22) (.ok (.unmap src (leBits 64 b 16 8) (leBits 64 b 32 8) (leBits 16 b 40 2)))
  | 0x05 =>
    match leNat b 16 1 with
    | 0 =>
      need (zeros b 56 2 && zeros b 62 2 && decide (leNat b 58 4 < 0x100000))
        (.ok (.partitionCreate src {
        halfDecks := leBits 8 b 17 1, asidFirst := leBits 16 b 18 2,
          asidCount := leBits 16 b 20 2, reserve := leBits 16 b 22 2, stierBase := leBits 32 b 24 4,
          watchdog := leBits 32 b 28 4, priv := leBits 64 b 32 8, save := leBits 64 b 40 8,
          ringTable := leBits 64 b 48 8, pasid := leBits 20 b 58 4 }))
    | 1 => need (zeros b 17 47) (.ok (.partitionDestroy src))
    | 2 => need (zeros b 17 39 && zeros b 58 6) (.ok (.partitionPower src (leBits 16 b 56 2)))
    | 3 => need (zeros b 17 11 && zeros b 32 32) (.ok (.partitionWatchdog src (leBits 32 b 28 4)))
    | _ => need (zeros b 62 2 && decide (leNat b 58 4 < 0x100000)) (.error stLimit)
  | 0x06 =>
    need (zeros b 21 43 && decide (leNat b 20 1 ≤ 1))
      (.ok (if leNat b 20 1 = 1 then .debugHalt src (leBits 32 b 16 4) else .preempt src (leBits 32 b 16 4)))
  | 0x07 =>
    need (zeros b 21 3 && zeros b 27 37 && decide (leNat b 20 1 ≤ 1))
      (.ok (if leNat b 20 1 = 1 then .resumeEnter src (leBits 32 b 16 4) (leBits 16 b 24 2) (leBits 8 b 26 1)
            else .resume src (leBits 32 b 16 4)))
  | 0x08 => need (zeros b 17 7 && zeros b 40 24) (.ok (.freeze src (leBits 8 b 16 1) (leBits 64 b 24 8) (leBits 64 b 32 8)))
  | 0x09 => need (zeros b 17 7 && zeros b 32 32) (.ok (.thaw src (leBits 8 b 16 1) (leBits 64 b 24 8)))
  | 0x0A =>
    need (zeros b 17 7 && zeros b 32 32)
      (match leNat b 16 1 with
       | 0 => .ok (.queryFeatures src (leBits 64 b 24 8))
       | 1 => .ok (.queryStatus src (leBits 64 b 24 8))
       | _ => .error stLimit)
  | 0x0B => need (zeros b 56 8) (.ok (.attest src (leBits 256 b 16 32) (leBits 64 b 48 8)))
  | 0x0C =>
    let p : PoolArgs := { region := leBits 32 b 16 4, port := leBits 8 b 20 1, mode := leBits 8 b 21 1, owner := leBits 8 b 22 1 }
    need (zeros b 24 40)
      (match leNat b 23 1 with
       | 0 => .ok (.poolcfgMap src p)
       | 1 => .ok (.poolcfgUnmap src p)
       | _ => .error stLimit)
  | 0x0D =>
    need (zeros b 17 47)
      (match leNat b 16 1 with
       | 0 => .ok (.resetPartition src)
       | 1 => .ok (.resetModule src)
       | _ => .error stLimit)
  | _ => .error stBadOpcode

/-- A 64-byte block of page `page`, ring `ring`, position `pos` (11 R322, R323): the command, or the status of the
first check it breaks after its tag's. -/
def decodeBlock (page ring : Nat) (pos : W32) (b : List Byte) : Except Nat Instr :=
  let op := leNat b 0 2
  let mgmt := page == 8
  let src : CmdSrc := { page := page, ring := ring, pos := pos, part := if mgmt then leNat b 8 1 else page }
  if !opcodeAllowed op mgmt || (op == 0x0D && leNat b 16 1 == 1 && !mgmt) then .error stBadOpcode
  else if leNat b 2 2 ≠ 1 then .error stBadVersion
  else if leNat b 4 2 ≠ 64 then .error stBadSize
  else if !(zeros b 9 7 && (mgmt || zeros b 8 1)) then .error stBadField
  else match decodeParams src op b with
    | .ok i => if mgmt && decide (leNat b 8 1 > 7) then .error stLimit else .ok i
    | e => e

/-! ### Encoding -/

/-- The bits of an encoded instruction. -/
inductive Code where
  | ctrl (w : BitVec 32)
  | lane (w : LaneBits)
  | double (w y : LaneBits)
  deriving DecidableEq, Repr

/-- Decoding of encoded bits; a lane word alone is followed by no other. -/
def decode : Code → Option Instr
  | .ctrl w => some (decodeCtrl w)
  | .lane w => decodeLane w none
  | .double w y => decodeLane w (some y)

def b1 (b : Bool) : BitVec 1 := BitVec.ofBool b

/-- Format CR (09 R234). -/
def encCR (op : BitVec 6) (d a b : BitVec 5) (f : BitVec 11) : Option Code := some (.ctrl (op ++ d ++ a ++ b ++ f))
def encCI (op : BitVec 6) (d a : BitVec 5) (i : BitVec 16) : Option Code := some (.ctrl (op ++ d ++ a ++ i))
def encCIM (op : BitVec 6) (d a : BitVec 5) (sz : BitVec 3) (o : BitVec 13) : Option Code := some (.ctrl (op ++ d ++ a ++ sz ++ o))
def encCM (op : BitVec 6) (d a b : BitVec 4) (s : BitVec 5) (f : BitVec 9) : Option Code :=
  some (.ctrl (op ++ d ++ a ++ b ++ s ++ f))
def encCX (op : BitVec 6) (d a : BitVec 5) (e f : BitVec 8) : Option Code := some (.ctrl (op ++ d ++ a ++ e ++ f))

/-- F field of the integer group (09 R238). -/
def fInt (u : Bool) (op : BitVec 4) : BitVec 11 := (0 : BitVec 6) ++ b1 u ++ op
def encShiftImm (op : BitVec 4) (d a : BitVec 5) (k : BitVec 6) : Option Code :=
  encCR 0 d a (fld k 0 5) ((0 : BitVec 4) ++ fld k 5 1 ++ (1 : BitVec 1) ++ (0 : BitVec 1) ++ op)
/-- F field of AMO (09 R239). -/
def fAmo (w u : Bool) (op : BitVec 4) : BitVec 11 := (0 : BitVec 5) ++ b1 w ++ b1 u ++ op

def encHdr (h : Hdr) : BitVec 3 := b1 h.fin ++ b1 h.bnd ++ b1 h.sw

def packLane (kind : BitVec 2) (opc : BitVec 10) (w : LaneWord) : LaneBits :=
  encHdr w.hdr ++ kind ++ opc ++ w.d ++ w.a ++ w.b ++ w.c ++ w.ty ++ b1 w.tl ++ w.md ++ w.sa ++ w.sb ++ w.sc ++ w.x

def encLane (opc : BitVec 10) (w : LaneWord) : Option Code :=
  some (.lane (packLane (if w.lit then 2 else 0) opc w))

def packCont (y : ContWord) : LaneBits := encHdr y.hdr ++ y.kind ++ y.body

def encDouble (opc : BitVec 10) (w : LaneWord) (y : ContWord) : Option Code :=
  some (.double (packLane 3 opc w) (packCont y))

def packNarrow (n : Narrow) : BitVec 45 := n.opn ++ n.d ++ n.a ++ n.b ++ n.ty ++ n.imm

/-- The words of an instruction, from the same tables (09 R234-R249); none for a row that is no word of either stream. -/
def encode : Instr → Option Code
  | .add d a b => encCR 0 d a b (fInt false 0)
  | .sub d a b => encCR 0 d a b (fInt false 1)
  | .mul d a b => encCR 0 d a b (fInt false 2)
  | .mulh d a b u => encCR 0 d a b (fInt u 3)
  | .div d a b u => encCR 0 d a b (fInt u 4)
  | .rem d a b u => encCR 0 d a b (fInt u 5)
  | .and d a b => encCR 0 d a b (fInt false 6)
  | .or d a b => encCR 0 d a b (fInt false 7)
  | .xor d a b => encCR 0 d a b (fInt false 8)
  | .shl d a b => encCR 0 d a b (fInt false 9)
  | .shlImm d a k => encShiftImm 9 d a k
  | .shr d a b => encCR 0 d a b (fInt false 10)
  | .shrImm d a k => encShiftImm 10 d a k
  | .sra d a b => encCR 0 d a b (fInt false 11)
  | .sraImm d a k => encShiftImm 11 d a k
  | .slt d a b u => encCR 0 d a b (fInt u 12)
  | .min d a b u => encCR 0 d a b (fInt u 13)
  | .max d a b u => encCR 0 d a b (fInt u 14)
  | .nop => some (.ctrl 0)
  | .addi d a i => encCI 0x01 d a i
  | .andi d a i => encCI 0x02 d a i
  | .ori d a i => encCI 0x03 d a i
  | .xori d a i => encCI 0x04 d a i
  | .sltImm d a i => encCI 0x05 d a i
  | .lui d i => encCI 0x06 d 0 i
  | .auipc d i => encCI 0x07 d 0 i
  | .ld d a sz o => encCIM 0x08 d a sz o
  | .st d a sz o => encCIM 0x09 d a sz o
  | .ldk d a sz o => encCIM 0x0A d a sz o
  | .amoAdd d a b w => encCR 0x0B d a b (fAmo w false 0)
  | .amoAnd d a b w => encCR 0x0B d a b (fAmo w false 1)
  | .amoOr d a b w => encCR 0x0B d a b (fAmo w false 2)
  | .amoXor d a b w => encCR 0x0B d a b (fAmo w false 3)
  | .amoSwap d a b w => encCR 0x0B d a b (fAmo w false 4)
  | .amoCas d a b w => encCR 0x0B d a b (fAmo w false 5)
  | .amoMin d a b w u => encCR 0x0B d a b (fAmo w u 6)
  | .amoMax d a b w u => encCR 0x0B d a b (fAmo w u 7)
  | .fence s o => encCR 0x0C 0 0 0 ((0 : BitVec 2) ++ s ++ o ++ (0 : BitVec 4))
  | .xfence s p q => encCR 0x0C 0 0 0 ((1 : BitVec 2) ++ s ++ p ++ q)
  | .ifence => encCR 0x0C 0 0 0 ((2 : BitVec 2) ++ (0 : BitVec 9))
  | .jal d o => some (.ctrl ((0x10 : BitVec 6) ++ d ++ o))
  | .jalr d a i => encCI 0x11 d a i
  | .beq a b o => encCI 0x12 a b o
  | .bne a b o => encCI 0x13 a b o
  | .blt a b o => encCI 0x14 a b o
  | .bge a b o => encCI 0x15 a b o
  | .bltN a b o => encCI 0x16 a b o
  | .bgeN a b o => encCI 0x17 a b o
  | .cloop a o => encCI 0x18 a 0 o
  | .bmask a o => encCI 0x19 ((0 : BitVec 1) ++ a) 0 o
  | .mand d a b => encCM 0x20 d a b 0 0
  | .mor d a b => encCM 0x20 d a b 0 1
  | .mxor d a b => encCM 0x20 d a b 0 2
  | .mandn d a b => encCM 0x20 d a b 0 3
  | .mnot d a => encCM 0x20 d a 0 0 4
  | .mmov d a => encCM 0x20 d a 0 0 5
  | .mcnt a s => encCM 0x20 0 a 0 s 6
  | .mfirst a s => encCM 0x20 0 a 0 s 7
  | .mwordR a s w => encCM 0x20 0 a 0 s (w ++ (8 : BitVec 4))
  | .mwordW d s w => encCM 0x20 d 0 1 s (w ++ (8 : BitVec 4))
  | .emit a b t m p q k r x => some (.ctrl ((0x24 : BitVec 6) ++ a ++ b ++ t ++ m ++ b1 p ++ b1 q ++ b1 k ++ b1 r ++ b1 x ++ (0 : BitVec 2)))
  | .rpop d => encCM 0x25 d 0 0 0 0
  | .divg a => encCM 0x26 0 a 0 0 0
  | .elseM => encCM 0x26 0 0 0 0 1
  | .recon => encCM 0x26 0 0 0 0 2
  | .regroup k n => encCM 0x27 0 k 0 0 ((0 : BitVec 1) ++ n)
  | .rotb d a i => encCI 0x28 d a i
  | .ewr a e => encCX 0x2C 0 a e 0
  | .erd d e => encCX 0x2D d 0 e 0
  | .ecommit d c => encCX 0x2E d 0 (c ++ (0 : BitVec 5)) 0
  | .cwait a c s => encCX 0x2F 0 a (c ++ (0 : BitVec 5)) ((0 : BitVec 5) ++ s)
  | .ktrig => some (.ctrl 0xC0000000)
  | .kwait => some (.ctrl 0xC4000000)
  | .jwait a i => encCI 0x32 0 a i
  | .crd d e => encCX 0x38 d 0 e 0
  | .cwr a e => encCX 0x39 0 a e 0
  | .trap k => some (.ctrl ((0x3A : BitVec 6) ++ (0 : BitVec 20) ++ k))
  | .eret => some (.ctrl 0xEC000000)
  | .exit => some (.ctrl 0xF0000000)
  | .brk => some (.ctrl 0xF8000000)
  | .vnop w => encLane 0x000 w
  | .vadd w => encLane 0x001 w
  | .vsub w => encLane 0x002 w
  | .vmul w => encLane 0x003 w
  | .vmulh w => encLane 0x004 w
  | .vmad w => encLane 0x005 w
  | .vand w => encLane 0x006 w
  | .vor w => encLane 0x007 w
  | .vxor w => encLane 0x008 w
  | .vandn w => encLane 0x009 w
  | .vshl w => encLane 0x00A w
  | .vshr w => encLane 0x00B w
  | .vsra w => encLane 0x00C w
  | .vmin w => encLane 0x00D w
  | .vmax w => encLane 0x00E w
  | .vabs w => encLane 0x00F w
  | .vneg w => encLane 0x010 w
  | .vclz w => encLane 0x011 w
  | .vpopc w => encLane 0x012 w
  | .vsel w => encLane 0x013 w
  | .vmov w => encLane 0x014 w
  | .vbfx w => encLane 0x015 w
  | .vbfi w => encLane 0x016 w
  | .vcmp w => encLane 0x017 w
  | .fadd w => encLane 0x080 w
  | .fsub w => encLane 0x081 w
  | .fmul w => encLane 0x082 w
  | .ffma w => encLane 0x083 w
  | .fmin w => encLane 0x084 w
  | .fmax w => encLane 0x085 w
  | .fabs w => encLane 0x086 w
  | .fneg w => encLane 0x087 w
  | .frcp w => encLane 0x088 w
  | .frsq w => encLane 0x089 w
  | .fexp2 w => encLane 0x08A w
  | .flog2 w => encLane 0x08B w
  | .fcvt w => encLane 0x08C w
  | .lcvt w => encLane 0x08D w
  | .fcmp w => encLane 0x08E w
  | .gadd w => encLane 0x100 w
  | .gsub w => encLane 0x101 w
  | .gand w => encLane 0x102 w
  | .gor w => encLane 0x103 w
  | .gxor w => encLane 0x104 w
  | .gandn w => encLane 0x105 w
  | .gshl w => encLane 0x106 w
  | .gshr w => encLane 0x107 w
  | .gmov w => encLane 0x108 w
  | .gpopc w => encLane 0x109 w
  | .gfirst w => encLane 0x10A w
  | .gld w => encLane 0x10B w
  | .exmset w => encLane 0x10C w
  | .pret w => encLane 0x10D w
  | .vote w => encLane 0x10E w
  | .vshfl w => encLane 0x180 w
  | .vbcast w => encLane 0x181 w
  | .vred w => encLane 0x182 w
  | .vscan w => encLane 0x183 w
  | .laneid w => encLane 0x184 w
  | .vld w => encLane 0x200 w
  | .vst w => encLane 0x201 w
  | .vldk w => encLane 0x205 w
  | .vlds w => encLane 0x202 w
  | .vsts w => encLane 0x203 w
  | .vldx w => encLane 0x204 w
  | .vatom w => encLane 0x206 w
  | .vatoms w => encLane 0x207 w
  | .vfence w => encLane 0x280 w
  | .vxfence w => encLane 0x281 w
  | .qpop w => encLane 0x282 w
  | .qpush w => encLane 0x283 w
  | .spawn w => encLane 0x284 w
  | .spflush w => encLane 0x285 w
  | .mmodeT w => encLane 0x300 w
  | .mmodeV w => encLane 0x300 w
  | .mloop w y => encDouble 0x301 w y
  | .mwait w => encLane 0x302 w
  | .mzero w => encLane 0x303 w
  | .acvt w => encLane 0x304 w
  | .sunf w y => encDouble 0x305 w y
  | .tshape w => encLane 0x306 w
  | .sfmt w => encLane 0x307 w
  | .xpat w => encLane 0x308 w
  | .srd w => encLane 0x309 w
  | .swr w => encLane 0x30A w
  | .vbrk w => encLane 0x380 w
  | .vtrap w => encLane 0x381 w
  | .paired p => some (.lane (encHdr p.hdr ++ (1 : BitVec 2) ++ packNarrow p.op1 ++ packNarrow p.op2 ++ b1 p.r0))
  | .cillop w => some (.ctrl w)
  | .cresfield w => some (.ctrl w)
  | .illop w => some (.lane w)
  | _ => none

/-- The page whose ring a command block given as a number stands in: page 0, or page 8 for what only it may issue.
Left to the model: DESIGN CHOICE, log entry 44. -/
def tablePage (w : Nat) : Nat :=
  if opcodeAllowed (w % 65536) false && !(w % 65536 == 0x0D && w >>> 128 % 256 == 1) then 0 else 8

/-- The instruction the decoder reads from a row's word (the table numbers bit 0 as the first word's least
significant): up to 32 bits a control word, up to 96 a lane word followed by a zero word, up to 192 a double, up to
512 a command block at position 1 of ring 0 of a partition page, or of the management page for an opcode only it may issue. -/
def decodeTableWord (nbits w : Nat) : Option Instr :=
  if nbits ≤ 32 then some (decodeCtrl (BitVec.ofNat 32 w))
  else if nbits ≤ 192 then decodeLane (BitVec.ofNat 96 w) (some (BitVec.ofNat 96 (w >>> 96)))
  else
    match decodeBlock (tablePage w) 0 1 ((List.range 64).map (fun k => BitVec.ofNat 8 (w >>> (8 * k)))) with
    | .ok i => some i
    | .error _ => none

end Sys2Proof
end

