-- ==== Sys2Proof/Config.lean ====
section
/-! DEFINITION. What the manual leaves open (free values, log entry 1) and the fixed figures of the part. -/

namespace Sys2Proof.Config

/-- A free value: what an unpredictable destination receives (00 R5). First argument: the step's free counter;
second: which of the step's free values. Nothing can be proved about it. -/
opaque freeBits : Nat → Nat → BitVec 64

/-- A free choice between two allowed outcomes (02 R64, 07 R184, R186). -/
opaque freeChoice : Nat → Nat → Bool

/-- Signature, hashes and image bytes whose values the manual does not give (11 R336, R334). -/
opaque freeByte : Nat → Nat → BitVec 8

/-- FEAT1, fixed (11 R332). -/
def feat1 : BitVec 64 := 0x24C83A4421

/-- Exposed latencies in slots (02 R59). -/
def latScalar : Nat := 1
def latInt : Nat := 2
def latMul : Nat := 4
def latFloat : Nat := 4
def latTrans : Nat := 10
def latCross : Nat := 3
def latRed : Nat := 8
def latScratch : Nat := 12
def latAcvt : Nat := 4
def latSrd : Nat := 2

/-- Fixed capacities (01 R19, R20; 02 R36, R44, R56; 03 R72, R91, R103). -/
def cores : Nat := 192
def queueDepth : Nat := 256
def blockQueueDepth : Nat := 256
def returnDepth : Nat := 16
def tokenDepth : Nat := 16
def gatherDepth : Nat := 4096
def laneRegs : Nat := 2048
def scratchLines : Nat := 8192
def lineBytes : Nat := 128
def maxSlots : Nat := 24

end Sys2Proof.Config
end

