-- ==== Sys2Proof/Machine/State.lean ====
section
/-! DEFINITION. The state of the TL-8400 module as plain data: every piece of state the manual names, and the
model's own schedule. INVENTORY.md lists each field with its rule and reset value. -/

namespace Sys2Proof.Machine

/-- Bytes by address: addresses strictly rising, no listed byte zero (an unlisted address reads zero). -/
abbrev Mem := List Host.Cell

/-- The architectural reasons a step stops the model. -/
inductive Fault where
  /-- A control instruction with no resident team at the acting context: nothing fetches it. Raised by every
  control meaning; safe (the hardware has no such step). -/
  | noContext
  /-- A lane word with no group at the acting position: nothing issues it. Raised by every lane meaning; safe. -/
  | noGroup
  deriving DecidableEq, Repr

/-- Why an instruction has no meaning here. -/
inductive Refusal where
  /-- The instruction's meaning is not written. Raised by dispatch arms only; safe. -/
  | notModelled (mnemonic : String)
  deriving DecidableEq, Repr

/-! ### Memory tiers -/

/-- A pool region that POOLCFG mapped (07 R199, R204; 11 R331). -/
structure Region where
  num : Nat
  port : Nat
  ownership : Bool
  owner : Nat
  severed : Bool
  dropped : Nat
  deriving DecidableEq, Repr

/-- A cached pool line: 128 working bytes and, when checked out, its twin (07 R200). -/
structure PoolLine where
  line : Nat
  work : List Byte
  twin : Option (List Byte)
  dirty : Bool
  deriving DecidableEq, Repr

/-- A page-table entry: its level, VA index at that level and 64-bit word (10 R302, R303). -/
structure Pte where
  level : Nat
  idx : Nat
  word : W64
  deriving DecidableEq, Repr

/-- An address space and its tables (10 R302). Left to the model: DESIGN CHOICE, log entry 18. -/
structure AddrSpace where
  asid : Nat
  ptes : List Pte
  deriving DecidableEq, Repr

/-- A poisoned 32-bit word of memory or scratchpad and its cause (10 R300); of the pool tier, in the module's cached copy or at the
device (07 R202-R206). -/
structure PoisonWord where
  scratch : Option Nat
  addr : Nat
  cause : Nat
  copy : Bool
  deriving DecidableEq, Repr

/-! ### Kernels and launches -/

/-- What a kernel image declares (09 R259). -/
structure Image where
  ctrlVa : Nat
  ctrlWords : Nat
  laneVa : Nat
  laneWords : Nat
  entries : List Nat
  n : Nat
  q : Nat
  groups : Nat
  teams : Nat
  w : Nat
  h : Nat
  scratch : Nat
  spill : Nat
  keep : Nat
  discard : List (Nat × Nat)
  deriving DecidableEq, Repr

/-- The verified copy of a partition's privileged image (10 R269, 11 R329): its bytes and what they hold. -/
structure PrivImage where
  bytes : List Byte
  ctrl : List W32
  lanes : List LaneBits
  trapVec : Nat
  saveVec : Nat
  restVec : Nat
  deriving DecidableEq, Repr

/-- One child record of a SPAWN (03 R89), with the team that issued it (R92) and its cluster. `srcCtx` is 8 once that team is
gone. -/
structure SpawnRec where
  part : Nat
  launch : W32
  cluster : Nat
  entry : Nat
  payload : List W32
  join : W64
  depth : Nat
  srcCore : Nat
  srcCtx : Nat
  /-- The issue order of the SPAWN word on its core (R91). -/
  order : Nat
  /-- The physical address of the join counter, as the issuing word's check found it (R88, R89). -/
  joinPa : Nat
  /-- The poison of the payload words: cause and FINFO (10 R300, R313). -/
  poison : List (Option (Nat × W64))
  deriving DecidableEq, Repr

/-- A spilled record, the core that spilled it and its place in spilling order (03 R97). -/
structure SpillRec where
  core : Nat
  slot : Nat
  record : SpawnRec
  order : Nat
  overwritten : Bool
  deriving DecidableEq, Repr

/-! ### Lane state -/

/-- The unfolding descriptor (06 R165). -/
structure Unf where
  t : Nat
  oy0 : Nat
  ox0 : Nat
  chans : Nat
  ow : Nat
  h : Nat
  w : Nat
  kh : Nat
  kw : Nat
  sy : Nat
  sx : Nat
  dy : Nat
  dx : Nat
  py : Nat
  px : Nat
  e : Nat
  deriving DecidableEq, Repr

/-- A matrix loop and its captured operands (06 R160). `win` lists the 32 owned storage registers; `spoiled`
records a touch of R163; `flags` are GSTAT bits not yet merged (05 R133). -/
structure Loop where
  win : List Nat
  a : Nat
  b : Nat
  ia : Int
  ib : Int
  k : Nat
  next : Nat
  fmt : W32
  unf : Option Unf
  /-- When its MLOOP issued, and whether an L access of the group has followed it (15 R421). -/
  time : Nat
  touched : Bool
  complete : Bool
  visible : Bool
  /-- The halted transfers (core, channel, identifier) whose fault the wait for the next step has raised (13 R384). -/
  told : List (Nat × Nat × Nat)
  spoiled : Bool
  /-- The poison of the captured operands: cause and FINFO (10 R300). -/
  poison : Option (Nat × W64)
  flags : W32
  deriving DecidableEq, Repr

/-- What a pending fixed-latency entry writes (10 R281). -/
inductive PendKind where
  | vec | gs | spec | flag
  deriving DecidableEq, Repr

/-- Poison of a register: the lanes it covers (lane 0 for a scalar), its cause and its FINFO (10 R300, R313). -/
structure Poison where
  lanes : Lanes
  cause : Nat
  info : W64
  deriving DecidableEq, Repr

/-- A pending write held with its remaining slots (02 R66, 10 R281). -/
structure Pend where
  kind : PendKind
  reg : Nat
  left : Nat
  lanes : Lanes
  vals : List Elem
  word : W64
  taint : Bool
  poison : Poison
  deriving DecidableEq, Repr

/-- An asynchronous fault waiting for its raising point (10 R269), with the slice, group and lanes it belongs to; a remote store's
waits for no covering marker (07 R183). -/
structure AsyncFault where
  store : Bool
  lane : Bool
  group : Nat
  /-- The word it is raised on has not issued, so RESUME.SKIP may skip it (10 R278, R283). -/
  skip : Bool
  fmask : W32
  cause : Nat
  faddr : W64
  finfo : W64
  deriving DecidableEq, Repr

/-- One lane's part of an access still to be performed (07 R183, 14 R398): the bytes as (core, address), core 192 for memory; the
bytes of its own core that the word has read, by address (07 R182); the field's first bit; and an atomic's operand and compared value. -/
structure RemLane where
  lane : Nat
  bytes : List (Nat × Nat)
  own : List (Nat × Byte)
  shift : Nat
  operand : Nat
  cmp : Nat
  /-- What an atomic of unpredictable operands writes (02 R64). -/
  junk : Option Nat
  /-- The poison cause of the operands (10 R300). -/
  bad : Option Nat
  deriving DecidableEq, Repr

/-- What an access still to be performed does. -/
inductive RemOp where
  | load (ty : BitVec 4)
  | extract (w : Nat) (signed : Bool) (target : BitVec 4)
  | atomic (op : BitVec 3) (ty : BitVec 4)
  deriving DecidableEq, Repr

/-- An access not yet performed: a load's lanes at one remote core, or one lane of an atomic; `order` is when it issued (08 R216). -/
structure RemAcc where
  core : Nat
  order : Nat
  op : RemOp
  lanes : List RemLane
  deriving DecidableEq, Repr

/-- An outstanding variable-latency result (02 R63, R64): registers written (low half first), lanes, values,
whether it has been written, remote parts still to perform, a waiting QPOP's queue, and the lanes a later word
wrote before the covering switch marker. -/
structure VarRes where
  gs : Bool
  regs : List Nat
  lanes : Lanes
  vals : List (List Elem)
  taint : Bool
  poison : Poison
  written : Bool
  remote : List RemAcc
  popQueue : Option Nat
  conflict : Lanes
  /-- The registers whose values are unpredictable whatever the access returns: the word read an unpredictable operand (02 R64), or a
  loop owned them (06 R163). -/
  junk : List Nat
  /-- Lanes whose value comes from the pool tier: lane, region, virtual address (07 R205). -/
  pool : List (Nat × Nat × W64)
  deriving DecidableEq, Repr

/-- A remote store issued and not yet acknowledged (07 R183); `order` is when it issued (08 R216). -/
structure RemStore where
  core : Nat
  order : Nat
  /-- The lanes' bytes, each with its poison cause (10 R300). -/
  parts : List (List (Nat × Byte) × Option Nat)
  performed : Bool
  /-- A freeze stands between its issue and its answer (10 R278). -/
  frozen : Bool
  deriving DecidableEq, Repr

/-- Elements of a QPUSH that have not entered their queue (03 R106). -/
structure Push where
  lanes : Lanes
  sel : W32
  elems : List W32
  /-- The elements' poison: cause and FINFO (10 R300, R313). -/
  poison : List (Option (Nat × W64))
  deriving DecidableEq, Repr

/-- The group's own local scratchpad store not yet visible to its own reads (07 R182). -/
structure OwnStore where
  cells : List (Nat × Byte)
  left : Nat
  deriving DecidableEq, Repr

/-- The fence a group is Parked on (08 R222, R227): VFENCE with its scope and order, or VXFENCE with its scope and paths. -/
inductive FenceReq where
  | fence (scope : BitVec 3) (order : BitVec 2)
  | cross (scope p q : BitVec 3)
  deriving DecidableEq, Repr

/-- Why a group stopped in the middle of a run (02 R65). -/
inductive Susp where
  | line (lines : List Nat)
  | tlb (pages : List Nat)
  | spill
  | loop
  deriving DecidableEq, Repr

/-- The states of a group (02 R67). -/
inductive GStatus where
  | waiting
  | eligible
  | running
  | suspended (why : Susp)
  | parked
  | trussWaiting
  | exited
  deriving DecidableEq, Repr

/-- Where a group stands in its descriptor (10 R281, offset 1). -/
inductive PosState where
  | start | between | mid | done
  deriving DecidableEq, Repr

/-- The part of a group that a routine entry replaces (10 R273, R281). -/
structure GroupPos where
  seq : W32
  st : PosState
  trip : Nat
  run : Nat
  slot : Nat
  word : Nat
  activity : Lanes
  exmask : Lanes
  delivered : Bool
  g1 : W32
  g2 : W32
  g3 : W32
  g123taint : BitVec 3
  fmtStack : List W32
  /-- The poison of the stacked words (10 R300). -/
  fmtBad : List (Option (Nat × W64))
  pend : List Pend
  ownStores : List OwnStore
  status : GStatus
  parkMarker : Bool
  parkFence : Option FenceReq
  parkMmodeV : Bool
  /-- The group ran MMODE.t on a lane set that another group holds (06 R151). -/
  trussReq : Bool
  /-- The place in its lane set's truss order that the freeze record of a resumed waiter gave (10 R292). -/
  trussPos : Option Nat
  pushes : List Push
  /-- Results a freeze set aside: written and uncovered ones, and withdrawn QPOPs (10 R277). -/
  heldOuts : List VarRes
  /-- The poison cause and FINFO to raise at the next run boundary (10 R300). -/
  poisonRun : Option (Nat × W64)
  /-- The run holds a QPUSH, so it ends as though with a switch marker (03 R106). -/
  marked : Bool
  /-- Vector registers whose write became visible at the current slot (06 R163). -/
  landed : List Nat
  deriving DecidableEq, Repr

/-- A group's registers and engines (02 R37). `regs` are the storage registers, `gregs` are g4 and up by index. -/
structure Group where
  pos : GroupPos
  vregs : List VReg
  vtaint : List Bool
  vpoison : List Poison
  gregs : List W32
  gtaint : List Bool
  gpoison : List Poison
  fmt : W32
  shape : BitVec 10
  xpats : List W64
  gstat : W32
  /-- Poison cause and FINFO of the special registers by their R249 number, 8 the execute mask, 9 the unfolding descriptor (10 R300). -/
  spoison : List (Option (Nat × W64))
  unf : Option Unf
  loops : List Loop
  origin : List (BitVec 10)
  outs : List VarRes
  rstores : List RemStore
  spawnPend : List (List SpawnRec)
  async : List AsyncFault
  stamp : Nat
  pass : Nat
  deriving DecidableEq, Repr

/-! ### The team context -/

/-- A block descriptor with its sequence number and activity mask (02 R44). `regroup` is the mask register and
count of a REGROUP marker; `argTaint` is the taint of EMIT's s[B] (08 R230). -/
structure Desc where
  arg1 : W32
  arg0 : W32
  block : BitVec 24
  trip : BitVec 16
  rot : BitVec 6
  mreg : BitVec 4
  push : Bool
  pop : Bool
  peek : Bool
  ret : Bool
  bar : Bool
  seq : W32
  activity : Mask
  argTaint : Bool
  regroup : Option (Nat × Nat)
  /-- The groups that can see it: the Visible stage (R69). -/
  seen : Lanes
  /-- When it was emitted (MODEL). -/
  time : Nat
  deriving DecidableEq, Repr

/-- A return entry: one word per group and which groups have delivered (02 R53), with the words' poison, cause and FINFO (10 R300,
R313), and when its descriptor was emitted (MODEL). -/
structure RetEntry where
  seq : W32
  time : Nat
  words : List (Option W32)
  poison : List (Option (Nat × W64))
  deriving DecidableEq, Repr

/-- A reconvergence token (03 R72). -/
structure Token where
  saved : Mask
  els : Mask
  phase : Bool
  /-- The token holds poisoned data (10 R300). -/
  poison : Bool
  deriving DecidableEq, Repr

/-- The part of the control slice that a routine entry replaces (10 R273). Left to the model: DEDUCED, log entry 22. -/
structure Stream where
  blockQ : List Desc
  returnQ : List RetEntry
  recon : List Token
  seq : W32
  fmtDepth : Nat
  rotb : BitVec 6
  active : Mask
  masks : List Mask
  /-- The m registers that hold poisoned data (10 R300). -/
  mpoison : BitVec 16
  deriving DecidableEq, Repr

/-- The modes of a context (10 R270, R271). -/
inductive Mode where
  | user | trap | save | restore
  deriving DecidableEq, Repr

/-- A freeze that has been triggered and not yet entered (10 R274). -/
structure Trig where
  cause : Nat
  lane : Bool
  group : Nat
  async : Bool
  preempt : Bool
  /-- The trapping lane word has not issued, so RESUME.SKIP may skip it (10 R283). -/
  skippable : Bool
  epc : W64
  faddr : W64
  fmask : W32
  finfo : W64
  deriving DecidableEq, Repr

/-- The freeze record's structured content (10 R280, R281). Left to the model: DESIGN CHOICE, log entry 43. -/
structure Frozen where
  trig : Trig
  stream : Stream
  trigger : Bool
  staint : BitVec 32
  pcs : List GroupPos
  groups : List Group
  truss : List (Bool × Bool)
  /-- Each group's place in its lane set's truss order: 0 the truss group, then the waiters (R292). -/
  trussPos : List Nat
  shadows : List (List W64)
  chanStat : List (List W64)
  deriving DecidableEq, Repr

/-- A child team's depth and one join address per lane (03 R89, R94). -/
structure Child where
  depth : Nat
  joins : List W64
  deriving DecidableEq, Repr

/-- The last load of a control slice, while only ECOMMITs have followed it: its register, physical address, bytes and sign extension.
No order keeps it before the X writes of their transfers (08 R218). -/
structure Recent where
  reg : BitVec 5
  pa : Nat
  len : Nat
  signed : Bool
  deriving DecidableEq, Repr

/-- One of the eight team contexts of a core (02 R42, 10 R271). -/
structure Ctx where
  resident : Bool
  part : Nat
  launch : W32
  cluster : Nat
  team : Nat
  child : Option Child
  base : Nat
  n : Nat
  q : Nat
  debug : Bool
  pc : W64
  s : List W64
  staint : BitVec 32
  spoison : List (Option Nat)
  strm : Stream
  trigger : Bool
  mode : Mode
  trapVec : W64
  saveVec : W64
  restVec : W64
  cause : W64
  epc : W64
  faddr : W64
  fmask : W64
  finfo : W64
  fridx : W64
  resumeR : W64
  ks : List W64
  wait : Option Instr
  recent : Option Recent
  /-- For each channel of its core, what COMPLETE counts as at least for the team: its identifiers from before a pre-emption are
  satisfied (10 R290). -/
  passed : List Nat
  tlbWait : List Nat
  trig : Option Trig
  held : List AsyncFault
  pendPreempt : Bool
  frozen : Option Frozen
  groups : List Group
  deriving DecidableEq, Repr

/-! ### The core -/

/-- A transfer of a copy channel (07 R184, R187): its core and channel, its captured registers, who committed it, the reservations of its cluster as
(core, lines) by team, the reservation size (07 R177), the scratchpad lines (core, line) whose presence count it still
holds, and the lines landed since it started or restarted. -/
structure Xfer where
  core : Nat
  ch : Nat
  id : Nat
  regs : List W64
  /-- When its ECOMMIT retired (08 R208). -/
  time : Nat
  asid : Nat
  part : Nat
  ctx : Nat
  launch : W32
  cluster : Nat
  team : Nat
  child : Bool
  windows : List (Nat × List Nat)
  scratch : Nat
  lines : List (Nat × Nat)
  landed : List (Nat × Nat)
  deriving DecidableEq, Repr

/-- A copy channel (07 R184, R185). -/
structure Chan where
  shadow : List W64
  queued : Option Xfer
  active : Option Xfer
  halted : Bool
  faultCause : Nat
  faultAddr : W64
  /-- FINFO of the fault the channel halted on, where it is no channel's (10 R313). -/
  faultInfo : W64
  complete : Nat
  nextId : Nat
  deriving DecidableEq, Repr

/-- A lane set's running group, truss group and Truss-waiting list (02 R58, 06 R148, R152), by context and group. -/
structure LaneSet where
  running : Option (Nat × Nat)
  truss : Option (Nat × Nat)
  trussWait : List (Nat × Nat)
  deriving DecidableEq, Repr

/-- A scratchpad reservation: the lines firmware chose for a launched team (07 R179). -/
structure Resv where
  part : Nat
  launch : W32
  cluster : Nat
  team : Nat
  lines : List Nat
  deriving DecidableEq, Repr

/-- A register-mapped queue and its waiting consumers in issue order (03 R103, R105). -/
structure RQueue where
  elems : List W32
  /-- The elements' poison, cause and FINFO; a missing one is none (10 R300, R313). -/
  poison : List (Option (Nat × W64))
  /-- When the QPUSH of each element entered (MODEL). -/
  times : List Nat
  pops : List (Nat × Nat)
  deriving DecidableEq, Repr

/-- A page a core's TLBs hold: for one address space, or for every one of its partition (10 R303). -/
structure TlbEntry where
  asid : Nat
  page : Nat
  globalTo : Option Nat
  deriving DecidableEq, Repr

structure Core where
  ctxs : List Ctx
  scr : Mem
  presence : List (Nat × Nat)
  resvs : List Resv
  chans : List Chan
  queues : List RQueue
  gather : List SpawnRec
  spilling : Bool
  formed : List (List SpawnRec)
  childRes : Option (Nat × Nat × Nat)
  lanesets : List LaneSet
  lastFetch : Nat
  tlb : List TlbEntry
  /-- The channel status of the pre-emption under way on the core (10 R293). -/
  preStat : List (List W64)
  deriving DecidableEq, Repr

/-! ### Launches, partitions, rings -/

inductive LStatus where
  | waiting | held | placed | preempting | preempted | completed
  deriving DecidableEq, Repr

/-- A placed cluster: the core of each team, with its context and base lane set, in team order (04 R110). -/
structure Cluster where
  cores : List (Nat × Nat × Nat)
  exited : List Bool
  triggers : List Bool
  freed : Bool
  deriving DecidableEq, Repr

/-- A pre-empted team: the context as it stood, with its core and context index (10 R290), and what the core then held: the child
reservation (04 R114) and the channels' next identifiers. -/
structure SavedTeam where
  core : Nat
  ctx : Nat
  res : Option (Nat × Nat × Nat)
  /-- The identifiers its core's channels would assign next (10 R290). -/
  ids : List Nat
  /-- The context number that stands for it among the agents of the order while it is away (MODEL). -/
  name : Nat
  body : Ctx
  deriving DecidableEq, Repr

/-- A byte of a launch's code that was written since its submission: its physical address, what it held, and the contexts (core,
context) whose IFENCE the write came before (04 R119, 08 R229). -/
structure OldByte where
  addr : Nat
  was : Byte
  fenced : List (Nat × Nat)
  deriving DecidableEq, Repr

/-- A launch known to firmware (04 R108). -/
structure Launch where
  part : Nat
  id : W32
  page : Nat
  ring : Nat
  img : Image
  asid : Nat
  clusters : Nat
  spillBase : W64
  queues : BitVec 16
  priority : Nat
  producers : List W32
  arg : W64
  debug : Bool
  status : LStatus
  byCommand : Bool
  arrival : Nat
  placed : List Cluster
  faults : Nat
  firstCause : Option Nat
  terminated : Bool
  /-- Failed join decrements: address, cause, FINFO (03 R95, R96). -/
  joinFails : List (W64 × Nat × W64)
  refillCause : Option (Nat × W64)
  spilled : List SpillRec
  keptQueues : List (Nat × Nat × RQueue)
  keptGather : List (Nat × SpawnRec)
  keptFormed : List (Nat × List SpawnRec)
  /-- The child reservations of cores whose records firmware keeps: core, context, lane set (04 R112, R114). -/
  keptRes : List (Nat × Nat × Nat)
  /-- What the words of its image held that were written since its submission (04 R119). -/
  oldCode : List OldByte
  saved : List SavedTeam
  placeOrder : Nat
  deriving DecidableEq, Repr

/-- A partition (11 R326, R329). -/
structure Partition where
  id : Nat
  halfDecks : BitVec 8
  asidFirst : Nat
  asidCount : Nat
  stierBase : Nat
  stierSize : Nat
  watchdog : Nat
  privVa : W64
  priv : Option PrivImage
  save : W64
  ringTable : W64
  pasid : BitVec 20
  halted : Bool
  /-- A RESET has ended the power stop for the partition (01 R26). -/
  released : Bool
  frozen : Bool
  sealed : Bool
  deriving DecidableEq, Repr

/-- A completion record (11 R321). -/
structure Record where
  status : Nat
  cause : Option Nat
  faults : Nat
  tag : W32
  result : W64
  deriving DecidableEq, Repr

structure SubRing where
  present : Bool
  base : Nat
  entries : Nat
  event : Nat
  consumer : Nat
  announced : Nat
  /-- The producer index of each doorbell whose blocks still wait, and when it was rung, in the order of writes (04 R119). -/
  rung : List (Nat × Nat)
  deriving DecidableEq, Repr

structure EvRing where
  present : Bool
  base : Nat
  entries : Nat
  count : Nat
  delay : Nat
  produced : Nat
  consumed : Nat
  held : List Record
  since : Nat
  deriving DecidableEq, Repr

/-- One BAR0 page's rings (11 R316). -/
structure Page where
  table : Nat
  subs : List SubRing
  evs : List EvRing
  deriving DecidableEq, Repr

/-- A command whose completion record waits for others to finish: PREEMPT and FREEZE (11 R438), MAP and UNMAP (10 R306), POOLCFG (11
R331). -/
structure PendingCmd where
  src : CmdSrc
  map : Option Instr
  freeze : Option (Nat × W64 × W64)
  part : Nat
  ids : List W32
  halt : Bool
  cause : Option Nat
  /-- The save routines that were terminated (11 R321). -/
  faults : Nat
  deriving DecidableEq, Repr

/-- A freeze image as firmware reads it back (11 R334): kept beside the bytes, whose layout the manual leaves open.
Left to the model: DESIGN CHOICE, log entry 35. -/
structure FreezeImage where
  kind : Nat
  addr : W64
  part : Partition
  part0 : Nat
  channels : BitVec 32
  launches : List Launch
  spaces : List AddrSpace
  regions : List Nat
  pages : Mem
  /-- The image's bytes as they were written. -/
  bytes : List Byte
  deriving DecidableEq, Repr

inductive BootPhase where
  | off | training | ready | rejected | tripped
  deriving DecidableEq, Repr

/-- Bring-up state behind BOOTSTAT (11 R314, R335). -/
structure Boot where
  phase : BootPhase
  verified : Bool
  reduced : Bool
  thermal : Bool
  ready : BitVec 4
  failed : BitVec 4
  fails : List Nat
  stier : Bool
  poolPorts : BitVec 8
  deriving DecidableEq, Repr

/-- Which units the part has enabled (01 R28-R30, 11 R332). -/
structure Part where
  cores : List (BitVec 48)
  channels : BitVec 32
  ports : BitVec 8
  deriving DecidableEq, Repr

/-- The paths of access events (08 R208). `w` stands for the X writes of a context's later transfers alone, which a release
orders and their reads it does not (R221); `gotL`, `gotX` and `gotS` for the L, X and S events a context has acquired (R225). -/
inductive Path where
  | c | l | x | u | s | w | gotL | gotX | gotS
  deriving DecidableEq, Repr

/-- An agent on one of its paths (08 R207, R208): a context; one of its groups; a copy channel that acts for it, by its number. A
context whose team has ended has a number of its own from 8 up. -/
structure Agent where
  core : Nat
  ctx : Nat
  grp : Option Nat
  path : Path
  deriving DecidableEq, Repr

/-- Agents that an event happens before: one, every agent of a context, the transfers a context commits later, or all. -/
inductive View where
  | one (a : Agent)
  | team (core ctx : Nat)
  | copies (core ctx : Nat)
  | all
  deriving DecidableEq, Repr

/-- Agents from a time on: the events they issue then come after another event. Times count the machine's steps. -/
structure Since where
  view : View
  time : Nat
  deriving DecidableEq, Repr

/-- The cores a scope holds (08 R210). -/
inductive Reach where
  | cores (l : List Nat)
  | deck (d : Nat)
  | all
  deriving DecidableEq, Repr

/-- What carries a release to its acquire (08 R220): a write, for a fence and for the order of an XFENCE; the descriptor, the return
entry or the barrier of a context's descriptor by the time of its emission; a queue of a core; a SPAWN by its issue order; a launch's
join decrements; its triggers; a transfer of a core's channel. -/
inductive Link where
  | fence
  | cross
  | block (core ctx time : Nat)
  | ret (core ctx time : Nat)
  | barrier (core ctx time : Nat)
  | queue (core q : Nat)
  | spawn (order : Nat)
  | join (part : Nat) (launch : W32)
  | trigger (part : Nat) (launch : W32)
  | transfer (core ch id : Nat)
  deriving DecidableEq, Repr

/-- A release that has been performed (08 R219): the agents whose events, issued or acquired up to then, it covers; the agents whose
writes come after it; its scope; its time; and the contexts in which a load-consume has returned a write after it (R231). -/
structure Release where
  link : Link
  agents : List Agent
  after : List Since
  reach : Reach
  time : Nat
  fed : List Agent
  deriving DecidableEq, Repr

/-- A store in its agent's store queue (08 R216): when it issued, whether it goes to the host window (R232), the loop reads it was
ordered before (R227), its scratchpad core (none: memory), bytes and poison cause. -/
structure Store where
  agent : Agent
  order : Nat
  host : Bool
  toward : List Agent
  scratch : Option Nat
  cells : List (Nat × Byte)
  poison : Option Nat
  deriving DecidableEq, Repr

/-- A write in coherence order that some agents may not see yet (08 R209, R218): its agent and when it issued, a transfer's at its
ECOMMIT; whether a read-modify-write made it; what it replaced, by address, with the poison cause; the agents it happens before, and
those that a read of it happens before; and the agents toward which it was performed with no order. With no bytes it is an event that
writes nothing: the ECOMMIT of a transfer into scratchpad (R228), or an L access after an MLOOP (15 R421). -/
structure Late where
  agent : Agent
  order : Nat
  rmw : Bool
  scratch : Option Nat
  cells : List (Nat × Byte × Option Nat)
  before : List Since
  read : List Since
  shown : List Agent
  deriving DecidableEq, Repr

/-- The acting agent: core, context and group whose instruction `exec` gives the meaning of (MODEL). -/
structure Cur where
  core : Nat
  ctx : Nat
  group : Nat
  deriving DecidableEq, Repr

/-- Which agent moves next (MODEL): a core's fetch, a lane set, an event, passing device time, a write of host
memory by the host, a write of the pool device by another module, the oldest store to the host window or elsewhere leaving a store
queue (08 R216), a write performed toward an agent (R218), the last load of a control slice performed now (R218), the check-in of a
pool line whose set is full (07 R200). -/
inductive Turn where
  | control (core : Nat)
  | lane (core ls : Nat)
  | event (i : Instr)
  | tick (ns : Nat)
  | hostWrite (addr : Nat) (bytes : List Byte)
  | poolWrite (addr : Nat) (bytes : List Byte)
  | drain (core ctx : Nat) (grp : Option Nat) (host : Bool)
  | perform (write : Nat) (a : Agent)
  | reload (core ctx : Nat)
  | checkIn (line : Nat)
  deriving DecidableEq, Repr

structure State where
  cur : Cur
  agenda : List Turn
  freeCtr : Nat
  stamp : Nat
  devTime : W64
  coreClock : Nat
  throttledNs : W64
  part : Part
  powerLimit : Nat
  meanAbove : Nat
  meanBelow : Nat
  /-- PARTITION POWER set a limit that no sample has compared yet (11 R337). -/
  limitSet : Bool
  stopped : Bool
  temps : List Nat
  boot : Boot
  sbe : W64
  ports : List (Nat × Nat)
  irqs : List Nat
  mgmtTable : W64
  mem : Mem
  host : Mem
  poolDev : Mem
  poolLines : List PoolLine
  regions : List Region
  spaces : List AddrSpace
  poison : List PoisonWord
  /-- The store queues, oldest store first (08 R216). -/
  queue : List Store
  /-- The writes not yet performed toward every agent, in coherence order (08 R209). -/
  late : List Late
  /-- The releases performed, oldest first (08 R219). -/
  releases : List Release
  /-- What bytes held that were written while submitted blocks wait, with the order of the writes (04 R119). -/
  wrote : List (Nat × Nat × Byte)
  parts : List Partition
  pages : List Page
  launches : List Launch
  cmds : List PendingCmd
  images : List FreezeImage
  cores : List Core
  deriving DecidableEq, Repr

/-! ### Reset values -/

def Poison.none : Poison := { lanes := 0, cause := 0, info := 0 }

def Stream.fresh : Stream :=
  { blockQ := [], returnQ := [], recon := [], seq := 0, fmtDepth := 0, rotb := 0, active := 0,
    masks := List.replicate 16 0, mpoison := 0 }

def GroupPos.fresh : GroupPos :=
  { seq := 0, st := .start, trip := 0, run := 0, slot := 0, word := 0, activity := 0, exmask := 0,
    delivered := false, g1 := 0, g2 := 0, g3 := 0, g123taint := 0, fmtStack := [], fmtBad := [], pend := [], ownStores := [],
    status := .waiting, parkMarker := false, parkFence := none, parkMmodeV := false, trussReq := false, trussPos := none, pushes := [],
    heldOuts := [], poisonRun := none, marked := false, landed := [] }

/-- A group at team launch (02 R41): SHAPE is 32 rows by 32 columns; lane i of group g has origin 32g + i. -/
def Group.fresh (n q g : Nat) : Group :=
  { pos := GroupPos.fresh, vregs := List.replicate n VReg.zero, vtaint := List.replicate n false,
    vpoison := List.replicate n Poison.none, gregs := List.replicate q 0, gtaint := List.replicate q false,
    gpoison := List.replicate q Poison.none, fmt := 0, shape := 0x3FF, xpats := List.replicate 4 0, gstat := 0,
    spoison := List.replicate 10 none, unf := none, loops := [], origin := (List.range 32).map (fun i => BitVec.ofNat 10 (32 * g + i)), outs := [],
    rstores := [], spawnPend := [], async := [], stamp := 0, pass := 0 }

/-- A context that holds no team. -/
def Ctx.free : Ctx :=
  { resident := false, part := 0, launch := 0, cluster := 0, team := 0, child := none, base := 0, n := 32, q := 16,
    debug := false, pc := 0, s := List.replicate 32 0, staint := 0, spoison := List.replicate 32 none,
    strm := Stream.fresh, trigger := false, mode := .user, trapVec := 0, saveVec := 0, restVec := 0, cause := 0,
    epc := 0, faddr := 0, fmask := 0, finfo := 0, fridx := 0, resumeR := 0, ks := List.replicate 4 0, wait := none,
    recent := none, passed := List.replicate 8 1, tlbWait := [], trig := none, held := [], pendPreempt := false, frozen := none, groups := [] }

/-- Engine registers at reset: every count 1, the rest 0 (07 R185). -/
def Chan.shadowReset : List W64 := [0, 0, 0, 0] ++ List.replicate 8 1 ++ List.replicate 16 0

def Chan.reset : Chan :=
  { shadow := Chan.shadowReset, queued := none, active := none, halted := false, faultCause := 0, faultAddr := 0, faultInfo := 0,
    complete := 1, nextId := 1 }

/-- Left to the model: DESIGN CHOICE, log entry 3. -/
def Core.idle : Core :=
  { ctxs := List.replicate 8 Ctx.free, scr := [], presence := [], resvs := [], chans := List.replicate 8 Chan.reset,
    queues := List.replicate 16 { elems := [], poison := [], times := [], pops := [] }, gather := [], spilling := false, formed := [],
    childRes := none, lanesets := List.replicate 4 { running := none, truss := none, trussWait := [] },
    lastFetch := 7, tlb := [], preStat := [] }

def Page.empty : Page :=
  { table := 0,
    subs := List.replicate 16 { present := false, base := 0, entries := 0, event := 0, consumer := 0, announced := 0, rung := [] },
    evs := List.replicate 16 { present := false, base := 0, entries := 0, count := 1, delay := 0, produced := 0,
                               consumed := 0, held := [], since := 0 } }

def Boot.off : Boot :=
  { phase := .off, verified := false, reduced := false, thermal := false, ready := 0, failed := 0,
    fails := [0, 0, 0, 0], stier := false, poolPorts := 0 }

/-- Every unit enabled (log entry 3). -/
def Part.full : Part :=
  { cores := List.replicate 4 (BitVec.allOnes 48), channels := BitVec.allOnes 32, ports := BitVec.allOnes 8 }

/-- The module right after reset: before bring-up, with no partition and no launch.
Left to the model: DESIGN CHOICE, log entry 3. -/
def State.reset : State :=
  { cur := { core := 0, ctx := 0, group := 0 }, agenda := [], freeCtr := 0, stamp := 0, devTime := 0,
    coreClock := 1500, throttledNs := 0, part := Part.full, powerLimit := 2000, meanAbove := 0, meanBelow := 0,
    limitSet := false, stopped := false, temps := List.replicate 6 25, boot := Boot.off, sbe := 0, ports := List.replicate 8 (0, 0),
    irqs := [], mgmtTable := 0, mem := [], host := [], poolDev := [], poolLines := [], regions := [], spaces := [],
    poison := [], queue := [], late := [], releases := [], wrote := [], parts := [], pages := List.replicate 9 Page.empty, launches := [], cmds := [], images := [],
    cores := List.replicate 192 Core.idle }

end Sys2Proof.Machine
end

