-- ==== Sys2Proof/Machine/Mem.lean ====
section
/-! DEFINITION. Bytes: the canonical byte list, physical memory with its tiers (07 R174), the pool tier with its twins
(07 R199-R204), and soft-error poison on storage (10 R300). -/

namespace Sys2Proof.Machine

/-! ### Canonical byte lists -/

/-- Left to the model: DESIGN CHOICE, log entry 4. -/
def Mem.get : Mem → Nat → Byte
  | [], _ => 0
  | (k, v) :: r, a => if k = a then v else Mem.get r a

def Mem.set : Mem → Nat → Byte → Mem
  | [], a, b => if b = 0 then [] else [(a, b)]
  | (k, v) :: r, a, b =>
    if a < k then (if b = 0 then (k, v) :: r else (a, b) :: (k, v) :: r)
    else if a = k then (if b = 0 then r else (a, b) :: r)
    else (k, v) :: Mem.set r a b

/-- The canonical form: addresses strictly rising, no listed byte equal to what an unlisted address reads as. -/
def Mem.wf (m : Mem) : Bool :=
  m.all (fun c => c.2 != 0) && decide (m.Pairwise (fun x y => x.1 < y.1))

/-- Little-endian bytes of a number (00 R8). -/
def bytesOf : Nat → Nat → List Byte
  | 0, _ => []
  | n + 1, v => BitVec.ofNat 8 v :: bytesOf n (v / 256)

/-- The number of little-endian bytes. -/
def natOf : List Byte → Nat
  | [] => 0
  | b :: r => b.toNat + 256 * natOf r

def Mem.readBytes (m : Mem) (a n : Nat) : List Byte := (List.range n).map (fun i => m.get (a + i))

def Mem.writeBytes : Mem → Nat → List Byte → Mem
  | m, _, [] => m
  | m, a, b :: r => Mem.writeBytes (m.set a b) (a + 1) r

/-- Applies a list of (address, byte) cells in order. -/
def Mem.writeCells (m : Mem) (cs : List (Nat × Byte)) : Mem := cs.foldl (fun m c => m.set c.1 c.2) m

/-! ### Physical tiers -/

/-- The ranges of R174. -/
inductive Tier where
  | dram (deck off : Nat)
  | stier (off : Nat)
  | pool (region : Nat)
  | hostw (hpa : Nat)
  | hole
  deriving DecidableEq, Repr

def dramBytes : Nat := 47 * GiB
def stierBase : Nat := 0x10000000000
def poolBase : Nat := 0x1000000000000
def hostBase : Nat := 0x8000000000000

/-- Set bits of a word. -/
def popcount {n : Nat} (w : BitVec n) : Nat := (List.range n).foldl (fun acc i => acc + (w.getLsbD i).toNat) 0

/-- 32 GiB for each enabled channel (01 R29). -/
def stierBytes (s : State) : Nat := 32 * GiB * popcount s.part.channels

def tierOf (s : State) (pa : Nat) : Tier :=
  if pa < 4 * (64 * GiB) then
    if pa % (64 * GiB) < dramBytes then .dram (pa / (64 * GiB)) (pa % (64 * GiB)) else .hole
  else if stierBase ≤ pa ∧ pa < stierBase + stierBytes s then .stier (pa - stierBase)
  else if poolBase ≤ pa ∧ pa < 2 * poolBase then .pool ((pa - poolBase) / GiB)
  else if hostBase ≤ pa ∧ pa < 2 * hostBase then .hostw (pa - hostBase)
  else .hole

/-- The space number of an access fault (00 R13, 10 R311): the host window takes space 0. -/
def Tier.space : Tier → Nat
  | .stier _ => 1
  | .pool _ => 2
  | _ => 0

def State.region (s : State) (r : Nat) : Option Region := s.regions.find? (fun x => x.num == r)

/-- Half-deck that owns an offset of a deck's bonded DRAM (11 R326). -/
def halfDeckOf (deck off : Nat) : Nat := 2 * deck + (if off < dramBytes / 2 then 0 else 1)

/-- Whether a partition owns a physical address (07 R176, 11 R326); the host window is open to all. -/
def owns (s : State) (p : Partition) (pa : Nat) : Bool :=
  match tierOf s pa with
  | .dram d o => p.halfDecks.getLsbD (halfDeckOf d o)
  | .stier o => decide (p.stierBase ≤ o ∧ o < p.stierBase + p.stierSize)
  | .pool r => match s.region r with
    | some x => x.owner == p.id
    | none => false
  | .hostw _ => true
  | .hole => false

def State.partition (s : State) (id : Nat) : Option Partition := s.parts.find? (fun p => p.id == id)

/-! ### Pool lines -/

def poolLineOf (pa : Nat) : Nat := pa / 128

def State.poolLine (s : State) (line : Nat) : Option PoolLine := s.poolLines.find? (fun l => l.line == line)

/-- A check-in sends the bytes that differ from the twin, or a whole dirty exclusive line, and drops the line
(07 R199, R201). -/
def checkInLine (dev : Mem) (l : PoolLine) : Mem :=
  match l.twin with
  | some t => dev.writeCells (((List.range 128).zip (l.work.zip t)).filterMap
      (fun x => if x.2.1 = x.2.2 then none else some (128 * l.line + x.1, x.2.1)))
  | none => if l.dirty then dev.writeBytes (128 * l.line) l.work else dev

/-- Whether a check-in of the line sends a byte of the word at an address. -/
def PoolLine.sends (l : PoolLine) (a : Nat) : Bool :=
  l.line == poolLineOf a && (match l.twin with
    | some t => (l.work.drop (a % 128)).take 4 != (t.drop (a % 128)).take 4
    | none => l.dirty)

/-- Checks in and drops the cached lines that `p` selects; the poison of the words sent is then the device's (10 R300). -/
def checkInWhere (s : State) (p : PoolLine → Bool) : State :=
  { s with poolDev := (s.poolLines.filter p).foldl checkInLine s.poolDev,
           poolLines := s.poolLines.filter (fun l => !p l),
           poison := s.poison.map (fun w =>
             if w.copy && s.poolLines.any (fun l => p l && l.sends w.addr) then { w with copy := false } else w) }

/-- Every cached copy of the addresses that `p` selects is dropped, and its poison with it (07 R202, R204). -/
def dropCopies (s : State) (p : Nat → Bool) : State := { s with poison := s.poison.filter (fun w => !(w.copy && p w.addr)) }

/-- The region of a pool line. -/
def lineRegion (l : PoolLine) : Nat := (128 * l.line - poolBase) / GiB

def regionSevered (s : State) (r : Nat) : Bool :=
  match s.region r with
  | some x => x.severed
  | none => false

/-- A pool-scope or system-scope release checks in every checked-out line of the module but those of severed regions
(07 R201, R203, R205). -/
def checkInAll (s : State) : State := checkInWhere s (fun l => l.twin.isSome && !regionSevered s (lineRegion l))

/-- The set of a checked-out line is full, and it is the oldest there: it is checked in to make room (07 R200).
Left to the model: DESIGN CHOICE, log entry 46. -/
def makeRoom (s : State) (line : Nat) : State :=
  checkInWhere s (fun l => l.line == line && l.twin.isSome && !regionSevered s (lineRegion l))

/-- The line as it is cached, or as the device holds it, ready for a first write (07 R199, R200). -/
def poolOpen (s : State) (line : Nat) : PoolLine :=
  match s.poolLine line with
  | some l => l
  | none =>
    let own := match s.region ((128 * line - poolBase) / GiB) with
      | some r => r.ownership
      | none => false
    let bytes := s.poolDev.readBytes (128 * line) 128
    { line := line, work := bytes, twin := if own then none else some bytes, dirty := own }

def poolReadByte (s : State) (pa : Nat) : Byte :=
  match s.poolLine (poolLineOf pa) with
  | some l => l.work.getD (pa % 128) 0
  | none => s.poolDev.get pa

def poolWriteByte (s : State) (pa : Nat) (b : Byte) : State :=
  let l := poolOpen s (poolLineOf pa)
  let new := { l with work := l.work.set (pa % 128) b }
  { s with poolLines := if s.poolLines.any (fun x => x.line == l.line)
      then s.poolLines.map (fun x => if x.line == l.line then new else x) else s.poolLines ++ [new] }

/-! ### Physical bytes -/

def readByte (s : State) (pa : Nat) : Byte :=
  match tierOf s pa with
  | .dram _ _ => s.mem.get pa
  | .stier _ => s.mem.get pa
  | .pool _ => poolReadByte s pa
  | .hostw h => s.host.get h
  | .hole => 0

/-- Left to the model: DESIGN CHOICE, log entry 5. -/
def writeByte (s : State) (pa : Nat) (b : Byte) : State :=
  match tierOf s pa with
  | .dram _ _ => { s with mem := s.mem.set pa b }
  | .stier _ => { s with mem := s.mem.set pa b }
  | .pool _ => poolWriteByte s pa b
  | .hostw h => { s with host := s.host.set h b }
  | .hole => s

def readPhys (s : State) (pa n : Nat) : List Byte := (List.range n).map (fun i => readByte s (pa + i))

def writePhys : State → Nat → List Byte → State
  | s, _, [] => s
  | s, pa, b :: r => writePhys (writeByte s pa b) (pa + 1) r

/-- n bytes at a physical address as a little-endian number. -/
def readNat (s : State) (pa n : Nat) : Nat := natOf (readPhys s pa n)

/-! ### Poison -/

/-- The first poisoned word that holds a byte of a physical or scratchpad range: its cause and address (10 R300, R313). -/
def poisonOf (s : State) (scratch : Option Nat) (addr n : Nat) : Option (Nat × Nat) :=
  (s.poison.find? (fun p => p.scratch == scratch && decide (addr / 4 ≤ p.addr / 4 ∧ p.addr / 4 ≤ (addr + n - 1) / 4))).map
    (fun p => (p.cause, p.addr))

def isPool (s : State) (pa : Nat) : Bool :=
  match tierOf s pa with
  | .pool _ => true
  | _ => false

/-- Marks the words of n bytes poisoned with a cause, or clean, words written in part too; a pool word in its cached copy.
Left to the model: DESIGN CHOICE, log entry 47. -/
def setPoison (s : State) (scratch : Option Nat) (addr n : Nat) (cause : Option Nat) : State :=
  let rest := s.poison.filter
    (fun p => !(p.scratch == scratch && decide (addr / 4 ≤ p.addr / 4 ∧ p.addr / 4 ≤ (addr + n - 1) / 4)))
  match cause with
  | none => if s.poison = [] then s else { s with poison := rest }
  | some c =>
    let words := (List.range ((addr + n - 1) / 4 - addr / 4 + 1)).map
      (fun i => PoisonWord.mk scratch (4 * (addr / 4 + i)) c (scratch.isNone && isPool s addr))
    { s with poison := rest ++ words }

end Sys2Proof.Machine
end

