-- ==== Sys2Proof/Machine/Translate.lean ====
section
/-! DEFINITION. Translation (10 R302-R304), the access checks in the order of R268 and the access-fault codes of
00 R13 and 10 R311, R313. -/

namespace Sys2Proof.Machine

/-- Access kinds in the order of 00 R13. -/
inductive Kind where
  | rd | wr | at | fe | cs | cd | un | sp
  deriving DecidableEq, Repr

def Kind.code : Kind → Nat
  | .rd => 0 | .wr => 1 | .at => 2 | .fe => 3 | .cs => 4 | .cd => 5 | .un => 6 | .sp => 7

/-- Reasons in the order of 00 R13. -/
def rNP : Nat := 0
def rPERM : Nat := 1
def rALIGN : Nat := 2
def rPART : Nat := 3

/-- The access-fault cause (00 R13). -/
def accessCause (space : Nat) (k : Kind) (reason : Nat) : Nat := 0x080 + 32 * space + 4 * k.code + reason

def cPOOLSEVER : Nat := 0x100
def cPOOLATOM : Nat := 0x101
def cPOOLPOISON : Nat := 0x102

/-- A cause with its FINFO (10 R313). -/
structure AFault where
  cause : Nat
  finfo : W64
  deriving DecidableEq, Repr

/-- Permissions of an entry: R, W, X (10 R303). -/
def permOk (k : Kind) (e : W64) : Bool :=
  match k with
  | .rd | .cs | .un => bit e 2
  | .wr | .cd => bit e 3
  | .at | .sp => bit e 2 && bit e 3
  | .fe => bit e 4

def AddrSpace.entry (sp : AddrSpace) (level idx : Nat) : Option W64 :=
  (sp.ptes.find? (fun p => p.level == level && p.idx == idx && bit p.word 0)).map (·.word)

/-- The leaf entry and physical address of a virtual address (10 R302-R304): a leaf at level 2 or 1 needs L; level 0
is always a leaf; a leaf at level 3 is invalid. -/
def AddrSpace.walk (sp : AddrSpace) (va : Nat) : Option (Nat × W64) :=
  if va ≥ 2 ^ 56 then none
  else
    let leaf (lvl sh : Nat) : Option (Nat × W64) :=
      (sp.entry lvl (va >>> sh)).bind (fun e =>
        if lvl = 0 || bit e 5 then some (((fld e 12 40).toNat * 4096) / 2 ^ sh * 2 ^ sh + va % 2 ^ sh, e) else none)
    match leaf 2 30 with
    | some r => some r
    | none => match leaf 1 21 with
      | some r => some r
      | none => leaf 0 12

def State.space (s : State) (asid : Nat) : AddrSpace :=
  (s.spaces.find? (fun x => x.asid == asid)).getD { asid := asid, ptes := [] }

def translate (s : State) (asid va : Nat) : Option (Nat × W64) := (s.space asid).walk va

/-- FINFO of an access fault: path code and the low 24 bits of the physical page number of the translation used (10 R313).
Left to the model: DESIGN CHOICE, log entry 53. -/
def finfoAccess (path : Nat) (t : Option (Nat × W64)) : W64 :=
  BitVec.ofNat 64 path + (match t with
    | some (pa, _) => BitVec.ofNat 64 ((pa / 4096 % 2 ^ 24) * 256)
    | none => 0)

/-- FINFO of POOLSEVER: region and dropped-line count (10 R313). -/
def finfoSever (r : Region) : W64 := BitVec.ofNat 64 (r.num % 2 ^ 18 + (r.dropped % 2 ^ 32) * 2 ^ 32)

/-- The pool rules, the last check of R268: POOLATOM on a merge-mode region, then POOLSEVER. JWAIT reads a merge-mode
region without POOLATOM (13 R373), so `atomic` says whether the access is a read-modify-write. -/
def poolCheck (s : State) (pa path : Nat) (atomic : Bool) (t : Option (Nat × W64)) : Option AFault :=
  match tierOf s pa with
  | .pool r =>
    match s.region r with
    | none => none
    | some x =>
      if atomic && !x.ownership then some { cause := cPOOLATOM, finfo := finfoAccess path t }
      else if x.severed then some { cause := cPOOLSEVER, finfo := finfoSever x }
      else none
  | _ => none

/-- Checks one memory access of a partition through an address space, in the order of R268: address form, alignment,
translation, permission, partition, pool rules. The answer is the physical address. -/
def checkAccess (s : State) (part asid : Nat) (k : Kind) (path : Nat) (va : W64) (align : Nat) (atomic : Bool) :
    Except AFault Nat :=
  let t := translate s asid va.toNat
  let space := match t with
    | some (pa, _) => (tierOf s pa).space
    | none => 0
  let bad (r : Nat) : Except AFault Nat := .error { cause := accessCause space k r, finfo := finfoAccess path t }
  if va.toNat ≥ 2 ^ 56 then bad rNP
  else if va.toNat % align ≠ 0 then bad rALIGN
  else match t with
    | none => bad rNP
    | some (pa, e) =>
      if !permOk k e then bad rPERM
      else if !((s.partition part).any (fun p => owns s p pa)) then bad rPART
      else match poolCheck s pa path atomic t with
        | some f => .error f
        | none => .ok pa

/-- An address-space identifier of a partition (11 R326). -/
def ownsAsid (p : Partition) (a : Nat) : Bool := decide (p.asidFirst ≤ a ∧ a < p.asidFirst + p.asidCount)

/-- A TLB entry serves its own address space; a global one every address space of its partition (10 R303). -/
def TlbEntry.serves (s : State) (e : TlbEntry) (asid : Nat) : Bool :=
  e.asid == asid || e.globalTo.any (fun p => (s.partition p).any (fun q => ownsAsid q asid))

/-- Whether a virtual address's page is held by the core's TLBs (10 R305). Left to the model: DESIGN CHOICE, log entry 8. -/
def tlbHit (s : State) (c : Core) (asid va : Nat) : Bool := c.tlb.any (fun e => e.page == va / 4096 && e.serves s asid)

/-- The pages an access of n bytes needs and the TLBs lack; an address the form check refuses needs none. -/
def tlbMisses (s : State) (core asid : Nat) (vas : List W64) : List Nat :=
  match s.cores[core]? with
  | none => []
  | some c => (vas.filter (fun v => v.toNat < 2 ^ 56 && !tlbHit s c asid v.toNat)).map (fun v => v.toNat / 4096)

end Sys2Proof.Machine
end

