-- ==== Sys2Proof/Machine/Agents.lean ====
section
/-! DEFINITION. Access to cores, contexts, groups and launches; scalar registers (02 R42); cause codes (10 R308-R312). -/

namespace Sys2Proof.Machine

abbrev Out := Host.Outcome State Fault Refusal

/-! ### Cause codes (10 R308-R312) -/

def cILLOP : Nat := 0x000
def cPAIRCLASS : Nat := 0x001
def cPAIRDEST : Nat := 0x002
def cPAIRBANK : Nat := 0x003
def cPAIRWIDE : Nat := 0x004
def cRESFIELD : Nat := 0x005
def cILLFLAGS : Nat := 0x006
def cRUNLEN : Nat := 0x007
def cSTRADDLE : Nat := 0x008
def cREGMISALIGN : Nat := 0x009
def cREGBOUND : Nat := 0x00A
def cGREGBOUND : Nat := 0x00B
def cPLACEMENT : Nat := 0x00C
def cWINDOW : Nat := 0x00D
def cNOTTRUSS : Nat := 0x00E
def cUNFINVAL : Nat := 0x00F
def cZEROSHAPE : Nat := 0x010
def cXPATINVAL : Nat := 0x011
def cFMTTYPE : Nat := 0x012
def cTYPENA : Nat := 0x013
def cFINVALID : Nat := 0x014
def cSCHEDVIOL : Nat := 0x019
def cPENDREAD : Nat := 0x01A
def cEARLYREAD : Nat := 0x01B
def cLANEBRK : Nat := 0x01C
def cCILLOP : Nat := 0x020
def cCRESFIELD : Nat := 0x021
def cCTRLBRK : Nat := 0x022
def cCPRIV : Nat := 0x023
def cERETNONE : Nat := 0x024
def cDOUBLETRAP : Nat := 0x025
def cPRIVOP : Nat := 0x026
def cEMITFIELD : Nat := 0x030
def cRETFULL : Nat := 0x031
def cRPOPNONE : Nat := 0x032
def cFMTDEPTH : Nat := 0x033
def cRECONFULL : Nat := 0x034
def cRECONEMPTY : Nat := 0x035
def cELSETWICE : Nat := 0x036
def cREGROUPN : Nat := 0x037
def cREGROUPNEST : Nat := 0x038
def cREGROUPTRUSS : Nat := 0x039
def cMLCOUNT : Nat := 0x120
def cMLRANGE : Nat := 0x121
def cMLALIGN : Nat := 0x122
def cUNFSTATE : Nat := 0x123
def cUNFRANGE : Nat := 0x124
def cSPAWNFULL : Nat := 0x140
def cSPAWNDEPTH : Nat := 0x141
def cSPAWNENTRY : Nat := 0x142
def cSPAWNOFF : Nat := 0x143
def cJWAITCHILD : Nat := 0x144
def cQSELECT : Nat := 0x145
def cENGFIELD : Nat := 0x160
def cENGVERSION : Nat := 0x161
def cENGSIZE : Nat := 0x162
def cCWAITAHEAD : Nat := 0x163
def cPREEMPT : Nat := 0x170
def cWATCHDOG : Nat := 0x171
def cSEREG : Nat := 0x172
def cSESCR : Nat := 0x173
def cSECACHE : Nat := 0x174
def cSEDRAM : Nat := 0x175
def cSESTIER : Nat := 0x176
def cSECTRL : Nat := 0x177
def cHALT : Nat := 0x178
def cPARTKILL : Nat := 0x179
def cPOWERLIMIT : Nat := 0x17A

/-- Software trap k (10 R310). -/
def cSWT (k : BitVec 6) : Nat := 0x040 + k.toNat

/-- Paths (08 R208). -/
def pathC : Nat := 0
def pathL : Nat := 1
def pathX : Nat := 2
def pathS : Nat := 4

/-! ### Small helpers -/

/-- A word with bit i set to b. -/
def putBit {n : Nat} (w : BitVec n) (i : Nat) (b : Bool) : BitVec n :=
  if b then w ||| BitVec.ofNat n (2 ^ i) else w &&& ~~~(BitVec.ofNat n (2 ^ i))

/-- Bits 0 to k-1 set. -/
def lowMask (n k : Nat) : BitVec n := BitVec.ofNat n (2 ^ k - 1)

/-- Replaces element i. -/
def modifyAt {α : Type} (l : List α) (i : Nat) (f : α → α) : List α :=
  match l, i with
  | [], _ => []
  | x :: r, 0 => f x :: r
  | x :: r, i + 1 => x :: modifyAt r i f

/-- Elements with their positions. -/
def indexed {α : Type} (l : List α) : List (Nat × α) := (List.range l.length).zip l

/-- A free value of this step (log entry 1): `tag` tells its use, `k` the place. -/
def State.free (s : State) (tag k : Nat) : W64 := Config.freeBits s.freeCtr (tag + 256 * k)

/-- A free choice of this step (log entry 1). -/
def State.choice (s : State) (tag k : Nat) : Bool := Config.freeChoice s.freeCtr (tag + 256 * k)

/-! ### Cores, contexts, groups -/

def State.core (s : State) (c : Nat) : Core := s.cores.getD c Core.idle

def State.setCore (s : State) (c : Nat) (k : Core) : State := { s with cores := s.cores.set c k }

def State.updCore (s : State) (c : Nat) (f : Core → Core) : State := s.setCore c (f (s.core c))

def State.ctx (s : State) (c k : Nat) : Ctx := (s.core c).ctxs.getD k Ctx.free

def State.setCtx (s : State) (c k : Nat) (x : Ctx) : State :=
  s.updCore c (fun co => { co with ctxs := co.ctxs.set k x })

def State.updCtx (s : State) (c k : Nat) (f : Ctx → Ctx) : State := s.setCtx c k (f (s.ctx c k))

def Ctx.group (x : Ctx) (g : Nat) : Group := x.groups.getD g (Group.fresh 32 16 0)

def Ctx.setGroup (x : Ctx) (g : Nat) (r : Group) : Ctx := { x with groups := x.groups.set g r }

def State.group (s : State) (c k g : Nat) : Group := (s.ctx c k).group g

def State.setGroup (s : State) (c k g : Nat) (r : Group) : State := s.setCtx c k ((s.ctx c k).setGroup g r)

def State.updGroup (s : State) (c k g : Nat) (f : Group → Group) : State := s.setGroup c k g (f (s.group c k g))

/-- The acting context, if a team is resident there. -/
def State.me? (s : State) : Option Ctx :=
  match (s.core s.cur.core).ctxs[s.cur.ctx]? with
  | some x => if x.resident then some x else none
  | none => none

def State.setMe (s : State) (x : Ctx) : State := s.setCtx s.cur.core s.cur.ctx x

/-- The acting group. -/
def State.grp? (s : State) : Option (Ctx × Group) :=
  s.me?.bind (fun x => (x.groups[s.cur.group]?).map (fun g => (x, g)))

def State.setGrp (s : State) (g : Group) : State := s.setGroup s.cur.core s.cur.ctx s.cur.group g

/-! ### Launches -/

def Image.none : Image :=
  { ctrlVa := 0, ctrlWords := 0, laneVa := 0, laneWords := 0, entries := [], n := 32, q := 16, groups := 1, teams := 1,
    w := 1, h := 1, scratch := 0, spill := 0, keep := 32, discard := [] }

def isLaunch (part : Nat) (id : W32) (l : Launch) : Bool := l.part == part && l.id == id

def State.launch? (s : State) (part : Nat) (id : W32) : Option Launch := s.launches.find? (isLaunch part id)

def State.updLaunch (s : State) (part : Nat) (id : W32) (f : Launch → Launch) : State :=
  { s with launches := s.launches.map (fun l => if isLaunch part id l then f l else l) }

def Ctx.launch? (s : State) (x : Ctx) : Option Launch := s.launch? x.part x.launch

def Ctx.img (s : State) (x : Ctx) : Image := ((x.launch? s).map (·.img)).getD Image.none

def Ctx.asid (s : State) (x : Ctx) : Nat := ((x.launch? s).map (·.asid)).getD 0

def Ctx.priority (s : State) (x : Ctx) : Nat := ((x.launch? s).map (·.priority)).getD 0

/-- The placed cluster a team belongs to. -/
def Ctx.cluster? (s : State) (x : Ctx) : Option Cluster := (x.launch? s).bind (fun l => l.placed[x.cluster]?)

/-- Counts a cause in its launch's completion record, first cause kept (11 R321). -/
def countFault (s : State) (part : Nat) (id : W32) (cause : Nat) : State :=
  s.updLaunch part id (fun l => { l with faults := l.faults + 1, firstCause := l.firstCause <|> some cause })

/-! ### Scalar registers (02 R42, 08 R230) -/

/-- s0 reads as zero. -/
def Ctx.rd (x : Ctx) (r : BitVec 5) : W64 := if r = 0 then 0 else x.s.getD r.toNat 0

def Ctx.taint (x : Ctx) (r : BitVec 5) : Bool := r != 0 && x.staint.getLsbD r.toNat

def Ctx.poison (x : Ctx) (r : BitVec 5) : Option Nat := if r = 0 then none else x.spoison.getD r.toNat none

/-- A write with its taint; s0 ignores writes. -/
def Ctx.wr (x : Ctx) (r : BitVec 5) (v : W64) (t : Bool) : Ctx :=
  if r = 0 then x
  else { x with s := x.s.set r.toNat v, staint := putBit x.staint r.toNat t, spoison := x.spoison.set r.toNat none }

def Ctx.mask (x : Ctx) (m : BitVec 4) : Mask := x.strm.masks.getD m.toNat 0

/-- A write of a whole m register; what it holds is clean of poison. -/
def Ctx.wrMask (x : Ctx) (m : BitVec 4) (v : Mask) : Ctx :=
  { x with strm := { x.strm with masks := x.strm.masks.set m.toNat v, mpoison := putBit x.strm.mpoison m.toNat false } }

def Ctx.priv (x : Ctx) : Bool := x.mode != .user

/-- Retires the instruction with the pc at a target. -/
def Ctx.jump (x : Ctx) (t : W64) : Ctx := { x with pc := t, wait := none, recent := none }

/-- Retires the instruction and moves to the next word. -/
def Ctx.step1 (x : Ctx) : Ctx := x.jump (x.pc + 1)

/-- Word g of a mask (02 R46). -/
def maskWord (m : Mask) (g : Nat) : Lanes := fld m (32 * g) 32

end Sys2Proof.Machine
end

