-- ==== Sys2Proof/Machine/Order.lean ====
section
/-! DEFINITION. The order of access events (08 R207-R222): what a write leaves behind, store queues, the writes an agent does not
see yet, and the releases and acquires that order them. Left to the model: DESIGN CHOICE, log entry 5. -/

namespace Sys2Proof.Machine

/-! ### Writes of memory and scratchpad -/

/-- Whether a virtual range of an address space maps to a byte of a physical range: the range's own pages are walked. -/
def mapsTo (s : State) (asid base len pa n : Nat) : Bool :=
  (List.range ((base + len - 1) / 4096 - base / 4096 + 1)).any (fun i =>
    let page := (base / 4096 + i) * 4096
    match translate s asid page with
    | none => false
    | some (p, _) =>
      let lo := p + (max base page - page)
      let hi := p + (min (base + len) (page + 4096) - page)
      decide (pa < hi ∧ lo < pa + n))

/-- The known launches whose spill buffer an access of n bytes touches, by whatever address (03 R98). -/
def spillHit (s : State) (pa n : Nat) : List Launch :=
  s.launches.filter (fun l => l.img.spill != 0 && mapsTo s l.asid l.spillBase.toNat l.img.spill pa n)

/-- A write by a program into a spill buffer may overwrite any of its records (03 R98). -/
def markSpill (s : State) (pa n : Nat) : State :=
  (spillHit s pa n).foldl (fun s l => s.updLaunch l.part l.id (fun l => { l with
    spilled := l.spilled.map (fun r => if s.choice 1 r.slot then { r with overwritten := true } else r) })) s

/-- Whether a physical range touches the code of an image in an address space. -/
def codeAt (s : State) (asid : Nat) (img : Image) (pa n : Nat) : Bool :=
  mapsTo s asid img.ctrlVa (4 * img.ctrlWords) pa n || mapsTo s asid img.laneVa (12 * img.laneWords) pa n

/-- Whether a physical range touches the code of a launch that has not completed. -/
def codeHit (s : State) (l : Launch) (pa n : Nat) : Bool := l.status != .completed && codeAt s l.asid l.img pa n

/-- Notes what n bytes held before a write. A byte some context's IFENCE has passed takes its content anew (08 R229). -/
def noteOld (s : State) (pa n : Nat) (old : List OldByte) : List OldByte :=
  let hit (o : OldByte) : Bool := decide (pa ≤ o.addr ∧ o.addr < pa + n)
  let kept := old.filter (fun o => !(hit o && !o.fenced.isEmpty))
  let fresh := ((List.range n).map (pa + ·)).filter (fun a => !kept.any (fun o => o.addr == a))
  kept ++ fresh.map (fun a => OldByte.mk a (readByte s a) [])

/-- A write into the code of a launch leaves its old content possible (04 R119); while submitted blocks wait, any write may be one
into the code of a LAUNCH among them. -/
def keepCode (s : State) (pa n : Nat) : State :=
  let s := if s.launches.any (fun l => codeHit s l pa n) then
      { s with launches := s.launches.map (fun l => if codeHit s l pa n then { l with oldCode := noteOld s pa n l.oldCode } else l) }
    else s
  if s.pages.any (fun p => p.subs.any (fun r => r.announced != r.consumer)) then
    { s with stamp := s.stamp + 1, wrote := s.wrote ++ (List.range n).map (fun i => (s.stamp, pa + i, readByte s (pa + i))) }
  else s

/-- Writes bytes of a program with their poison. -/
def putBytes (s : State) (pa : Nat) (bytes : List Byte) (poison : Option Nat) : State :=
  setPoison (markSpill (writePhys (keepCode s pa bytes.length) pa bytes) pa bytes.length) none pa bytes.length poison

/-- Applies scratchpad cells at a core; the words written are clean of poison unless a cause is given. -/
def writeScr (s : State) (core : Nat) (cells : List (Nat × Byte)) (poison : Option Nat) : State :=
  let s := s.updCore core (fun k => { k with scr := k.scr.writeCells cells })
  cells.foldl (fun s c => setPoison s (some core) c.1 1 poison) s

/-- A byte of memory, or of a core's scratchpad. -/
def byteAt (s : State) (scratch : Option Nat) (a : Nat) : Byte :=
  match scratch with
  | none => readByte s a
  | some c => (s.core c).scr.get a

/-- Whether a physical address lies in the host window. -/
def inHost (s : State) (pa : Nat) : Bool :=
  match tierOf s pa with
  | .hostw _ => true
  | _ => false

/-! ### Agents and views -/

/-- An agent of a context. -/
def Agent.of (a : Agent) (c k : Nat) : Bool := a.core == c && a.ctx == k

def View.has (v : View) (o : Agent) : Bool :=
  match v with
  | .one a => a == o
  | .team c k => o.of c k
  | .copies c k => o.of c k && (o.path == .x || o.path == .w)
  | .all => true

/-- A context on a path, one of its groups, and a copy channel that acts for it. -/
def ctxAgent (c k : Nat) (p : Path) : Agent := { core := c, ctx := k, grp := none, path := p }

def grpAgent (c k g : Nat) (p : Path) : Agent := { core := c, ctx := k, grp := some g, path := p }

def chanAgent (c k ch : Nat) : Agent := { core := c, ctx := k, grp := some ch, path := .x }

def Reach.has (r : Reach) (core : Nat) : Bool :=
  match r with
  | .cores l => l.contains core
  | .deck d => core / 48 == d
  | .all => true

/-- The cores of a team's span. -/
def spanOf (s : State) (x : Ctx) : List Nat := ((x.cluster? s).map (fun cl => cl.cores.map (·.1))).getD []

/-- The cores that a scope of a team on a core holds (08 R210). -/
def reachOf (s : State) (x : Ctx) (core scope : Nat) : Reach :=
  match scope with
  | 0 => .cores []
  | 1 => .cores [core]
  | 2 => .cores (core :: spanOf s x)
  | 3 => .deck (core / 48)
  | _ => .all

/-- Adds views to a list, from a time on. -/
def addViews (old : List Since) (vs : List View) (t : Nat) : List Since :=
  old ++ (vs.filter (fun v => !old.any (fun b => b.view == v))).map (fun v => { view := v, time := t })

/-! ### What an agent sees -/

/-- A write is performed toward its agent, toward the agents of path C or L on its core and where the scratchpad is (08 R213, R216),
toward spawn reads anywhere (R220), and toward those an order or an early arrival gave it. -/
def Late.visible (e : Late) (o : Agent) : Bool :=
  e.agent == o || (e.agent.path == o.path &&
    (o.path == .s || ((o.path == .c || o.path == .l) && (e.agent.core == o.core || e.scratch == some o.core)))) ||
  e.before.any (·.view.has o) || e.shown.contains o

/-- Whether two writes stand in one coherence order: they touch one line of memory (07 R195), or one byte of a scratchpad (08 R212). -/
def Late.near (e f : Late) : Bool :=
  e.scratch == f.scratch &&
    e.cells.any (fun a => f.cells.any (fun b => if e.scratch.isNone then a.1 / 128 == b.1 / 128 else a.1 == b.1))

def Late.at (e : Late) (scratch : Option Nat) (a : Nat) : Option (Byte × Option Nat) :=
  if e.scratch = scratch then (e.cells.find? (fun c => c.1 == a)).map (·.2) else none

/-- Each write, and whether an agent sees it: it sees those performed toward it, and what comes before them in one coherence order
(07 R195, 08 R212). -/
def seenBy (o : Agent) : List Late → List (Late × Bool)
  | [] => []
  | e :: r =>
    let later := seenBy o r
    (e, e.visible o || later.any (fun f => f.2 && e.near f.1)) :: later

/-- What an agent still reads in place of a byte: what the oldest write that it does not see replaced. -/
def hiddenAt (s : State) (o : Agent) (scratch : Option Nat) (a : Nat) : Option (Byte × Option Nat) :=
  (seenBy o s.late).findSome? (fun f => if f.2 then none else f.1.at scratch a)

/-- The newest store to a byte in the agent's own queue, or one ordered before its loop reads (08 R216, R227). -/
def queuedAt (s : State) (o : Agent) (scratch : Option Nat) (a : Nat) : Option (Byte × Option Nat) :=
  s.queue.foldl (fun r q =>
    if q.scratch = scratch && (q.agent == o || q.toward.contains o) then
      ((q.cells.find? (fun c => c.1 == a)).map (fun c => (c.2, q.poison))) <|> r
    else r) none

/-- The byte that an agent reads at an address. -/
def seenByte (s : State) (o : Agent) (scratch : Option Nat) (a : Nat) : Byte :=
  match queuedAt s o scratch a <|> hiddenAt s o scratch a with
  | some c => c.1
  | none => byteAt s scratch a

/-- n bytes at a physical address as an agent reads them. -/
def seenPhys (s : State) (o : Agent) (pa n : Nat) : List Byte := (List.range n).map (fun i => seenByte s o none (pa + i))

/-- The first poisoned word an agent's access meets: cause and word address (10 R300). -/
def seenPoison (s : State) (o : Agent) (scratch : Option Nat) (a n : Nat) : Option (Nat × Nat) :=
  if s.queue.isEmpty && s.late.isEmpty then poisonOf s scratch a n
  else (List.range n).findSome? (fun i =>
    match queuedAt s o scratch (a + i) <|> hiddenAt s o scratch (a + i) with
    | some c => c.2.map (fun p => (p, (a + i) / 4 * 4))
    | none => poisonOf s scratch (a + i) 1)

/-! ### Writes take their place -/

/-- Adds agents that a write happens before, from a time on. -/
def Late.toward (e : Late) (vs : List View) (t : Nat) : Late := { e with before := addViews e.before vs t }

/-- A write as it enters coherence order, with what it is about to replace. -/
def newLate (s : State) (a : Agent) (order : Nat) (rmw : Bool) (before : List Since) (scratch : Option Nat) (places : List Nat) : Late :=
  { agent := a, order := order, rmw := rmw, scratch := scratch,
    cells := places.map (fun p => (p, byteAt s scratch p, (poisonOf s scratch p 1).map (·.1))),
    before := before, read := [], shown := [] }

/-- A write enters coherence order (08 R209), before the agents given. Host memory is read at the host (07 R196). -/
def performWrite (s : State) (a : Agent) (order : Nat) (rmw : Bool) (before : List Since) (scratch : Option Nat)
    (cells : List (Nat × Byte)) (poison : Option Nat) : State :=
  let e := newLate s a order rmw before scratch (cells.map (·.1))
  let s' := match scratch, cells with
    | some c, _ => writeScr s c cells poison
    | none, (pa, _) :: _ => putBytes s pa (cells.map (·.2)) poison
    | none, [] => s
  if scratch.isNone && cells.any (fun c => inHost s c.1) then s' else { s' with late := s'.late ++ [e] }

/-- An event that writes nothing takes its place. -/
def noteEvent (s : State) (a : Agent) : State := { s with late := s.late ++ [newLate s a s.freeCtr false [] none []] }

/-- A queued store leaves its queue. -/
def Store.leave (q : Store) (s : State) : State :=
  performWrite s q.agent q.order false (addViews [] (q.toward.map View.one) s.freeCtr) q.scratch q.cells q.poison

/-- The stores that `p` selects leave their queues, oldest first. -/
def flushWhere (s : State) (p : Store → Bool) : State :=
  if s.queue = [] then s
  else (s.queue.filter p).foldl (fun s q => q.leave s) { s with queue := s.queue.filter (fun q => !p q) }

/-- The stores that `p` selects leave their queues, and with them those that issued before them there (08 R216). -/
def flushThrough (s : State) (p : Store → Bool) : State :=
  flushWhere s (fun q => s.queue.any (fun r => p r && r.agent == q.agent && r.host == q.host && decide (q.order ≤ r.order)))

/-- An agent's stores leave its queue: those to the host window, or the others. -/
def flushAgent (s : State) (a : Agent) (host : Bool) : State := flushWhere s (fun q => q.agent == a && q.host == host)

/-- The stores of a context and its groups leave their queues. -/
def flushTeam (s : State) (c k : Nat) : State := flushWhere s (fun q => q.agent.of c k)

/-- A program's store enters its agent's queue (08 R216). -/
def queueStore (s : State) (a : Agent) (scratch : Option Nat) (cells : List (Nat × Byte)) (poison : Option Nat) : State :=
  { s with queue := s.queue ++ [{
      agent := a, order := s.freeCtr, host := scratch.isNone && cells.any (fun c => inHost s c.1), toward := [],
      scratch := scratch, cells := cells, poison := poison }] }

/-- Bytes at consecutive addresses. -/
def cellsAt (pa : Nat) (bytes : List Byte) : List (Nat × Byte) := (indexed bytes).map (fun b => (pa + b.1, b.2))

/-- Before a load of host memory, or a read-modify-write: the agent's own stores there have left (08 R216, R232). -/
def beforeHost (s : State) (a : Agent) (pa : Nat) : State := if inHost s pa then flushAgent s a true else s

/-- A read-modify-write is one access in its agent's order (08 R214, R216): the agent's earlier stores have left. -/
def beforeAtomic (s : State) (a : Agent) (pa : Nat) : State := flushAgent s a (inHost s pa)

/-- An entry without the bytes that `p` selects; none once it has lost its last. -/
def Late.forget (e : Late) (scratch : Option Nat) (p : Nat → Bool) : Option Late :=
  if e.scratch = scratch && e.cells.any (fun c => p c.1) then
    let cells := e.cells.filter (fun c => !p c.1)
    if cells.isEmpty then none else some { e with cells := cells }
  else some e

/-- Writes that every agent sees, of firmware and the outside: none reads an older byte there. -/
def forgetLate (s : State) (scratch : Option Nat) (p : Nat → Bool) : State :=
  if s.late = [] then s else { s with late := s.late.filterMap (fun e => e.forget scratch p) }

/-- A write of firmware. -/
def storeBytes (s : State) (pa : Nat) (bytes : List Byte) (poison : Option Nat) : State :=
  forgetLate (putBytes s pa bytes poison) none (fun a => decide (pa ≤ a ∧ a < pa + bytes.length))

/-! ### Releases and acquires (08 R219, R220) -/

/-- Whether an event happens before those that an agent issues after a time: its own until then, or acquired by then. -/
def Late.precedes (e : Late) (a : Agent) (t : Nat) : Bool :=
  (e.agent == a && decide (e.order ≤ t)) || e.before.any (fun b => b.view.has a && decide (b.time ≤ t))

/-- Whether an event happens before the next ones of an agent. -/
def Late.covered (e : Late) (a : Agent) : Bool := e.agent == a || e.before.any (·.view.has a)

/-- Whether a release covers an event (08 R219). -/
def Release.covers (r : Release) (e : Late) : Bool := r.agents.any (fun a => e.precedes a r.time)

/-- Whether a write comes after a release in its agent's order, on a path of the release. -/
def Release.leads (r : Release) (w : Late) : Bool := r.after.any (fun b => b.view.has w.agent && decide (b.time < w.order))

/-- A release is performed: it covers what the given agents did or acquired, and the writes of `after` come after it. -/
def release (s : State) (l : Link) (agents : List Agent) (after : List View) (reach : Reach) : State :=
  { s with releases := s.releases ++ [{
      link := l, agents := agents, after := addViews [] after s.freeCtr, reach := reach, time := s.freeCtr, fed := [] }] }

/-- The events that `p` selects happen before the next events of the given agents. -/
def acquireWhere (s : State) (p : Late → Bool) (vs : List View) : State :=
  if s.late = [] then s else { s with late := s.late.map (fun e => if p e then e.toward vs s.freeCtr else e) }

/-- An acquire of what the releases that `p` selects cover, where their scopes hold the acquiring core (08 R211, R219). -/
def acquire (s : State) (core : Nat) (p : Release → Bool) (vs : List View) : State :=
  let rs := s.releases.filter (fun r => p r && r.reach.has core)
  acquireWhere s (fun e => rs.any (·.covers e)) vs

/-- The reads that such releases cover happen before the next events of the given agents. -/
def acquireReads (s : State) (p : Release → Bool) (vs : List View) : State :=
  if s.late = [] then s
  else
    let rs := s.releases.filter p
    { s with late := s.late.map (fun e =>
        if rs.any (fun r => e.read.any (fun b => r.agents.any b.view.has && decide (b.time ≤ r.time))) then
          { e with read := addViews e.read vs s.freeCtr } else e) }

/-- Whether an acquire at a scope invalidates the core's L1 (07 R193). -/
def invalidates (s : State) (x : Ctx) (scope : Nat) : Bool := decide (3 ≤ scope) || (scope == 2 && decide (1 < (spanOf s x).length))

/-- The core's L1 is invalidated: the next reads of the given agents see every write of memory at its coherence point (07 R193, 08
R215). -/
def refresh (s : State) (wide : Bool) (vs : List View) : State :=
  if wide then acquireWhere s (fun e => e.scratch.isNone && !e.cells.isEmpty) vs else s

/-- The paths of a context that its fences and acquires order (08 R225). -/
def ctxViews (c k : Nat) : List View := [.one (ctxAgent c k .c), .one (ctxAgent c k .l), .copies c k, .one (ctxAgent c k .s)]

/-- The agents whose noted reads a context's acquire fence orders. -/
def ctxReads (c k : Nat) : List Agent := [Path.c, .gotL, .gotX, .gotS, .s].map (ctxAgent c k)

/-- Those of a group (08 R227). -/
def grpViews (c k g : Nat) : List View := [.one (grpAgent c k g .l), .one (grpAgent c k g .u), .one (grpAgent c k g .s)]

/-- The acquire of a fence of a core at a scope: it meets each release fence a later write of which a read of `reads` returned, where
each scope holds the other's core (08 R211, R220, R221). -/
def acquireFence (s : State) (core : Nat) (reach : Reach) (wide : Bool) (reads : List Agent) (vs : List View) : State :=
  let read (w : Late) : Bool := reach.has w.agent.core && w.read.any (fun b => reads.any b.view.has)
  refresh (acquire s core (fun r => r.link == .fence && s.late.any (fun w => read w && r.leads w)) vs) wide vs

/-- The release of a fence, or an XFENCE's order, at a scope: `later` is what it orders at once. -/
def releaseFence (s : State) (l : Link) (reach : Reach) (agents : List Agent) (after later : List View) : State :=
  acquireWhere (release s l agents after reach) (fun e => agents.any e.covered) later

/-- XFENCE and VXFENCE (08 R226): what happens before it on the earlier path before the events of the later one; with one path, both
sides of a fence there. -/
def orderPaths (s : State) (core : Nat) (reach : Reach) (wide same : Bool) (agents : List Agent) (vs : List View) : State :=
  if same then releaseFence (acquireFence s core reach wide agents vs) .fence reach agents vs vs
  else releaseFence s .cross reach agents vs vs

/-- Whether an access whose address a load-consume gave comes after what a release covers (08 R231): such a load of its context has
returned a write after the release. -/
def Release.feeds (r : Release) (o : Agent) : Bool := r.fed.contains (ctxAgent o.core o.ctx .c)

/-- An access whose address a load-consume gave sees what the releases before the consumed write cover (08 R231). -/
def seeFed (s : State) (o : Agent) (tainted : Bool) : State := if tainted then acquire s o.core (·.feeds o) [.one o] else s

/-! ### Reads -/

/-- Of the newest writes first, each with its place and whether the reader sees it, those whose value a read of a byte returns: the
newest it sees, and those that read-modify-writes carry on (08 R220). -/
def sources (scratch : Option Nat) (a : Nat) : List (Nat × Late × Bool) → List Nat
  | [] => []
  | (i, e, seen) :: r =>
    if seen && (e.at scratch a).isSome then (if e.rmw then i :: sources scratch a r else [i]) else sources scratch a r

/-- The places of the writes that an access of an agent returns; a store of its own queue is none of them. -/
def returned (s : State) (o : Agent) (scratch : Option Nat) (as_ : List Nat) : List Nat :=
  let l := (indexed (seenBy o s.late)).reverse
  (as_.filter (fun a => (queuedAt s o scratch a).isNone)).flatMap (fun a => sources scratch a l)

/-- Whether event i comes before write j for the agents of a core that read it on its path (08 R213): an earlier write of j's agent
toward its own core (R216), one that agent had acquired, or one that a fence had ordered before j (R221, R226). -/
def carried (s : State) (core i j : Nat) (e w : Late) : Bool :=
  (w.agent.core == core && ((e.agent == w.agent && decide (i < j) && (w.agent.path == .c || w.agent.path == .l)) ||
    e.before.any (fun b => b.view.has w.agent && decide (b.time ≤ w.order)))) ||
  s.releases.any (fun r => (r.link == .fence || r.link == .cross) && r.reach.has core && r.leads w && r.covers e)

/-- A read of an agent at the given places, at a time (08 R213, R221): what it returns is noted, and where reader and write share path
and core, the write and what comes before it happen before the agent's next events. -/
def noteRead (s : State) (o : Agent) (t : Nat) (scratch : Option Nat) (as_ : List Nat) : State :=
  if s.late = [] then s
  else
    let got := returned s o scratch as_
    let near := (indexed s.late).filter (fun w => got.contains w.1 && w.2.agent.path == o.path && scratch.getD w.2.agent.core == o.core)
    { s with late := (indexed s.late).map (fun e =>
        let e' := if near.any (fun w => w.1 == e.1 || carried s o.core e.1 w.1 e.2 w.2) then e.2.toward [.one o] t else e.2
        if got.contains e.1 then { e' with read := addViews e'.read [.one o] t } else e') }

/-- A load-consume feeds its context what the releases before the writes it returns cover (08 R231). -/
def feed (s : State) (o : Agent) (scratch : Option Nat) (as_ : List Nat) : State :=
  let got := (returned s o scratch as_).filterMap (s.late[·]?)
  { s with releases := s.releases.map (fun r =>
      if r.reach.has o.core && !r.feeds o && got.any r.leads then { r with fed := r.fed ++ [ctxAgent o.core o.ctx .c] } else r) }

/-- A load of an agent at the given places; a load-consume feeds too. -/
def loaded (s : State) (o : Agent) (scratch : Option Nat) (as_ : List Nat) (consume : Bool) : State :=
  noteRead (if consume then feed s o scratch as_ else s) o s.freeCtr scratch as_

/-- A read-modify-write reads the newest writes of its bytes, so its agent sees them from now on (08 R212, R214). -/
def readLatest (s : State) (o : Agent) (scratch : Option Nat) (as_ : List Nat) : State :=
  noteRead { s with late := s.late.map (fun e =>
    if as_.any (fun a => (e.at scratch a).isSome) && !e.visible o then { e with shown := e.shown ++ [o] } else e) } o s.freeCtr scratch as_

/-- An L or U read of its core's own scratchpad sees the bytes of the transfers whose ECOMMIT happens before it (08 R228). -/
def arrive (s : State) (o : Agent) (as_ : List Nat) : State :=
  let l : Agent := { o with path := .l }
  acquireWhere s (fun e => e.scratch == some o.core && e.agent.path == .x && e.cells.any (fun c => as_.contains c.1) &&
    s.late.any (fun f => f.cells.isEmpty && f.agent == ctxAgent e.agent.core e.agent.ctx .c && f.order == e.order && f.covered l))
    [.one o, .one { o with path := .gotX }]

/-! ### Cross-path orders, early arrivals and the ends of teams -/

/-- An agent of a context, or of a group, that has the events of a path which happen before its next event (08 R225-R227). -/
def pathAgents (me : Path → Agent) (p : Path) : List Agent :=
  match p with
  | .c => [me .c]
  | .l => if (me .l).grp.isSome then [me .l] else [me .gotL]
  | .x => [me .gotX]
  | .s => [me .gotS, me .s]
  | _ => []

/-- The later events of a path that a context's XFENCE orders. -/
def pathViews (c k : Nat) (q : Path) : List View := if q == .x then [.copies c k] else [.one (ctxAgent c k q)]

/-- One write becomes visible to one agent, with no order (08 R218). -/
def showWrite (s : State) (i : Nat) (o : Agent) : State := { s with late := modifyAt s.late i (fun e => { e with shown := e.shown ++ [o] }) }

/-- An agent of one context under another number. -/
def Agent.rename (c k n : Nat) (a : Agent) : Agent := if a.of c k then { a with ctx := n } else a

def View.rename (c k n : Nat) (v : View) : View :=
  match v with
  | .one a => .one (a.rename c k n)
  | .team d j => if d == c && j == k then .team d n else v
  | .copies d j => if d == c && j == k then .copies d n else v
  | .all => .all

def Since.rename (c k n : Nat) (b : Since) : Since := { b with view := b.view.rename c k n }

/-- What the agents of a context did stands under another number: a later team there has an order of its own. -/
def renameTeam (s : State) (c k n : Nat) : State :=
  let chan (y : Chan) : Chan :=
    let f (t : Xfer) : Xfer := if t.core == c && t.ctx == k then { t with ctx := n } else t
    { y with active := y.active.map f, queued := y.queued.map f }
  { s.updCore c (fun co => { co with chans := co.chans.map chan }) with
    queue := s.queue.map (fun q => { q with agent := q.agent.rename c k n, toward := q.toward.map (Agent.rename c k n) }),
    late := s.late.map (fun e => { e with
      agent := e.agent.rename c k n, before := e.before.map (Since.rename c k n), read := e.read.map (Since.rename c k n),
      shown := e.shown.map (Agent.rename c k n) }),
    releases := s.releases.map (fun r => { r with
      agents := r.agents.map (Agent.rename c k n), after := r.after.map (Since.rename c k n), fed := r.fed.map (Agent.rename c k n) }) }

/-- A number that no context has had. -/
def spareName (s : State) (k : Nat) : Nat := 8 + 8 * s.freeCtr + k

/-- A context ends: its queues empty, and what its agents did stands under a number of its own. -/
def endOrder (s : State) (c k : Nat) : State := renameTeam (flushTeam s c k) c k (spareName s k)

/-- A view of agents of a context alone. -/
def View.of (v : View) (c k : Nat) : Bool :=
  match v with
  | .one a => a.of c k
  | .team d j => d == c && j == k
  | .copies d j => d == c && j == k
  | .all => true

/-- REGROUP: what any agent of the team did or acquired happens before all of them do next (03 R86). -/
def orderTeam (s : State) (c k : Nat) : State :=
  acquireWhere (flushWhere s (fun q => q.agent.of c k && !q.host))
    (fun e => e.agent.of c k || e.before.any (fun b => b.view.of c k)) [.team c k]

end Sys2Proof.Machine
end

