-- ==== Sys2Proof/Machine/Ops.lean ====
section
/-! DEFINITION. The shared operations of the machine: taking a trap (10 R274-R278), entering a routine (R273), returning from one (R282, R283, R291), ending a team
(R287), and the bookkeeping they share. -/

namespace Sys2Proof.Machine

/-! ### Groups becoming ready -/

/-- Puts a group in Eligible with a fresh wait and pass count (04 R121). Left to the model: DESIGN CHOICE, log entry 9. -/
def makeEligible (s : State) (c k g : Nat) : State :=
  { s.updGroup c k g (fun r => { r with pos := { r.pos with status := .eligible }, stamp := s.stamp, pass := 0 }) with
    stamp := s.stamp + 1 }

/-- The lane set of group g of a team (02 R34). -/
def Ctx.laneSet (x : Ctx) (g : Nat) : Nat := (x.base + g) % 4

def State.laneSetAt (s : State) (c ls : Nat) : LaneSet :=
  (s.core c).lanesets.getD ls { running := none, truss := none, trussWait := [] }

def State.updLaneSet (s : State) (c ls : Nat) (f : LaneSet → LaneSet) : State :=
  s.updCore c (fun co => { co with lanesets := modifyAt co.lanesets ls f })

/-- A position that no longer waits for truss mode: Eligible, in truss mode (02 R68, 06 R152). -/
def GroupPos.trussReady (p : GroupPos) : GroupPos :=
  { p with trussReq := false, trussPos := none, status := if p.status == .trussWaiting then .eligible else p.status }

/-- The lane set leaves truss mode; the longest Truss-waiting group takes it (06 R152). A frozen waiter's recorded
position changes in its freeze record. -/
def leaveTruss (s : State) (c ls : Nat) : State :=
  match (s.laneSetAt c ls).trussWait with
  | [] => s.updLaneSet c ls (fun l => { l with truss := none })
  | (k, g) :: rest =>
    let s := s.updLaneSet c ls (fun l => { l with truss := some (k, g), trussWait := rest })
    let s := s.updCtx c k (fun x => { x with
      frozen := x.frozen.map (fun f => { f with pcs := modifyAt f.pcs g GroupPos.trussReady }) })
    let p := (s.group c k g).pos
    let s := s.updGroup c k g (fun r => { r with pos := p.trussReady })
    if p.status == .trussWaiting then makeEligible s c k g else s

/-! ### Poison through queues -/

/-- Lanes with the poison of the words they take (10 R300, R313). -/
def poisonedLanes (l : List (Nat × Option (Nat × W64))) : Poison :=
  l.foldl (fun p e => match e.2 with
    | some c =>
      if p.lanes = 0 then { lanes := putBit 0 e.1 true, cause := c.1, info := c.2 } else { p with lanes := putBit p.lanes e.1 true }
    | none => p) Poison.none

/-! ### Join counters (03 R95, R96) -/

/-- A join counter changes by a read-modify-write of path S (08 R208). -/
def joinWrite (s : State) (a : Agent) (pa add : Nat) : State :=
  performWrite s a s.freeCtr true [] none (cellsAt pa (bytesOf 4 (readNat s pa 4 + add))) ((poisonOf s none pa 4).map (·.1))

/-- One join decrement, by the spawn machinery for the exiting child (08 R207); one that meets a fault is recorded with the launch. -/
def joinDec (a : Agent) (part : Nat) (launch : W32) (s : State) (addr : W64) : State :=
  let asid := ((s.launch? part launch).map (·.asid)).getD 0
  match checkAccess s part asid .sp pathS addr 4 true with
  | .ok pa => joinWrite s a pa (2 ^ 32 - 1)
  | .error f =>
    (countFault s part launch f.cause).updLaunch part launch (fun l => { l with joinFails := l.joinFails ++ [(addr, f.cause, f.finfo)] })

/-- A child's decrements come after every access of its team, and are its release at device scope (03 R95). -/
def joinDecs (s : State) (a : Agent) (agents : List Agent) (part : Nat) (launch : W32) (addrs : List W64) : State :=
  addrs.foldl (joinDec a part launch) (release s (.join part launch) (a :: agents) [] .all)

/-! ### The gatherer (03 R91, R92) -/

def sameSeq (a b : SpawnRec) : Bool := a.part == b.part && a.launch == b.launch && a.entry == b.entry

/-- A list of records in pieces of 32, the last one partial; `n` bounds the pieces. -/
def pieces32 : Nat → List SpawnRec → List (List SpawnRec)
  | 0, _ => []
  | _ + 1, [] => []
  | n + 1, l => l.take 32 :: pieces32 n (l.drop 32)

def thirtyTwos (l : List SpawnRec) : List (List SpawnRec) := pieces32 l.length l

/-- Forms child teams of the whole sequence of a record: more than 32 gather only while their launch is pre-empted. -/
def formSeq (k : Core) (r : SpawnRec) : Core :=
  { k with gather := k.gather.filter (fun x => !sameSeq r x), formed := k.formed ++ thirtyTwos (k.gather.filter (sameSeq r)) }

/-- Takes the first n elements that p selects out of a list. -/
def dropFirst {α : Type} (p : α → Bool) : Nat → List α → List α
  | 0, l => l
  | _ + 1, [] => []
  | n + 1, x :: r => if p x then dropFirst p n r else x :: dropFirst p (n + 1) r

/-- A sequence of 32 records forms a child team (03 R91). -/
def formFull (k : Core) (r : SpawnRec) : Core :=
  let own := k.gather.filter (sameSeq r)
  if own.length < 32 then k
  else { k with gather := dropFirst (sameSeq r) 32 k.gather, formed := k.formed ++ [own.take 32] }

/-- A record enters the gatherer. -/
def gatherRecord (k : Core) (r : SpawnRec) : Core := formFull { k with gather := k.gather ++ [r] } r

/-- Whether child teams of a launch may form and start: not while it is pre-empted (10 R289). -/
def forming (s : State) (part : Nat) (id : W32) : Bool := (s.launch? part id).any (fun l => l.status == .placed)

/-- A record enters a core's gatherer; a full sequence forms a child team. -/
def gatherAt (s : State) (c : Nat) (r : SpawnRec) : State :=
  s.updCore c (fun co =>
    if forming s r.part r.launch then gatherRecord co r else { co with gather := co.gather ++ [r] })

/-- Whether a physical address lies in a severed region (07 R204). -/
def severedAt (s : State) (pa : Nat) : Bool :=
  match tierOf s pa with
  | .pool r => regionSevered s r
  | _ => false

/-- A record is accepted: its join counter rises by one for the spawning group, with no second check (R89). A region
severed since then holds it no more (07 R205). -/
def joinInc (a : Agent) (s : State) (r : SpawnRec) : State :=
  if severedAt s r.joinPa then s else joinWrite s a r.joinPa 1

/-- Accepts a batch of a group's records. -/
def acceptAll (s : State) (a : Agent) (c : Nat) (rs : List SpawnRec) : State := rs.foldl (fun s x => gatherAt (joinInc a s x) c x) s

/-- The records of the team in context k of core c lose their tie to it: a later team there does not launch them (R92). -/
def orphan (x : Ctx) (c k : Nat) (r : SpawnRec) : SpawnRec :=
  if r.part == x.part && r.launch == x.launch && r.srcCore == c && r.srcCtx == k then { r with srcCtx := 8 } else r

def orphanRecords (s : State) (c k : Nat) (x : Ctx) : State :=
  if k = 8 then s
  else
    let s := s.updCore c (fun co => { co with
      gather := co.gather.map (orphan x c k), formed := co.formed.map (·.map (orphan x c k)) })
    { s with launches := s.launches.map (fun l =>
        if l.spilled.isEmpty then l else { l with spilled := l.spilled.map (fun r => { r with record := orphan x c k r.record }) }) }

/-- Launches the partial sequences that hold a record `p` selects, in the order of their oldest record. -/
def formPartials (k : Core) (p : SpawnRec → Bool) : Core :=
  k.gather.foldl (fun co r =>
    if co.gather.any (fun x => sameSeq r x && p x) then formSeq co r else co) k

/-! ### Copy channels -/

def State.chan (s : State) (c ch : Nat) : Chan := (s.core c).chans.getD ch Chan.reset

def State.updChan (s : State) (c ch : Nat) (f : Chan → Chan) : State :=
  s.updCore c (fun co => { co with chans := modifyAt co.chans ch f })

/-- Presence counts of scratchpad lines by (line, count), unlisted counts zero (07 R180). -/
def presenceOf (k : Core) (line : Nat) : Nat := ((k.presence.find? (fun p => p.1 == line)).map (·.2)).getD 0

def addPresence (k : Core) (line : Nat) (up : Bool) : Core :=
  let n := if up then presenceOf k line + 1 else presenceOf k line - 1
  let rest := k.presence.filter (fun p => p.1 != line)
  { k with presence := if n = 0 then rest else rest ++ [(line, n)] }

/-- Resumes the groups of a core that were suspended on scratchpad lines now present (02 R65). -/
def wakeLines (s : State) (c : Nat) : State :=
  (indexed (s.core c).ctxs).foldl (fun s x =>
    (indexed x.2.groups).foldl (fun s g =>
      match g.2.pos.status with
      | .suspended (.line lines) =>
        if lines.all (fun l => presenceOf (s.core c) l == 0) then makeEligible s c x.1 g.1 else s
      | _ => s) s) s

/-- Ends the active transfer of a channel: its identifier is complete and every presence count it still holds is
released (07 R184, R189). A queued transfer becomes active. -/
def finishTransfer (s : State) (c ch : Nat) : State :=
  let x := s.chan c ch
  match x.active with
  | none => s
  | some t =>
    let s := t.lines.foldl (fun s l => s.updCore l.1 (fun k => addPresence k l.2 false)) s
    let s := ((t.lines.map (·.1)).dedup).foldl wakeLines s
    s.updChan c ch (fun y => { y with active := y.queued, queued := none, halted := false,
                                      complete := (y.queued.map (·.id)).getD y.nextId })

/-- Whether a transfer was committed by the team in context k. -/
def Xfer.by (t : Xfer) (x : Ctx) (k : Nat) : Bool :=
  t.ctx == k && t.part == x.part && t.launch == x.launch && t.cluster == x.cluster && t.team == x.team &&
    t.child == x.child.isSome

/-- Completes as SKIP every halted transfer the team committed (10 R287), counting it when `count` (12 R351).
Left to the model: DESIGN CHOICE, log entry 28. -/
def skipHalted (s : State) (c k : Nat) (x : Ctx) (count : Bool) : State :=
  (List.range 8).foldl (fun s ch =>
    let y := s.chan c ch
    if y.halted && y.active.any (fun t => t.by x k) then
      finishTransfer (if count then countFault s x.part x.launch y.faultCause else s) c ch
    else s) s

/-! ### The end of a team -/

/-- Frees a cluster's scratchpad reservations and queues (04 R113). A child's QPOP that still waits there goes on waiting.
Left to the model: DESIGN CHOICE, log entry 48. -/
def freeCluster (s : State) (l : Launch) (ci : Nat) : State :=
  match l.placed[ci]? with
  | none => s
  | some cl =>
    cl.cores.foldl (fun s cc =>
      s.updCore cc.1 (fun co =>
        { co with
          resvs := co.resvs.filter (fun r => !(r.part == l.part && r.launch == l.id && r.cluster == ci)),
          queues := (indexed co.queues).map (fun q => if l.queues.getLsbD q.1 then { q.2 with elems := [], poison := [], times := [] } else q.2) })) s

/-- Marks a launched team exited; the cluster is freed with its last team (04 R113). -/
def markExited (s : State) (x : Ctx) : State :=
  let s := s.updLaunch x.part x.launch (fun l => { l with
    placed := modifyAt l.placed x.cluster (fun cl =>
      { cl with exited := cl.exited.set x.team true, triggers := cl.triggers.set x.team true }) })
  match s.launch? x.part x.launch with
  | none => s
  | some l =>
    if (l.placed[x.cluster]?).any (fun cl => cl.exited.all id && !cl.freed) then
      (freeCluster s l x.cluster).updLaunch x.part x.launch (fun l => { l with
        placed := modifyAt l.placed x.cluster (fun cl => { cl with freed := true }) })
    else s

/-- The group-registers per team that a core's child reservation must still serve: the n of each spawning launch with a team, a
child team or a record there (04 R112). -/
def reservedFor (s : State) (c : Nat) : List Nat :=
  let co := s.core c
  let size (p : Nat) (id : W32) : List Nat := match s.launch? p id with
    | some l => if l.img.spill = 0 then [] else [l.img.n]
    | none => []
  co.ctxs.flatMap (fun x => if !x.resident then [] else if x.child.isSome then [x.n] else size x.part x.launch) ++
  (co.gather ++ co.formed.flatten).flatMap (fun r => match s.launch? r.part r.launch with | some l => [l.img.n] | none => [0]) ++
  s.launches.flatMap (fun l =>
    if (l.status == .placed || l.status == .preempting) && l.spilled.any (fun r => r.core == c) then [l.img.n] else [])

/-- The child reservation falls to the largest n it still serves, and is released once no team of a spawning launch, no child
team and no record of one remains on the core (04 R112). -/
def releaseReservation (s : State) (c : Nat) : State :=
  let co := s.core c
  match reservedFor s c with
  | [] => s.setCore c { co with childRes := none }
  | ns => s.setCore c { co with childRes := co.childRes.map (fun r => (r.1, r.2.1, min r.2.2 (ns.foldl max 0))) }

/-- Takes a context's groups off the core's lane sets: running and Truss-waiting entries go, and a lane set its group
holds leaves truss mode (06 R152, R153; 10 R287). -/
def leaveLaneSets (s : State) (c k : Nat) : State :=
  (List.range 4).foldl (fun s ls =>
    let s := s.updLaneSet c ls (fun l => { l with
      running := l.running.filter (fun r => r.1 != k), trussWait := l.trussWait.filter (fun r => r.1 != k) })
    if (s.laneSetAt c ls).truss.any (fun r => r.1 == k) then leaveTruss s c ls else s) s

/-- The agents of a team whose events its EXIT covers: its context, its groups' lanes and its transfers (12 R352). -/
def exitAgents (x : Ctx) (c k : Nat) : List Agent :=
  ctxAgent c k .c :: ((List.range x.groups.length).map (fun g => grpAgent c k g .l) ++ (List.range 8).map (chanAgent c k))

/-- Frees the context, its groups and their waiting queue pops; its stores leave their queues. -/
def freeContext (s : State) (c k : Nat) : State :=
  let s := endOrder (leaveLaneSets s c k) c k
  let s := s.updCore c (fun co => { co with
    queues := co.queues.map (fun q => { q with pops := q.pops.filter (fun p => p.1 != k) }) })
  releaseReservation (s.setCtx c k Ctx.free) c

/-- A save routine terminated under a PREEMPT or FREEZE gives that command its cause (11 R438). -/
def noteSave (s : State) (x : Ctx) (cause : Nat) : State :=
  if x.mode == .save then
    { s with cmds := s.cmds.map (fun m =>
        if m.part == x.part && m.ids.contains x.launch then { m with cause := m.cause <|> some cause, faults := m.faults + 1 } else m) }
  else s

/-- The records of a team's issued SPAWNs are accepted; a word still suspended on its spill has issued nothing. -/
def acceptPending (s : State) (c k : Nat) : State :=
  (indexed (s.ctx c k).groups).foldl (fun s g =>
    let bs := if g.2.pos.status == .suspended .spill then g.2.spawnPend.dropLast else g.2.spawnPend
    bs.foldl (fun s b => acceptAll s (grpAgent c k g.1 .s) c b) (if g.2.spawnPend.isEmpty then s else s.updGroup c k g.1 (fun r => { r with spawnPend := [] }))) s

/-- The gatherer leaves spilling when the buffer holds no record of its core and none is being written (03 R97). -/
def leaveSpilling (s : State) (c : Nat) : State :=
  if s.launches.any (fun l => l.spilled.any (fun r => r.core == c)) ||
      (s.core c).ctxs.any (fun x => x.groups.any (fun g => g.pos.status == .suspended .spill)) then s
  else s.updCore c (fun co => { co with spilling := false })

/-- A terminated child team's joins: the cause is a failed decrement of each address, counted and recorded (03 R95, R96), before
they are decremented. -/
def endJoins (s : State) (a : Agent) (agents : List Agent) (part : Nat) (launch : W32) (joins : List W64) (cause : Nat) (finfo : W64) :
    State :=
  let s := joins.foldl (fun s a =>
    (countFault s part launch cause).updLaunch part launch (fun l => { l with joinFails := l.joinFails ++ [(a, cause, finfo)] })) s
  joinDecs s a agents part launch joins

/-- A team is terminated (10 R287): the cause counts in the launch's record, its issued records are accepted and its stores leave
their queues, a child team's joins are recorded and then decremented (03 R95, R101), halted transfers it committed are skipped, its
context is freed. -/
def terminate (s : State) (c k : Nat) (cause : Nat) (finfo : W64) : State :=
  let x := s.ctx c k
  let s := flushTeam (acceptPending (noteSave (countFault s x.part x.launch cause) x cause) c k) c k
  let s := match x.child with
    | some ch => endJoins s (ctxAgent c k .s) (exitAgents x c k) x.part x.launch ch.joins cause finfo
    | none => s
  let s := skipHalted (orphanRecords s c k x) c k x false
  let s := leaveSpilling (freeContext s c k) c
  match x.child with
  | some _ => s
  | none => markExited s x

/-! ### Taking a trap (10 R274-R278, R285, R286) -/

/-- The one operation that takes a cause for a team. In a routine the team ends with DOUBLETRAP (R285). With no
privileged image the team ends with the cause (R286). While another freeze is under way the cause is not taken: it arises
again when its instruction issues (R278). Otherwise the freeze is triggered; the routine is entered when every
group has stopped (R276). -/
def takeTrap (s : State) (c k : Nat) (t : Trig) : State :=
  let x := s.ctx c k
  if x.priv then terminate s c k cDOUBLETRAP (BitVec.ofNat 64 t.cause)
  else if x.trig.isSome then s
  else if x.trapVec.msb then terminate s c k t.cause t.finfo
  else s.setCtx c k { x with trig := some t, wait := none, tlbWait := [] }

/-- A control trap of the acting context with the given EPC (10 R267, R276). -/
def ctrlTrap (s : State) (cause : Nat) (async : Bool) (epc faddr : W64) (fmask : W32) (finfo : W64) : State :=
  takeTrap s s.cur.core s.cur.ctx
    { cause := cause, lane := false, group := 0, async := async, preempt := false, skippable := false, epc := epc,
      faddr := faddr, fmask := fmask, finfo := finfo }

/-- A trap at the acting control instruction itself. -/
def trapHere (s : State) (x : Ctx) (cause : Nat) : State := ctrlTrap s cause false x.pc 0 0 0

/-- A control access fault (10 R267). -/
def faultHere (s : State) (x : Ctx) (va : W64) (f : AFault) : State := ctrlTrap s f.cause false x.pc va 1 f.finfo

/-- A trap of a lane word of group g: the group stops before the word with its pending writes, and its lane set is free
(10 R275). EPC is the oldest unretired control instruction (R276). -/
def laneTrap (s : State) (c k g : Nat) (cause : Nat) (async skippable : Bool) (faddr : W64) (fmask : Lanes)
    (finfo : W64) : State :=
  let x := s.ctx c k
  let s := s.updLaneSet c (x.laneSet g) (fun l => { l with running := l.running.filter (fun r => r != (k, g)) })
  let s := makeEligible s c k g
  takeTrap s c k
    { cause := cause, lane := true, group := g, async := async, preempt := false, skippable := skippable, epc := x.pc,
      faddr := faddr, fmask := fmask, finfo := finfo }

/-- CAUSE's layout (10 R271). -/
def Trig.causeWord (t : Trig) : W64 :=
  BitVec.ofNat 64 (t.cause % 512 + (if t.lane then 512 else 0) + (t.group % 32) * 1024 +
    (if t.async then 32768 else 0) + (if t.preempt then 65536 else 0))

/-! ### Entering a routine (10 R273) -/

/-- The vector of a routine. -/
def Ctx.vector (x : Ctx) : Mode → W64
  | .trap => x.trapVec &&& 0xFFFFFFFF
  | .save => x.saveVec
  | .restore => x.restVec
  | .user => x.pc

/-- The control slice as a routine finds it: empty queues, zero counters, the team active mask and m0 with bits 0 to
32G-1 (R273). -/
def Stream.routine (groups : Nat) : Stream :=
  { Stream.fresh with active := lowMask 1024 (32 * groups), masks := (List.replicate 16 0).set 0 (lowMask 1024 (32 * groups)) }

/-- A group's frozen position, with the results the freeze sets aside (R277). -/
def Group.freezePos (r : Group) : GroupPos := { r.pos with heldOuts := r.outs }

/-- Enters a routine from a triggered freeze whose groups have all stopped. The freeze record keeps the frozen work; asynchronous
faults not yet raised are held (R277, R278). A save routine's groups have no loop (R292). -/
def enterRoutine (s : State) (c k : Nat) (t : Trig) (m : Mode) (shadows chanStat : List (List W64)) : State :=
  let x := s.ctx c k
  let trussOf (g : Nat) : Bool × Bool :=
    let l := s.laneSetAt c (x.laneSet g)
    (l.truss == some (k, g), l.trussWait.contains (k, g))
  let place (g : Nat) : Nat := ((s.laneSetAt c (x.laneSet g)).trussWait.findIdx? (· == (k, g))).elim 0 (· + 1)
  let fr : Frozen :=
    { trig := t, stream := x.strm, trigger := x.trigger, staint := x.staint, pcs := x.groups.map Group.freezePos,
      groups := x.groups, truss := (List.range x.groups.length).map trussOf,
      trussPos := (List.range x.groups.length).map place, shadows := shadows, chanStat := chanStat }
  let s := s.updCore c (fun co => { co with
    queues := co.queues.map (fun q => { q with pops := q.pops.filter (fun p => p.1 != k) }) })
  s.setCtx c k { x with
    trig := none, frozen := some fr, mode := m, pc := x.vector m, wait := none, recent := none, tlbWait := [],
    strm := Stream.routine x.groups.length, cause := t.causeWord, epc := t.epc, faddr := t.faddr,
    fmask := t.fmask.zeroExtend 64, finfo := t.finfo, resumeR := 0,
    held := x.held ++ x.groups.flatMap (·.async),
    groups := x.groups.map (fun r => { r with
      pos := GroupPos.fresh, outs := [], async := [], rstores := r.rstores.map (fun st => { st with frozen := true }),
      loops := if m == .save then [] else r.loops }) }

/-! ### Leaving a routine (10 R282, R283, R291) -/

/-- Whether the trapping word of the frozen cause is passed over when its group resumes (R283).
Left to the model: DEDUCED, log entry 10. -/
def skipsWord (x : Ctx) (t : Trig) (g : Nat) : Bool :=
  t.lane && t.group == g && t.skippable &&
    (t.cause == cLANEBRK || (decide (0x040 ≤ t.cause) && decide (t.cause ≤ 0x07F)) || x.resumeR.getLsbD 0)

/-- A group reinstalled from the freeze record. A suspended group tries its word again; withdrawn QPOPs wait again; a group that
was Eligible waits anew. Left to the model: DESIGN CHOICE, log entry 48. -/
def Group.reinstall (r old : Group) (p : GroupPos) (stamp : Nat) : Group :=
  { r with
    pos := { p with heldOuts := [], status := match p.status with | .suspended _ => .eligible | st => st },
    outs := p.heldOuts, origin := old.origin, unf := old.unf, spoison := r.spoison.set 9 (old.spoison.getD 9 none),
    stamp := stamp, pass := 0 }

/-- The extra reinstallations of the ERET that ends a restore routine (R291, R292): discardable registers read zero, the
extensions and taints below .keep come from the record, and the loops resume. Left to the model: DEDUCED, log entry 42. -/
def Group.restoreExt (r old : Group) (keep : Nat) : Group :=
  let ext (k : Nat) (v : VReg) : VReg :=
    if k < keep then
      (v.zip (old.vregs.getD k VReg.zero)).map (fun e => (fld e.2 32 4 ++ fld e.1 0 32 : Elem))
    else VReg.zero
  { r with
    vregs := (indexed r.vregs).map (fun v => ext v.1 v.2),
    vpoison := (indexed r.vpoison).map (fun p => if p.1 < keep then p.2 else Poison.none),
    vtaint := (indexed old.vtaint).map (fun t => decide (t.1 < keep) && t.2),
    gtaint := (indexed r.gtaint).map (fun t => if t.1 < 4 then t.2 else old.gtaint.getD t.1 false),
    loops := old.loops.map (fun l => { l with told := [] }) }

/-- Requeues the withdrawn QPOPs of every group (R277). -/
def requeuePops (s : State) (c k : Nat) : State :=
  (indexed (s.ctx c k).groups).foldl (fun s g =>
    g.2.outs.foldl (fun s o =>
      match o.popQueue with
      | some q => if o.written then s else
          s.updCore c (fun co => { co with queues := modifyAt co.queues q (fun x => { x with pops := x.pops ++ [(k, g.1)] }) })
      | none => s) s) s

/-- Puts a resumed group into a waiting order: last, but before the resumed groups of its launch that were recorded behind it. -/
def resumeOrder (s : State) (c k g pos : Nat) (ws : List (Nat × Nat)) : List (Nat × Nat) :=
  let x := s.ctx c k
  let later (r : Nat × Nat) : Bool :=
    let y := s.ctx c r.1
    y.part == x.part && y.launch == x.launch && (s.group c r.1 r.2).pos.trussPos.any (fun p => decide (pos < p))
  let behind := (ws.reverse.takeWhile later).reverse
  ws.take (ws.length - behind.length) ++ [(k, g)] ++ behind

/-- A resumed truss or Truss-waiting group takes its lane set, if no other group holds it, or waits for it in the recorded order
(R292). -/
def resumeTrussGroup (f : Frozen) (c k : Nat) (s : State) (g : Nat) : State :=
  let ls := (s.ctx c k).laneSet g
  let s := s.updLaneSet c ls (fun l => { l with trussWait := l.trussWait.filter (· != (k, g)) })
  if (s.laneSetAt c ls).truss.any (· != (k, g)) then
    let pos := f.trussPos.getD g 0
    (s.updLaneSet c ls (fun l => { l with trussWait := resumeOrder s c k g pos l.trussWait })).updGroup c k g
      (fun r => { r with pos := { r.pos with
        trussReq := true, trussPos := some pos, status := if r.pos.status == .parked then .parked else .trussWaiting } })
  else
    (s.updLaneSet c ls (fun l => { l with truss := some (k, g) })).updGroup c k g (fun r => { r with pos := r.pos.trussReady })

/-- The groups of a resumed team that were in the truss order, the truss groups first. -/
def resumeTruss (s : State) (c k : Nat) (f : Frozen) : State :=
  let want (p : (Nat × Bool × Bool) → Bool) := ((indexed f.truss).filter p).map (·.1)
  (want (fun t => t.2.1) ++ want (fun t => !t.2.1 && t.2.2)).foldl (resumeTrussGroup f c k) s

/-- The lines of a team's reservation, in offset order (07 R179). -/
def resvLines (s : State) (core part : Nat) (launch : W32) (cluster team : Nat) : List Nat :=
  (((s.core core).resvs.find? (fun r => r.part == part && r.launch == launch && r.cluster == cluster && r.team == team)).map
    (·.lines)).getD []

/-- Scratchpad lines of a core are zeroed and present; no poison and no earlier content is left there (02 R41). -/
def clearScr (s : State) (c : Nat) (lines : List Nat) (f : Core → Core) : State :=
  let s := if s.poison.isEmpty then s
    else { s with poison := s.poison.filter (fun p => !(p.scratch == some c && lines.contains (p.addr / 128))) }
  (forgetLate s (some c) (fun a => lines.contains (a / 128))).updCore c f

/-- Zeroes scratchpad lines and makes them present. -/
def clearLines (k : Core) (lines : List Nat) : Core :=
  { k with
    scr := k.scr.filter (fun c => !lines.contains (c.1 / 128)),
    presence := k.presence.filter (fun p => !lines.contains p.1) }

/-- The core's part of R291: the .discard lines are zero and present, and the copy shadow sets come back. -/
def restoreCore (s : State) (c : Nat) (x : Ctx) (f : Frozen) : State :=
  let img := x.img s
  let lines := if x.child.isSome then [] else resvLines s c x.part x.launch x.cluster x.team
  let gone := img.discard.flatMap (fun r => (lines.drop (r.1 / 128)).take (r.2 / 128))
  clearScr s c gone (fun co =>
    let co := clearLines co gone
    { co with chans := (co.chans.zip f.shadows).map (fun p => { p.1 with shadow := p.2 }) })

/-- Faults of R293 that the restore ERET of context k raises; POOLSEVER's FINFO is its own (07 R205), kept beside the four words.
Left to the model: DEDUCED, log entry 13; their FMASK is 0, DESIGN CHOICE, log entry 53. -/
def recordedFaults (f : Frozen) (k : Nat) : List AsyncFault :=
  f.chanStat.filterMap (fun w =>
    let w0 := w.getD 0 0
    let fa := w.getD 2 0
    if bit w0 0 && (fld w0 4 3).toNat == k then
      let cause := 0x080 + (fld fa 56 8).toNat
      some { store := false, lane := false, group := 0, skip := false, fmask := 0, cause := cause, faddr := (fld fa 0 56).zeroExtend 64,
             finfo := if cause = cPOOLSEVER then w.getD 4 0 else (fld w0 1 3).zeroExtend 64 ||| BitVec.shiftLeft (w.getD 1 0) 8 }
    else none)

/-! ### Running the acting agent's meaning -/

/-- A control meaning: acts on the acting context. -/
def onCtx (s : State) (f : Ctx → State) : Out :=
  match s.me? with
  | some x => .next (f x)
  | none => .fault .noContext

/-- A control meaning that reads scalar registers: a poisoned one raises its cause precisely (10 R300). -/
def reading (s : State) (rs : List (BitVec 5)) (f : Ctx → State) : Out :=
  onCtx s (fun x => match rs.findSome? x.poison with
    | some cause => ctrlTrap s cause true x.pc 0 0 0
    | none => f x)

/-- As `reading`, with the m registers read: poison there has the cause of control-core state (10 R312). -/
def readingM (s : State) (rs : List (BitVec 5)) (ms : List (BitVec 4)) (f : Ctx → State) : Out :=
  reading s rs (fun x =>
    if ms.any (fun m => x.strm.mpoison.getLsbD m.toNat) then ctrlTrap s cSECTRL true x.pc 0 0 0 else f x)

end Sys2Proof.Machine
end

