-- ==== Sys2Proof/Machine/Flags.lean ====
section
/-! DEFINITION. Number formats and the GSTAT flags their operations raise: binary formats (05 R127-R129, 12 R358), the
36-bit view F36 (R142), L6 (R136-R140) and saturation. A finite value is sign, magnitude m and exponent e: m * 2^e. -/

namespace Sys2Proof.Machine

/-! ### Flags (05 R131) -/

def fNV : W32 := 0x01
def fDZ : W32 := 0x02
def fOF : W32 := 0x04
def fUF : W32 := 0x08
def fNX : W32 := 0x10
def fACCSAT : W32 := 0x20

/-- The bits of GSTAT that software can write and read (05 R131). -/
def gstatMask : W32 := 0x1F3F

/-- The first enabled exception among raised flags, as its cause, in the order NV, DZ, OF, UF, NX (05 R132). -/
def enabledCause (gstat flags : W32) : Option (Nat × W32) :=
  ((List.range 5).find? (fun i => flags.getLsbD i && gstat.getLsbD (8 + i))).map
    (fun i => (cFINVALID + i, BitVec.ofNat 32 (2 ^ i)))

/-! ### Formats (05 R127, R142) -/

/-- A binary format: exponent and fraction bits. -/
structure Fmt where
  eb : Nat
  fb : Nat
  deriving DecidableEq, Repr

def Fmt.f32 : Fmt := { eb := 8, fb := 23 }
def Fmt.f16 : Fmt := { eb := 5, fb := 10 }
def Fmt.b16 : Fmt := { eb := 8, fb := 7 }
def Fmt.f36 : Fmt := { eb := 8, fb := 27 }

def Fmt.bias (f : Fmt) : Nat := 2 ^ (f.eb - 1) - 1
def Fmt.top (f : Fmt) : Nat := 2 ^ f.eb - 1
def Fmt.inf (f : Fmt) (neg : Bool) : Nat := (if neg then 2 ^ (f.eb + f.fb) else 0) + f.top * 2 ^ f.fb
def Fmt.nan (f : Fmt) : Nat := f.top * 2 ^ f.fb + 2 ^ (f.fb - 1)
def Fmt.largest (f : Fmt) (neg : Bool) : Nat := f.inf neg - 1
def Fmt.zero (f : Fmt) (neg : Bool) : Nat := if neg then 2 ^ (f.eb + f.fb) else 0

/-- A number read from a format. -/
inductive FVal where
  | nan (signalling : Bool)
  | inf (neg : Bool)
  | fin (neg : Bool) (m : Nat) (e : Int)
  deriving DecidableEq, Repr

/-- Reads a bit pattern (05 R127). -/
def Fmt.read (f : Fmt) (v : Nat) : FVal :=
  let frac := v % 2 ^ f.fb
  let ex := v / 2 ^ f.fb % 2 ^ f.eb
  let neg := decide (v / 2 ^ (f.eb + f.fb) % 2 = 1)
  if ex = f.top then (if frac = 0 then .inf neg else .nan (decide (frac < 2 ^ (f.fb - 1))))
  else if ex = 0 then .fin neg frac (1 - (f.bias : Int) - f.fb)
  else .fin neg (2 ^ f.fb + frac) ((ex : Int) - f.bias - f.fb)

/-- Rounding modes of MOD[1:0] (05 R128). -/
inductive Round where
  | rne | rz | rd | ru
  deriving DecidableEq, Repr

def Round.ofMod (md : BitVec 3) : Round :=
  match (fld md 0 2).toNat with
  | 0 => .rne | 1 => .rz | 2 => .rd | _ => .ru

/-- Bits in a number. -/
def bitLen (m : Nat) : Nat := if m = 0 then 0 else Nat.log2 m + 1

/-- Whether a truncated magnitude is rounded away from zero: `odd` its lowest bit, `half` the comparison of the dropped
part with one half, `exact` whether nothing was dropped. -/
def Round.up (r : Round) (neg odd : Bool) (half : Ordering) (exact : Bool) : Bool :=
  match r with
  | .rne => half == .gt || (half == .eq && odd)
  | .rz => false
  | .rd => neg && !exact
  | .ru => !neg && !exact

/-- m * 2^e (plus a dropped part when `sticky`) rounded to a multiple of 2^q: the multiple and whether it is exact. -/
def roundAt (r : Round) (neg : Bool) (m : Nat) (e : Int) (sticky : Bool) (q : Int) : Nat × Bool :=
  if q ≤ e then (m * 2 ^ (e - q).toNat, !sticky)
  else
    let sh := (q - e).toNat
    let rem := m % 2 ^ sh
    let half := if rem = 2 ^ (sh - 1) then (if sticky then Ordering.gt else .eq) else compare rem (2 ^ (sh - 1))
    let exact := decide (rem = 0) && !sticky
    let k := m / 2 ^ sh
    (if r.up neg (decide (k % 2 = 1)) half exact then k + 1 else k, exact)

/-- A rounded result and the flags of R358. A sticky magnitude carries more bits than the format. An overflowing result is infinity in
every rounding mode, unless it saturates (05 R128). Left to the model: DEDUCED, log entry 50. -/
def Fmt.round (f : Fmt) (r : Round) (sat neg : Bool) (m : Nat) (e : Int) (sticky : Bool) : Nat × W32 :=
  if m = 0 then (f.zero neg, 0)
  else
    let p := f.fb + 1
    let emin : Int := 1 - f.bias
    let ex : Int := e + bitLen m - 1
    let q := max (ex - f.fb) (emin - f.fb)
    let (k, exact) := roundAt r neg m e sticky q
    let tiny :=
      if ex ≥ emin then false
      else if ex < emin - 1 then true
      else (roundAt r neg m e sticky (ex - f.fb)).1 < 2 ^ p
    let field : Int := if k < 2 ^ f.fb then 0 else q + f.fb + f.bias + (if k = 2 ^ p then 1 else 0)
    let sign := f.zero neg
    if field ≥ (f.top : Int) then
      (if sat then f.largest neg else f.inf neg, fOF ||| fNX)
    else
      (sign + field.toNat * 2 ^ f.fb + k % 2 ^ f.fb,
       (if exact then 0 else fNX) ||| (if tiny && !exact then fUF else 0))

/-- An infinite result: the largest finite magnitude under saturation (05 R128). -/
def Fmt.infinite (f : Fmt) (sat neg : Bool) : Nat := if sat then f.largest neg else f.inf neg

/-- A value written to a format: exact values are rounded once, a NaN is canonical; `fl` are flags already raised. -/
def Fmt.write (f : Fmt) (r : Round) (sat : Bool) (v : FVal) (fl : W32) : Nat × W32 :=
  match v with
  | .nan _ => (f.nan, fl)
  | .inf neg => (f.infinite sat neg, fl)
  | .fin neg m e =>
    let (k, g) := f.round r sat neg m e false
    (k, fl ||| g)

/-! ### Arithmetic (12 R358) -/

def FVal.isNan : FVal → Bool
  | .nan _ => true
  | _ => false

def FVal.sig : FVal → Bool
  | .nan s => s
  | _ => false

def FVal.neg : FVal → FVal
  | .nan s => .nan s
  | .inf n => .inf !n
  | .fin n m e => .fin (!n) m e

def FVal.isZero : FVal → Bool
  | .fin _ 0 _ => true
  | _ => false

/-- The signed integer value of m * 2^e scaled by 2^-lo, for lo at most e. -/
def scaled (neg : Bool) (m : Nat) (e lo : Int) : Int :=
  let v : Int := (m * 2 ^ (e - lo).toNat : Nat)
  if neg then -v else v

/-- The sign of an exact zero sum (12 R358). -/
def zeroSum (r : Round) (a b : Bool) : Bool := if a == b then a else r == .rd

/-- An exact sum with its flags. -/
def FVal.add (r : Round) (a b : FVal) : FVal × W32 :=
  match a, b with
  | .nan _, _ => (.nan false, if a.sig || b.sig then fNV else 0)
  | _, .nan _ => (.nan false, if a.sig || b.sig then fNV else 0)
  | .inf x, .inf y => if x == y then (.inf x, 0) else (.nan false, fNV)
  | .inf x, _ => (.inf x, 0)
  | _, .inf y => (.inf y, 0)
  | .fin na ma ea, .fin nb mb eb =>
    let lo := min ea eb
    let v := scaled na ma ea lo + scaled nb mb eb lo
    if v = 0 then
      (.fin (if ma = 0 && mb = 0 then zeroSum r na nb else r == .rd) 0 0, 0)
    else (.fin (decide (v < 0)) v.natAbs lo, 0)

/-- An exact product with its flags. -/
def FVal.mul (a b : FVal) : FVal × W32 :=
  match a, b with
  | .nan _, _ => (.nan false, if a.sig || b.sig then fNV else 0)
  | _, .nan _ => (.nan false, if a.sig || b.sig then fNV else 0)
  | .inf x, .inf y => (.inf (x != y), 0)
  | .inf x, .fin n m _ => if m = 0 then (.nan false, fNV) else (.inf (x != n), 0)
  | .fin n m _, .inf y => if m = 0 then (.nan false, fNV) else (.inf (n != y), 0)
  | .fin na ma ea, .fin nb mb eb => (.fin (na != nb) (ma * mb) (ea + eb), 0)

/-- A three-way comparison of two values that are not NaN; zeros are equal. -/
def FVal.cmp (a b : FVal) : Ordering :=
  match a, b with
  | .inf x, .inf y => if x == y then .eq else if x then .lt else .gt
  | .inf x, _ => if x then .lt else .gt
  | _, .inf y => if y then .gt else .lt
  | .fin na ma ea, .fin nb mb eb => compare (scaled na ma ea (min ea eb)) (scaled nb mb eb (min ea eb))
  | _, _ => .eq

def FVal.isNeg : FVal → Bool
  | .inf n => n
  | .fin n _ _ => n
  | .nan _ => false

/-- minimumNumber, or maximumNumber for `big` (05 R128): −0 orders below +0. -/
def FVal.minmax (big : Bool) (a b : FVal) : FVal × W32 :=
  let fl : W32 := if a.sig || b.sig then fNV else 0
  if a.isNan && b.isNan then (.nan false, fl)
  else if a.isNan then (b, fl)
  else if b.isNan then (a, fl)
  else
    let less := match a.cmp b with
      | .lt => true
      | .gt => false
      | .eq => a.isNeg
    (if less != big then a else b, fl)

/-! ### Correctly rounded functions (05 R129) -/

/-- The integer square root, one bit at a time from bit k - 1 down. -/
def isqrtFrom (n : Nat) : Nat → Nat → Nat
  | 0, acc => acc
  | k + 1, acc =>
    let t := acc + 2 ^ k
    isqrtFrom n k (if t * t ≤ n then t else acc)

/-- 1/x of a positive magnitude: 160 bits of quotient and whether a remainder was dropped. -/
def recip (m : Nat) (e : Int) : Nat × Int × Bool :=
  let k := 160 + bitLen m
  (2 ^ k / m, -e - k, decide (2 ^ k % m ≠ 0))

/-- 1/√x of a positive magnitude: a root of 160 bits. -/
def rsqrt (m : Nat) (e : Int) : Nat × Int × Bool :=
  let (m, e) := if e % 2 = 0 then (m, e) else (2 * m, e - 1)
  let k := 160 + bitLen m
  let n := 2 ^ (2 * k) / m
  let y := isqrtFrom n (k + 2) 0
  (y, -(e / 2) - k, !(decide (y * y = n) && decide (2 ^ (2 * k) % m = 0)))

/-- ⌊2^256 · ln 2⌋. -/
def ln2Fixed : Nat := 0xB17217F7D1CF79ABC9E3B39803F2F6AF40F343267298B62D8A0D175B8BAAFA2B

/-- The tail of the exponential series: term and sum at 2^-256, from index k on. -/
def expTail (y : Nat) : Nat → Nat → Nat → Nat → Nat
  | 0, _, _, sum => sum
  | fuel + 1, k, term, sum =>
    let t := term * y / 2 ^ 256 / k
    expTail y fuel (k + 1) t (sum + t)

/-- 2^f at 2^-256, for f in [0, 1) at 2^-256. -/
def exp2Frac (f : Nat) : Nat := expTail (f * ln2Fixed / 2 ^ 256) 80 1 (2 ^ 256) (2 ^ 256)

/-- The first n bits of log2 of y in [1, 2), y at 2^-512, by repeated squaring. -/
def log2Bits : Nat → Nat → Nat → Nat
  | 0, _, acc => acc
  | n + 1, y, acc =>
    let z := y * y / 2 ^ 512
    if 2 ^ 513 ≤ z then log2Bits n (z / 2) (2 * acc + 1) else log2Bits n z (2 * acc)

inductive Trans where
  | rcp | rsq | exp2 | log2
  deriving DecidableEq, Repr

/-- 2^x of a finite value: an integer exponent is exact; beyond ±2^12 the result only over- or underflows. -/
def exp2Fin (f : Fmt) (sat neg : Bool) (m : Nat) (e : Int) : Nat × W32 :=
  if m = 0 then f.round .rne sat false 1 0 false
  else if e + bitLen m > 12 then
    (if neg then f.round .rne sat false 1 (-4096) false else f.round .rne sat false 1 4096 false)
  else if e < -256 then f.round .rne sat false (2 ^ 256) (-256) true
  else
    let v : Int := (if neg then -(m : Int) else m) * 2 ^ (e + 256).toNat
    let i := v / 2 ^ 256
    let frac := (v % 2 ^ 256).toNat
    if frac = 0 then f.round .rne sat false 1 i false
    else f.round .rne sat false (exp2Frac frac) (i - 256) true

/-- log2 of a positive finite value: exact for a power of two. -/
def log2Fin (f : Fmt) (sat : Bool) (m : Nat) (e : Int) : Nat × W32 :=
  let l := bitLen m
  let i : Int := e + l - 1
  if m = 2 ^ (l - 1) then f.round .rne sat (decide (i < 0)) i.natAbs 0 false
  else
    let frac := log2Bits 200 (m * 2 ^ (513 - l)) 0
    let v : Int := i * 2 ^ 200 + frac
    f.round .rne sat (decide (v < 0)) (if v < 0 then v.natAbs - 1 else v.natAbs) (-200) true

/-- FRCP, FRSQ, FEXP2 and FLOG2 (05 R129). -/
def Fmt.trans (f : Fmt) (t : Trans) (sat : Bool) (v : FVal) : Nat × W32 :=
  match t, v with
  | _, .nan s => (f.nan, if s then fNV else 0)
  | .rcp, .inf n => (f.zero n, 0)
  | .rcp, .fin n m e =>
    if m = 0 then (f.infinite sat n, fDZ)
    else let (k, x, st) := recip m e; f.round .rne sat n k x st
  | .rsq, .inf n => if n then (f.nan, fNV) else (f.zero false, 0)
  | .rsq, .fin n m e =>
    if m = 0 then (f.infinite sat n, fDZ)
    else if n then (f.nan, fNV)
    else let (k, x, st) := rsqrt m e; f.round .rne sat false k x st
  | .exp2, .inf n => if n then (f.zero false, 0) else (f.infinite sat false, 0)
  | .exp2, .fin n m e => exp2Fin f sat n m e
  | .log2, .inf n => if n then (f.nan, fNV) else (f.infinite sat false, 0)
  | .log2, .fin n m e =>
    if m = 0 then (f.infinite sat true, fDZ)
    else if n then (f.nan, fNV)
    else log2Fin f sat m e

/-! ### Integers (05 R126) -/

/-- A width-w pattern read as a number. -/
def intOf (w : Nat) (signed : Bool) (v : Nat) : Int :=
  let v := v % 2 ^ w
  if signed && decide (2 ^ (w - 1) ≤ v) then (v : Int) - 2 ^ w else v

def intLow (w : Nat) (signed : Bool) : Int := if signed then -(2 ^ (w - 1)) else 0
def intHigh (w : Nat) (signed : Bool) : Int := if signed then 2 ^ (w - 1) - 1 else 2 ^ w - 1

def clampInt (lo hi x : Int) : Int := if x < lo then lo else if hi < x then hi else x

/-- The reduction of an exact result to w bits by MOD: wrap, or clamp. -/
def reduceInt (w : Nat) (signed sat : Bool) (x : Int) : Int :=
  if sat then clampInt (intLow w signed) (intHigh w signed) x
  else intOf w signed (x % 2 ^ w).toNat

/-- A value rounded to an integer: the integer and whether it is exact. -/
def roundInt (r : Round) (neg : Bool) (m : Nat) (e : Int) : Int × Bool :=
  let (k, exact) := roundAt r neg m e false 0
  (if neg then -(k : Int) else k, exact)

/-- A value converted to an integer type (05 R134, 12 R363). -/
def toInt (r : Round) (w : Nat) (signed : Bool) (v : FVal) : Int × W32 :=
  match v with
  | .nan _ => (0, fNV)
  | .inf n => (if n then intLow w signed else intHigh w signed, fNV)
  | .fin n m e =>
    let (k, exact) := roundInt r n m e
    if k < intLow w signed then (intLow w signed, fNV)
    else if intHigh w signed < k then (intHigh w signed, fNV)
    else (k, if exact then 0 else fNX)

def FVal.ofInt (x : Int) : FVal := .fin (decide (x < 0)) x.natAbs 0

/-! ### L6 (05 R136-R140) -/

/-- The mantissa table T (05 R137). -/
def l6T (f : Nat) : Nat :=
  match f with
  | 0 => 4096 | 1 => 4871 | 2 => 5793 | _ => 6889

/-- Sext(c, 5) of a code. -/
def l6t (c : Nat) : Int := intOf 5 true c

def l6IsZero (c : Nat) : Bool := decide (c % 32 = 16)

/-- The value of a code under scale E; the reserved code reads as zero (05 R138). -/
def l6Value (c : Nat) (scale : Int) : FVal :=
  if l6IsZero c then .fin false 0 0
  else .fin (decide (c / 32 % 2 = 1)) (l6T (l6t c % 4).toNat) (l6t c / 4 - 12 + scale)

/-- The magnitudes of t = -16 (zero) to 15 scaled by 2^17 / 2^E, in ascending order. -/
def l6Mag (t : Int) : Nat := if t = -16 then 0 else l6T (t % 4).toNat * 2 ^ (t / 4 + 5).toNat

/-- The t nearest to a magnitude m * 2^e under scale E, ties to even t (05 R139 step 4), with whether it is exact. -/
def l6Nearest (m : Nat) (e scale : Int) : Int × Bool :=
  -- compare at a common exponent: candidates are l6Mag t * 2^(scale - 17)
  let lo := min e (scale - 17)
  let x : Int := (m * 2 ^ (e - lo).toNat : Nat)
  let val (t : Int) : Int := (l6Mag t * 2 ^ (scale - 17 - lo).toNat : Nat)
  let dist (t : Int) : Nat := (x - val t).natAbs
  let best := (List.range 31).foldl (fun (b : Int) (i : Nat) =>
    let t : Int := (i : Int) - 15
    if dist t < dist b || (dist t = dist b && t % 2 = 0) then t else b) (-16)
  (best, decide (dist best = 0))

/-- The code of sign s and t. -/
def l6Code (neg : Bool) (t : Int) : Nat := if t = -16 then 16 else (t % 32).toNat + (if neg then 32 else 0)

/-- Conversion to L6 under scale E (05 R139). -/
def toL6 (v : FVal) (scale : Int) : Nat × W32 :=
  match v with
  | .nan _ => (16, fNV)
  | .inf n => (l6Code n 15, fOF ||| fNX)
  | .fin n m e =>
    if m = 0 then (16, 0)
    else
      let lo := min e (scale - 9)
      if m * 2 ^ (e - lo).toNat > 6889 * 2 ^ (scale - 9 - lo).toNat then (l6Code n 15, fOF ||| fNX)
      else
        let (t, exact) := l6Nearest m e scale
        if t = -16 then (16, fUF ||| fNX) else (l6Code n t, if exact then 0 else fNX)

/-- The L6 product (05 R140). -/
def l6Product (a b : Nat) (ea eb : Int) : Int :=
  if l6IsZero a || l6IsZero b then 0
  else
    let lam := l6t a + l6t b + 4 * (ea + eb)
    let n := lam / 4 + 2
    let t := l6T (lam % 4).toNat
    let mag : Nat := if n ≥ 0 then t * 2 ^ n.toNat else t / 2 ^ (-n).toNat
    if (a / 32 + b / 32) % 2 = 1 then -(mag : Int) else mag

/-- Sat36 (00 R11) with its ACCSAT flag (05 R140). -/
def sat36 (x : Int) : Int × W32 :=
  let y := clampInt (-(2 ^ 35 - 1)) (2 ^ 35 - 1) x
  (y, if y = x then 0 else fACCSAT)

end Sys2Proof.Machine
end

