-- ==== Sys2Proof/Machine/Access.lean ====
section
/-! DEFINITION. Reads and writes of memory by programs, with the spill buffer's unpredictable bytes (03 R98) and poison
(10 R300); instruction fetch (09 R251, 10 R270, R434). -/

namespace Sys2Proof.Machine

/-- Bytes an access reads: unpredictable inside a spill buffer (03 R98), else as the agent sees them (08 R216). -/
def loadBytes (s : State) (o : Agent) (pa n : Nat) : List Byte :=
  if !(spillHit s pa n).isEmpty then (List.range n).map (fun i => (s.free 1 (pa + i)).truncate 8)
  else seenPhys s o pa n

/-- Bytes that a read-modify-write reads: what stands before its own write in coherence order (08 R214). -/
def updateBytes (s : State) (pa n : Nat) : List Byte :=
  if !(spillHit s pa n).isEmpty then (List.range n).map (fun i => (s.free 1 (pa + i)).truncate 8) else readPhys s pa n

/-- The addresses of n bytes from one on. -/
def span (pa n : Nat) : List Nat := (List.range n).map (pa + ·)

/-- The poisoned storage an agent's read of memory meets: its cause as the storage where the error arose gave it, and its address. -/
def loadPoison (s : State) (o : Agent) (pa n : Nat) : Option (Nat × Nat) := seenPoison s o none pa n

/-- FINFO of a soft error: the physical address of the poisoned storage (10 R313). -/
def finfoPoison (pa : Nat) : W64 := BitVec.ofNat 64 (pa % 2 ^ 52)

/-! ### Fetch -/

/-- The causes of poison (10 R300, R310): they are taken as asynchronous ones. -/
def softCause (c : Nat) : Bool := c == cPOOLPOISON || (decide (0x172 ≤ c) && decide (c ≤ 0x177))

/-- The fault of a word's second page, with the space of the word's first byte (09 R251). -/
def AFault.atFirst (f : AFault) (space : Nat) : AFault :=
  if f.cause < 0x100 then { f with cause := accessCause space .fe (f.cause % 4) } else f

/-- The physical addresses of a fetch of `len` bytes (4 or 12) at a 4-aligned virtual address, checked as kind fetch in each
page. -/
def fetchAddrs (s : State) (part asid path : Nat) (va : W64) (len : Nat) : Except AFault (List Nat) :=
  match checkAccess s part asid .fe path va 4 false with
  | .error f => .error f
  | .ok pa =>
    if va.toNat % 4096 + len ≤ 4096 then .ok ((List.range len).map (pa + ·))
    else
      let cut := 4096 - va.toNat % 4096
      match checkAccess s part asid .fe path (va + BitVec.ofNat 64 cut) 4 false with
      | .error f => .error (f.atFirst (tierOf s pa).space)
      | .ok pb => .ok ((List.range cut).map (pa + ·) ++ (List.range (len - cut)).map (pb + ·))

/-- The bytes of a fetched word: a poisoned one cannot run and gives its cause (10 R300; log entry 12); one written since the
launch's submission runs as its old or its new content (04 R119). -/
def fetchBytes (s : State) (old : List OldByte) (part asid path : Nat) (va : W64) (len : Nat) : Except AFault (List Byte) :=
  match fetchAddrs s part asid path va len with
  | .error f => .error f
  | .ok as_ =>
    match as_.findSome? (fun a => poisonOf s none a 1) with
    | some c => .error { cause := c.1, finfo := finfoPoison c.2 }
    | none =>
      let was (a : Nat) : Byte := ((old.find? (fun c => c.addr == a)).map (·.was)).getD (readByte s a)
      .ok (if old.any (fun c => as_.contains c.addr) && s.choice 23 va.toNat then as_.map was else as_.map (readByte s))

/-- The fetch fault of R251 at an index beyond a section: kind fetch, reason permission, space of the address. -/
def fetchBeyond (s : State) (asid path : Nat) (va : W64) : AFault :=
  let t := translate s asid va.toNat
  { cause := accessCause (match t with | some (pa, _) => (tierOf s pa).space | none => 0) .fe rPERM,
    finfo := finfoAccess path t }

/-- The same beyond a section of the privileged image, whose copy has no virtual address (11 R329): space 0 and no translation.
Left to the model: DEDUCED, log entry 12. -/
def privBeyond (path : Nat) : AFault := { cause := accessCause 0 .fe rPERM, finfo := finfoAccess path none }

/-- The team's privileged image (10 R270). -/
def Ctx.privImage (s : State) (x : Ctx) : PrivImage :=
  ((s.partition x.part).bind (·.priv)).getD { bytes := [], ctrl := [], lanes := [], trapVec := 0, saveVec := 0, restVec := 0 }

/-- What written words of the team's code held that no IFENCE of the acting context covers (04 R119, 08 R229). -/
def Ctx.oldCode (s : State) (x : Ctx) : List OldByte :=
  (((x.launch? s).map (·.oldCode)).getD []).filter (fun o => !o.fenced.contains (s.cur.core, s.cur.ctx))

/-- The virtual address of a control word of the team's image. -/
def Ctx.ctrlAddr (s : State) (x : Ctx) (pc : W64) : W64 := BitVec.ofNat 64 (x.img s).ctrlVa + 4 * pc

/-- The control word at the context's pc, or the fault of its fetch. -/
def fetchCtrl (s : State) (x : Ctx) : Except AFault W32 :=
  if x.priv then
    match (x.privImage s).ctrl[x.pc.toNat]? with
    | some w => .ok w
    | none => .error (privBeyond pathC)
  else if x.pc.toNat ≥ (x.img s).ctrlWords then .error (fetchBeyond s (x.asid s) pathC (x.ctrlAddr s x.pc))
  else match fetchBytes s (x.oldCode s) x.part (x.asid s) pathC (x.ctrlAddr s x.pc) 4 with
    | .ok b => .ok (BitVec.ofNat 32 (natOf b))
    | .error f => .error f

/-- The virtual address of a lane word of the team's image. -/
def Ctx.laneAddr (s : State) (x : Ctx) (i : Nat) : W64 := BitVec.ofNat 64 ((x.img s).laneVa + 12 * i)

/-- The lane word at an index of the lane section the context's blocks use. -/
def fetchLane (s : State) (x : Ctx) (i : Nat) : Except AFault LaneBits :=
  if x.priv then
    match (x.privImage s).lanes[i]? with
    | some w => .ok w
    | none => .error (privBeyond pathL)
  else if i ≥ (x.img s).laneWords then .error (fetchBeyond s (x.asid s) pathL (x.laneAddr s i))
  else match fetchBytes s (x.oldCode s) x.part (x.asid s) pathL (x.laneAddr s i) 12 with
    | .ok b => .ok (BitVec.ofNat 96 (natOf b))
    | .error f => .error f

end Sys2Proof.Machine
end

