-- ==== Sys2Proof/Machine/Scratch.lean ====
section
/-! DEFINITION. Scratchpad addresses (07 R177-R179, 03 R435), the affine nest of a transfer (07 R186) and the copy
channels' own steps (07 R184, R187, R189). -/

namespace Sys2Proof.Machine

/-- Whose scratchpad an address names: a team, or a child team of its cluster, on a core. -/
structure Who where
  core : Nat
  part : Nat
  launch : W32
  cluster : Nat
  team : Nat
  child : Bool
  deriving DecidableEq, Repr

def Ctx.who (x : Ctx) (core : Nat) : Who :=
  { core := core, part := x.part, launch := x.launch, cluster := x.cluster, team := x.team, child := x.child.isSome }

/-- A scratchpad address resolved: the core, team slot and offset it names. -/
structure ScrLoc where
  core : Nat
  team : Nat
  off : Nat
  deriving DecidableEq, Repr

def clusterWindow : Nat := 0x01000000
def scrTop : Nat := 0x01C00000

/-- The windows of R177: the address form (a failure is "not present") gives the reservation and the offset. -/
def scrWindow (s : State) (w : Who) (a : W64) : Option ScrLoc :=
  let n := a.toNat
  match s.launch? w.part w.launch with
  | none => none
  | some l =>
    if n < clusterWindow then some { core := w.core, team := w.team, off := n }
    else if n ≥ scrTop then none
    else
      let t := (n - clusterWindow) / 0x100000
      match l.placed[w.cluster]? with
      | none => none
      | some cl =>
        if t ≥ l.img.teams || cl.freed then none
        else (cl.cores[t]?).map (fun c => { core := c.1, team := t, off := (n - clusterWindow) % 0x100000 })

/-- .scratch as R177 reads it for the address's window: zero for a child team's own window (03 R435). -/
def scrSize (s : State) (w : Who) (a : W64) : Nat :=
  if w.child && decide (a.toNat < clusterWindow) then 0
  else ((s.launch? w.part w.launch).map (·.img.scratch)).getD 0

def scrCause (k : Kind) (reason : Nat) : Nat := accessCause 3 k reason

/-- Checks an access of n bytes in the order of R268: windows, alignment, reservation. -/
def checkScr (s : State) (w : Who) (k : Kind) (path : Nat) (a : W64) (n align : Nat) : Except AFault ScrLoc :=
  let bad (r : Nat) : Except AFault ScrLoc := .error { cause := scrCause k r, finfo := BitVec.ofNat 64 path }
  match scrWindow s w a with
  | none => bad rNP
  | some l =>
    if a.toNat % align ≠ 0 then bad rALIGN
    else if l.off + n > scrSize s w a then bad rPERM
    else .ok l

/-- The core-physical address of a byte of a reservation (07 R179). -/
def scrPhys (s : State) (w : Who) (l : ScrLoc) (i : Nat) : Nat :=
  let lines := resvLines s l.core w.part w.launch w.cluster l.team
  lines.getD ((l.off + i) / 128) 0 * 128 + (l.off + i) % 128

/-- The physical addresses of n bytes. -/
def scrBytes (s : State) (w : Who) (l : ScrLoc) (n : Nat) : List Nat := (List.range n).map (scrPhys s w l)

def readScr (s : State) (core : Nat) (as_ : List Nat) : List Byte := as_.map (s.core core).scr.get

/-- Whether every line of the bytes is present at the core. -/
def absentLines (s : State) (core : Nat) (as_ : List Nat) : List Nat :=
  ((as_.map (· / 128)).filter (fun l => presenceOf (s.core core) l != 0)).dedup

/-! ### Transfers -/

/-- Register E[4:0] of a captured set (07 R185). -/
def treg (r : List W64) (i : Nat) : W64 := r.getD i 0

def tLen (r : List W64) : Nat := (fld (treg r 2) 0 32).toNat
def tSscr (r : List W64) : Bool := bit (treg r 3) 0
def tDscr (r : List W64) : Bool := bit (treg r 3) 1

/-- The (source, destination) addresses of every iteration, level 0 innermost, modulo 2^64 (07 R186). -/
def nest (r : List W64) : List (W64 × W64) :=
  if tLen r = 0 then []
  else ((List.range 8).reverse).foldl (fun acc k =>
    acc.flatMap (fun p => (List.range (fld (treg r (4 + k)) 0 32).toNat).map (fun i =>
      (p.1 + BitVec.ofNat 64 i * treg r (12 + k), p.2 + BitVec.ofNat 64 i * treg r (20 + k)))))
    [(treg r 0, treg r 1)]

/-- Every byte of the nest: source and destination addresses. -/
def nestBytes (r : List W64) : List (W64 × W64) :=
  (nest r).flatMap (fun p => (List.range (tLen r)).map (fun i => (p.1 + BitVec.ofNat 64 i, p.2 + BitVec.ofNat 64 i)))

/-- The reservations of a team's cluster that a transfer keeps from its commit to its end (07 R187, 04 R437). -/
def windowsOf (s : State) (w : Who) : List (Nat × List Nat) :=
  match (s.launch? w.part w.launch).bind (fun l => l.placed[w.cluster]?) with
  | none => []
  | some cl =>
    if cl.freed then []
    else (indexed cl.cores).map (fun c => (c.2.1, resvLines s c.2.1 w.part w.launch w.cluster c.1))

/-- A scratchpad byte of a transfer as (core, core-physical address), checked as R177 and R178 say. -/
def Xfer.scrByte (t : Xfer) (k : Kind) (a : W64) : Except AFault (Nat × Nat) :=
  let bad (r : Nat) : Except AFault (Nat × Nat) := .error { cause := scrCause k r, finfo := BitVec.ofNat 64 pathX }
  let at_ (slot off size : Nat) : Except AFault (Nat × Nat) :=
    if size ≤ off then bad rPERM
    else match t.windows[slot]? with
      | none => bad rNP
      | some w => .ok (w.1, w.2.getD (off / 128) 0 * 128 + off % 128)
  let n := a.toNat
  if n < clusterWindow then at_ t.team n (if t.child then 0 else t.scratch)
  else if n ≥ scrTop then bad rNP
  else
    let slot := (n - clusterWindow) / 0x100000
    if t.windows.length ≤ slot then bad rNP else at_ slot ((n - clusterWindow) % 0x100000) t.scratch

/-- The scratchpad lines (core, line) that a transfer's nest writes inside a reservation (07 R187). -/
def Xfer.writtenLines (t : Xfer) : List (Nat × Nat) :=
  if !tDscr t.regs then []
  else ((nestBytes t.regs).filterMap (fun p =>
    match t.scrByte .cd p.2 with
    | .ok l => some (l.1, l.2 / 128)
    | .error _ => none)).dedup

/-- The copy channel that acts for the context of a transfer (08 R207). -/
def Xfer.agent (t : Xfer) : Agent := chanAgent t.core t.ctx t.ch

/-- One byte of a transfer read: its value and poison, or the fault of kind copy source (07 R189). -/
def xferRead (s : State) (t : Xfer) (va : W64) : Except AFault (Byte × Option Nat) :=
  if tSscr t.regs then
    match t.scrByte .cs va with
    | .error f => .error f
    | .ok l => .ok (seenByte s t.agent (some l.1) l.2, (seenPoison s t.agent (some l.1) l.2 1).map (·.1))
  else match checkAccess s t.part t.asid .cs pathX va 1 false with
    | .error f => .error f
    | .ok pa => .ok ((loadBytes s t.agent pa 1).headD 0, (loadPoison s t.agent pa 1).map (·.1))

/-- Checks the destination of one byte. -/
def xferDest (s : State) (t : Xfer) (va : W64) : Except AFault (Option Nat × Nat) :=
  if tDscr t.regs then
    match t.scrByte .cd va with
    | .error f => .error f
    | .ok l => .ok (some l.1, l.2)
  else match checkAccess s t.part t.asid .cd pathX va 1 false with
    | .error f => .error f
    | .ok pa => .ok (none, pa)

/-- Whether a byte's destination line has landed already (07 R180). -/
def Xfer.hasLanded (t : Xfer) (d : Option Nat × Nat) : Bool :=
  match d.1 with
  | some k => t.landed.contains (k, d.2 / 128)
  | none => false

/-- The faults a transfer's bytes still to land would meet, with their addresses. Left to the model: DESIGN CHOICE, log entry 28. -/
def xferFaults (s : State) (t : Xfer) : List (AFault × W64) :=
  (nestBytes t.regs).flatMap (fun p =>
    match xferDest s t p.2 with
    | .error f => (match xferRead s t p.1 with | .error g => [(g, p.1)] | .ok _ => []) ++ [(f, p.2)]
    | .ok d =>
      if t.hasLanded d then []
      else match xferRead s t p.1 with
        | .error f => [(f, p.1)]
        | .ok _ => [])

/-- Where a source byte of a transfer lies. -/
def xferSource (s : State) (t : Xfer) (va : W64) : Option (Option Nat × Nat) :=
  if tSscr t.regs then
    match t.scrByte .cs va with
    | .ok l => some (some l.1, l.2)
    | .error _ => none
  else match checkAccess s t.part t.asid .cs pathX va 1 false with
    | .ok pa => some (none, pa)
    | .error _ => none

/-- Whether the source byte of place i is one that the transfer writes at another place (07 R186): what is read there is
unpredictable. -/
def selfRead (s : State) (t : Xfer) (places : List (Option (Option Nat × Nat))) (i : Nat) (va : W64) : Bool :=
  (xferSource s t va).any (fun d => (indexed places).any (fun p => p.1 != i && p.2 == some d))

/-- The places of a destination in the list of a transfer's destinations. -/
def placesOf (dests : List (Option (Option Nat × Nat))) (d : Option Nat × Nat) : List Nat :=
  (List.range dests.length).filter (fun i => dests.getD i none == some d)

/-- A key of a destination for free values. -/
def destKey (d : Option Nat × Nat) : Nat := 2 * d.2 + (d.1.elim 0 (fun _ => 1))

/-- Whether the byte at place i is the one its destination keeps: a free choice of the places that write it (07 R186). -/
def keptPlace (s : State) (dests : List (Option (Option Nat × Nat))) (i : Nat) (d : Option Nat × Nat) : Bool :=
  let ps := placesOf dests d
  decide (ps.length ≤ 1) || ps.getD ((s.free 24 (destKey d)).toNat % ps.length) i == i

/-- Lands one byte: its read and its write are events of the transfer's ECOMMIT (08 R208). A destination another iteration also
writes keeps one of the values (07 R186). -/
def landByte (s : State) (t : Xfer) (i : Nat) (places dests : List (Option (Option Nat × Nat))) (p : W64 × W64) : State :=
  match xferRead s t p.1, xferDest s t p.2 with
  | .ok (b, poison), .ok d =>
    let b := if selfRead s t places i p.1 then (s.free 2 i).truncate 8 else b
    if !keptPlace s dests i d then s
    else
      let s := match xferSource s t p.1 with
        | some a => noteRead s t.agent t.time a.1 [a.2]
        | none => s
      performWrite s t.agent t.time false [] d.1 [(d.2, b)] poison
  | _, _ => s

/-- Lands the bytes of a transfer that `p` selects by place and destination. -/
def landBytes (s : State) (t : Xfer) (p : Nat → Option Nat × Nat → Bool) : State :=
  let bs := nestBytes t.regs
  let places := bs.map (fun b => match xferDest s t b.2 with | .ok d => some d | .error _ => none)
  let dests := (indexed places).map (fun d => d.2.bind (fun l => if p d.1 l then some l else none))
  (indexed bs).foldl (fun s b =>
    match xferDest s t b.2.2 with
    | .ok d => if p b.1 d then landByte s t b.1 places dests b.2 else s
    | .error _ => s) s

/-- Every byte that a channel's transfer writes to a line has landed: the line's count falls (07 R180). -/
def lineDone (core ch : Nat) (s : State) (l : Nat × Nat) : State :=
  match (s.chan core ch).active with
  | none => s
  | some t =>
    let s := if t.lines.contains l then s.updCore l.1 (fun k => addPresence k l.2 false) else s
    (wakeLines s l.1).updChan core ch (fun y => { y with
      active := some { t with lines := t.lines.filter (fun x => x != l), landed := t.landed ++ [l] } })

/-- A transfer's bytes for one scratchpad line land (07 R180). Left to the model: DESIGN CHOICE, log entry 28. -/
def landLine (s : State) (core ch : Nat) (t : Xfer) (l : Nat × Nat) : State :=
  lineDone core ch (landBytes s t (fun _ d => d.1 == some l.1 && d.2 / 128 == l.2)) l

/-- The fault a channel halted on, as CAUSE, FADDR and FINFO hold it (07 R189, 10 R313); POOLSEVER's FINFO is its own (07 R205). -/
def Chan.fault (y : Chan) (ch : Nat) : Nat × W64 × W64 :=
  (y.faultCause, y.faultAddr &&& 0xFFFFFFFFFFFFFF,
    if y.faultCause = cPOOLSEVER then y.faultInfo else BitVec.ofNat 64 (ch + (y.complete % 2 ^ 56) * 256))

/-- The channel whose halted transfer holds an absent line (07 R181, R183): the transfer whose fault there is, not one queued behind
it. Left to the model: DEDUCED, log entry 13. -/
def haltedOn (s : State) (line : Nat × Nat) : Option (Nat × Nat) :=
  let hit (c ch : Nat) : Bool :=
    let y := s.chan c ch
    y.halted && y.active.any (fun t => t.lines.contains line)
  ((indexed s.cores).findSome? (fun c =>
    (List.range 8).findSome? (fun ch => if c.2.chans.isEmpty then none else if hit c.1 ch then some (c.1, ch) else none)))

/-- A transfer that meets no fault lands whole and completes (07 R184). -/
def completeTransfer (s : State) (c ch : Nat) : State :=
  match (s.chan c ch).active with
  | none => s
  | some t => finishTransfer (landBytes s t (fun _ d => !t.hasLanded d)) c ch

end Sys2Proof.Machine
end

