-- ==== Sys2Proof/Machine/Operands.lean ====
section
/-! DEFINITION. The operand forms of lane words: types (05 R124), register names and rotation (02 R40), the reserved fields of an
entry (12 R338), the register checks (02 R39), and what a word reads as visible at its slot (02 R60) with taint (08 R230)
and poison (10 R300). -/

namespace Sys2Proof.Machine

/-! ### Types (05 R124) -/

/-- Width of a type code in bits. -/
def tyBits (ty : Nat) : Nat :=
  match ty with
  | 2 => 16 | 3 => 16 | 4 => 8 | 5 => 8 | 7 => 16 | 8 => 16 | 9 => 6 | 10 => 64 | 11 => 64 | _ => 32

/-- Bytes of a type in memory. -/
def tyBytes (ty : Nat) : Nat := tyBits ty / 8

def tySigned (ty : Nat) : Bool := ty == 0 || ty == 2 || ty == 4 || ty == 10

/-- A 64-bit type, held in a pair (02 R38). -/
def tyWide (ty : Nat) : Bool := ty == 10 || ty == 11

def tyFloat (ty : Nat) : Bool := ty == 6 || ty == 7 || ty == 8

/-- The format of a floating type. -/
def tyFmt (ty : Nat) : Fmt := if ty = 7 then Fmt.f16 else if ty = 8 then Fmt.b16 else Fmt.f32

def tysInt : List Nat := [0, 1, 2, 3, 4, 5, 10, 11]
def tysFloat : List Nat := [6, 7, 8]
def tysMem : List Nat := [0, 1, 2, 3, 4, 5, 6, 7, 8, 10, 11]

/-- The pattern stored for an integer of a type: 64 bits for a pair, else sign- or zero-extended to 32. -/
def intPattern (ty : Nat) (x : Int) : Nat := (x % 2 ^ (if tyWide ty then 64 else 32)).toNat

/-- A raw field of a type's width as it is stored in an element (05 R124). -/
def storePattern (ty : Nat) (v : Nat) : Nat :=
  if tySigned ty then intPattern ty (intOf (tyBits ty) true v) else v % 2 ^ tyBits ty

/-! ### Entry forms (12 R338) -/

/-- The fields an entry uses. `ty` lists its type codes (none: TY is reserved), `md` its MOD values, `x` the bits of X in the
single kind; `sa`, `sb`, `sc` the strides a tile word uses; `values` that no reserved value of the entry is used; `pair`
that the types of a conversion go together. -/
structure Form where
  d : Bool
  a : Bool
  b : Bool
  c : Bool
  ty : List Nat
  md : List Nat
  tile : Bool
  sa : Bool
  sb : Bool
  sc : Bool
  x : W32
  lit : Bool
  values : Bool
  pair : Bool

/-- A form that uses no field. -/
def Form.blank : Form :=
  { d := false, a := false, b := false, c := false, ty := [], md := [0], tile := false, sa := false, sb := false, sc := false,
    x := 0, lit := false, values := true, pair := true }

/-- Step 4 of R251. -/
def Form.clean (f : Form) (w : LaneWord) : Bool :=
  (f.d || w.d == 0) && (f.a || w.a == 0) && (if w.lit then f.lit && w.b == 0 else f.b || w.b == 0) && (f.c || w.c == 0) &&
  (!f.ty.isEmpty || w.ty == 0) && f.md.contains w.md.toNat && (!w.tl || f.tile) &&
  ((w.tl && f.sa) || w.sa == 0) && ((w.tl && f.sb && !w.lit) || w.sb == 0) && ((w.tl && f.sc) || w.sc == 0) &&
  (w.lit || w.x &&& ~~~f.x == 0) && f.values

/-- Step 5 of R251; a tile word has no 64-bit type (06 R172). -/
def Form.typed (f : Form) (w : LaneWord) : Bool :=
  (f.ty.isEmpty || f.ty.contains w.ty.toNat) && !(w.tl && tyWide w.ty.toNat) && f.pair

/-! ### Register operands -/

/-- A register operand: kind, first number, rows and their stride, pair, and how it is used. -/
structure Opd where
  vec : Bool
  num : Nat
  rows : Nat
  stride : Nat
  pair : Bool
  rd : Bool
  wr : Bool
  deriving DecidableEq, Repr

def Opd.vr (k : BitVec 8) (wide : Bool) : Opd :=
  { vec := true, num := k.toNat, rows := 1, stride := 1, pair := wide, rd := true, wr := false }
def Opd.vw (k : BitVec 8) (wide : Bool) : Opd :=
  { vec := true, num := k.toNat, rows := 1, stride := 1, pair := wide, rd := false, wr := true }
def Opd.gr (k : BitVec 8) (wide : Bool) : Opd :=
  { vec := false, num := k.toNat, rows := 1, stride := 1, pair := wide, rd := true, wr := false }
def Opd.gw (k : BitVec 8) (wide : Bool) : Opd :=
  { vec := false, num := k.toNat, rows := 1, stride := 1, pair := wide, rd := false, wr := true }

/-- The architectural numbers an operand names. -/
def Opd.names (o : Opd) : List Nat :=
  (List.range o.rows).flatMap (fun r =>
    let k := o.num + r * o.stride
    if o.pair then [k, k + 1] else [k])

/-- Step 6 of R251 (02 R39). -/
def regCheck (n q : Nat) (ops : List Opd) : Option Nat :=
  if ops.any (fun o => o.pair && decide (o.num % 2 = 1)) then some cREGMISALIGN
  else if ops.any (fun o => o.vec && o.names.any (fun k => decide (n ≤ k))) then some cREGBOUND
  else if ops.any (fun o => !o.vec && o.names.any (fun k => decide (q ≤ k))) then some cGREGBOUND
  else none

/-- The storage register of a vector name under rotation base ρ (02 R40). -/
def vStorage (n rho k : Nat) : Nat :=
  if 128 ≤ n && decide (n - 64 ≤ k) then (n - 64) + (k - (n - 64) + rho) % 64 else k

/-- The storage register of a group scalar name (02 R40). -/
def gStorage (q rho k : Nat) : Nat := if q = 64 && decide (48 ≤ k) then 48 + (k - 48 + rho % 16) % 16 else k

/-! ### The issuing word's surroundings -/

/-- The acting group as a word issues on it. `rho` is the running descriptor's rotation base; `junk` says that the word
reads a value that is unpredictable at its slot (02 R64, 06 R163). -/
structure Env where
  s : State
  x : Ctx
  g : Group
  core : Nat
  k : Nat
  gi : Nat
  rho : Nat
  desc : Option Desc
  junk : Bool

def Ctx.descOf (x : Ctx) (seq : W32) : Option Desc := x.strm.blockQ.find? (fun d => d.seq == seq)

def Env.of (s : State) (x : Ctx) (g : Group) : Env :=
  let d := x.descOf g.pos.seq
  { s := s, x := x, g := g, core := s.cur.core, k := s.cur.ctx, gi := s.cur.group,
    rho := (d.map (·.rot.toNat)).getD 0, desc := d, junk := false }

def Env.vmap (e : Env) (k : Nat) : Nat := vStorage e.x.n e.rho k
def Env.gmap (e : Env) (k : Nat) : Nat := gStorage e.x.q e.rho k

def Env.mask (e : Env) : Lanes := e.g.pos.exmask

/-- The lanes of a mask, ascending. -/
def lanesOf (m : Lanes) : List Nat := (List.range 32).filter (fun i => m.getLsbD i)

def Env.act (e : Env) : List Nat := lanesOf e.mask

/-- The number of rows of a word, and its active lanes (06 R172). -/
def Env.rows (e : Env) (w : LaneWord) : Nat := if w.tl then (fld e.g.shape 5 5).toNat + 1 else 1

def Env.lanes (e : Env) (w : LaneWord) : Lanes :=
  if w.tl then e.mask &&& lowMask 32 ((fld e.g.shape 0 5).toNat + 1) else e.mask

/-- A vector operand as a tile operand of a word. -/
def Env.tile (e : Env) (w : LaneWord) (o : Opd) (stride : BitVec 3) : Opd :=
  if w.tl then { o with rows := e.rows w, stride := stride.toNat } else o

/-- The destination of a tile word has stride 1 (06 R172). -/
def Env.tileD (e : Env) (w : LaneWord) (o : Opd) : Opd := if w.tl then { o with rows := e.rows w, stride := 1 } else o

/-! ### Reading registers -/

/-- The 36 bits of a vector element by name. -/
def Env.elem (e : Env) (k lane : Nat) : Elem := (e.g.vregs.getD (e.vmap k) VReg.zero).getD lane 0

/-- The 32 architectural bits, or the 64 bits of a pair. -/
def Env.val (e : Env) (k lane : Nat) (wide : Bool) : Nat :=
  let lo := (e.elem k lane).toNat % 2 ^ 32
  if wide then lo + 2 ^ 32 * ((e.elem (k + 1) lane).toNat % 2 ^ 32) else lo

/-- A group scalar by storage register: g0 reads zero, g1-g3 are the trip's registers. -/
def Group.gread (g : Group) (r : Nat) : W32 :=
  match r with
  | 0 => 0 | 1 => g.pos.g1 | 2 => g.pos.g2 | 3 => g.pos.g3 | _ => g.gregs.getD r 0

def Env.gval (e : Env) (k : BitVec 8) : W32 := e.g.gread (e.gmap k.toNat)

/-- A 64-bit value in an even pair, low half in the even register. -/
def Env.gpair (e : Env) (k : BitVec 8) : W64 := e.g.gread (e.gmap (k.toNat + 1)) ++ e.g.gread (e.gmap k.toNat)

/-- A result still in flight for a register: its taint does not count (08 R230). -/
def Group.inFlight (g : Group) (kind : PendKind) (r : Nat) : Bool := g.pos.pend.any (fun p => p.kind == kind && p.reg == r)

def Group.gtaintOf (g : Group) (r : Nat) : Bool :=
  if r = 0 then false else if r < 4 then g.pos.g123taint.getLsbD (r - 1) else g.gtaint.getD r false

/-- The taint of the registers an operand names. -/
def Env.taintOf (e : Env) (o : Opd) : Bool :=
  o.names.any (fun k =>
    if o.vec then e.g.vtaint.getD (e.vmap k) false && !e.g.inFlight .vec (e.vmap k)
    else e.g.gtaintOf (e.gmap k) && !e.g.inFlight .gs (e.gmap k))

def Env.taints (e : Env) (os : List Opd) : Bool := os.any e.taintOf

/-- Joins poisons: the lanes of both, the cause of the first. -/
def Poison.join (a b : Poison) : Poison :=
  if a.lanes = 0 then b else { a with lanes := a.lanes ||| b.lanes }

/-- The poison of the registers an operand names; a scalar's covers every lane. -/
def Env.poisonOf (e : Env) (o : Opd) : Poison :=
  o.names.foldl (fun p k =>
    if o.vec then p.join (e.g.vpoison.getD (e.vmap k) Poison.none)
    else
      let q := e.g.gpoison.getD (e.gmap k) Poison.none
      p.join (if q.lanes = 0 then q else { q with lanes := BitVec.allOnes 32 })) Poison.none

def Env.poisons (e : Env) (os : List Opd) : Poison := os.foldl (fun p o => p.join (e.poisonOf o)) Poison.none

/-- Poisons a value with the poison of a special register that its word reads, if there is any. -/
def Poison.with (p : Poison) (q : Option (Nat × W64)) : Poison :=
  match q with
  | some (c, i) => p.join { lanes := BitVec.allOnes 32, cause := c, info := i }
  | Option.none => p

/-- Row r of an operand; a scalar serves every row. -/
def Opd.row (o : Opd) (r : Nat) : Opd := if o.vec then { o with num := o.num + r * o.stride, rows := 1 } else o

/-- A poison of an operand that every destination lane depends on (cross-lane words, scalars). -/
def Poison.spread (p : Poison) : Poison := if p.lanes = 0 then p else { p with lanes := BitVec.allOnes 32 }

/-! ### Hazards (02 R64, 06 R163) -/

/-- Storage registers an operand list reads, or writes. -/
def Env.stored (e : Env) (os : List Opd) (vec : Bool) (sel : Opd → Bool) : List Nat :=
  (os.filter (fun o => o.vec == vec && sel o)).flatMap (fun o => o.names.map (if vec then e.vmap else e.gmap))

def VarRes.hits (v : VarRes) (vs gs : List Nat) : Bool := v.regs.any (fun r => (if v.gs then gs else vs).contains r)

def Loop.hits (l : Loop) (vs : List Nat) : Bool := l.win.any (fun r => vs.contains r)

def Group.owned (g : Group) (vs : List Nat) : Bool := g.loops.any (fun l => l.hits vs)

/-- Whether operands used as `sel` says touch an uncovered result. -/
def Env.uncovered (e : Env) (os : List Opd) (sel : Opd → Bool) : Bool :=
  e.g.outs.any (fun v => v.hits (e.stored os true sel) (e.stored os false sel))

def Env.owns (e : Env) (os : List Opd) (sel : Opd → Bool) : Bool := e.g.owned (e.stored os true sel)

/-! ### Results -/

/-- What an entry does once the shared checks pass: trap, suspend the group (`hold`: with a state and group of the wait), or
issue with a new state, group and pending writes whose `left` is their latency. -/
inductive Issue where
  | trap (cause : Nat) (async : Bool) (faddr : W64) (fmask : Lanes) (finfo : W64)
  | suspend (why : Susp)
  | hold (s : State) (g : Group) (why : Susp)
  | go (s : State) (g : Group) (wr : List Pend)

/-- A word's entry: its form, register operands, whether it acts under a zero execute mask, its effect, the poison
a cross-lane word reads in place of its active lanes', the special registers it reads by their R249 number, and whether its own checks look for an owned register
(12 R341). -/
structure Entry where
  form : Form
  ops : List Opd
  always : Bool
  effect : Env → Issue
  reads : Option (Env → Poison) := Option.none
  specs : List Nat := []
  ownCheck : Bool := false

/-- A vector write of one storage register. -/
def Pend.vec (reg lat : Nat) (lanes : Lanes) (vals : List Nat) (taint : Bool) (poison : Poison) : Pend :=
  { kind := .vec, reg := reg, left := lat, lanes := lanes, vals := vals.map (BitVec.ofNat 36), word := 0, taint := taint,
    poison := { poison with lanes := poison.lanes &&& lanes } }

/-- A group scalar write. -/
def Pend.gsw (reg lat : Nat) (v : W32) (taint : Bool) (poison : Poison) : Pend :=
  { kind := .gs, reg := reg, left := lat, lanes := 1, vals := [], word := v.zeroExtend 64, taint := taint,
    poison := { poison with lanes := if poison.lanes = 0 then 0 else 1 } }

/-- A special-register write. -/
def Pend.special (reg lat : Nat) (v : W64) (poison : Poison) : Pend :=
  { kind := .spec, reg := reg, left := lat, lanes := 0, vals := [], word := v, taint := false, poison := poison }

/-- A GSTAT flag update (02 R66); none where no flag is raised. -/
def Pend.flags (lat : Nat) (f : W32) : List Pend :=
  if f = 0 then []
  else [{ kind := .flag, reg := 0, left := lat, lanes := 0, vals := [], word := f.zeroExtend 64, taint := false,
          poison := Poison.none }]

/-- The writes of a result of 32 or 64 bits per lane to the register, or pair, named `k`. -/
def Env.write (e : Env) (k lat : Nat) (wide : Bool) (lanes : Lanes) (vals : List Nat) (taint : Bool) (p : Poison) : List Pend :=
  if lanes = 0 then []
  else if wide then
    [Pend.vec (e.vmap k) lat lanes (vals.map (· % 2 ^ 32)) taint p, Pend.vec (e.vmap (k + 1)) lat lanes (vals.map (· / 2 ^ 32)) taint p]
  else [Pend.vec (e.vmap k) lat lanes vals taint p]

/-- One value for each of the 32 lanes. -/
def perLane (f : Nat → Nat) : List Nat := (List.range 32).map f

/-- The value of lane i where active. -/
def onLanes (m : Lanes) (f : Nat → Nat) : List Nat := perLane (fun i => if m.getLsbD i then f i else 0)

end Sys2Proof.Machine
end

