-- ==== Sys2Proof/Machine/Scalar.lean ====
section
/-! DEFINITION. Control-stream arithmetic, constants, branches and mask operations (12 R342-R348, 13 R371, R372, R380,
R381, 03 R78-R81). -/

namespace Sys2Proof.Machine

/-- A register-to-register operation: the result's taint is the OR of the taints of the registers read (R230). -/
def aluRR (s : State) (d a b : BitVec 5) (f : W64 → W64 → W64) : Out :=
  reading s [a, b] (fun x => s.setMe (x.wr d (f (x.rd a) (x.rd b)) (x.taint a || x.taint b)).step1)

/-- An operation of one register and a constant: the result takes the register's taint. -/
def aluRI (s : State) (d a : BitVec 5) (f : W64 → W64) : Out :=
  reading s [a] (fun x => s.setMe (x.wr d (f (x.rd a)) (x.taint a)).step1)

/-- A result that reads no register and carries no taint. -/
def aluK (s : State) (d : BitVec 5) (f : Ctx → W64) : Out :=
  onCtx s (fun x => s.setMe (x.wr d (f x) false).step1)

def ltBy (u : Bool) (a b : W64) : Bool := if u then BitVec.ult a b else BitVec.slt a b

/-- Bits 127 to 64 of the exact product. -/
def mulHigh (u : Bool) (a b : W64) : W64 :=
  if u then BitVec.ofNat 64 (a.toNat * b.toNat / 2 ^ 64) else BitVec.ofInt 64 ((a.toInt * b.toInt) / 2 ^ 64)

/-- The quotient rounded toward zero, with the corners of R343. -/
def divBy (u : Bool) (a b : W64) : W64 :=
  if b = 0 then BitVec.allOnes 64
  else if u then BitVec.ofNat 64 (a.toNat / b.toNat) else BitVec.ofInt 64 (Int.tdiv a.toInt b.toInt)

def remBy (u : Bool) (a b : W64) : W64 :=
  if b = 0 then a
  else if u then BitVec.ofNat 64 (a.toNat % b.toNat) else BitVec.ofInt 64 (Int.tmod a.toInt b.toInt)

def sh6 (b : W64) : Nat := (fld b 0 6).toNat

def execAdd (d a b : BitVec 5) (s : State) : Out := aluRR s d a b (fun x y => x + y)
def execSub (d a b : BitVec 5) (s : State) : Out := aluRR s d a b (fun x y => x - y)
def execMul (d a b : BitVec 5) (s : State) : Out := aluRR s d a b (fun x y => x * y)
def execMulh (d a b : BitVec 5) (u : Bool) (s : State) : Out := aluRR s d a b (mulHigh u)
def execDiv (d a b : BitVec 5) (u : Bool) (s : State) : Out := aluRR s d a b (divBy u)
def execRem (d a b : BitVec 5) (u : Bool) (s : State) : Out := aluRR s d a b (remBy u)
def execAnd (d a b : BitVec 5) (s : State) : Out := aluRR s d a b (fun x y => x &&& y)
def execOr (d a b : BitVec 5) (s : State) : Out := aluRR s d a b (fun x y => x ||| y)
def execXor (d a b : BitVec 5) (s : State) : Out := aluRR s d a b (fun x y => x ^^^ y)
def execShl (d a b : BitVec 5) (s : State) : Out := aluRR s d a b (fun x y => x <<< sh6 y)
def execShlImm (d a : BitVec 5) (k : BitVec 6) (s : State) : Out := aluRI s d a (fun x => x <<< k.toNat)
def execShr (d a b : BitVec 5) (s : State) : Out := aluRR s d a b (fun x y => x >>> sh6 y)
def execShrImm (d a : BitVec 5) (k : BitVec 6) (s : State) : Out := aluRI s d a (fun x => x >>> k.toNat)
def execSra (d a b : BitVec 5) (s : State) : Out := aluRR s d a b (fun x y => x.sshiftRight (sh6 y))
def execSraImm (d a : BitVec 5) (k : BitVec 6) (s : State) : Out := aluRI s d a (fun x => x.sshiftRight k.toNat)
def execSlt (d a b : BitVec 5) (u : Bool) (s : State) : Out := aluRR s d a b (fun x y => if ltBy u x y then 1 else 0)
def execMin (d a b : BitVec 5) (u : Bool) (s : State) : Out := aluRR s d a b (fun x y => if ltBy u y x then y else x)
def execMax (d a b : BitVec 5) (u : Bool) (s : State) : Out := aluRR s d a b (fun x y => if ltBy u x y then y else x)

/-- NOP changes no state but the pc (14 NOP). -/
def execNop (s : State) : Out := onCtx s (fun x => s.setMe x.step1)

def execAddi (d a : BitVec 5) (i : BitVec 16) (s : State) : Out := aluRI s d a (fun x => x + i.signExtend 64)
def execAndi (d a : BitVec 5) (i : BitVec 16) (s : State) : Out := aluRI s d a (fun x => x &&& i.zeroExtend 64)
def execOri (d a : BitVec 5) (i : BitVec 16) (s : State) : Out := aluRI s d a (fun x => x ||| i.zeroExtend 64)
def execXori (d a : BitVec 5) (i : BitVec 16) (s : State) : Out := aluRI s d a (fun x => x ^^^ i.zeroExtend 64)
def execSltImm (d a : BitVec 5) (i : BitVec 16) (s : State) : Out :=
  aluRI s d a (fun x => if BitVec.slt x (i.signExtend 64) then 1 else 0)
def execLui (d : BitVec 5) (i : BitVec 16) (s : State) : Out := aluK s d (fun _ => i.signExtend 64 * 65536)
def execAuipc (d : BitVec 5) (i : BitVec 16) (s : State) : Out := aluK s d (fun x => x.pc + i.signExtend 64 * 65536)

/-! ### Jumps and branches -/

def execJal (d : BitVec 5) (o : BitVec 21) (s : State) : Out :=
  onCtx s (fun x => s.setMe ((x.wr d (x.pc + 1) false).jump (x.pc + o.signExtend 64)))

def execJalr (d a : BitVec 5) (i : BitVec 16) (s : State) : Out :=
  reading s [a] (fun x => s.setMe ((x.wr d (x.pc + 1) false).jump (x.rd a + i.signExtend 64)))

/-- A branch of R348: taken to the word offset, else to the next word. -/
def branch (s : State) (a b : BitVec 5) (o : BitVec 16) (cond : W64 → W64 → Bool) : Out :=
  reading s [a, b] (fun x => s.setMe (if cond (x.rd a) (x.rd b) then x.jump (x.pc + o.signExtend 64) else x.step1))

def execBeq (a b : BitVec 5) (o : BitVec 16) (s : State) : Out := branch s a b o (fun x y => x == y)
def execBne (a b : BitVec 5) (o : BitVec 16) (s : State) : Out := branch s a b o (fun x y => x != y)
def execBlt (a b : BitVec 5) (o : BitVec 16) (s : State) : Out := branch s a b o (fun x y => BitVec.slt x y)
def execBge (a b : BitVec 5) (o : BitVec 16) (s : State) : Out := branch s a b o (fun x y => !BitVec.slt x y)
def execBltN (a b : BitVec 5) (o : BitVec 16) (s : State) : Out := branch s a b o (fun x y => BitVec.ult x y)
def execBgeN (a b : BitVec 5) (o : BitVec 16) (s : State) : Out := branch s a b o (fun x y => !BitVec.ult x y)

/-- CLOOP (03 R80): the counter falls, the rotation base falls, and the loop closes while the counter is not zero. -/
def execCloop (a : BitVec 5) (o : BitVec 16) (s : State) : Out :=
  reading s [a] (fun x =>
    let v := x.rd a - 1
    let y := { x.wr a v (x.taint a) with strm := { x.strm with rotb := x.strm.rotb - 1 } }
    s.setMe (if v != 0 then y.jump (x.pc + o.signExtend 64) else y.step1))

/-- BMASK (03 R78). -/
def execBmask (a : BitVec 4) (o : BitVec 16) (s : State) : Out :=
  readingM s [] [a] (fun x =>
    let m := x.strm.active &&& x.mask a
    let y := { x with strm := { x.strm with active := m } }
    s.setMe (if m != 0 then y.jump (x.pc + o.signExtend 64) else y.step1))

/-- ROTB (03 R81): the old base is read, the new one set. -/
def execRotb (d a : BitVec 5) (i : BitVec 16) (s : State) : Out :=
  reading s [a] (fun x =>
    let v := x.rd a + i.signExtend 64
    let y := { x.wr d (x.strm.rotb.zeroExtend 64) false with strm := { x.strm with rotb := fld v 0 6 } }
    s.setMe y.step1)

/-! ### Masks (13 R381) -/

def maskOp (s : State) (d : BitVec 4) (ms : List (BitVec 4)) (f : Ctx → Mask) : Out :=
  readingM s [] ms (fun x => s.setMe (x.wrMask d (f x)).step1)

/-- A result in s[d] from an m register, with no taint. -/
def maskToS (s : State) (d : BitVec 5) (a : BitVec 4) (f : Mask → W64) : Out :=
  readingM s [] [a] (fun x => s.setMe (x.wr d (f (x.mask a)) false).step1)

def execMand (d a b : BitVec 4) (s : State) : Out := maskOp s d [a, b] (fun x => x.mask a &&& x.mask b)
def execMor (d a b : BitVec 4) (s : State) : Out := maskOp s d [a, b] (fun x => x.mask a ||| x.mask b)
def execMxor (d a b : BitVec 4) (s : State) : Out := maskOp s d [a, b] (fun x => x.mask a ^^^ x.mask b)
def execMandn (d a b : BitVec 4) (s : State) : Out := maskOp s d [a, b] (fun x => x.mask a &&& ~~~(x.mask b))
def execMnot (d a : BitVec 4) (s : State) : Out := maskOp s d [a] (fun x => ~~~(x.mask a))
def execMmov (d a : BitVec 4) (s : State) : Out := maskOp s d [a] (fun x => x.mask a)

/-- Index of the lowest set bit, or the width if none is set. -/
def lowestSet {n : Nat} (w : BitVec n) : Nat := ((List.range n).find? (fun i => w.getLsbD i)).getD n

def execMcnt (a : BitVec 4) (d : BitVec 5) (s : State) : Out := maskToS s d a (fun m => BitVec.ofNat 64 (popcount m))
def execMfirst (a : BitVec 4) (d : BitVec 5) (s : State) : Out :=
  maskToS s d a (fun m => BitVec.ofNat 64 (lowestSet m))
def execMwordR (a : BitVec 4) (d : BitVec 5) (w : BitVec 5) (s : State) : Out :=
  maskToS s d a (fun m => (maskWord m w.toNat).zeroExtend 64)

/-- Replaces word i of a mask. -/
def putWord (m : Mask) (i : Nat) (v : W32) : Mask :=
  (m &&& ~~~((0xFFFFFFFF : Mask) <<< (32 * i))) ||| ((v.zeroExtend 1024 : Mask) <<< (32 * i))

/-- The other words of m[d] keep what they hold, poison too. -/
def execMwordW (d : BitVec 4) (a : BitVec 5) (w : BitVec 5) (s : State) : Out :=
  reading s [a] (fun x =>
    let m := putWord (x.mask d) w.toNat (fld (x.rd a) 0 32)
    s.setMe { x with strm := { x.strm with masks := x.strm.masks.set d.toNat m } }.step1)

end Sys2Proof.Machine
end

