-- ==== Sys2Proof/Machine/CtrlMem.lean ====
section
/-! DEFINITION. Control-stream memory accesses: LD, LDK, ST and the AMO group (13 R378, R379, 14 R392, 12 R345, R346). -/

namespace Sys2Proof.Machine

/-- Bytes of an SZ code (09 R236). -/
def szBytes (sz : BitVec 3) : Nat :=
  match sz.toNat with
  | 0 => 1 | 1 => 1 | 2 => 2 | 3 => 2 | 4 => 4 | 5 => 4 | _ => 8

/-- An n-byte number extended to 64 bits. -/
def extendTo64 (v n : Nat) (signed : Bool) : W64 :=
  if signed then BitVec.ofInt 64 (if v < 2 ^ (8 * n - 1) then (v : Int) else (v : Int) - 2 ^ (8 * n)) else BitVec.ofNat 64 v

/-- Whether an SZ code loads with sign extension. -/
def szSigned (sz : BitVec 3) : Bool := sz == 1 || sz == 3 || sz == 5

/-- Runs a checked control access: its fault, a stall while its page is not held by the core's TLBs (10 R265, R305), or
the effect at its physical address. -/
def ctrlAccess (s : State) (x : Ctx) (k : Kind) (va : W64) (n : Nat) (atomic : Bool) (f : Nat → State) : State :=
  match checkAccess s x.part (x.asid s) k pathC va n atomic with
  | .error e => faultHere s x va e
  | .ok pa =>
    match tlbMisses s s.cur.core (x.asid s) [va] with
    | [] => f pa
    | pages => s.setMe { x with tlbWait := pages }

/-- Reads poisoned data: the cause is raised precisely, with the poisoned storage's address (10 R300, R313).
Left to the model: DEDUCED, log entry 13. -/
def poisonHere (s : State) (x : Ctx) (va : W64) (p : Nat × Nat) : State := ctrlTrap s p.1 true x.pc va 1 (finfoPoison p.2)

/-- The acting control slice as an agent of the C path. -/
def State.ctrlAgent (s : State) : Agent := ctxAgent s.cur.core s.cur.ctx .c

/-- The number that a control load brings: its bytes as the agent reads them, extended. -/
def loadValue (s : State) (o : Agent) (pa n : Nat) (signed : Bool) : W64 := extendTo64 (natOf (loadBytes s o pa n)) n signed

/-- A load; `consume` sets the taint (08 R230). -/
def loadCtrl (d a : BitVec 5) (sz : BitVec 3) (o : BitVec 13) (consume : Bool) (s : State) : Out :=
  reading s [a] (fun x =>
    let va := x.rd a + o.signExtend 64
    let n := szBytes sz
    ctrlAccess s x .rd va n false (fun pa =>
      let me := s.ctrlAgent
      let s := beforeHost (seeFed s me (x.taint a)) me pa
      match loadPoison s me pa n with
      | some p => poisonHere s x va p
      | none =>
        let y := (x.wr d (loadValue s me pa n (szSigned sz)) (consume || x.taint a)).step1
        (loaded s me none (span pa n) consume).setMe { y with recent := some { reg := d, pa := pa, len := n, signed := szSigned sz } }))

def execLd (d a : BitVec 5) (sz : BitVec 3) (o : BitVec 13) (s : State) : Out := loadCtrl d a sz o false s

def execLdk (d a : BitVec 5) (sz : BitVec 3) (o : BitVec 13) (s : State) : Out := loadCtrl d a sz o true s

/-- The last load of a context, with no word but ECOMMITs after it, is performed now instead: it may return bytes that those
transfers wrote (08 R214, R218). -/
def reloadCtrl (s : State) (c k : Nat) : State :=
  let x := s.ctx c k
  let me := ctxAgent c k .c
  match x.recent with
  | none => s
  | some r =>
    if !x.resident || x.trig.isSome || inHost s r.pa || (loadPoison s me r.pa r.len).isSome then s
    else (noteRead s me s.freeCtr none (span r.pa r.len)).setCtx c k (x.wr r.reg (loadValue s me r.pa r.len r.signed) (x.taint r.reg))

/-- ST: the low bytes of s[D]; a store of poisoned data writes poisoned data (14 R392). -/
def execSt (d a : BitVec 5) (sz : BitVec 3) (o : BitVec 13) (s : State) : Out :=
  reading s [a] (fun x =>
    let va := x.rd a + o.signExtend 64
    let n := szBytes sz
    ctrlAccess s x .wr va n false (fun pa =>
      (queueStore (seeFed s s.ctrlAgent (x.taint a)) s.ctrlAgent none (cellsAt pa (bytesOf n (x.rd d).toNat)) (x.poison d)).setMe x.step1))

/-! ### Atomics -/

inductive AmoOp where
  | add | and | or | xor | swap | cas | min | max
  deriving DecidableEq, Repr

/-- Operations the host window takes as PCIe AtomicOps (12 R346). -/
def AmoOp.hostOk : AmoOp → Bool
  | .add | .swap | .cas => true
  | _ => false

/-- Signed or unsigned comparison of n-byte numbers. -/
def ltBytes (n : Nat) (u : Bool) (a b : Nat) : Bool := ltBy u (extendTo64 a n (!u)) (extendTo64 b n (!u))

/-- The new value of an atomic on n bytes; none where a .cas does not write. `cmp` is the compared value. -/
def amoNew (op : AmoOp) (n : Nat) (u : Bool) (old y cmp : Nat) : Option Nat :=
  match op with
  | .add => some ((old + y) % 2 ^ (8 * n))
  | .and => some (old &&& y)
  | .or => some (old ||| y)
  | .xor => some (old ^^^ y)
  | .swap => some y
  | .cas => if old = cmp then some y else none
  | .min => some (if ltBytes n u y old then y else old)
  | .max => some (if ltBytes n u old y then y else old)

/-- FINFO and cause of an atomic the host window does not take: DRAM_AT_PERM (12 R346). -/
def hostAtomicFault (s : State) (asid path : Nat) (va : W64) : AFault :=
  { cause := accessCause 0 .at rPERM, finfo := finfoAccess path (translate s asid va.toNat) }

/-- The AMO group (12 R345). -/
def amoCtrl (op : AmoOp) (d a b : BitVec 5) (w u : Bool) (s : State) : Out :=
  reading s (if op == .cas then [a, b, d] else [a, b]) (fun x =>
    let va := x.rd a
    let n := if w then 8 else 4
    ctrlAccess s x .at va n true (fun pa =>
      if inHost s pa && !op.hostOk then faultHere s x va (hostAtomicFault s (x.asid s) pathC va)
      else
        let me := s.ctrlAgent
        let s := seeFed (beforeAtomic s me pa) me (x.taint a)
        match poisonOf s none pa n with
        | some p => poisonHere s x va p
        | none =>
          let old := natOf (updateBytes s pa n)
          let s := readLatest s me none (span pa n)
          let low (r : BitVec 5) : Nat := (x.rd r).toNat % 2 ^ (8 * n)
          let y := (x.wr d (extendTo64 old n (!u)) (x.taint a)).step1
          match amoNew op n u old (low b) (low d) with
          | some v => (performWrite s me s.freeCtr true [] none (cellsAt pa (bytesOf n v)) none).setMe y
          | none => s.setMe y))

def execAmoAdd (d a b : BitVec 5) (w : Bool) (s : State) : Out := amoCtrl .add d a b w false s
def execAmoAnd (d a b : BitVec 5) (w : Bool) (s : State) : Out := amoCtrl .and d a b w false s
def execAmoOr (d a b : BitVec 5) (w : Bool) (s : State) : Out := amoCtrl .or d a b w false s
def execAmoXor (d a b : BitVec 5) (w : Bool) (s : State) : Out := amoCtrl .xor d a b w false s
def execAmoSwap (d a b : BitVec 5) (w : Bool) (s : State) : Out := amoCtrl .swap d a b w false s
def execAmoCas (d a b : BitVec 5) (w : Bool) (s : State) : Out := amoCtrl .cas d a b w false s
def execAmoMin (d a b : BitVec 5) (w u : Bool) (s : State) : Out := amoCtrl .min d a b w u s
def execAmoMax (d a b : BitVec 5) (w u : Bool) (s : State) : Out := amoCtrl .max d a b w u s

end Sys2Proof.Machine
end

