-- ==== Sys2Proof/Machine/Record.lean ====
section
/-! DEFINITION. The freeze record as the routine reads it (10 R280, R281). A field whose content the manual does not
state for the case at hand reads a free value `fv`. -/

namespace Sys2Proof.Machine

/-- A 64-bit word from (value, lowest bit) parts. -/
def word64 (parts : List (Nat × Nat)) : W64 := BitVec.ofNat 64 (parts.foldl (fun a p => a + p.1 * 2 ^ p.2) 0)

/-- The 128 bits of a descriptor (02 R44). -/
def Desc.bits (d : Desc) : BitVec 128 :=
  let b (v : Bool) (i : Nat) : Nat := v.toNat * 2 ^ i
  BitVec.ofNat 128 (d.arg1.toNat * 2 ^ 96 + d.arg0.toNat * 2 ^ 64 + d.block.toNat * 2 ^ 40 + d.trip.toNat * 2 ^ 24 +
    d.rot.toNat * 2 ^ 18 + d.mreg.toNat * 2 ^ 14 + b d.push 13 + b d.pop 12 + b d.peek 11 + b d.ret 10 + b d.bar 9)

/-- 64-bit word i of a wide value. -/
def wordOf {n : Nat} (w : BitVec n) (i : Nat) : W64 := fld w (64 * i) 64

def PosState.code : PosState → Nat
  | .start => 0 | .between => 1 | .mid => 2 | .done => 3

def PendKind.code : PendKind → Nat
  | .vec => 0 | .gs => 1 | .spec => 2 | .flag => 3

/-- A list of equal-width elements packed from bit 0 up. -/
def packElems {n : Nat} (width : Nat) (l : List (BitVec n)) : Nat := l.foldr (fun e acc => e.toNat + 2 ^ width * acc) 0

/-- A pending entry as record words: its header, then its value (R281). -/
def Pend.words (p : Pend) : List W64 :=
  let header := word64 [(if p.kind == .flag || p.kind == .spec then 0 else p.reg, 0), (p.kind.code, 8), (p.left, 10),
    (p.taint.toNat, 15), (if p.kind == .spec then p.reg else 0, 16), (p.lanes.toNat, 32)]
  match p.kind with
  | .vec => header :: (List.range 18).map (fun i => BitVec.ofNat 64 (packElems 36 p.vals / 2 ^ (64 * i)))
  | _ => [header, p.word]

/-- A withdrawn QPUSH as record words: elements at their lanes (R281). -/
def Push.words (p : Push) : List W64 :=
  let lanes := (List.range 32).filter (fun i => p.lanes.getLsbD i)
  let at_ (i : Nat) : Nat := ((lanes.zip p.elems).filter (fun e => e.1 == i)).foldl (fun a e => a + e.2.toNat) 0
  word64 [(p.lanes.toNat, 0), (p.sel.toNat % 256, 32)] ::
    (List.range 16).map (fun i => word64 [(at_ (2 * i), 0), (at_ (2 * i + 1), 32)])

/-- Word `o` of group g's block (R281). Entry 0 of the FMT stack is its top. Left to the model: DESIGN CHOICE, log entry 53. -/
def groupWord (f : Frozen) (g o : Nat) (fv : W64) : W64 :=
  let p := f.pcs.getD g GroupPos.fresh
  let r := f.groups.getD g (Group.fresh 32 16 0)
  let susp : Bool := match p.status with | .suspended _ => true | _ => false
  let pops := p.heldOuts.filter (fun v => v.popQueue.isSome && !v.written)
  let tr := f.truss.getD g (false, false)
  let lp := r.loops.getLast?
  if o = 0 then word64 [(p.seq.toNat, 0), (p.trip % 65536, 32)]
  else if o = 1 then
    word64 [(p.run % 65536, 0), (p.slot % 32, 16), (p.word % 2 ^ 24, 32), (p.st.code, 56), (susp.toNat, 58),
      (p.parkMmodeV.toNat, 59)]
  else if o = 2 then word64 [(p.exmask.toNat, 0), (p.activity.toNat, 32)]
  else if o = 3 then word64 [(p.g1.toNat, 0), (p.g2.toNat, 32)]
  else if o = 4 then word64 [(p.g3.toNat, 0), (p.g123taint.toNat, 32)]
  else if o ≤ 12 then
    word64 [((p.fmtStack.getD (2 * (o - 5)) 0).toNat, 0), ((p.fmtStack.getD (2 * (o - 5) + 1) 0).toNat, 32)]
  else if o = 13 then
    word64 [(p.pend.length, 0), ((!pops.isEmpty).toNat, 9),
      ((pops.head?.bind (fun v => v.regs.head?)).getD 0, 10), ((pops.head?.bind (·.popQueue)).getD 0, 18),
      (p.pushes.length, 22)]
  else if o < 16 then 0
  else if o ≤ 20 then BitVec.ofNat 64 (packElems 10 r.origin / 2 ^ (64 * (o - 16)))
  else if o ≤ 24 then word64 ((List.range 64).map (fun i => ((r.vtaint.getD (64 * (o - 21) + i) false).toNat, i)))
  else if o = 25 then word64 ((List.range 64).map (fun i => ((decide (4 ≤ i) && r.gtaint.getD i false).toNat, i)))
  else if o < 48 then 0
  else if o = 48 then (match lp with | some l => word64 [(l.a, 0), (l.b, 32)] | none => fv)
  else if o = 49 then
    (match lp with
     | some l => word64 [((BitVec.ofInt 32 l.ia).toNat, 0), ((BitVec.ofInt 32 l.ib).toNat, 32)]
     | none => fv)
  else if o = 50 then
    let flags := [(tr.1.toNat, 41), (tr.2.toNat, 43)]
    (match lp with
     | some l => word64 ([(l.k % 65536, 0), (l.next % 65536, 16), (l.win.headD 0, 32), ((!l.complete).toNat, 40),
         (l.unf.isSome.toNat, 42)] ++ flags)
     | none => (fv &&& 0x4FFFFFFFFFF &&& ~~~(0x10000000000 : W64)) ||| word64 flags)
  else if o = 51 then (match lp with | some l => l.fmt.zeroExtend 64 | none => fv)
  else if o ≤ 56 then fv
  else if o = 57 then putBit fv 63 r.unf.isSome
  else if o < 64 then 0
  else if o ≤ 7167 then (p.pend.flatMap Pend.words).getD (o - 64) 0
  else if o ≤ 7679 then
    BitVec.ofNat 64 (packElems 4 ((r.vregs.getD ((o - 7168) / 2) VReg.zero).map (fun e => fld e 32 4)) /
      2 ^ (64 * ((o - 7168) % 2)))
  else if o ≤ 8087 then (p.pushes.flatMap Push.words).getD (o - 7680) 0
  else 0

/-- Word `i` of a freeze record (R280); an index not listed reads zero. Left to the model: DESIGN CHOICE, log entry 43. -/
def recordWord (f : Frozen) (i : Nat) (fv : W64) : W64 :=
  let st := f.stream
  if i = 0 then f.trig.causeWord
  else if i = 1 then f.trig.epc
  else if i = 2 then f.trig.faddr
  else if i = 3 then f.trig.fmask.zeroExtend 64
  else if i = 4 then f.trig.finfo
  else if i = 5 then
    word64 [(match st.blockQ.head? with | some d => d.seq.toNat | none => fv.toNat % 2 ^ 32, 0), (st.seq.toNat, 32)]
  else if i = 6 then
    word64 [(st.rotb.toNat, 0), (st.fmtDepth, 8), (st.returnQ.length, 16), (f.trigger.toNat, 24), (f.pcs.length, 32),
      (st.blockQ.length, 40), (st.returnQ.length, 50), (st.recon.length, 56)]
  else if i = 7 then f.staint.zeroExtend 64
  else if i < 0x10 then 0
  else if i ≤ 0x1F then wordOf st.active (i - 0x10)
  else if i ≤ 0x11F then wordOf (st.masks.getD ((i - 0x20) / 16) 0) ((i - 0x20) % 16)
  else if i ≤ 0x32F then
    let j := (i - 0x120) % 33
    match st.recon.reverse[(i - 0x120) / 33]? with
    | none => 0
    | some t => if j < 16 then wordOf t.saved j else if j < 32 then wordOf t.els (j - 16) else word64 [(t.phase.toNat, 0)]
  else if i ≤ 0x162F then
    let j := (i - 0x330) % 19
    match st.blockQ[(i - 0x330) / 19]? with
    | none => 0
    | some d => if j < 2 then wordOf d.bits j else if j = 2 then d.seq.zeroExtend 64 else wordOf d.activity (j - 3)
  else if i ≤ 0x173F then
    let j := (i - 0x1630) % 17
    match st.returnQ[(i - 0x1630) / 17]? with
    | none => 0
    | some e =>
      let w (g : Nat) : Nat :=
        match e.words[g]? with
        | some (some v) => v.toNat
        | some none => fv.toNat % 2 ^ 32
        | none => 0
      if j < 16 then word64 [(w (2 * j), 0), (w (2 * j + 1), 32)]
      else word64 [((indexed e.words).foldl (fun a p => a + p.2.isSome.toNat * 2 ^ p.1) 0, 0), (e.seq.toNat, 32)]
  else if i < 0x1800 then 0
  else if i ≤ 0x18FF then
    if f.trig.preempt then (f.shadows.getD ((i - 0x1800) / 32) []).getD ((i - 0x1800) % 32) 0 else fv
  else if i ≤ 0x191F then
    if f.trig.preempt then (f.chanStat.getD ((i - 0x1900) / 4) []).getD ((i - 0x1900) % 4) 0 else fv
  else if i < 0x2000 then 0
  else if i < 0x2000 + 0x2000 * f.pcs.length then groupWord f ((i - 0x2000) / 0x2000) ((i - 0x2000) % 0x2000) fv
  else if i < 0x42000 then fv
  else 0

end Sys2Proof.Machine
end

