-- ==== Sys2Proof/Machine/Sync.lean ====
section
/-! DEFINITION. The control words that emit, wait and synchronise: EMIT and RPOP (02 R47, R54), divergence (03 R73), REGROUP
(03 R83, R84), the engine words (07 R187-R190), fences (08 R223-R229), KTRIG, KWAIT, JWAIT, the context registers and
the ends of routines and teams (10 R272, R282, R284, 12 R351). A word that must wait leaves the context waiting in it. -/

namespace Sys2Proof.Machine

/-- The context waits in an instruction. Left to the model: DEDUCED, log entry 7. -/
def waitIn (s : State) (x : Ctx) (i : Instr) : State := s.setMe { x with wait := some i }

/-! ### Descriptors -/

/-- Appends a descriptor with the next sequence number (02 R45). -/
def Stream.push (st : Stream) (d : Desc) : Stream :=
  { st with blockQ := st.blockQ ++ [{ d with seq := st.seq }], seq := st.seq + 1 }

def queueFull (x : Ctx) : Bool := decide (256 ≤ x.strm.blockQ.length)

/-- A marker descriptor (02 R44, 03 R73): trip count 0 under the given activity, emitted at a time. -/
def marker (now : Nat) (x : Ctx) (k : BitVec 4) (activity : Mask) : Desc :=
  { arg1 := 0, arg0 := 0, block := 0, trip := 0, rot := x.strm.rotb, mreg := k, push := false, pop := false, peek := false,
    ret := false, bar := false, seq := 0, activity := activity, argTaint := false, regroup := none, seen := 0, time := now }

/-- The FMT depth after an EMIT's flags; none where FMTDEPTH traps (02 R47). -/
def emitDepth (depth : Nat) (push pop peek : Bool) : Option Nat :=
  if pop && depth == 0 then none
  else
    let d1 := if pop then depth - 1 else depth
    if push && d1 == 16 then none
    else
      let d2 := if push then d1 + 1 else d1
      if peek && d2 == 0 then none else some d2

/-- EMIT's release at core scope (08 R220, 02 R48). -/
def releaseBlock (s : State) (c k : Nat) : State :=
  release s (.block c k s.freeCtr) [ctxAgent c k .c, ctxAgent c k .l] [.one (ctxAgent c k .c)] (.cores [c])

/-- EMIT (02 R47). -/
def execEmit (a b t : BitVec 5) (m : BitVec 4) (push pop peek ret bar : Bool) (s : State) : Out :=
  readingM s [a, b, t] [m] (fun x =>
    if queueFull x then waitIn s x (.emit a b t m push pop peek ret bar)
    else if (x.rd a).toNat ≥ 2 ^ 24 || (x.rd t).toNat ≥ 2 ^ 16 then trapHere s x cEMITFIELD
    else if ret && decide (16 ≤ x.strm.returnQ.length) then trapHere s x cRETFULL
    else match emitDepth x.strm.fmtDepth push pop peek with
      | none => trapHere s x cFMTDEPTH
      | some depth =>
        let d : Desc := { marker s.freeCtr x m (x.mask m &&& x.strm.active) with
          arg1 := fld (x.rd b) 32 32, arg0 := fld (x.rd b) 0 32, block := fld (x.rd a) 0 24, trip := fld (x.rd t) 0 16,
          push := push, pop := pop, peek := peek, ret := ret, bar := bar, argTaint := x.taint b }
        let entry : RetEntry := { seq := x.strm.seq, time := s.freeCtr, words := List.replicate x.groups.length none,
                                  poison := List.replicate x.groups.length none }
        let st := { x.strm.push d with
          fmtDepth := depth, returnQ := if ret then x.strm.returnQ ++ [entry] else x.strm.returnQ }
        (releaseBlock s s.cur.core s.cur.ctx).setMe { x with strm := st }.step1)

/-- The mask an entry's words make: word g from group g, zero for groups the team does not have (02 R54). -/
def RetEntry.mask (e : RetEntry) : Mask :=
  BitVec.ofNat 1024 (packElems 32 (e.words.map (fun w => w.getD 0)))

/-- Whether a group's return word of the descriptor emitted at a time released an access of it: one that issued no later. -/
def returns (s : State) (c k time g order : Nat) : Bool :=
  s.releases.any (fun r => r.link == .ret c k time && r.agents.contains (grpAgent c k g .l) && decide (order ≤ r.time))

/-- The remote accesses that a team's groups released with the words of a descriptor are performed (08 R222, 18 R430). -/
def returnsDone (s : State) (c k : Nat) (x : Ctx) (time : Nat) : Bool :=
  (indexed x.groups).all (fun g =>
    g.2.outs.all (fun v => v.remote.all (fun a => !returns s c k time g.1 a.order)) &&
    g.2.rstores.all (fun st => st.performed || !returns s c k time g.1 st.order))

/-- RPOP's acquire of what the groups released with the words of a descriptor (08 R220): their stores have left the queues. -/
def acquireReturn (s : State) (c k time : Nat) : State :=
  let s := flushWhere s (fun q => !q.host && q.agent.grp.any (fun g => q.agent == grpAgent c k g .l && returns s c k time g q.order))
  let s := acquire s c (fun r => r.link == .ret c k time) [.one (ctxAgent c k .c), .one (ctxAgent c k .gotL)]
  acquireReads s (fun r => r.link == .ret c k time) [.one (ctxAgent c k .gotL)]

/-- RPOP (02 R54): it waits for every word and for the work of the groups' releases (18 R430), and acquires; a poisoned word raises
its cause (10 R300). -/
def execRpop (d : BitVec 4) (s : State) : Out :=
  onCtx s (fun x =>
    match x.strm.returnQ with
    | [] => trapHere s x cRPOPNONE
    | e :: rest =>
      if e.words.all (·.isSome) && returnsDone s s.cur.core s.cur.ctx x e.time then
        match e.poison.findSome? id with
        | some p => ctrlTrap s p.1 true x.pc 0 0 p.2
        | none =>
          let s := s.setMe (({ x with strm := { x.strm with returnQ := rest } } : Ctx).wrMask d e.mask).step1
          acquireReturn s s.cur.core s.cur.ctx e.time
      else waitIn s x (.rpop d))

/-- DIVG (03 R73). -/
def execDivg (a : BitVec 4) (s : State) : Out :=
  readingM s [] [a] (fun x =>
    let st := x.strm
    if queueFull x then waitIn s x (.divg a)
    else if 16 ≤ st.recon.length then trapHere s x cRECONFULL
    else if st.fmtDepth = 16 then trapHere s x cFMTDEPTH
    else
      let m := x.mask a
      let active := st.active &&& m
      let st := { st with recon := { saved := st.active, els := st.active &&& ~~~m, phase := false, poison := false } :: st.recon, active := active }
      s.setMe { x with strm := { st.push { marker s.freeCtr x a active with push := true } with fmtDepth := st.fmtDepth + 1 } }.step1)

/-- ELSE (03 R73). -/
def execElseM (s : State) : Out :=
  onCtx s (fun x =>
    let st := x.strm
    if queueFull x then waitIn s x .elseM
    else match st.recon with
      | [] => trapHere s x cRECONEMPTY
      | top :: rest =>
        if top.poison then ctrlTrap s cSECTRL true x.pc 0 0 0
        else if top.phase then trapHere s x cELSETWICE
        else
          let st := { st with recon := { top with phase := true } :: rest, active := top.els }
          s.setMe { x with strm := st.push { marker s.freeCtr x 0 top.els with peek := true } }.step1)

/-- RECON (03 R73). -/
def execRecon (s : State) : Out :=
  onCtx s (fun x =>
    let st := x.strm
    if queueFull x then waitIn s x .recon
    else match st.recon with
      | [] => trapHere s x cRECONEMPTY
      | top :: rest =>
        if top.poison then ctrlTrap s cSECTRL true x.pc 0 0 0
        else if st.fmtDepth = 0 then trapHere s x cFMTDEPTH
        else
          let st := { st with recon := rest, active := top.saved }
          s.setMe { x with strm := { st.push { marker s.freeCtr x 0 top.saved with pop := true } with fmtDepth := st.fmtDepth - 1 } }.step1)

/-- REGROUP (03 R83, R84, 14 R386): its checks, then its marker. The context cannot fetch while the marker stands in its
block queue; the regroup itself takes effect when every group has reached the marker. -/
def execRegroup (k : BitVec 4) (n : BitVec 8) (s : State) : Out :=
  readingM s [] [k] (fun x =>
    if x.priv then trapHere s x cPRIVOP
    else if n.toNat + 1 > x.n then trapHere s x cREGROUPN
    else if !x.strm.recon.isEmpty then trapHere s x cREGROUPNEST
    else if queueFull x then waitIn s x (.regroup k n)
    else
      let d := { marker s.freeCtr x k x.strm.active with bar := true, regroup := some (k.toNat, n.toNat + 1) }
      s.setMe { x with strm := x.strm.push d }.step1)

/-! ### The copy engine -/

/-- RETRY (07 R189): a halted channel restarts its transfer from the first iteration; a loop that waits for it is told of a new halt. -/
def retryChan (s : State) (c ch : Nat) : State :=
  if (s.chan c ch).halted then
    let hear (x : Ctx) : Ctx :=
      { x with groups := x.groups.map (fun (g : Group) =>
          { g with loops := g.loops.map (fun (l : Loop) => { l with told := l.told.filter (fun t => !(t.1 == c && t.2.1 == ch)) }) }) }
    let s := { s with cores := s.cores.map (fun (co : Core) =>
      { co with ctxs := co.ctxs.map (fun (x : Ctx) => if x.groups.isEmpty then x else hear x) }) }
    s.updChan c ch (fun y => { y with halted := false, active := y.active.map (fun t => { t with landed := [] }) })
  else s

/-- SKIP (07 R189): a halted channel completes its transfer; unlanded bytes keep their values. -/
def skipChan (s : State) (c ch : Nat) : State := if (s.chan c ch).halted then finishTransfer s c ch else s

/-- Wakes the contexts of a core that wait in CWAIT or ECOMMIT: each executes its word again (07 R187, R188). -/
def wakeEngine (s : State) (c : Nat) : State :=
  s.updCore c (fun k => { k with
    ctxs := k.ctxs.map (fun x => match x.wait with
      | some (.cwait _ _ _) => { x with wait := none }
      | some (.ecommit _ _) => { x with wait := none }
      | _ => x) })

/-- A write of STATE (07 R185, R189). -/
def writeState (s : State) (c ch : Nat) (v : W64) : State :=
  match (fld v 0 2).toNat with
  | 1 => wakeEngine (retryChan s c ch) c
  | 2 => wakeEngine (skipChan s c ch) c
  | _ => s

/-- The bits a shadow register keeps: LEN and CNT their low half, FLAGS two bits (07 R185, 00 R6). -/
def shadowKeep (r : Nat) (v : W64) : W64 :=
  if r = 2 || (4 ≤ r && r ≤ 11) then v &&& 0xFFFFFFFF else if r = 3 then v &&& 3 else v

/-- EWR (07 R190): read-only registers ignore the write. -/
def execEwr (a : BitVec 5) (e : BitVec 8) (s : State) : Out :=
  reading s [a] (fun x =>
    let ch := (fld e 5 3).toNat
    let r := (fld e 0 5).toNat
    let s1 := s.setMe x.step1
    if r < 0x1C then s1.updChan s.cur.core ch (fun y => { y with shadow := y.shadow.set r (shadowKeep r (x.rd a)) })
    else if r = 0x1E then writeState s1 s.cur.core ch (x.rd a)
    else s1)

/-- STATE as it reads: active, queued, halted (07 R185). -/
def Chan.stateWord (y : Chan) : W64 := word64 [(y.active.isSome.toNat, 0), (y.queued.isSome.toNat, 1), (y.halted.toNat, 2)]

/-- FAULT as it reads; once a halt has been cleared its content is not stated (07 R185). -/
def Chan.faultWord (y : Chan) (fv : W64) : W64 :=
  if y.halted then word64 [((y.faultAddr &&& 0xFFFFFFFFFFFFFF).toNat, 0), (y.faultCause - 0x80, 56)]
  else if y.faultCause = 0 then 0 else fv

/-- ERD (07 R190). -/
def execErd (d : BitVec 5) (e : BitVec 8) (s : State) : Out :=
  onCtx s (fun x =>
    let y := s.chan s.cur.core (fld e 5 3).toNat
    let r := (fld e 0 5).toNat
    let v : W64 :=
      if r < 0x1C then y.shadow.getD r 0
      else if r = 0x1C then BitVec.ofNat 64 y.complete
      else if r = 0x1D then BitVec.ofNat 64 y.nextId
      else if r = 0x1E then y.stateWord
      else y.faultWord (s.free 3 0)
    s.setMe (x.wr d v false).step1)

/-- Raises a halted channel's fault precisely (07 R187, R188). Left to the model: DEDUCED, log entry 13. -/
def chanFault (s : State) (x : Ctx) (ch : Nat) : State :=
  let f := (s.chan s.cur.core ch).fault ch
  ctrlTrap s f.1 true x.pc f.2.1 1 f.2.2

/-- ECOMMIT (07 R187). -/
def execEcommit (d : BitVec 5) (c : BitVec 3) (s : State) : Out :=
  onCtx s (fun x =>
    let core := s.cur.core
    let ch := c.toNat
    let y := s.chan core ch
    if y.halted && y.queued.isSome then chanFault s x ch
    else if y.queued.isSome then waitIn s x (.ecommit d c)
    else
      let t : Xfer := { core := core, ch := ch, id := y.nextId, regs := y.shadow, time := s.freeCtr, asid := x.asid s, part := x.part, ctx := s.cur.ctx,
                        launch := x.launch, cluster := x.cluster, team := x.team, child := x.child.isSome,
                        windows := windowsOf s (x.who core), scratch := (x.img s).scratch, lines := [], landed := [] }
      let lines := t.writtenLines
      let t := { t with lines := lines }
      let s := release s (.transfer core ch t.id) [t.agent, ctxAgent core s.cur.ctx .w] [] (.cores [core])
      let s := if lines.isEmpty then s else noteEvent s (ctxAgent core s.cur.ctx .c)
      let s := lines.foldl (fun s l => s.updCore l.1 (fun k => addPresence k l.2 true)) s
      let s := s.updChan core ch (fun y => { y with queued := some t, nextId := y.nextId + 1 })
      s.updCtx core s.cur.ctx (fun x => { (x.wr d (BitVec.ofNat 64 (t.id + 1)) false).step1 with
        recent := x.recent.filter (fun r => r.reg != d) }))

/-- CWAIT's acquire, at a scope, of the transfers of a channel below an identifier (07 R188). -/
def acquireTransfers (s : State) (x : Ctx) (c k ch want scope : Nat) : State :=
  let p (r : Release) : Bool := match r.link with
    | .transfer d n id => d == c && n == ch && decide (id < want)
    | _ => false
  let s := acquire s c p [.one (ctxAgent c k .c), .one (ctxAgent c k .gotX)]
  refresh (acquireReads s p [.one (ctxAgent c k .gotX)]) (invalidates s x scope) [.one (ctxAgent c k .c)]

/-- CWAIT (07 R188, 12 R349). -/
def execCwait (a : BitVec 5) (c scope : BitVec 3) (s : State) : Out :=
  reading s [a] (fun x =>
    let y := s.chan s.cur.core c.toNat
    let want := (x.rd a).toNat
    if want > y.nextId then trapHere s x cCWAITAHEAD
    else if want ≤ max y.complete (x.passed.getD c.toNat 1) then
      acquireTransfers (s.setMe x.step1) x s.cur.core s.cur.ctx c.toNat want scope.toNat
    else if y.halted then chanFault s x c.toNat
    else waitIn s x (.cwait a c scope))

/-! ### Fences -/

/-- A release at cluster scope or wider waits until the team's remote stores are acknowledged (07 R183, 08 R222). -/
def storesDone (x : Ctx) : Bool := x.groups.all (fun g => g.rstores.isEmpty)

/-- The remote reads of a team's groups are performed (08 R222). -/
def readsDone (x : Ctx) : Bool := x.groups.all (fun g => g.outs.all (fun v => v.remote.isEmpty))

/-- The remote accesses of a team's groups are performed (08 R222). -/
def accessesDone (x : Ctx) : Bool := readsDone x && x.groups.all (fun g => g.rstores.all (·.performed))

/-- Whether the context has acquired, by RPOP, an L event that a group issued after a time (15 R421). -/
def acquiredAfter (s : State) (c k g time : Nat) : Bool :=
  s.late.any (fun e => e.agent == grpAgent c k g .l && decide (time < e.order) && e.covered (ctxAgent c k .gotL))

/-- Each loop that R421 makes the context order is complete, with its completion visible (08 R226). -/
def acquiredLoopsDone (s : State) (c k : Nat) (x : Ctx) : Bool :=
  (indexed x.groups).all (fun g => g.2.loops.all (fun l => l.visible || !acquiredAfter s c k g.1 l.time))

def orderRel (o : BitVec 2) : Bool := bit o 1
def orderAcq (o : BitVec 2) : Bool := bit o 0

/-- The pool part of a release: every checked-out line of the module is checked in (07 R203). -/
def poolRelease (s : State) (scope : BitVec 3) : State := if 5 ≤ scope.toNat then checkInAll s else s

/-- A path by its code (08 R208). -/
def pathOfCode (p : BitVec 3) : Path :=
  match p.toNat with
  | 0 => .c | 1 => .l | 2 => .x | 3 => .u | _ => .s

/-- The stores that a context's fence waits for have left their queues: its own, and at system scope those to the host window, its
groups' too (08 R222). -/
def flushCtrl (s : State) (c k : Nat) (own sys : Bool) : State :=
  flushWhere s (fun q => if q.host then sys && q.agent.of c k else own && q.agent == ctxAgent c k .c)

/-- FENCE (08 R225): a release waits for the remote stores of its team at cluster scope or wider; the other events it covers are
performed by what acquired them. Both sides order earlier stores before later loads, the X reads of later transfers too (15 R421). -/
def execFence (scope : BitVec 3) (order : BitVec 2) (s : State) : Out :=
  onCtx s (fun x =>
    if orderRel order && decide (2 ≤ scope.toNat) && !storesDone x then waitIn s x (.fence scope order)
    else
      let c := s.cur.core
      let k := s.cur.ctx
      let reach := reachOf s x c scope.toNat
      let s := flushCtrl s c k (orderRel order) (scope == 6)
      let s := if orderAcq order then
          acquireFence s c reach (invalidates s x scope.toNat) (ctxReads c k) (ctxViews c k) else s
      let s := if orderRel order then
          poolRelease (releaseFence s .fence reach [ctxAgent c k .c] (ctxViews c k)
            (.one (ctxAgent c k .w) :: (if orderAcq order then [.one (ctxAgent c k .c), .copies c k] else []))) scope else s
      s.setMe x.step1)

/-- Whether the events of an XFENCE's earlier path are performed (08 R226). -/
def earlierDone (s : State) (c k : Nat) (x : Ctx) (scope p : BitVec 3) : Bool :=
  (p != 3 || acquiredLoopsDone s c k x) && (decide (scope.toNat < 2) || storesDone x)

/-- XFENCE (08 R226): it waits as a release on its earlier path would; with one path it is a FENCE of both sides there. -/
def execXfence (scope p q : BitVec 3) (s : State) : Out :=
  onCtx s (fun x =>
    if !earlierDone s s.cur.core s.cur.ctx x scope p then waitIn s x (.xfence scope p q)
    else
      let c := s.cur.core
      let k := s.cur.ctx
      let s := flushCtrl s c k (p == 0) (scope == 6)
      let s := orderPaths s c (reachOf s x c scope.toNat) (invalidates s x scope.toNat) (p == q)
        (pathAgents (ctxAgent c k) (pathOfCode p)) (pathViews c k (pathOfCode q))
      (poolRelease s scope).setMe x.step1)

/-- The bytes of a launch's code that context k of core c fetches anew after its IFENCE: those of the host window, and those whose
last write happens before the context's or its groups' next access (08 R229). -/
def fenceCode (s : State) (c k : Nat) (l : Launch) : Launch :=
  let mine (e : Late) : Bool := e.covered (ctxAgent c k .c) || (e.agent.of c k && e.agent.path == .l)
  let passed (a : Nat) : Bool :=
    inHost s a || ((s.late.filter (fun e => (e.at none a).isSome)).getLast?.map mine).getD true
  { l with oldCode := l.oldCode.map (fun o =>
    if passed o.addr && !o.fenced.contains (c, k) then { o with fenced := o.fenced ++ [(c, k)] } else o) }

/-- IFENCE (08 R229): earlier descriptors are complete, and their stores and the context's are performed. -/
def execIfence (s : State) : Out :=
  onCtx s (fun x =>
    if x.strm.blockQ.isEmpty && accessesDone x then
      let c := s.cur.core
      let k := s.cur.ctx
      let s := flushTeam s c k
      (s.updLaunch x.part x.launch (fenceCode s c k)).setMe x.step1
    else waitIn s x .ifence)

/-! ### Triggers and joins -/

/-- KTRIG's release at device scope (04 R117, 08 R220): the team's stores have left their queues; it covers the context's events, its
groups' L events and what they acquired. -/
def releaseTrigger (s : State) (x : Ctx) (c k : Nat) : State :=
  release (flushWhere s (fun q => q.agent.of c k && !q.host)) (.trigger x.part x.launch)
    (ctxAgent c k .c :: (List.range x.groups.length).map (fun g => grpAgent c k g .l)) [.one (ctxAgent c k .c)] .all

/-- KTRIG (04 R116): waits until every emitted descriptor has completed and the release's work is done (18 R430). With the trigger bit
set, and in a child team, it has no further effect. -/
def execKtrig (s : State) : Out :=
  onCtx s (fun x =>
    if x.priv then trapHere s x cPRIVOP
    else if x.strm.blockQ.isEmpty && storesDone x && readsDone x then
      if x.child.isSome || x.trigger then s.setMe x.step1
      else
        let s := (releaseTrigger s x s.cur.core s.cur.ctx).updLaunch x.part x.launch (fun l => { l with
          placed := modifyAt l.placed x.cluster (fun c => { c with triggers := c.triggers.set x.team true }) })
        s.setMe { x with trigger := true }.step1
    else waitIn s x .ktrig)

/-- Whether every launched team of a producer has triggered or exited (04 R116). -/
def producerReady (s : State) (part : Nat) (p : W32) : Bool :=
  match s.launch? part p with
  | none => true
  | some l => l.status == .completed ||
      (l.placed.length == l.clusters && l.placed.all (fun c => c.triggers.all id))

/-- KWAIT (04 R116). -/
def execKwait (s : State) : Out :=
  onCtx s (fun x =>
    let from_ := ((x.launch? s).map (·.producers)).getD []
    if x.priv then trapHere s x cPRIVOP
    else if from_.all (fun p => p == 0 || producerReady s x.part p) then
      let c := s.cur.core
      let s' := acquire (s.setMe x.step1) c (fun r => match r.link with
        | .trigger part p => part == x.part && from_.contains p
        | _ => false) [.one (ctxAgent c s.cur.ctx .c)]
      refresh s' true [.one (ctxAgent c s.cur.ctx .c)]
    else waitIn s x .kwait)

/-- The cause a JWAIT raises for its address: a failed join decrement there, or a refill fault of the launch (13 R373). -/
def joinCause (s : State) (x : Ctx) (va : W64) : Option (Nat × W64) :=
  match x.launch? s with
  | none => none
  | some l => match l.joinFails.find? (fun f => f.1 == va) with
    | some f => some f.2
    | none => l.refillCause

/-- JWAIT's acquire at device scope of the child teams whose decrements its read of the counter returned (03 R100, 08 R220). -/
def acquireJoins (s : State) (c k pa : Nat) : State :=
  let me := ctxAgent c k .s
  let got := (returned s me none (span pa 4)).filterMap (s.late[·]?)
  let s := acquire (noteRead s me s.freeCtr none (span pa 4)) c
    (fun r => (match r.link with | .join _ _ => true | _ => false) && got.any (fun w => w.order == r.time && r.agents.contains w.agent))
    [.one (ctxAgent c k .c), .one (ctxAgent c k .gotS)]
  refresh s true [.one (ctxAgent c k .c)]

/-- JWAIT (03 R100, 13 R373): its reads, of path S, are checked as kind spawn, and no POOLATOM is raised. -/
def execJwait (a : BitVec 5) (i : BitVec 16) (s : State) : Out :=
  reading s [a] (fun x =>
    let va := x.rd a + i.signExtend 64
    if x.child.isSome then trapHere s x cJWAITCHILD
    else match checkAccess s x.part (x.asid s) .sp pathS va 4 false with
      | .error f => faultHere s x va f
      | .ok pa =>
        match joinCause s x va with
        | some (c, fi) => ctrlTrap s c false x.pc va 1 fi
        | none =>
          match tlbMisses s s.cur.core (x.asid s) [va] with
          | p :: ps => s.setMe { x with tlbWait := p :: ps }
          | [] =>
            let me := ctxAgent s.cur.core s.cur.ctx .s
            match loadPoison s me pa 4 with
            | some p => poisonHere s x va p
            | none =>
              if natOf (loadBytes s me pa 4) = 0 then acquireJoins (s.setMe x.step1) s.cur.core s.cur.ctx pa
              else waitIn s x (.jwait a i))

/-! ### Context registers (10 R271, R272) -/

/-- MODE as it reads. -/
def Ctx.modeWord (x : Ctx) : W64 :=
  word64 [(x.priv.toNat, 0), ((x.mode == .trap).toNat, 1), ((x.mode == .save).toNat, 2), ((x.mode == .restore).toNat, 3),
    ((x.debug).toNat, 4)]

/-- Reads FRDATA: the freeze-record word at FRIDX, which then moves on (10 R271). -/
def readRecord (s : State) (x : Ctx) (d : BitVec 5) : State :=
  let w := match x.frozen with
    | some f => recordWord f x.fridx.toNat (s.free 4 0)
    | none => s.free 4 1
  s.setMe { x.wr d w false with fridx := (x.fridx + 1) &&& 0xFFFFF }.step1

/-- CRD (10 R272). -/
def execCrd (d : BitVec 5) (e : BitVec 8) (s : State) : Out :=
  onCtx s (fun x =>
    if !x.priv then trapHere s x cCPRIV
    else
      let out (v : W64) : State := s.setMe (x.wr d v false).step1
      match e.toNat with
      | 0x00 => out x.trapVec
      | 0x01 => out x.saveVec
      | 0x02 => out x.restVec
      | 0x03 => out x.cause
      | 0x04 => out x.epc
      | 0x05 => out x.faddr
      | 0x06 => out x.fmask
      | 0x07 => out x.finfo
      | 0x08 => out x.fridx
      | 0x09 => readRecord s x d
      | 0x0A => out x.modeWord
      | 0x0B => out x.resumeR
      | n => out (x.ks.getD (n - 0x0C) 0))

/-- FRDATA_READ: the side row of CRD for register 0x09. -/
def execFrdataRead (d : BitVec 5) (s : State) : Out :=
  onCtx s (fun x => if !x.priv then trapHere s x cCPRIV else readRecord s x d)

/-- CWR (10 R272): reserved bits are ignored. -/
def execCwr (a : BitVec 5) (e : BitVec 8) (s : State) : Out :=
  reading s [a] (fun x =>
    let v := x.rd a
    if !x.priv then trapHere s x cCPRIV
    else match e.toNat with
      | 0x04 => s.setMe { x with epc := v }.step1
      | 0x08 => s.setMe { x with fridx := v &&& 0xFFFFF }.step1
      | 0x0B => s.setMe { x with resumeR := v &&& 1 }.step1
      | n => if 0x0C ≤ n then s.setMe { x with ks := x.ks.set (n - 0x0C) v }.step1 else trapHere s x cCPRIV)

/-! ### Traps and returns -/

/-- TRAP (10 R288): EPC is the next word. -/
def execTrap (k : BitVec 6) (s : State) : Out := onCtx s (fun x => ctrlTrap s (cSWT k) false (x.pc + 1) 0 0 0)

/-- BRK (10 R288). -/
def execBrk (s : State) : Out := onCtx s (fun x => ctrlTrap s cCTRLBRK false (x.pc + 1) 0 0 0)

/-- A word with an unassigned opcode or function (09 R250). -/
def execCillop (_ : BitVec 32) (s : State) : Out := onCtx s (fun x => trapHere s x cCILLOP)

/-- A word with a reserved field or value (09 R250). -/
def execCresfield (_ : BitVec 32) (s : State) : Out := onCtx s (fun x => trapHere s x cCRESFIELD)

/-- Whether every group of a team has finished its work (12 R351): descriptors, results, pushes, spawn records, remote
stores and matrix loops. -/
def groupsDone (x : Ctx) : Bool :=
  x.strm.blockQ.isEmpty && storesDone x && x.groups.all (fun g =>
    g.outs.all (·.written) && g.pos.pushes.isEmpty && g.spawnPend.isEmpty && g.loops.all (·.complete))

/-- Whether a transfer the team committed is still queued or active on its core. -/
def transfersLeft (s : State) (c k : Nat) (x : Ctx) : Bool :=
  (s.core c).chans.any (fun y => y.queued.any (fun t => t.by x k) || y.active.any (fun t => t.by x k))

/-- An EXIT of a save routine: the context is released and the team stays pre-empted (10 R295). -/
def saveExit (s : State) (c k : Nat) (x : Ctx) : State :=
  freeContext (s.updLaunch x.part x.launch (fun l => { l with
    saved := l.saved ++ [{
      core := c, ctx := k, res := (s.core c).childRes, ids := (s.core c).chans.map (·.nextId), name := spareName s k,
      body := { x with wait := none } }] })) c k

/-- The release of a team at its EXIT, once its stores have left their queues (12 R351, R352): a child's joins or a launched team's
triggers, partial sequences of its records, the context. -/
def exitTeam (s : State) (c k : Nat) (x : Ctx) : State :=
  let s := flushTeam s c k
  let s := match x.child with
    | some ch => joinDecs s (ctxAgent c k .s) (exitAgents x c k) x.part x.launch ch.joins
    | none => release s (.trigger x.part x.launch) (exitAgents x c k) [] .all
  let s := s.updCore c (fun co => formPartials co (fun r =>
    r.part == x.part && r.launch == x.launch && r.srcCore == c && r.srcCtx == k))
  let s := freeContext (orphanRecords s c k x) c k
  match x.child with
  | some _ => s
  | none => markExited s x

/-- EXIT (12 R351, 10 R284, R295). -/
def execExit (s : State) : Out :=
  onCtx s (fun x =>
    let c := s.cur.core
    let k := s.cur.ctx
    match x.mode with
    | .save => if groupsDone x then saveExit s c k x else waitIn s x .exit
    | .user =>
      if groupsDone x then
        let s := skipHalted s c k x true
        if transfersLeft s c k x then s.updCtx c k (fun x => { x with wait := some .exit })
        else exitTeam s c k x
      else waitIn s x .exit
    | _ => terminate s c k (fld x.cause 0 9).toNat x.finfo)

end Sys2Proof.Machine
end

