-- ==== Sys2Proof/Machine/Lane.lean ====
section
/-! DEFINITION. How lane words issue: the checks of 09 R251, the pending writes of 02 R60-R66, hazards (02 R64, 06 R163), the
end of a run (02 R63, R68, 06 R151, 08 R227), descriptors (02 R49-R53) and arbitration (04 R121, R122). -/

namespace Sys2Proof.Machine

/-! ### Writes becoming visible -/

/-- The lanes of `m` take new values. -/
def mergeLanes (old new : VReg) (m : Lanes) : VReg :=
  (indexed old).map (fun v => if m.getLsbD v.1 then new.getD v.1 0 else v.2)

def Group.writeVec (g : Group) (r : Nat) (vals : VReg) (m : Lanes) (taint : Bool) (p : Poison) : Group :=
  let old := g.vpoison.getD r Poison.none
  { g with
    vregs := g.vregs.set r (mergeLanes (g.vregs.getD r VReg.zero) vals m),
    vtaint := g.vtaint.set r taint,
    vpoison := g.vpoison.set r ({ p with lanes := p.lanes &&& m }.join { old with lanes := old.lanes &&& ~~~m }) }

/-- g0 ignores writes. -/
def Group.writeG (g : Group) (r : Nat) (v : W32) (taint : Bool) (p : Poison) : Group :=
  let g := { g with gpoison := if r = 0 then g.gpoison else g.gpoison.set r p }
  match r with
  | 0 => g
  | 1 => { g with pos := { g.pos with g1 := v, g123taint := putBit g.pos.g123taint 0 taint } }
  | 2 => { g with pos := { g.pos with g2 := v, g123taint := putBit g.pos.g123taint 1 taint } }
  | 3 => { g with pos := { g.pos with g3 := v, g123taint := putBit g.pos.g123taint 2 taint } }
  | _ => { g with gregs := g.gregs.set r v, gtaint := g.gtaint.set r taint }

/-- Special registers by their R249 number: 0 FMT, 1 SHAPE, 2 GSTAT, 4-7 XPAT, 8 the execute mask. -/
def Group.writeSpecial (g : Group) (r : Nat) (v : W64) : Group :=
  match r with
  | 0 => { g with fmt := fld v 0 32 &&& 0xFFFFFF00 }
  | 1 => { g with shape := fld v 0 10 }
  | 2 => { g with gstat := fld v 0 32 &&& gstatMask }
  | 8 => { g with pos := { g.pos with exmask := fld v 0 32 } }
  | _ => { g with xpats := g.xpats.set (r - 4) (v &&& 0x3FFFFFFFFF) }

/-- The poison of a written special register (10 R300). -/
def Group.markSpecial (g : Group) (r : Nat) (p : Poison) : Group :=
  { g with spoison := g.spoison.set r (if p.lanes = 0 then none else some (p.cause, p.info)) }

/-- A pending write becomes visible. -/
def Group.apply (g : Group) (p : Pend) : Group :=
  match p.kind with
  | .vec => g.writeVec p.reg p.vals p.lanes p.taint p.poison
  | .gs => g.writeG p.reg (fld p.word 0 32) p.taint p.poison
  | .spec => (g.writeSpecial p.reg p.word).markSpecial p.reg p.poison
  | .flag => { g with gstat := g.gstat ||| fld p.word 0 32 }

/-- One slot passes: writes due take effect in issue order, flag updates last (02 R61, 05 R131). -/
def Group.slot (g : Group) : Group :=
  let due := g.pos.pend.filter (fun p => p.left ≤ 1)
  let later := (g.pos.pend.filter (fun p => 1 < p.left)).map (fun p => { p with left := p.left - 1 })
  let stores := (g.pos.ownStores.map (fun o => { o with left := o.left - 1 })).filter (fun o => 0 < o.left)
  let g := { g with pos := { g.pos with
    pend := later, ownStores := stores, landed := (due.filter (fun p => p.kind == .vec)).map (·.reg) } }
  let g := (due.filter (fun p => p.kind != .flag)).foldl Group.apply g
  (due.filter (fun p => p.kind == .flag)).foldl Group.apply g

def Group.slots (g : Group) : Nat → Group
  | 0 => g
  | n + 1 => (g.slot).slots n

/-- Every pending write is visible at the end of the run (02 R60, R62; 07 R182). Those whose visible slot lies past the last slot take
effect in the order of those slots. Left to the model: DESIGN CHOICE, log entry 48. -/
def Group.drain (g : Group) : Group :=
  let g := g.slots 12
  { g with pos := { g.pos with pend := [], ownStores := [], landed := [] } }

/-! ### Variable-latency results (02 R63, R64) -/

/-- Writes the lanes of a result to its registers; owned registers keep their contents, which are unpredictable after
MWAIT in any case (06 R163). With `before`, the result belongs before the trip that now stands at its start, which has loaded
g1 to g3 (02 R49). -/
def Group.land (g : Group) (v : VarRes) (m : Lanes) (before : Bool) : Group :=
  (indexed v.regs).foldl (fun g r =>
    let vals := v.vals.getD r.1 []
    if v.gs then
      if r.2 < 4 && before && g.pos.slot == 0 && g.pos.run == 0 then g
      else if m.getLsbD 0 then g.writeG r.2 (fld (vals.headD 0) 0 32) v.taint v.poison else g
    else if g.owned [r.2] || m == 0 then g
    else g.writeVec r.2 vals m v.taint v.poison) g

/-- Result `idx` arrives: lanes that a later word wrote wait for the covering marker. -/
def Group.arrive (g : Group) (idx : Nat) : Group :=
  match g.outs[idx]? with
  | none => g
  | some v =>
    let g := g.land v (v.lanes &&& ~~~v.conflict) (g.pos.status == .parked)
    { g with outs := g.outs.set idx { v with written := true } }

/-- The covering marker: conflicting lanes keep one of the two values (02 R64). -/
def Group.cover (s : State) (g : Group) : Group :=
  let g' := (indexed g.outs).foldl (fun r v =>
    let pick := (lanesOf v.2.conflict).foldl (fun (m : Lanes) i => if s.choice 3 (32 * v.1 + i) then putBit m i true else m) 0
    r.land v.2 (v.2.lanes &&& pick) true) g
  { g' with outs := [] }

/-! ### Truss mode (06 R148, R151, R161) -/

def isTruss (s : State) (c k g : Nat) : Bool := (s.laneSetAt c ((s.ctx c k).laneSet g)).truss == some (k, g)

def trussWaits (s : State) (c k g : Nat) : Bool := (s.laneSetAt c ((s.ctx c k).laneSet g)).trussWait.contains (k, g)

/-- A loop that MWAIT still waits for: its completion is not visible. -/
def Group.loopLeft (g : Group) : Bool := g.loops.any (fun l => !l.visible)

/-- An unpredictable register: all 36 bits of every element. -/
def wildReg (s : State) (r : Nat) : VReg := (List.range 32).map (fun i => (s.free 5 (32 * r + i)).truncate 36)

/-- A result still outstanding for a window that a touch has made unpredictable brings nothing definite there (06 R163). -/
def VarRes.wild (s : State) (win : List Nat) (v : VarRes) : VarRes :=
  if v.gs then v
  else { v with
    vals := (indexed v.vals).map (fun r => let k := v.regs.getD r.1 0; if win.contains k then wildReg s k else r.2),
    junk := v.junk ++ v.regs.filter win.contains }

/-- MWAIT retires: ownership of the completed loops ends, their GSTAT bits merge, a touched window is unpredictable. -/
def Group.endLoops (s : State) (g : Group) : Group :=
  let done := g.loops.filter (·.visible)
  let g := done.foldl (fun g l =>
    let g := { g with gstat := g.gstat ||| l.flags }
    if l.spoiled then
      { l.win.foldl (fun g r => { g with vregs := g.vregs.set r (wildReg s r) }) g with outs := g.outs.map (VarRes.wild s l.win) }
    else g) g
  { g with loops := g.loops.filter (fun l => !l.visible) }

/-- MMODE.t at the end of its run. -/
def enterTruss (s : State) (c k g : Nat) : State :=
  let ls := (s.ctx c k).laneSet g
  match (s.laneSetAt c ls).truss with
  | none => s.updLaneSet c ls (fun l => { l with truss := some (k, g) })
  | some t =>
    if t = (k, g) then s
    else
      let s := if trussWaits s c k g then s
        else s.updLaneSet c ls (fun l => { l with trussWait := l.trussWait ++ [(k, g)] })
      s.updGroup c k g (fun r => { r with pos := { r.pos with trussReq := true } })

/-- MMODE.v once the truss group's loops are complete. -/
def exitTruss (s : State) (c k g : Nat) : State :=
  let s := s.updGroup c k g (fun r => { (r.endLoops s) with pos := { r.pos with parkMmodeV := false } })
  leaveTruss s c ((s.ctx c k).laneSet g)

/-! ### Descriptors (02 R49-R54) -/

/-- Step 5a of R49. -/
def Group.startTrip (g : Group) (d : Desc) (t : Nat) : Group :=
  { g with
    pos := { g.pos with
      trip := t, run := 0, slot := 0, word := 0, st := if t = 0 then .start else .between, exmask := g.pos.activity,
      g1 := BitVec.ofNat 32 t, g2 := d.arg0, g3 := d.arg1, g123taint := if d.argTaint then 6 else 0 },
    spoison := g.spoison.set 8 none,
    gpoison := (indexed g.gpoison).map (fun p => if p.1 < 4 then Poison.none else p.2) }

/-- Delivers a group's word to the return entry of a descriptor, once (02 R53), with its poison (10 R300). -/
def Ctx.deliver (x : Ctx) (seq : W32) (gi : Nat) (w : W32) (p : Option (Nat × W64)) : Ctx :=
  { x with strm := { x.strm with
    returnQ := x.strm.returnQ.map (fun e =>
      if e.seq == seq && (e.words.getD gi none).isNone then { e with words := e.words.set gi (some w), poison := e.poison.set gi p } else e) } }

/-- The sequence number of the first descriptor the group has not completed. -/
def Group.nextSeq (g : Group) : W32 := if g.pos.st == .done then g.pos.seq + 1 else g.pos.seq

/-- Frees the leading entries that every group has completed (02 R51). -/
def dropDone (groups : List Group) : List Desc → List Desc
  | [] => []
  | d :: r => if groups.all (fun g => g.nextSeq != d.seq) then dropDone groups r else d :: r

def Ctx.retire (x : Ctx) : Ctx := { x with strm := { x.strm with blockQ := dropDone x.groups x.strm.blockQ } }


/-- The release of a group's return word for a descriptor, if it has delivered none yet (08 R220, 02 R53). -/
def releaseReturn (s : State) (c k gi : Nat) (seq : W32) : State :=
  match (s.ctx c k).strm.returnQ.find? (fun e => e.seq == seq) with
  | none => s
  | some e =>
    if (e.words.getD gi none).isSome then s
    else release s (.ret c k e.time) [grpAgent c k gi .l] [.one (grpAgent c k gi .l)] (.cores [c])

/-- A group's word for a descriptor is delivered and released. -/
def deliverWord (s : State) (c k gi : Nat) (seq : W32) (w : W32) (p : Option (Nat × W64)) : State :=
  (releaseReturn s c k gi seq).updCtx c k (fun x => x.deliver seq gi w p)

/-- The group's descriptor is complete (02 R51). -/
def Ctx.complete (x : Ctx) (gi : Nat) : Ctx :=
  let g := x.group gi
  (x.setGroup gi { g with pos := { g.pos with st := .done } }).retire

/-- The group completes its descriptor: a return-flagged one without PRET delivers zero (02 R53). -/
def completeDesc (s : State) (c k gi : Nat) (d : Desc) : State :=
  (if d.ret then deliverWord s c k gi d.seq 0 none else s).updCtx c k (fun x => x.complete gi)

/-- FMT takes the top of the FMT stack, with its poison. -/
def Group.peekFmt (g : Group) : Group :=
  { g with fmt := g.pos.fmtStack.headD 0, spoison := g.spoison.set 0 (g.pos.fmtBad.headD none) }

/-- The FMT flags of a descriptor: pop, push, peek (02 R49 step 2). An ELSE's peek at an empty stack gives zero (03 R73).
Left to the model: DESIGN CHOICE, log entry 48. -/
def Group.fmtFlags (g : Group) (d : Desc) : Group :=
  let g := if d.pop then
      { g.peekFmt with pos := { g.pos with fmtStack := g.pos.fmtStack.tail, fmtBad := g.pos.fmtBad.tail } } else g
  let g := if d.push then
      { g with pos := { g.pos with fmtStack := g.fmt :: g.pos.fmtStack, fmtBad := g.spoison.getD 0 none :: g.pos.fmtBad } } else g
  if d.peek then g.peekFmt else g

/-- A barrier's release, when its first group starts it: every group has completed every earlier descriptor, and their stores have
left their queues (08 R220, 02 R50). -/
def releaseBarrier (s : State) (c k : Nat) (d : Desc) : State :=
  if !d.bar || s.releases.any (fun r => r.link == .barrier c k d.time) then s
  else
    let gs := (List.range (s.ctx c k).groups.length).map (fun g => grpAgent c k g .l)
    release (flushWhere s (fun q => !q.host && gs.contains q.agent)) (.barrier c k d.time) gs (gs.map View.one) (.cores [c])

/-- The events of a descriptor's groups come after the fences that its context executed before the EMIT (08 R225, R226). -/
def followFences (s : State) (c k gi : Nat) (d : Desc) : State :=
  let later (r : Release) : Bool := (r.link == .fence || r.link == .cross) &&
    r.after.any (fun b => b.view == .one (ctxAgent c k .l) && decide (b.time ≤ d.time))
  { s with releases := s.releases.map (fun r =>
      if later r then { r with after := addViews r.after [.one (grpAgent c k gi .l)] s.freeCtr } else r) }

/-- The start of a descriptor acquires what its EMIT released: the control stores before it, which have left their queue, and what
the context has acquired; a barrier's, what the groups did in earlier descriptors and acquired (08 R220, 02 R48, R50). The group
keeps apart the C and X events among them (15 R420), and what an XFENCE ordered before its U events. -/
def acquireStart (s : State) (c k gi : Nat) (d : Desc) : State :=
  let me : Path → Agent := grpAgent c k gi
  let s := flushWhere s (fun q => !q.host && q.agent == ctxAgent c k .c && decide (q.order ≤ d.time))
  let s := followFences (releaseBarrier s c k d) c k gi d
  let rs := s.releases.filter (fun r => r.link == .block c k d.time || (d.bar && r.link == .barrier c k d.time))
  let got (e : Late) : Bool := rs.any (·.covers e)
  let s := acquireWhere s got [.one (me .l)]
  let s := acquireWhere s (fun e => got e && e.agent.path == .c) [.one (me .c)]
  let s := acquireWhere s (fun e => got e && e.agent.path == .x) [.one (me .gotX)]
  acquireWhere s (fun e => e.precedes (ctxAgent c k .u) d.time) [.one (me .u)]

/-- Group gi starts descriptor d (02 R49 steps 2 to 5a). -/
def startDesc (s : State) (c k gi : Nat) (d : Desc) : State :=
  let s := acquireStart s c k gi d
  let x := s.ctx c k
  let act := maskWord d.activity gi
  let g := (x.group gi).fmtFlags d
  let g := { g with pos := { g.pos with seq := d.seq, activity := act, delivered := false } }
  if act = 0 || d.trip = 0 then
    (if d.ret then deliverWord s c k gi d.seq act none else s).updCtx c k (fun x =>
      (x.setGroup gi { g with pos := { g.pos with st := .done, status := .waiting } }).retire)
  else makeEligible (s.setCtx c k (x.setGroup gi (g.startTrip d 0))) c k gi

/-! ### Run ends -/

/-- An asynchronous fault at a group's run boundary; with a freeze already triggered it is held (10 R278). -/
def raiseAsync (s : State) (c k : Nat) (f : AsyncFault) : State :=
  let x := s.ctx c k
  if !x.resident then s
  else if x.trig.isSome then s.setCtx c k { x with held := x.held ++ [f] }
  else takeTrap s c k
    { cause := f.cause, lane := f.lane, group := f.group, async := true, preempt := false, skippable := f.skip, epc := x.pc,
      faddr := f.faddr, fmask := f.fmask, finfo := f.finfo }

/-- Whether the waits of a Parked group are over (02 R68); a marker also covers the run's spawn records (17 R428). -/
def Group.ready (g : Group) : Bool :=
  (!g.pos.parkMarker || (g.outs.all (·.written) && g.spawnPend.isEmpty)) && g.pos.pushes.isEmpty && g.pos.parkFence.isNone && !g.pos.parkMmodeV

/-- The remote accesses of the groups that have not started a barrier descriptor are performed (08 R222); the first group to start it
found all of them so. -/
def Ctx.barrierDone (x : Ctx) (d : Desc) : Bool :=
  x.groups.all (fun g => g.nextSeq != d.seq || (g.outs.all (fun v => v.remote.isEmpty) && g.rstores.all (·.performed)))

/-- The oldest descriptor a group may start: its next one, visible to it, no regroup marker, and with the barrier satisfied: every
group has completed every earlier descriptor, so it stands first, with the groups' remote accesses performed (02 R50, R69, 03 R84,
08 R222). -/
def Ctx.startable (x : Ctx) (gi : Nat) : Option Desc :=
  let g := x.group gi
  match x.descOf g.nextSeq with
  | none => none
  | some d =>
    if d.regroup.isSome || g.pos.status != .waiting || x.trig.isSome || !d.seen.getLsbD gi then none
    else if d.bar && !(x.strm.blockQ.head?.any (fun h => h.seq == d.seq) && x.barrierDone d) then none
    else some d

/-- A Waiting group starts what it can see, one descriptor after another while they have no trip for it (R68). -/
def startVisible (s : State) (c k gi : Nat) : Nat → State
  | 0 => s
  | n + 1 =>
    match (s.ctx c k).startable gi with
    | some d => startVisible (startDesc s c k gi d) c k gi n
    | none => s

/-- A passed marker covers the spawn records of its run: their increments happen before every later event of the group (17 R428). -/
def coverSpawns (s : State) (c k gi : Nat) : State := acquireWhere s (fun e => e.agent == grpAgent c k gi .s) (grpViews c k gi)

/-- The fault of poisoned data that a group has read, at a run boundary (10 R300). -/
def raisePoison (s : State) (c k gi : Nat) (p : Option (Nat × W64)) : State :=
  match p with
  | some (cause, info) => raiseAsync s c k { store := false, lane := true, group := gi, skip := false, fmask := 0, cause := cause, faddr := 0, finfo := info }
  | none => s

/-- The state of a group at a run boundary: Parked, Truss-waiting, Waiting or Eligible; a passed marker covers its results
and raises their faults (02 R63, R68; 07 R183). A group whose run ends with MMODE.t and outstanding results parks first, with
its place in the truss order since the run's end. Left to the model: DESIGN CHOICE, log entry 48. -/
def settle (s : State) (c k gi : Nat) : State :=
  let g := s.group c k gi
  if !g.ready then s.updGroup c k gi (fun r => { r with pos := { r.pos with status := .parked } })
  else
    let faults := if g.pos.parkMarker then g.async else []
    let poison := g.pos.poisonRun
    let s := if g.pos.parkMarker then coverSpawns s c k gi else s
    let g := if g.pos.parkMarker then { (g.cover s) with async := [] } else g
    let waits := g.pos.trussReq
    let st : GStatus := if waits then .trussWaiting else .waiting
    let s := s.setGroup c k gi { g with pos := { g.pos with parkMarker := false, poisonRun := none, status := st } }
    let s := if waits then s else if g.pos.st != .done then makeEligible s c k gi
      else startVisible s c k gi (s.ctx c k).strm.blockQ.length
    raisePoison (faults.foldl (fun s f => raiseAsync s c k f) s) c k gi poison

/-- Effect of MMODE at the end of its run: none, .t or .v. -/
inductive Truss where
  | none | t | v
  deriving DecidableEq, Repr

/-- A run ends: pending writes are visible, the position moves to the next run, trip or the descriptor's end, MMODE takes effect,
and a marker or a waiting word may park the group. -/
def endRun (s : State) (c k gi : Nat) (h : Hdr) (m : Truss) : State :=
  let x := s.ctx c k
  let g := (x.group gi).drain
  let marker := h.sw || g.pos.marked || g.pos.parkFence.isSome
  let poison := g.pos.poisonRun
  let g := { g with pos := { g.pos with
    run := g.pos.run + 1, slot := 0, st := .between, marked := false, poisonRun := none, parkMarker := marker } }
  let s := s.setCtx c k (x.setGroup gi g)
  let s := if !h.fin then s
    else match x.descOf g.pos.seq with
      | some d => if g.pos.trip + 1 < d.trip.toNat then s.setGroup c k gi (g.startTrip d (g.pos.trip + 1)) else completeDesc s c k gi d
      | none => s
  let s := s.updLaneSet c (x.laneSet gi) (fun l => { l with running := l.running.filter (fun r => r != (k, gi)) })
  let s := match m with
    | .none => s
    | .t => enterTruss s c k gi
    | .v =>
      if !isTruss s c k gi then s
      else if (s.group c k gi).loopLeft then s.updGroup c k gi (fun r => { r with pos := { r.pos with parkMmodeV := true } })
      else exitTruss s c k gi
  raisePoison (settle s c k gi) c k gi poison

/-! ### Issue -/

/-- A suspension (02 R65): the word has not issued and the lane set is free. -/
def suspendGroup (s : State) (c k gi : Nat) (why : Susp) : State :=
  let s := s.updLaneSet c ((s.ctx c k).laneSet gi) (fun l => { l with running := l.running.filter (fun r => r != (k, gi)) })
  s.updGroup c k gi (fun r => { r with pos := { r.pos with status := .suspended why } })

/-- A free value in the place of each value of a pending write; flag updates go (log entry 1). -/
def Pend.freed (s : State) (activity : Lanes) (p : Pend) : List Pend :=
  match p.kind with
  | .vec => [{ p with vals := (List.range 32).map (fun i => (fld (s.free 6 (32 * p.reg + i)) 0 32).zeroExtend 36) }]
  | .gs => [{ p with word := (fld (s.free 7 p.reg) 0 32).zeroExtend 64 }]
  | .spec =>
    let v := s.free 8 p.reg
    [{ p with word := if p.reg = 8 then v &&& activity.zeroExtend 64 else v }]
  | .flag => []

/-- Free values for the results a word has outstanding. -/
def VarRes.freed (s : State) (v : VarRes) : VarRes :=
  { v with vals := (indexed v.vals).map (fun r => (List.range 32).map (fun i =>
      (fld (s.free 9 (32 * (v.regs.getD r.1 0) + i)) 0 32).zeroExtend 36)), junk := v.regs }

/-- Whether a word acts: some lane of it, or whatever the execute mask holds. -/
def Entry.acts (en : Entry) (e : Env) (w : LaneWord) : Bool := en.always || e.lanes w != 0

/-- The debug schedule mode's traps on a word's registers (02 R64, 06 R163): an entry's own check of ownership whatever the mask
(02 R436), the others where the word acts. A cause the word's own entry finds comes first. Left to the model: DESIGN CHOICE, log entry 48. -/
def debugCause (e : Env) (w : LaneWord) (en : Entry) : Option Nat :=
  if !e.x.debug then none
  else if (en.acts e w || en.ownCheck) && e.owns en.ops (fun _ => true) then some cSCHEDVIOL
  else if en.acts e w && e.uncovered en.ops (fun _ => true) then some cEARLYREAD
  else none

/-- Marks the outstanding results whose registers the word writes (02 R64), counting the results present before it. -/
def markConflicts (e : Env) (w : LaneWord) (en : Entry) (g : Group) : Group :=
  let vs := e.stored en.ops true (·.wr)
  let gs := e.stored en.ops false (·.wr)
  let m : Lanes := if en.always then BitVec.allOnes 32 else e.lanes w
  { g with outs := (indexed g.outs).map (fun v =>
      if v.1 < e.g.outs.length && v.2.hits vs gs then
        { v.2 with conflict := v.2.conflict ||| (if v.2.gs then 1 else m &&& v.2.lanes) } else v.2) }

/-- Applies the hazard rules to a word about to issue. -/
def applyHazards (e : Env) (w : LaneWord) (en : Entry) (s : State) (g : Group) (wr : List Pend) : State × Group × List Pend :=
  if !en.acts e w then (s, g, wr)
  else
    let wr := if e.junk then wr.flatMap (Pend.freed s g.pos.activity) else wr
    let g := if e.junk then { g with outs := (indexed g.outs).map (fun v =>
      if v.1 < e.g.outs.length then v.2 else v.2.freed s) } else g
    let g := markConflicts e w en g
    let vs := e.stored en.ops true (·.wr)
    let g := { g with loops := (indexed g.loops).map (fun l =>
      if l.1 < e.g.loops.length && l.2.hits vs then { l.2 with spoiled := true } else l.2) }
    let wr := wr.filter (fun p => !(p.kind == .vec && e.g.owned [p.reg] && g.owned [p.reg]))
    (s, g, wr)

/-- The poison of the special registers a word reads: the execute mask, SHAPE of a tile word, and its entry's (10 R300). -/
def specialPoison (e : Env) (w : LaneWord) (en : Entry) : Option (Nat × W64) :=
  ((if en.always then [] else [8]) ++ (if w.tl then [1] else []) ++ en.specs).findSome? (fun r => e.g.spoison.getD r none)

/-- The poison a word reads in its active lanes: cause and FINFO (10 R300). -/
def readPoison (e : Env) (w : LaneWord) (en : Entry) : Option (Nat × W64) :=
  let p := (en.reads.map (· e)).getD (e.poisons (en.ops.filter (·.rd)))
  let m : Lanes := if en.always || (en.reads.isSome && e.mask != 0) then BitVec.allOnes 32 else e.lanes w
  if p.lanes &&& m = 0 then (if en.acts e w then specialPoison e w en else none) else some (p.cause, p.info)

/-- The results of a word that reads a poisoned special register are poisoned (10 R300). -/
def spreadSpecial (e : Env) (w : LaneWord) (en : Entry) (g : Group) (wr : List Pend) : Group × List Pend :=
  match specialPoison e w en with
  | none => (g, wr)
  | some q =>
    let onto (p : Poison) (m : Lanes) : Poison := let r := p.with (some q); { r with lanes := r.lanes &&& m }
    ({ g with outs := (indexed g.outs).map (fun v =>
        if v.1 < e.g.outs.length then v.2 else { v.2 with poison := onto v.2.poison v.2.lanes }) },
     wr.map (fun p => { p with poison := onto p.poison (if p.kind == .vec then p.lanes else 1) }))

/-- Steps 4 to 7 of R251 for one operation, then the debug schedule mode, then the hazards: a cause of the word's own entry comes before
one of the mode. Left to the model: DESIGN CHOICE, log entry 48. -/
def decide4to7 (e : Env) (w : LaneWord) (en : Entry) : Issue :=
  let trap (c : Nat) : Issue := .trap c false 0 e.mask 0
  if !en.form.clean w then trap cRESFIELD
  else if !en.form.typed w then trap cTYPENA
  else match regCheck e.x.n e.x.q en.ops with
    | some c => trap c
    | none =>
      let e := { e with junk := en.acts e w && (e.uncovered en.ops (·.rd) || e.owns en.ops (·.rd)) }
      let seen (g : Group) : Group :=
        if g.pos.poisonRun.isNone then { g with pos := { g.pos with poisonRun := readPoison e w en } } else g
      match en.effect e with
      | .go s g wr =>
        match debugCause e w en with
        | some c => trap c
        | none =>
          let (s, g, wr) := applyHazards e w en s g wr
          let (g, wr) := spreadSpecial e w en g wr
          .go s (seen g) wr
      | .hold s g why =>
        match debugCause e w en with
        | some c => trap c
        | none => .hold s (seen g) why
      | r => r

/-- Puts a write before the first of a list that comes after it. -/
def insertPend (key : Pend → Nat) (p : Pend) : List Pend → List Pend
  | [] => [p]
  | q :: r => if key p < key q then p :: q :: r else q :: insertPend key p r

/-- The writes of one word as its pending entries stand: in ascending register order, the flag update last (10 R281). -/
def orderPend (wr : List Pend) : List Pend :=
  wr.foldl (fun acc p => insertPend (fun q => if q.kind == .flag then 65536 else q.reg) p acc) []

/-- The outcome of a word: a trap, a suspension, or its issue in `n` slots and, where its flags say so, the end of its run. -/
def finishWord (e : Env) (h : Hdr) (n : Nat) (m : Truss) (r : Issue) : State :=
  match r with
  | .trap cause async faddr fmask finfo => laneTrap e.s e.core e.k e.gi cause async true faddr fmask finfo
  | .suspend why => suspendGroup e.s e.core e.k e.gi why
  | .hold s g why => suspendGroup (s.setGroup e.core e.k e.gi g) e.core e.k e.gi why
  | .go s g wr =>
    let g := { g with pos := { g.pos with pend := g.pos.pend ++ orderPend wr, st := .mid, word := g.pos.word + n, slot := g.pos.slot + n } }
    let s := s.setGroup e.core e.k e.gi (g.slots n)
    if h.fin || h.bnd then endRun s e.core e.k e.gi h m else s

/-- Structure checks of a single or paired word (02 R57). -/
def structure1 (g : Group) (h : Hdr) (mustEnd : Bool) : Option Nat :=
  let ends := h.fin || h.bnd
  if mustEnd && !ends then some cPLACEMENT
  else if h.sw && !ends then some cILLFLAGS
  else if 24 ≤ g.pos.slot then some cRUNLEN
  else none

/-- Structure checks of a double: lead and continuation header flags (02 R57). -/
def structure2 (g : Group) (lead cont : Hdr) : Option Nat :=
  if lead.fin || lead.bnd || lead.sw then some cSTRADDLE
  else if cont.sw && !(cont.fin || cont.bnd) then some cILLFLAGS
  else if 24 ≤ g.pos.slot then some cRUNLEN
  else if g.pos.slot = 23 then some cSTRADDLE
  else none

/-- A lane meaning: acts on the acting group. -/
def onGroup (s : State) (f : Env → State) : Out :=
  match s.grp? with
  | some (x, g) => .next (f (Env.of s x g))
  | none => .fault .noGroup

/-- A word-level trap: FMASK is the execute mask (log entry 11). -/
def trapWord (e : Env) (c : Nat) : Issue := .trap c false 0 e.mask 0

/-- A single or literal word. -/
def laneWord (s : State) (w : LaneWord) (mustEnd : Bool) (m : Truss) (en : Env → Entry) : Out :=
  onGroup s (fun e =>
    finishWord e w.hdr 1 m (match structure1 e.g w.hdr mustEnd with
      | some c => trapWord e c
      | none => decide4to7 e w (en e)))

/-- A word of no special placement. -/
def word (s : State) (w : LaneWord) (en : Env → Entry) : Out := laneWord s w false .none en

/-- A double (09 R244): the continuation's KIND and the entry's reserved fields are checked at step 4. -/
def doubleWord (s : State) (w : LaneWord) (y : ContWord) (en : Env → Entry) : Out :=
  onGroup s (fun e =>
    finishWord e y.hdr 2 .none (match structure2 e.g w.hdr y.hdr with
      | some c => trapWord e c
      | none => if y.kind != 3 then trapWord e cRESFIELD else decide4to7 e w (en e)))

/-! ### Starting work -/

/-- Puts back a group whose waits may be over. -/
def unpark (s : State) (c k gi : Nat) : State :=
  if (s.group c k gi).pos.status == .parked then settle s c k gi else s

/-! ### Arbitration (04 R121, R122) -/

/-- The power stop holds in a partition; a RESET of the partition ends it there (01 R26). -/
def powerStopped (s : State) (part : Nat) : Bool := s.stopped && !(s.partition part).any (·.released)

/-- Issue is stopped in a partition: the power stop or a debug halt (01 R26, 10 R298). -/
def issueStopped (s : State) (part : Nat) : Bool := powerStopped s part || (s.partition part).any (·.halted)

def issuing (s : State) (part : Nat) : Bool := !issueStopped s part

/-- A candidate of a lane set: context, group, priority, stamp of entering Eligible, pass count. -/
structure Cand where
  k : Nat
  g : Nat
  prio : Nat
  stamp : Nat
  pass : Nat
  deriving DecidableEq, Repr

def candidates (s : State) (c ls : Nat) : List Cand :=
  (indexed (s.core c).ctxs).flatMap (fun x =>
    if !x.2.resident || x.2.trig.isSome || issueStopped s x.2.part then []
    else (indexed x.2.groups).filterMap (fun g =>
      if g.2.pos.status == .eligible && x.2.laneSet g.1 == ls then
        some { k := x.1, g := g.1, prio := x.2.priority s, stamp := g.2.stamp, pass := g.2.pass } else none))

/-- Whether a beats b in a round of one priority: the longer wait is the smaller stamp.
Left to the model: DESIGN CHOICE, log entry 9. -/
def Cand.beats (a b : Cand) : Bool :=
  let fa := decide (64 ≤ a.pass)
  let fb := decide (64 ≤ b.pass)
  if a.prio != b.prio then decide (b.prio < a.prio)
  else if fa != fb then fa
  else decide (a.stamp < b.stamp) || (a.stamp == b.stamp && (decide (a.k < b.k) || (a.k == b.k && decide (a.g < b.g))))

def winner : List Cand → Option Cand
  | [] => none
  | a :: r => match winner r with
    | none => some a
    | some b => some (if b.beats a then b else a)

/-- A round: the winner runs, the other candidates of its priority count a pass (04 R121). A group that has come Eligible from
Truss-waiting with no run left is at the end of one: it starts its next visible descriptor or goes Waiting (02 R68). -/
def arbitrate (s : State) (c ls : Nat) : State :=
  let cs := candidates s c ls
  match winner cs with
  | none => s
  | some w =>
    let s := cs.foldl (fun s a =>
      if a.prio == w.prio && !(a.k == w.k && a.g == w.g) then s.updGroup c a.k a.g (fun r => { r with pass := r.pass + 1 }) else s) s
    let s := s.updGroup c w.k w.g (fun r => { r with pass := 0, pos := { r.pos with status := .running } })
    if (s.group c w.k w.g).pos.st == .done then settle s c w.k w.g
    else s.updLaneSet c ls (fun l => { l with running := some (w.k, w.g) })

/-! ### Fetching lane words -/

/-- The lane word at an offset from the group's next word. -/
def Env.fetchAt (e : Env) (off : Nat) : Except AFault LaneBits :=
  fetchLane e.s e.x ((e.desc.map (·.block.toNat)).getD 0 + e.g.pos.word + off)

/-- The next instruction of a group: a double takes two words. -/
def Env.nextInstr (e : Env) : Except (AFault × Nat) Instr :=
  match e.fetchAt 0 with
  | .error f => .error (f, 0)
  | .ok w =>
    match decodeLane w none with
    | some i => .ok i
    | none => match e.fetchAt 1 with
      | .error f => .error (f, 1)
      | .ok y => .ok ((decodeLane w (some y)).getD (.illop w))

/-- The fault of a lane fetch (10 R434): the word has not issued. -/
def laneFetchFault (e : Env) (f : AFault) (off : Nat) : State :=
  let i := (e.desc.map (·.block.toNat)).getD 0 + e.g.pos.word + off
  laneTrap e.s e.core e.k e.gi f.cause (softCause f.cause) true (if e.x.priv then 0 else e.x.laneAddr e.s i) e.mask f.finfo

/-- Header flags, slots of the word a group passes over (10 R283); a word that cannot be fetched keeps one slot. -/
def Env.skipShape (e : Env) : Hdr × Nat :=
  match e.fetchAt 0 with
  | .error _ => ({ fin := false, bnd := false, sw := false }, 1)
  | .ok w =>
    if laneKind w = 3 then
      match e.fetchAt 1 with
      | .ok y => (decodeHdr y, 2)
      | .error _ => ({ fin := false, bnd := false, sw := false }, 1)
    else (decodeHdr w, 1)

/-- The group's next word is passed over as issued with no effect, and keeps its slot (10 R283).
Left to the model: DEDUCED, log entry 10. -/
def passOver (s : State) (c k gi : Nat) : State :=
  let cur := s.cur
  let s := { s with cur := { core := c, ctx := k, group := gi } }
  let x := s.ctx c k
  let e := Env.of s x (x.group gi)
  let (h, n) := e.skipShape
  { finishWord e h n .none (.go e.s e.g []) with cur := cur }

/-! ### The return from a routine (10 R282, R283, R291, R294) -/

/-- A freeze for an asynchronous cause of the team's frozen work, taken before any group issues (R278).
Left to the model: DEDUCED, log entry 13. -/
def takeHeld (s : State) (c k : Nat) : State :=
  let x := s.ctx c k
  if x.trig.isSome then s
  else if x.pendPreempt then
    s.setCtx c k { x with pendPreempt := false, trig := some {
      cause := cPREEMPT, lane := false, group := 0, async := false, preempt := true, skippable := false, epc := x.pc,
      faddr := 0, fmask := 0, finfo := 0 } }
  else match x.held with
    | [] => s
    | h :: r => raiseAsync (s.setCtx c k { x with held := r }) c k h

/-- The effect of an ERET whose routine's descriptors have completed. -/
def finishEret (s : State) (c k : Nat) (f : Frozen) : State :=
  let x := s.ctx c k
  let restoring := x.mode == .restore
  let keep := (x.img s).keep
  let base := s.stamp
  let back (g : Nat) (r : Group) : Group :=
    let old := f.groups.getD g r
    let r := (r.cover s).reinstall old (f.pcs.getD g GroupPos.fresh) (base + g)
    let r := { r with rstores := r.rstores.map (fun st => { st with frozen := false }) }
    if restoring then r.restoreExt old keep else r
  let s := if restoring then restoreCore s c x f else s
  let s := s.setCtx c k { x with
    strm := f.stream, trigger := f.trigger, staint := f.staint, pc := x.epc, mode := .user, frozen := none, wait := none,
    held := x.held ++ (if restoring then recordedFaults f k else []),
    groups := (indexed x.groups).map (fun g => back g.1 g.2) }
  let s := { s with stamp := base + x.groups.length }
  let s := requeuePops s c k
  let s := if restoring then resumeTruss s c k f else s
  let s := if skipsWord x f.trig f.trig.group then passOver s c k f.trig.group else s
  takeHeld s c k

/-- The routine's work is over: its descriptors have completed, its results are written, its pushes have entered and its spawn
records are accepted (10 R282, 17 R428). -/
def routineDone (x : Ctx) : Bool :=
  x.strm.blockQ.isEmpty && x.groups.all (fun g => g.outs.all (·.written) && g.pos.pushes.isEmpty && g.spawnPend.isEmpty)

/-- ERET (10 R282): it waits for the routine's work, passed over by the control core meanwhile (04 R120).
Left to the model: DEDUCED, log entry 14. -/
def execEret (s : State) : Out :=
  onCtx s (fun x =>
    match x.frozen with
    | none => trapHere s x cERETNONE
    | some f => if routineDone x then finishEret s s.cur.core s.cur.ctx f else waitIn s x .eret)

/-- What an agent's turn does: a state with nothing to execute, or an instruction of the acting agent. -/
inductive Move where
  | idle (s : State)
  | run (s : State) (i : Instr)

/-- A lane set's turn: a round where no group runs, else the running group's next word. -/
def laneTurn (s : State) (c ls : Nat) : Move :=
  match (s.laneSetAt c ls).running with
  | none => .idle (arbitrate s c ls)
  | some (k, gi) =>
    let x := s.ctx c k
    if issueStopped s x.part then .idle s
    else
      let s := { s with cur := { core := c, ctx := k, group := gi } }
      let e := Env.of s x (x.group gi)
      match e.nextInstr with
        | .ok i => .run s i
        | .error (f, off) => .idle (laneFetchFault e f off)

end Sys2Proof.Machine
end

