-- ==== Sys2Proof/Machine/LaneInt.lean ====
section
/-! DEFINITION. Elementwise lane words: the integer group (14 R395, R396), the unary group (R393, R394), bit fields (R401, R402),
comparisons (R403, 12 R360, R361), floating point (R355-R359, R364, R365) and conversions (R362, R363, 13 R376, R377,
ACVT 12 R340, R341). -/

namespace Sys2Proof.Machine

/-! ### The elementwise scheme -/

/-- An elementwise result: the stored pattern (32 or 64 bits) and the flags raised. -/
abbrev Res := Nat × W32

/-- One element's inputs: the values of A, B and C as patterns, and the lane. -/
structure Inp where
  a : Nat
  b : Nat
  c : Nat
  lane : Nat

/-- The shape of an elementwise word: whether A, B, C are vector sources, whether C is a group scalar, whether operands are
pairs, its latency, whether its exceptions may trap, and whether A is read with its extension. -/
structure Shape where
  useA : Bool
  useB : Bool
  useC : Bool
  selC : Bool
  wide : Bool
  lat : Nat
  traps : Bool
  ext : Bool := false

def Shape.opA (e : Env) (w : LaneWord) (h : Shape) : List Opd := if h.useA then [e.tile w (Opd.vr w.a h.wide) w.sa] else []
def Shape.opB (e : Env) (w : LaneWord) (h : Shape) : List Opd :=
  if h.useB && !w.lit then [e.tile w (Opd.vr w.b h.wide) w.sb] else []
def Shape.opC (e : Env) (w : LaneWord) (h : Shape) : List Opd :=
  if h.useC then [e.tile w (Opd.vr w.c h.wide) w.sc] else if h.selC then [Opd.gr w.c false] else []
def Shape.opD (e : Env) (w : LaneWord) (h : Shape) : Opd := e.tileD w (Opd.vw w.d h.wide)

def Shape.sources (e : Env) (w : LaneWord) (h : Shape) : List Opd := h.opA e w ++ h.opB e w ++ h.opC e w

/-- The literal as a source: Sext for I64, Zext for N64, else its 32 bits (09 R243). -/
def litVal (w : LaneWord) (wide : Bool) : Nat :=
  if wide && w.ty == 10 then (w.x.signExtend 64).toNat else w.x.toNat

/-- The inputs of row r, lane i. -/
def Shape.inputs (e : Env) (w : LaneWord) (h : Shape) (r i : Nat) : Inp :=
  let at_ (k : BitVec 8) (st : BitVec 3) : Nat := e.val (k.toNat + r * st.toNat) i h.wide
  { a := if h.ext then (e.elem (w.a.toNat + r * w.sa.toNat) i).toNat else if h.useA then at_ w.a w.sa else 0,
    b := if w.lit then litVal w h.wide else if h.useB then at_ w.b w.sb else 0,
    c := if h.useC then at_ w.c w.sc else if h.selC then (e.gval w.c).toNat else 0,
    lane := i }

/-- Floating-point exceptions over a word's elements: the union of the flags, or the trap of R132 with the mask of the
lanes that raised its cause. -/
def fpOutcome (e : Env) (traps : Bool) (raised : List (Nat × W32)) : W32 ⊕ (Nat × Lanes) :=
  let all := raised.foldl (fun (m : W32) p => m ||| p.2) 0
  if e.junk || !traps then .inl all
  else match enabledCause e.g.gstat all with
    | none => .inl all
    | some (cause, b) =>
      .inr (cause, raised.foldl (fun (m : Lanes) p => if p.2 &&& b = 0 then m else putBit m p.1 true) 0)

/-- The effect of an elementwise word: each active lane of each row gets `f` of its inputs. -/
def elementwise (w : LaneWord) (h : Shape) (f : Env → Inp → Res) (e : Env) : Issue :=
  let m := e.lanes w
  let rows := (List.range (e.rows w)).map (fun r => (r, (List.range 32).map (fun i =>
    if m.getLsbD i then f e (h.inputs e w r i) else (0, 0))))
  let raised := rows.flatMap (fun r => indexed (r.2.map (·.2)))
  match fpOutcome e h.traps raised with
  | .inr (cause, fm) => .trap cause false 0 fm 0
  | .inl fl =>
    let src := h.sources e w
    let wr := rows.flatMap (fun r =>
      let ops := src.map (fun o => o.row r.1)
      e.write (w.d.toNat + r.1) h.lat h.wide m (r.2.map (·.1)) (e.taints ops) (e.poisons ops))
    .go e.s e.g (wr ++ Pend.flags h.lat fl)

/-- An elementwise word's entry. -/
def elementEntry (w : LaneWord) (form : Form) (h : Shape) (f : Env → Inp → Res) (e : Env) : Entry :=
  { form := form, ops := h.opD e w :: h.sources e w, always := false, effect := elementwise w h f }

/-! ### Integer group (14 R395, R396) -/

inductive IntOp where
  | add | sub | mul | mulh | mad | and | or | xor | andn | shl | shr | sra | min | max | sel | mov
  deriving DecidableEq, Repr

def IntOp.saturates : IntOp → Bool
  | .add | .sub | .mul | .mad | .shl => true
  | _ => false

def IntOp.lat : IntOp → Nat
  | .mul | .mulh | .mad => Config.latMul
  | _ => Config.latInt

def IntOp.shape (o : IntOp) (w : LaneWord) : Shape :=
  { useA := o != .mov, useB := true, useC := o == .mad, selC := o == .sel, wide := tyWide w.ty.toNat, lat := o.lat, traps := false }

def IntOp.form (o : IntOp) : Form :=
  { Form.blank with
    d := true, a := o != .mov, b := true, c := o == .mad || o == .sel, ty := tysInt,
    md := if o.saturates then [0, 4] else [0], tile := true, sa := o != .mov, sb := true, sc := o == .mad, lit := true }

/-- The exact result of R396 before its reduction. -/
def IntOp.exact (o : IntOp) (wd : Nat) (sg : Bool) (p : Inp) : Int :=
  let a := intOf wd sg p.a
  let b := intOf wd sg p.b
  let ua := p.a % 2 ^ wd
  let ub := p.b % 2 ^ wd
  let k := ub % 64
  match o with
  | .add => a + b
  | .sub => a - b
  | .mul => a * b
  | .mulh => (a * b) / 2 ^ wd
  | .mad => a * b + intOf wd sg p.c
  | .and => (ua &&& ub : Nat)
  | .or => (ua ||| ub : Nat)
  | .xor => (ua ^^^ ub : Nat)
  | .andn => (ua &&& (ub ^^^ (2 ^ wd - 1)) : Nat)
  | .shl => a * 2 ^ k
  | .shr => (ua / 2 ^ k : Nat)
  | .sra => intOf wd true p.a / 2 ^ k
  | .min => if b < a then b else a
  | .max => if a < b then b else a
  | .sel => if p.c.testBit p.lane then a else b
  | .mov => b

def IntOp.res (o : IntOp) (w : LaneWord) (p : Inp) : Res :=
  let ty := w.ty.toNat
  (intPattern ty (reduceInt (tyBits ty) (tySigned ty) (w.md == 4) (o.exact (tyBits ty) (tySigned ty) p)), 0)

def intEntry (o : IntOp) (w : LaneWord) (e : Env) : Entry := elementEntry w o.form (o.shape w) (fun _ p => o.res w p) e

def execVadd (w : LaneWord) (s : State) : Out := word s w (intEntry .add w)
def execVsub (w : LaneWord) (s : State) : Out := word s w (intEntry .sub w)
def execVmul (w : LaneWord) (s : State) : Out := word s w (intEntry .mul w)
def execVmulh (w : LaneWord) (s : State) : Out := word s w (intEntry .mulh w)
def execVmad (w : LaneWord) (s : State) : Out := word s w (intEntry .mad w)
def execVand (w : LaneWord) (s : State) : Out := word s w (intEntry .and w)
def execVor (w : LaneWord) (s : State) : Out := word s w (intEntry .or w)
def execVxor (w : LaneWord) (s : State) : Out := word s w (intEntry .xor w)
def execVandn (w : LaneWord) (s : State) : Out := word s w (intEntry .andn w)
def execVshl (w : LaneWord) (s : State) : Out := word s w (intEntry .shl w)
def execVshr (w : LaneWord) (s : State) : Out := word s w (intEntry .shr w)
def execVsra (w : LaneWord) (s : State) : Out := word s w (intEntry .sra w)
def execVmin (w : LaneWord) (s : State) : Out := word s w (intEntry .min w)
def execVmax (w : LaneWord) (s : State) : Out := word s w (intEntry .max w)
def execVsel (w : LaneWord) (s : State) : Out := word s w (intEntry .sel w)
def execVmov (w : LaneWord) (s : State) : Out := word s w (intEntry .mov w)

/-! ### Unary group (14 R393, R394) -/

inductive UnOp where
  | abs | neg | clz | popc
  deriving DecidableEq, Repr

def UnOp.exact (o : UnOp) (wd : Nat) (sg : Bool) (a : Nat) : Int :=
  match o with
  | .abs => (intOf wd sg a).natAbs
  | .neg => -(intOf wd sg a)
  | .clz => (wd - bitLen (a % 2 ^ wd) : Nat)
  | .popc => popcount (BitVec.ofNat wd a)

def unShape (w : LaneWord) (wide : Bool) (lat : Nat) (traps : Bool) : Shape :=
  { useA := true, useB := false, useC := false, selC := false, wide := wide && tyWide w.ty.toNat, lat := lat, traps := traps }

def unForm (tys md : List Nat) : Form := { Form.blank with d := true, a := true, ty := tys, md := md, tile := true, sa := true }

def unEntry (o : UnOp) (w : LaneWord) (e : Env) : Entry :=
  elementEntry w (unForm tysInt (if o == .abs || o == .neg then [0, 4] else [0])) (unShape w true Config.latInt false)
    (fun _ p =>
      let ty := w.ty.toNat
      (intPattern ty (reduceInt (tyBits ty) (tySigned ty) (w.md == 4) (o.exact (tyBits ty) (tySigned ty) p.a)), 0)) e

def execVabs (w : LaneWord) (s : State) : Out := word s w (unEntry .abs w)
def execVneg (w : LaneWord) (s : State) : Out := word s w (unEntry .neg w)
def execVclz (w : LaneWord) (s : State) : Out := word s w (unEntry .clz w)
def execVpopc (w : LaneWord) (s : State) : Out := word s w (unEntry .popc w)

/-! ### Bit fields (14 R401, R402) -/

/-- The specification's position and length. -/
def bfSpec (b : Nat) : Nat × Nat := (b % 32, min (b / 256 % 64) 32)

def bfExtract (signed : Bool) (a b : Nat) : Nat :=
  let (p, len) := bfSpec b
  let f := a / 2 ^ p % 2 ^ len
  if len = 0 then 0 else if signed then (intOf len true f % 2 ^ 32).toNat else f

def bfInsert (a b c : Nat) : Nat :=
  let (p, len) := bfSpec b
  let m := ((2 ^ len - 1) * 2 ^ p) % 2 ^ 32
  (c &&& (m ^^^ (2 ^ 32 - 1))) ||| ((a * 2 ^ p) &&& m)

def bfForm (insert : Bool) : Form :=
  { Form.blank with d := true, a := true, b := true, c := insert, ty := [0, 1], tile := true, sa := true, sb := true,
                    sc := insert, lit := true }

def bfShape (insert : Bool) : Shape :=
  { useA := true, useB := true, useC := insert, selC := false, wide := false, lat := Config.latInt, traps := false }

def execVbfx (w : LaneWord) (s : State) : Out :=
  word s w (elementEntry w (bfForm false) (bfShape false) (fun _ p => (bfExtract (w.ty == 0) p.a p.b, 0)))

def execVbfi (w : LaneWord) (s : State) : Out :=
  word s w (elementEntry w (bfForm true) (bfShape true) (fun _ p => (bfInsert p.a p.b p.c, 0)))

/-! ### Floating point (12 R355-R359, R364, R365) -/

/-- A 32-bit element read as a floating type. -/
def readFp (ty : Nat) (v : Nat) : FVal := (tyFmt ty).read (v % 2 ^ tyBits ty)

def Fp.sat (w : LaneWord) : Bool := bit w.md 2

inductive FpOp where
  | add | sub | mul | fma | min | max
  deriving DecidableEq, Repr

def FpOp.res (o : FpOp) (w : LaneWord) (p : Inp) : Res :=
  let ty := w.ty.toNat
  let f := tyFmt ty
  let r := Round.ofMod w.md
  let a := readFp ty p.a
  let b := readFp ty p.b
  let out (v : FVal × W32) : Res := f.write r (Fp.sat w) v.1 v.2
  match o with
  | .add => out (a.add r b)
  | .sub => out (a.add r b.neg)
  | .mul => out (a.mul b)
  | .fma =>
    let c := readFp ty p.c
    let (m, f1) := a.mul b
    let (v, f2) := m.add r c
    out (v, f1 ||| f2 ||| (if a.sig || b.sig || c.sig then fNV else 0))
  | .min => out (a.minmax false b)
  | .max => out (a.minmax true b)

def fpEntry (o : FpOp) (w : LaneWord) (e : Env) : Entry :=
  elementEntry w
    { Form.blank with d := true, a := true, b := true, c := o == .fma, ty := tysFloat,
                      md := if o == .min || o == .max then [0] else [0, 1, 2, 3, 4, 5, 6, 7],
                      tile := true, sa := true, sb := true, sc := o == .fma, lit := true }
    { useA := true, useB := true, useC := o == .fma, selC := false, wide := false, lat := Config.latFloat, traps := true }
    (fun _ p => o.res w p) e

def execFadd (w : LaneWord) (s : State) : Out := word s w (fpEntry .add w)
def execFsub (w : LaneWord) (s : State) : Out := word s w (fpEntry .sub w)
def execFmul (w : LaneWord) (s : State) : Out := word s w (fpEntry .mul w)
def execFfma (w : LaneWord) (s : State) : Out := word s w (fpEntry .fma w)
def execFmin (w : LaneWord) (s : State) : Out := word s w (fpEntry .min w)
def execFmax (w : LaneWord) (s : State) : Out := word s w (fpEntry .max w)

/-- FABS and FNEG touch the sign bit only (12 R356). -/
def signEntry (neg : Bool) (w : LaneWord) (e : Env) : Entry :=
  elementEntry w (unForm tysFloat [0]) (unShape w false Config.latFloat false) (fun _ p =>
    let n := tyBits w.ty.toNat
    let v := p.a % 2 ^ n
    (if neg then v ^^^ 2 ^ (n - 1) else v % 2 ^ (n - 1), 0)) e

def execFabs (w : LaneWord) (s : State) : Out := word s w (signEntry false w)
def execFneg (w : LaneWord) (s : State) : Out := word s w (signEntry true w)

/-- The transcendental group (12 R364, R365). -/
def transEntry (t : Trans) (w : LaneWord) (e : Env) : Entry :=
  elementEntry w (unForm tysFloat [0, 4]) (unShape w false Config.latTrans true) (fun _ p =>
    (tyFmt w.ty.toNat).trans t (Fp.sat w) (readFp w.ty.toNat p.a)) e

def execFrcp (w : LaneWord) (s : State) : Out := word s w (transEntry .rcp w)
def execFrsq (w : LaneWord) (s : State) : Out := word s w (transEntry .rsq w)
def execFexp2 (w : LaneWord) (s : State) : Out := word s w (transEntry .exp2 w)
def execFlog2 (w : LaneWord) (s : State) : Out := word s w (transEntry .log2 w)

/-! ### Comparisons (14 R403, 12 R360, R361) -/

/-- FCMP's condition and invalid flag. -/
def fpCond (md : Nat) (a b : FVal) : Bool × W32 :=
  let un := a.isNan || b.isNan
  let c := a.cmp b
  let quiet : W32 := if a.sig || b.sig then fNV else 0
  let loud : W32 := if un then fNV else 0
  match md with
  | 0 => (!un && c == .eq, quiet)
  | 1 => (un || c != .eq, quiet)
  | 2 => (!un && c == .lt, loud)
  | 3 => (!un && c != .gt, loud)
  | 4 => (!un && c == .gt, loud)
  | 5 => (!un && c != .lt, loud)
  | 6 => (!un, quiet)
  | _ => (un, quiet)

/-- VCMP's condition. -/
def intCond (md : Nat) (a b : Int) : Bool :=
  match md with
  | 0 => decide (a = b)
  | 1 => decide (a ≠ b)
  | 2 => decide (a < b)
  | 3 => decide (a ≤ b)
  | 4 => decide (b < a)
  | _ => decide (b ≤ a)

/-- A comparison: bits of the active lanes whose condition holds, to g[D] (12 R361). -/
def cmpEntry (w : LaneWord) (tys md : List Nat) (traps : Bool) (f : Nat → Nat → Bool × W32) (e : Env) : Entry :=
  let h : Shape := { useA := true, useB := true, useC := false, selC := false, wide := tyWide w.ty.toNat,
                     lat := Config.latFloat, traps := traps }
  { form := { Form.blank with d := true, a := true, b := true, ty := tys, md := md, lit := true,
                              values := decide (4 ≤ w.d.toNat) },
    ops := Opd.gw w.d false :: h.sources e w, always := false,
    effect := fun e =>
      let rs := e.act.map (fun i => (i, let p := h.inputs e w 0 i; f p.a p.b))
      match fpOutcome e traps (rs.map (fun r => (r.1, r.2.2))) with
      | .inr (cause, fm) => .trap cause false 0 fm 0
      | .inl fl =>
        let m := rs.foldl (fun (m : W32) r => if r.2.1 then putBit m r.1 true else m) 0
        let src := h.sources e w
        let p := e.poisons src
        let p := if p.lanes &&& e.mask = 0 then Poison.none else p
        .go e.s e.g ((if e.mask = 0 then [] else [Pend.gsw (e.gmap w.d.toNat) h.lat m (e.taints src) p]) ++ Pend.flags h.lat fl) }

def execVcmp (w : LaneWord) (s : State) : Out :=
  let ty := w.ty.toNat
  word s w (cmpEntry w tysInt [0, 1, 2, 3, 4, 5] false (fun a b =>
    (intCond w.md.toNat (intOf (tyBits ty) (tySigned ty) a) (intOf (tyBits ty) (tySigned ty) b), 0)))

def execFcmp (w : LaneWord) (s : State) : Out :=
  let ty := w.ty.toNat
  word s w (cmpEntry w tysFloat [0, 1, 2, 3, 4, 5, 6, 7] true (fun a b => fpCond w.md.toNat (readFp ty a) (readFp ty b)))

/-! ### Conversions (05 R134, 12 R362, R363, 13 R376, R377) -/

/-- FMT's scales (05 R143). -/
def fmtEA (fmt : W32) : Int := intOf 6 true (fld fmt 18 6).toNat
def fmtEB (fmt : W32) : Int := intOf 6 true (fld fmt 12 6).toNat

/-- An element read as a type 0x0-0x8 as a value. -/
def readVal (ty : Nat) (v : Nat) : FVal :=
  if tyFloat ty then readFp ty v else FVal.ofInt (intOf (tyBits ty) (tySigned ty) v)

/-- FCVT's result. -/
def fcvtRes (dst src : Nat) (r : Round) (sat : Bool) (v : Nat) : Res :=
  let x := readVal src v
  if tyFloat dst then (tyFmt dst).write r sat x (if x.sig then fNV else 0)
  else
    let (k, fl) := toInt r (tyBits dst) (tySigned dst) x
    (intPattern dst k, fl)

def cvtForm (w : LaneWord) (tys md : List Nat) (pair : Bool) : Form :=
  { unForm tys md with x := 0xF, pair := pair && !(decide (12 ≤ (fld w.x 0 4).toNat)) }

def fcvtEntry (w : LaneWord) (e : Env) : Entry :=
  let src := (fld w.x 0 4).toNat
  let dst := w.ty.toNat
  elementEntry w (cvtForm w [0, 1, 2, 3, 4, 5, 6, 7, 8] [0, 1, 2, 3, 4, 5, 6, 7] (decide (src ≤ 8) && (tyFloat src || tyFloat dst)))
    (unShape w false Config.latFloat true) (fun _ p => fcvtRes dst src (Round.ofMod w.md) (Fp.sat w) p.a) e

def execFcvt (w : LaneWord) (s : State) : Out := word s w (fcvtEntry w)

def lcvtEntry (w : LaneWord) (e : Env) : Entry :=
  let src := (fld w.x 0 4).toNat
  let dst := w.ty.toNat
  let pair := (dst == 9 && decide (src ≤ 8)) || (src == 9 && tyFloat dst)
  { elementEntry w (cvtForm w [6, 7, 8, 9] (if dst = 9 then [0, 4] else [0, 1, 2, 3, 4, 5, 6, 7]) pair)
    (unShape w false Config.latFloat true) (fun e p =>
      if dst = 9 then toL6 (readVal src p.a) (fmtEA e.g.fmt)
      else (tyFmt dst).write (Round.ofMod w.md) (Fp.sat w) (l6Value (p.a % 64) (fmtEA e.g.fmt)) 0) e with specs := [0] }

def execLcvt (w : LaneWord) (s : State) : Out := word s w (lcvtEntry w)

/-! ### Accumulators: ACVT (05 R144, R145, 12 R340, R341) -/

/-- The rows of R144. -/
inductive Product where
  | l6 | int8 | bf16
  deriving DecidableEq, Repr

/-- The row FMT matches. -/
def productOf (fmt : W32) : Option Product :=
  let a := (fld fmt 28 4).toNat
  let b := (fld fmt 24 4).toNat
  let v := (fld fmt 8 4).toNat
  if a = 9 ∧ b = 9 ∧ v = 13 then some .l6
  else if (a = 4 ∨ a = 5) ∧ (b = 4 ∨ b = 5) ∧ v = 13 then some .int8
  else if a = 8 ∧ b = 8 ∧ v = 12 then some .bf16
  else none

/-- The value of a 36-bit element under a row's view. -/
def accValue (p : Product) (v : Nat) : FVal :=
  match p with
  | .bf16 => Fmt.f36.read v
  | .l6 => let x := intOf 36 true v; .fin (decide (x < 0)) x.natAbs (-14)
  | .int8 => let x := intOf 36 true v; .fin (decide (x < 0)) x.natAbs 0

/-- ACVT of a value: flags are sticky only, and a NaN that becomes the canonical NaN raises none.
Left to the model: DESIGN CHOICE, log entry 48. -/
def acvtRes (ty : Nat) (md : BitVec 3) (scale : Int) (x : FVal) : Res :=
  if ty = 9 then toL6 x scale
  else if ty = 0 then
    match x with
    | .nan _ => (0, fNV)
    | .inf n => (intPattern 0 (if n then intLow 32 true else intHigh 32 true), fACCSAT)
    | .fin n m e =>
      let k := (roundInt (Round.ofMod md) n m e).1
      let y := clampInt (intLow 32 true) (intHigh 32 true) k
      (intPattern 0 y, if y = k then 0 else fACCSAT)
  else (tyFmt ty).write (Round.ofMod md) (bit md 2) x 0

def acvtEntry (w : LaneWord) (e : Env) : Entry :=
  let ty := w.ty.toNat
  let h := { unShape w false Config.latAcvt false with ext := true }
  { form := unForm [0, 6, 8, 9] (if ty = 9 then [0, 4] else [0, 1, 2, 3, 4, 5, 6, 7]),
    ops := h.opD e w :: h.sources e w, always := false, specs := [0], ownCheck := true,
    effect := fun e =>
      match productOf e.g.fmt with
      | none => trapWord e cFMTTYPE
      | some p => elementwise w h (fun e i => acvtRes ty w.md (fmtEA e.g.fmt) (accValue p i.a)) e }

def execAcvt (w : LaneWord) (s : State) : Out := word s w (acvtEntry w)

end Sys2Proof.Machine
end

