-- ==== Sys2Proof/Machine/LaneGroup.lean ====
section
/-! DEFINITION. Group scalar words (13 R366-R368), the execute mask and returns (12 R353, R354, 14 R385), cross-lane words
(14 R399, R400, 15 R411-R418, 13 R374, R375), special registers (09 R249, 14 R388, R390, R391, 06 R171, 15 R422, R423),
VNOP, VBRK, VTRAP and unassigned words (15 R410, R419, 10 R288, 09 R251). -/

namespace Sys2Proof.Machine

/-- Writes of a word that acts only under a non-zero execute mask (02 R52). -/
def underMask (e : Env) (wr : List Pend) : Issue := .go e.s e.g (if e.mask = 0 then [] else wr)

/-! ### Group scalars -/

inductive GOp where
  | add | sub | and | or | xor | andn | shl | shr | mov | popc | first
  deriving DecidableEq, Repr

def GOp.useA (o : GOp) : Bool := o != .mov
def GOp.useB (o : GOp) : Bool := o != .popc && o != .first

/-- R367. -/
def GOp.res (o : GOp) (signed : Bool) (a b : W32) : W32 :=
  match o with
  | .add => a + b
  | .sub => a - b
  | .and => a &&& b
  | .or => a ||| b
  | .xor => a ^^^ b
  | .andn => a &&& ~~~b
  | .shl => a.shiftLeft (b.toNat % 32)
  | .shr => if signed then a.sshiftRight (b.toNat % 32) else a.ushiftRight (b.toNat % 32)
  | .mov => b
  | .popc => BitVec.ofNat 32 (popcount a)
  | .first => BitVec.ofNat 32 (((List.range 32).find? (fun i => a.getLsbD i)).getD 32)

def gEntry (o : GOp) (w : LaneWord) (_ : Env) : Entry :=
  let src := (if o.useA then [Opd.gr w.a false] else []) ++ (if o.useB && !w.lit then [Opd.gr w.b false] else [])
  { form := { Form.blank with d := true, a := o.useA, b := o.useB, ty := [0, 1], lit := o.useB },
    ops := Opd.gw w.d false :: src, always := false,
    effect := fun e =>
      let b := if w.lit then w.x else e.gval w.b
      underMask e [Pend.gsw (e.gmap w.d.toNat) Config.latScalar (o.res (w.ty == 0) (e.gval w.a) b) (e.taints src) (e.poisons src)] }

def execGadd (w : LaneWord) (s : State) : Out := word s w (gEntry .add w)
def execGsub (w : LaneWord) (s : State) : Out := word s w (gEntry .sub w)
def execGand (w : LaneWord) (s : State) : Out := word s w (gEntry .and w)
def execGor (w : LaneWord) (s : State) : Out := word s w (gEntry .or w)
def execGxor (w : LaneWord) (s : State) : Out := word s w (gEntry .xor w)
def execGandn (w : LaneWord) (s : State) : Out := word s w (gEntry .andn w)
def execGshl (w : LaneWord) (s : State) : Out := word s w (gEntry .shl w)
def execGshr (w : LaneWord) (s : State) : Out := word s w (gEntry .shr w)
def execGmov (w : LaneWord) (s : State) : Out := word s w (gEntry .mov w)
def execGpopc (w : LaneWord) (s : State) : Out := word s w (gEntry .popc w)
def execGfirst (w : LaneWord) (s : State) : Out := word s w (gEntry .first w)

/-! ### Execute mask and returns -/

/-- EXMSET acts whatever the execute mask holds (12 R354). -/
def execExmset (w : LaneWord) (s : State) : Out :=
  word s w (fun _ => {
    form := { Form.blank with a := true }, ops := [Opd.gr w.a false], always := true,
    effect := fun e => .go e.s e.g [Pend.special 8 1 ((e.g.pos.activity &&& e.gval w.a).zeroExtend 64) (e.poisonOf (Opd.gr w.a false))] })

/-- PRET (14 R385, 02 R53): the first one of a return-flagged descriptor delivers. The work of its release (18 R430) holds back the
RPOP that takes the words. -/
def execPret (w : LaneWord) (s : State) : Out :=
  word s w (fun _ => {
    form := { Form.blank with a := true }, ops := [Opd.gr w.a false], always := true,
    effect := fun e =>
      if e.g.pos.delivered || !(e.desc.any (·.ret)) then .go e.s e.g []
      else
        let v : W32 := if e.junk then fld (e.s.free 10 0) 0 32 else e.gval w.a
        let p := e.poisonOf (Opd.gr w.a false)
        .go (deliverWord e.s e.core e.k e.gi e.g.pos.seq (v &&& e.g.pos.activity) (if p.lanes = 0 then none else some (p.cause, p.info)))
          { e.g with pos := { e.g.pos with delivered := true } } [] })

/-! ### Cross-lane words -/

/-- A scalar's poison from a vector source. -/
def Poison.scalar (p : Poison) (m : Lanes) : Poison := if p.lanes &&& m = 0 then Poison.none else p

/-- VOTE (15 R411, R412). -/
def voteResult (md : Nat) (mask : Lanes) (vals : List (Nat × Nat)) : W32 :=
  let b := vals.foldl (fun (m : W32) v => if v.2 = 0 then m else putBit m v.1 true) 0
  match md with
  | 0 => b
  | 1 => if b = 0 then 0 else 1
  | 2 => if b = mask then 1 else 0
  | _ => if vals.all (fun v => v.2 == (vals.headD (0, 0)).2) then 1 else 0

def execVote (w : LaneWord) (s : State) : Out :=
  word s w (fun _ => {
    form := { Form.blank with d := true, a := true, md := [0, 1, 2, 3], values := decide (4 ≤ w.d.toNat) },
    ops := [Opd.gw w.d false, Opd.vr w.a false], always := false,
    effect := fun e =>
      let src := Opd.vr w.a false
      underMask e [Pend.gsw (e.gmap w.d.toNat) Config.latCross
        (voteResult w.md.toNat e.mask (e.act.map (fun i => (i, e.val w.a.toNat i false)))) (e.taintOf src)
        ((e.poisonOf src).scalar e.mask)] })

/-- The source lane of VSHFL (15 R418). -/
def shflSource (mode k : Nat) (idx i : Nat) : Nat :=
  match mode with
  | 0 => idx % 32
  | 1 => i ^^^ k
  | 2 => if k ≤ i then i - k else i
  | _ => if i + k ≤ 31 then i + k else i

/-- The poison of a cross-lane result: lane i's is that of the lane it comes from (10 R300). -/
def Poison.moved (p : Poison) (m : Lanes) (f : Nat → Nat) : Poison :=
  let l : Lanes := (lanesOf m).foldl (fun (l : Lanes) i => if p.lanes.getLsbD (f i) then putBit l i true else l) 0
  if l = 0 then Poison.none else { p with lanes := l }

def execVshfl (w : LaneWord) (s : State) : Out :=
  let mode := (fld w.x 0 2).toNat
  let wide := tyWide w.ty.toNat
  let lane (e : Env) (i : Nat) : Nat := shflSource mode (fld w.x 8 5).toNat (e.val w.b.toNat i false) i
  let bad (e : Env) : Poison :=
    ((e.poisonOf (Opd.vr w.a wide)).moved e.mask (lane e)).join
      (if mode = 0 then (e.poisonOf (Opd.vr w.b false)).moved e.mask id else Poison.none)
  let src := Opd.vr w.a wide :: (if mode = 0 then [Opd.vr w.b false] else [])
  word s w (fun _ => {
    form := { Form.blank with d := true, a := true, b := decide (mode = 0), ty := [0, 10], x := if mode = 0 then 0x3 else 0x1F03 },
    ops := Opd.vw w.d wide :: src, always := false,
    reads := some bad,
    effect := fun e =>
      let t := onLanes e.mask (fun i => e.val w.a.toNat (lane e i) wide)
      .go e.s e.g (e.write w.d.toNat Config.latCross wide e.mask t (e.taints src) (bad e)) })

def execVbcast (w : LaneWord) (s : State) : Out :=
  let wide := tyWide w.ty.toNat
  let imm : Bool := w.b == 0
  let src := Opd.vr w.a wide :: (if imm then [] else [Opd.gr w.b false])
  let lane (e : Env) : Nat := if imm then (fld w.x 0 5).toNat else (e.gval w.b).toNat % 32
  let bad (e : Env) : Poison :=
    ((e.poisonOf (Opd.vr w.a wide)).moved e.mask (fun _ => lane e)).join
      (if imm then Poison.none else (e.poisonOf (Opd.gr w.b false)).moved e.mask id)
  word s w (fun _ => {
    form := { Form.blank with d := true, a := true, b := true, ty := [0, 10], x := if imm then 0x1F else 0 },
    ops := Opd.vw w.d wide :: src, always := false,
    reads := some bad,
    effect := fun e =>
      .go e.s e.g (e.write w.d.toNat Config.latCross wide e.mask (onLanes e.mask (fun _ => e.val w.a.toNat (lane e) wide)) (e.taints src)
        (bad e)) })

/-- A node of a reduction on stored patterns (15 R414). -/
def redNode (op ty : Nat) (md : BitVec 3) (a b : Nat) : Res :=
  if tyFloat ty then
    let f := tyFmt ty
    let x := readFp ty a
    let y := readFp ty b
    let v := match op with
      | 0 => x.add (Round.ofMod md) y
      | 1 => x.minmax false y
      | _ => x.minmax true y
    f.write (Round.ofMod md) (bit md 2) v.1 v.2
  else
    let wd := tyBits ty
    let sg := tySigned ty
    let x := intOf wd sg a
    let y := intOf wd sg b
    let ua := a % 2 ^ wd
    let ub := b % 2 ^ wd
    (match op with
     | 0 => intPattern ty (reduceInt wd sg (md == 4) (x + y))
     | 1 => intPattern ty (if y < x then y else x)
     | 2 => intPattern ty (if x < y then y else x)
     | 3 => storePattern ty (ua &&& ub)
     | 4 => storePattern ty (ua ||| ub)
     | _ => storePattern ty (ua ^^^ ub), 0)

/-- The identity an inactive lane contributes (15 R414). -/
def redIdentity (op ty : Nat) : Nat :=
  if tyFloat ty then
    let f := tyFmt ty
    match op with
    | 0 => f.zero true
    | 1 => f.inf false
    | _ => f.inf true
  else match op with
    | 1 => intPattern ty (intHigh (tyBits ty) (tySigned ty))
    | 2 => intPattern ty (intLow (tyBits ty) (tySigned ty))
    | 3 => storePattern ty (2 ^ tyBits ty - 1)
    | _ => 0

/-- One level of the tree: adjacent results combine. -/
def redLevel (op ty : Nat) (md : BitVec 3) : List Nat → List Res
  | a :: b :: r => redNode op ty md a b :: redLevel op ty md r
  | _ => []

/-- The five levels of R130: the result and every node's flags. -/
def redTree (op ty : Nat) (md : BitVec 3) : Nat → List Nat → W32 → Res
  | 0, l, fl => (l.headD 0, fl)
  | n + 1, l, fl =>
    let r := redLevel op ty md l
    redTree op ty md n (r.map (·.1)) (r.foldl (fun f x => f ||| x.2) fl)

/-- The inclusive scan: every prefix, and every node's flags. -/
def scanFrom (op ty : Nat) (md : BitVec 3) : List Nat → Nat → W32 → List Nat × W32
  | [], acc, fl => ([acc], fl)
  | x :: r, acc, fl =>
    let n := redNode op ty md acc x
    let t := scanFrom op ty md r n.1 (fl ||| n.2)
    (acc :: t.1, t.2)

def redForm (w : LaneWord) (scan : Bool) : Form :=
  let op := (fld w.x 0 3).toNat
  let ty := w.ty.toNat
  { Form.blank with
    d := true, a := true, ty := tysMem, x := if scan then 0xF else 0x7,
    md := if op ≠ 0 then [0] else if tyFloat ty then [0, 1, 2, 3, 4, 5, 6, 7] else [0, 4],
    values := decide (op < 6), pair := !(tyFloat ty && decide (3 ≤ op)) }

/-- VRED and VSCAN (15 R413-R416). -/
def redEntry (w : LaneWord) (scan : Bool) (_ : Env) : Entry :=
  let op := (fld w.x 0 3).toNat
  let ty := w.ty.toNat
  let wide := tyWide ty
  let src := Opd.vr w.a wide
  { form := redForm w scan, ops := [Opd.vw w.d wide, src], always := false, reads := some (fun e => e.poisons [src]),
    effect := fun e =>
      if e.mask = 0 then .go e.s e.g []
      else
        let id := redIdentity op ty
        let xs := perLane (fun i => if e.mask.getLsbD i then e.val w.a.toNat i wide else id)
        let out : List Nat × W32 :=
          if scan then
            let t := scanFrom op ty w.md xs.tail (xs.headD 0) 0
            (if bit w.x 3 then id :: t.1 else t.1, t.2)
          else
            let t := redTree op ty w.md 5 xs 0
            (List.replicate 32 t.1, t.2)
        match fpOutcome e (tyFloat ty) [(0, out.2)] with
        | .inr (cause, _) => .trap cause false 0 e.mask 0
        | .inl fl =>
          let store (v : Nat) : Nat := if tyFloat ty then v % 2 ^ tyBits ty else storePattern ty v
          .go e.s e.g (e.write w.d.toNat Config.latRed wide e.mask (onLanes e.mask (fun i => store (out.1.getD i 0)))
              (e.taintOf src) (e.poisonOf src).spread ++ Pend.flags Config.latRed fl) }

def execVred (w : LaneWord) (s : State) : Out := word s w (redEntry w false)
def execVscan (w : LaneWord) (s : State) : Out := word s w (redEntry w true)

/-- LANEID (13 R374, R375). -/
def execLaneid (w : LaneWord) (s : State) : Out :=
  word s w (fun _ => {
    form := { Form.blank with d := true, x := 1 }, ops := [Opd.vw w.d false], always := false,
    effect := fun e =>
      .go e.s e.g (e.write w.d.toNat Config.latScalar false e.mask
        (onLanes e.mask (fun i => if bit w.x 0 then (e.g.origin.getD i 0).toNat else i)) false Poison.none) })

/-! ### Special registers -/

/-- FEAT0 to FEAT7 for a partition (11 R332). -/
def featWord (s : State) (regions : Nat) (n : Nat) : W64 :=
  match n with
  | 0 => word64 [(1, 0), (384, 16), (0x3FFF, 32), (s.boot.reduced.toNat, 48), (s.boot.ready.toNat, 52)]
  | 1 => Config.feat1
  | 2 => (s.part.cores.getD 0 0).zeroExtend 64
  | 3 => (s.part.cores.getD 1 0).zeroExtend 64
  | 4 => (s.part.cores.getD 2 0).zeroExtend 64
  | 5 => (s.part.cores.getD 3 0).zeroExtend 64
  | 6 => word64 [(s.part.channels.toNat, 0), (s.part.ports.toNat, 32), (s.powerLimit % 65536, 48)]
  | _ => BitVec.ofNat 64 (regions % 2 ^ 20)

/-- Pool regions mapped to a partition. -/
def regionsOf (s : State) (part : Nat) : Nat := (s.regions.filter (fun r => r.owner == part)).length

/-- SFMT's write (14 R388). -/
def execSfmt (w : LaneWord) (s : State) : Out :=
  let src := if w.lit then [] else [Opd.gr w.b false]
  word s w (fun _ => {
    form := { Form.blank with b := true, lit := true }, ops := src, always := false,
    effect := fun e =>
      underMask e [Pend.special 0 1 (((if w.lit then w.x else e.gval w.b) &&& 0xFFFFFF00).zeroExtend 64) (e.poisons src)] })

/-- TSHAPE (06 R171). -/
def execTshape (w : LaneWord) (s : State) : Out :=
  let imm : Bool := w.a == 0
  word s w (fun _ => {
    form := { Form.blank with a := true, x := if imm then 0x3F3F else 0 },
    ops := if imm then [] else [Opd.gr w.a false], always := false,
    effect := fun e =>
      let v := if imm then w.x else e.gval w.a
      let rows := (fld v 8 6).toNat
      let cols := (fld v 0 6).toNat
      if !e.junk && (rows = 0 || 32 < rows || cols = 0 || 32 < cols) then trapWord e cZEROSHAPE
      else underMask e [Pend.special 1 1 (BitVec.ofNat 64 ((rows - 1) % 32 * 32 + (cols - 1) % 32))
        (if imm then Poison.none else e.poisonOf (Opd.gr w.a false))] })

/-- XPAT (15 R422, R423). -/
def execXpat (w : LaneWord) (s : State) : Out :=
  word s w (fun _ => {
    form := { Form.blank with a := true, x := 3 }, ops := [Opd.gr w.a true], always := false,
    effect := fun e => underMask e [Pend.special (4 + (fld w.x 0 2).toNat) 1 (e.gpair w.a &&& 0x3FFFFFFFFF)
      (e.poisonOf (Opd.gr w.a true))] })

/-- Special registers that SRD reads, and those of 64 bits (09 R249). -/
def srdKnown (n : Nat) : Bool := decide (n ≤ 2) || decide (4 ≤ n ∧ n ≤ 12) || decide (0x20 ≤ n ∧ n ≤ 0x27)
def srdWide (n : Nat) : Bool := decide (4 ≤ n ∧ n ≤ 7) || n == 12 || decide (0x20 ≤ n)

/-- GSTAT as SRD may show it: each unmerged bit of a loop may or may not be seen (05 R133).
Left to the model: DEDUCED, log entry 41. -/
def seenGstat (s : State) (g : Group) : W32 :=
  let extra := g.loops.foldl (fun (f : W32) l => f ||| l.flags) 0
  (List.range 6).foldl (fun (v : W32) i => if extra.getLsbD i && s.choice 4 i then putBit v i true else v) g.gstat

/-- A special register as it stands at the word's slot (14 R391). -/
def readSpecial (e : Env) (n : Nat) : W64 :=
  match n with
  | 0 => e.g.fmt.zeroExtend 64
  | 1 => e.g.shape.zeroExtend 64
  | 2 => (seenGstat e.s e.g).zeroExtend 64
  | 8 => e.mask.zeroExtend 64
  | 9 => BitVec.ofNat 64 e.rho
  | 10 => e.g.pos.seq.zeroExtend 64
  | 11 => word64 [(e.gi % 32, 0), (e.x.laneSet e.gi, 5)]
  | 12 => e.s.devTime
  | _ => if n < 8 then e.g.xpats.getD (n - 4) 0 else featWord e.s (regionsOf e.s e.x.part) (n - 0x20)

/-- SRD (14 R390, R391). -/
def execSrd (w : LaneWord) (s : State) : Out :=
  let n := (fld w.x 0 8).toNat
  let wide := srdWide n
  word s w (fun _ => {
    form := { Form.blank with d := true, x := 0xFF, values := srdKnown n }, ops := [Opd.gw w.d wide], always := false,
    specs := if n < 9 then [n] else [],
    effect := fun e =>
      let v := readSpecial e n
      let one (r : Nat) (h : W32) : Pend := Pend.gsw (e.gmap r) Config.latSrd h false Poison.none
      underMask e (if wide then [one w.d.toNat (fld v 0 32), one (w.d.toNat + 1) (fld v 32 32)] else [one w.d.toNat (fld v 0 32)]) })

/-- SWR (14 R390, R391): FMT, SHAPE and GSTAT only. -/
def execSwr (w : LaneWord) (s : State) : Out :=
  let n := (fld w.x 0 8).toNat
  word s w (fun _ => {
    form := { Form.blank with b := true, x := 0xFF, values := decide (n ≤ 2) }, ops := [Opd.gr w.b false], always := false,
    effect := fun e =>
      let v := e.gval w.b
      let v := match n with
        | 0 => v &&& 0xFFFFFF00
        | 1 => v &&& 0x3FF
        | _ => v &&& gstatMask
      underMask e [Pend.special n 1 (v.zeroExtend 64) (e.poisonOf (Opd.gr w.b false))] })

/-! ### VNOP, breakpoints, traps -/

/-- VNOP reads nothing, the execute mask included (15 R410). -/
def execVnop (w : LaneWord) (s : State) : Out :=
  word s w (fun _ => { form := Form.blank, ops := [], always := true, effect := fun e => .go e.s e.g [] })

/-- VBRK (10 R288): whatever the execute mask holds. -/
def execVbrk (w : LaneWord) (s : State) : Out :=
  word s w (fun _ => { form := Form.blank, ops := [], always := true, effect := fun e => trapWord e cLANEBRK })

/-- VTRAP (15 R419). -/
def execVtrap (w : LaneWord) (s : State) : Out :=
  word s w (fun _ => {
    form := { Form.blank with x := 0x3F }, ops := [], always := true, effect := fun e => trapWord e (cSWT (fld w.x 0 6)) })

/-- An unassigned lane word (09 R251): the structure checks come first; a double's flags are its continuation's. -/
def execIllop (w : LaneBits) (s : State) : Out :=
  onGroup s (fun e =>
    let h := decodeHdr w
    if laneKind w = 3 then
      match e.fetchAt 1 with
      | .ok y => finishWord e h 2 .none (trapWord e ((structure2 e.g h (decodeHdr y)).getD cILLOP))
      | .error f => laneFetchFault e f 1
    else finishWord e h 1 .none (trapWord e ((structure1 e.g h false).getD cILLOP)))

end Sys2Proof.Machine
end

