-- ==== Sys2Proof/Machine/LaneMem.lean ====
section
/-! DEFINITION. Lane accesses to memory and scratchpad: VLD, VLDK, VST (14 R404, R405), GLD (13 R369, R370), VATOM and VATOMS
(14 R397, R398), VLDS and VSTS (R406, R407), VLDX (R408, R409); and fences, queues and spawning (08 R227, 03 R87-R93,
R103-R107, 14 R389). -/

namespace Sys2Proof.Machine

/-! ### Checks over the active lanes (10 R266) -/

/-- A lane's check: its fault with the faulting address, or what the access needs. -/
abbrev Check (α : Type) := Nat × Except (AFault × W64) α

/-- The fault of the lowest faulting lane, with every lane that raises the same cause. -/
def laneFault {α : Type} (cs : List (Check α)) : Option Issue :=
  let bad := cs.filterMap (fun c => match c.2 with | .error f => some (c.1, f) | .ok _ => none)
  match bad with
  | [] => none
  | (_, f) :: _ =>
    let m : Lanes := bad.foldl (fun m b => if b.2.1.cause == f.1.cause then putBit m b.1 true else m) 0
    some (.trap f.1.cause false f.2 m f.1.finfo)

def oks {α : Type} (cs : List (Check α)) : List (Nat × α) :=
  cs.filterMap (fun c => match c.2 with | .ok a => some (c.1, a) | .error _ => none)

/-- Whether the registers that form an address hold an unpredictable value: the word then faults on no lane (02 R64, 06 R163).
Left to the model: DEDUCED, log entry 49. -/
def Env.wild (e : Env) (addr : List Opd) : Bool := e.junk && (e.uncovered addr (fun _ => true) || e.owns addr (fun _ => true))

/-- The lanes a load reads; none through an unpredictable address, as its destination alone is unpredictable (00 R5). -/
def Env.readLanes (e : Env) (addr : List Opd) : List Nat := if e.wild addr then [] else e.act

/-- The group whose lanes the word runs on, as an agent of the L path. -/
def Env.agent (e : Env) : Agent := grpAgent e.core e.k e.gi .l

/-- The first L access after an MLOOP leaves an event: a context that acquires it orders the loop (15 R421). -/
def Env.accessed (e : Env) (i : Issue) : Issue :=
  match i with
  | .go s g w =>
    if g.loops.all (·.touched) then .go s g w
    else .go (noteEvent s e.agent) { g with loops := g.loops.map (fun l => { l with touched := true }) } w
  | i => i

/-- The state a lane access starts from: an address a load-consume gave orders it (08 R231). -/
def Env.fed (e : Env) (addr : List Opd) : State := seeFed e.s e.agent (e.taints addr)

/-- The state a lane read of memory starts from: the group's stores to the host window have left where a lane reads it (08 R232). -/
def Env.reading (e : Env) (addr : List Opd) (pas : List Nat) : State := pas.foldl (fun s pa => beforeHost s e.agent pa) (e.fed addr)

/-- Runs checked lane accesses to memory: the fault, a suspension while pages are not held (02 R65), or the effect. -/
def memAccess (e : Env) (addr : List Opd) (cs : List (Check (W64 × Nat))) (f : List (Nat × W64 × Nat) → Issue) : Issue :=
  match if e.wild addr then none else laneFault cs with
  | some i => i
  | none =>
    match tlbMisses e.s e.core (e.x.asid e.s) ((oks cs).map (·.2.1)) with
    | [] => e.accessed (f (oks cs))
    | pages => .suspend (.tlb pages)

/-- One lane's virtual address: base pair, per-lane offset, X. -/
def Env.laneVa (e : Env) (w : LaneWord) (i : Nat) : W64 :=
  e.gpair w.a + (fld (e.elem w.b.toNat i) 0 32).signExtend 64 + w.x.signExtend 64

def Env.checkMem (e : Env) (k : Kind) (va : W64) (n : Nat) (atomic : Bool) : Except (AFault × W64) (W64 × Nat) :=
  match checkAccess e.s e.x.part (e.x.asid e.s) k pathL va n atomic with
  | .ok pa => .ok (va, pa)
  | .error f => .error (f, va)

/-! ### Outstanding results -/

/-- Lanes of a register that pending writes will still write. -/
def Group.pendLanes (g : Group) (kind : PendKind) (r : Nat) : Lanes :=
  g.pos.pend.foldl (fun (m : Lanes) p => if p.kind == kind && p.reg == r then m ||| p.lanes else m) 0

/-- A variable-latency result in registers given by storage number; writes already pending there conflict (02 R64). -/
def Env.outstanding (e : Env) (gs : Bool) (regs : List Nat) (lanes : Lanes) (vals : List (List Nat)) (taint : Bool) (p : Poison) :
    VarRes :=
  { gs := gs, regs := regs, junk := [], lanes := lanes, vals := vals.map (fun v => v.map (BitVec.ofNat 36)), taint := taint,
    poison := { p with lanes := p.lanes &&& lanes }, written := false, remote := [], popQueue := none,
    pool := [], conflict := lanes &&& regs.foldl (fun (m : Lanes) r => m ||| e.g.pendLanes (if gs then .gs else .vec) r) 0 }

/-- The storage registers of a vector destination. -/
def Env.dest (e : Env) (k : BitVec 8) (wide : Bool) : List Nat :=
  if wide then [e.vmap k.toNat, e.vmap (k.toNat + 1)] else [e.vmap k.toNat]

/-- The storage registers of a group scalar destination. -/
def Env.gdest (e : Env) (k : BitVec 8) (wide : Bool) : List Nat :=
  if wide then [e.gmap k.toNat, e.gmap (k.toNat + 1)] else [e.gmap k.toNat]

/-- Values per destination register: the low and high halves of a pair. -/
def splitWide (wide : Bool) (vals : List Nat) : List (List Nat) :=
  if wide then [vals.map (· % 2 ^ 32), vals.map (· / 2 ^ 32)] else [vals]

/-- The value of lane i in an association list. -/
def laneVals (l : List (Nat × Nat)) : List Nat := perLane (fun i => ((l.find? (fun p => p.1 == i)).map (·.2)).getD 0)

/-- Poisoned lanes of an access: their causes and the place of the poisoned storage, as FINFO holds it (10 R313). -/
def accessPoison (l : List (Nat × Option (Nat × Nat))) : Poison :=
  l.foldl (fun p a => match a.2 with
    | some c => p.join { lanes := putBit 0 a.1 true, cause := c.1, info := finfoPoison c.2 }
    | none => p) Poison.none

/-- Notes that the word read poisoned storage. -/
def Group.sawPoison (g : Group) (p : Poison) : Group :=
  if p.lanes = 0 || g.pos.poisonRun.isSome then g else { g with pos := { g.pos with poisonRun := some (p.cause, p.info) } }

/-! ### VLD, VLDK, VST -/

def memForm (tys : List Nat) (d : Bool) : Form :=
  { Form.blank with d := d, a := true, b := true, ty := tys, x := BitVec.allOnes 32 }

/-- The lanes of a load from the pool tier, with region and address (07 R205). -/
def poolLanes (s : State) (as_ : List (Nat × W64 × Nat)) : List (Nat × Nat × W64) :=
  as_.filterMap (fun a => match tierOf s a.2.2 with
    | .pool r => some (a.1, r, a.2.1)
    | _ => none)

def loadEntry (consume : Bool) (w : LaneWord) (_ : Env) : Entry :=
  let ty := w.ty.toNat
  let wide := tyWide ty
  let n := tyBytes ty
  let src := [Opd.gr w.a true, Opd.vr w.b false]
  { form := memForm tysMem true, ops := Opd.vw w.d wide :: src, always := false,
    effect := fun e =>
      if e.mask = 0 then .go e.s e.g []
      else memAccess e src ((e.readLanes src).map (fun i => (i, e.checkMem .rd (e.laneVa w i) n false))) (fun as_ =>
        let s := e.reading src (as_.map (·.2.2))
        let vals := as_.map (fun a => (a.1, storePattern ty (natOf (loadBytes s e.agent a.2.2 n))))
        let mp := accessPoison (as_.map (fun a => (a.1, loadPoison s e.agent a.2.2 n)))
        let r := e.outstanding false (e.dest w.d wide) e.mask (splitWide wide (laneVals vals))
          (consume || e.taints src) (mp.join (e.poisons src))
        .go (loaded s e.agent none (as_.flatMap (fun a => span a.2.2 n)) consume) { e.g.sawPoison mp with outs := e.g.outs ++ [{ r with pool := poolLanes e.s as_ }] } []) }

def execVld (w : LaneWord) (s : State) : Out := word s w (loadEntry false w)
def execVldk (w : LaneWord) (s : State) : Out := word s w (loadEntry true w)

/-- The bytes of one lane's store; free where the word reads an unpredictable value (02 R64). -/
def Env.storeData (e : Env) (k : BitVec 8) (i n : Nat) (wide : Bool) : List Byte :=
  bytesOf n (if e.junk then (e.s.free 11 i).toNat else e.val k.toNat i wide)

/-- The poison cause of lane i. -/
def Poison.at (p : Poison) (i : Nat) : Option Nat := if p.lanes.getLsbD i then some p.cause else Option.none

/-- The poison of lane i, as a queue keeps it. -/
def Poison.mark (p : Poison) (i : Nat) : Option (Nat × W64) := (p.at i).map (fun c => (c, p.info))

/-- VST: checks of every lane, then the stores in ascending lane order (14 R405). -/
def execVst (w : LaneWord) (s : State) : Out :=
  let ty := w.ty.toNat
  let wide := tyWide ty
  let n := tyBytes ty
  let addr := [Opd.gr w.a true, Opd.vr w.b false]
  let src := Opd.vr w.d wide :: addr
  word s w (fun _ => {
    form := memForm tysMem true, ops := src, always := false,
    effect := fun e =>
      if e.mask = 0 then .go e.s e.g []
      else memAccess e addr (e.act.map (fun i => (i, e.checkMem .wr (e.laneVa w i) n false))) (fun as_ =>
        let p := e.poisons src
        .go (as_.foldl (fun s a =>
            queueStore s e.agent none (cellsAt a.2.2 (e.storeData w.d a.1 n wide)) (p.at a.1)) (e.fed addr)) e.g []) })

/-! ### GLD -/

/-- GLD (13 R369, R370): one access for the group. -/
def execGld (w : LaneWord) (s : State) : Out :=
  let ty := w.ty.toNat
  let wide := tyWide ty
  let n := tyBytes ty
  let src := [Opd.gr w.a true]
  word s w (fun _ => {
    form := { Form.blank with d := true, a := true, ty := tysInt, x := BitVec.allOnes 32 },
    ops := Opd.gw w.d wide :: src, always := false,
    effect := fun e =>
      if e.mask = 0 then .go e.s e.g []
      else
        let va := e.gpair w.a + w.x.signExtend 64
        if e.wild src then
          .go e.s { e.g with outs := e.g.outs ++ [e.outstanding true (e.gdest w.d wide) 1 (splitWide wide [0]) (e.taints src) (e.poisons src)] } []
        else match e.checkMem .rd va n false with
        | .error (f, a) => .trap f.cause false a e.mask f.finfo
        | .ok (_, pa) =>
          match tlbMisses e.s e.core (e.x.asid e.s) [va] with
          | p :: ps => .suspend (.tlb (p :: ps))
          | [] =>
            let s := e.reading src [pa]
            let v := storePattern ty (natOf (loadBytes s e.agent pa n))
            let mp := accessPoison [(0, loadPoison s e.agent pa n)]
            let r := e.outstanding true (e.gdest w.d wide) 1 (splitWide wide [v]) (e.taints src) (mp.join (e.poisons src))
            e.accessed (.go (loaded s e.agent none (span pa n) false)
              { e.g.sawPoison mp with outs := e.g.outs ++ [{ r with pool := poolLanes e.s (e.act.map (fun i => (i, va, pa))) }] } []) })

/-! ### Atomics -/

/-- The operation of MOD (14 R397). -/
def atomicOp (md : BitVec 3) : AmoOp :=
  match md.toNat with
  | 0 => .add | 1 => .and | 2 => .or | 3 => .xor | 4 => .swap | 5 => .cas | 6 => .min | _ => .max

def atomicSources (w : LaneWord) (mem wide : Bool) : List Opd :=
  [Opd.gr w.a mem, Opd.vr w.b false, Opd.vr w.c wide] ++ (if w.md = 5 then [Opd.vr w.d wide] else [])

def atomicForm (tys : List Nat) : Form :=
  { Form.blank with d := true, a := true, b := true, c := true, ty := tys, md := [0, 1, 2, 3, 4, 5, 6, 7],
                    x := BitVec.allOnes 32 }

/-- VATOM's check: the host window takes three operations (12 R346). -/
def Env.checkAtomic (e : Env) (op : AmoOp) (va : W64) (n : Nat) : Except (AFault × W64) (W64 × Nat) :=
  match e.checkMem .at va n true with
  | .ok (v, pa) => if inHost e.s pa && !op.hostOk then .error (hostAtomicFault e.s (e.x.asid e.s) pathL va, va) else .ok (v, pa)
  | .error f => .error f

/-- The scratchpad that the bytes of an access still to be performed lie in; none for memory. -/
def placeOf (core : Nat) : Option Nat := if core = Config.cores then none else some core

/-- The read-modify-writes that an atomic word leaves to be performed: one for each lane, in ascending order (14 R398). -/
def Env.atomicLanes (e : Env) (w : LaneWord) (wide : Bool) (p : Poison) (as_ : List (Nat × List (Nat × Nat))) : List RemAcc :=
  as_.map (fun a =>
    let n := a.2.length
    { core := (a.2.headD (0, 0)).1, order := e.s.freeCtr, op := .atomic w.md w.ty,
      lanes := [{ lane := a.1, bytes := a.2, own := [], shift := 0, operand := e.val w.c.toNat a.1 wide,
                  cmp := if e.junk then (e.s.free 25 a.1).toNat % 2 ^ (8 * n) else e.val w.d.toNat a.1 wide,
                  junk := if e.junk then some (e.s.free 11 a.1).toNat else none, bad := p.at a.1 }] })

/-- One lane's read-modify-write: the state after it and the old value (14 R398, 08 R214). -/
def atomicAt (s : State) (o : Agent) (order : Nat) (op : BitVec 3) (ty : Nat) (l : RemLane) : State × Nat :=
  let at_ := placeOf (l.bytes.headD (0, 0)).1
  let as_ := l.bytes.map (·.2)
  let n := as_.length
  let pa := as_.headD 0
  let old := match at_ with
    | none => natOf (updateBytes s pa n)
    | some _ => natOf (as_.map (byteAt s at_))
  let was := as_.findSome? (fun a => (poisonOf s at_ a 1).map (·.1))
  let s := readLatest s o at_ as_
  match amoNew (atomicOp op) n (!tySigned ty) old l.operand l.cmp with
  | none => (s, old)
  | some v => (performWrite s o order true [] at_ (as_.zip (bytesOf n (l.junk.getD v))) (was <|> l.bad), old)

/-- VATOM (14 R398): every check, then its lanes' operations are to be performed in ascending order, after the stores of the group
before it. -/
def execVatom (w : LaneWord) (s : State) : Out :=
  let ty := w.ty.toNat
  let wide := tyWide ty
  let n := tyBytes ty
  let src := atomicSources w true wide
  word s w (fun _ => {
    form := atomicForm [0, 1, 10, 11],
    ops := Opd.vw w.d wide :: src, always := false,
    effect := fun e =>
      if e.mask = 0 then .go e.s e.g []
      else memAccess e [Opd.gr w.a true, Opd.vr w.b false] (e.act.map (fun i => (i, e.checkAtomic (atomicOp w.md) (e.laneVa w i) n))) (fun as_ =>
        let p := e.poisons src
        let r := e.outstanding false (e.dest w.d wide) e.mask (splitWide wide (laneVals []))
          (e.taints [Opd.gr w.a true, Opd.vr w.b false]) p
        let remote := e.atomicLanes w wide p (as_.map (fun a => (a.1, (span a.2.2 n).map (fun b => (Config.cores, b)))))
        .go (as_.foldl (fun s a => beforeAtomic s e.agent a.2.2) (e.fed [Opd.gr w.a true, Opd.vr w.b false]))
          { e.g with outs := e.g.outs ++ [{ r with remote := remote, pool := poolLanes e.s as_ }] } []) })

/-! ### Scratchpad -/

/-- One lane's scratchpad access: its bytes as (core, address). -/
abbrev ScrBytes := List (Nat × Nat)

/-- The formed address of a lane (14 R407): exact, so a negative or too large sum has bits above 31. -/
def Env.scrAddr (e : Env) (w : LaneWord) (i : Nat) : W64 :=
  (e.gval w.a).zeroExtend 64 + (fld (e.elem w.b.toNat i) 0 32).signExtend 64 + w.x.signExtend 64

/-- Checks n bytes at a scratchpad address. -/
def Env.checkScrAt (e : Env) (k : Kind) (a : W64) (n align : Nat) : Except (AFault × W64) ScrBytes :=
  let who := e.x.who e.core
  match checkScr e.s who k pathL a n align with
  | .ok l => .ok ((scrBytes e.s who l n).map (fun b => (l.core, b)))
  | .error f => .error (f, a)

/-- Bytes of a resolved access on the team's own core. -/
def Env.local (e : Env) (b : ScrBytes) : Bool := b.all (fun x => x.1 == e.core)

/-- The absent local lines of an access list. -/
def Env.absent (e : Env) (as_ : List (Nat × ScrBytes)) : List Nat :=
  absentLines e.s e.core ((as_.flatMap (·.2)).filter (fun b => b.1 == e.core) |>.map (·.2))

/-- The trap of a word whose line a halted transfer holds (07 R181). Left to the model: DEDUCED, log entry 13. -/
def haltTrap (e : Env) (ch : Nat × Nat) : Issue :=
  let f := (e.s.chan ch.1 ch.2).fault ch.2
  .trap f.1 true f.2.1 e.mask f.2.2

/-- Runs checked scratchpad accesses: the fault, the halted transfer's fault or a suspension on an absent local line
(07 R181), or the effect. -/
def scrAccess (e : Env) (addr : List Opd) (cs : List (Check ScrBytes)) (f : List (Nat × ScrBytes) → Issue) : Issue :=
  match if e.wild addr then none else laneFault cs with
  | some i => i
  | none =>
    let as_ := if e.wild addr then (oks cs).filter (fun a => (e.absent [a]).isEmpty) else oks cs
    match e.absent as_ with
    | [] => e.accessed (f as_)
    | lines => match lines.findSome? (fun l => haltedOn e.s (e.core, l)) with
      | some ch => haltTrap e ch
      | none => .suspend (.line lines)

/-- A byte as the group's own reads see it: without its own stores of the last 11 slots (07 R182). -/
def ownByte (g : Group) (a : Nat) : Option Byte :=
  g.pos.ownStores.findSome? (fun o => (o.cells.find? (fun c => c.1 == a)).map (·.2))

def Env.scrRead (e : Env) (b : ScrBytes) : List Byte :=
  b.map (fun x =>
    if x.1 == e.core then (ownByte e.g x.2).getD (seenByte e.s e.agent (some x.1) x.2) else 0)

/-- Whether a read meets a word with a pending bit of the group's own store (07 R182). -/
def Env.pendingRead (e : Env) (as_ : List (Nat × ScrBytes)) : Bool :=
  as_.any (fun a => a.2.any (fun b => b.1 == e.core && e.g.pos.ownStores.any (fun o => o.cells.any (fun c => c.1 / 4 == b.2 / 4))))

/-- The poison of scratchpad bytes as an agent reads them: its cause and line (10 R313). -/
def scrPoison (s : State) (o : Agent) (b : ScrBytes) : Option (Nat × Nat) :=
  b.findSome? (fun x => (seenPoison s o (some x.1) x.2 1).map (fun p => (p.1, p.2 / 128)))

/-- Groups remote lanes by core, keeping their order. -/
def byCore {α : Type} (core : α → Nat) (l : List α) : List (Nat × List α) :=
  ((l.map core).dedup).map (fun c => (c, l.filter (fun x => core x == c)))

def ScrBytes.core (b : ScrBytes) : Nat := (b.headD (0, 0)).1

/-- A scratchpad load: latency 12 when every lane is local, else a variable-latency result whose remote lanes are still to
be performed (07 R183). -/
def scrLoad (e : Env) (d : BitVec 8) (wide : Bool) (src : List Opd) (as_ : List (Nat × ScrBytes)) (op : RemOp)
    (shift : Nat → Nat) (value : Nat → List Byte → Nat) : Issue :=
  if e.x.debug && e.pendingRead as_ then trapWord e cPENDREAD
  else
    let here := as_.filter (fun a => e.local a.2)
    let there := as_.filter (fun a => !e.local a.2)
    let own := (as_.flatMap (·.2)).filterMap (fun b => if b.1 == e.core then some b.2 else none)
    let e := { e with s := arrive e.s e.agent own }
    let vals := laneVals (here.map (fun a => (a.1, value a.1 (e.scrRead a.2))))
    let s := loaded e.s e.agent (some e.core) (own.filter (fun a => (ownByte e.g a).isNone)) false
    let mp := accessPoison (here.map (fun a => (a.1, scrPoison e.s e.agent a.2)))
    let g := e.g.sawPoison mp
    let p := mp.join (e.poisons src)
    if there.isEmpty then .go s g (e.write d.toNat Config.latScratch wide e.mask vals (e.taints src) p)
    else
      let r := e.outstanding false (e.dest d wide) e.mask (splitWide wide vals) (e.taints src) p
      let remote := (byCore (fun (a : Nat × ScrBytes) => ScrBytes.core a.2) there).map (fun c =>
        { core := c.1, order := e.s.freeCtr, op := op, lanes := c.2.map (fun a =>
            { lane := a.1, bytes := a.2,
              own := (a.2.filter (fun b => b.1 == e.core)).map (fun b => (b.2, (e.scrRead [b]).headD 0)),
              shift := shift a.1, operand := 0, cmp := 0, junk := none, bad := none }) : RemAcc })
      .go s { g with outs := g.outs ++ [{ r with remote := remote }] } []

def vldsEntry (w : LaneWord) (_ : Env) : Entry :=
  let ty := w.ty.toNat
  let wide := tyWide ty
  let n := tyBytes ty
  let src := [Opd.gr w.a false, Opd.vr w.b false]
  { form := memForm tysMem true, ops := Opd.vw w.d wide :: src, always := false,
    effect := fun e =>
      if e.mask = 0 then .go e.s e.g []
      else scrAccess e src ((e.readLanes src).map (fun i => (i, e.checkScrAt .rd (e.scrAddr w i) n n))) (fun as_ =>
        scrLoad { e with s := e.fed src } w.d wide src as_ (.load w.ty) (fun _ => 0) (fun _ b => storePattern ty (natOf b))) }

def execVlds (w : LaneWord) (s : State) : Out := word s w (vldsEntry w)

/-- VSTS: local stores enter the group's queue in lane order, hidden from its own reads for 12 slots; remote stores raise the remote
store count (14 R407, 07 R182, R183). -/
def vstsEntry (w : LaneWord) (_ : Env) : Entry :=
  let ty := w.ty.toNat
  let wide := tyWide ty
  let n := tyBytes ty
  let addr := [Opd.gr w.a false, Opd.vr w.b false]
  let src := Opd.vr w.d wide :: addr
  { form := memForm tysMem true, ops := src, always := false,
    effect := fun e =>
      if e.mask = 0 then .go e.s e.g []
      else scrAccess e addr (e.act.map (fun i => (i, e.checkScrAt .wr (e.scrAddr w i) n n))) (fun as_ =>
        let p := e.poisons src
        let data (i : Nat) : List Byte := e.storeData w.d i n wide
        let here := as_.filter (fun a => e.local a.2)
        let there := as_.filter (fun a => !e.local a.2)
        let cells (a : Nat × ScrBytes) : List (Nat × Byte) := (a.2.map (·.2)).zip (data a.1)
        let s := e.fed addr
        let old := ((here.flatMap cells).map (·.1)).dedup.map (fun a => (a, seenByte s e.agent (some e.core) a))
        let s := here.foldl (fun s a => queueStore s e.agent (some e.core) (cells a) (p.at a.1)) s
        let own := if old.isEmpty then [] else [OwnStore.mk old Config.latScratch]
        let rem := (byCore (fun (a : Nat × ScrBytes) => ScrBytes.core a.2) there).map (fun c =>
          RemStore.mk c.1 e.s.freeCtr (c.2.map (fun a => (cells a, p.at a.1))) false false)
        .go s { e.g with rstores := e.g.rstores ++ rem, pos := { e.g.pos with ownStores := e.g.pos.ownStores ++ own } } []) }

def execVsts (w : LaneWord) (s : State) : Out := word s w (vstsEntry w)

/-! ### VLDX (05 R146, R147, 14 R408, R409) -/

/-- A pattern's fields. -/
structure Pat where
  target : Nat
  signed : Bool
  d : Nat
  o : Nat
  c : Nat
  p : Nat
  w : Nat

def Pat.ofWord (v : W64) : Pat :=
  { target := (fld v 34 4).toNat, signed := bit v 33, d := (fld v 26 7).toNat, o := (fld v 19 7).toNat,
    c := (fld v 12 7).toNat + 1, p := (fld v 5 7).toNat + 1, w := (fld v 0 5).toNat + 1 }

/-- The checks of R147. -/
def Pat.ok (t : Pat) : Bool :=
  decide (t.o + (t.c - 1) * t.d + t.w ≤ t.p) && !(decide (1 < t.c) && decide (t.d < t.w)) &&
  (if t.target < 6 then decide (t.w ≤ tyBits t.target) && (tySigned t.target || !t.signed)
   else if t.target = 9 then t.w == 6 && !t.signed
   else if t.target = 7 || t.target = 8 then t.w == 16 && !t.signed
   else if t.target = 6 then t.w == 32 && !t.signed
   else false)

/-- The first bit of element e. -/
def Pat.bitOf (t : Pat) (e : Nat) : Nat := e / t.c * t.p + t.o + e % t.c * t.d

/-- The value written for a field of w bits (R147). -/
def extractField (target w : Nat) (signed : Bool) (f : Nat) : Nat :=
  if target = 9 then (if f = 0x30 then 0x10 else f)
  else if tyFloat target then f
  else storePattern target (intOf w signed f % 2 ^ 32).toNat

/-- Left to the model: DEDUCED, log entry 23. -/
def execVldx (w : LaneWord) (s : State) : Out :=
  let src := [Opd.gr w.a false, Opd.vr w.b false]
  word s w (fun _ => {
    form := { Form.blank with d := true, a := true, b := true, c := true, x := BitVec.allOnes 32, values := fld w.c 2 6 == 0 },
    ops := Opd.vw w.d false :: src, always := false, specs := [4 + (fld w.c 0 2).toNat],
    effect := fun e =>
      let t := Pat.ofWord (e.g.xpats.getD (fld w.c 0 2).toNat 0)
      if !t.ok then trapWord e cXPATINVAL
      else if e.mask = 0 then .go e.s e.g []
      else
        let base := (e.gval w.a).zeroExtend 64 + w.x.signExtend 64
        let first (i : Nat) : Nat := t.bitOf (e.val w.b.toNat i false)
        let bytes (i : Nat) : List W64 :=
          (List.range ((first i + t.w - 1) / 8 - first i / 8 + 1)).map (fun j => base + BitVec.ofNat 64 (first i / 8 + j))
        let check (i : Nat) : Except (AFault × W64) ScrBytes :=
          (bytes i).foldl (fun r a => match r with
            | .error f => .error f
            | .ok l => match e.checkScrAt .rd a 1 1 with
              | .ok b => .ok (l ++ b)
              | .error f => .error f) (.ok [])
        scrAccess e src ((e.readLanes src).map (fun i => (i, check i))) (fun as_ =>
          scrLoad { e with s := e.fed src } w.d false src as_ (.extract t.w t.signed (BitVec.ofNat 4 t.target)) (fun i => first i % 8)
            (fun i b => extractField t.target t.w t.signed (natOf b / 2 ^ (first i % 8) % 2 ^ t.w))) })

/-! ### VATOMS -/

/-- VATOMS (14 R398): its lanes' operations are to be performed in ascending order, remote ones at the remote core; the result has
variable latency. -/
def execVatoms (w : LaneWord) (s : State) : Out :=
  let src := atomicSources w false false
  word s w (fun _ => {
    form := atomicForm [0, 1], ops := Opd.vw w.d false :: src, always := false,
    effect := fun e =>
      if e.mask = 0 then .go e.s e.g []
      else scrAccess e [Opd.gr w.a false, Opd.vr w.b false] (e.act.map (fun i => (i, e.checkScrAt .at (e.scrAddr w i) 4 4))) (fun as_ =>
        let p := e.poisons src
        let r := e.outstanding false (e.dest w.d false) e.mask [laneVals []] (e.taints [Opd.gr w.a false, Opd.vr w.b false]) p
        let own := (as_.flatMap (·.2)).filterMap (fun b => if b.1 == e.core then some b.2 else none)
        .go (arrive (flushAgent (e.fed [Opd.gr w.a false, Opd.vr w.b false]) e.agent false) e.agent own)
          { e.g with outs := e.g.outs ++ [{ r with remote := e.atomicLanes w false p as_ }] } []) })

/-! ### Fences (08 R227) -/

/-- The word ends its run, and the group is Parked on its fence. -/
def Env.park (e : Env) (f : FenceReq) : Issue := .go e.s { e.g with pos := { e.g.pos with parkFence := some f } } []

/-- VFENCE: whatever the execute mask holds. -/
def execVfence (w : LaneWord) (s : State) : Out :=
  laneWord s w true .none (fun _ => {
    form := { Form.blank with x := 0x1F0, values := decide (fld w.x 6 3 ≠ 7) && fld w.x 4 2 != 0 }, ops := [], always := true,
    effect := fun e => e.park (.fence (fld w.x 6 3) (fld w.x 4 2)) })

/-- VXFENCE: whatever the execute mask holds. -/
def execVxfence (w : LaneWord) (s : State) : Out :=
  laneWord s w true .none (fun _ => {
    form := { Form.blank with x := 0x1FF, values := decide (fld w.x 6 3 ≠ 7) && pathOk (fld w.x 3 3) && pathOk (fld w.x 0 3) }, ops := [],
    always := true,
    effect := fun e => e.park (.cross (fld w.x 6 3) (fld w.x 3 3) (fld w.x 0 3)) })

/-! ### Queues (03 R103-R107) -/

/-- The core of a queue selection: none where R104 traps (and for a child team after its cluster is freed, R435). -/
def queueCore (e : Env) (v : W32) : Option Nat :=
  match e.x.launch? e.s with
  | none => none
  | some l =>
    if fld v 8 24 ≠ 0 || !l.queues.getLsbD (fld v 0 4).toNat then none
    else match l.placed[e.x.cluster]? with
      | none => none
      | some cl => if cl.freed then none else (cl.cores[(fld v 4 4).toNat]?).map (·.1)

/-- QPOP: it waits for its elements in issue order (03 R105). Left to the model: DEDUCED, log entry 19. -/
def execQpop (w : LaneWord) (s : State) : Out :=
  word s w (fun _ => {
    form := { Form.blank with d := true, a := true }, ops := [Opd.vw w.d false, Opd.gr w.a false], always := false,
    effect := fun e =>
      let v := e.gval w.a
      let q := (fld v 0 4).toNat
      let wild := e.wild [Opd.gr w.a false]
      if !wild && queueCore e v ≠ some e.core then trapWord e cQSELECT
      else if e.mask = 0 then .go e.s e.g []
      else
        let r := e.outstanding false [e.vmap w.d.toNat] e.mask [List.replicate 32 0] false (e.poisonOf (Opd.gr w.a false))
        if wild then .go e.s { e.g with outs := e.g.outs ++ [r] } []
        else
        .go (e.s.updCore e.core (fun co => { co with queues := modifyAt co.queues q (fun x => { x with pops := x.pops ++ [(e.k, e.gi)] }) }))
          { e.g with outs := e.g.outs ++ [{ r with popQueue := some q }] } [] })

/-- QPUSH: its elements wait for room; its run ends as though with a switch marker (03 R106). -/
def execQpush (w : LaneWord) (s : State) : Out :=
  word s w (fun _ => {
    form := { Form.blank with a := true, b := true }, ops := [Opd.gr w.a false, Opd.vr w.b false], always := false,
    effect := fun e =>
      let v := e.gval w.a
      if queueCore e v = none then
        if e.wild [Opd.gr w.a false] then .go e.s { e.g with pos := { e.g.pos with marked := true } } [] else trapWord e cQSELECT
      else
        let p := e.poisons [Opd.vr w.b false, Opd.gr w.a false]
        let elem (i : Nat) : W32 := if e.junk then fld (e.s.free 11 i) 0 32 else BitVec.ofNat 32 (e.val w.b.toNat i false)
        let push := if e.mask = 0 then [] else [Push.mk e.mask v (e.act.map elem) (e.act.map p.mark)]
        .go e.s { e.g with pos := { e.g.pos with pushes := e.g.pos.pushes ++ push, marked := true } } [] })

/-! ### Spawning (03 R87-R93) -/

/-- Records the core's gatherer holds or has promised room for. -/
def gatherLoad (s : State) (c : Nat) : Nat :=
  let co := s.core c
  co.gather.length + (co.formed.map List.length).sum +
    (co.ctxs.map (fun x => (x.groups.map (fun g =>
      ((if g.pos.status == .suspended .spill then g.spawnPend.dropLast else g.spawnPend).map List.length).sum)).sum)).sum

/-- Records of a launch in its spill buffer or being written there. -/
def spillLoad (s : State) (l : Launch) : Nat :=
  l.spilled.length + (s.cores.map (fun co => (co.ctxs.map (fun x =>
    if x.resident && x.part == l.part && x.launch == l.id then
      (x.groups.map (fun g => if g.pos.status == .suspended .spill then ((g.spawnPend.getLast?).map List.length).getD 0 else 0)).sum
    else 0)).sum)).sum

/-- The lowest places of the buffer that hold no record and are not promised to one. Left to the model: DESIGN CHOICE, log entry 36. -/
def freeSlots (l : Launch) (skip n : Nat) : List Nat :=
  (((List.range (l.spilled.length + skip + n)).filter (fun i => !l.spilled.any (fun r => r.slot == i))).drop skip).take n

/-- The fault of a spill write to the given places, with its address (03 R97). -/
def spillFault (s : State) (l : Launch) (slots : List Nat) : Option (AFault × W64) :=
  slots.findSome? (fun slot =>
    let va := l.spillBase + BitVec.ofNat 64 (32 * slot)
    match checkAccess s l.part l.asid .sp pathS va 1 false with
    | .ok _ => none
    | .error f => some (f, va))

/-- The entry of lane i: one of the image's, chosen freely, where its register is unpredictable (02 R64). -/
def spawnEntry (e : Env) (w : LaneWord) (i : Nat) : Nat :=
  if e.wild [Opd.vr w.a false] then
    let es := (e.x.img e.s).entries
    es.getD ((e.s.free 26 i).toNat % es.length) 0
  else e.val w.a.toNat i false

/-- The records of a SPAWN word, lowest lane first (03 R89). -/
def spawnRecords (e : Env) (w : LaneWord) (k joinPa : Nat) : List SpawnRec :=
  let p (j : Nat) : Poison := e.poisonOf { Opd.vr w.b false with num := w.b.toNat + j }
  e.act.map (fun i =>
    { part := e.x.part, launch := e.x.launch, cluster := e.x.cluster, entry := spawnEntry e w i,
      payload := (List.range k).map (fun j =>
        if e.junk then fld (e.s.free 11 (32 * j + i)) 0 32 else BitVec.ofNat 32 (e.val (w.b.toNat + j) i false)),
      join := e.gpair w.c, depth := ((e.x.child.map (·.depth)).getD 0) + 1, srcCore := e.core, srcCtx := e.k,
      order := e.s.stamp, joinPa := joinPa, poison := (List.range k).map (fun j => (p j).mark i) })

/-- Where the records of a SPAWN word go: the gatherer, or the spill buffer with the group suspended, or the trap of the last two
checks of R88. -/
def spawnPlace (e : Env) (rs : List SpawnRec) : Issue :=
  let s := { e.s with stamp := e.s.stamp + 1 }
  let g := { e.g with spawnPend := e.g.spawnPend ++ [rs] }
  if !(e.s.core e.core).spilling && decide (gatherLoad e.s e.core + rs.length ≤ 4096) then .go s g []
  else match e.x.launch? e.s with
    | none => .go e.s e.g []
    | some l =>
      let used := spillLoad e.s l
      if l.img.spill / 32 < used + rs.length then trapWord e cSPAWNFULL
      else match spillFault e.s l (freeSlots l (used - l.spilled.length) rs.length) with
        | some (f, va) => .trap f.cause false va e.mask f.finfo
        | none => .hold (s.updCore e.core (fun co => { co with spilling := true })) g .spill

/-- SPAWN: the checks of R88 in order; its records are accepted later, or the group is suspended while they spill. -/
def execSpawn (w : LaneWord) (s : State) : Out :=
  let k := (fld w.x 0 3).toNat
  let odd := decide (w.c.toNat % 2 = 1)
  word s w (fun _ => {
    form := { Form.blank with a := true, b := decide (0 < k), c := true, x := 7, values := decide (k ≤ 4) },
    ops := [Opd.vr w.a false] ++ (if k = 0 then [] else [{ Opd.vr w.b false with rows := k }]) ++ [Opd.gr w.c (!odd)],
    always := false,
    effect := fun e =>
      let img := e.x.img e.s
      let bad := if e.wild [Opd.vr w.a false] then [] else e.act.filter (fun i => !img.entries.contains (e.val w.a.toNat i false))
      if odd then trapWord e cREGMISALIGN
      else if img.spill = 0 then trapWord e cSPAWNOFF
      else if ((e.x.child.map (·.depth)).getD 0) = 15 then trapWord e cSPAWNDEPTH
      else if e.mask = 0 then .go e.s e.g []
      else if !bad.isEmpty then
        .trap cSPAWNENTRY false 0 (bad.foldl (fun (m : Lanes) i => putBit m i true) 0) 0
      else
        let join := e.gpair w.c
        match checkAccess e.s e.x.part (e.x.asid e.s) .sp pathS join 4 true with
        | .error f => if e.wild [Opd.gr w.c true] then .go e.s e.g [] else .trap f.cause false join e.mask f.finfo
        | .ok pa =>
          match tlbMisses e.s e.core (e.x.asid e.s) [join] with
          | p :: ps => .suspend (.tlb (p :: ps))
          | [] => spawnPlace e (spawnRecords e w k pa) })

/-- SPFLUSH (03 R92, R93). -/
def execSpflush (w : LaneWord) (s : State) : Out :=
  word s w (fun _ => {
    form := Form.blank, ops := [], always := false,
    effect := fun e =>
      if e.mask = 0 then .go e.s e.g []
      else .go (e.s.updCore e.core (fun co => formPartials co (fun r => r.part == e.x.part && r.launch == e.x.launch))) e.g [] })

end Sys2Proof.Machine
end

