-- ==== Sys2Proof/Machine/LaneTruss.lean ====
section
/-! DEFINITION. Truss mode (chapter 06): MMODE (R149-R151), MLOOP and its steps (R154-R160, 05 R140-R142), MWAIT (R161), MZERO
(R170), SUNF and the unfolding unit (R165-R167). -/

namespace Sys2Proof.Machine

/-! ### Scratchpad as a matrix loop reads it (06 R159) -/

/-- The stretches of addresses inside the team's own reservation: its own window, and the slots of its cluster window that
name its own core. A child team has no reservation (03 R435). -/
def ownStretches (s : State) (w : Who) : List (Nat × Nat) :=
  let own := (0, scrSize s w 0)
  match s.launch? w.part w.launch with
  | none => []
  | some l => match l.placed[w.cluster]? with
    | none => [own]
    | some cl =>
      if w.child then [] else own :: (if cl.freed then [] else (indexed cl.cores).filterMap (fun c =>
        if c.2.1 = w.core then some (clusterWindow + 0x100000 * c.1, l.img.scratch) else none))

/-- Whether every address from lo to hi lies inside the reservation. -/
def inOwn (s : State) (w : Who) (lo hi : Int) : Bool :=
  (ownStretches s w).any (fun b => decide ((b.1 : Int) ≤ lo ∧ hi < (b.1 : Int) + b.2))

/-- The core-physical address of a byte of the reservation. -/
def ownByteAt (s : State) (w : Who) (a : Int) : Option Nat :=
  if !inOwn s w a a then none
  else (scrWindow s w (BitVec.ofInt 64 a)).map (fun l => scrPhys s w l 0)

/-! ### The unfolding unit (06 R165-R167) -/

/-- Element (i, k): the byte address of the tensor element, or none for the zero of the A type (06 R167). -/
def Unf.element (u : Unf) (i k : Nat) : Option Nat :=
  let p := u.oy0 * u.ow + u.ox0 + i
  let ch := k % u.chans
  let t := k / u.chans
  let kx := t % u.kw
  let ky := t / u.kw
  let y : Int := (p / u.ow * u.sy + ky * u.dy : Nat) - (u.py : Int)
  let x : Int := (p % u.ow * u.sx + kx * u.dx : Nat) - (u.px : Int)
  if u.kh ≤ ky ∨ y < 0 ∨ (u.h : Int) ≤ y ∨ x < 0 ∨ (u.w : Int) ≤ x then none
  else some (u.t + ((y.toNat * u.w + x.toNat) * u.chans + ch) * u.e)

/-- The element width of FMT's A type: 1 byte for L6, I8 and N8, 2 for BF16; none for another type. -/
def unfWidth (fmt : W32) : Option Nat :=
  match (fld fmt 28 4).toNat with
  | 4 => some 1 | 5 => some 1 | 9 => some 1 | 8 => some 2 | _ => none

/-- The descriptor a SUNF builds. -/
def Unf.ofWords (w : LaneWord) (y : ContWord) (gT gO gC : W32) (e : Nat) : Unf :=
  { t := gT.toNat, oy0 := (fld gO 16 16).toNat, ox0 := (fld gO 0 16).toNat, chans := (fld gC 0 16).toNat,
    ow := (fld gC 16 16).toNat, h := (fld w.x 20 12).toNat, w := (fld w.x 8 12).toNat,
    kh := (fld y.body 60 4).toNat + 1, kw := (fld y.body 56 4).toNat + 1, sy := (fld y.body 52 4).toNat + 1,
    sx := (fld y.body 48 4).toNat + 1, dy := (fld y.body 44 4).toNat + 1, dx := (fld y.body 40 4).toNat + 1,
    py := (fld y.body 36 4).toNat, px := (fld y.body 32 4).toNat, e := e }

/-- SUNF (06 R165, R166): whatever the execute mask holds. A value that is unpredictable at its slot loads an
unpredictable descriptor. -/
def execSunf (w : LaneWord) (y : ContWord) (s : State) : Out :=
  doubleWord s w y (fun _ => {
    form := { Form.blank with a := true, b := true, c := true, x := 0xFFFFFF00,
                              values := fld y.body 64 27 == 0 && fld y.body 0 32 == 0 },
    ops := [Opd.gr w.a false, Opd.gr w.b false, Opd.gr w.c false], always := true, specs := [0],
    effect := fun e =>
      let bad : Poison := (e.poisons [Opd.gr w.a false, Opd.gr w.b false, Opd.gr w.c false]).with (e.g.spoison.getD 0 none)
      let val (k : BitVec 8) (n : Nat) : W32 := if e.junk then fld (e.s.free 12 n) 0 32 else e.gval k
      match unfWidth e.g.fmt with
      | none => trapWord e cUNFINVAL
      | some width =>
        let u := Unf.ofWords w y (val w.a 0) (val w.b 1) (val w.c 2) width
        if u.h = 0 || u.w = 0 then trapWord e cUNFINVAL
        else if e.junk then .go e.s ({ e.g with unf := some u }.markSpecial 9 bad) []
        else if u.chans = 0 || u.ow = 0 || u.t % width ≠ 0 then trapWord e cUNFINVAL
        else if !inOwn e.s (e.x.who e.core) u.t (u.t + u.h * u.w * u.chans * width - 1) then trapWord e cUNFRANGE
        else .go e.s ({ e.g with unf := some u }.markSpecial 9 bad) [] })

/-! ### Products and steps (05 R140-R142, 06 R157) -/

/-- Depth of a step. -/
def Product.depth : Product → Nat
  | .l6 => 4 | .int8 => 2 | .bf16 => 1

/-- Element width in bits. -/
def Product.width : Product → Nat
  | .l6 => 6 | .int8 => 8 | .bf16 => 16

/-- Bytes of an operand block. -/
def Product.bytes : Product → Nat
  | .l6 => 96 | .int8 => 64 | .bf16 => 64

/-- A BF16 operand: subnormals are zeros of the same sign (05 R142). -/
def readBf16 (v : Nat) : FVal :=
  match Fmt.b16.read v with
  | .fin n m e => if m < 128 then .fin n 0 e else .fin n m e
  | x => x

/-- One cell's step: the accumulator element, its A and B elements, and the flags raised. -/
def cellStep (p : Product) (fmt : W32) (acc : Nat) (xs ys : List Nat) : Nat × W32 :=
  match p with
  | .bf16 =>
    let (m, f1) := (readBf16 (xs.headD 0)).mul (readBf16 (ys.headD 0))
    let c := Fmt.f36.read acc
    let (v, f2) := m.add .rne c
    Fmt.f36.write .rne false v (f1 ||| f2 ||| (if c.sig then fNV else 0))
  | .l6 =>
    let sum := ((xs.zip ys).map (fun v => l6Product v.1 v.2 (fmtEA fmt) (fmtEB fmt))).sum
    let r := sat36 (intOf 36 true acc + sum)
    ((r.1 % 2 ^ 36).toNat, r.2)
  | .int8 =>
    let sa := tySigned (fld fmt 28 4).toNat
    let sb := tySigned (fld fmt 24 4).toNat
    let sum := ((xs.zip ys).map (fun v => intOf 8 sa v.1 * intOf 8 sb v.2)).sum
    let r := sat36 (intOf 36 true acc + sum)
    ((r.1 % 2 ^ 36).toNat, r.2)

/-- The zero of an A type in the unfolding unit's padding. -/
def Product.zero : Product → Nat
  | .l6 => 16 | _ => 0

/-- The byte addresses of element kk of row (or column) i of a block that starts at `base`. -/
def blockElem (p : Product) (base : Int) (i kk : Nat) : List Int × Nat :=
  let b := (i * p.depth + kk) * p.width
  ((List.range ((b + p.width - 1) / 8 - b / 8 + 1)).map (fun j => base + ((b / 8 + j : Nat) : Int)), b % 8)

/-- The byte addresses and first bit of an A element of step t; none where padding supplies the zero. -/
def Loop.aElem (l : Loop) (p : Product) (t i kk : Nat) : Option (List Int × Nat) :=
  match l.unf with
  | none => some (blockElem p ((l.a : Int) + t * l.ia) i kk)
  | some u => (u.element i (t * p.depth + kk)).map (fun a => ((List.range u.e).map (fun j => ((a + j : Nat) : Int)), 0))

def Loop.bElem (l : Loop) (p : Product) (t j kk : Nat) : List Int × Nat := blockElem p ((l.b : Int) + t * l.ib) j kk

/-- The core-physical addresses a step reads. -/
def Loop.stepAddrs (s : State) (w : Who) (l : Loop) (p : Product) (t : Nat) : List Nat :=
  let idx := (List.range 32).flatMap (fun i => (List.range p.depth).map (fun k => (i, k)))
  (idx.flatMap (fun ik => (match l.aElem p t ik.1 ik.2 with | some e => e.1 | none => []) ++ (l.bElem p t ik.1 ik.2).1)).filterMap
    (ownByteAt s w)

/-- The absent lines the next step of a loop waits for. -/
def Loop.waits (s : State) (w : Who) (l : Loop) : List Nat :=
  match productOf l.fmt with
  | none => []
  | some p => if l.complete then [] else absentLines s w.core (l.stepAddrs s w p l.next)

/-- An element read from scratchpad on path U (08 R218), with its poison cause and address; bytes that no reservation holds any more
are free values. -/
def readElem (s : State) (o : Agent) (w : Who) (p : Product) (e : List Int × Nat) : Nat × Option (Nat × Nat) :=
  let at_ (a : Int) : Byte :=
    match ownByteAt s w a with
    | some pa => seenByte s o (some w.core) pa
    | none => fld (s.free 13 a.toNat) 0 8
  let v := natOf (e.1.map at_) / 2 ^ e.2 % 2 ^ p.width
  (v, (e.1.filterMap (ownByteAt s w)).findSome? (fun a => seenPoison s o (some w.core) a 1))

/-- What a step makes of the window: rows of elements, flags, poisoned lanes by row and the first poison cause with its address. -/
structure StepOut where
  rows : List VReg
  flags : W32
  poison : List Lanes
  cause : Option (Nat × Nat)

/-- One K-step of the outer product (06 R160). Left to the model: DEDUCED, log entry 15. -/
def Loop.stepOut (s : State) (o : Agent) (w : Who) (g : Group) (l : Loop) (p : Product) : StepOut :=
  let ks := List.range p.depth
  let aRow (i : Nat) : List (Nat × Option (Nat × Nat)) := ks.map (fun k =>
    match l.aElem p l.next i k with
    | some e => readElem s o w p e
    | none => (p.zero, none))
  let bs := (List.range 32).map (fun j => ks.map (fun k => readElem s o w p (l.bElem p l.next j k)))
  let bBad := (indexed bs).foldl (fun (m : Lanes) b => if b.2.any (·.2.isSome) then putBit m b.1 true else m) 0
  let rows := (indexed l.win).map (fun r =>
    let xs := aRow r.1
    let cells := (indexed bs).map (fun b =>
      cellStep p l.fmt ((g.vregs.getD r.2 VReg.zero).getD b.1 0).toNat (xs.map (·.1)) (b.2.map (·.1)))
    (cells, (if xs.any (·.2.isSome) then BitVec.allOnes 32 else bBad), xs.findSome? (·.2)))
  { rows := rows.map (fun r => r.1.map (fun c => BitVec.ofNat 36 c.1)),
    flags := rows.foldl (fun (f : W32) r => r.1.foldl (fun (f : W32) c => f ||| c.2) f) 0,
    poison := rows.map (·.2.1),
    cause := (rows.findSome? (·.2.2)) <|> (bs.findSome? (fun b => b.findSome? (·.2))) }

/-- The group after a step: window, taint cleared (08 R230), poison, flags kept with the loop until MWAIT (05 R133). -/
def Group.afterStep (g : Group) (idx : Nat) (l : Loop) (o : StepOut) : Group :=
  let g := (indexed l.win).foldl (fun g r =>
    let m := o.poison.getD r.1 0
    let old := (g.vpoison.getD r.2 Poison.none).with l.poison
    { g with
      vregs := g.vregs.set r.2 (o.rows.getD r.1 VReg.zero),
      vtaint := g.vtaint.set r.2 false,
      vpoison := g.vpoison.set r.2 (old.join (if m = 0 then Poison.none else Poison.mk m (o.cause.getD (0, 0)).1 (finfoPoison ((o.cause.getD (0, 0)).2 / 128)))) }) g
  let g := match o.cause with
    | some c => if g.pos.poisonRun.isSome then g else { g with pos := { g.pos with poisonRun := some (c.1, finfoPoison (c.2 / 128)) } }
    | none => g
  { g with loops := g.loops.set idx { l with
      next := l.next + 1, told := [], complete := decide (l.k ≤ l.next + 1), flags := l.flags ||| o.flags } }

/-! ### MLOOP -/

/-- A window base (06 R154). -/
def windowOk (n b : Nat) : Bool := b % 32 == 0 && decide (b + 31 < n)

/-- The range of an operand: lowest and highest byte (06 R159). -/
def operandRange (g : Nat) (inc : Int) (k bytes : Nat) : Int × Int :=
  let last : Int := (g : Int) + ((k : Int) - 1) * inc
  (min (g : Int) last, max (g : Int) last + bytes - 1)

/-- The checks of R158 in order. `junk` operands are not looked at. -/
def mloopCause (e : Env) (w : LaneWord) (unf : Bool) (ia ib : Int) : Option Nat :=
  let k := (e.gval w.c).toNat
  let a := (e.gval w.a).toNat
  let b := (e.gval w.b).toNat
  let who := e.x.who e.core
  if !isTruss e.s e.core e.k e.gi then some cNOTTRUSS
  else if !windowOk e.x.n w.d.toNat then some cWINDOW
  else match productOf e.g.fmt with
    | none => some cFMTTYPE
    | some p =>
      if !e.junk && (k = 0 || 65535 < k) then some cMLCOUNT
      else if (!e.junk && ((!unf && a % 32 ≠ 0) || b % 32 ≠ 0)) || ia % 32 ≠ 0 || ib % 32 ≠ 0 then some cMLALIGN
      else
        let inside (r : Int × Int) : Bool := e.junk || inOwn e.s who r.1 r.2
        if !(unf || inside (operandRange a ia k p.bytes)) || !inside (operandRange b ib k p.bytes) then some cMLRANGE
        else if unf && !(e.g.unf.any (fun u => some u.e == unfWidth e.g.fmt)) then some cUNFSTATE
        else none

/-- Whether a write of the group into the window is still to become visible (06 R163, third row).
Left to the model: DEDUCED, log entry 15. -/
def windowPending (e : Env) (win : List Nat) : Bool :=
  e.g.pos.pend.any (fun p => p.kind == .vec && win.contains p.reg) ||
  e.g.pos.landed.any (fun r => win.contains r) ||
  e.g.outs.any (fun v => v.hits win [])

/-- The fault of a halted transfer that the next step of an incomplete loop waits for (13 R384). -/
def loopHalt (s : State) (w : Who) (g : Group) : Option (Nat × Nat) :=
  g.loops.findSome? (fun l => (l.waits s w).findSome? (fun line => haltedOn s (w.core, line)))

/-- Starts the loop: it owns its window from here (06 R160, R162). Operands that are unpredictable, and pending writes into
the window, spoil it; a loop of unpredictable operands reads no storage, and so neither faults nor flags (00 R5). Left to the model: DEDUCED, log entry 15. -/
def startLoop (e : Env) (w : LaneWord) (ia ib : Int) : Group :=
  let win := (List.range 32).map (fun i => e.vmap (w.d.toNat + i))
  let old := e.g.owned win
  let unf := bit w.x 1
  let bad := (e.poisons ((if unf then [] else [Opd.gr w.a false]) ++ [Opd.gr w.b false, Opd.gr w.c false])).with
    (e.g.spoison.getD 0 none <|> (if unf then e.g.spoison.getD 9 none else none))
  let l : Loop :=
    { win := win, a := (e.gval w.a).toNat, b := (e.gval w.b).toNat, ia := ia, ib := ib,
      k := (e.gval w.c).toNat, next := 0, fmt := e.g.fmt, unf := if unf then e.g.unf else none,
      poison := if bad.lanes = 0 then none else some (bad.cause, bad.info),
      time := e.s.freeCtr, touched := false,
      complete := e.junk, visible := false, told := [], spoiled := e.junk || windowPending e win || old, flags := 0 }
  let g := { e.g with
    loops := e.g.loops.map (fun o => if o.hits win then { o with spoiled := true } else o) ++ [l],
    pos := { e.g.pos with pend := e.g.pos.pend.filter (fun p => !(p.kind == .vec && win.contains p.reg)) } }
  if bit w.x 0 then
    win.foldl (fun g r => { g with
      vregs := g.vregs.set r VReg.zero, vtaint := g.vtaint.set r false, vpoison := g.vpoison.set r Poison.none }) g
  else g

/-- MLOOP (06 R156-R160, 13 R382): whatever the execute mask holds. -/
def execMloop (w : LaneWord) (y : ContWord) (s : State) : Out :=
  let unf := bit w.x 1
  let ia := (fld y.body 32 32).toInt
  let ib := (fld y.body 0 32).toInt
  doubleWord s w y (fun _ => {
    form := { Form.blank with d := true, a := !unf, b := true, c := true, x := 3,
                              values := fld y.body 64 27 == 0 && !(unf && decide (ia ≠ 0)) },
    ops := (if unf then [] else [Opd.gr w.a false]) ++ [Opd.gr w.b false, Opd.gr w.c false], always := true,
    specs := if unf then [0, 9] else [0],
    effect := fun e =>
      if e.g.loopLeft then .suspend .loop
      else match mloopCause e w unf ia ib with
        | some c => trapWord e c
        | none =>
          let win := (List.range 32).map (fun i => e.vmap (w.d.toNat + i))
          if e.x.debug && (windowPending e win || e.g.owned win) then trapWord e cSCHEDVIOL
          else .go e.s (startLoop e w ia ib) [] })

/-! ### MWAIT, MMODE, MZERO -/

/-- MWAIT (06 R161, 13 R384). -/
def execMwait (w : LaneWord) (s : State) : Out :=
  word s w (fun _ => {
    form := Form.blank, ops := [], always := true,
    effect := fun e =>
      if e.g.loopLeft then
        match loopHalt e.s (e.x.who e.core) e.g with
        | some ch => haltTrap e ch
        | none => .hold e.s { e.g with loops := e.g.loops.map (fun l => { l with told := [] }) } .loop
      else .go e.s (e.g.endLoops e.s) [] })

def execMmodeT (w : LaneWord) (s : State) : Out :=
  laneWord s w true .t (fun _ => { form := { Form.blank with x := 1 }, ops := [], always := true, effect := fun e => .go e.s e.g [] })

/-- MMODE.v: the truss group's wait meets a transfer that has already halted (13 R384).
Left to the model: DEDUCED, log entry 16. -/
def execMmodeV (w : LaneWord) (s : State) : Out :=
  laneWord s w true .v (fun _ => {
    form := { Form.blank with x := 1 }, ops := [], always := true,
    effect := fun e =>
      match loopHalt e.s (e.x.who e.core) e.g with
      | some ch => if isTruss e.s e.core e.k e.gi then haltTrap e ch else .go e.s e.g []
      | none => .go e.s e.g [] })

/-- MZERO (06 R170): every lane of the window, whatever the execute mask holds. -/
def execMzero (w : LaneWord) (s : State) : Out :=
  word s w (fun e => {
    form := { Form.blank with d := true },
    ops := if windowOk e.x.n w.d.toNat then [{ Opd.vw w.d false with rows := 32 }] else [], always := true,
    effect := fun e =>
      if !windowOk e.x.n w.d.toNat then trapWord e cWINDOW
      else .go e.s e.g ((List.range 32).map (fun i =>
        Pend.vec (e.vmap (w.d.toNat + i)) 1 (BitVec.allOnes 32) (List.replicate 32 0) false Poison.none)) })

end Sys2Proof.Machine
end

