-- ==== Sys2Proof/Machine/Pair.lean ====
section
/-! DEFINITION. Paired words (09 R245-R247): the pair rules, and two narrow operations that issue in one slot. -/

namespace Sys2Proof.Machine

/-- The narrow class of an OPN. -/
def narrowClass (n : Narrow) : Nat := (fld n.opn 5 2).toNat

/-- A narrow operation as its wide word: TL = 0, MOD = 0, C = 0, and the immediate in place of B or of the offset (09 R245). -/
def narrowWide (n : Narrow) (h : Hdr) : LaneWord :=
  let scr := narrowClass n = 3
  { hdr := h, lit := !scr && bit n.imm 9, d := n.d, a := n.a, b := n.b, c := 0, ty := n.ty, tl := false, md := 0, sa := 0,
    sb := 0, sc := 0,
    x := if scr then n.imm.zeroExtend 32 * 16
         else if bit n.imm 9 then (fld n.imm 0 9).signExtend 32 else (fld n.imm 0 9).zeroExtend 32 }

/-- The entry of an assigned OPN. -/
def narrowEntry (opn : Nat) (w : LaneWord) : Option (Env → Entry) :=
  match opn with
  | 0x01 => some (intEntry .add w)
  | 0x02 => some (intEntry .sub w)
  | 0x03 => some (intEntry .mul w)
  | 0x04 => some (intEntry .mulh w)
  | 0x05 => some (intEntry .mad w)
  | 0x06 => some (intEntry .and w)
  | 0x07 => some (intEntry .or w)
  | 0x08 => some (intEntry .xor w)
  | 0x09 => some (intEntry .andn w)
  | 0x0A => some (intEntry .shl w)
  | 0x0B => some (intEntry .shr w)
  | 0x0C => some (intEntry .sra w)
  | 0x0D => some (intEntry .min w)
  | 0x0E => some (intEntry .max w)
  | 0x0F => some (unEntry .abs w)
  | 0x10 => some (unEntry .neg w)
  | 0x11 => some (unEntry .clz w)
  | 0x12 => some (unEntry .popc w)
  | 0x13 => some (intEntry .sel w)
  | 0x14 => some (intEntry .mov w)
  | 0x20 => some (fpEntry .add w)
  | 0x21 => some (fpEntry .sub w)
  | 0x22 => some (fpEntry .mul w)
  | 0x23 => some (fpEntry .fma w)
  | 0x24 => some (fpEntry .min w)
  | 0x25 => some (fpEntry .max w)
  | 0x26 => some (signEntry false w)
  | 0x27 => some (signEntry true w)
  | 0x40 => some (gEntry .add w)
  | 0x41 => some (gEntry .sub w)
  | 0x42 => some (gEntry .and w)
  | 0x43 => some (gEntry .or w)
  | 0x44 => some (gEntry .xor w)
  | 0x45 => some (gEntry .andn w)
  | 0x46 => some (gEntry .shl w)
  | 0x47 => some (gEntry .shr w)
  | 0x48 => some (gEntry .mov w)
  | 0x49 => some (gEntry .popc w)
  | 0x4A => some (gEntry .first w)
  | 0x60 => some (vldsEntry w)
  | 0x61 => some (vstsEntry w)
  | _ => none

/-- Architectural numbers of the vector registers an entry reads. -/
def Entry.vecReads (en : Entry) : List Nat := ((en.ops.filter (fun o => o.vec && o.rd)).flatMap (·.names)).dedup

/-- The registers an entry writes, with their kind. -/
def Entry.writes (en : Entry) : List (Bool × Nat) := (en.ops.filter (·.wr)).flatMap (fun o => o.names.map (fun k => (o.vec, k)))

/-- The pair rules in order (09 R246): different narrow classes, different destinations, the banks, the widths.
Left to the model: DEDUCED, log entry 17. -/
def pairCause (a b : Narrow) (ea eb : Entry) : Option Nat :=
  let ra := ea.vecReads
  let rb := eb.vecReads
  let all := (ra ++ rb).dedup
  if narrowClass a = narrowClass b then some cPAIRCLASS
  else if ea.writes.any (fun w => eb.writes.contains w) then some cPAIRDEST
  else if decide (1 < (ra.filter rb.contains).length) || all.any (fun x => all.any (fun y => x != y && x % 4 == y % 4)) then
    some cPAIRBANK
  else if tyWide a.ty.toNat || tyWide b.ty.toNat then some cPAIRWIDE
  else none

/-- The group after both operations: each one's new results, stores, hazard marks and poison. -/
def mergePair (base g1 g2 : Group) : Group :=
  let n := base.outs.length
  let old := (base.outs.zip (g1.outs.zip g2.outs)).map (fun v => { v.1 with conflict := v.2.1.conflict ||| v.2.2.conflict })
  { g2 with
    outs := old ++ g1.outs.drop n ++ g2.outs.drop n,
    rstores := g1.rstores ++ g2.rstores.drop base.rstores.length,
    loops := (g1.loops.zip g2.loops).map (fun l => { l.2 with
      spoiled := l.1.spoiled || l.2.spoiled, touched := l.1.touched || l.2.touched }),
    pos := { g2.pos with poisonRun := g1.pos.poisonRun <|> g2.pos.poisonRun } }

/-- Both operations after the pair rules: the first failure is the word's (09 R246, R247). Operation 2 reads the values
visible at the slot. Left to the model: DEDUCED, log entry 17. -/
def issuePair (e : Env) (w1 w2 : LaneWord) (en1 en2 : Entry) : Issue :=
  match decide4to7 e w1 en1 with
  | .go s1 g1 wr1 =>
    let e2 := { e with s := s1, g := { e.g with pos := { e.g.pos with ownStores := g1.pos.ownStores } } }
    match decide4to7 e2 w2 en2 with
    | .go s2 g2 wr2 => .go s2 (mergePair e.g g1 g2) (wr1 ++ wr2)
    | r => r
  | r => r

/-- A paired word. -/
def execPaired (w : PairWord) (s : State) : Out :=
  let w1 := narrowWide w.op1 w.hdr
  let w2 := narrowWide w.op2 w.hdr
  onGroup s (fun e =>
    finishWord e w.hdr 1 .none (match structure1 e.g w.hdr false with
      | some c => trapWord e c
      | none => match narrowEntry w.op1.opn.toNat w1, narrowEntry w.op2.opn.toNat w2 with
        | some f1, some f2 =>
          (match pairCause w.op1 w.op2 (f1 e) (f2 e) with
           | some c => trapWord e c
           | none => if w.r0 then trapWord e cRESFIELD else issuePair e w1 w2 (f1 e) (f2 e))
        | _, _ => trapWord e cILLOP))

end Sys2Proof.Machine
end

