-- ==== Sys2Proof/Machine/EvLane.lean ====
section
/-! DEFINITION. The part's own steps that move groups on: descriptors becoming visible (02 R50, R69), waiting control words
retiring, results, queues, remote accesses and fences completing (02 R63, 03 R105, R106, 07 R183, 08 R222), REGROUP's
migration (03 R84) and matrix loops (06 R160, R161). A step whose condition does not hold changes nothing. -/

namespace Sys2Proof.Machine

/-- A resident team that issues and has no freeze under way. Left to the model: DESIGN CHOICE, log entry 6. -/
def live (s : State) (c k : Nat) : Bool :=
  let x := s.ctx c k
  x.resident && x.trig.isNone && issuing s x.part

/-- A step of a live team. -/
def onLive (s : State) (c k : Nat) (f : Ctx → State) : Out := .next (if live s c k then f (s.ctx c k) else s)

/-- A step of a group of a resident team. -/
def onTeamGroup (s : State) (c k g : Nat) (f : Ctx → Group → State) : Out :=
  let x := s.ctx c k
  .next (match x.groups[g]? with
    | some r => if x.resident then f x r else s
    | none => s)

/-- A step of a group of a resident team that may raise a cause: none does while issue is stopped (01 R26). -/
def onIssuing (s : State) (c k g : Nat) (f : Ctx → Group → State) : Out :=
  onTeamGroup s c k g (fun x r => if issuing s x.part then f x r else s)

/-- A live team's context executes again the word it waits in, if it is one `f` knows. -/
def retry (s : State) (c k : Nat) (f : Instr → Option (State → Out)) : Out :=
  match (s.ctx c k).wait.bind f with
  | some g => if live s c k then g { s with cur := { core := c, ctx := k, group := 0 } } else .next s
  | none => .next s

/-! ### Descriptors and waiting control words -/

/-- The oldest descriptor that group g cannot see becomes visible to it (R69). -/
def showNext (g : Nat) : List Desc → List Desc
  | [] => []
  | d :: r => if d.seen.getLsbD g then d :: showNext g r else { d with seen := putBit d.seen g true } :: r

def Ctx.showNext (x : Ctx) (g : Nat) : Ctx := { x with strm := { x.strm with blockQ := Machine.showNext g x.strm.blockQ } }

/-- A queued descriptor becomes visible to a group, which starts what it can (02 R49, R68, R69). -/
def execDescriptorVisible (c k g : Nat) (s : State) : Out :=
  onLive s c k (fun x =>
    let y := x.showNext g
    let s := s.setCtx c k y
    match y.groups[g]?, y.startable g with
    | some _, some d => startDesc s c k g d
    | _, _ => s)

/-- A barrier descriptor whose every earlier descriptor is complete releases the groups that wait at it (02 R50). -/
def execBarrierRelease (c k : Nat) (s : State) : Out :=
  onLive s c k (fun x =>
    (List.range x.groups.length).foldl (fun s g =>
      match (s.ctx c k).startable g with
      | some d => if d.bar then startDesc s c k g d else s
      | none => s) s)

/-- An entry of the block queue is free and a stalled word retires (02 R47, R48). -/
def execStalledEmitRetire (c k : Nat) (s : State) : Out :=
  retry s c k (fun i => match i with
    | .emit a b t m p q r e f => some (execEmit a b t m p q r e f)
    | .divg a => some (execDivg a)
    | .elseM => some execElseM
    | .recon => some execRecon
    | .regroup m n => some (execRegroup m n)
    | _ => none)

/-- Every return word of the oldest entry is visible (02 R54, R69). -/
def execReturnReady (c k : Nat) (s : State) : Out :=
  retry s c k (fun i => match i with
    | .rpop d => some (execRpop d)
    | _ => none)

/-- Earlier descriptors and stores are done (08 R229). -/
def execIfenceComplete (c k : Nat) (s : State) : Out :=
  retry s c k (fun i => match i with
    | .ifence => some execIfence
    | _ => none)

/-- Earlier descriptors have completed (04 R116). -/
def execKtrigComplete (c k : Nat) (s : State) : Out :=
  retry s c k (fun i => match i with
    | .ktrig => some execKtrig
    | _ => none)

/-- Every producer team has triggered or exited (04 R116). -/
def execKwaitSatisfied (c k : Nat) (s : State) : Out :=
  retry s c k (fun i => match i with
    | .kwait => some execKwait
    | _ => none)

/-- A read of a waiting JWAIT returns zero, or meets a recorded cause (03 R96, 13 R373). -/
def execJwaitZero (c k : Nat) (s : State) : Out :=
  retry s c k (fun i => match i with
    | .jwait a o => some (execJwait a o)
    | _ => none)

/-- A waiting EXIT's conditions are met (12 R351). -/
def execExitComplete (c k : Nat) (s : State) : Out :=
  retry s c k (fun i => match i with
    | .exit => some execExit
    | _ => none)

/-! ### Translation (10 R305) -/

/-- The core's TLBs take a page's translation, if its tables have one; the oldest of 4096 entries makes room.
Left to the model: DESIGN CHOICE, log entry 8. -/
def installPage (s : State) (c asid : Nat) (page : Nat) : State :=
  match translate s asid (page * 4096) with
  | none => s
  | some (_, w) =>
    let e : TlbEntry :=
      { asid := asid, page := page, globalTo := if bit w 7 then (s.parts.find? (fun p => ownsAsid p asid)).map (·.id) else none }
    s.updCore c (fun co =>
      if tlbHit s co asid (page * 4096) then co
      else { co with tlb := (if 4096 ≤ co.tlb.length then co.tlb.drop 1 else co.tlb) ++ [e] })

/-- A walk installs a translation or faults; the waiting access is tried again (02 R65, R66). -/
def execTlbWalkComplete (c k : Nat) (group : Option Nat) (s : State) : Out :=
  let x := s.ctx c k
  .next (if !x.resident then s
    else match group with
      | none => (x.tlbWait.foldl (fun s p => installPage s c (x.asid s) p) s).updCtx c k (fun x => { x with tlbWait := [] })
      | some g =>
        match (x.groups[g]?).map (fun (r : Group) => r.pos.status) with
        | some (.suspended (.tlb pages)) => makeEligible (pages.foldl (fun s p => installPage s c (x.asid s) p) s) c k g
        | _ => s)

/-! ### Results and queues -/

/-- A variable-latency result is written (02 R63); a Parked group may go on. -/
def execVarResultWritten (c k g idx : Nat) (s : State) : Out :=
  onIssuing s c k g (fun _ r =>
    match r.outs[idx]? with
    | some v =>
      if !v.written && v.remote.isEmpty && v.popQueue.isNone then unpark (s.setGroup c k g (r.arrive idx)) c k g else s
    | none => s)

/-- Adds elements with their poison to a queue, at a time. -/
def RQueue.push (y : RQueue) (elems : List W32) (poison : List (Option (Nat × W64))) (now : Nat) : RQueue :=
  { y with elems := y.elems ++ elems,
           times := y.times ++ List.replicate elems.length now,
           poison := y.poison ++ List.replicate (y.elems.length - y.poison.length) none ++ poison }

/-- The work of a group's release at cluster scope or wider is done: its remote store count is zero and its remote reads are
performed (08 R222). What it acquired is: a barrier and RPOP wait for the accesses they pass on. -/
def Group.releaseReady (r : Group) : Bool := r.rstores.isEmpty && r.outs.all (fun v => v.remote.isEmpty)

/-- A group's release on a link (08 R220): its stores have left its queue. -/
def releaseGroup (s : State) (c k g : Nat) (l : Link) (reach : Reach) : State :=
  release (flushAgent s (grpAgent c k g .l) false) l [grpAgent c k g .l] [.one (grpAgent c k g .l)] reach

/-- Puts lane values into a result's registers: the low half, and the high half of a pair. An unpredictable register stays so. -/
def VarRes.putLanes (v : VarRes) (vals : List (Nat × Nat)) : VarRes :=
  { v with vals := (indexed v.vals).map (fun r =>
      if v.junk.contains (v.regs.getD r.1 0) then r.2
      else (indexed r.2).map (fun e =>
        match vals.find? (fun p => p.1 == e.1) with
        | some p => BitVec.ofNat 36 (p.2 / 2 ^ (32 * r.1) % 2 ^ 32)
        | none => e.2)) }

/-- A QPOP's acquire at cluster scope of the pushes of the elements it took (03 R107, 08 R220). -/
def acquirePopped (s : State) (x : Ctx) (c k g q : Nat) (times : List Nat) : State :=
  let me := grpAgent c k g .l
  refresh (acquire s c (fun r => r.link == .queue c q && times.contains r.time) [.one me]) (invalidates s x 2) [.one me]

/-- The oldest waiting QPOP takes its elements in one step once enough are queued (03 R105). -/
def execQpopTake (c q : Nat) (s : State) : Out :=
  let rq := (s.core c).queues.getD q { elems := [], poison := [], times := [], pops := [] }
  .next (match rq.pops with
    | [] => s
    | (k, g) :: rest =>
      let r := s.group c k g
      match (indexed r.outs).find? (fun v => v.2.popQueue == some q && !v.2.written) with
      | none => s
      | some (i, v) =>
        let lanes := lanesOf v.lanes
        if rq.elems.length < lanes.length then s
        else
          let popped : VarRes := { v.putLanes (lanes.zip (rq.elems.map (·.toNat))) with
            popQueue := none, poison := v.poison.join (poisonedLanes (lanes.zip rq.poison)) }
          let s := s.setGroup c k g { r with outs := r.outs.set i popped }
          let s := acquirePopped s (s.ctx c k) c k g q (rq.times.take lanes.length)
          s.updCore c (fun co => { co with
            queues := modifyAt co.queues q (fun x =>
              { elems := x.elems.drop lanes.length, poison := x.poison.drop lanes.length, times := x.times.drop lanes.length,
                pops := rest }) }))

/-- The group's oldest QPUSH enters its queue once there is room and its remote stores are acknowledged (03 R106,
18 R430). A push to a queue its cluster no longer has is dropped. -/
def execQpushEnter (c k g : Nat) (s : State) : Out :=
  onIssuing s c k g (fun x r =>
    match r.pos.pushes with
    | [] => s
    | p :: rest =>
      let popped : Group := { r with pos := { r.pos with pushes := rest } }
      if !r.releaseReady then s
      else match queueCore (Env.of s x r) p.sel with
        | none => unpark (s.setGroup c k g popped) c k g
        | some tc =>
          let q := (fld p.sel 0 4).toNat
          let elems := ((s.core tc).queues.getD q { elems := [], poison := [], times := [], pops := [] }).elems
          if 256 < elems.length + p.elems.length then s
          else
            let s := releaseGroup (s.setGroup c k g popped) c k g (.queue tc q) (reachOf s x c 2)
            let s := s.updCore tc (fun co => { co with
              queues := modifyAt co.queues q (fun y => y.push p.elems p.poison s.freeCtr) })
            unpark s c k g)

/-! ### Remote scratchpad (07 R183) -/

/-- Whether the reservations of the team's cluster are freed: an access still under way then finds no line.
Left to the model: DEDUCED, log entry 21. -/
def clusterFreed (s : State) (x : Ctx) : Bool := !(x.cluster? s).any (fun cl => !cl.freed)

/-- The absent lines of bytes given by core and address. -/
def remoteAbsent (s : State) (bytes : List (Nat × Nat)) : List (Nat × Nat) :=
  ((bytes.map (fun b => (b.1, b.2 / 128))).filter (fun l => presenceOf (s.core l.1) l.2 != 0)).dedup

/-- The channel whose halted transfer holds an absent line of the bytes. -/
def remoteHalt (s : State) (bytes : List (Nat × Nat)) : Option (Nat × Nat) :=
  (remoteAbsent s bytes).findSome? (haltedOn s)

/-- The asynchronous fault of a halted transfer for a group. -/
def haltFault (s : State) (ch : Nat × Nat) (g : Nat) : AsyncFault :=
  let f := (s.chan ch.1 ch.2).fault ch.2
  { store := false, lane := true, group := g, skip := false, fmask := 0, cause := f.1, faddr := f.2.1, finfo := f.2.2 }

/-- The bytes a remote access touches. -/
def RemAcc.bytes (a : RemAcc) : List (Nat × Nat) := a.lanes.flatMap (·.bytes)

def RemStore.bytes (st : RemStore) : List (Nat × Nat) := st.parts.flatMap (fun p => p.1.map (fun q => (st.core, q.1)))

def RemOp.isAtomic (o : RemOp) : Bool :=
  match o with
  | .atomic _ _ => true
  | _ => false

/-- The bytes of an access on cores other than its group's. -/
def RemAcc.away (a : RemAcc) (c : Nat) : List (Nat × Nat) := a.bytes.filter (fun b => b.1 != c && b.1 != Config.cores)

/-- A remote store that its group issued before an access is still to be performed, and the access keeps behind it: one to the same
bytes, and a read-modify-write behind every one (08 R212, R216). -/
def Group.storeAhead (r : Group) (a : RemAcc) : Bool :=
  r.rstores.any (fun st => !st.performed && decide (st.order < a.order) && (a.op.isAtomic || st.bytes.any a.bytes.contains))

/-- Performs one lane's part, after others of its word: the state and the lane's value. A load reads what stood before the word's first
part, no order being between its lanes (14 R405); bytes of the group's own core were read when the word issued (07 R182, 08 R216). -/
def remoteLane (first : State) (o : Agent) (order : Nat) (op : RemOp) (s : State) (l : RemLane) : State × Nat :=
  let bytes := l.bytes.map (fun b =>
    if b.1 == o.core then ((l.own.find? (fun q => q.1 == b.2)).map (·.2)).getD 0 else seenByte first o (some b.1) b.2)
  let away := l.bytes.filter (fun b => b.1 != o.core)
  let s' := (away.map (·.1)).dedup.foldl (fun s d =>
    noteRead s o order (some d) ((away.filter (fun b => b.1 == d)).map (·.2))) s
  match op with
  | .load ty => (s', storePattern ty.toNat (natOf bytes))
  | .extract w signed target => (s', extractField target.toNat w signed (natOf bytes / 2 ^ l.shift % 2 ^ w))
  | .atomic op ty => atomicAt s o order op ty.toNat l

/-- The poison that a lane's part meets: its cause and place, as FINFO holds it (10 R313). -/
def lanePoison (s : State) (o : Agent) (op : RemOp) (l : RemLane) : Option (Nat × Nat) :=
  if op.isAtomic then
    l.bytes.findSome? (fun b => (poisonOf s (placeOf b.1) b.2 1).map (fun p => (p.1, if b.1 = Config.cores then p.2 else p.2 / 128)))
  else scrPoison s o (l.bytes.filter (fun b => b.1 != o.core))

/-- The first remaining part of result idx is performed or answered: loads and read-modify-writes stay in order (08 R216). A performed
read-modify-write keeps its value whatever becomes of its region. -/
def remoteLoad (s : State) (c k g idx : Nat) (x : Ctx) (r : Group) (v : VarRes) : State :=
  match v.remote with
  | [] => s
  | a :: rest =>
    let v := { v with remote := rest }
    let me := grpAgent c k g .l
    let away := a.away c
    if (r.outs.take idx).any (fun o => !o.remote.isEmpty) || r.storeAhead a then s
    else if !away.isEmpty && clusterFreed s x then
      let v := v.putLanes (a.lanes.map (fun l => (l.lane, (s.free 14 l.lane).toNat)))
      s.setGroup c k g { r with outs := r.outs.set idx v }
    else if (remoteAbsent s away).isEmpty then
      let out := a.lanes.foldl (fun (o : State × List (Nat × Nat)) l =>
        let t := remoteLane s me a.order a.op o.1 l
        (t.1, o.2 ++ [(l.lane, t.2)])) (s, [])
      let mp := accessPoison (a.lanes.map (fun l => (l.lane, lanePoison s me a.op l)))
      let v := { v.putLanes out.2 with
        poison := v.poison.join mp,
        pool := v.pool.filter (fun p => !(a.op.isAtomic && a.lanes.any (fun l => l.lane == p.1))) }
      out.1.setGroup c k g { r.sawPoison mp with outs := r.outs.set idx v }
    else match remoteHalt s away with
      | none => s
      | some ch => s.setGroup c k g { r with outs := r.outs.set idx v, async := r.async ++ [haltFault s ch g] }

/-- The oldest access of a group that is still to be performed takes its turn. -/
def performOldest (s : State) (c k g : Nat) : State :=
  let x := s.ctx c k
  let r := x.group g
  match (indexed r.outs).find? (fun v => !v.2.remote.isEmpty) with
  | none => s
  | some (idx, v) => remoteLoad s c k g idx x r v

/-- A group's read-modify-writes of memory or of its core's scratchpad still to be performed. -/
def Group.atomicsLeft (r : Group) (c : Nat) : Bool :=
  r.outs.any (fun v => v.remote.any (fun a => a.op.isAtomic && (a.core == c || a.core == Config.cores)))

/-- A lane set's turn: the running group's next word waits for its read-modify-writes, and one of them is performed (08 R214, 14
R398). -/
def laneMove (s : State) (c ls : Nat) : Move :=
  match (s.laneSetAt c ls).running with
  | none => laneTurn s c ls
  | some (k, g) =>
    if (s.group c k g).atomicsLeft c && !issueStopped s (s.ctx c k).part then .idle (performOldest s c k g) else laneTurn s c ls

/-- Remote store j, the oldest of its core not yet performed, is performed or answered; stores stay behind earlier loads and the
group's earlier stores (08 R216), and the fault of one a freeze passed is held (10 R278). -/
def remoteStore (s : State) (c k g j : Nat) (x : Ctx) (r : Group) (st : RemStore) : State :=
  let drop : Group := { r with rstores := r.rstores.eraseIdx j }
  if st.performed || (r.rstores.take j).any (fun o => o.core == st.core && !o.performed) ||
      r.outs.any (fun v => v.remote.any (fun a => decide (a.order < st.order))) ||
      s.queue.any (fun q => q.agent == grpAgent c k g .l && !q.host && decide (q.order < st.order)) then s
  else if clusterFreed s x then s.setGroup c k g drop
  else if (remoteAbsent s st.bytes).isEmpty then
    (st.parts.foldl (fun s p => performWrite s (grpAgent c k g .l) st.order false [] (some st.core) p.1 p.2) s).setGroup c k g
      { r with rstores := r.rstores.set j { st with performed := true } }
  else match remoteHalt s st.bytes with
    | none => s
    | some ch =>
      if st.frozen then (s.setGroup c k g drop).updCtx c k (fun x => { x with held := x.held ++ [haltFault s ch g] })
      else s.setGroup c k g { drop with async := r.async ++ [{ haltFault s ch g with store := true }] }

/-- A remote access reaches its core: `idx` counts the group's outstanding results, then its remote stores. -/
def execRemoteScratchpadAccess (c k g idx : Nat) (s : State) : Out :=
  onTeamGroup s c k g (fun x r =>
    match r.outs[idx]? with
    | some v => remoteLoad s c k g idx x r v
    | none =>
      let j := idx - r.outs.length
      match r.rstores[j]? with
      | some st => remoteStore s c k g j x r st
      | none => s)

/-- The remote core acknowledges a performed store and the count falls. -/
def execRemoteStoreAck (c k g idx : Nat) (s : State) : Out :=
  onTeamGroup s c k g (fun _ r =>
    match r.rstores[idx]? with
    | some st => if st.performed then s.setGroup c k g { r with rstores := r.rstores.eraseIdx idx } else s
    | none => s)

/-! ### Fences (08 R222, R227) -/

/-- Whether a fence waits for the loops of its group. -/
def FenceReq.waitsLoops (f : FenceReq) : Bool :=
  match f with
  | .fence scope _ => scope != 0
  | .cross _ p _ => p == 3

/-- What a Parked group's fence waits for (08 R222, R227): at a release of cluster scope or wider its remote store count is zero, at
one of core scope they are performed; beyond its own scope its loops' operand reads are, and its spawn records are accepted; after U
its loops' completion is visible. -/
def FenceReq.done (f : FenceReq) (r : Group) : Bool :=
  let stores (scope : BitVec 3) : Bool :=
    scope == 0 || (if scope == 1 then r.rstores.all (·.performed) else r.rstores.isEmpty)
  match f with
  | .fence scope order =>
    (!orderRel order || (stores scope && (scope == 0 || r.spawnPend.isEmpty))) && (!f.waitsLoops || r.loops.all (·.complete))
  | .cross scope p _ => stores scope && (p != 4 || r.spawnPend.isEmpty) && (!f.waitsLoops || !r.loopLeft)

/-- The queued stores that a fence makes leave: the group's, and at system scope those to the host window. -/
def FenceReq.flush (f : FenceReq) (s : State) (me : Agent) : State :=
  match f with
  | .fence scope order => flushWhere s (fun q => q.agent == me && (if q.host then scope == 6 else orderRel order && scope != 0))
  | .cross scope p _ => flushWhere s (fun q => q.agent == me && (if q.host then scope == 6 else p == 1 && scope != 0))

/-- What a fence orders (08 R225-R227). At group scope VXFENCE orders the group's stores before its own loop reads alone, and VFENCE
orders nothing. -/
def FenceReq.order (f : FenceReq) (s : State) (x : Ctx) (c k g : Nat) : State :=
  let me : Path → Agent := grpAgent c k g
  match f with
  | .fence scope order =>
    if scope == 0 then s
    else
      let reach := reachOf s x c scope.toNat
      let s := if orderAcq order then
          acquireFence s c reach (invalidates s x scope.toNat) [me .l, me .u, me .s] (grpViews c k g) else s
      if orderRel order then
        releaseFence s .fence reach [me .l, me .s] (grpViews c k g) (if orderAcq order then [.one (me .l), .one (me .u)] else [])
      else s
  | .cross scope p q =>
    let s := if scope == 0 && p == 1 && q == 3 then { s with queue := s.queue.map (fun st =>
        if st.agent == me .l && !st.toward.contains (me .u) then { st with toward := st.toward ++ [me .u] } else st) } else s
    if scope == 0 && p == q then s
    else orderPaths s c (reachOf s x c scope.toNat) (invalidates s x scope.toNat) (p == q) (pathAgents me (pathOfCode p))
      [.one (me (pathOfCode q))]

/-- Whether a fence checks the module's pool lines in (07 R203). -/
def FenceReq.checkIn (f : FenceReq) : Bool :=
  match f with
  | .fence scope order => orderRel order && decide (5 ≤ scope.toNat)
  | .cross scope _ _ => decide (5 ≤ scope.toNat)

/-- A waiting fence's work is done: a control fence is executed again; a lane fence's group goes on. -/
def execFenceWorkDone (c k : Nat) (group : Option Nat) (s : State) : Out :=
  match group with
  | none => retry s c k (fun i => match i with
      | .fence sc o => some (execFence sc o)
      | .xfence sc p q => some (execXfence sc p q)
      | _ => none)
  | some g => onIssuing s c k g (fun x r =>
      match r.pos.parkFence with
      | none => s
      | some f =>
        if r.pos.status != .parked || !f.done r || r.outs.any (fun v => !v.remote.isEmpty) then s
        else
          let s := f.order (f.flush s (grpAgent c k g .l)) x c k g
          let s := if f.checkIn then checkInAll s else s
          unpark (s.setGroup c k g { r with pos := { r.pos with parkFence := none } }) c k g)

/-! ### REGROUP (03 R84, R85) -/

/-- Every group waits, its earlier results written and covered, with its pushes entered, its records accepted and its remote stores
performed (03 R86).
Left to the model: DEDUCED, log entry 20. -/
def regroupReady (x : Ctx) : Bool :=
  x.groups.all (fun g => g.pos.status == .waiting && g.outs.all (·.written) && g.pos.pushes.isEmpty && g.spawnPend.isEmpty &&
    g.rstores.all (·.performed))

/-- The set positions of a mask, ascending. -/
def maskBits (m : Mask) : List Nat := (List.range 1024).filter (fun i => m.getLsbD i)

/-- New lane j comes from old position dest[j]: group and lane. -/
def migratedReg (old : List Group) (dest : List Nat) (h r : Nat) (keep : VReg) : VReg :=
  (indexed keep).map (fun e =>
    match dest[32 * h + e.1]? with
    | some p => ((((old.getD (p / 32) (Group.fresh 0 0 0)).vregs.getD r VReg.zero).getD (p % 32) 0) &&& 0xFFFFFFFF)
    | none => e.2)

/-- The poison of a migrated register, lane by lane. -/
def migratedPoison (old : List Group) (dest : List Nat) (h r : Nat) (keep : Poison) : Poison :=
  let at_ (p : Nat) : Option Poison :=
    let q := (old.getD (p / 32) (Group.fresh 0 0 0)).vpoison.getD r Poison.none
    if q.lanes.getLsbD (p % 32) then some q else none
  (List.range 32).foldl (fun (acc : Poison) i =>
    match dest[32 * h + i]? with
    | none => acc
    | some p =>
      let acc := { acc with lanes := putBit acc.lanes i false }
      match at_ p with
      | some q => acc.join { q with lanes := putBit 0 i true }
      | none => acc) keep

/-- Group h after the migration of c lanes, all reads from the old groups. Left to the model: DEDUCED, log entry 20. -/
def migrateGroup (old : List Group) (dest : List Nat) (h : Nat) (g : Group) : Group :=
  let mine := (dest.drop (32 * h)).take 32
  match mine with
  | [] => g
  | p0 :: _ =>
    let src := (mine.map (· / 32)).foldl min (p0 / 32)
    let o := old.getD src g
    { g with
      vregs := (indexed g.vregs).map (fun v => migratedReg old dest h v.1 v.2),
      vtaint := (indexed g.vtaint).map (fun t =>
        (mine.map (· / 32)).any (fun q => (old.getD q g).vtaint.getD t.1 false) || (decide (mine.length < 32) && t.2)),
      vpoison := (indexed g.vpoison).map (fun v => migratedPoison old dest h v.1 v.2),
      origin := (indexed g.origin).map (fun e =>
        match dest[32 * h + e.1]? with
        | some p => (old.getD (p / 32) g).origin.getD (p % 32) 0
        | none => e.2),
      gregs := o.gregs, gtaint := o.gtaint, gpoison := o.gpoison, fmt := o.fmt, shape := o.shape, xpats := o.xpats,
      gstat := o.gstat, unf := o.unf,
      spoison := (indexed g.spoison).map (fun q => if q.1 ≠ 8 then o.spoison.getD q.1 none else q.2),
      pos := { g.pos with fmtStack := o.pos.fmtStack, fmtBad := o.pos.fmtBad, g1 := o.pos.g1, g2 := o.pos.g2, g3 := o.pos.g3,
                          g123taint := o.pos.g123taint } }

/-- The marker completes for every group (02 R51). -/
def completeMarker (x : Ctx) (d : Desc) : Ctx :=
  let gs := x.groups.map (fun g => { g with pos := { g.pos with seq := d.seq, st := .done } })
  ({ x with groups := gs }).retire

/-- REGROUP takes effect when every group has reached its marker: a group in truss mode raises REGROUPTRUSS, otherwise the lanes
of m[K] that are active migrate. -/
def execRegroupMigration (c k : Nat) (s : State) : Out :=
  onLive s c k (fun x =>
    match x.strm.blockQ with
    | [] => s
    | d :: _ =>
      match d.regroup with
      | none => s
      | some (m, n) =>
        if !regroupReady x then s
        else
          let s := orderTeam s c k
          let y := completeMarker x d
          let truss := (List.range x.groups.length).any (fun g => isTruss s c k g)
          let s1 := { (s.setCtx c k y) with cur := { core := c, ctx := k, group := 0 } }
          if truss then ctrlTrap s1 cREGROUPTRUSS false y.pc 0 0 0
          else
            let dest := maskBits (x.mask (BitVec.ofNat 4 m) &&& x.strm.active)
            let active : Mask := lowMask 1024 dest.length
            let groups := (indexed y.groups).map (fun g => migrateGroup (y.groups.map (fun o => { o with
              vregs := o.vregs.take n })) dest g.1 g.2)
            let back := (y.groups.zip groups).map (fun p => { p.2 with
              vregs := p.2.vregs.take n ++ p.1.vregs.drop n, vtaint := p.2.vtaint.take n ++ p.1.vtaint.drop n,
              vpoison := p.2.vpoison.take n ++ p.1.vpoison.drop n })
            s1.setCtx c k (({ y with groups := back, strm := { y.strm with active := active } }).wrMask (BitVec.ofNat 4 m) active))

/-! ### Matrix loops (06 R160, R161; 10 R279, R292) -/

/-- The first loop with a step to perform. -/
def firstLoop (g : Group) : Option (Nat × Loop) := (indexed g.loops).find? (fun l => !l.2.complete)

/-- A halted transfer that lines wait for: its channel, its identifier and the lines. -/
structure Halt where
  ch : Nat × Nat
  id : Nat
  lines : List (Nat × Nat)
  deriving DecidableEq, Repr

/-- The transfer a channel has halted on. -/
def haltOf (s : State) (ch : Nat × Nat) (lines : List (Nat × Nat)) : Halt :=
  { ch := ch, id := (s.chan ch.1 ch.2).complete, lines := lines }

def Halt.key (h : Halt) : Nat × Nat × Nat := (h.ch.1, h.ch.2, h.id)

/-- Whether a loop's next step waits for a line of the transfer, and its wait has not been told of the halt. -/
def loopUntold (s : State) (w : Who) (h : Halt) (l : Loop) : Bool :=
  !l.told.contains h.key && (l.waits s w).any (fun n => h.lines.contains (w.core, n))

/-- Notes that the loops of a group that wait for the transfer have been told. -/
def tellLoops (s : State) (c k g : Nat) (h : Halt) : State :=
  let w := (s.ctx c k).who c
  s.updGroup c k g (fun r => { r with
    loops := r.loops.map (fun l => if loopUntold s w h l then { l with told := l.told ++ [h.key] } else l) })

/-- The fault of a halted transfer reaches a group that waits for a line it holds: a suspended word, an MWAIT or the wait of
MMODE.v (07 R181, 13 R384). A frozen team's is held (10 R278); while issue is stopped a suspended word is only tried again, and
meets the fault then (01 R26). A loop's wait is told once of a halt. -/
def haltGroup (s : State) (c k g : Nat) (h : Halt) (f : AsyncFault) : State :=
  let x := s.ctx c k
  let r := x.group g
  let trap (s : State) : State :=
    if !issuing s x.part then makeEligible s c k g
    else if x.trig.isSome then s.updCtx c k (fun x => { x with held := x.held ++ [{ f with skip := true, fmask := r.pos.exmask }] })
    else laneTrap s c k g f.cause true true f.faddr r.pos.exmask f.finfo
  let loopWaits : Bool := r.loops.any (loopUntold s (x.who c) h)
  match r.pos.status with
  | .suspended (.line ls) => if ls.any (fun n => h.lines.contains (c, n)) then trap s else s
  | .suspended .loop =>
    if !loopWaits then s
    else match (Env.of { s with cur := { core := c, ctx := k, group := g } } x r).nextInstr with
      | .ok (.mwait _) => trap (tellLoops s c k g h)
      | _ => s
  | _ => if r.pos.parkMmodeV && loopWaits && issuing s x.part then raiseAsync (tellLoops s c k g h) c k f else s

/-- The next word of a frozen group, from where its freeze record says it stands. -/
def frozenInstr (s : State) (c k : Nat) (x : Ctx) (f : Frozen) (g : Nat) (p : GroupPos) : Option Instr :=
  match (Env.of { s with cur := { core := c, ctx := k, group := g } } { x with mode := .user, strm := f.stream }
      { x.group g with pos := p }).nextInstr with
  | .ok i => some i
  | .error _ => none

/-- Whether the frozen position of group g waits for a line of a transfer: suspended on it, or in MWAIT or MMODE.v's wait for a loop. -/
def frozenWaits (s : State) (c k : Nat) (x : Ctx) (f : Frozen) (h : Halt) (g : Nat) (p : GroupPos) : Bool :=
  let loopWaits : Bool := (x.group g).loops.any (loopUntold s (x.who c) h)
  match p.status with
  | .suspended (.line ls) => ls.any (fun n => h.lines.contains (c, n))
  | .suspended .loop => loopWaits && (match frozenInstr s c k x f g p with
    | some (.mwait _) => true
    | _ => false)
  | _ => p.parkMmodeV && loopWaits

/-- A frozen group that waits on a line of the transfer: its team holds the fault, once, on the word that waits (10 R278). -/
def holdHalt (c k : Nat) (h : Halt) (f : AsyncFault) (s : State) (p : Nat × GroupPos) : State :=
  let f := if p.2.parkMmodeV then { f with group := p.1 } else { f with group := p.1, skip := true, fmask := p.2.exmask }
  (tellLoops s c k p.1 h).updCtx c k (fun x => if x.held.contains f then x else { x with held := x.held ++ [f] })

/-- The halt reaches each frozen group of a context that waits for the transfer. -/
def haltFrozen (s : State) (c k : Nat) (h : Halt) (f : AsyncFault) : State :=
  let x := s.ctx c k
  match x.frozen with
  | none => s
  | some r => ((indexed r.pcs).filter (fun p => frozenWaits s c k x r h p.1 p.2)).foldl (holdHalt c k h f) s

/-- A loop's next step waits for lines: one that a halted transfer holds raises its fault in the group that waits for the loop
(13 R384). -/
def loopHalted (s : State) (c k g : Nat) (lines : List Nat) : State :=
  match lines.findSome? (fun n => (haltedOn s (c, n)).map (fun ch => (n, ch))) with
  | none => s
  | some (n, ch) =>
    let f := haltFault s ch g
    let h := haltOf s ch [(c, n)]
    haltGroup (haltFrozen s c k h f) c k g h f

/-- Whether a pre-emption stops a group's loops: not while a fence or MWAIT's successor of the group waits for their reads
(10 R275, 15 R420). -/
def loopStopped (x : Ctx) (r : Group) : Bool :=
  x.trig.any (·.preempt) && !r.pos.parkFence.any (·.waitsLoops)

/-- One K-step, once its lines are present. A pre-emption or a halt stops loops at a step boundary. -/
def execMatrixLoopStep (c k g : Nat) (s : State) : Out :=
  onIssuing s c k g (fun x r =>
    match firstLoop r with
    | none => s
    | some (i, l) =>
      if loopStopped x r || !isTruss s c k g then s
      else match l.waits s (x.who c) with
        | n :: ns => loopHalted s c k g (n :: ns)
        | [] => match productOf l.fmt with
          | none => s
          | some p => s.setGroup c k g (r.afterStep i l (l.stepOut s (grpAgent c k g .u) (x.who c) r p)))

/-- MMODE.v's wait ends for a group that no longer holds its lane set: it leaves the waiting list, and no other group is taken
out (06 R152). -/
def dropWait (s : State) (c k g : Nat) : State :=
  let s := s.updLaneSet c ((s.ctx c k).laneSet g) (fun l => { l with trussWait := l.trussWait.filter (· != (k, g)) })
  s.updGroup c k g (fun r => { (r.endLoops s) with pos := { r.pos with parkMmodeV := false, trussReq := false, trussPos := none } })

/-- A loop's completion becomes visible: an MWAIT or MLOOP may issue, and MMODE.v leaves truss mode. -/
def execMatrixLoopComplete (c k g : Nat) (s : State) : Out :=
  onIssuing s c k g (fun x r =>
    let r := { r with loops := r.loops.map (fun l => if l.complete then { l with visible := true } else l) }
    let s := s.setGroup c k g r
    if r.loopLeft then s
    else
      let s := if r.pos.status == .suspended .loop then makeEligible s c k g else s
      if !r.pos.parkMmodeV || x.trig.isSome then s
      else unpark (if isTruss s c k g then exitTruss s c k g else dropWait s c k g) c k g)

end Sys2Proof.Machine
end

