-- ==== Sys2Proof/Machine/Place.lean ====
section
/-! DEFINITION. Kernel images (09 R259), resources and placement (04 R110-R115, R437), the state of a launched and of a child
team (02 R41, R43; 03 R94), and the firmware side of pre-emption and resumption (10 R289-R295; 04 R114). -/

namespace Sys2Proof.Machine

/-! ### Images -/

/-- A byte of an address space as firmware reads it. -/
def virtByte (s : State) (part asid : Nat) (va : W64) : Option Byte :=
  match checkAccess s part asid .rd pathC va 1 false with
  | .ok pa => some (readByte s pa)
  | .error _ => none

def readVirt (s : State) (part asid va n : Nat) : Option (List Byte) :=
  (List.range n).mapM (fun i => virtByte s part asid (BitVec.ofNat 64 (va + i)))

/-- Whether every page of a range allows an access. -/
def pagesOk (s : State) (part asid : Nat) (k : Kind) (va n : Nat) : Bool :=
  n == 0 || (decide (va + n ≤ 2 ^ 56) &&
    (List.range ((va + n - 1) / 4096 - va / 4096 + 1)).all (fun i =>
      match checkAccess s part asid k pathC (BitVec.ofNat 64 (max va ((va / 4096 + i) * 4096))) 1 false with
      | .ok _ => true
      | .error _ => false))

/-- The form of a header. A set Brynger flag is refused with the same status (09 R262).
Left to the model: DEDUCED, log entry 32. -/
def headerForm (b : List Byte) : Bool :=
  let count := leNat b 66 2
  leNat b 0 4 == 0x4E444149 && leNat b 4 2 == 1 && leNat b 6 2 == 192 && leNat b 8 4 % 4 == 0 && leNat b 16 4 % 128 == 0 &&
  decide (leNat b 28 4 ≤ 256) && leNat b 32 4 % 4096 == 0 && leNat b 55 1 == 0 && decide (count ≤ 8) &&
  zeros b (68 + 8 * count) (64 - 8 * count) && zeros b 132 60

/-- The header and the sections it names: offset and bytes. Left to the model: DEDUCED, log entry 32. -/
def imageSections (b : List Byte) : List (Nat × Nat) :=
  [(0, 192), (leNat b 8 4, 4 * leNat b 12 4), (leNat b 16 4, 12 * leNat b 20 4), (leNat b 24 4, 4 * leNat b 28 4),
   (leNat b 32 4, leNat b 36 4), (leNat b 40 4, 8 * leNat b 44 4)]

def disjointSections : List (Nat × Nat) → Bool
  | [] => true
  | a :: r => r.all (fun b => a.2 == 0 || b.2 == 0 || decide (a.1 + a.2 ≤ b.1 ∨ b.1 + b.2 ≤ a.1)) && disjointSections r

/-- Little-endian 32-bit words of bytes. -/
def words32 (b : List Byte) : List Nat := (List.range (b.length / 4)).map (fun i => leNat b (4 * i) 4)

/-- The image at a virtual address, if it is 4 KiB aligned, readable and well formed. -/
def readImage (s : State) (part asid : Nat) (va : W64) : Option Image :=
  let base := va.toNat
  if base % 4096 ≠ 0 then none
  else match readVirt s part asid base 192 with
    | none => none
    | some b =>
      let secs := imageSections b
      if !headerForm b || !disjointSections secs || !secs.all (fun x => pagesOk s part asid .rd (base + x.1) x.2) then none
      else match readVirt s part asid (base + leNat b 24 4) (4 * leNat b 28 4),
                 readVirt s part asid (base + leNat b 40 4) (8 * leNat b 44 4) with
        | some e, some r =>
          let entries := words32 e
          if !entries.all (fun i => decide (i < leNat b 12 4)) ||
              !(List.range (leNat b 44 4)).all (fun i => zeros r (8 * i + 5) 3) then none
          else some {
            ctrlVa := base + leNat b 8 4, ctrlWords := leNat b 12 4, laneVa := base + leNat b 16 4, laneWords := leNat b 20 4,
            entries := entries, n := leNat b 48 2, q := leNat b 50 1, groups := leNat b 51 1, teams := leNat b 52 1,
            w := leNat b 53 1, h := leNat b 54 1, scratch := leNat b 56 4, spill := leNat b 60 4, keep := leNat b 64 2,
            discard := (List.range (leNat b 66 2)).map (fun k => (leNat b (68 + 8 * k) 4, leNat b (72 + 8 * k) 4)) }
        | _, _ => none

/-- The bytes of an image: from its header to the end of its last section. -/
def imageLength (b : List Byte) : Nat := ((imageSections b).map (fun x => x.1 + x.2)).foldl max 0

/-- The bytes of the partition's privileged image at its address. -/
def imageBytes (s : State) (p : Partition) : List Byte :=
  let at_ (n : Nat) : List Byte := (List.range n).map (fun i => (virtByte s p.id p.asidFirst (p.privVa + BitVec.ofNat 64 i)).getD 0)
  at_ (imageLength (at_ 192))

/-- The limits of R35, R108 and R258 on what an image declares. Left to the model: DEDUCED, log entry 32. -/
def imageLimits (i : Image) : Bool :=
  decide (32 ≤ i.n ∧ i.n ≤ 256) && i.n % 32 == 0 && [16, 32, 48, 64].contains i.q && decide (1 ≤ i.groups ∧ i.groups ≤ 32) &&
  decide (1 ≤ i.w ∧ i.w ≤ 6) && decide (1 ≤ i.h ∧ i.h ≤ 8) && decide (i.w * i.h ≤ 12) && i.teams == i.w * i.h &&
  i.scratch % 128 == 0 && decide (i.scratch ≤ MiB) && i.spill % 32 == 0 && decide (i.keep ≤ i.n) &&
  i.discard.all (fun d => d.1 % 128 == 0 && d.2 % 128 == 0 && decide (d.1 + d.2 ≤ i.scratch)) && disjointSections i.discard

/-- The privileged image of a partition, verified against R259 with its three entries (11 R329); its bytes are those of its sections.
Left to the model: DESIGN CHOICE, log entry 45. -/
def readPriv (s : State) (p : Partition) : Option PrivImage :=
  (readImage s p.id p.asidFirst p.privVa).bind (fun i =>
    match i.entries with
    | [t, v, r] =>
      (readVirt s p.id p.asidFirst i.ctrlVa (4 * i.ctrlWords)).bind (fun c =>
        (readVirt s p.id p.asidFirst i.laneVa (12 * i.laneWords)).map (fun l =>
          { bytes := imageBytes s p,
            ctrl := (words32 c).map (BitVec.ofNat 32),
            lanes := (List.range i.laneWords).map (fun k => BitVec.ofNat 96 (leNat l (12 * k) 12)),
            trapVec := t, saveVec := v, restVec := r }))
    | _ => none)

/-! ### Resources of a core (04 R110, R112; 02 R36) -/

/-- Group-registers of a child reservation on a lane set. -/
def resLoad (r : Option (Nat × Nat × Nat)) (ls : Nat) : Nat :=
  match r with
  | some r => if r.2.1 = ls then r.2.2 else 0
  | none => 0

/-- Group-registers that teams take on a lane set outside the child reservation: a child team in its context uses the
reservation's. -/
def teamsLoad (co : Core) (ls : Nat) : Nat :=
  ((indexed co.ctxs).map (fun x =>
    if !x.2.resident || co.childRes.any (fun r => r.1 == x.1) then 0
    else x.2.n * ((List.range x.2.groups.length).filter (fun g => x.2.laneSet g == ls)).length)).sum

/-- Group-registers taken on a lane set. -/
def laneLoad (co : Core) (ls : Nat) : Nat := teamsLoad co ls + resLoad co.childRes ls

/-- What a team of G groups with base b needs on a lane set. -/
def teamLoad (n groups b ls : Nat) : Nat := n * ((List.range groups).filter (fun g => (b + g) % 4 == ls)).length

/-- Contexts that hold no team and are not reserved for child teams. -/
def freeCtxs (co : Core) : List Nat :=
  (List.range 8).filter (fun k => !(co.ctxs.getD k Ctx.free).resident && !co.childRes.any (fun r => r.1 == k))

/-- The child reservation once a spawning team is added, with the load its teams then make: created, kept, grown in place, or
moved while no child team occupies it (04 R112). Left to the model: DESIGN CHOICE, log entry 38. -/
def growRes (co : Core) (n : Nat) (load : Nat → Nat) (spare : List Nat) : Option (Nat × Nat × Nat) :=
  match co.childRes with
  | none => spare.head?.bind (fun k => ((List.range 4).find? (fun ls => load ls + n ≤ 2048)).map (fun ls => (k, ls, n)))
  | some (k, ls, m) =>
    if n ≤ m then some (k, ls, m)
    else if load ls + n ≤ 2048 then some (k, ls, n)
    else if (co.ctxs.getD k Ctx.free).resident then none
    else ((List.range 4).find? (fun l => l != ls && decide (load l + n ≤ 2048))).map (fun l => (k, l, n))

/-- The context, base lane set and child reservation a core can give a team. -/
def fitTeam (co : Core) (n groups : Nat) (spills : Bool) : Option (Nat × Nat × Option (Nat × Nat × Nat)) :=
  match freeCtxs co with
  | [] => none
  | k :: rest =>
    (List.range 4).findSome? (fun b =>
      let load (ls : Nat) : Nat := teamsLoad co ls + teamLoad n groups b ls
      let res := if spills then (growRes co n load rest).map some else some co.childRes
      (res.filter (fun r => (List.range 4).all (fun ls => decide (load ls + resLoad r ls ≤ 2048)))).map (fun r => (k, b, r)))

/-- Queues that resident launches have declared on a core; the launch that is being placed is one of them.
Left to the model: DESIGN CHOICE, log entry 38. -/
def declared (s : State) (c : Nat) : BitVec 16 :=
  s.launches.foldl (fun (m : BitVec 16) l =>
    if (l.status == .placed || l.status == .preempting) && l.placed.any (fun cl => !cl.freed && cl.cores.any (fun t => t.1 == c))
    then m ||| l.queues else m) 0

/-- Whether the team of a reservation is resident on the core. -/
def Resv.lives (r : Resv) (co : Core) : Bool :=
  co.ctxs.any (fun x => x.resident && x.child.isNone && x.part == r.part && x.launch == r.launch && x.cluster == r.cluster && x.team == r.team)

/-- No queued or active transfer writes the core's scratchpad outside the reservations of the teams resident there (R437). -/
def transfersClear (s : State) (c : Nat) : Bool :=
  s.cores.all (fun co => co.chans.all (fun y => (y.queued.toList ++ y.active.toList).all (fun t =>
    t.writtenLines.all (fun l => l.1 != c || (s.core c).resvs.any (fun r => r.lines.contains l.2 && r.lives (s.core c))))))

/-- R437: the core holds nothing. -/
def idleCore (co : Core) : Bool :=
  co.ctxs.all (fun x => !x.resident) && co.gather.isEmpty && co.formed.isEmpty && co.childRes.isNone &&
  co.chans.all (fun y => y.queued.isNone && y.active.isNone)

/-- Firmware resets the engine registers and presence counts with the first team on an idle core (07 R180, R185). -/
def wakeCore (co : Core) : Core :=
  if idleCore co then { co with chans := List.replicate 8 Chan.reset, presence := [] } else co

/-- The lowest free lines for a reservation; none where they do not fit. Left to the model: DESIGN CHOICE, log entry 38. -/
def takeLines (co : Core) (k : Nat) : Option (List Nat) :=
  let used := co.resvs.flatMap (·.lines)
  if 8192 < used.length + k then none
  else some (((List.range 8192).filter (fun l => !used.contains l)).take k)

/-- Reserves and clears a team's scratchpad (02 R41, 07 R179). Two clusters of a launch that declares queues share no core, as two
such launches do not. Left to the model: DESIGN CHOICE, log entry 38. -/
def reserve (s : State) (l : Launch) (ci t c : Nat) : Option State :=
  let co := s.core c
  if declared s c &&& l.queues ≠ 0 || !transfersClear s c then none
  else (takeLines co (l.img.scratch / 128)).map (fun lines =>
    clearScr s c lines (fun co =>
      let co := clearLines (wakeCore co) lines
      { co with
      resvs := co.resvs ++ [{ part := l.part, launch := l.id, cluster := ci, team := t, lines := lines }],
      queues := (indexed co.queues).map (fun q => if l.queues.getLsbD q.1 then { q.2 with elems := [], poison := [], times := [] } else q.2) }))

/-! ### The state of a new team -/

/-- What every team of a launch starts with. -/
def blankTeam (s : State) (l : Launch) (c k : Nat) : Ctx :=
  let p := s.partition l.part
  let priv := p.bind (·.priv)
  { Ctx.free with
    resident := true, part := l.part, launch := l.id, n := l.img.n, q := l.img.q, debug := l.debug,
    trapVec := match priv with | some v => BitVec.ofNat 64 v.trapVec | none => BitVec.ofNat 64 (2 ^ 63),
    saveVec := BitVec.ofNat 64 ((priv.map (·.saveVec)).getD 0), restVec := BitVec.ofNat 64 ((priv.map (·.restVec)).getD 0),
    ks := [(match p with | some p => p.save | none => 0) + BitVec.ofNat 64 ((8 * c + k) * 4096), 0, 0, 0] }

/-- s4 (04 R115). -/
def launchWord (l : Launch) : W64 :=
  word64 [(l.clusters % 2 ^ 16, 0), (l.img.teams % 16, 16), (l.img.groups % 64, 20), (l.img.w - 1, 26), (l.img.h - 1, 29)]

/-- A launched team (02 R41, R43; 04 R115). -/
def launchedTeam (s : State) (l : Launch) (c k b ci t : Nat) : Ctx :=
  { blankTeam s l c k with
    cluster := ci, team := t, base := b,
    s := [0, BitVec.ofNat 64 ci, BitVec.ofNat 64 t, l.arg, launchWord l, word64 [(c, 0), (b, 8)], l.id.zeroExtend 64] ++
         List.replicate 25 0,
    strm := { Stream.fresh with active := lowMask 1024 (32 * l.img.groups) },
    groups := (List.range l.img.groups).map (Group.fresh l.img.n l.img.q) }

/-- The payload of lane i's record as register r. -/
def payloadReg (rs : List SpawnRec) (r : Nat) : VReg :=
  (List.range 32).map (fun i => ((rs[i]?).map (fun x => (x.payload.getD r 0).zeroExtend 36)).getD 0)

/-- The poison of that register (10 R300). -/
def payloadPoison (rs : List SpawnRec) (r : Nat) : Poison :=
  poisonedLanes ((indexed rs).map (fun x => (x.1, x.2.poison.getD r none)))

/-- A child team (03 R94, R435). Its cluster is its first record's. Left to the model: DESIGN CHOICE, log entry 48. -/
def childTeam (s : State) (l : Launch) (c k b : Nat) (rs : List SpawnRec) : Ctx :=
  let n := rs.length
  let depth := (rs.map (·.depth)).foldl max 1
  let g := Group.fresh l.img.n l.img.q 0
  let kMax := (rs.map (fun r => r.payload.length)).foldl max 0
  { blankTeam s l c k with
    cluster := ((rs.head?).map (·.cluster)).getD 0, team := 0, base := b, child := some { depth := depth, joins := rs.map (·.join) },
    pc := BitVec.ofNat 64 (((rs.head?).map (·.entry)).getD 0),
    s := [0, BitVec.ofNat 64 n, BitVec.ofNat 64 depth, l.arg, 0, 0, l.id.zeroExtend 64] ++ List.replicate 25 0,
    strm := { Stream.fresh with active := lowMask 1024 n, masks := (List.replicate 16 0).set 0 (lowMask 1024 n) },
    groups := [{ g with vregs := (indexed g.vregs).map (fun v => if v.1 < kMax then payloadReg rs v.1 else v.2),
                         vpoison := (indexed g.vpoison).map (fun v => if v.1 < kMax then payloadPoison rs v.1 else v.2) }] }

/-! ### Placement (04 R110, R111) -/

/-- An enabled core of a partition. -/
def coreOk (s : State) (p : Partition) (c : Nat) : Bool :=
  (s.part.cores.getD (c / 48) 0).getLsbD (c % 48) && p.halfDecks.getLsbD (2 * (c / 48) + c % 48 / 24)

/-- The spans of a shape, decks, rows and columns ascending: the cores in team order. -/
def spans (w h : Nat) : List (List Nat) :=
  (List.range 4).flatMap (fun d => (List.range (9 - h)).flatMap (fun y => (List.range (7 - w)).map (fun x =>
    (List.range (w * h)).map (fun t => 48 * d + 6 * (y + t / w) + x + t % w))))

/-- Places team t of a cluster on a core. -/
def placeTeam (s : State) (l : Launch) (ci t c : Nat) : Option (State × Nat × Nat × Nat) :=
  match fitTeam (s.core c) l.img.n l.img.groups (l.img.spill != 0) with
  | none => none
  | some (k, b, r) =>
    (reserve s l ci t c).map (fun s =>
      ((s.updCore c (fun co => { co with childRes := r })).setCtx c k (launchedTeam s l c k b ci t), c, k, b))

/-- Places a cluster on a span. -/
def placeOn (s : State) (l : Launch) (ci : Nat) (cores : List Nat) : Option State :=
  ((indexed cores).foldlM (fun (a : State × List (Nat × Nat × Nat)) tc =>
    (placeTeam a.1 l ci tc.1 tc.2).map (fun r => (r.1, a.2 ++ [r.2]))) (s, [])).map (fun a =>
      a.1.updLaunch l.part l.id (fun x => { x with
        placed := x.placed ++ [{ cores := a.2, exited := List.replicate cores.length false,
                                 triggers := List.replicate cores.length false, freed := false }] }))

/-- The first span on which a cluster fits; one whose placement a transfer delays (R437) does not.
Left to the model: DESIGN CHOICE, log entry 38. -/
def placeCluster (l : Launch) (p : Partition) (s : State) (ci : Nat) : Option State :=
  (spans l.img.w l.img.h).findSome? (fun cores => if cores.all (coreOk s p) then placeOn s l ci cores else none)

/-- A launch is placed whole, or not at all. -/
def placeLaunch (s : State) (p : Partition) (l : Launch) : Option State :=
  let s1 := s.updLaunch l.part l.id (fun x => { x with status := .placed, placed := [], placeOrder := s.stamp })
  (List.range l.clusters).foldlM (placeCluster l p) { s1 with stamp := s.stamp + 1 }

/-! ### Resumption (04 R114, 10 R290) -/

/-- The context of a pre-empted team as its restore routine finds it: its registers as frozen (10 R273). -/
def SavedTeam.context (t : SavedTeam) : Ctx :=
  match t.body.frozen with
  | none => t.body
  | some f => { t.body with
      mode := .restore, pc := t.body.restVec, strm := Stream.routine f.groups.length, resumeR := 0, wait := none,
      tlbWait := [], trig := none,
      groups := f.groups.map (fun g => { g with
        pos := GroupPos.fresh, outs := [], async := [], rstores := [], loops := [], spawnPend := [] }) }

/-- Whether a child team's old context and lane set are those of a reservation. -/
def SavedTeam.inside (t : SavedTeam) (r : Option (Nat × Nat × Nat)) : Bool :=
  t.body.child.isSome && r.any (fun r => r.1 == t.ctx && r.2.1 == t.body.laneSet 0)

/-- A reservation that a core held, taken back with n group-registers if its context is free and they fit (04 R114). -/
def retakeRes (co : Core) (n : Nat) (load : Nat → Nat) (r : Nat × Nat) : Option (Nat × Nat × Nat) :=
  if (co.ctxs.getD r.1 Ctx.free).resident || decide (2048 < load r.2 + n) then none else some (r.1, r.2, n)

/-- The reservation beside a resumed team of a spawning launch: the one it had if the core has none. A child team that was not in a
reservation, or is not in the one that stands now, asks for none (04 R112, R114). -/
def resumeRes (co : Core) (l : Launch) (t : SavedTeam) (load : Nat → Nat) : Option (Option (Nat × Nat × Nat)) :=
  if l.img.spill = 0 || (t.body.child.isSome && !(t.inside t.res && (co.childRes.isNone || t.inside co.childRes))) then some co.childRes
  else match co.childRes, t.res with
    | none, some r => (retakeRes co l.img.n load (r.1, r.2.1)).map some
    | _, _ => (growRes co l.img.n load ((freeCtxs co).filter (fun k => k != t.ctx))).map some

/-- The child reservation with which a team fits its old context and lane sets: a child team inside it takes no more room.
Left to the model: DEDUCED, log entry 42. -/
def resumeFit (co : Core) (l : Launch) (t : SavedTeam) : Option (Option (Nat × Nat × Nat)) :=
  match resumeRes co l t (teamsLoad co) with
  | none => none
  | some r =>
    if t.inside r then some r
    else
      let load (ls : Nat) : Nat := teamsLoad co ls + teamLoad t.body.n t.body.groups.length t.body.base ls
      if co.childRes.any (fun r => r.1 == t.ctx) then none
      else (resumeRes co l t load).filter (fun r =>
        !r.any (fun r => r.1 == t.ctx) && (List.range 4).all (fun ls => decide (load ls + resLoad r ls ≤ 2048)))

/-- A channel on which every identifier below those of a resumed team is complete: its next identifiers lie above (10 R290).
Left to the model: DEDUCED, log entry 42. -/
def Chan.passIds (y : Chan) (next : Nat) : Chan :=
  let n := max y.nextId next
  { y with nextId := n, complete := if y.active.isNone && y.queued.isNone then n else y.complete }

/-- What a resumed team's channels count as complete at least: its identifiers from before (10 R290). -/
def SavedTeam.passed (t : SavedTeam) : List Nat := (List.range 8).map (fun ch => max (t.body.passed.getD ch 1) (t.ids.getD ch 1))

/-- A pre-empted team takes its context and lane sets back, if they are free and no transfer delays it (04 R437); its agents stand again
for what they did. -/
def resumeTeam (l : Launch) (s : State) (t : SavedTeam) : Option State :=
  let co := wakeCore (s.core t.core)
  let co := { co with chans := (indexed co.chans).map (fun y => y.2.passIds (t.ids.getD y.1 1)) }
  if (co.ctxs.getD t.ctx Ctx.free).resident || !transfersClear s t.core then none
  else (resumeFit co l t).map (fun r =>
    (renameTeam (s.setCore t.core { co with childRes := r }) t.core t.name t.ctx).setCtx t.core t.ctx { t.context with passed := t.passed })

/-- A core to which records of the launch return holds the child reservation it held then again; one that stands there now grows where
it can (04 R112, R114). -/
def resumeGatherer (l : Launch) (s : State) (c : Nat) : Option State :=
  let co := wakeCore (s.core c)
  let put (r : Option (Nat × Nat × Nat)) : State := s.setCore c { co with childRes := r }
  if !transfersClear s c then none
  else match co.childRes, l.keptRes.find? (fun r => r.1 == c) with
    | some r, _ => some (put (some ((growRes co l.img.n (teamsLoad co) (freeCtxs co)).getD r)))
    | none, some r => (retakeRes co l.img.n (teamsLoad co) r.2).map (fun r => put (some r))
    | none, none => some (put none)

/-- The cores whose gatherers a pre-empted launch's records belong to. -/
def Launch.recordCores (l : Launch) : List Nat :=
  (l.keptGather.map (·.1) ++ l.keptFormed.map (·.1) ++ l.spilled.map (·.core)).dedup

/-- Returns what firmware kept with the launch to its cores: queue elements, gathered and formed records. -/
def returnKept (s : State) (l : Launch) : State :=
  let s := l.keptQueues.foldl (fun s q => s.updCore q.1 (fun co => { co with
    queues := modifyAt co.queues q.2.1 (fun y => { y with elems := q.2.2.elems, poison := q.2.2.poison, times := q.2.2.times }) })) s
  let s := l.keptFormed.foldl (fun s f => s.updCore f.1 (fun co => { co with formed := co.formed ++ [f.2] })) s
  l.keptGather.foldl (fun s r => s.updCore r.1 (fun co => gatherRecord co r.2)) s

/-- A pre-empted launch resumes whole, on the cores, contexts and lane sets it held (04 R114). Whether it is then the launch placed last is
left to the model: DESIGN CHOICE, log entry 38. -/
def resumeLaunch (s : State) (l : Launch) : Option State :=
  let resvs := (indexed l.placed).foldlM (fun (s : State) cl =>
    if cl.2.freed then some s
    else (indexed cl.2.cores).foldlM (fun (s : State) t => reserve s l cl.1 t.1 t.2.1) s) s
  (resvs.bind (fun s => (l.saved.foldlM (resumeTeam l) s).bind (fun s => l.recordCores.foldlM (resumeGatherer l) s))).map (fun s =>
    { (returnKept s l).updLaunch l.part l.id (fun x => { x with
        status := .placed, byCommand := false, placeOrder := s.stamp, saved := [], keptQueues := [], keptGather := [],
        keptFormed := [], keptRes := [] }) with stamp := s.stamp + 1 })

/-! ### Pre-emption (10 R289, R294) -/

/-- A request reaches a team: a freeze with cause PREEMPT, or held while another freeze or a trap or restore routine is under
way. A save routine goes on. -/
def preemptCtx (x : Ctx) : Ctx :=
  if x.mode == .save then x
  else if x.mode != .user || x.trig.isSome then { x with pendPreempt := true }
  else { x with
    wait := none, tlbWait := [],
    trig := some { cause := cPREEMPT, lane := false, group := 0, async := false, preempt := true, skippable := false,
                   epc := x.pc, faddr := 0, fmask := 0, finfo := 0 } }

/-- Whether a pre-emption is under way on a core. -/
def preempting (co : Core) : Bool := co.ctxs.any (fun x => x.resident && x.trig.any (·.preempt))

/-- Pre-empts a placed launch whole. -/
def preemptLaunch (s : State) (l : Launch) (byCommand : Bool) : State :=
  let mine (x : Ctx) : Bool := x.resident && x.part == l.part && x.launch == l.id
  let s := { s with cores := s.cores.map (fun (co : Core) =>
    if co.ctxs.any mine then
      { co with ctxs := co.ctxs.map (fun x => if mine x then preemptCtx x else x),
                preStat := if preempting co then co.preStat else [] }
    else co) }
  s.updLaunch l.part l.id (fun x => { x with status := .preempting, byCommand := byCommand })

/-- Whether a team of the launch is resident anywhere. -/
def hasTeams (s : State) (l : Launch) : Bool :=
  s.cores.any (fun co => co.ctxs.any (fun x => x.resident && x.part == l.part && x.launch == l.id))

def recOf (l : Launch) (r : SpawnRec) : Bool := r.part == l.part && r.launch == l.id

/-- Takes a launch's reservations, queue elements and gatherer records off the cores. -/
def stripLaunch (s : State) (l : Launch) : State :=
  let s := { s with cores := (indexed s.cores).map (fun c =>
    { c.2 with
      resvs := c.2.resvs.filter (fun r => !(r.part == l.part && r.launch == l.id)),
      gather := c.2.gather.filter (fun r => !recOf l r),
      formed := c.2.formed.filter (fun f => !f.any (recOf l)),
      queues := (indexed c.2.queues).map (fun q =>
        if l.queues.getLsbD q.1 && l.placed.any (fun cl => !cl.freed && cl.cores.any (fun t => t.1 == c.1))
        then { q.2 with elems := [], poison := [], times := [] } else q.2) }) }
  (List.range s.cores.length).foldl releaseReservation s

/-- Whether a record of the launch is left anywhere. -/
def hasRecords (s : State) (l : Launch) : Bool :=
  !l.spilled.isEmpty || s.cores.any (fun co => co.gather.any (recOf l) || co.formed.any (fun f => f.any (recOf l)))

/-- The save routines of a pre-empting launch have all ended: firmware keeps its queue elements and records, and the launch is
pre-empted, or back in the list (R114). One with no team and no record left completes instead. -/
def settlePreempted (s : State) (l : Launch) : State :=
  if l.status != .preempting || hasTeams s l then s
  else if l.saved.isEmpty && !hasRecords s l then s.updLaunch l.part l.id (fun x => { x with status := .placed })
  else
    let cores := indexed s.cores
    let keptQueues := cores.flatMap (fun c =>
      if l.placed.any (fun cl => !cl.freed && cl.cores.any (fun t => t.1 == c.1)) then
        (indexed c.2.queues).filterMap (fun q =>
          if l.queues.getLsbD q.1 && !q.2.elems.isEmpty then some (c.1, q.1, { q.2 with pops := [] }) else none)
      else [])
    let keptGather := cores.flatMap (fun c => (c.2.gather.filter (recOf l)).map (fun r => (c.1, r)))
    let keptFormed := cores.flatMap (fun c => (c.2.formed.filter (fun f => f.any (recOf l))).map (fun f => (c.1, f)))
    let keptRes := cores.filterMap (fun c => c.2.childRes.map (fun r => (c.1, r.1, r.2.1)))
    let s := s.updLaunch l.part l.id (fun x =>
      let x := { x with
        status := if x.byCommand then .preempted else .waiting,
        keptQueues := keptQueues, keptGather := keptGather, keptFormed := keptFormed }
      { x with keptRes := keptRes.filter (fun r => x.recordCores.contains r.1) })
    stripLaunch s l

/-! ### The waiting list (04 R111, R114) -/

/-- Whether a launch stands before another in the list. -/
def Launch.before (a b : Launch) : Bool := decide (b.priority < a.priority) || (a.priority == b.priority && decide (a.arrival < b.arrival))

/-- Each producer has every team placed or has completed. One whose pre-emption is under way still has its teams placed.
Left to the model: DESIGN CHOICE, log entry 48. -/
def eligible (s : State) (l : Launch) : Bool :=
  l.producers.all (fun p => p == 0 || (match s.launch? l.part p with
    | none => true
    | some q => q.status == .placed || q.status == .preempting || q.status == .completed))

/-- The first eligible waiting launch of a partition; one that PREEMPT holds is passed over.
Left to the model: DESIGN CHOICE, log entry 48. -/
def firstWaiting (s : State) (part : Nat) : Option Launch :=
  (s.launches.filter (fun l => l.part == part && l.status == .waiting && eligible s l)).foldl (fun best l =>
    match best with
    | none => some l
    | some b => if l.before b then some l else some b) none

def tryFit (s : State) (p : Partition) (l : Launch) : Option State :=
  if l.placed.isEmpty then placeLaunch s p l else resumeLaunch s l

/-- The producers of a launch, directly or through others; each round adds one layer. -/
def producersOf (s : State) (part : Nat) : Nat → List W32 → List W32
  | 0, acc => acc
  | n + 1, acc => producersOf s part n (acc ++ (acc.flatMap (fun p => ((s.launch? part p).map (·.producers)).getD [])).filter
      (fun p => p != 0 && !acc.contains p) |>.dedup)

/-- The state as it would stand with a launch gone and its transfers drained. -/
def evict (s : State) (l : Launch) : State :=
  let mine (x : Ctx) : Bool := x.resident && x.part == l.part && x.launch == l.id
  let drained (y : Chan) : Chan := { y with queued := none, active := none }
  let s := { s with cores := s.cores.map (fun (co : Core) =>
    if co.ctxs.any mine then
      { co with ctxs := co.ctxs.map (fun x => if mine x then Ctx.free else x), chans := co.chans.map drained }
    else co) }
  stripLaunch (s.updLaunch l.part l.id (fun x => { x with status := .preempted })) l

/-- Victims in their order: lowest priority first, most recently placed first. -/
def victimBefore (a b : Launch) : Bool := decide (a.priority < b.priority) || (a.priority == b.priority && decide (b.placeOrder < a.placeOrder))

def insertBy (lt : Launch → Launch → Bool) (x : Launch) : List Launch → List Launch
  | [] => [x]
  | y :: r => if lt x y then x :: y :: r else y :: insertBy lt x r

/-- The shortest run of victims that makes a launch fit, none where no choice does. -/
def chooseVictims (s : State) (p : Partition) (l : Launch) : List Launch → Option (List Launch)
  | [] => if (tryFit s p l).isSome then some [] else none
  | v :: r => if (tryFit s p l).isSome then some [] else (chooseVictims (evict s v) p l r).map (fun vs => v :: vs)

/-- The state as it would stand with every transfer drained: a transfer only delays a placement (R437). -/
def calm (s : State) : State :=
  { s with cores := s.cores.map (fun (co : Core) =>
      { co with chans := co.chans.map (fun y => { y with queued := none, active := none }) }) }

/-- Pre-emption for a priority-3 launch that does not fit (R114). -/
def preemptFor (s : State) (p : Partition) (l : Launch) : State :=
  if l.priority ≠ 3 || p.priv.isNone then s
  else
    let keep := producersOf s p.id s.launches.length l.producers
    let cands := s.launches.filter (fun v => v.part == p.id && v.status == .placed && decide (v.priority < 3) && !keep.contains v.id)
    let gone := (s.launches.filter (fun v => v.part == p.id && v.status == .preempting)).foldl evict (calm s)
    match chooseVictims gone p l (cands.foldr (insertBy victimBefore) []) with
    | none => s
    | some vs => vs.foldl (fun s v => preemptLaunch s v false) s

/-- Places launches from the front of the list until one does not fit; the first launch is the first eligible one.
Left to the model: DESIGN CHOICE, log entry 48. -/
def placeLoop (p : Partition) : Nat → State → State
  | 0, s => s
  | n + 1, s =>
    match firstWaiting s p.id with
    | none => s
    | some l => match tryFit s p l with
      | some s' => placeLoop p n s'
      | none => preemptFor s p l

end Sys2Proof.Machine
end

