-- ==== Sys2Proof/Machine/Rings.lean ====
section
/-! DEFINITION. Rings and records: ring tables (11 R316), NOTIFY, block fetch and consumer positions (R317-R319), completion
records and interrupts (R320, R321), and writes to BAR0 (R314). Positions are 32-bit and compare modulo 2^32. -/

namespace Sys2Proof.Machine

/-! ### Records (R320, R321) -/

def SubRing.none : SubRing := { present := false, base := 0, entries := 0, event := 0, consumer := 0, announced := 0, rung := [] }

def EvRing.none : EvRing :=
  { present := false, base := 0, entries := 0, count := 1, delay := 0, produced := 0, consumed := 0, held := [], since := 0 }

def State.page (s : State) (p : Nat) : Page := s.pages.getD p Page.empty

def State.evRing (s : State) (p e : Nat) : EvRing := (s.page p).evs.getD e EvRing.none

def State.subRing (s : State) (p r : Nat) : SubRing := (s.page p).subs.getD r SubRing.none

def State.updEv (s : State) (p e : Nat) (f : EvRing → EvRing) : State :=
  { s with pages := modifyAt s.pages p (fun g => { g with evs := modifyAt g.evs e f }) }

def State.updSub (s : State) (p r : Nat) (f : SubRing → SubRing) : State :=
  { s with pages := modifyAt s.pages p (fun g => { g with subs := modifyAt g.subs r f }) }

/-- The 32 bytes of a record written now at a position of its event ring. -/
def Record.bytes (r : Record) (time : W64) (pos : Nat) : List Byte :=
  bytesOf 8 time.toNat ++ bytesOf 2 r.status ++
  bytesOf 2 (match r.cause with | some c => 0x8000 + c % 512 | none => 0) ++
  bytesOf 4 r.faults ++ bytesOf 4 r.tag.toNat ++ bytesOf 4 pos ++ bytesOf 8 r.result.toNat

/-- Raises MSI-X vector 16p + e and starts a new count. Left to the model: DESIGN CHOICE, log entry 40. -/
def raiseIrq (s : State) (p e : Nat) : State :=
  { s.updEv p e (fun v => { v with since := 0 }) with irqs := s.irqs ++ [16 * p + e] }

/-- Writes a record to its slot. -/
def emitRecord (s : State) (p e : Nat) (r : Record) : State :=
  let v := s.evRing p e
  let s := writePhys s (v.base + v.produced % v.entries * 32) (r.bytes s.devTime (v.produced + 1))
  let s := s.updEv p e (fun v => { v with produced := v.produced + 1, since := v.since + 1 })
  if v.delay = 0 || v.count ≤ v.since + 1 then raiseIrq s p e else s

/-- Whether an event ring can take a record now. -/
def EvRing.room (v : EvRing) : Bool := v.present && v.held.isEmpty && decide (v.produced - v.consumed < v.entries)

/-- Writes a record, or holds it while the ring is full. -/
def writeRecord (s : State) (p e : Nat) (r : Record) : State :=
  if (s.evRing p e).room then emitRecord s p e r else s.updEv p e (fun v => { v with held := v.held ++ [r] })

/-- Writes the held records there is room for. Left to the model: DEDUCED, log entry 33. -/
def flushHeld (s : State) (p e : Nat) : List Record → State
  | [] => s
  | r :: rest =>
    let v := s.evRing p e
    if v.present && decide (v.produced - v.consumed < v.entries) then
      flushHeld ((emitRecord s p e r).updEv p e (fun v => { v with held := rest })) p e rest
    else s

/-- The tag of a command's record. -/
def srcTag (c : CmdSrc) : W32 := BitVec.ofNat 32 (c.ring * 2 ^ 28 + c.pos.toNat % 2 ^ 28)

/-- The completion record of a command (R316, R321). -/
def complete (s : State) (src : CmdSrc) (status : Nat) (cause : Option Nat) (faults : Nat) (result : W64) : State :=
  writeRecord s src.page (s.subRing src.page src.ring).event
    { status := status, cause := cause, faults := faults, tag := srcTag src, result := result }

/-- An unsolicited record of a partition (R321). -/
def unsolicited (s : State) (part : Nat) (cause : Option Nat) (result : W64) : State :=
  writeRecord s part 0 { status := stEvent, cause := cause, faults := 0, tag := 0, result := result }

/-! ### Ring tables (R316) -/

/-- Host window or bonded DRAM. Left to the model: DEDUCED, log entry 33. -/
def ringPlace (s : State) (pa : Nat) : Bool :=
  match tierOf s pa with
  | .dram _ _ => true
  | .hostw _ => true
  | _ => false

/-- A power of two from 16 to 4096. -/
def ringEntries (n : Nat) : Bool := [16, 32, 64, 128, 256, 512, 1024, 2048, 4096].contains n

def parseSub (b : List Byte) : SubRing :=
  if bit (BitVec.ofNat 8 (leNat b 11 1)) 0 then
    { present := true, base := leNat b 0 8, entries := leNat b 8 2, event := leNat b 10 1, consumer := 0, announced := 0, rung := [] }
  else SubRing.none

def parseEv (b : List Byte) : EvRing :=
  if bit (BitVec.ofNat 8 (leNat b 11 1)) 0 then
    { EvRing.none with
      present := true, base := leNat b 0 8, entries := leNat b 8 2, count := leNat b 10 1 + 1, delay := leNat b 12 2 }
  else EvRing.none

/-- The page a ring table gives; none where it breaks a limit or names an absent event ring.
Left to the model: DEDUCED, log entry 33. -/
def parseTable (s : State) (addr : Nat) : Option Page :=
  let entry (i : Nat) : List Byte := readPhys s (addr + 16 * i) 16
  let subs := (List.range 16).map (fun i => parseSub (entry i))
  let evs := (List.range 16).map (fun i => parseEv (entry (16 + i)))
  if subs.all (fun r => !r.present || (r.base % 64 == 0 && ringPlace s r.base && ringEntries r.entries &&
        (evs.getD r.event EvRing.none).present)) &&
      evs.all (fun v => !v.present || (v.base % 32 == 0 && ringEntries v.entries))
  then some { table := addr, subs := subs, evs := evs } else none

/-! ### BAR0 (R314) -/

/-- BAR0 answers writes: the module is not held in reset, and its configuration was not rejected (01 R27, 11 R335). Before the first deck
is ready none has an effect. Left to the model: DESIGN CHOICE, log entry 53. -/
def bar0Up (s : State) : Bool :=
  match s.boot.phase with
  | .training => s.boot.ready != 0
  | .ready => true
  | _ => false

/-- BOOTSTAT (R314). -/
def bootStat (s : State) : W64 :=
  word64 [(s.boot.verified.toNat, 0), (s.boot.reduced.toNat, 1), (s.boot.ready.toNat, 2), (s.boot.failed.toNat, 6),
    ((s.boot.phase == .rejected).toNat, 10), (s.boot.thermal.toNat, 11)]

/-- What a read of BAR0 returns: BOOTSTAT on the management page, the feature registers of each page, the management page's counting the
regions of every partition, and zero elsewhere; while the module is held in reset, BOOTSTAT alone (R314, R332; 01 R27). -/
def bar0Read (s : State) (page off : Nat) : W64 :=
  if page = 8 ∧ off = 0x10 then bootStat s
  else if s.boot.phase == .tripped || 8 < page || off < 0x100 || 0x138 < off || off % 8 != 0 then 0
  else featWord s (if page = 8 then s.regions.length else regionsOf s page) ((off - 0x100) / 8)

/-- How far a 32-bit position lies beyond another. -/
def ahead (a b : Nat) : Nat := (a + 2 ^ 32 - b % 2 ^ 32) % 2 ^ 32

/-- A doorbell: the blocks up to a position are submitted, at this place in the order of writes (04 R119). -/
def announce (s : State) (page ring pos : Nat) : State :=
  let s := if s.pages.all (fun p => p.subs.all (fun q => q.announced == q.consumer)) then { s with wrote := [] } else s
  { s.updSub page ring (fun q => { q with announced := pos, rung := q.rung ++ [(pos, s.stamp)] }) with stamp := s.stamp + 1 }

/-- NOTIFY (R317). A position less than 2^31 ahead is beyond another. Left to the model: DESIGN CHOICE, log entry 53. -/
def execNotify (page : Nat) (v : W64) (s : State) : Out :=
  let r := (fld v 0 4).toNat
  let pos := (fld v 32 32).toNat
  let q := s.subRing page r
  let d := ahead pos q.announced
  .next (if !bar0Up s || !q.present || d = 0 || 2 ^ 31 ≤ d then s
    else if q.entries < ahead pos q.consumer then
      writeRecord (announce s page r ((q.consumer + q.entries) % 2 ^ 32)) page q.event
        { status := stRingOver, cause := none, faults := 0, tag := srcTag { page := page, ring := r, pos := fld v 32 32, part := page },
          result := 0 }
    else announce s page r pos)

/-- EVCONS (R320): a position beyond the records written has no effect. -/
def execEvcons (page : Nat) (v : W64) (s : State) : Out :=
  let e := (fld v 0 4).toNat
  let r := s.evRing page e
  let d := ahead (fld v 32 32).toNat r.consumed
  .next (if !bar0Up s || !r.present || r.produced - r.consumed < d then s
    else
      let s := s.updEv page e (fun r => { r with consumed := r.consumed + d })
      flushHeld s page e (s.evRing page e).held)

/-- MRTABLE (R316): the management page's rings. -/
def execMrtable (v : W64) (s : State) : Out :=
  .next (if !bar0Up s then s
    else match parseTable s v.toNat with
      | some p => { s with mgmtTable := v, pages := s.pages.set 8 p }
      | none => s)

/-- A write to any other offset is ignored (R314). -/
def execBar0OtherWrite (_ _ : Nat) (_ : W64) (s : State) : Out := .next s

/-! ### Fetching blocks (R317-R319) -/

/-- Whether firmware may fetch the ring's next block. -/
def mayFetch (s : State) (page ring : Nat) : Bool :=
  let q := s.subRing page ring
  bar0Up s && q.present && q.consumer != q.announced && (s.evRing page q.event).room &&
  !s.cmds.any (fun c => c.src.page == page && c.src.ring == ring)

/-- The next position of a ring, and its block. -/
def nextBlock (s : State) (page ring : Nat) : W32 × List Byte :=
  let q := s.subRing page ring
  (BitVec.ofNat 32 (q.consumer + 1), readPhys s (q.base + q.consumer % q.entries * 64) 64)

def tagOk (pos : W32) (b : List Byte) : Bool := leNat b 6 2 == pos.toNat % 2 ^ 16

/-- The consumer position rises and is written to the ring's table entry; doorbells of earlier blocks alone are past. -/
def consume (s : State) (page ring : Nat) : State :=
  let n := ((s.subRing page ring).consumer + 1) % 2 ^ 32
  let s := s.updSub page ring (fun q => { q with consumer := n, rung := q.rung.filter (fun d => decide (ahead d.1 n < 2 ^ 31)) })
  writePhys s ((s.page page).table + 16 * ring + 12) (bytesOf 4 n)

/-- Firmware fetches the next block: a stale tag is read again later; a bad block is rejected; a command runs next. -/
def execBlockFetch (page ring : Nat) (s : State) : Out :=
  .next (if !mayFetch s page ring then s
    else
      let (pos, b) := nextBlock s page ring
      if !tagOk pos b then s
      else
        let src : CmdSrc := { page := page, ring := ring, pos := pos, part := page }
        let s := consume s page ring
        match decodeBlock page ring pos b with
        | .error st => complete s src st none 0 0
        | .ok i => { s with agenda := .event i :: s.agenda })

/-- 64 µs of re-reading pass: the block is rejected (R318). -/
def execTagMismatch (page ring : Nat) (s : State) : Out :=
  .next (if !mayFetch s page ring then s
    else
      let (pos, b) := nextBlock s page ring
      if tagOk pos b then s
      else
        let src : CmdSrc := { page := page, ring := ring, pos := pos, part := page }
        complete (consume s page ring) src stTagMismatch none 0 0)

/-- The coalescing delay of the oldest uninterrupted record elapses (R320). -/
def execCoalescingDelayExpiry (page e : Nat) (s : State) : Out :=
  .next (if (s.evRing page e).present && decide (0 < (s.evRing page e).since) then raiseIrq s page e else s)

end Sys2Proof.Machine
end

