-- ==== Sys2Proof/Machine/EvCore.lean ====
section
/-! DEFINITION. The part's own steps that act on cores: spawn records and child teams (03 R89-R99), copy transfers (07 R184-R189),
routine entry (10 R273-R277, R293), the watchdog (R296), soft errors (R300, R301) and the pool tier (07 R202-R205). -/

namespace Sys2Proof.Machine

/-! ### Spawn records (03 R89-R98) -/

/-- A group's issued SPAWN words whose records are on their way to the gatherer: all but the one it is suspended on. -/
def Group.batches (g : Group) : List (List SpawnRec) :=
  if g.pos.status == .suspended .spill then g.spawnPend.dropLast else g.spawnPend

/-- No SPAWN word of the core that issued before a batch's still has records to be accepted (03 R91, R97). -/
def firstIssued (s : State) (c : Nat) (batch : List SpawnRec) : Bool :=
  (s.core c).ctxs.all (fun x => x.groups.all (fun g => g.spawnPend.all (fun b =>
    b.all (fun r => batch.all (fun q => decide (q.order ≤ r.order))))))

/-- A SPAWN word's waits are over: its remote stores are acknowledged and its remote reads performed (07 R183, 08 R222); the faults of
its stores are raised (07 R183). -/
def raiseStores (s : State) (c k g : Nat) (faults : List AsyncFault) (f : State → State) : State :=
  let own := faults.filter (·.store)
  own.foldl (fun s a => raiseAsync s c k a) (f (if own.isEmpty then s
    else s.updGroup c k g (fun r => { r with async := r.async.filter (fun a => !a.store) })))

/-- A SPAWN's release (08 R220): what the group did on path L and what it acquired, the team's earlier control stores among it. -/
def releaseSpawn (s : State) (c k g : Nat) (batch : List SpawnRec) : State :=
  match batch with
  | [] => s
  | r :: _ => releaseGroup s c k g (.spawn r.order) .all

/-- The oldest records of a group's SPAWN words are accepted, in issue order on the core (03 R89, R91). -/
def execSpawnRecordsAccepted (c k g : Nat) (s : State) : Out :=
  onIssuing s c k g (fun _ r =>
    match r.batches with
    | [] => s
    | batch :: _ =>
      if !r.releaseReady || !firstIssued s c batch then s
      else raiseStores (releaseSpawn s c k g batch) c k g r.async (fun s =>
        unpark (acceptAll (s.updGroup c k g (fun r => { r with spawnPend := r.spawnPend.tail })) (grpAgent c k g .s) c batch) c k g))

/-- Writes a group's records to their places, bytes free, each after its check; the first fault ends it (03 R97, R98).
Left to the model: DESIGN CHOICE, log entry 36. -/
def spillWrites (s : State) (a : Agent) (l : Launch) (c : Nat) : List (Nat × SpawnRec) → Except (State × AFault × W64) State
  | [] => .ok s
  | (slot, r) :: rest =>
    let va := l.spillBase + BitVec.ofNat 64 (32 * slot)
    match checkAccess s l.part l.asid .sp pathS va 1 false with
    | .error f => .error (s, f, va)
    | .ok pa =>
      let w := newLate s a s.freeCtr false [] none (span pa 32)
      let s := writePhys s pa ((List.range 32).map (fun i => fld (s.free 15 (32 * slot + i)) 0 8))
      let s := if inHost s pa then s else { s with late := s.late ++ [w] }
      let s := s.updLaunch l.part l.id (fun x => { x with
        spilled := x.spilled ++ [{ core := c, slot := slot, record := r, order := s.stamp, overwritten := false }] })
      spillWrites { s with stamp := s.stamp + 1 } a l c rest

/-- The suspended group's records land in the spill buffer, in issue order on the core, and it goes on after its SPAWN; a fault is
the word's (03 R97). -/
def execSpillWriteComplete (c k g : Nat) (s : State) : Out :=
  onIssuing s c k g (fun x r =>
    match r.spawnPend, x.launch? s with
    | [batch], some l =>
      if r.pos.status != .suspended .spill || !r.releaseReady || !firstIssued s c batch then s
      else
        let s1 := (releaseSpawn s c k g batch).updGroup c k g (fun r => { r with spawnPend := [] })
        match spillWrites s1 (grpAgent c k g .s) l c ((freeSlots l 0 batch.length).zip batch) with
        | .error (_, f, va) => leaveSpilling (laneTrap s1 c k g f.cause false true va r.pos.exmask f.finfo) c
        | .ok s2 => raiseStores s2 c k g r.async (fun s => passOver (makeEligible (batch.foldl (joinInc (grpAgent c k g .s)) s) c k g) c k g)
    | _, _ => s)

/-- The oldest spilled record of a core whose launch is not pre-empted. Left to the model: DESIGN CHOICE, log entry 36. -/
def oldestSpill (s : State) (c : Nat) : Option (Launch × SpillRec) :=
  (s.launches.flatMap (fun l => if l.status == .placed then (l.spilled.filter (fun r => r.core == c)).map (fun r => (l, r)) else [])).foldl
    (fun best x => match best with
      | none => some x
      | some b => if x.2.order < b.2.order then some x else some b) none

/-- A record as it is read back: a program's write into the buffer leaves its payload, its join address and, by a free choice,
its entry unpredictable (03 R98). -/
def SpillRec.readBack (s : State) (r : SpillRec) : SpawnRec :=
  if !r.overwritten then r.record
  else { r.record with
    payload := (indexed r.record.payload).map (fun p => fld (s.free 16 (8 * r.slot + p.1)) 0 32),
    join := s.free 16 (8 * r.slot + 6),
    entry := if s.choice 16 r.slot then r.record.entry else (fld (s.free 16 (8 * r.slot + 7)) 0 32).toNat }

/-- A refill that fails: its record is discarded and every JWAIT of the launch raises the cause. -/
def refillFault (s : State) (l : Launch) (cause : Nat) (finfo : W64) : State :=
  (countFault s l.part l.id cause).updLaunch l.part l.id (fun x => { x with
    refillCause := x.refillCause <|> some (cause, finfo) })

/-- The gatherer reads back its core's oldest spilled record as room frees (03 R97). -/
def execGathererRefill (c : Nat) (s : State) : Out :=
  .next (match oldestSpill s c with
    | none => s
    | some (l, r) =>
      if 4096 ≤ gatherLoad s c then s
      else
        let s1 := s.updLaunch l.part l.id (fun x => { x with spilled := x.spilled.filter (fun y => y.order != r.order) })
        let x := r.readBack s
        let s2 := match checkAccess s l.part l.asid .sp pathS (l.spillBase + BitVec.ofNat 64 (32 * r.slot)) 1 false with
          | .error f => refillFault s1 l f.cause f.finfo
          | .ok _ => if l.img.entries.contains x.entry then gatherAt s1 c x else refillFault s1 l cSPAWNENTRY 0
        releaseReservation (leaveSpilling s2 c) c)

/-- 4096 cycles without an accepted, spilled or refilled record: every partial sequence forms (03 R92). -/
def execGathererIdleTimeout (c : Nat) (s : State) : Out :=
  .next (s.updCore c (fun co => formPartials co (fun r => forming s r.part r.launch)))

/-- Where a core can start a child team of a launch: the reserved context and its lane set, or a free context and a lane set
with room (03 R99). Left to the model: DESIGN CHOICE, log entry 36. -/
def childPlace (co : Core) (n : Nat) : Option (Nat × Nat) :=
  let other := (freeCtxs co).head?.bind (fun k =>
    ((List.range 4).find? (fun ls => laneLoad co ls + n ≤ 2048)).map (fun ls => (k, ls)))
  match co.childRes with
  | some (k, ls, m) => if !(co.ctxs.getD k Ctx.free).resident && decide (n ≤ m) then some (k, ls) else other
  | none => other

/-- The first of a list of cores that can start the team. -/
def childCore (s : State) (n : Nat) (cores : List Nat) : Option (Nat × Nat × Nat) :=
  cores.findSome? (fun c => (childPlace (s.core c) n).map (fun p => (c, p.1, p.2)))

/-- A context takes the core's oldest formed child team, locally or on another core of its span (03 R94, R99), and acquires what its
records' SPAWN words released (08 R220). The core it leaves keeps its reservation while that still serves (04 R112). A core that only an
export gives a child team gets none. Left to the model: DESIGN CHOICE, log entry 36. -/
def execChildTeamStart (c : Nat) (s : State) : Out :=
  .next (match (indexed (s.core c).formed).find? (fun f => f.2.any (fun r => forming s r.part r.launch)) with
    | none => s
    | some (i, rs) =>
      match rs.head?.bind (fun r => (s.launch? r.part r.launch).map (fun l => (r, l))) with
      | none => s
      | some (r, l) =>
        let span := ((l.placed[r.cluster]?).map (fun cl => cl.cores.map (·.1))).getD []
        match (if powerStopped s r.part then none else childCore s l.img.n (c :: span)) with
        | none => s
        | some (tc, k, ls) =>
          let s := s.updCore c (fun co => { co with formed := co.formed.eraseIdx i })
          let s := acquire (s.setCtx tc k (childTeam s l tc k ls rs)) tc (fun r => match r.link with
            | .spawn o => rs.any (fun r => r.order == o)
            | _ => false) [.team tc k]
          releaseReservation (refresh s true [.team tc k]) c)

/-! ### Copy transfers (07 R184, R187-R189) -/

/-- The queued transfer becomes active. -/
def execTransferStart (c ch : Nat) (s : State) : Out :=
  let y := s.chan c ch
  .next (if y.active.isSome || y.queued.isNone then s
    else wakeEngine (s.updChan c ch (fun y => { y with active := y.queued, queued := none })) c)

/-- Whether every byte for one line can land. -/
def lineClean (s : State) (t : Xfer) (l : Nat × Nat) : Bool :=
  (nestBytes t.regs).all (fun p =>
    match xferDest s t p.2 with
    | .ok d => d.1 != some l.1 || d.2 / 128 != l.2 || (match xferRead s t p.1 with | .ok _ => true | .error _ => false)
    | .error _ => true)

/-- Every byte the transfer writes to a line has landed (07 R180): `line` counts the lines it still holds. -/
def execLineLanded (c ch line : Nat) (s : State) : Out :=
  let y := s.chan c ch
  .next (match y.active with
    | none => s
    | some t => match t.lines[line]? with
      | none => s
      | some l => if y.halted || !lineClean s t l then s else landLine s c ch t l)

/-- All bytes have landed (07 R184). -/
def execTransferComplete (c ch : Nat) (s : State) : Out :=
  let y := s.chan c ch
  .next (match y.active with
    | none => s
    | some t => if y.halted || !(xferFaults s t).isEmpty then s else wakeEngine (completeTransfer s c ch) c)

/-- Whether a halt's free choice lands every byte for one line, none of which meets a fault. -/
def lineChosen (s : State) (t : Xfer) (l : Nat × Nat) : Bool :=
  lineClean s t l && (indexed (nestBytes t.regs)).all (fun p =>
    match xferDest s t p.2.2 with
    | .ok d => d.1 != some l.1 || d.2 / 128 != l.2 || s.choice 17 p.1
    | .error _ => true)

/-- Tells every team of the part that waits for a line of a halted transfer. -/
def haltTeams (s : State) (h : Halt) (f : Nat → AsyncFault) : State :=
  ((h.lines.map (·.1)).dedup).foldl (fun s c =>
    (List.range 8).foldl (fun s k =>
      if !(s.ctx c k).resident then s
      else
        let s := haltFrozen s c k h (f 0)
        (List.range (s.ctx c k).groups.length).foldl (fun s g => haltGroup s c k g h (f g)) s) s) s

/-- A transfer meets an access fault: one fault, chosen freely, is the channel's; bytes still to land that meet none may have landed
(07 R189), and a line whose every byte has is present (07 R180). With its team gone it is completed as SKIP (10 R287). -/
def execTransferHalt (c ch : Nat) (s : State) : Out :=
  let y := s.chan c ch
  .next (match y.active with
    | none => s
    | some t =>
      match xferFaults s t with
      | [] => s
      | f :: fs =>
        if y.halted then s
        else
          let pick := (f :: fs).getD ((s.free 17 ch).toNat % (fs.length + 1)) f
          let whole := t.lines.filter (lineChosen s t)
          let s := whole.foldl (lineDone c ch) (landBytes s t (fun i d => !t.hasLanded d && s.choice 17 i))
          let s := s.updChan c ch (fun y => { y with
            halted := true, faultCause := pick.1.cause, faultAddr := pick.2, faultInfo := pick.1.finfo })
          let gone := !(indexed (s.core c).ctxs).any (fun x => x.2.resident && t.by x.2 x.1)
          let s := if gone then finishTransfer s c ch
            else haltTeams s (haltOf s (c, ch) (t.lines.filter (fun l => !whole.contains l))) (fun g => haltFault s (c, ch) g)
          wakeEngine s c)

/-- The side rows of a STATE write (07 R189). -/
def execEngineRetry (c ch : Nat) (s : State) : Out := .next (writeState s c ch 1)

def execEngineSkip (c ch : Nat) (s : State) : Out := .next (writeState s c ch 2)

/-! ### Routines (10 R273-R277, R289, R293, R296) -/

/-- Whether a group has stopped where a freeze takes it (R275, R277). -/
def groupStopped (g : Group) : Bool :=
  g.pos.status != .running && g.pos.parkFence.isNone && g.spawnPend.isEmpty &&
  g.outs.all (fun v => v.written || v.popQueue.isSome)

/-- The record of a channel halted at pre-emption (R293), and after its four words the FINFO of its fault. -/
def haltWords (y : Chan) (ch : Nat) : List W64 :=
  [word64 [(1, 0), (ch, 1), ((y.active.map (·.ctx)).getD 0 % 8, 4)], BitVec.ofNat 64 y.complete, y.faultWord 0, 0, y.faultInfo]

def noHalt : List (List W64) := List.replicate 8 [0, 0, 0, 0]

/-- Firmware skips a channel halted at pre-emption: its first halt is recorded; a later one is held for its team. -/
def skipForPreempt (s : State) (c : Nat) : State :=
  (List.range 8).foldl (fun s ch =>
    let y := s.chan c ch
    if !y.halted then s
    else
      let stat := if (s.core c).preStat.isEmpty then noHalt else (s.core c).preStat
      let s := if bit ((stat.getD ch []).getD 0 0) 0 then
          s.updCore c (fun co => { co with ctxs := (indexed co.ctxs).map (fun x =>
            if y.active.any (fun t => t.by x.2 x.1) then { x.2 with held := x.2.held ++ [haltFault s (c, ch) 0] } else x.2) })
        else s.updCore c (fun co => { co with preStat := stat.set ch (haltWords y ch) })
      wakeEngine (finishTransfer s c ch) c) s

/-- Every transfer of the core has drained. -/
def drained (co : Core) : Bool := co.chans.all (fun y => y.active.isNone && y.queued.isNone)

/-- Every group has stopped and the context enters its routine; for a pre-emption every transfer of the core has drained too. -/
def execRoutineEntry (c k : Nat) (s : State) : Out :=
  let x := s.ctx c k
  .next (match x.trig with
    | none => s
    | some t =>
      if !x.resident || !issuing s x.part || !x.groups.all groupStopped then s
      else if !t.preempt then enterRoutine s c k t .trap [] []
      else
        let s := skipForPreempt s c
        let co := s.core c
        if drained co then
          enterRoutine s c k t .save (co.chans.map (·.shadow)) (if co.preStat.isEmpty then noHalt else co.preStat)
        else s)

/-- Ends every team of a launch with a cause, and drops what firmware and its cores keep of it.
Left to the model: DEDUCED, log entry 27. -/
def killLaunch (s : State) (l : Launch) (cause : Nat) : State :=
  let mine (x : Ctx) : Bool := x.resident && x.part == l.part && x.launch == l.id
  let s := (List.range s.cores.length).foldl (fun s c =>
    (List.range 8).foldl (fun s k => if mine (s.ctx c k) then terminate s c k cause 0 else s) s) s
  let s : State := l.saved.foldl (fun s t =>
    let s := countFault s l.part l.id cause
    match t.body.child with
    | some ch => endJoins s (ctxAgent t.core t.name .s) (exitAgents t.body t.core t.name) l.part l.id ch.joins cause 0
    | none => s) s
  let s : State := match s.launch? l.part l.id with
    | some l => if l.status == .placed || l.status == .preempting then stripLaunch s l else s
    | none => s
  let ended (cl : Cluster) : Cluster :=
    { cl with exited := cl.exited.map (fun _ => true), triggers := cl.triggers.map (fun _ => true), freed := true }
  let s := s.updLaunch l.part l.id (fun x => { x with
    placed := x.placed.map ended,
    spilled := [], saved := [], keptQueues := [], keptGather := [], keptFormed := [], keptRes := [], oldCode := [] })
  (List.range s.cores.length).foldl (fun s c => releaseReservation (leaveSpilling s c) c) s

/-- A routine passes its limit: the team ends, and with a save routine the launch (R296). -/
def execWatchdog (c k : Nat) (s : State) : Out :=
  let x := s.ctx c k
  .next (if !x.resident || x.mode == .user || powerStopped s x.part then s
    else
      let s1 := terminate s c k cWATCHDOG 0
      if x.mode != .save then s1
      else match s1.launch? x.part x.launch with
        | some l => (killLaunch s1 l cWATCHDOG).updLaunch x.part x.launch (fun l => { l with status := .placed })
        | none => s1)

/-! ### The pool tier (07 R202-R205) -/

/-- A BISnp checks its line in, drops every copy with its poison and is answered (R202). Left to the model: DEDUCED, log entry 37. -/
def execBisnpReceived (line : Nat) (s : State) : Out :=
  let at_ (a : Nat) : Bool := a / 128 == line
  .next (forgetLate (dropCopies (checkInWhere s (fun l => l.line == line)) at_) none at_)

/-- A result in flight from severed regions: its elements are zero, and POOLSEVER waits for the covering marker (R205). A
read-modify-write still to be performed there is never performed.
Left to the model: DEDUCED, log entry 27. -/
def severGroup (hit : Nat → Option Region) (gi : Nat) (g : Group) : Group :=
  (indexed g.outs).foldl (fun g v =>
    match v.2.written, v.2.pool.find? (fun p => (hit p.2.1).isSome) with
    | false, some p =>
      let gone := (v.2.pool.filter (fun q => (hit q.2.1).isSome)).map (·.1)
      let vals := v.2.vals.map (fun r => (indexed r).map (fun e => if v.2.gs || gone.contains e.1 then (0 : Elem) else e.2))
      let f : AsyncFault := { store := false, lane := true, group := gi, skip := false, fmask := gone.foldl (fun (m : Lanes) i => putBit m i true) 0,
                              cause := cPOOLSEVER, faddr := p.2.2, finfo := ((hit p.2.1).map finfoSever).getD 0 }
      let left := v.2.remote.filter (fun a => !(a.op.isAtomic && a.core == Config.cores && a.lanes.any (fun l => gone.contains l.lane)))
      { g with outs := g.outs.set v.1 { v.2 with vals := vals, remote := left }, async := g.async ++ [f] }
    | _, _ => g) g

/-- A pool port's link is lost: its regions are severed at one moment, their cached lines dropped and counted, stores already issued
and the lines' poison among them, and their owners told (R204, R205). -/
def severPort (s : State) (port : Nat) : State :=
  let hitR (r : Region) : Bool := r.port == port && !r.severed
  let at_ (rs : List Region) (pa : Nat) : Bool := match tierOf s pa with
    | .pool n => rs.any (fun r => r.num == n)
    | _ => false
  let s := flushThrough s (fun q => q.scratch.isNone && q.cells.any (fun c => at_ (s.regions.filter hitR) c.1))
  let lines (r : Region) : List PoolLine := s.poolLines.filter (fun l => lineRegion l == r.num)
  let lost (r : Region) : Region :=
    { r with severed := true, dropped := ((lines r).filter (fun l => l.twin.isSome || l.dirty)).length }
  let gone := (s.regions.filter hitR).map lost
  let s := { s with
    regions := s.regions.map (fun r => if hitR r then lost r else r),
    poolLines := s.poolLines.filter (fun l => !gone.any (fun r => r.num == lineRegion l)) }
  let s := forgetLate (dropCopies s (at_ gone)) none (at_ gone)
  let hit (n : Nat) : Option Region := gone.find? (fun r => r.num == n)
  let s := { s with cores := s.cores.map (fun co => { co with
    ctxs := co.ctxs.map (fun x => { x with groups := (indexed x.groups).map (fun g => severGroup hit g.1 g.2) }) }) }
  gone.foldl (fun s r => unsolicited s r.owner (some cPOOLSEVER) (BitVec.ofNat 64 (r.num % 2 ^ 18))) s

def execPoolLinkDown (port : Nat) (s : State) : Out := .next (severPort s port)

/-- A request waits 2 ms without completion: the link counts as lost (R204). -/
def execPoolRequestTimeout (port : Nat) (s : State) : Out := .next (severPort s port)

/-- An IDE integrity failure counts as a lost link (11 R330). -/
def execPoolIdeFailure (port : Nat) (s : State) : Out := .next (severPort s port)

/-! ### Errors (10 R300, R301) -/

/-- A single-bit error is corrected and counted. -/
def execSingleBitError (s : State) : Out := .next { s with sbe := s.sbe + 1 }

/-- A launch of a partition ends with status TERMINATED (10 R301, 11 R439). -/
def endLaunch (s : State) (l : Launch) : State :=
  if l.status == .completed then s
  else
    let s := killLaunch s l cPARTKILL
    match s.launch? l.part l.id with
    | none => s
    | some x =>
      (writeRecord s l.page (s.subRing l.page l.ring).event
        { status := stTerminated, cause := x.firstCause <|> some cPARTKILL, faults := x.faults, tag := l.id,
          result := l.id.zeroExtend 64 }).updLaunch l.part l.id (fun x => { x with status := .completed, terminated := true })

/-- Every team of the partition ends, and every launch with it. -/
def endPartitionWork (s : State) (part : Nat) : State := (s.launches.filter (fun l => l.part == part)).foldl endLaunch s

/-- An error in hidden state kills the partition that owns it (R301). Left to the model: DEDUCED, log entry 27. -/
def killPartition (s : State) (part : Nat) : State :=
  if (s.partition part).isNone then s else unsolicited (endPartitionWork s part) part (some cPARTKILL) 0

/-- The cause of a word of memory where an error arises. -/
def memCause (s : State) (pa : Nat) : Option Nat :=
  match tierOf s pa with
  | .dram _ _ => some cSEDRAM
  | .stier _ => some cSESTIER
  | .pool _ => some cPOOLPOISON
  | _ => none

/-- Poisons lane `lane` of a vector register. -/
def Group.poisonLane (g : Group) (r lane : Nat) : Group :=
  { g with vpoison := modifyAt g.vpoison r (fun p =>
      ({ lanes := putBit 0 lane true, cause := cSEREG, info := 0 } : Poison).join p) }

/-- Poisons element i of a queue. -/
def RQueue.poisonAt (y : RQueue) (i : Nat) : RQueue :=
  if i < y.elems.length then
    { y with poison := (y.poison ++ List.replicate (y.elems.length - y.poison.length) none).set i (some (cSECTRL, 0)) }
  else y

/-- A pool device's word is poisoned at the device. -/
def poisonDevice (s : State) (pa : Nat) : State :=
  let t := setPoison s none pa 1 (some cPOOLPOISON)
  { t with poison := t.poison.map (fun w => if w.scratch.isNone && w.addr == pa / 4 * 4 then { w with copy := false } else w) }

/-- An uncorrectable error poisons the word it affects, with the cause of its storage (R300, R312). One in a register, a mask, a token or
a queue, which has no place that FINFO holds (R313), gives it 0. Left to the model: DESIGN CHOICE, log entry 53. -/
def execUncorrectableError (loc : ErrLoc) (s : State) : Out :=
  .next (match loc with
    | .mem pa => match memCause s pa with
      | some cause => if isPool s pa then poisonDevice s pa else setPoison s none pa 1 (some cause)
      | none => s
    | .pool pa => if isPool s pa then poisonDevice s pa else s
    | .cache pa => match memCause s pa with
      | some _ => if severedAt s pa then s else setPoison s none pa 1 (some cSECACHE)
      | none => s
    | .scratch c a => if a < MiB then setPoison s (some c) a 1 (some cSESCR) else s
    | .sreg c k r => s.updCtx c k (fun x => if r = 0 then x else { x with spoison := x.spoison.set r (some cSECTRL) })
    | .mreg c k r => s.updCtx c k (fun x => { x with strm := { x.strm with mpoison := putBit x.strm.mpoison r true } })
    | .vreg c k g r lane => s.updGroup c k g (fun x => if lane < 32 then x.poisonLane r lane else x)
    | .greg c k g r => s.updGroup c k g (fun x =>
        if r = 0 then x
        else { x with gpoison := modifyAt x.gpoison r (fun _ => { lanes := 1, cause := cSEREG, info := 0 }) })
    | .special c k g r => s.updGroup c k g (fun x => { x with spoison := modifyAt x.spoison r (fun _ => some (cSEREG, 0)) })
    | .ret c k i g => s.updCtx c k (fun x => { x with strm := { x.strm with
        returnQ := modifyAt x.strm.returnQ i (fun e =>
          if (e.words.getD g none).isSome then { e with poison := e.poison.set g (some (cSECTRL, 0)) } else e) } })
    | .token c k i => s.updCtx c k (fun x => { x with strm := { x.strm with
        recon := modifyAt x.strm.recon i (fun t => { t with poison := true }) } })
    | .queue c q i => s.updCore c (fun co => { co with queues := modifyAt co.queues q (fun y => y.poisonAt i) })
    | .hidden part => killPartition s part)

end Sys2Proof.Machine
end

