-- ==== Sys2Proof/Machine/Commands.lean ====
section
/-! DEFINITION. The Claolaton commands (11 R324-R339, R438, R439; 04 R108, R109) and the firmware steps that finish them:
placement, completion of launches, PREEMPT and FREEZE (04 R111-R114, 10 R297). -/

namespace Sys2Proof.Machine

/-- Ends a command with a status and nothing else: the result of a rejected one is 0, a LAUNCH's too.
Left to the model: DESIGN CHOICE, log entry 53. -/
def reject (s : State) (src : CmdSrc) (status : Nat) : State := complete s src status none 0 0

/-- Ends a command with status OK. -/
def finish (s : State) (src : CmdSrc) (result : Nat) : State := complete s src stOk none 0 (BitVec.ofNat 64 result)

/-- A command that acts on an existing partition; otherwise NOTOWNER (R438). FREEZE and THAW, which that rule does not list, answer so
too. Left to the model: DESIGN CHOICE, log entry 53. -/
def onPart (s : State) (src : CmdSrc) (f : Partition → State) : Out :=
  .next (match s.partition src.part with
    | some p => f p
    | none => reject s src stNotOwner)

def State.updPart (s : State) (id : Nat) (f : Partition → Partition) : State :=
  { s with parts := s.parts.map (fun p => if p.id = id then f p else p) }

/-! ### LAUNCH (04 R108, R109; 11 R325) -/

/-- The first failing check after the image's form: limits, declarations, producers, identifier. -/
def launchStatus (s : State) (part : Nat) (id : W32) (a : LaunchArgs) (i : Image) : Option Nat :=
  let asid := a.asid.toNat
  let known (p : W32) : Bool := (s.launch? part p).isSome
  if !(decide (1 ≤ a.clusters.toNat ∧ a.clusters.toNat ≤ 192) && decide (a.teams.toNat ≤ 12) && decide (a.groups.toNat ≤ 32) &&
       imageLimits i && (i.spill == 0 || (a.spill.toNat % 32 == 0 && pagesOk s part asid .wr a.spill.toNat i.spill)))
  then some stLimit
  else if (a.teams != 0 && a.teams.toNat != i.teams) || (a.groups != 0 && a.groups.toNat != i.groups) then some stDeclMismatch
  else if a.producers.any (fun p => p != 0 && (p == id || !known p)) then some stBadProducer
  else if id = 0 || (s.launch? part id).any (fun l => l.status != .completed) then some stIdInUse
  else none

/-- The launch that an accepted block enters in the list. -/
def newLaunch (s : State) (src : CmdSrc) (a : LaunchArgs) (i : Image) : Launch :=
  { part := src.part, id := srcTag src, page := src.page, ring := src.ring, img := i, asid := a.asid.toNat,
    clusters := a.clusters.toNat, spillBase := a.spill, queues := a.queues, priority := a.priority.toNat,
    producers := a.producers, arg := a.arg, debug := a.debug, status := .waiting, byCommand := false, arrival := s.stamp,
    placed := [], faults := 0, firstCause := none, terminated := false, joinFails := [], refillCause := none, spilled := [],
    keptQueues := [], keptGather := [], keptFormed := [], keptRes := [], oldCode := [], saved := [], placeOrder := 0 }

/-- The partition with every core of it empty, holding one launch. -/
def emptied (s : State) (p : Partition) (l : Launch) : State :=
  { s with
    launches := [l],
    cores := (indexed s.cores).map (fun c => if p.halfDecks.getLsbD (2 * (c.1 / 48) + c.1 % 48 / 24) then Core.idle else c.2) }

/-- What the words of a submitted image held that were written since its doorbell (04 R119). -/
def writtenSince (s : State) (src : CmdSrc) (l : Launch) : List OldByte :=
  match (s.subRing src.page src.ring).rung.find? (fun d => decide (ahead d.1 src.pos.toNat < 2 ^ 31)) with
  | none => []
  | some d => (s.wrote.filter (fun w => decide (d.2 ≤ w.1) && codeAt s l.asid l.img w.2.1 1)).foldl (fun old w =>
      if old.any (fun o => o.addr == w.2.1) then old else old ++ [{ addr := w.2.1, was := w.2.2, fenced := [] }]) []

/-- Enters a launch; a completed launch that bore its identifier is known no more (R108). -/
def enterLaunch (s : State) (l : Launch) : State :=
  let s : State := { s with releases := s.releases.filter (fun r => r.link != .trigger l.part l.id && r.link != .join l.part l.id) }
  let others := (s.launches.filter (fun x => !isLaunch l.part l.id x)).map (fun x =>
    if x.part == l.part then { x with producers := x.producers.filter (fun p => p != l.id) } else x)
  { s with launches := others ++ [l], stamp := s.stamp + 1 }

/-- LAUNCH: a rejected launch has its record at once, an accepted one when it completes. The partition's privileged image is kept once
it is verified (R329). -/
def execLaunch (src : CmdSrc) (a : LaunchArgs) (s : State) : Out :=
  onPart s src (fun p =>
    let id := srcTag src
    if !ownsAsid p a.asid.toNat then reject s src stNotOwner
    else
      let priv := if p.privVa = 0 || p.priv.isSome then p.priv else readPriv s p
      if p.privVa != 0 && priv.isNone then reject s src stBadImage
      else
        let s := if p.priv = priv then s else s.updPart p.id (fun q => { q with priv := priv })
        match readImage s p.id a.asid.toNat a.image with
        | none => reject s src stBadImage
        | some i =>
          match launchStatus s p.id id a i with
          | some st => reject s src st
          | none =>
            let l := newLaunch s src a i
            if (placeLaunch (emptied s p l) p l).isNone then reject s src stNoFit
            else enterLaunch s { l with oldCode := writtenSince s src l })

/-! ### QUIET (10 R298) -/

/-- Whether an access waits for a line that a transfer of a halted channel holds. -/
def stuckBytes (s : State) (bytes : List (Nat × Nat)) : Bool :=
  (remoteAbsent s bytes).any (fun l => s.cores.any (fun co => co.chans.any (fun y =>
    y.halted && (y.queued.toList ++ y.active.toList).any (fun t => t.lines.contains l))))

/-- Every write that a group has issued and that can still be performed has been. -/
def Group.writesDone (s : State) (g : Group) : Bool :=
  (g.rstores.all (·.performed) && g.outs.all (fun v => v.remote.all (fun a => !a.op.isAtomic))) ||
    g.rstores.any (fun st => !st.performed && stuckBytes s st.bytes) || g.outs.any (fun v => v.remote.any (fun a => stuckBytes s a.bytes))

/-- QUIET: the partition is halted, every transfer its teams committed has landed and their stores are performed; those of a channel
halted on a fault, and what waits for them, are not waited for. Left to the model: DESIGN CHOICE, log entry 53. -/
def quiet (s : State) (p : Partition) : Bool :=
  let mine (x : Ctx) : Bool := x.resident && x.part == p.id
  p.halted && s.queue.all (fun q => !mine (s.ctx q.agent.core q.agent.ctx)) && s.cores.all (fun co =>
    co.ctxs.all (fun x => !mine x || x.groups.all (·.writesDone s)) &&
    co.chans.all (fun y => (y.queued.toList ++ y.active.toList).all (fun t => t.part != p.id || y.halted)))

/-! ### COPY (07 R191, 11 R324) -/

/-- The 28 registers an engine command block holds, or the cause of its rejection. -/
def parseBlock (b : List Byte) : Except Nat (List W64) :=
  let counts := (List.range 8).all (fun k => zeros b (44 + 8 * k) 4)
  let size := leNat b 2 2
  if leNat b 0 2 ≠ 1 then .error cENGVERSION
  else if size < 256 ∨ 4096 < size ∨ size % 8 ≠ 0 then .error cENGSIZE
  else if !(zeros b 4 4 && zeros b 28 4 && decide (leNat b 32 8 < 4) && counts && zeros b 232 (size - 232)) then .error cENGFIELD
  else .ok ((List.range 28).map (fun i => leBits 64 b (8 + 8 * i) 8))

/-- The fault of the first byte of a block that cannot be read. -/
def blockFault (s : State) (part asid va n : Nat) : Option AFault :=
  (List.range n).findSome? (fun i =>
    match checkAccess s part asid .cs pathX (BitVec.ofNat 64 (va + i)) 1 false with
    | .error f => some f
    | .ok _ => none)

/-- COPY's completion is a release at system scope for every byte copied (R324): they come before what any agent does next. -/
def copied (t : Xfer) (s : State) : State := acquireWhere s (fun e => e.agent == t.agent) [.all]

/-- A COPY in a quiet partition reads memory as it then stands (10 R298). -/
def beforeCopy (s : State) (t : Xfer) : State :=
  if (s.partition t.part).any (quiet s) then acquireWhere s (fun e => e.scratch.isNone) [.one t.agent] else s

/-- Runs a block on the abutment's copy unit. A fault stops it; bytes that meet none may have been copied.
Left to the model: DESIGN CHOICE, log entry 29. -/
def runCopy (s : State) (src : CmdSrc) (asid : Nat) (regs : List W64) : State :=
  if tSscr regs || tDscr regs then reject s src stLimit
  else
    let t : Xfer := { core := Config.cores, ch := 0, id := 0, regs := regs, time := s.freeCtr, asid := asid, part := src.part, ctx := 8,
                      launch := 0, cluster := 0, team := 0, child := false, windows := [], scratch := 0, lines := [], landed := [] }
    let s := beforeCopy s t
    match xferFaults s t with
    | [] => finish (checkInAll (copied t (landBytes s t (fun _ _ => true)))) src (nestBytes regs).length
    | f :: fs =>
      let pick := (f :: fs).getD ((s.free 18 0).toNat % (fs.length + 1)) f
      let sound (b : Nat × W64 × W64) : Bool :=
        s.choice 18 b.1 && (match xferRead s t b.2.1, xferDest s t b.2.2 with | .ok _, .ok _ => true | _, _ => false)
      let n := ((indexed (nestBytes regs)).filter sound).length
      complete (checkInAll (copied t (landBytes s t (fun i _ => s.choice 18 i)))) src stFaulted (some pick.1.cause) 1 (BitVec.ofNat 64 n)

/-- COPY. -/
def execCopy (src : CmdSrc) (va : W64) (asid : BitVec 16) (s : State) : Out :=
  onPart s src (fun p =>
    let read (n : Nat) : List Byte := (readVirt s p.id asid.toNat va.toNat n).getD []
    if !ownsAsid p asid.toNat then reject s src stNotOwner
    else match blockFault s p.id asid.toNat va.toNat 8 with
      | some f => complete s src stFaulted (some f.cause) 1 0
      | none =>
        let size := leNat (read 4) 2 2
        let n := if 256 ≤ size ∧ size ≤ 4096 then size else 256
        match blockFault s p.id asid.toNat va.toNat n with
        | some f => complete s src stFaulted (some f.cause) 1 0
        | none => match parseBlock (read n) with
          | .error cause => complete s src stEngineBlock (some cause) 0 0
          | .ok regs => runCopy s src asid.toNat regs)

/-! ### MAP and UNMAP (11 R324, 10 R302-R306) -/

def pageSize (sz : BitVec 2) : Nat :=
  match sz.toNat with
  | 0 => 4096 | 1 => 65536 | 2 => 2 * MiB | _ => GiB

/-- Bytes a valid leaf entry maps, by level. -/
def leafSize (level : Nat) : Nat := if level = 2 then GiB else if level = 1 then 2 * MiB else 4096

def Pte.leaf (e : Pte) : Bool := bit e.word 0 && (e.level == 0 || bit e.word 5)

def Pte.base (e : Pte) : Nat := e.idx * leafSize e.level

def Pte.pa (e : Pte) : Nat := (fld e.word 12 40).toNat * 4096 / leafSize e.level * leafSize e.level

/-- The permission and G bits of an entry. -/
def Pte.flags (e : Pte) : W64 := e.word &&& 0x9C

/-- An entry of a level for a physical address, with permission and G bits. -/
def mkPte (level idx pa : Nat) (flags : W64) (s64 : Bool) : Pte :=
  { level := level, idx := idx,
    word := flags ||| BitVec.ofNat 64 (pa / 4096 * 4096) ||| (if level = 0 then 1 else 0x21) ||| (if s64 then 0x40 else 0) }

/-- The pieces of a page of 4 KiB or 2 MiB that lie outside [lo, hi). -/
def outside4K (base pa n : Nat) (flags : W64) (lo hi : Nat) : List Pte :=
  (List.range n).filterMap (fun i =>
    let a := base + 4096 * i
    if lo ≤ a ∧ a < hi then none else some (mkPte 0 (a / 4096) (pa + 4096 * i) flags false))

/-- What is left of an entry when [lo, hi) is taken out: larger pages are split (R324). -/
def Pte.carve (e : Pte) (lo hi : Nat) : List Pte :=
  let a := e.base
  let z := a + leafSize e.level
  if !e.leaf || z ≤ lo || hi ≤ a then [e]
  else if lo ≤ a ∧ z ≤ hi then []
  else if e.level = 1 then outside4K a e.pa 512 e.flags lo hi
  else if e.level = 2 then
    (List.range 512).flatMap (fun i =>
      let b := a + 2 * MiB * i
      let p := e.pa + 2 * MiB * i
      if b + 2 * MiB ≤ lo ∨ hi ≤ b then [mkPte 1 (b / (2 * MiB)) p e.flags false]
      else if lo ≤ b ∧ b + 2 * MiB ≤ hi then []
      else outside4K b p 512 e.flags lo hi)
  else []

/-- A 64 KiB page that loses a part of itself becomes 4 KiB pages (S64 clear). -/
def clearS64 (lo hi : Nat) (e : Pte) : Pte :=
  let a := e.idx / 16 * 65536
  if e.level = 0 && bit e.word 6 && decide (lo < a + 65536 ∧ a < hi) then { e with word := e.word &&& ~~~(0x40 : W64) } else e

/-- The tables with every translation of a range taken out. -/
def AddrSpace.carve (sp : AddrSpace) (lo hi : Nat) : AddrSpace :=
  { sp with ptes := (sp.ptes.flatMap (fun e => e.carve lo hi)).map (clearS64 lo hi) }

/-- 4 KiB units of a range that hold a valid translation. -/
def AddrSpace.mapped (sp : AddrSpace) (lo hi : Nat) : Nat :=
  (sp.ptes.map (fun e => if e.leaf then (min hi (e.base + leafSize e.level) - max lo e.base) / 4096 else 0)).sum

/-- The entries of a mapping. -/
def newPtes (a : MapArgs) : List Pte :=
  let sz := pageSize a.size
  let lvl := if a.size = 3 then 2 else if a.size = 2 then 1 else 0
  let unit := leafSize lvl
  let flags : W64 := (if a.r then 4 else 0) ||| (if a.w then 8 else 0) ||| (if a.x then 16 else 0) ||| (if a.g then 0x80 else 0)
  (List.range (a.len.toNat / unit)).map (fun i =>
    mkPte lvl (a.va.toNat / unit + i) (a.pa.toNat + unit * i) flags (sz == 65536))

def State.setSpace (s : State) (sp : AddrSpace) : State :=
  { s with spaces := s.spaces.filter (fun x => x.asid != sp.asid) ++ [sp] }

/-- Every TLB drops what it holds of a range (10 R306). -/
def dropTlb (s : State) (asid lo hi : Nat) : State :=
  { s with cores := s.cores.map (fun co =>
      if co.tlb.isEmpty then co
      else { co with tlb := co.tlb.filter (fun e => !((e.asid == asid || e.globalTo.isSome) && decide (lo ≤ e.page * 4096 ∧ e.page * 4096 < hi))) }) }

/-- Whether a partition owns every byte of a physical range, which must lie in R174. Owners change at multiples of 512 MiB. -/
def ownsRange (s : State) (p : Partition) (pa n : Nat) : Bool :=
  let half := 512 * MiB
  decide (pa + n ≤ 2 ^ 52) &&
  (match tierOf s pa with
   | .hostw _ => true
   | _ => owns s p pa && (List.range ((pa + n - 1) / half - pa / half)).all (fun i => owns s p ((pa / half + i + 1) * half)))

/-- Physical ranges of the second tier, the pool and a deck that is not ready need full service (11 R335). -/
def needsMore (s : State) (pa : Nat) : Bool :=
  s.boot.reduced && (match tierOf s pa with
    | .stier _ => true
    | .pool _ => true
    | .dram d _ => !s.boot.ready.getLsbD d
    | _ => false)

/-- The bytes of an address space's tables: the root once something is mapped, and each lower table in use (10 R302). -/
def AddrSpace.tableBytes (sp : AddrSpace) : Nat :=
  let tables (level size : Nat) : Nat := (((sp.ptes.filter (fun e => decide (e.level ≤ level))).map (fun e => e.base / size)).dedup).length
  if sp.ptes.isEmpty then 0
  else MiB + 4096 * (tables 2 (512 * GiB) + tables 1 GiB + tables 0 (2 * MiB))

/-- Whether the partition's bonded DRAM that no address space maps has room for its tables (10 R302, 11 R324).
Left to the model: DESIGN CHOICE, log entry 30. -/
def tablesFit (s : State) (p : Partition) : Bool :=
  let mine := s.spaces.filter (fun sp => ownsAsid p sp.asid)
  let pages := (mine.flatMap (fun sp => sp.ptes.filterMap (fun e =>
    match e.leaf, tierOf s e.pa with
    | true, .dram _ _ => some (e.pa, leafSize e.level)
    | _, _ => none))).dedup
  decide ((mine.map AddrSpace.tableBytes).sum + (pages.map (·.2)).sum ≤ popcount p.halfDecks * (dramBytes / 2))

/-- Whether a physical address is one that a range of the space translates to. -/
def AddrSpace.covers (sp : AddrSpace) (lo hi pa : Nat) : Bool :=
  sp.ptes.any (fun e => e.leaf && decide (max lo e.base < min hi (e.base + leafSize e.level) ∧
    e.pa + (max lo e.base - e.base) ≤ pa ∧ pa < e.pa + (min hi (e.base + leafSize e.level) - e.base)))

/-- Whether an issued SPAWN has a join counter still to raise, or a lane a read-modify-write still to perform, at an address that `p`
selects (10 R306, 11 R331). -/
def accessLeft (s : State) (p : Nat → Bool) : Bool :=
  s.cores.any (fun co => co.ctxs.any (fun x => x.groups.any (fun g =>
    g.spawnPend.any (fun b => b.any (fun r => (span r.joinPa 4).any p)) ||
    g.outs.any (fun v => v.remote.any (fun a => a.core == Config.cores && a.bytes.any (fun b => p b.2))))))

/-- The stores issued before to the addresses that `p` selects are performed (10 R306, 11 R331): none is queued, and every agent sees
those that have left. -/
def performAt (s : State) (p : Nat → Bool) : State :=
  acquireWhere (flushThrough s (fun q => q.scratch.isNone && q.cells.any (fun c => p c.1)))
    (fun e => e.scratch.isNone && e.cells.any (fun c => p c.1)) [.all]

/-- A MAP, UNMAP or POOLCFG whose record waits: its ring goes on after it (11 R319). -/
def waitCmd (s : State) (src : CmdSrc) (part : Nat) (i : Instr) : State :=
  { s with cmds := s.cmds ++ [{ src := src, map := some i, freeze := none, part := part, ids := [], halt := false, cause := none, faults := 0 }] }

/-- MAP of a partition. It waits for the accesses that use a translation it changes (10 R306).
Left to the model: DESIGN CHOICE, log entry 30. -/
def mapPages (src : CmdSrc) (a : MapArgs) (s : State) (p : Partition) : State :=
    let sz := pageSize a.size
    let va := a.va.toNat
    let len := a.len.toNat
    let asid := a.asid.toNat
    if len = 0 ∨ len % sz ≠ 0 ∨ va % sz ≠ 0 ∨ a.pa.toNat % sz ≠ 0 ∨ 2 ^ 56 < va + len then reject s src stLimit
    else if needsMore s a.pa.toNat then reject s src stNotReady
    else if !ownsAsid p asid || !ownsRange s p a.pa.toNat len then reject s src stNotOwner
    else
      let old := (s.space asid).covers va (va + len)
      let sp := (s.space asid).carve va (va + len)
      let sp := { sp with ptes := sp.ptes ++ newPtes a }
      if !tablesFit (s.setSpace sp) p then reject s src stLimit
      else if accessLeft s old then waitCmd s src p.id (.map src a)
      else finish (dropTlb ((performAt s old).setSpace sp) asid va (va + len)) src (len / sz)

/-- MAP. -/
def execMap (src : CmdSrc) (a : MapArgs) (s : State) : Out := onPart s src (mapPages src a s)

/-- UNMAP of a partition. A split of a larger page may lack room for its tables. -/
def unmapPages (src : CmdSrc) (va len : W64) (asid : BitVec 16) (s : State) (p : Partition) : State :=
    let lo := va.toNat
    let hi := lo + len.toNat
    let asid := asid.toNat
    if len.toNat = 0 ∨ len.toNat % 4096 ≠ 0 ∨ lo % 4096 ≠ 0 ∨ 2 ^ 56 < hi then reject s src stLimit
    else if !ownsAsid p asid then reject s src stNotOwner
    else
      let sp := s.space asid
      if sp.tableBytes < (sp.carve lo hi).tableBytes && !tablesFit (s.setSpace (sp.carve lo hi)) p then reject s src stLimit
      else if accessLeft s (sp.covers lo hi) then waitCmd s src p.id (.unmap src va len (BitVec.ofNat 16 asid))
      else finish (dropTlb ((performAt s (sp.covers lo hi)).setSpace (sp.carve lo hi)) asid lo hi) src (sp.mapped lo hi)

/-- UNMAP. -/
def execUnmap (src : CmdSrc) (va len : W64) (asid : BitVec 16) (s : State) : Out := onPart s src (unmapPages src va len asid s)

/-! ### POOLCFG (11 R331, R438) -/

/-- Drops every cached line of a region after its check-in; a severed region has none. -/
def flushRegion (s : State) (r : Nat) : State := checkInWhere s (fun l => lineRegion l == r)

/-- What POOLCFG checks first. -/
def poolStatus (s : State) (a : PoolArgs) : Option Nat :=
  if 262143 < a.region.toNat ∨ 7 < a.port.toNat ∨ 1 < a.mode.toNat then some stLimit
  else if (s.partition a.owner.toNat).isNone then some stNotOwner
  else if s.boot.reduced then some stNotReady
  else none

/-- Whether an address lies in a pool region. -/
def inRegion (s : State) (n pa : Nat) : Bool :=
  match tierOf s pa with
  | .pool r => r == n
  | _ => false

/-- The accesses in flight to a region complete, and its lines are checked in. -/
def calmRegion (s : State) (n : Nat) : State := flushRegion (performAt s (inRegion s n)) n

/-- POOLCFG map: it waits for the accesses in flight, then checks the region's lines in, then changes it; a severed region returns to
service. Left to the model: DESIGN CHOICE, log entry 30. -/
def poolMap (src : CmdSrc) (a : PoolArgs) (s : State) : State :=
  let n := a.region.toNat
  match poolStatus s a with
  | some st => reject s src st
  | none =>
    if !s.part.ports.getLsbD a.port.toNat then reject s src stLimit
    else if accessLeft s (inRegion s n) then waitCmd s src a.owner.toNat (.poolcfgMap src a)
    else
      let s := calmRegion s n
      let r : Region := { num := n, port := a.port.toNat, ownership := a.mode == 1, owner := a.owner.toNat, severed := false, dropped := 0 }
      finish { s with regions := s.regions.filter (fun x => x.num != n) ++ [r] } src 0

def execPoolcfgMap (src : CmdSrc) (a : PoolArgs) (s : State) : Out := .next (poolMap src a s)

/-- POOLCFG unmap: it waits as a map does, and drops every cached copy. Left to the model: DESIGN CHOICE, log entry 30. -/
def poolUnmap (src : CmdSrc) (a : PoolArgs) (s : State) : State :=
  let n := a.region.toNat
  match poolStatus s a with
  | some st => reject s src st
  | none =>
    if (s.region n).isNone then finish s src 0
    else if accessLeft s (inRegion s n) then waitCmd s src a.owner.toNat (.poolcfgUnmap src a)
    else
      let s := dropCopies (calmRegion s n) (inRegion s n)
      finish { s with regions := s.regions.filter (fun x => x.num != n) } src 0

def execPoolcfgUnmap (src : CmdSrc) (a : PoolArgs) (s : State) : Out := .next (poolUnmap src a s)

/-! ### PARTITION (11 R326, R329, R337) -/

def bitsOf8 (b : BitVec 8) : List Nat := (List.range 8).filter (fun i => b.getLsbD i)

/-- Whether CREATE's resources are free and within their limits. -/
def createLimits (s : State) (src : CmdSrc) (a : CreateArgs) : Bool :=
  let first := a.asidFirst.toNat
  let count := a.asidCount.toNat
  let base := a.stierBase.toNat * GiB
  let size := a.reserve.toNat * GiB
  (s.partition src.part).isNone && a.halfDecks != 0 && decide (1 ≤ count ∧ count ≤ 4096) && decide (first + count ≤ 65536) &&
  decide (base + size ≤ stierBytes s ∨ size = 0) && a.priv.toNat % 4096 == 0 &&
  s.parts.all (fun p => p.halfDecks &&& a.halfDecks == 0 &&
    decide (first + count ≤ p.asidFirst ∨ p.asidFirst + p.asidCount ≤ first) &&
    decide (size = 0 ∨ p.stierSize = 0 ∨ base + size ≤ p.stierBase ∨ p.stierBase + p.stierSize ≤ base))

/-- The table and every ring of a CREATE that lies in bonded DRAM must lie in a ready deck (11 R335). -/
def tableNotReady (s : State) (addr : Nat) : Bool :=
  needsMore s addr || needsMore s (addr + 511) || (match parseTable s addr with
    | none => false
    | some t => t.subs.any (fun r => r.present && needsMore s r.base) || t.evs.any (fun v => v.present && needsMore s v.base))

/-- PARTITION CREATE. One made during the power stop starts stopped (01 R26). Left to the model: DESIGN CHOICE, log entry 53. -/
def execPartitionCreate (src : CmdSrc) (a : CreateArgs) (s : State) : Out :=
  .next (if !createLimits s src a then reject s src stLimit
    else if s.boot.reduced && (a.reserve != 0 || (bitsOf8 a.halfDecks).any (fun h => !s.boot.ready.getLsbD (h / 2)) || tableNotReady s a.ringTable.toNat) then
      reject s src stNotReady
    else match parseTable s a.ringTable.toNat with
      | none => reject s src stLimit
      | some page =>
        let p : Partition :=
          { id := src.part, halfDecks := a.halfDecks, asidFirst := a.asidFirst.toNat, asidCount := a.asidCount.toNat,
            stierBase := a.stierBase.toNat * GiB, stierSize := a.reserve.toNat * GiB,
            watchdog := if a.watchdog = 0 then 10000 else a.watchdog.toNat, privVa := a.priv, priv := none, save := a.save,
            ringTable := a.ringTable, pasid := a.pasid, halted := false, released := false, frozen := false, sealed := false }
        finish { s with parts := s.parts ++ [p], pages := s.pages.set src.part page } src 0)

/-- Destroys a partition: pool lines checked in and dropped, its regions, memory, scratchpad, translations and rings gone.
Left to the model: DEDUCED, log entry 31. -/
def destroyPartition (s : State) (p : Partition) : State :=
  let s := (s.regions.filter (fun r => r.owner == p.id)).foldl (fun s r =>
    dropCopies (calmRegion s r.num) (inRegion s r.num)) s
  let mine (pa : Nat) : Bool := (match tierOf s pa with | .pool _ => false | .hostw _ => false | _ => true) && owns s p pa
  let myCore (c : Nat) : Bool := p.halfDecks.getLsbD (2 * (c / 48) + c % 48 / 24)
  { s with
    regions := s.regions.filter (fun r => r.owner != p.id),
    mem := s.mem.filter (fun c => !mine c.1),
    poison := s.poison.filter (fun w => match w.scratch with
      | some c => !myCore c
      | none => !mine w.addr),
    late := s.late.filter (fun e => match e.scratch with
      | some c => !myCore c
      | none => !e.cells.any (fun c => mine c.1)),
    releases := s.releases.filter (fun r => match r.link with
      | .trigger n _ => n != p.id
      | .join n _ => n != p.id
      | _ => true),
    cores := (indexed s.cores).map (fun c => if myCore c.1 then Core.idle else c.2),
    spaces := s.spaces.filter (fun sp => !ownsAsid p sp.asid),
    launches := s.launches.filter (fun l => l.part != p.id),
    pages := s.pages.set p.id Page.empty,
    parts := s.parts.filter (fun q => q.id != p.id) }

/-- PARTITION DESTROY: the partition holds no placed or waiting launch. -/
def execPartitionDestroy (src : CmdSrc) (s : State) : Out :=
  onPart s src (fun p =>
    if s.launches.any (fun l => l.part == p.id && l.status != .completed && l.status != .preempted) then reject s src stLimit
    else finish (destroyPartition s p) src 0)

/-- PARTITION POWER: module-wide, compared from the next sample on. -/
def execPartitionPower (src : CmdSrc) (watts : BitVec 16) (s : State) : Out :=
  .next (if watts.toNat < 600 ∨ 2000 < watts.toNat then reject s src stLimit
    else finish { s with powerLimit := watts.toNat, limitSet := true } src 0)

/-- PARTITION WATCHDOG: for routines entered after it. -/
def execPartitionWatchdog (src : CmdSrc) (us : BitVec 32) (s : State) : Out :=
  onPart s src (fun p =>
    finish (s.updPart p.id (fun q => { q with watchdog := if us = 0 then 10000 else us.toNat })) src 0)

/-! ### PREEMPT, RESUME, halts (10 R289, R298, R299; 11 R438) -/

/-- An identifier is held while its launch waits, is placed or is pre-empted (R108). -/
def Launch.holds (l : Launch) : Bool := l.status != .completed

/-- The launches a command names: one, or all of the partition. -/
def named (s : State) (part : Nat) (id : W32) : List Launch :=
  s.launches.filter (fun l => l.part == part && l.holds && (id == 0 || l.id == id))

/-- PREEMPT's effect on one launch. -/
def preemptOne (s : State) (l : Launch) : State :=
  match l.status with
  | .placed => preemptLaunch s l true
  | .preempting => s.updLaunch l.part l.id (fun x => { x with byCommand := true })
  | .waiting => s.updLaunch l.part l.id (fun x => { x with status := .held })
  | _ => s

/-- The pool lines of a partition's regions are checked in (07 R201). -/
def checkInPart (s : State) (part : Nat) : State :=
  checkInWhere s (fun l => l.twin.isSome && (s.region (lineRegion l)).any (fun r => r.owner == part && !r.severed))

/-- Bonded-DRAM bytes that the partition's spaces map. -/
def mappedDram (s : State) (p : Partition) : Mem :=
  let leaves := (s.spaces.filter (fun sp => ownsAsid p sp.asid)).flatMap (fun sp => sp.ptes.filter Pte.leaf)
  s.mem.filter (fun c => (match tierOf s c.1 with | .dram _ _ => true | _ => false) &&
    leaves.any (fun e => decide (e.pa ≤ c.1 ∧ c.1 < e.pa + leafSize e.level)))

/-- The number of bytes of mapped bonded DRAM. -/
def mappedBytes (s : State) (p : Partition) : Nat :=
  ((s.spaces.filter (fun sp => ownsAsid p sp.asid)).map (fun sp => (sp.ptes.map (fun e =>
    match e.leaf, tierOf s e.pa with
    | true, .dram _ _ => leafSize e.level
    | _, _ => 0)).sum)).sum

/-- Whether a freeze target lies in host memory, or in the partition's own reserve. Left to the model: DEDUCED, log entry 39. -/
def freezeTarget (s : State) (p : Partition) (kind : Nat) (addr n : Nat) : Bool :=
  let inside (pa : Nat) : Bool := match tierOf s pa with
    | .hostw _ => kind == 0
    | .stier o => kind == 1 && decide (p.stierBase ≤ o ∧ o < p.stierBase + p.stierSize)
    | _ => false
  inside addr && inside (addr + (n - 1))

/-- FREEZE's writing, once every launch is pre-empted (10 R297, 11 R334): the image's size beyond the pages, and its bytes,
are free values. Left to the model: DESIGN CHOICE, log entry 35. -/
def writeFreeze (s : State) (c : PendingCmd) (kind : Nat) (addr size : W64) : State :=
  match s.partition c.part with
  | none => reject s c.src stNotOwner
  | some p =>
    let s := checkInPart s p.id
    let need := mappedBytes s p + 1 + (s.free 19 0).toNat % 2 ^ 32
    if size.toNat < need then reject s c.src stLimit
    else
      let bytes : List Byte := (List.range need).map (fun i => fld (s.free 20 i) 0 8)
      let image : FreezeImage :=
        { bytes := bytes, kind := kind, addr := addr, part := p, part0 := p.id, channels := s.part.channels,
          launches := s.launches.filter (fun l => l.part == p.id && l.holds),
          spaces := s.spaces.filter (fun sp => ownsAsid p sp.asid),
          regions := (s.regions.filter (fun r => r.owner == p.id)).map (·.num), pages := mappedDram s p }
      let s := writePhys s addr.toNat bytes
      let s := s.updPart p.id (fun q => { q with sealed := decide (0 < q.stierSize) })
      let s := { s with images := s.images ++ [image] }
      match c.cause with
      | some cause => complete s c.src stFaulted (some cause) c.faults (BitVec.ofNat 64 need)
      | none => finish s c.src need

/-- Whether every launch a pending command pre-empts has ended its save routines, and no access keeps a MAP or POOLCFG waiting. -/
def cmdReady (s : State) (c : PendingCmd) : Bool :=
  (match c.map with
   | some (.map _ a) => !accessLeft s ((s.space a.asid.toNat).covers a.va.toNat (a.va.toNat + a.len.toNat))
   | some (.unmap _ va len asid) => !accessLeft s ((s.space asid.toNat).covers va.toNat (va.toNat + len.toNat))
   | some (.poolcfgMap _ a) => !accessLeft s (inRegion s a.region.toNat)
   | some (.poolcfgUnmap _ a) => !accessLeft s (inRegion s a.region.toNat)
   | _ => true) &&
  c.ids.all (fun id => !(s.launch? c.part id).any (fun l => l.status == .preempting))

/-- The record of a pending command. -/
def finishCmd (s : State) (c : PendingCmd) : State :=
  let s := { s with cmds := s.cmds.filter (fun x => x != c) }
  let onPart (f : Partition → State) : State := match s.partition c.part with
    | some p => f p
    | none => reject s c.src stNotOwner
  match c.map with
  | some (.map src a) => onPart (mapPages src a s)
  | some (.unmap src va len asid) => onPart (unmapPages src va len asid s)
  | some (.poolcfgMap src a) => poolMap src a s
  | some (.poolcfgUnmap src a) => poolUnmap src a s
  | _ => match c.freeze with
  | some f => writeFreeze s c f.1 f.2.1 f.2.2
  | none => match c.cause with
    | some cause => complete s c.src stFaulted (some cause) c.faults 0
    | none => finish s c.src 0

/-- Firmware notices save routines that have ended, and writes the records that waited for them.
Left to the model: DEDUCED, log entry 34. -/
def settleFirmware (s : State) (part : Nat) : State :=
  let s := (s.launches.filter (fun l => l.part == part)).foldl settlePreempted s
  (s.cmds.filter (fun c => c.part == part)).foldl (fun s c => if cmdReady s c then finishCmd s c else s) s

/-- PREEMPT without the halt option. -/
def execPreempt (src : CmdSrc) (id : W32) (s : State) : Out :=
  onPart s src (fun p =>
    let ls := named s p.id id
    if p.privVa = 0 then reject s src stLimit
    else if id != 0 && ls.isEmpty then reject s src stNotOwner
    else
      let s := ls.foldl preemptOne s
      let ids := (ls.filter (fun l => l.status == .placed || l.status == .preempting)).map (·.id)
      settleFirmware { s with cmds := s.cmds ++ [{ src := src, map := none, freeze := none, part := p.id, ids := ids, halt := false, cause := none, faults := 0 }] }
        p.id)

/-- PREEMPT with the halt option: every team of the partition stops at its next word or instruction (10 R298), and the waiting
launches it names are held (R438). -/
def execDebugHalt (src : CmdSrc) (id : W32) (s : State) : Out :=
  onPart s src (fun p =>
    let ls := named s p.id id
    if id != 0 && ls.isEmpty then reject s src stNotOwner
    else finish (((ls.filter (fun l => l.status == .waiting)).foldl preemptOne s).updPart p.id (fun q => { q with halted := true })) src 0)

/-- RESUME's effect on one launch: one that PREEMPT pre-empted or held returns to the list. -/
def resumeOne (s : State) (l : Launch) : State :=
  s.updLaunch l.part l.id (fun x => match x.status with
    | .held => { x with status := .waiting }
    | .preempted => { x with status := .waiting, byCommand := false }
    | .preempting => { x with byCommand := false }
    | _ => x)

/-- RESUME's release of a halt and of launches; a frozen partition's launches wait for THAW (10 R297, R299). -/
def releaseHalt (s : State) (p : Partition) (id : W32) : State :=
  let ls := named s p.id id
  if id != 0 && ls.isEmpty then s
  else
    let s := s.updPart p.id (fun q => { q with halted := false })
    if p.frozen then s else ls.foldl resumeOne s

/-- RESUME. -/
def execResume (src : CmdSrc) (id : W32) (s : State) : Out := onPart s src (fun p => finish (releaseHalt s p id) src 0)

/-- A team that RESUME with the enter option names. -/
def chosen (p : Partition) (id : W32) (cluster : BitVec 16) (team : BitVec 8) (x : Ctx) : Bool :=
  x.resident && x.part == p.id && (id == 0 || x.launch == id) &&
  (cluster == BitVec.allOnes 16 || (x.child.isNone && x.cluster == cluster.toNat)) &&
  (team == BitVec.allOnes 8 || (x.child.isNone && x.team == team.toNat))

/-- A chosen team outside its routines takes a freeze with cause HALT, during the power stop too: the command runs as usual, and the
stop raises no cause (01 R26). Left to the model: DEDUCED, log entry 34. -/
def enterHalt (s : State) (c k : Nat) : State :=
  let x := s.ctx c k
  if x.mode != .user || x.trig.isSome then s
  else takeTrap s c k { cause := cHALT, lane := false, group := 0, async := false, preempt := false, skippable := false,
                        epc := x.pc, faddr := 0, fmask := 0, finfo := 0 }

/-- RESUME with the enter option. -/
def execResumeEnter (src : CmdSrc) (id : W32) (cluster : BitVec 16) (team : BitVec 8) (s : State) : Out :=
  onPart s src (fun p =>
    let s := releaseHalt s p id
    let s := (List.range s.cores.length).foldl (fun s c =>
      (List.range 8).foldl (fun s k => if chosen p id cluster team (s.ctx c k) then enterHalt s c k else s) s) s
    finish s src 0)

/-! ### FREEZE and THAW (10 R297, 11 R334) -/

/-- FREEZE: every launch is pre-empted first. With a target too small for the image the partition stays frozen (11 R334). -/
def execFreeze (src : CmdSrc) (target : BitVec 8) (addr size : W64) (s : State) : Out :=
  onPart s src (fun p =>
    if 1 < target.toNat || p.privVa = 0 then reject s src stLimit
    else if s.boot.reduced && target = 1 then reject s src stNotReady
    else if !freezeTarget s p target.toNat addr.toNat size.toNat then reject s src stNotOwner
    else
      let ls := named s p.id 0
      let s := (ls.foldl preemptOne s).updPart p.id (fun q => { q with frozen := true })
      let ids := (ls.filter (fun l => l.status == .placed || l.status == .preempting)).map (·.id)
      settleFirmware { s with cmds := s.cmds ++ [PendingCmd.mk src none (some (target.toNat, addr, size)) p.id ids false none 0] } p.id)

/-- The image whose bytes stand at an address of the given kind, wherever they were written first. -/
def imageAt (s : State) (kind : Nat) (addr : Nat) : Option FreezeImage :=
  let here : Bool := match tierOf s addr with
    | .hostw _ => kind == 0
    | .stier _ => kind == 1
    | _ => false
  if here then s.images.find? (fun m => readPhys s addr m.bytes.length == m.bytes) else none

/-- The core positions that a frozen launch records: its teams, its clusters, and where its records and queue elements return. -/
def Launch.positions (l : Launch) : List Nat :=
  l.saved.map (·.core) ++ l.recordCores ++ l.keptQueues.map (·.1) ++
    (l.placed.filter (fun cl => !cl.freed)).flatMap (fun cl => cl.cores.map (·.1))

/-- Whether a freeze image fits this module and partition: its positions are enabled cores of the partition. -/
def thawMatches (s : State) (p : Partition) (m : FreezeImage) : Bool :=
  m.channels == s.part.channels &&
  m.launches.all (fun l => l.positions.all (coreOk s p)) &&
  m.regions.all (fun r => (s.region r).any (fun x => x.owner == p.id))

/-! A thawed partition may own other half-decks, another reserve and other identifiers than the frozen one: each stands for the one
of the same place. Left to the model: DESIGN CHOICE, log entry 35. -/

/-- The physical address of the destination partition for one of the source's; none where it has no such memory. -/
def thawAddr (s : State) (a b : Partition) (pa : Nat) : Option Nat :=
  match tierOf s pa with
  | .dram d o =>
    let h := halfDeckOf d o
    (((bitsOf8 a.halfDecks).findIdx? (· == h)).bind (fun i => (bitsOf8 b.halfDecks)[i]?)).map (fun g =>
      g / 2 * (64 * GiB) + (o - h % 2 * (dramBytes / 2)) + g % 2 * (dramBytes / 2))
  | .stier o => if a.stierBase ≤ o ∧ o - a.stierBase < b.stierSize then some (stierBase + b.stierBase + (o - a.stierBase)) else none
  | _ => some pa

/-- The identifier of the destination for one of the source's. -/
def thawAsid (a b : Partition) (asid : Nat) : Option Nat :=
  if asid - a.asidFirst < b.asidCount then some (b.asidFirst + (asid - a.asidFirst)) else none

def Pte.move (s : State) (a b : Partition) (e : Pte) : Option Pte :=
  if !e.leaf then some e else (thawAddr s a b e.pa).map (fun pa =>
    { e with word := (e.word &&& ~~~(0xFFFFFFFFFF000 : W64)) ||| BitVec.ofNat 64 (pa / 4096 * 4096) })

/-- A 1 GiB page whose halves do not stand together on a 1 GiB boundary of the destination becomes 2 MiB pages. -/
def Pte.thaw (s : State) (a b : Partition) (e : Pte) : Option (List Pte) :=
  let whole : Bool := match thawAddr s a b e.pa, thawAddr s a b (e.pa + GiB / 2) with
    | some x, some y => x % GiB == 0 && y == x + GiB / 2
    | _, _ => false
  if e.level = 2 && e.leaf && !whole then
    ((List.range 512).map (fun i => mkPte 1 (e.idx * 512 + i) (e.pa + 2 * MiB * i) e.flags false)).mapM (Pte.move s a b)
  else (e.move s a b).map (fun x => [x])

def AddrSpace.thaw (s : State) (a b : Partition) (sp : AddrSpace) : Option AddrSpace :=
  (thawAsid a b sp.asid).bind (fun n => (sp.ptes.mapM (Pte.thaw s a b)).map (fun ptes => { asid := n, ptes := ptes.flatten }))

def SpawnRec.thaw (s : State) (a b : Partition) (r : SpawnRec) : SpawnRec :=
  { r with part := b.id, joinPa := (thawAddr s a b r.joinPa).getD r.joinPa }

/-- A frozen launch in the destination: it waits for its place as R114 says, and its record goes to the ring of the same number of the
destination's page. -/
def Launch.thaw (s : State) (a b : Partition) (l : Launch) : Launch :=
  { l with
    part := b.id, page := if l.page = a.id then b.id else l.page, asid := (thawAsid a b l.asid).getD l.asid, byCommand := false, status := .waiting,
    saved := l.saved.map (fun t => { t with body := { t.body with part := b.id } }),
    spilled := l.spilled.map (fun r => { r with record := r.record.thaw s a b }),
    keptGather := l.keptGather.map (fun r => (r.1, r.2.thaw s a b)),
    keptFormed := l.keptFormed.map (fun f => (f.1, f.2.map (SpawnRec.thaw s a b))),
    oldCode := l.oldCode.map (fun c => { c with addr := (thawAddr s a b c.addr).getD c.addr }) }

/-- Reinstates an image: pages, translations and launches, beside the completed launches that are known. -/
def thawInto (s : State) (p : Partition) (m : FreezeImage) (spaces : List AddrSpace) : State :=
  let leaves := spaces.flatMap (fun sp => sp.ptes.filter Pte.leaf)
  let mapped (pa : Nat) : Bool := (match tierOf s pa with | .dram _ _ => true | _ => false) &&
    leaves.any (fun e => decide (e.pa ≤ pa ∧ pa < e.pa + leafSize e.level))
  let cells := m.pages.filterMap (fun c => (thawAddr s m.part p c.1).map (fun pa => (pa, c.2)))
  let s : State := { s with
    mem := Mem.writeCells (s.mem.filter (fun c => !mapped c.1)) cells,
    spaces := s.spaces.filter (fun sp => !ownsAsid p sp.asid) ++ spaces,
    launches := s.launches.filter (fun l => l.part != p.id || !(l.holds || m.launches.any (fun x => x.id == l.id))) ++
      m.launches.map (Launch.thaw s m.part p) }
  let s := forgetLate s none mapped
  let s := s.updPart m.part0 (fun q => { q with sealed := false })
  s.updPart p.id (fun q => { q with priv := m.part.priv, frozen := false, sealed := false })

/-- The partition holds no launch, or is the frozen one with the image's own launches. -/
def thawEmpty (s : State) (p : Partition) (m : FreezeImage) : Bool :=
  let held := s.launches.filter (fun l => l.part == p.id && l.holds)
  held.isEmpty || (p.frozen && p.id == m.part0 &&
    held.map (fun l => (l.id, l.arrival)) == m.launches.map (fun l => (l.id, l.arrival)))

/-- THAW: reinstates pages, translations and launches; each launch resumes as R114 says.
Left to the model: DESIGN CHOICE, log entry 35. -/
def execThaw (src : CmdSrc) (kind : BitVec 8) (addr : W64) (s : State) : Out :=
  onPart s src (fun p =>
    if 1 < kind.toNat then reject s src stLimit
    else if s.boot.reduced && kind = 1 then reject s src stNotReady
    else match imageAt s kind.toNat addr.toNat with
      | none => reject s src stRefused
      | some m =>
        if !thawMatches s p m || !thawEmpty s p m then reject s src stRefused
        else match m.spaces.mapM (AddrSpace.thaw s m.part p) with
          | none => reject s src stLimit
          | some spaces => finish (thawInto s p m spaces) src 0)

/-! ### QUERY and ATTEST (11 R333, R336, R438) -/

/-- Where a buffer may lie: the host window; bonded DRAM, or second tier the partition owns; on a management ring any
bonded DRAM. -/
def bufferOk (s : State) (src : CmdSrc) (addr n : Nat) : Bool :=
  let ok (pa : Nat) : Bool := match tierOf s pa with
    | .hostw _ => true
    | .dram _ _ => src.page == 8 || (s.partition src.part).any (fun p => owns s p pa)
    | .stier _ => src.page != 8 && (s.partition src.part).any (fun p => owns s p pa)
    | _ => false
  (List.range n).all (fun i => ok (addr + i))

/-- Writes a report and completes the command. -/
def report (s : State) (src : CmdSrc) (buf : W64) (bytes : List Byte) : State :=
  if (List.range bytes.length).any (fun i => needsMore s (buf.toNat + i)) then reject s src stNotReady
  else if !bufferOk s src buf.toNat bytes.length then reject s src stNotOwner
  else finish (storeBytes s buf.toNat bytes none) src bytes.length

/-- QUERY with selector 0. -/
def execQueryFeatures (src : CmdSrc) (buf : W64) (s : State) : Out :=
  let part := if src.page == 8 then src.part else src.page
  onPart s src (fun _ => report s src buf ((List.range 8).flatMap (fun i => bytesOf 8 (featWord s (regionsOf s part) i).toNat)))

/-- The status report. Left to the model: DESIGN CHOICE, log entry 45. -/
def statusBytes (s : State) (p : Partition) : List Byte :=
  bytesOf 8 s.coreClock ++ bytesOf 8 s.throttledNs.toNat ++ bytesOf 8 ((quiet s p).toNat + 2 * s.boot.reduced.toNat) ++
  bytesOf 8 s.sbe.toNat ++ (List.range 8).flatMap (fun i => bytesOf 4 ((s.ports.getD i (0, 0)).1 % 256 + (s.ports.getD i (0, 0)).2 % 256 * 256))

/-- QUERY with selector 1. -/
def execQueryStatus (src : CmdSrc) (buf : W64) (s : State) : Out := onPart s src (fun p => report s src buf (statusBytes s p))

/-- ATTEST: the hashes of what is fused or stored outside, and the signature, are free values.
Left to the model: DESIGN CHOICE, log entry 45. -/
def execAttest (src : CmdSrc) (nonce : BitVec 256) (buf : W64) (s : State) : Out :=
  onPart s src (fun p =>
    let hash := match p.priv with
      | some i => if src.page == 8 then List.replicate 64 0 else sha512 i.bytes
      | none => List.replicate 64 0
    report s src buf (
      (List.range 64).map (Config.freeByte 0) ++ (List.range 64).map (Config.freeByte 1) ++ hash ++ bytesOf 32 nonce.toNat ++
      bytesOf 8 s.devTime.toNat ++ List.replicate 20 0 ++ (List.range 132).map (fun i => fld (s.free 22 i) 0 8)))

/-! ### RESET (11 R439) -/

/-- A waiting POOLCFG, which is the management ring's. -/
def PendingCmd.ofPool (c : PendingCmd) : Bool :=
  match c.map with
  | some (.poolcfgMap _ _) => true
  | some (.poolcfgUnmap _ _) => true
  | _ => false

/-- Resets a partition: every launch ends, a sealed reserve is unsealed, the power stop ends there (01 R26); its pending commands
have nothing left to wait for.
Left to the model: DEDUCED, log entry 34. -/
def resetPart (s : State) (p : Partition) : State :=
  let s := endPartitionWork s p.id
  let s := (s.cmds.filter (fun c => c.part == p.id && !c.ofPool)).foldl (fun s c =>
    complete { s with cmds := s.cmds.filter (fun x => x != c) } c.src stTerminated none 0 0) s
  { s.updPart p.id (fun q => { q with sealed := false, frozen := false, released := s.stopped }) with
    launches := s.launches.filter (fun l => l.part != p.id) }

/-- RESET of a partition. -/
def execResetPartition (src : CmdSrc) (s : State) : Out := onPart s src (fun p => finish (resetPart s p) src 0)

/-- RESET of the module: every partition is reset and destroyed. It names a partition in byte 8 too (R438). The time above the limit
counted before goes on, as when POWER changes the limit (01 R26). Left to the model: DESIGN CHOICE, log entry 24. -/
def execResetModule (src : CmdSrc) (s : State) : Out :=
  onPart s src (fun _ =>
    let s := s.parts.foldl (fun s p => destroyPartition (resetPart s p) p) s
    finish { s with powerLimit := 2000, stopped := false, boot := { s.boot with thermal := false } } src 0)

/-! ### Firmware's own steps -/

/-- Firmware notices ended save routines and tries the waiting list (04 R111, R114). -/
def execLaunchPlace (part : Nat) (s : State) : Out :=
  .next (
    let s := settleFirmware s part
    match s.partition part with
      | none => s
      | some p => if powerStopped s p.id || p.frozen then s else placeLoop p (s.launches.length + 1) s)

/-- Every team and child team of a placed launch has exited and no record of it is left. -/
def launchDone (s : State) (l : Launch) : Bool :=
  l.status == .placed && l.placed.all (fun cl => cl.exited.all id) && !hasTeams s l && l.spilled.isEmpty &&
  s.cores.all (fun co => !co.gather.any (recOf l) && !co.formed.any (fun f => f.any (recOf l)))

/-- The releases of a launch's EXITs are performed before its completion record is written (12 R352). -/
def performExits (s : State) (part : Nat) (id : W32) : State :=
  acquire s 0 (fun r => r.link == .trigger part id || r.link == .join part id) [.all]

/-- A launch completes and its record is written (04 R113, 11 R325). -/
def execLaunchComplete (part : Nat) (id : W32) (s : State) : Out :=
  .next (match s.launch? part id with
    | none => s
    | some l =>
      if !launchDone s l then s
      else
        let status := if l.terminated then stTerminated else if l.faults = 0 then stOk else stFaulted
        (writeRecord (performExits s part id) l.page (s.subRing l.page l.ring).event
          { status := status, cause := l.firstCause, faults := l.faults, tag := l.id, result := l.id.zeroExtend 64 }).updLaunch
            part id (fun x => { x with status := .completed, oldCode := [] }))

end Sys2Proof.Machine
end

