-- ==== Sys2Proof/Machine/Boot.lean ====
section
/-! DEFINITION. Power, heat and bring-up (01 R25-R27, 11 R335, R337): the events that firmware's own control of the
module brings. -/

namespace Sys2Proof.Machine

/-- Firmware is running: bring-up has verified the configuration (R335). -/
def firmwareUp (s : State) : Bool := s.boot.phase == .training || s.boot.phase == .ready

/-- The highest core clock in MHz: 3.0 GHz, 1.5 GHz in reduced service (R25, R335). -/
def clockCap (s : State) : Nat := if s.boot.phase == .training then 1500 else 3000

/-- One 50 MHz step down, to the floor of 1.0 GHz (R25). -/
def clockDown (c : Nat) : Nat := Nat.max 1000 (c - 50)

/-- One 50 MHz step up (R25). -/
def clockUp (s : State) : Nat := Nat.min (clockCap s) (s.coreClock + 50)

/-- Some die reports 100 °C or more (R27). -/
def hot (s : State) : Bool := s.temps.any (fun t => decide (100 ≤ t))

/-- A POWERLIMIT record for every partition (R26). -/
def powerRecords (s : State) (result : W64) : State :=
  s.parts.foldl (fun (t : State) (p : Partition) => unsolicited t p.id (some cPOWERLIMIT) result) s

/-- Issue resumes in every partition with the clock at the floor (R26). -/
def powerResume (s : State) : State :=
  powerRecords { s with stopped := false, coreClock := 1000, meanAbove := 0, meanBelow := 0 } (1#64 <<< 63)

/-- The core clock after a sample of the running mean (R25): held at the floor during the stop, not raised while a die is hot, and
held while the mean lies from 95 % of the limit up to it. Left to the model: DESIGN CHOICE, log entry 24. -/
def sampleClock (s : State) (watts : Nat) : Nat :=
  if s.stopped then s.coreClock
  else if s.powerLimit < watts || hot s then clockDown s.coreClock
  else if watts * 100 < s.powerLimit * 95 then clockUp s
  else s.coreClock

/-- POWER_SAMPLE (R25, R26, R337): the 10 ms running mean, compared every 100 µs.
Left to the model: DESIGN CHOICE, log entry 24. -/
def execPowerSample (watts : Nat) (s : State) : Out :=
  .next (if !firmwareUp s then s else
    let t : State := { s with
      coreClock := sampleClock s watts
      throttledNs := if s.coreClock < clockCap s then s.throttledNs + 100000 else s.throttledNs
      meanAbove := if s.powerLimit < watts && s.coreClock = 1000 then s.meanAbove + 1 else 0
      meanBelow := if watts * 100 < s.powerLimit * 95 then s.meanBelow + 1 else 0
      limitSet := false }
    if s.stopped && s.limitSet && watts < s.powerLimit then powerResume t else t)

/-- POWER_LIMIT_STOP (R26): 50 ms above the limit at the floor, whatever limit each sample was compared with; a partition that a RESET
released is stopped again. Left to the model: DESIGN CHOICE, log entry 24. -/
def execPowerLimitStop (s : State) : Out :=
  .next (if !firmwareUp s || (s.stopped && s.parts.all (fun p => !p.released)) || s.meanAbove < 500 || s.coreClock != 1000 then s
    else powerRecords { s with
      stopped := true, meanAbove := 0, meanBelow := 0, parts := s.parts.map (fun (p : Partition) => { p with released := false }) } 0)

/-- POWER_LIMIT_RESUME (R26): 10 ms below 95 % of the limit. -/
def execPowerLimitResume (s : State) : Out :=
  .next (if !s.stopped || s.meanBelow < 100 then s else powerResume s)

/-- THERMAL_THROTTLE (R27): a die reports a temperature; at 100 °C or more the clock steps down. -/
def execThermalThrottle (die temp : Nat) (s : State) : Out :=
  .next (if s.temps.length ≤ die || 115 ≤ temp then s else
    { s with
      temps := s.temps.set die temp
      coreClock := if 100 ≤ temp && firmwareUp s && !s.stopped then clockDown s.coreClock else s.coreClock })

/-- THERMAL_TRIP (R27): no state of the module survives; the host's memory, the pool devices and what is fused stay.
Left to the model: DESIGN CHOICE, log entry 26. -/
def execThermalTrip (die temp : Nat) (s : State) : Out :=
  .next (if s.temps.length ≤ die || temp < 115 then s else
    { State.reset with
      cur := s.cur
      agenda := s.agenda
      freeCtr := s.freeCtr
      stamp := s.stamp
      part := s.part
      temps := s.temps.set die temp
      irqs := s.irqs
      host := s.host
      poolDev := s.poolDev
      images := s.images
      boot := { Boot.off with phase := .tripped } })

/-- HOST_RESTART (R27): accepted once every die reports less than 90 °C; bring-up then runs from power-on.
Left to the model: DESIGN CHOICE, log entry 26. -/
def execHostRestart (s : State) : Out :=
  .next (if s.boot.phase == .tripped && s.temps.all (fun t => decide (t < 90)) then
    { s with boot := { Boot.off with phase := .off, thermal := true } }
  else s)

/-- POWER_ON (R335): `ok` says whether the configuration record verifies. Left to the model: DESIGN CHOICE, log entry 25. -/
def execPowerOn (ok : Bool) (s : State) : Out :=
  .next (if s.boot.phase != .off then s
    else if ok then { s with boot := { s.boot with phase := .training, verified := true } }
    else { s with boot := { s.boot with phase := .rejected } })

/-- Every deck, the second tier and every enabled pool port is trained (R335). -/
def allTrained (s : State) : Bool :=
  s.boot.ready == 0xF && s.boot.stier && s.boot.poolPorts == s.part.ports

/-- Full service (R335): the clock rises to the level R25 allows and both flags clear.
Left to the model: DESIGN CHOICE, log entry 24. -/
def fullService (s : State) : State :=
  if s.boot.phase == .training && allTrained s then
    { s with
      coreClock := if s.coreClock < 1500 || s.stopped || hot s then s.coreClock else 3000
      boot := { s.boot with phase := .ready, reduced := false } }
  else s

/-- DECK_TRAINING_COMPLETE (R335): decks train in ascending order; the first ready one begins reduced service. -/
def execDeckTrainingComplete (deck : Nat) (s : State) : Out :=
  .next (if s.boot.phase != .training || 4 ≤ deck || s.boot.ready.getLsbD deck || s.boot.failed.getLsbD deck ||
      (List.range deck).any (fun d => !s.boot.ready.getLsbD d && !s.boot.failed.getLsbD d) then s
    else fullService
      { s with boot := { s.boot with ready := s.boot.ready ||| 1#4 <<< deck, reduced := true } })

/-- DECK_TRAINING_FAILED (R335): the third failure reports the deck. -/
def execDeckTrainingFailed (deck : Nat) (s : State) : Out :=
  .next (if s.boot.phase != .training || 4 ≤ deck || s.boot.ready.getLsbD deck || s.boot.failed.getLsbD deck ||
      (List.range deck).any (fun d => !s.boot.ready.getLsbD d && !s.boot.failed.getLsbD d) then s
    else
      let n := s.boot.fails.getD deck 0 + 1
      { s with boot := { s.boot with
          fails := s.boot.fails.set deck n
          failed := if 3 ≤ n then s.boot.failed ||| 1#4 <<< deck else s.boot.failed } })

/-- SECOND_TIER_OR_POOL_PORT_TRAINED (R335), with the rate and width QUERY reports (R333). -/
def execSecondTierOrPoolPortTrained (what : Trained) (s : State) : Out :=
  .next (if s.boot.phase != .training then s else
    match what with
    | .stier => fullService { s with boot := { s.boot with stier := true } }
    | .port p rate lanes =>
      if 8 ≤ p || !s.part.ports.getLsbD p then s
      else fullService { s with
        ports := s.ports.set p (rate, lanes)
        boot := { s.boot with poolPorts := s.boot.poolPorts ||| 1#8 <<< p } })

end Sys2Proof.Machine
end

