-- ==== Sys2Proof/Machine/Dispatch.lean ====
section
/-! DEFINITION. One arm per instruction: each calls its meaning. -/

namespace Sys2Proof.Machine

def exec (i : Instr) (s : State) : Host.Outcome State Fault Refusal :=
  match i with
  | .add d a b => Sys2Proof.Machine.execAdd d a b s
  | .sub d a b => Sys2Proof.Machine.execSub d a b s
  | .mul d a b => Sys2Proof.Machine.execMul d a b s
  | .mulh d a b u => Sys2Proof.Machine.execMulh d a b u s
  | .div d a b u => Sys2Proof.Machine.execDiv d a b u s
  | .rem d a b u => Sys2Proof.Machine.execRem d a b u s
  | .and d a b => Sys2Proof.Machine.execAnd d a b s
  | .or d a b => Sys2Proof.Machine.execOr d a b s
  | .xor d a b => Sys2Proof.Machine.execXor d a b s
  | .shl d a b => Sys2Proof.Machine.execShl d a b s
  | .shlImm d a k => Sys2Proof.Machine.execShlImm d a k s
  | .shr d a b => Sys2Proof.Machine.execShr d a b s
  | .shrImm d a k => Sys2Proof.Machine.execShrImm d a k s
  | .sra d a b => Sys2Proof.Machine.execSra d a b s
  | .sraImm d a k => Sys2Proof.Machine.execSraImm d a k s
  | .slt d a b u => Sys2Proof.Machine.execSlt d a b u s
  | .min d a b u => Sys2Proof.Machine.execMin d a b u s
  | .max d a b u => Sys2Proof.Machine.execMax d a b u s
  | .addi d a im => Sys2Proof.Machine.execAddi d a im s
  | .andi d a im => Sys2Proof.Machine.execAndi d a im s
  | .ori d a im => Sys2Proof.Machine.execOri d a im s
  | .xori d a im => Sys2Proof.Machine.execXori d a im s
  | .sltImm d a im => Sys2Proof.Machine.execSltImm d a im s
  | .lui d im => Sys2Proof.Machine.execLui d im s
  | .auipc d im => Sys2Proof.Machine.execAuipc d im s
  | .ld d a sz o => Sys2Proof.Machine.execLd d a sz o s
  | .st d a sz o => Sys2Proof.Machine.execSt d a sz o s
  | .ldk d a sz o => Sys2Proof.Machine.execLdk d a sz o s
  | .amoAdd d a b w => Sys2Proof.Machine.execAmoAdd d a b w s
  | .amoAnd d a b w => Sys2Proof.Machine.execAmoAnd d a b w s
  | .amoOr d a b w => Sys2Proof.Machine.execAmoOr d a b w s
  | .amoXor d a b w => Sys2Proof.Machine.execAmoXor d a b w s
  | .amoSwap d a b w => Sys2Proof.Machine.execAmoSwap d a b w s
  | .amoCas d a b w => Sys2Proof.Machine.execAmoCas d a b w s
  | .amoMin d a b w u => Sys2Proof.Machine.execAmoMin d a b w u s
  | .amoMax d a b w u => Sys2Proof.Machine.execAmoMax d a b w u s
  | .fence scope order => Sys2Proof.Machine.execFence scope order s
  | .xfence scope p q => Sys2Proof.Machine.execXfence scope p q s
  | .jal d o => Sys2Proof.Machine.execJal d o s
  | .jalr d a im => Sys2Proof.Machine.execJalr d a im s
  | .beq a b o => Sys2Proof.Machine.execBeq a b o s
  | .bne a b o => Sys2Proof.Machine.execBne a b o s
  | .blt a b o => Sys2Proof.Machine.execBlt a b o s
  | .bge a b o => Sys2Proof.Machine.execBge a b o s
  | .bltN a b o => Sys2Proof.Machine.execBltN a b o s
  | .bgeN a b o => Sys2Proof.Machine.execBgeN a b o s
  | .cloop a o => Sys2Proof.Machine.execCloop a o s
  | .bmask a o => Sys2Proof.Machine.execBmask a o s
  | .mand d a b => Sys2Proof.Machine.execMand d a b s
  | .mor d a b => Sys2Proof.Machine.execMor d a b s
  | .mxor d a b => Sys2Proof.Machine.execMxor d a b s
  | .mandn d a b => Sys2Proof.Machine.execMandn d a b s
  | .mnot d a => Sys2Proof.Machine.execMnot d a s
  | .mmov d a => Sys2Proof.Machine.execMmov d a s
  | .mcnt a sr => Sys2Proof.Machine.execMcnt a sr s
  | .mfirst a sr => Sys2Proof.Machine.execMfirst a sr s
  | .mwordR a sr w => Sys2Proof.Machine.execMwordR a sr w s
  | .mwordW d sr w => Sys2Proof.Machine.execMwordW d sr w s
  | .emit a b t m push pop peek ret bar => Sys2Proof.Machine.execEmit a b t m push pop peek ret bar s
  | .rpop d => Sys2Proof.Machine.execRpop d s
  | .divg a => Sys2Proof.Machine.execDivg a s
  | .regroup k n => Sys2Proof.Machine.execRegroup k n s
  | .rotb d a im => Sys2Proof.Machine.execRotb d a im s
  | .ewr a e => Sys2Proof.Machine.execEwr a e s
  | .erd d e => Sys2Proof.Machine.execErd d e s
  | .ecommit d c => Sys2Proof.Machine.execEcommit d c s
  | .cwait a c scope => Sys2Proof.Machine.execCwait a c scope s
  | .jwait a im => Sys2Proof.Machine.execJwait a im s
  | .crd d e => Sys2Proof.Machine.execCrd d e s
  | .cwr a e => Sys2Proof.Machine.execCwr a e s
  | .trap k => Sys2Proof.Machine.execTrap k s
  | .vnop w => Sys2Proof.Machine.execVnop w s
  | .vadd w => Sys2Proof.Machine.execVadd w s
  | .vsub w => Sys2Proof.Machine.execVsub w s
  | .vmul w => Sys2Proof.Machine.execVmul w s
  | .vmulh w => Sys2Proof.Machine.execVmulh w s
  | .vmad w => Sys2Proof.Machine.execVmad w s
  | .vand w => Sys2Proof.Machine.execVand w s
  | .vor w => Sys2Proof.Machine.execVor w s
  | .vxor w => Sys2Proof.Machine.execVxor w s
  | .vandn w => Sys2Proof.Machine.execVandn w s
  | .vshl w => Sys2Proof.Machine.execVshl w s
  | .vshr w => Sys2Proof.Machine.execVshr w s
  | .vsra w => Sys2Proof.Machine.execVsra w s
  | .vmin w => Sys2Proof.Machine.execVmin w s
  | .vmax w => Sys2Proof.Machine.execVmax w s
  | .vsel w => Sys2Proof.Machine.execVsel w s
  | .vmov w => Sys2Proof.Machine.execVmov w s
  | .vabs w => Sys2Proof.Machine.execVabs w s
  | .vneg w => Sys2Proof.Machine.execVneg w s
  | .vclz w => Sys2Proof.Machine.execVclz w s
  | .vpopc w => Sys2Proof.Machine.execVpopc w s
  | .vbfx w => Sys2Proof.Machine.execVbfx w s
  | .vbfi w => Sys2Proof.Machine.execVbfi w s
  | .vcmp w => Sys2Proof.Machine.execVcmp w s
  | .fadd w => Sys2Proof.Machine.execFadd w s
  | .fsub w => Sys2Proof.Machine.execFsub w s
  | .fmul w => Sys2Proof.Machine.execFmul w s
  | .ffma w => Sys2Proof.Machine.execFfma w s
  | .fmin w => Sys2Proof.Machine.execFmin w s
  | .fmax w => Sys2Proof.Machine.execFmax w s
  | .fabs w => Sys2Proof.Machine.execFabs w s
  | .fneg w => Sys2Proof.Machine.execFneg w s
  | .frcp w => Sys2Proof.Machine.execFrcp w s
  | .frsq w => Sys2Proof.Machine.execFrsq w s
  | .fexp2 w => Sys2Proof.Machine.execFexp2 w s
  | .flog2 w => Sys2Proof.Machine.execFlog2 w s
  | .fcvt w => Sys2Proof.Machine.execFcvt w s
  | .lcvt w => Sys2Proof.Machine.execLcvt w s
  | .fcmp w => Sys2Proof.Machine.execFcmp w s
  | .gadd w => Sys2Proof.Machine.execGadd w s
  | .gsub w => Sys2Proof.Machine.execGsub w s
  | .gand w => Sys2Proof.Machine.execGand w s
  | .gor w => Sys2Proof.Machine.execGor w s
  | .gxor w => Sys2Proof.Machine.execGxor w s
  | .gandn w => Sys2Proof.Machine.execGandn w s
  | .gshl w => Sys2Proof.Machine.execGshl w s
  | .gshr w => Sys2Proof.Machine.execGshr w s
  | .gmov w => Sys2Proof.Machine.execGmov w s
  | .gpopc w => Sys2Proof.Machine.execGpopc w s
  | .gfirst w => Sys2Proof.Machine.execGfirst w s
  | .gld w => Sys2Proof.Machine.execGld w s
  | .exmset w => Sys2Proof.Machine.execExmset w s
  | .pret w => Sys2Proof.Machine.execPret w s
  | .vote w => Sys2Proof.Machine.execVote w s
  | .vshfl w => Sys2Proof.Machine.execVshfl w s
  | .vbcast w => Sys2Proof.Machine.execVbcast w s
  | .vred w => Sys2Proof.Machine.execVred w s
  | .vscan w => Sys2Proof.Machine.execVscan w s
  | .laneid w => Sys2Proof.Machine.execLaneid w s
  | .vld w => Sys2Proof.Machine.execVld w s
  | .vst w => Sys2Proof.Machine.execVst w s
  | .vldk w => Sys2Proof.Machine.execVldk w s
  | .vlds w => Sys2Proof.Machine.execVlds w s
  | .vsts w => Sys2Proof.Machine.execVsts w s
  | .vldx w => Sys2Proof.Machine.execVldx w s
  | .vatom w => Sys2Proof.Machine.execVatom w s
  | .vatoms w => Sys2Proof.Machine.execVatoms w s
  | .vfence w => Sys2Proof.Machine.execVfence w s
  | .vxfence w => Sys2Proof.Machine.execVxfence w s
  | .qpop w => Sys2Proof.Machine.execQpop w s
  | .qpush w => Sys2Proof.Machine.execQpush w s
  | .spawn w => Sys2Proof.Machine.execSpawn w s
  | .spflush w => Sys2Proof.Machine.execSpflush w s
  | .mmodeT w => Sys2Proof.Machine.execMmodeT w s
  | .mmodeV w => Sys2Proof.Machine.execMmodeV w s
  | .mloop w y => Sys2Proof.Machine.execMloop w y s
  | .mwait w => Sys2Proof.Machine.execMwait w s
  | .mzero w => Sys2Proof.Machine.execMzero w s
  | .acvt w => Sys2Proof.Machine.execAcvt w s
  | .sunf w y => Sys2Proof.Machine.execSunf w y s
  | .tshape w => Sys2Proof.Machine.execTshape w s
  | .sfmt w => Sys2Proof.Machine.execSfmt w s
  | .xpat w => Sys2Proof.Machine.execXpat w s
  | .srd w => Sys2Proof.Machine.execSrd w s
  | .swr w => Sys2Proof.Machine.execSwr w s
  | .vbrk w => Sys2Proof.Machine.execVbrk w s
  | .vtrap w => Sys2Proof.Machine.execVtrap w s
  | .paired w => Sys2Proof.Machine.execPaired w s
  | .launch src p => Sys2Proof.Machine.execLaunch src p s
  | .copy src va asid => Sys2Proof.Machine.execCopy src va asid s
  | .map src p => Sys2Proof.Machine.execMap src p s
  | .unmap src va len asid => Sys2Proof.Machine.execUnmap src va len asid s
  | .partitionCreate src p => Sys2Proof.Machine.execPartitionCreate src p s
  | .partitionDestroy src => Sys2Proof.Machine.execPartitionDestroy src s
  | .partitionPower src watts => Sys2Proof.Machine.execPartitionPower src watts s
  | .partitionWatchdog src us => Sys2Proof.Machine.execPartitionWatchdog src us s
  | .preempt src id => Sys2Proof.Machine.execPreempt src id s
  | .debugHalt src id => Sys2Proof.Machine.execDebugHalt src id s
  | .resume src id => Sys2Proof.Machine.execResume src id s
  | .resumeEnter src id cluster team => Sys2Proof.Machine.execResumeEnter src id cluster team s
  | .freeze src target addr size => Sys2Proof.Machine.execFreeze src target addr size s
  | .thaw src kind addr => Sys2Proof.Machine.execThaw src kind addr s
  | .queryFeatures src buf => Sys2Proof.Machine.execQueryFeatures src buf s
  | .queryStatus src buf => Sys2Proof.Machine.execQueryStatus src buf s
  | .attest src nonce buf => Sys2Proof.Machine.execAttest src nonce buf s
  | .poolcfgMap src p => Sys2Proof.Machine.execPoolcfgMap src p s
  | .poolcfgUnmap src p => Sys2Proof.Machine.execPoolcfgUnmap src p s
  | .resetPartition src => Sys2Proof.Machine.execResetPartition src s
  | .resetModule src => Sys2Proof.Machine.execResetModule src s
  | .notify page v => Sys2Proof.Machine.execNotify page v s
  | .evcons page v => Sys2Proof.Machine.execEvcons page v s
  | .mrtable v => Sys2Proof.Machine.execMrtable v s
  | .bar0OtherWrite page off v => Sys2Proof.Machine.execBar0OtherWrite page off v s
  | .engineRetry core ch => Sys2Proof.Machine.execEngineRetry core ch s
  | .engineSkip core ch => Sys2Proof.Machine.execEngineSkip core ch s
  | .frdataRead d => Sys2Proof.Machine.execFrdataRead d s
  | .blockFetch page ring => Sys2Proof.Machine.execBlockFetch page ring s
  | .tagMismatch page ring => Sys2Proof.Machine.execTagMismatch page ring s
  | .coalescingDelayExpiry page ring => Sys2Proof.Machine.execCoalescingDelayExpiry page ring s
  | .powerSample watts => Sys2Proof.Machine.execPowerSample watts s
  | .thermalThrottle die temp => Sys2Proof.Machine.execThermalThrottle die temp s
  | .thermalTrip die temp => Sys2Proof.Machine.execThermalTrip die temp s
  | .powerOn ok => Sys2Proof.Machine.execPowerOn ok s
  | .deckTrainingComplete deck => Sys2Proof.Machine.execDeckTrainingComplete deck s
  | .deckTrainingFailed deck => Sys2Proof.Machine.execDeckTrainingFailed deck s
  | .launchPlace part => Sys2Proof.Machine.execLaunchPlace part s
  | .launchComplete part id => Sys2Proof.Machine.execLaunchComplete part id s
  | .descriptorVisible core ctx group => Sys2Proof.Machine.execDescriptorVisible core ctx group s
  | .barrierRelease core ctx => Sys2Proof.Machine.execBarrierRelease core ctx s
  | .stalledEmitRetire core ctx => Sys2Proof.Machine.execStalledEmitRetire core ctx s
  | .returnReady core ctx => Sys2Proof.Machine.execReturnReady core ctx s
  | .varResultWritten core ctx group idx => Sys2Proof.Machine.execVarResultWritten core ctx group idx s
  | .tlbWalkComplete core ctx group => Sys2Proof.Machine.execTlbWalkComplete core ctx group s
  | .qpopTake core queue => Sys2Proof.Machine.execQpopTake core queue s
  | .qpushEnter core ctx group => Sys2Proof.Machine.execQpushEnter core ctx group s
  | .remoteScratchpadAccess core ctx group idx => Sys2Proof.Machine.execRemoteScratchpadAccess core ctx group idx s
  | .remoteStoreAck core ctx group idx => Sys2Proof.Machine.execRemoteStoreAck core ctx group idx s
  | .fenceWorkDone core ctx group => Sys2Proof.Machine.execFenceWorkDone core ctx group s
  | .ifenceComplete core ctx => Sys2Proof.Machine.execIfenceComplete core ctx s
  | .ktrigComplete core ctx => Sys2Proof.Machine.execKtrigComplete core ctx s
  | .kwaitSatisfied core ctx => Sys2Proof.Machine.execKwaitSatisfied core ctx s
  | .jwaitZero core ctx => Sys2Proof.Machine.execJwaitZero core ctx s
  | .exitComplete core ctx => Sys2Proof.Machine.execExitComplete core ctx s
  | .regroupMigration core ctx => Sys2Proof.Machine.execRegroupMigration core ctx s
  | .spawnRecordsAccepted core ctx group => Sys2Proof.Machine.execSpawnRecordsAccepted core ctx group s
  | .spillWriteComplete core ctx group => Sys2Proof.Machine.execSpillWriteComplete core ctx group s
  | .gathererRefill core => Sys2Proof.Machine.execGathererRefill core s
  | .gathererIdleTimeout core => Sys2Proof.Machine.execGathererIdleTimeout core s
  | .childTeamStart core => Sys2Proof.Machine.execChildTeamStart core s
  | .transferStart core ch => Sys2Proof.Machine.execTransferStart core ch s
  | .lineLanded core ch line => Sys2Proof.Machine.execLineLanded core ch line s
  | .transferComplete core ch => Sys2Proof.Machine.execTransferComplete core ch s
  | .transferHalt core ch => Sys2Proof.Machine.execTransferHalt core ch s
  | .matrixLoopStep core ctx group => Sys2Proof.Machine.execMatrixLoopStep core ctx group s
  | .matrixLoopComplete core ctx group => Sys2Proof.Machine.execMatrixLoopComplete core ctx group s
  | .routineEntry core ctx => Sys2Proof.Machine.execRoutineEntry core ctx s
  | .watchdog core ctx => Sys2Proof.Machine.execWatchdog core ctx s
  | .bisnpReceived line => Sys2Proof.Machine.execBisnpReceived line s
  | .poolLinkDown port => Sys2Proof.Machine.execPoolLinkDown port s
  | .poolRequestTimeout port => Sys2Proof.Machine.execPoolRequestTimeout port s
  | .poolIdeFailure port => Sys2Proof.Machine.execPoolIdeFailure port s
  | .uncorrectableError loc => Sys2Proof.Machine.execUncorrectableError loc s
  | .cillop w => Sys2Proof.Machine.execCillop w s
  | .cresfield w => Sys2Proof.Machine.execCresfield w s
  | .illop w => Sys2Proof.Machine.execIllop w s
  | .secondTierOrPoolPortTrained what => Sys2Proof.Machine.execSecondTierOrPoolPortTrained what s
  | .nop => Sys2Proof.Machine.execNop s
  | .ifence => Sys2Proof.Machine.execIfence s
  | .elseM => Sys2Proof.Machine.execElseM s
  | .recon => Sys2Proof.Machine.execRecon s
  | .ktrig => Sys2Proof.Machine.execKtrig s
  | .kwait => Sys2Proof.Machine.execKwait s
  | .eret => Sys2Proof.Machine.execEret s
  | .exit => Sys2Proof.Machine.execExit s
  | .brk => Sys2Proof.Machine.execBrk s
  | .powerLimitStop => Sys2Proof.Machine.execPowerLimitStop s
  | .powerLimitResume => Sys2Proof.Machine.execPowerLimitResume s
  | .hostRestart => Sys2Proof.Machine.execHostRestart s
  | .singleBitError => Sys2Proof.Machine.execSingleBitError s

end Sys2Proof.Machine
end

