-- ==== Sys2Proof/Machine/Fetch.lean ====
section
/-! DEFINITION. The control core's turn (04 R120) and the turns of the rest: what the next agent of the agenda does,
before its instruction's meaning. -/

namespace Sys2Proof.Machine

/-- A context that can fetch (R120): a team that waits nowhere, is not stopped and has no freeze under way. An ERET's wait ends with
its routine's work. -/
def canFetch (s : State) (x : Ctx) : Bool :=
  x.resident && (x.wait.isNone || (x.wait == some .eret && routineDone x)) && x.tlbWait.isEmpty && x.trig.isNone &&
    issuing s x.part && !x.strm.blockQ.any (·.regroup.isSome)

/-- The context the control core of a core fetches for: round robin after the last one (R120). -/
def nextFetch (s : State) (c : Nat) : Option Nat :=
  ((List.range 8).map (fun i => ((s.core c).lastFetch + 1 + i) % 8)).find? (fun k => canFetch s (s.ctx c k))

/-- A control fetch fault (10 R434), or the cause of a poisoned control word. -/
def ctrlFetchFault (s : State) (x : Ctx) (f : AFault) : State :=
  ctrlTrap s f.cause (softCause f.cause) x.pc (if x.priv then 0 else x.ctrlAddr s x.pc) 1 f.finfo

/-- The control core's turn: the instruction at the pc of the next context that can fetch. -/
def ctrlTurn (s : State) (c : Nat) : Move :=
  match nextFetch s c with
  | none => .idle s
  | some k =>
    let s : State := { s.updCore c (fun co => { co with lastFetch := k }) with cur := { core := c, ctx := k, group := 0 } }
    let x := s.ctx c k
    match fetchCtrl s x with
    | .ok w => .run s (decodeCtrl w)
    | .error f => .idle (ctrlFetchFault s x f)

/-- Rows that are steps of firmware, of an engine or of the outside, and not words of a stream or their side rows.
Left to the model: DESIGN CHOICE, log entry 6. -/
def isEvent (i : Instr) : Bool :=
  match i with
  | .engineRetry _ _ => false
  | .engineSkip _ _ => false
  | .frdataRead _ => false
  | i => (encode i).isNone

/-- A write of host memory by the host; the words written are clean of poison. -/
def hostWrite (s : State) (addr : Nat) (bytes : List Byte) : State :=
  setPoison { keepCode s (hostBase + addr) bytes.length with host := s.host.writeBytes addr bytes } none (hostBase + addr) bytes.length none

/-- The words of a range are clean of poison at the device: a line the module holds keeps its own. -/
def cleanDevice (s : State) (addr n : Nat) : State :=
  { s with poison := s.poison.filterMap (fun w =>
      if w.scratch.isNone && !w.copy && decide (addr / 4 ≤ w.addr / 4 ∧ w.addr / 4 ≤ (addr + n - 1) / 4) then
        (if (s.poolLine (poolLineOf w.addr)).isSome then some { w with copy := true } else none)
      else some w) }

/-- A write of a pool device by another module: lines the module holds are not seen (07 R199). -/
def poolWrite (s : State) (addr : Nat) (bytes : List Byte) : State :=
  let cached (a : Nat) : Bool := (s.poolLine (poolLineOf a)).isSome
  forgetLate (cleanDevice { keepCode s addr bytes.length with poolDev := s.poolDev.writeBytes addr bytes } addr bytes.length) none
    (fun a => decide (addr ≤ a ∧ a < addr + bytes.length) && !cached a)

/-- Device time passes (01 R23); it stands still while the clocks are stopped (01 R27). -/
def tick (s : State) (ns : Nat) : State :=
  if s.boot.phase == .tripped then s else { s with devTime := s.devTime + BitVec.ofNat 64 ns }

/-- The oldest store in an agent's queue leaves it: its stores keep their order, a word's lanes too, behind the remote accesses it issued
before them (08 R216, 14 R405). -/
def drainOne (s : State) (c k : Nat) (g : Option Nat) (host : Bool) : State :=
  let me : Agent := match g with
    | none => ctxAgent c k .c
    | some n => grpAgent c k n .l
  match (indexed s.queue).find? (fun q => q.2.agent == me && q.2.host == host) with
  | none => s
  | some (j, q) =>
    let behind := g.any (fun n => (s.group c k n).outs.any (fun v => v.remote.any (fun a => decide (a.order < q.order))))
    if behind && !host then s else q.leave { s with queue := s.queue.eraseIdx j }

/-- What one turn of the agenda does. -/
def turnMove (s : State) (t : Turn) : Move :=
  match t with
  | .control c => ctrlTurn s c
  | .lane c ls => laneMove s c ls
  | .event i => if isEvent i then .run s i else .idle s
  | .tick ns => .idle (tick s ns)
  | .hostWrite a b => .idle (hostWrite s a b)
  | .poolWrite a b => .idle (poolWrite s a b)
  | .drain c k g host => .idle (drainOne s c k g host)
  | .perform i a => .idle (showWrite s i a)
  | .reload c k => .idle (reloadCtrl s c k)
  | .checkIn l => .idle (makeRoom s l)

/-! ### Placing one instruction where the next step fetches it -/

/-- The address, virtual and physical, at which a placed program's sections lie. -/
def placeBase : Nat := 0x100000

/-- A partition that holds every half-deck and has no privileged image. -/
def placePart : Partition :=
  { id := 0, halfDecks := 0xFF, asidFirst := 0, asidCount := 8, stierBase := 0, stierSize := 0, watchdog := 1000000,
    privVa := 0, priv := none, save := 0, ringTable := 0, pasid := 0, halted := false, released := false, frozen := false, sealed := false }

/-- An address space whose first 2 MiB page is executable, readable and writable. -/
def placeSpace : AddrSpace := { asid := 0, ptes := [{ level := 1, idx := 0, word := 0x3D }] }

/-- The image of a placed program: both sections at `placeBase`, one group. -/
def placeImage : Image :=
  { Image.none with ctrlVa := placeBase, ctrlWords := 64, laneVa := placeBase, laneWords := 64, entries := [0] }

/-- The launch of a placed program: one cluster of one team on core 0. -/
def placeLaunchRec : Launch :=
  { part := 0, id := 0, page := 0, ring := 0, img := placeImage, asid := 0, clusters := 1, spillBase := 0, queues := 0,
    priority := 0, producers := [], arg := 0, debug := false, status := .placed, byCommand := false, arrival := 0,
    placed := [{ cores := [(0, 0, 0)], exited := [false], triggers := [false], freed := false }], faults := 0,
    firstCause := none, terminated := false, joinFails := [], refillCause := none, spilled := [], keptQueues := [],
    keptGather := [], keptFormed := [], keptRes := [], oldCode := [], saved := [], placeOrder := 0 }

/-- A descriptor of the block at word 0, one trip, every lane active. -/
def placeDesc : Desc :=
  { arg1 := 0, arg0 := 0, block := 0, trip := 1, rot := 0, mreg := 0, push := false, pop := false, peek := false,
    ret := false, bar := false, seq := 0, activity := lowMask 1024 32, argTaint := false, regroup := none,
    seen := 1, time := 0 }

/-- The group of a placed lane word: running at the start of its block's first run. -/
def placeGroup : Group :=
  let g := Group.fresh 32 16 0
  { g with pos := { g.pos with st := .start, activity := 0xFFFFFFFF, exmask := 0xFFFFFFFF, status := .running } }

/-- The team of a placed program, in context 0 of core 0. -/
def placeCtx (lane : Bool) : Ctx :=
  { Ctx.free with
    resident := true
    groups := [if lane then placeGroup else Group.fresh 32 16 0]
    trapVec := 1#64 <<< 63
    strm := { Stream.fresh with
      active := lowMask 1024 32
      blockQ := if lane then [placeDesc] else []
      seq := if lane then 1 else 0 } }

/-- Loads a placed program: its bytes, its partition, space and launch, and its resident team. -/
def placeProgram (s : State) (lane : Bool) (bytes : List Byte) : State :=
  let s := s.setCtx 0 0 (placeCtx lane)
  let s := if lane then s.updLaneSet 0 0 (fun l => { l with running := some (0, 0) })
           else s.updCore 0 (fun co => { co with lastFetch := 7 })
  { s with
    stopped := false
    mem := s.mem.writeBytes placeBase bytes
    poison := []
    queue := []
    late := []
    releases := []
    wrote := []
    spaces := [placeSpace]
    parts := [placePart]
    launches := [placeLaunchRec]
    boot := { s.boot with phase := .ready, verified := true, ready := 0xF, stier := true, poolPorts := s.part.ports }
    agenda := [if lane then .lane 0 0 else .control 0] }

/-- A ring of 16 blocks with one announced, and an event ring. -/
def placePage : Page :=
  { Page.empty with
    subs := Page.empty.subs.set 0 { present := true, base := placeBase, entries := 16, event := 0, consumer := 0, announced := 1, rung := [] }
    evs := Page.empty.evs.set 0 { (Page.empty.evs.getD 0 EvRing.none) with present := true, base := placeBase + 4096, entries := 16 } }

/-- Puts a command block at the head of ring 0 of its page, fetched: the next step runs the command. A block firmware would
reject is left for the fetch. -/
def placeCommand (s : State) (w : Nat) : State :=
  let s := placeProgram s false []
  let page := tablePage w
  let bytes := bytesOf 64 w
  let s := { s with mem := s.mem.writeBytes placeBase bytes, pages := s.pages.set page placePage }
  match decodeBlock page 0 1 bytes with
  | .ok i => { consume s page 0 with agenda := [.event i] }
  | .error _ => { s with agenda := [.event (.blockFetch page 0)] }

end Sys2Proof.Machine
end

