-- ==== Sys2Proof/Machine/Step.lean ====
section
/-! DEFINITION. One step of the module: the next agent of the agenda takes its turn (log entry 2). -/

namespace Sys2Proof.Machine

/-- What a turn comes to: a state, or the meaning of an instruction. -/
def Move.outcome : Move → Host.Outcome State Fault Refusal
  | .idle s => .next s
  | .run s i => exec i s

/-- The state in which a turn is taken: the turn has left the agenda, and the step has free values of its own. -/
def State.tookTurn (s : State) (rest : List Turn) : State := { s with agenda := rest, freeCtr := s.freeCtr + 1 }

/-- One step; with nothing on the agenda nothing moves. -/
def step (s : State) : Host.Outcome State Fault Refusal :=
  match s.agenda with
  | [] => .next s
  | t :: rest => (turnMove (s.tookTurn rest) t).outcome

/-- A state whose next step fetches and runs the instruction of the given bits: a control word, a lane word followed
by a zero word, a double, or a command block at the head of a ring. -/
def State.withFetchWord (s : State) (nbits w : Nat) : State :=
  if nbits ≤ 32 then placeProgram s false (bytesOf 4 w)
  else if nbits ≤ 192 then placeProgram s true (bytesOf 24 w)
  else placeCommand s w

end Sys2Proof.Machine
end

