-- ==== Sys2Proof/Safety.lean ====
section
/-! DEFINITION. What a safe run is, in the terms the statements use. -/

namespace Sys2Proof.Machine

/-- A step that goes on: no fault and no refusal. -/
def StepsOn (s : State) : Prop := ∃ t, step s = .next t

/-- Byte storage in canonical form: bonded DRAM and second tier, host memory, pool devices and every scratchpad. -/
def Memory.wf (s : State) : Bool := s.mem.wf && s.host.wf && s.poolDev.wf && s.cores.all (fun k => k.scr.wf)

/-- The part has its 192 core positions of eight contexts, and nine BAR0 pages (01 R17, 02 R42, 11 R314). -/
def State.shaped (s : State) : Bool :=
  s.cores.length == 192 && s.cores.all (fun k => k.ctxs.length == 8) && s.pages.length == 9

end Sys2Proof.Machine
end

