-- ==== Sys2Proof/WellFormed.lean ====
section
/-! DEFINITION. Which terms of the syntax are words of the part: no term has a field the encoding cannot hold, so
what is left to check is the values 09 R237 marks reserved, the second spelling NOP, and the trapping rows. -/

namespace Sys2Proof

/-- Lane words of the single and literal layouts hold every field value; only MMODE's two rows share an opcode. -/
def Instr.wf : Instr → Bool
  | .add d a b => !(d == 0 && a == 0 && b == 0)
  | .ld _ _ sz _ => sz != 7
  | .st _ _ sz _ => sz != 7
  | .ldk _ _ sz _ => sz != 7
  | .fence s o => ctrlScope s && o != 0
  | .xfence s p q => ctrlScope s && pathOk p && pathOk q
  | .cloop a _ => a != 0
  | .cwait _ _ s => ctrlScope s
  | .crd _ e => decide (e.toNat ≤ 0x0F)
  | .cwr _ e => decide (e.toNat ≤ 0x0F)
  | .mmodeT w => bit w.x 0
  | .mmodeV w => !bit w.x 0
  | .mloop w _ => !w.lit
  | .sunf w _ => !w.lit
  | .paired p => opnAssigned p.op1.opn && opnAssigned p.op2.opn
  | .cillop w => decide (decodeCtrl w = .cillop w)
  | .cresfield w => decide (decodeCtrl w = .cresfield w)
  | .illop w => decide (decodeLane w none = some (.illop w))
  | i => (encode i).isSome

end Sys2Proof
end

