-- ==== Sys2Proof/Certificates/Slice0/Obligations.lean ====
section
/-! DEFINITION. The statements for the provers. First the words they are stated in, then the statements, each with the rules it
comes from. -/

namespace Sys2Proof.Claims

open Sys2Proof Sys2Proof.Machine

/-! ### Words of the statements -/

/-- Team x is resident at the acting position; the scalar registers `rs` and mask registers `ms` hold no poisoned data (10 R300). -/
def Acts (s : State) (x : Ctx) (rs : List (BitVec 5)) (ms : List (BitVec 4)) : Prop :=
  s.me? = some x ∧ (∀ r ∈ rs, x.poison r = none) ∧ ∀ m ∈ ms, x.strm.mpoison.getLsbD m.toNat = false

/-- Every byte of memory and of every scratchpad reads in t as in s. -/
def SameBytes (s t : State) : Prop :=
  (∀ a, readByte t a = readByte s a) ∧ ∀ c a, (t.core c).scr.get a = (s.core c).scr.get a

/-- The acting context. -/
def mine (s : State) : Ctx := s.ctx s.cur.core s.cur.ctx

/-- t differs from s in the acting context at most. -/
def OnlyMine (s t : State) : Prop := t = s.setMe (mine t)

/-- The context after its instruction retires at a new pc. -/
def retired (x : Ctx) (pc : W64) : Ctx := { x with pc := pc, wait := none, recent := none }

/-! ### The control stream, from 12 R342-R344, R347, R348, 13 R371, R372, R380, R381, 14 R387, R392 -/

/-- An integer written modulo 2^64. -/
def wrap64 (v : Int) : W64 := BitVec.ofInt 64 v

/-- Destination, registers read and result of the integer group, the immediate group, LUI and AUIPC. -/
def intResult (i : Instr) (x : Ctx) : Option (BitVec 5 × List (BitVec 5) × W64) :=
  let u (r : BitVec 5) : Int := (x.rd r).toNat
  let z (r : BitVec 5) : Int := (x.rd r).toInt
  let by_ (un : Bool) (r : BitVec 5) : Int := if un then u r else z r
  let amount (r : BitVec 5) : Nat := (x.rd r).toNat % 64
  match i with
  | .add d a b => some (d, [a, b], wrap64 (u a + u b))
  | .sub d a b => some (d, [a, b], wrap64 (u a - u b))
  | .mul d a b => some (d, [a, b], wrap64 (u a * u b))
  | .mulh d a b n => some (d, [a, b], wrap64 (by_ n a * by_ n b / 2 ^ 64))
  | .div d a b n => some (d, [a, b], if x.rd b = 0 then 0xFFFFFFFFFFFFFFFF else wrap64 ((by_ n a).tdiv (by_ n b)))
  | .rem d a b n => some (d, [a, b], if x.rd b = 0 then x.rd a else wrap64 (by_ n a - (by_ n a).tdiv (by_ n b) * by_ n b))
  | .and d a b => some (d, [a, b], x.rd a &&& x.rd b)
  | .or d a b => some (d, [a, b], x.rd a ||| x.rd b)
  | .xor d a b => some (d, [a, b], x.rd a ^^^ x.rd b)
  | .shl d a b => some (d, [a, b], wrap64 (u a * 2 ^ amount b))
  | .shlImm d a k => some (d, [a], wrap64 (u a * 2 ^ k.toNat))
  | .shr d a b => some (d, [a, b], wrap64 (u a / 2 ^ amount b))
  | .shrImm d a k => some (d, [a], wrap64 (u a / 2 ^ k.toNat))
  | .sra d a b => some (d, [a, b], wrap64 (z a / 2 ^ amount b))
  | .sraImm d a k => some (d, [a], wrap64 (z a / 2 ^ k.toNat))
  | .slt d a b n => some (d, [a, b], if by_ n a < by_ n b then 1 else 0)
  | .min d a b n => some (d, [a, b], wrap64 (min (by_ n a) (by_ n b)))
  | .max d a b n => some (d, [a, b], wrap64 (max (by_ n a) (by_ n b)))
  | .addi d a k => some (d, [a], wrap64 (u a + k.toInt))
  | .andi d a k => some (d, [a], x.rd a &&& k.zeroExtend 64)
  | .ori d a k => some (d, [a], x.rd a ||| k.zeroExtend 64)
  | .xori d a k => some (d, [a], x.rd a ^^^ k.zeroExtend 64)
  | .sltImm d a k => some (d, [a], if z a < k.toInt then 1 else 0)
  | .lui d k => some (d, [], wrap64 (k.toInt * 65536))
  | .auipc d k => some (d, [], wrap64 (x.pc.toNat + k.toInt * 65536))
  | _ => none

/-- Registers read, link register with its value, and new pc of the jumps, the branches and NOP. -/
def jumpResult (i : Instr) (x : Ctx) : Option (List (BitVec 5) × Option (BitVec 5 × W64) × W64) :=
  let z (r : BitVec 5) : Int := (x.rd r).toInt
  let u (r : BitVec 5) : Nat := (x.rd r).toNat
  let near (o : BitVec 16) (taken : Bool) : W64 := if taken then x.pc + o.signExtend 64 else x.pc + 1
  match i with
  | .nop => some ([], none, x.pc + 1)
  | .jal d o => some ([], some (d, x.pc + 1), x.pc + o.signExtend 64)
  | .jalr d a o => some ([a], some (d, x.pc + 1), x.rd a + o.signExtend 64)
  | .beq a b o => some ([a, b], none, near o (decide (u a = u b)))
  | .bne a b o => some ([a, b], none, near o (decide (u a ≠ u b)))
  | .blt a b o => some ([a, b], none, near o (decide (z a < z b)))
  | .bge a b o => some ([a, b], none, near o (decide (z b ≤ z a)))
  | .bltN a b o => some ([a, b], none, near o (decide (u a < u b)))
  | .bgeN a b o => some ([a, b], none, near o (decide (u b ≤ u a)))
  | _ => none

/-- Mask registers read, destination and lane k of the result of the mask operations. -/
def maskResult (i : Instr) (x : Ctx) : Option (List (BitVec 4) × BitVec 4 × (Nat → Bool)) :=
  let m (r : BitVec 4) (k : Nat) : Bool := (x.mask r).getLsbD k
  match i with
  | .mand d a b => some ([a, b], d, fun k => m a k && m b k)
  | .mor d a b => some ([a, b], d, fun k => m a k || m b k)
  | .mxor d a b => some ([a, b], d, fun k => m a k != m b k)
  | .mandn d a b => some ([a, b], d, fun k => m a k && !m b k)
  | .mnot d a => some ([a], d, fun k => !m a k)
  | .mmov d a => some ([a], d, fun k => m a k)
  | _ => none

/-- Mask register read, destination and result of the words that bring a mask to a scalar register. -/
def maskCount (i : Instr) (x : Ctx) : Option (BitVec 4 × BitVec 5 × Nat) :=
  match i with
  | .mcnt a d => some (a, d, ((List.range 1024).filter (fun k => (x.mask a).getLsbD k)).length)
  | .mfirst a d => some (a, d, ((List.range 1024).find? (fun k => (x.mask a).getLsbD k)).getD 1024)
  | .mwordR a d w => some (a, d, (x.mask a).toNat / 2 ^ (32 * w.toNat) % 2 ^ 32)
  | _ => none

/-- What a plain control word may write beside the pc: scalar registers, mask registers, the team active mask, the rotation base. -/
def plainWrites (i : Instr) : Option (List (BitVec 5) × List (BitVec 4) × Bool × Bool) :=
  match i with
  | .add d _ _ | .sub d _ _ | .mul d _ _ | .mulh d _ _ _ | .div d _ _ _ | .rem d _ _ _ | .and d _ _ | .or d _ _ | .xor d _ _
  | .shl d _ _ | .shlImm d _ _ | .shr d _ _ | .shrImm d _ _ | .sra d _ _ | .sraImm d _ _ | .slt d _ _ _ | .min d _ _ _
  | .max d _ _ _ | .addi d _ _ | .andi d _ _ | .ori d _ _ | .xori d _ _ | .sltImm d _ _ | .lui d _ | .auipc d _
  | .jal d _ | .jalr d _ _ | .mcnt _ d | .mfirst _ d | .mwordR _ d _ => some ([d], [], false, false)
  | .nop | .beq _ _ _ | .bne _ _ _ | .blt _ _ _ | .bge _ _ _ | .bltN _ _ _ | .bgeN _ _ _ => some ([], [], false, false)
  | .cloop a _ => some ([a], [], false, true)
  | .rotb d _ _ => some ([d], [], false, true)
  | .bmask _ _ => some ([], [], true, false)
  | .mand d _ _ | .mor d _ _ | .mxor d _ _ | .mandn d _ _ | .mnot d _ | .mmov d _ | .mwordW d _ _ => some ([], [d], false, false)
  | _ => none

/-- Registers a plain control word reads. -/
def plainReads (i : Instr) (x : Ctx) : List (BitVec 5) × List (BitVec 4) :=
  match i with
  | .cloop a _ => ([a], [])
  | .rotb _ a _ => ([a], [])
  | .bmask a _ => ([], [a])
  | .mwordW _ a _ => ([a], [])
  | i =>
    (((intResult i x).map (·.2.1)).getD (((jumpResult i x).map (·.1)).getD []),
     ((maskResult i x).map (·.1)).getD (((maskCount i x).map (fun r => [r.1])).getD []))


/-! ### Memory, from 09 R236, 10 R267, R268, 12 R345, R346 -/

/-- Bytes and sign extension of an SZ code (09 R236); code 7 is reserved. -/
def szCode (sz : BitVec 3) : Option (Nat × Bool) :=
  match sz.toNat with
  | 0 => some (1, false) | 1 => some (1, true) | 2 => some (2, false) | 3 => some (2, true)
  | 4 => some (4, false) | 5 => some (4, true) | 6 => some (8, false) | _ => none

/-- The number that an agent reads in n bytes at a physical address, as `MemoryReadAfterWrite` says of each byte (08 R212, R216). -/
def seenValue (s : State) (me : Agent) (pa n : Nat) : Nat :=
  ((List.range n).map (fun i => (Machine.seenByte s me none (pa + i)).toNat * 256 ^ i)).sum

/-- The little-endian number of n bytes at a physical address. -/
def leValue (s : State) (pa n : Nat) : Nat := ((List.range n).map (fun i => (readByte s (pa + i)).toNat * 256 ^ i)).sum

/-- Byte i of a little-endian number. -/
def leByte (v i : Nat) : Byte := BitVec.ofNat 8 (v / 256 ^ i)

/-- An n-byte number extended to 64 bits. -/
def extended (signed : Bool) (n v : Nat) : W64 :=
  if signed && decide (2 ^ (8 * n) ≤ 2 * v) then BitVec.ofInt 64 ((v : Int) - 2 ^ (8 * n)) else BitVec.ofNat 64 v

/-- A control access at `va` passes its checks with physical address `pa`, and its page is held by the core's TLBs (10 R268, R305). -/
def Reaches (s : State) (x : Ctx) (k : Kind) (va : W64) (n : Nat) (atomic : Bool) (pa : Nat) : Prop :=
  checkAccess s x.part (x.asid s) k pathC va n atomic = .ok pa ∧ tlbMisses s s.cur.core (x.asid s) [va] = []

/-- The state in which loads at the places `pas` read: an address that a load-consume gave orders the access after what the releases
before the consumed write cover (08 R231), and the agent's stores to the host window have left its queue where a place lies there (08
R216, R232). -/
def loadState (s : State) (me : Agent) (pas : List Nat) (tainted : Bool) : State :=
  pas.foldl (fun s pa => beforeHost s me pa) (seeFed s me tainted)

/-- A launch but for what the words of its image held before a program wrote them (04 R119). -/
def noCode (l : Launch) : Launch := { l with oldCode := [] }

/-- A write but for the orders it has, the reads it has answered and the agents it reached early. -/
def writeOf (e : Late) : Agent × Nat × Bool × Option Nat × List (Nat × Byte × Option Nat) :=
  (e.agent, e.order, e.rmw, e.scratch, e.cells)

/-- The events of m are those of l, ordered and read further (08 R213, R219). -/
def Orders (l m : List Late) : Prop :=
  l.map writeOf = m.map writeOf ∧ ∀ (i : Nat) (e f : Late), l[i]? = some e → m[i]? = some f →
    (∀ v ∈ e.before, v ∈ f.before) ∧ (∀ v ∈ e.read, v ∈ f.read) ∧ ∀ o ∈ e.shown, o ∈ f.shown

/-- t is s with its events ordered further. -/
def OnlyOrders (s t : State) : Prop := t = { s with late := t.late } ∧ Orders s.late t.late

/-- In t each event of s that `p` selects happens before the next events of an agent. -/
def Covers (s t : State) (p : Late → Prop) (a : Agent) : Prop :=
  ∀ (i : Nat) (e f : Late), s.late[i]? = some e → t.late[i]? = some f → p e → f.covered a = true

/-- The release that is performed now: it covers what `agents` have done or acquired, and the later writes of `after` come after it. -/
def releasing (s : State) (l : Link) (agents : List Agent) (after : List View) (reach : Reach) : Release :=
  { link := l, agents := agents, after := after.map (fun v => { view := v, time := s.freeCtr }), reach := reach, time := s.freeCtr,
    fed := [] }

/-- A write of memory in coherence order (08 R209). -/
def InMemory (e : Late) : Prop := e.scratch = none ∧ e.cells ≠ []

/-- A release that `p` selects, whose scope holds a core, covers the event (08 R211, R219). -/
def Released (s : State) (p : Link → Prop) (core : Nat) (e : Late) : Prop :=
  ∃ r ∈ s.releases, p r.link ∧ r.reach.has core = true ∧ r.covers e = true

/-- In t agent o has read the bytes at the given places: each write of s that it returned is marked as read by it, and, on the path and
the core of the write, happens before the agent's next events, with the earlier writes of its agent (08 R213, R216); a load-consume marks
the releases before such a write for its context (R231). Nothing else is different. -/
def ReadBy (s t : State) (o : Agent) (scratch : Option Nat) (places : List Nat) (consume : Bool) : Prop :=
  t = { s with late := t.late, releases := t.releases } ∧ Orders s.late t.late ∧
  t.releases.map (fun r => { r with fed := [] }) = s.releases.map (fun r => { r with fed := [] }) ∧
  (consume = false → t.releases = s.releases) ∧
  ∀ (i : Nat) (e f : Late), s.late[i]? = some e → t.late[i]? = some f → i ∈ returned s o scratch places →
    (∃ b ∈ f.read, b.view.has o = true) ∧
    (e.agent.path = o.path → (match scratch with | some c => c | none => e.agent.core) = o.core → f.covered o = true ∧
      (e.agent.core = o.core → o.path = .c ∨ o.path = .l → ∀ (j : Nat) (g h : Late), j < i → s.late[j]? = some g →
        t.late[j]? = some h → g.agent = e.agent → h.covered o = true)) ∧
    (consume = true → ∀ (j : Nat) (r q : Release), s.releases[j]? = some r → t.releases[j]? = some q → r.reach.has o.core = true →
      r.leads e = true → q.feeds o = true)

/-- The paths of the acting context, and of one of its groups (08 R207, R208). -/
def myPath (s : State) (p : Path) : Agent := { core := s.cur.core, ctx := s.cur.ctx, grp := none, path := p }

def groupPath (c k g : Nat) (p : Path) : Agent := { core := c, ctx := k, grp := some g, path := p }

/-- The cells of the n low bytes of a number from an address on. -/
def numCells (pa n v : Nat) : List (Nat × Byte) := (List.range n).map (fun i => (pa + i, leByte v i))

/-- A queued store covers a place of its agent. -/
def QueuedAt (q : Store) (o : Agent) (scratch : Option Nat) (a : Nat) : Prop :=
  (q.agent = o ∨ o ∈ q.toward) ∧ q.scratch = scratch ∧ ∃ c ∈ q.cells, c.1 = a

/-- A write replaced the byte of a place. -/
def WroteAt (e : Late) (scratch : Option Nat) (a : Nat) : Prop := e.scratch = scratch ∧ ∃ c ∈ e.cells, c.1 = a

/-- Two writes stand in one coherence order: they touch one line of memory (07 R195), or one byte of a scratchpad (08 R212). -/
def Coherent (e f : Late) : Prop :=
  e.scratch = f.scratch ∧ ∃ a ∈ e.cells, ∃ b ∈ f.cells, if e.scratch = none then a.1 / 128 = b.1 / 128 else a.1 = b.1

/-- An agent sees a write, the list being the writes after it: it is performed toward the agent, or stands in one coherence order before
one that the agent sees. -/
def Sees (o : Agent) : Late → List Late → Prop
  | e, [] => e.visible o = true
  | e, f :: r => (Sees o f r ∧ Coherent e f) ∨ Sees o e r

/-- The places of n bytes from an address on. -/
def placesOn (pa n : Nat) : List Nat := (List.range n).map (pa + ·)

/-- Byte storage is in canonical form, and cached pool lines hold 128 bytes (07 R199, R200); `StepKeepsInvariant` keeps both. -/
def MemoryOk (s : State) : Prop := Memory.wf s = true ∧ ∀ l ∈ s.poolLines, l.work.length = 128

/-- t's bytes at `pa` are the low n bytes of v; every other byte of memory, and every scratchpad, reads as in s. -/
def Stored (s t : State) (pa n v : Nat) : Prop :=
  (∀ i, i < n → tierOf s (pa + i) ≠ .hole → readByte t (pa + i) = leByte v i) ∧
  (∀ a, (a < pa ∨ pa + n ≤ a) → readByte t a = readByte s a) ∧
  ∀ c a, (t.core c).scr.get a = (s.core c).scr.get a

/-- t's writes are those of s, ordered further, and one of an agent to places of which `p` holds. -/
def WritesGrow (s t : State) (me : Agent) (p : Nat → Prop) : Prop :=
  ∃ m w, t.late = m ++ w ∧ Orders s.late m ∧ ∀ e ∈ w, e.agent = me ∧ ∀ c ∈ e.cells, p c.1

/-- Every other part of the machine is as in s, the acting context is y; a write of n bytes at `pa` has taken its place. -/
def OnlyMemory (s t : State) (y : Ctx) (pa n : Nat) : Prop :=
  t = { s.setMe y with mem := t.mem, host := t.host, poolLines := t.poolLines, poison := t.poison, late := t.late,
                       launches := t.launches, wrote := t.wrote, stamp := t.stamp } ∧
  t.launches.map noCode = s.launches.map noCode ∧ WritesGrow s t (myPath s .c) (fun a => pa ≤ a ∧ a < pa + n)

/-- Operation, width and order of the AMO words, with their operands. -/
def amoParts (i : Instr) : Option (AmoOp × BitVec 5 × BitVec 5 × BitVec 5 × Bool × Bool) :=
  match i with
  | .amoAdd d a b w => some (.add, d, a, b, w, false)
  | .amoAnd d a b w => some (.and, d, a, b, w, false)
  | .amoOr d a b w => some (.or, d, a, b, w, false)
  | .amoXor d a b w => some (.xor, d, a, b, w, false)
  | .amoSwap d a b w => some (.swap, d, a, b, w, false)
  | .amoCas d a b w => some (.cas, d, a, b, w, false)
  | .amoMin d a b w u => some (.min, d, a, b, w, u)
  | .amoMax d a b w u => some (.max, d, a, b, w, u)
  | _ => none

/-- An n-byte number read with its sign, or without. -/
def asInt (u : Bool) (n v : Nat) : Int := if !u && decide (2 ^ (8 * n) ≤ 2 * v) then (v : Int) - 2 ^ (8 * n) else v

/-- The value R345 stores; none where a compare fails. -/
def amoStores (op : AmoOp) (n : Nat) (u : Bool) (old y cmp : Nat) : Option Nat :=
  match op with
  | .add => some ((old + y) % 2 ^ (8 * n))
  | .and => some (old &&& y)
  | .or => some (old ||| y)
  | .xor => some (old ^^^ y)
  | .swap => some y
  | .cas => if old = cmp then some y else none
  | .min => some (if asInt u n y < asInt u n old then y else old)
  | .max => some (if asInt u n old < asInt u n y then y else old)

/-- The address, access kind, size, path and atomicity of the words that access memory through a scalar base. -/
def scalarAccess (i : Instr) (x : Ctx) : Option (BitVec 5 × W64 × Kind × Nat × Nat × Bool) :=
  match i with
  | .ld _ a sz o => (szCode sz).map (fun z => (a, x.rd a + o.signExtend 64, .rd, z.1, pathC, false))
  | .ldk _ a sz o => (szCode sz).map (fun z => (a, x.rd a + o.signExtend 64, .rd, z.1, pathC, false))
  | .st _ a sz o => (szCode sz).map (fun z => (a, x.rd a + o.signExtend 64, .wr, z.1, pathC, false))
  | .jwait a o => if x.child.isSome then none else some (a, x.rd a + o.signExtend 64, .sp, 4, pathS, false)
  | _ => none

/-- The freeze trigger of a control trap: not of a lane, nor of pre-emption (10 R271, R274, R276). -/
def ctrlTrig (cause : Nat) (async : Bool) (epc faddr : W64) (fmask : W32) (finfo : W64) : Trig :=
  { cause := cause, lane := false, group := 0, async := async, preempt := false, skippable := false, epc := epc,
    faddr := faddr, fmask := fmask, finfo := finfo }

/-- Scalar and mask registers that a control word reads before it does anything else; ST passes the poison of its data on. -/
def controlReads (i : Instr) : Option (List (BitVec 5) × List (BitVec 4)) :=
  match i with
  | .add _ a b | .sub _ a b | .mul _ a b | .mulh _ a b _ | .div _ a b _ | .rem _ a b _ | .and _ a b | .or _ a b | .xor _ a b
  | .shl _ a b | .shr _ a b | .sra _ a b | .slt _ a b _ | .min _ a b _ | .max _ a b _ | .beq a b _ | .bne a b _ | .blt a b _
  | .bge a b _ | .bltN a b _ | .bgeN a b _ | .amoAdd _ a b _ | .amoAnd _ a b _ | .amoOr _ a b _ | .amoXor _ a b _
  | .amoSwap _ a b _ | .amoMin _ a b _ _ | .amoMax _ a b _ _ => some ([a, b], [])
  | .shlImm _ a _ | .shrImm _ a _ | .sraImm _ a _ | .addi _ a _ | .andi _ a _ | .ori _ a _ | .xori _ a _ | .sltImm _ a _
  | .jalr _ a _ | .cloop a _ | .rotb _ a _ | .mwordW _ a _ | .ld _ a _ _ | .ldk _ a _ _ | .st _ a _ _ | .ewr a _ | .cwait a _ _
  | .jwait a _ | .cwr a _ => some ([a], [])
  | .amoCas d a b _ => some ([a, b, d], [])
  | .mand _ a b | .mor _ a b | .mxor _ a b | .mandn _ a b => some ([], [a, b])
  | .mnot _ a | .mmov _ a | .mcnt a _ | .mfirst a _ | .mwordR a _ _ | .bmask a _ | .divg a | .regroup a _ => some ([], [a])
  | .emit a b t m _ _ _ _ _ => some ([a, b, t], [m])
  | _ => none

/-- The cause of the first poisoned register; a poisoned mask register has that of control-core state (10 R300, R312). -/
def poisonCause (x : Ctx) (rs : List (BitVec 5)) (ms : List (BitVec 4)) : Option Nat :=
  match rs.findSome? x.poison with
  | some c => some c
  | none => if ∃ m ∈ ms, x.strm.mpoison.getLsbD m.toNat = true then some 0x177 else none

/-- A user-mode team with a privileged image and no freeze triggered. -/
def Trappable (x : Ctx) : Prop := x.mode = .user ∧ x.trig = none ∧ x.trapVec.msb = false

/-- The context with a freeze triggered: it stops, and its instruction is no longer waiting. -/
def triggered (x : Ctx) (t : Trig) : Ctx := { x with trig := some t, wait := none, tlbWait := [] }


/-! ### Emission and divergence, from 02 R44-R47, R54, 03 R73, R83, R84 -/

/-- A descriptor as EMIT and the marker words form it at a time; the arguments beyond the fields are zero. -/
def formed (now : Nat) (x : Ctx) (k : BitVec 4) (activity : Mask) : Desc :=
  { arg1 := 0, arg0 := 0, block := 0, trip := 0, rot := x.strm.rotb, mreg := k, push := false, pop := false, peek := false,
    ret := false, bar := false, seq := x.strm.seq, activity := activity, argTaint := false, regroup := none,
    seen := 0, time := now }

/-- The control slice after a descriptor enters the block queue. -/
def enqueued (st : Stream) (d : Desc) : Stream := { st with blockQ := st.blockQ ++ [d], seq := st.seq + 1 }

/-- EMIT meets none of its traps (02 R47). -/
def Emits (x : Ctx) (a t : BitVec 5) (push pop peek ret : Bool) : Prop :=
  x.strm.blockQ.length < 256 ∧ (x.rd a).toNat < 2 ^ 24 ∧ (x.rd t).toNat < 2 ^ 16 ∧ (ret = true → x.strm.returnQ.length < 16) ∧
  (pop = true → 0 < x.strm.fmtDepth) ∧ (push = true → x.strm.fmtDepth - pop.toNat ≠ 16) ∧
  (peek = true → 0 < x.strm.fmtDepth - pop.toNat + push.toNat)

/-- The context after EMIT (02 R45-R47). -/
def emitted (now : Nat) (x : Ctx) (a b t : BitVec 5) (m : BitVec 4) (push pop peek ret bar : Bool) : Ctx :=
  let d := { formed now x m (x.mask m &&& x.strm.active) with
    arg1 := BitVec.ofNat 32 ((x.rd b).toNat / 2 ^ 32), arg0 := BitVec.ofNat 32 (x.rd b).toNat,
    block := BitVec.ofNat 24 (x.rd a).toNat, trip := BitVec.ofNat 16 (x.rd t).toNat,
    push := push, pop := pop, peek := peek, ret := ret, bar := bar, argTaint := x.taint b }
  retired { x with strm := { enqueued x.strm d with
    fmtDepth := x.strm.fmtDepth - pop.toNat + push.toNat,
    returnQ := if ret then x.strm.returnQ ++ [{ seq := x.strm.seq, time := now, words := List.replicate x.groups.length none,
                                                poison := List.replicate x.groups.length none }]
               else x.strm.returnQ } } (x.pc + 1)

/-- EMIT's release, of the C events before it and those that happen before its C or L events (08 R220, 02 R48). -/
def blockRelease (s : State) : Release :=
  releasing s (.block s.cur.core s.cur.ctx s.freeCtr) [ctxAgent s.cur.core s.cur.ctx .c, ctxAgent s.cur.core s.cur.ctx .l]
    [.one (ctxAgent s.cur.core s.cur.ctx .c)] (.cores [s.cur.core])

/-- The state after EMIT: its release is performed, and the context holds what it emitted. -/
def emission (s : State) (y : Ctx) : State := ({ s with releases := s.releases ++ [blockRelease s] } : State).setMe y

/-- The context after DIVG, ELSE, RECON and REGROUP (03 R73, R84). -/
def diverged (now : Nat) (x : Ctx) (a : BitVec 4) : Ctx :=
  let act := x.strm.active &&& x.mask a
  retired { x with strm := { enqueued x.strm { formed now x a act with push := true } with
    recon := { saved := x.strm.active, els := x.strm.active &&& ~~~ x.mask a, phase := false, poison := false } :: x.strm.recon,
    active := act, fmtDepth := x.strm.fmtDepth + 1 } } (x.pc + 1)

def turnedElse (now : Nat) (x : Ctx) (tok : Token) (rest : List Token) : Ctx :=
  retired { x with strm := { enqueued x.strm { formed now x 0 tok.els with peek := true } with
    recon := { tok with phase := true } :: rest, active := tok.els } } (x.pc + 1)

def reconverged (now : Nat) (x : Ctx) (tok : Token) (rest : List Token) : Ctx :=
  retired { x with strm := { enqueued x.strm { formed now x 0 tok.saved with pop := true } with
    recon := rest, active := tok.saved, fmtDepth := x.strm.fmtDepth - 1 } } (x.pc + 1)

def regrouping (now : Nat) (x : Ctx) (k : BitVec 4) (n : BitVec 8) : Ctx :=
  let d := { formed now x k x.strm.active with bar := true, regroup := some (k.toNat, n.toNat + 1) }
  retired { x with strm := enqueued x.strm d } (x.pc + 1)

/-! ### Waits -/

/-- The context waits in its instruction, at the same pc. -/
def waiting (x : Ctx) (i : Instr) : Ctx := { x with wait := some i }


/-- The channel and register of an engine register number (07 R185). -/
def engCh (e : BitVec 8) : Nat := e.toNat / 32
def engReg (e : BitVec 8) : Nat := e.toNat % 32

/-- The identifier of the channel's oldest transfer left once its active one is over (07 R185). -/
def openId (y : Chan) : Nat := match y.queued with | some tr => tr.id | none => y.nextId

/-- What a shadow register keeps of a value: LEN and the counts 32 bits, FLAGS two (07 R185, 00 R6). -/
def shadowValue (r : Nat) (v : W64) : W64 :=
  if r = 2 ∨ (4 ≤ r ∧ r ≤ 11) then BitVec.ofNat 64 (v.toNat % 2 ^ 32) else if r = 3 then BitVec.ofNat 64 (v.toNat % 4) else v

/-- The context registers that CRD reads as they stand (10 R271). -/
def ctxRegister (x : Ctx) (e : Nat) : Option W64 :=
  match e with
  | 0x00 => some x.trapVec | 0x01 => some x.saveVec | 0x02 => some x.restVec | 0x03 => some x.cause
  | 0x04 => some x.epc | 0x05 => some x.faddr | 0x06 => some x.fmask | 0x07 => some x.finfo | 0x08 => some x.fridx
  | 0x0A => some (BitVec.ofNat 64 ((if x.mode = .user then 0 else 1) + (if x.mode = .trap then 2 else 0) +
      (if x.mode = .save then 4 else 0) + (if x.mode = .restore then 8 else 0) + (if x.debug then 16 else 0)))
  | 0x0B => some x.resumeR
  | 0x0C => some (x.ks.getD 0 0) | 0x0D => some (x.ks.getD 1 0) | 0x0E => some (x.ks.getD 2 0) | 0x0F => some (x.ks.getD 3 0)
  | _ => none

/-- The context after CWR writes a register it may write (10 R271). -/
def wroteCtx (x : Ctx) (e : Nat) (v : W64) : Option Ctx :=
  match e with
  | 0x04 => some { x with epc := v }
  | 0x08 => some { x with fridx := BitVec.ofNat 64 (v.toNat % 2 ^ 20) }
  | 0x0B => some { x with resumeR := BitVec.ofNat 64 (v.toNat % 2) }
  | 0x0C => some { x with ks := x.ks.set 0 v } | 0x0D => some { x with ks := x.ks.set 1 v }
  | 0x0E => some { x with ks := x.ks.set 2 v } | 0x0F => some { x with ks := x.ks.set 3 v }
  | _ => none

/-- No remote store of the team waits for its acknowledgement. -/
def StoresAcked (x : Ctx) : Prop := ∀ g ∈ x.groups, g.rstores = []

/-- No remote read of the team is still to be performed. -/
def ReadsDone (x : Ctx) : Prop := ∀ g ∈ x.groups, ∀ v ∈ g.outs, v.remote = []

/-- The remote accesses that the team's groups have issued are performed (08 R222). -/
def AccessesDone (x : Ctx) : Prop := ReadsDone x ∧ ∀ g ∈ x.groups, ∀ st ∈ g.rstores, st.performed = true

/-- A word that group g returned for the descriptor emitted at a time released what the group issued at `order` (08 R219, R220). -/
def WordReleased (s : State) (time g order : Nat) : Prop :=
  ∃ r ∈ s.releases, r.link = .ret s.cur.core s.cur.ctx time ∧ groupPath s.cur.core s.cur.ctx g .l ∈ r.agents ∧ order ≤ r.time

/-- The remote accesses that the groups released with the words of that descriptor are performed (08 R222, 18 R430). -/
def WordsDone (s : State) (x : Ctx) (time : Nat) : Prop :=
  ∀ (i : Nat) (g : Machine.Group), x.groups[i]? = some g → (∀ v ∈ g.outs, ∀ a ∈ v.remote, ¬ WordReleased s time i a.order) ∧
    ∀ st ∈ g.rstores, st.performed = true ∨ ¬ WordReleased s time i st.order

/-- Each matrix loop of a group that an L event of the group followed which the context has acquired is complete, and its completion
visible (15 R421). -/
def AcquiredLoops (s : State) (x : Ctx) : Prop :=
  ∀ (i : Nat) (g : Machine.Group), x.groups[i]? = some g → ∀ l ∈ g.loops, l.visible = true ∨
    ∀ e ∈ s.late, e.agent = groupPath s.cur.core s.cur.ctx i .l → l.time < e.order → e.covered (myPath s .gotL) = false

/-- What an XFENCE on path U, or at cluster scope or wider, waits for (08 R222, R226, 15 R421). -/
def EarlierDone (s : State) (x : Ctx) (scope p : BitVec 3) : Prop :=
  (p = 3 → AcquiredLoops s x) ∧ (scope.toNat < 2 ∨ StoresAcked x)

/-- The stores that a context's fence makes leave their queues: its own where `own`, and at system scope those to the host window, its
groups' too (08 R216, R222, R232). -/
def fenceFlush (s : State) (own : Bool) (scope : BitVec 3) : State :=
  flushWhere s (fun q => if q.host then scope == 6 && q.agent.of s.cur.core s.cur.ctx else own && q.agent == myPath s .c)

/-- Those of a team but to the host window. -/
def teamFlush (s : State) : State := flushWhere s (fun q => q.agent.of s.cur.core s.cur.ctx && !q.host)

/-- The path of a code (08 R208). -/
def codePath (p : BitVec 3) : Path :=
  match p.toNat with
  | 0 => .c | 1 => .l | 2 => .x | 3 => .u | _ => .s

/-- A release fence covers the event, and a write of its agents after it, on a core within the reach, has been read by one of `me`; its
own scope holds the core (08 R211, R220, R221). -/
def FencedTo (s : State) (reach : Reach) (core : Nat) (me : List Agent) (e : Late) : Prop :=
  ∃ r ∈ s.releases, r.link = .fence ∧ r.reach.has core = true ∧ r.covers e = true ∧
    ∃ w ∈ s.late, reach.has w.agent.core = true ∧ r.leads w = true ∧ ∃ b ∈ w.read, ∃ a ∈ me, b.view.has a = true

/-- The context's own events on paths C and S, and those it has acquired, by the paths they came by (08 R225). -/
def ctxReaders (s : State) : List Agent := [Path.c, .gotL, .gotX, .gotS, .s].map (myPath s)

/-- The later events of the context that its fences order: C, L, S and the X events of its transfers (08 R221, R225). -/
def ctxLater (s : State) : List View :=
  [.one (myPath s .c), .one (myPath s .l), .copies s.cur.core s.cur.ctx, .one (myPath s .s)]

/-- The events that an XFENCE's, or VXFENCE's, earlier path holds: a context's L and X events are those it has acquired (08 R226, R227). -/
def earlierPath (me : Path → Agent) (group : Bool) (p : BitVec 3) : List Agent :=
  match p.toNat with
  | 0 => [me .c] | 1 => if group then [me .l] else [me .gotL] | 2 => [me .gotX] | 3 => [] | _ => [me .gotS, me .s]

/-- The later events of a context on a path: the X events of its transfers (08 R226). -/
def laterPath (s : State) (q : BitVec 3) : View :=
  if q = 2 then .copies s.cur.core s.cur.ctx else .one (myPath s (codePath q))

/-- An acquire that invalidates the core's L1 makes every write of memory in coherence order visible (07 R193, 08 R215): at deck scope
or wider, and at cluster scope in a cluster of several cores. -/
def Invalidates (s : State) (x : Ctx) (scope : Nat) : Prop := 3 ≤ scope ∨ (scope = 2 ∧ 1 < (spanOf s x).length)

/-- A release that R203 widens: at pool or system scope every checked-out line is checked in. -/
def released (s : State) (scope : BitVec 3) : State := if scope = 5 ∨ scope = 6 ∨ scope = 7 then checkInAll s else s

/-- The routine's work is over: its descriptors have completed, its results are written, its pushes have entered and its records are
accepted (10 R282, 17 R428). -/
def RoutineDone (x : Ctx) : Prop :=
  x.strm.blockQ = [] ∧ ∀ r ∈ x.groups, (∀ v ∈ r.outs, v.written = true) ∧ r.pos.pushes = [] ∧ r.spawnPend = []

/-- KTRIG's release: it covers the context's C events, its groups' L events, and what happened before them (04 R117, 08 R220). -/
def kernelRelease (s : State) (x : Ctx) : Release :=
  releasing s (.trigger x.part x.launch)
    (myPath s .c :: (List.range x.groups.length).map (fun g => groupPath s.cur.core s.cur.ctx g .l)) [.one (myPath s .c)] .all

/-- The freeze record's positions as ERET reinstalls them: a suspended group tries its word again (10 R277, R282). -/
def resumedStatus (p : GroupPos) : GStatus := match p.status with | .suspended _ => .eligible | st => st


/-! ### Lane words, from 02 R39, R52, R57, R60, R64, 09 R242, R243, R251, 12 R338, 14 R395, R396 -/

/-- The structure rules of a single or paired word (02 R57): its run has a slot left, SW stands only with an end of run, and a word
that must end its run does. -/
def Placed (g : Machine.Group) (h : Hdr) (mustEnd : Bool) : Prop :=
  g.pos.slot < 24 ∧ (h.sw = true → h.fin = true ∨ h.bnd = true) ∧ (mustEnd = true → h.fin = true ∨ h.bnd = true)

/-- The operands of a word about to issue: numbers in range and pairs even (02 R39), no poison in those it reads, nor in any special
register (10 R300), and none of them a result still outstanding or a register a matrix loop owns (02 R64, 06 R163). -/
def OperandsReady (e : Env) (ops : List Opd) : Prop :=
  (∀ o ∈ ops, (o.pair = true → o.num % 2 = 0) ∧ ∀ k ∈ o.names, k < if o.vec then e.x.n else e.x.q) ∧
  (∀ o ∈ ops, o.rd = true → (e.poisonOf o).lanes = 0) ∧
  e.uncovered ops (fun _ => true) = false ∧ e.owns ops (fun _ => true) = false ∧ ∀ q ∈ e.g.spoison, q = none

/-- A group acts at the acting position, its team is not in debug schedule mode, and its word stands where it may. -/
def LaneActs (s : State) (x : Ctx) (g : Machine.Group) (h : Hdr) (mustEnd : Bool) : Prop :=
  s.grp? = some (x, g) ∧ x.debug = false ∧ Placed g h mustEnd

/-- The word issues in n slots with the pending writes `wr`; at an end of run the run ends (02 R60, R63). -/
def issued (s : State) (x : Ctx) (g : Machine.Group) (h : Hdr) (n : Nat) (m : Truss) (s' : State) (g' : Machine.Group)
    (wr : List Pend) : State :=
  finishWord (Env.of s x g) h n m (.go s' g' wr)

/-- Which fields an entry uses: D, A, B, C, its types, MOD values, tile form with the strides it uses, X bits, literal (12 R338). -/
structure Uses where
  d : Bool
  a : Bool
  b : Bool
  c : Bool
  strideC : Bool
  ty : List Nat
  md : List Nat
  tile : Bool
  x : W32
  lit : Bool

/-- The reserved fields are zero and the modifier is the entry's; a stride belongs to a source of a tile word (step 4 of 09 R251; 06
R172, 09 R242, R243, 12 R338). -/
def Uses.clean (u : Uses) (w : LaneWord) : Prop :=
  (u.d = false → w.d = 0) ∧ (u.a = false → w.a = 0) ∧ (u.b = false → w.b = 0) ∧ (u.c = false → w.c = 0) ∧
  (w.lit = true → u.lit = true ∧ w.b = 0) ∧ (w.lit = false → w.x &&& ~~~u.x = 0) ∧
  (u.ty = [] → w.ty = 0) ∧ w.md.toNat ∈ u.md ∧ (w.tl = true → u.tile = true) ∧
  (¬ (w.tl = true ∧ u.a = true) → w.sa = 0) ∧ (¬ (w.tl = true ∧ u.b = true ∧ w.lit = false) → w.sb = 0) ∧
  (¬ (w.tl = true ∧ u.strideC = true) → w.sc = 0)

/-- The type is the entry's, and a tile word has no 64-bit type (step 5 of 09 R251; 05 R125, 06 R172). -/
def Uses.typed (u : Uses) (w : LaneWord) : Prop :=
  (u.ty ≠ [] → w.ty.toNat ∈ u.ty) ∧ (w.tl = true → w.ty.toNat ≠ 10 ∧ w.ty.toNat ≠ 11)

def Uses.ok (u : Uses) (w : LaneWord) : Prop := u.clean w ∧ u.typed w

/-- Width and signedness of an integer type (05 R124). -/
def intType (ty : Nat) : Nat × Bool :=
  match ty with
  | 0 => (32, true) | 1 => (32, false) | 2 => (16, true) | 3 => (16, false) | 4 => (8, true) | 5 => (8, false)
  | 10 => (64, true) | 11 => (64, false) | _ => (32, false)

/-- A pattern read as an integer of a type. -/
def readInt (ty v : Nat) : Int :=
  let (wd, sg) := intType ty
  if sg && decide (2 ^ (wd - 1) ≤ v % 2 ^ wd) then ((v % 2 ^ wd : Nat) : Int) - 2 ^ wd else (v % 2 ^ wd : Nat)

/-- An exact result reduced to a type: modulo 2^width, or clamped under MOD.sat (05 R126). -/
def reduced (ty : Nat) (sat : Bool) (r : Int) : Int :=
  let (wd, sg) := intType ty
  let lo : Int := if sg then -(2 ^ (wd - 1)) else 0
  let hi : Int := if sg then 2 ^ (wd - 1) - 1 else 2 ^ wd - 1
  if sat then max lo (min hi r) else readInt ty (r % 2 ^ wd).toNat

/-- The pattern of an integer in a register, or in a pair for a 64-bit type (02 R38, 05 R124). -/
def patternOf (ty : Nat) (r : Int) : Nat := (r % 2 ^ (if ty = 10 ∨ ty = 11 then 64 else 32)).toNat

/-- An integer lane word: its fields, its vector sources, VSEL's selector, whether MOD.sat is allowed, its latency, and the exact
result of lane i from the patterns of A, B and C. -/
structure IntLane where
  w : LaneWord
  a : Bool
  b : Bool
  c : Bool
  sel : Bool
  sat : Bool
  lat : Nat
  exact : Nat → Nat → Nat → Nat → Int

/-- The words of the integer and unary groups (14 R393-R396), latencies of 02 R59. -/
def intLane (i : Instr) : Option IntLane :=
  let rd (w : LaneWord) (v : Nat) : Int := readInt w.ty.toNat v
  let wd (w : LaneWord) : Nat := (intType w.ty.toNat).1
  let two (w : LaneWord) (sat : Bool) (lat : Nat) (f : Int → Int → Int) : Option IntLane :=
    some (IntLane.mk w true true false false sat lat (fun a b _ _ => f (rd w a) (rd w b)))
  let bits (w : LaneWord) (f : Nat → Nat → Nat) : Option IntLane :=
    some (IntLane.mk w true true false false false 2 (fun a b _ _ => (f (a % 2 ^ wd w) (b % 2 ^ wd w) : Nat)))
  let one (w : LaneWord) (sat : Bool) (f : Nat → Int) : Option IntLane :=
    some (IntLane.mk w true false false false sat 2 (fun a _ _ _ => f a))
  match i with
  | .vadd w => two w true 2 (fun a b => a + b)
  | .vsub w => two w true 2 (fun a b => a - b)
  | .vmul w => two w true 4 (fun a b => a * b)
  | .vmulh w => two w false 4 (fun a b => a * b / 2 ^ wd w)
  | .vmad w => some (IntLane.mk w true true true false true 4 (fun a b c _ => rd w a * rd w b + rd w c))
  | .vand w => bits w (fun a b => a &&& b)
  | .vor w => bits w (fun a b => a ||| b)
  | .vxor w => bits w (fun a b => a ^^^ b)
  | .vandn w => bits w (fun a b => a &&& (2 ^ wd w - 1 - b))
  | .vshl w => some (IntLane.mk w true true false false true 2 (fun a b _ _ => rd w a * 2 ^ (b % 2 ^ wd w % 64)))
  | .vshr w => bits w (fun a b => a / 2 ^ (b % 64))
  | .vsra w => some (IntLane.mk w true true false false false 2 (fun a b _ _ =>
      (if 2 ^ (wd w - 1) ≤ a % 2 ^ wd w then ((a % 2 ^ wd w : Nat) : Int) - 2 ^ wd w else (a % 2 ^ wd w : Nat)) /
        2 ^ (b % 2 ^ wd w % 64)))
  | .vmin w => two w false 2 (fun a b => min a b)
  | .vmax w => two w false 2 (fun a b => max a b)
  | .vsel w => some (IntLane.mk w true true false true false 2 (fun a b c i => if c.testBit i then rd w a else rd w b))
  | .vmov w => some (IntLane.mk w false true false false false 2 (fun _ b _ _ => rd w b))
  | .vabs w => one w true (fun a => ((rd w a).natAbs : Int))
  | .vneg w => one w true (fun a => -rd w a)
  | .vclz w => one w false (fun a =>
      (((List.range (wd w)).find? (fun k => (a % 2 ^ wd w).testBit (wd w - 1 - k))).getD (wd w) : Nat))
  | .vpopc w => one w false (fun a => (((List.range (wd w)).filter (fun k => a.testBit k)).length : Nat))
  | _ => none

def IntLane.uses (l : IntLane) : Uses :=
  { d := true, a := l.a, b := l.b, c := l.c || l.sel, strideC := l.c, ty := [0, 1, 2, 3, 4, 5, 10, 11],
    md := if l.sat then [0, 4] else [0], tile := true, x := 0, lit := l.b }

/-- Rows and stride of a tile word's source (06 R172). -/
def asTile (e : Env) (w : LaneWord) (o : Opd) (stride : BitVec 3) : Opd :=
  if w.tl then { o with rows := e.rows w, stride := stride.toNat } else o

def IntLane.ops (l : IntLane) (e : Env) : List Opd :=
  let wide := l.w.ty.toNat = 10 ∨ l.w.ty.toNat = 11
  [asTile e l.w (Opd.vw l.w.d (decide wide)) 1] ++
  (if l.a then [asTile e l.w (Opd.vr l.w.a (decide wide)) l.w.sa] else []) ++
  (if l.b && !l.w.lit then [asTile e l.w (Opd.vr l.w.b (decide wide)) l.w.sb] else []) ++
  (if l.c then [asTile e l.w (Opd.vr l.w.c (decide wide)) l.w.sc] else if l.sel then [Opd.gr l.w.c false] else [])

/-- The literal of a word as the pattern of its B source (09 R243). -/
def litPattern (w : LaneWord) : Nat := if w.ty = 10 then (w.x.signExtend 64).toNat else w.x.toNat

/-- What lane i of row r receives. -/
def IntLane.value (l : IntLane) (e : Env) (r i : Nat) : Nat :=
  let wide := decide (l.w.ty.toNat = 10 ∨ l.w.ty.toNat = 11)
  let at_ (k : BitVec 8) (st : BitVec 3) : Nat := e.val (k.toNat + r * st.toNat) i wide
  let b := if l.w.lit then litPattern l.w else at_ l.w.b l.w.sb
  let c := if l.sel then (e.gval l.w.c).toNat else at_ l.w.c l.w.sc
  patternOf l.w.ty.toNat (reduced l.w.ty.toNat (l.w.md = 4) (l.exact (at_ l.w.a l.w.sa) b c i))

/-- Pending writes of an elementwise word: they stand in D's rows (and, for a pair, in the odd registers the high halves), for the
active lanes, `lat` slots ahead, and hold the values. -/
def LaneWrites (e : Env) (w : LaneWord) (wide : Bool) (lat : Nat) (val : Nat → Nat → Nat) (wr : List Pend) : Prop :=
  (∀ p ∈ wr, p.kind = .vec ∧ p.left = lat ∧ p.lanes = e.lanes w ∧ p.poison.lanes = 0 ∧
    ∃ r, r < e.rows w ∧ (p.reg = e.vmap (w.d.toNat + r) ∨ (wide = true ∧ p.reg = e.vmap (w.d.toNat + r + 1)))) ∧
  ∀ r i, r < e.rows w → i < 32 → (e.lanes w).getLsbD i = true →
    (∃ p ∈ wr, p.reg = e.vmap (w.d.toNat + r) ∧ p.vals[i]? = some (BitVec.ofNat 36 (val r i % 2 ^ 32))) ∧
    (wide = true → ∃ p ∈ wr, p.reg = e.vmap (w.d.toNat + r + 1) ∧ p.vals[i]? = some (BitVec.ofNat 36 (val r i / 2 ^ 32)))

/-- A word of one slot that ends no run. -/
def noEnd (h : Hdr) : Prop := h.fin = false ∧ h.bnd = false


/-! ### Floating point and conversions, from 05 R126-R134, R139, R144, 12 R356-R365, 13 R377; the exact arithmetic of `FVal` -/

/-- Fields of a word that uses none. -/
def noUses : Uses :=
  { d := false, a := false, b := false, c := false, strideC := false, ty := [], md := [0], tile := false, x := 0, lit := false }

/-- A floating or conversion word: fields, latency, whether its exceptions can trap, and the stored pattern with the flags of one lane. -/
structure FloatLane where
  w : LaneWord
  uses : Uses
  lat : Nat
  traps : Bool
  f : Nat → Nat → Nat → Nat × W32

/-- The arithmetic group, the transcendental group and FCVT, LCVT under the group's FMT (05 R127-R129, R134, R139, R143). -/
def floatLane (fmt : W32) (i : Instr) : Option FloatLane :=
  let use (b c : Bool) (md : List Nat) : Uses :=
    { noUses with d := true, a := true, b := b, c := c, strideC := c, ty := [6, 7, 8], md := md, tile := true, lit := b }
  let all : List Nat := [0, 1, 2, 3, 4, 5, 6, 7]
  let rd (w : LaneWord) (v : Nat) : FVal := readFp w.ty.toNat v
  let wr (w : LaneWord) (v : FVal × W32) : Nat × W32 := (tyFmt w.ty.toNat).write (Round.ofMod w.md) (w.md.getLsbD 2) v.1 v.2
  let tr (w : LaneWord) (t : Trans) : Option FloatLane :=
    some (FloatLane.mk w (use false false [0, 4]) 10 true (fun a _ _ => (tyFmt w.ty.toNat).trans t (w.md.getLsbD 2) (rd w a)))
  match i with
  | .fadd w => some (FloatLane.mk w (use true false all) 4 true (fun a b _ => wr w ((rd w a).add (Round.ofMod w.md) (rd w b))))
  | .fsub w => some (FloatLane.mk w (use true false all) 4 true (fun a b _ => wr w ((rd w a).add (Round.ofMod w.md) (rd w b).neg)))
  | .fmul w => some (FloatLane.mk w (use true false all) 4 true (fun a b _ => wr w ((rd w a).mul (rd w b))))
  | .ffma w => some (FloatLane.mk w (use true true all) 4 true (fun a b c =>
      let m := (rd w a).mul (rd w b)
      let v := m.1.add (Round.ofMod w.md) (rd w c)
      wr w (v.1, m.2 ||| v.2 ||| (if (rd w a).sig || (rd w b).sig || (rd w c).sig then 1 else 0))))
  | .fmin w => some (FloatLane.mk w (use true false [0]) 4 true (fun a b _ => wr w ((rd w a).minmax false (rd w b))))
  | .fmax w => some (FloatLane.mk w (use true false [0]) 4 true (fun a b _ => wr w ((rd w a).minmax true (rd w b))))
  | .frcp w => tr w .rcp
  | .frsq w => tr w .rsq
  | .fexp2 w => tr w .exp2
  | .flog2 w => tr w .log2
  | .fcvt w =>
    let src := w.x.toNat % 16
    let dst := w.ty.toNat
    if src ≤ 8 ∧ (6 ≤ src ∨ (6 ≤ dst ∧ dst ≤ 8)) then
      some (FloatLane.mk w { use false false all with ty := [0, 1, 2, 3, 4, 5, 6, 7, 8], x := 0xF } 4 true
        (fun a _ _ => fcvtRes dst src (Round.ofMod w.md) (w.md.getLsbD 2) a))
    else none
  | .lcvt w =>
    let src := w.x.toNat % 16
    if w.ty = 9 ∧ src ≤ 8 then
      some (FloatLane.mk w { use false false [0, 4] with ty := [9], x := 0xF } 4 true (fun a _ _ => toL6 (readVal src a) (fmtEA fmt)))
    else if w.ty ≠ 9 ∧ src = 9 then
      some (FloatLane.mk w { use false false all with x := 0xF } 4 true (fun a _ _ => wr w (l6Value (a % 64) (fmtEA fmt), 0)))
    else none
  | _ => none

def FloatLane.ops (l : FloatLane) (e : Env) : List Opd :=
  [asTile e l.w (Opd.vw l.w.d false) 1, asTile e l.w (Opd.vr l.w.a false) l.w.sa] ++
  (if l.uses.b && !l.w.lit then [asTile e l.w (Opd.vr l.w.b false) l.w.sb] else []) ++
  (if l.uses.c then [asTile e l.w (Opd.vr l.w.c false) l.w.sc] else [])

/-- Pattern and flags of lane i of row r. -/
def FloatLane.res (l : FloatLane) (e : Env) (r i : Nat) : Nat × W32 :=
  let at_ (k : BitVec 8) (st : BitVec 3) : Nat := e.val (k.toNat + r * st.toNat) i false
  l.f (at_ l.w.a l.w.sa) (if l.w.lit then l.w.x.toNat else at_ l.w.b l.w.sb) (at_ l.w.c l.w.sc)

/-- Exponent and fraction bits and bias of F32, F16, BF16 (05 R127), and of F36 as type 36 (05 R142). -/
def floatForm (ty : Nat) : Nat × Nat × Nat :=
  if ty = 7 then (5, 10, 15) else if ty = 8 then (8, 7, 127) else if ty = 36 then (8, 27, 127) else (8, 23, 127)

/-- A finite pattern: its exponent field is not all ones. -/
def FiniteFloat (ty p : Nat) : Prop := let (eb, fb, _) := floatForm ty; p / 2 ^ fb % 2 ^ eb ≠ 2 ^ eb - 1

/-- The number that a finite pattern stands for; an exponent field of zero is a zero or a subnormal number (05 R127). -/
def floatValue (ty p : Nat) : ℚ :=
  let (eb, fb, bias) := floatForm ty
  let e := p / 2 ^ fb % 2 ^ eb
  let m := p % 2 ^ fb
  (if p / 2 ^ (eb + fb) % 2 = 1 then -1 else 1) *
    (if e = 0 then (m : ℚ) * 2 ^ (1 - (bias : ℤ) - fb) else ((2 ^ fb + m : ℕ) : ℚ) * 2 ^ ((e : ℤ) - bias - fb))

/-- A mode that rounds v away from zero: RD below zero, RU above it (05 R128). -/
def RoundsAway (md : BitVec 3) (v : ℚ) : Prop := (md.toNat % 4 = 2 ∧ v < 0) ∨ (md.toNat % 4 = 3 ∧ 0 < v)

/-- v rounded to the precision of the type with no bound on the exponent is beyond its largest finite number. -/
def Overflows (ty : Nat) (md : BitVec 3) (v : ℚ) : Prop :=
  let (_, fb, bias) := floatForm ty
  let top : ℚ := 2 ^ ((bias : ℤ) + 1)
  let unit : ℚ := 2 ^ ((bias : ℤ) - fb)
  (md.toNat % 4 = 0 → top - unit / 2 ≤ |v|) ∧ (md.toNat % 4 ≠ 0 → RoundsAway md v → top - unit < |v|) ∧
  (md.toNat % 4 ≠ 0 → ¬ RoundsAway md v → top ≤ |v|)

/-- v so rounded is below its least normal number: tininess after rounding (05 R127). -/
def Tiny (ty : Nat) (md : BitVec 3) (v : ℚ) : Prop :=
  let (_, fb, bias) := floatForm ty
  let least : ℚ := 2 ^ (1 - (bias : ℤ))
  let unit : ℚ := 2 ^ (-(bias : ℤ) - fb)
  (md.toNat % 4 = 0 → |v| < least - unit / 2) ∧ (md.toNat % 4 ≠ 0 → RoundsAway md v → |v| ≤ least - unit) ∧
  (md.toNat % 4 ≠ 0 → ¬ RoundsAway md v → |v| < least)

/-- p is the finite number of the type that the mode gives for v: the nearest, ties to even; the nearest toward zero; the nearest below;
the nearest above (05 R128). It bears the sign of v. -/
def Nearest (ty : Nat) (md : BitVec 3) (v : ℚ) (p : Nat) : Prop :=
  let (eb, fb, _) := floatForm ty
  let val := floatValue ty
  FiniteFloat ty p ∧ p < 2 ^ (eb + fb + 1) ∧ (p / 2 ^ (eb + fb) = 1 ↔ v < 0) ∧ ∀ q, FiniteFloat ty q →
    match md.toNat % 4 with
    | 0 => |v - val p| ≤ |v - val q| ∧ (|v - val q| = |v - val p| → val q = val p ∨ p % 2 = 0)
    | 1 => |val p| ≤ |v| ∧ (|val q| ≤ |v| → |val q| ≤ |val p|)
    | 2 => val p ≤ v ∧ (val q ≤ v → val q ≤ val p)
    | _ => v ≤ val p ∧ (v ≤ val q → val p ≤ val q)

/-- A result is v, not zero, rounded once, with the flags of R358: an overflowing one is infinity, or the largest finite number of its
sign under MOD[2] (05 R127, R128; in every mode: log entry 50). -/
def Rounded (ty : Nat) (md : BitVec 3) (v : ℚ) (r : Nat × W32) : Prop :=
  let (eb, fb, _) := floatForm ty
  (Overflows ty md v → r = ((if v < 0 then 2 ^ (eb + fb) else 0) + (2 ^ eb - 1) * 2 ^ fb - (if md.getLsbD 2 = true then 1 else 0), 0x14)) ∧
  (¬ Overflows ty md v → Nearest ty md v r.1 ∧ (floatValue ty r.1 = v → r.2 = 0) ∧
    (floatValue ty r.1 ≠ v → (Tiny ty md v → r.2 = 0x18) ∧ (¬ Tiny ty md v → r.2 = 0x10)))

/-- A pattern that is no number. -/
def IsNan (ty p : Nat) : Prop := let (_, fb, _) := floatForm ty; ¬ FiniteFloat ty p ∧ p % 2 ^ fb ≠ 0

/-- Infinity of a sign, the canonical NaN, the bits of a type, its sign, and a signalling NaN (05 R127). -/
def infFloat (ty : Nat) (neg : Bool) : Nat := let (eb, fb, _) := floatForm ty; (if neg then 2 ^ (eb + fb) else 0) + (2 ^ eb - 1) * 2 ^ fb

def nanFloat (ty : Nat) : Nat := let (_, fb, _) := floatForm ty; infFloat ty false + 2 ^ (fb - 1)

def ownBits (ty p : Nat) : Nat := let (eb, fb, _) := floatForm ty; p % 2 ^ (eb + fb + 1)

def negative (ty p : Nat) : Bool := let (eb, fb, _) := floatForm ty; decide (p / 2 ^ (eb + fb) % 2 = 1)

def signalled (ty p : Nat) : Bool :=
  let (eb, fb, _) := floatForm ty
  decide (p / 2 ^ fb % 2 ^ eb = 2 ^ eb - 1 ∧ p % 2 ^ fb ≠ 0 ∧ p % 2 ^ fb < 2 ^ (fb - 1))

/-- An infinite result under MOD[2] (05 R128). -/
def infResult (ty : Nat) (md : BitVec 3) (neg : Bool) : Nat := infFloat ty neg - (if md.getLsbD 2 = true then 1 else 0)

/-- FMIN, or FMAX for `big`, of two patterns of a type (05 R128). -/
def ChosenFloat (ty : Nat) (big : Bool) (a b : Nat) (r : Nat × W32) : Prop :=
  let q := floatValue ty
  let least := ownBits ty (if big then b else a)
  let most := ownBits ty (if big then a else b)
  (FiniteFloat ty a → FiniteFloat ty b → r.2 = 0 ∧ (q a < q b → r.1 = least) ∧ (q b < q a → r.1 = most) ∧
    (q a = q b → r.1 = if big then min (ownBits ty a) (ownBits ty b) else max (ownBits ty a) (ownBits ty b))) ∧
  (IsNan ty a ∨ IsNan ty b → r.2 = if signalled ty a || signalled ty b then 1 else 0) ∧
  (IsNan ty a → FiniteFloat ty b → r.1 = ownBits ty b) ∧ (FiniteFloat ty a → IsNan ty b → r.1 = ownBits ty a) ∧
  (IsNan ty a → IsNan ty b → r.1 = nanFloat ty)

/-- A result is one over the square root of v, correctly rounded to nearest even: no other finite number lies nearer, which the square of
the point midway tells (05 R129). -/
def InverseRoot (ty : Nat) (v : ℚ) (r : Nat × W32) : Prop :=
  let y := floatValue ty r.1
  FiniteFloat ty r.1 ∧ 0 < y ∧ r.2 = (if v * y ^ 2 = 1 then 0 else 0x10) ∧ ∀ c, FiniteFloat ty c →
    let mid := (y + floatValue ty c) / 2
    (y < floatValue ty c → 1 ≤ v * mid ^ 2 ∧ (v * mid ^ 2 = 1 → r.1 % 2 = 0)) ∧
    (floatValue ty c < y → 0 ≤ mid → v * mid ^ 2 ≤ 1 ∧ (v * mid ^ 2 = 1 → r.1 % 2 = 0))

/-- The special operands of FRCP, FRSQ, FEXP2 and FLOG2, numbered 0 to 3 (05 R129): the result and its flag. -/
def TransSpecial (ty : Nat) (md : BitVec 3) (op a : Nat) (r : Nat × W32) : Prop :=
  let q := floatValue ty a
  let neg := negative ty a
  (IsNan ty a → r = (nanFloat ty, if signalled ty a then 1 else 0)) ∧
  (ownBits ty a = infFloat ty neg → r = match op with
    | 0 => (ownBits ty a - infFloat ty false, 0)
    | 1 => if neg then (nanFloat ty, 1) else (0, 0)
    | 2 => if neg then (0, 0) else (infResult ty md false, 0)
    | _ => if neg then (nanFloat ty, 1) else (infResult ty md false, 0)) ∧
  (FiniteFloat ty a → q = 0 → op < 2 → r = (infResult ty md neg, 2)) ∧ (FiniteFloat ty a → q = 0 → op = 3 → r = (infResult ty md true, 2)) ∧
  (FiniteFloat ty a → q < 0 → op = 1 ∨ op = 3 → r = (nanFloat ty, 1))

/-- A result of FEXP2 of v: exact powers of two rounded once, and between them the powers on both sides (05 R129). -/
def PowerOfTwo (ty : Nat) (md : BitVec 3) (v : ℚ) (r : Nat × W32) : Prop :=
  (∀ n : ℤ, v = n → Rounded ty md ((2 : ℚ) ^ n) r) ∧
  ∀ n : ℤ, (n : ℚ) < v → v < n + 1 → ¬ Overflows ty md ((2 : ℚ) ^ (n + 1)) →
    FiniteFloat ty r.1 ∧ (r.2 = 0x10 ∨ r.2 = 0x18) ∧ ∀ c, FiniteFloat ty c →
      (floatValue ty c ≤ (2 : ℚ) ^ n → floatValue ty c ≤ floatValue ty r.1) ∧
      ((2 : ℚ) ^ (n + 1) ≤ floatValue ty c → floatValue ty r.1 ≤ floatValue ty c)

/-- A result of FLOG2 of v: exact at powers of two, between the exponents on both sides else (05 R129). -/
def Logarithm (ty : Nat) (md : BitVec 3) (v : ℚ) (r : Nat × W32) : Prop :=
  (v = 1 → r = (0, 0)) ∧ (∀ n : ℤ, n ≠ 0 → v = (2 : ℚ) ^ n → Rounded ty md n r) ∧
  ∀ n : ℤ, (2 : ℚ) ^ n < v → v < (2 : ℚ) ^ (n + 1) →
    FiniteFloat ty r.1 ∧ r.2 = 0x10 ∧ (n : ℚ) ≤ floatValue ty r.1 ∧ floatValue ty r.1 ≤ n + 1

/-- k is v rounded to an integer by MOD[1:0] (05 R128). -/
def RoundedInt (md : BitVec 3) (v : ℚ) (k : ℤ) : Prop :=
  match md.toNat % 4 with
  | 0 => |v - k| ≤ 1 / 2 ∧ (|v - k| = 1 / 2 → k % 2 = 0)
  | 1 => |(k : ℚ)| ≤ |v| ∧ |v - k| < 1
  | 2 => (k : ℚ) ≤ v ∧ v < k + 1
  | _ => v ≤ k ∧ (k : ℚ) < v + 1

/-- FCVT of a floating pattern to an integer type: rounded, a result outside the type's range clamped with invalid, a NaN zero with
invalid (05 R134, 12 R363). -/
def ConvertedInt (ty src : Nat) (md : BitVec 3) (a : Nat) (r : Nat × W32) : Prop :=
  let (wd, sg) := intType ty
  let lo : Int := if sg then -(2 ^ (wd - 1)) else 0
  let hi : Int := if sg then 2 ^ (wd - 1) - 1 else 2 ^ wd - 1
  (IsNan src a → r = (0, 1)) ∧
  (∀ neg, ownBits src a = infFloat src neg → r = (patternOf ty (if neg then lo else hi), 1)) ∧
  (FiniteFloat src a → ∃ k, RoundedInt md (floatValue src a) k ∧ (k < lo → r = (patternOf ty lo, 1)) ∧ (hi < k → r = (patternOf ty hi, 1)) ∧
    (lo ≤ k → k ≤ hi → r = (patternOf ty k, if (k : ℚ) = floatValue src a then 0 else 0x10)))

/-- The value of an L6 code under a scale; the reserved code reads as the zero code (05 R137, R138). -/
def codeValue (e : Int) (c : Nat) : ℚ :=
  let t := (BitVec.ofNat 5 c).toInt
  if c % 32 = 16 then 0
  else (if c / 32 % 2 = 1 then -1 else 1) * ([4096, 4871, 5793, 6889].getD (t % 4).toNat 0 : ℕ) * (2 : ℚ) ^ (t / 4 - 12 + e)

/-- A number converted to L6: the nearest code, a tie to the even logarithm; beyond the largest, that of its sign (05 R139). -/
def CodeOf (e : Int) (v : ℚ) (r : Nat × W32) : Prop :=
  let top : ℚ := 6889 * (2 : ℚ) ^ (e - 9)
  (top < |v| → r = (if v < 0 then 0x2F else 0x0F, 0x14)) ∧
  (|v| ≤ top → r.1 < 64 ∧ r.1 ≠ 0x30 ∧ r.2 = (if codeValue e r.1 = v then 0 else if r.1 = 0x10 then 0x18 else 0x10) ∧
    ∀ c, c < 64 → |v - codeValue e r.1| ≤ |v - codeValue e c| ∧
      (|v - codeValue e c| = |v - codeValue e r.1| → codeValue e c = codeValue e r.1 ∨ r.1 % 2 = 0))

/-- A BF16 operand of a matrix loop: a subnormal number is read as a zero (05 R142). -/
def flushed (p : Nat) : ℚ := if p / 2 ^ 7 % 2 ^ 8 = 0 then 0 else floatValue 8 p

/-- The product of two L6 codes: their logarithms are added, and the magnitude is truncated (05 R137, R140). -/
def logProduct (a b : Nat) (ea eb : Int) : Int :=
  let log (v : Nat) : Int := (BitVec.ofNat 5 v).toInt
  let lam := log a + log b + 4 * (ea + eb)
  let t : Int := [4096, 4871, 5793, 6889].getD (lam % 4).toNat 0
  let mag : Int := if 0 ≤ lam / 4 + 2 then t * 2 ^ (lam / 4 + 2).toNat else t / 2 ^ (-(lam / 4 + 2)).toNat
  if a % 32 = 16 ∨ b % 32 = 16 then 0 else if a / 32 = b / 32 then mag else -mag

/-- The number an accumulator element stands for. -/
def ExactValue (x : FVal) (v : ℚ) : Prop := ∃ n m e, x = .fin n m e ∧ v = (if n then -1 else 1) * (m : ℚ) * 2 ^ e

/-- `fl` is the union of the flags of the active lanes of every row (05 R131). -/
def FlagsOf (e : Env) (w : LaneWord) (f : Nat → Nat → W32) (fl : W32) : Prop :=
  ∀ k, fl.getLsbD k = true ↔ ∃ r i, r < e.rows w ∧ i < 32 ∧ (e.lanes w).getLsbD i = true ∧ (f r i).getLsbD k = true

/-- The first enabled exception among raised flags, in the order invalid, divide by zero, overflow, underflow, inexact: its number
(05 R131, R132). -/
def firstEnabled (gstat fl : W32) : Option Nat :=
  (List.range 5).find? (fun k => fl.getLsbD k && gstat.getLsbD (8 + k))

/-- The writes of a group scalar word: none under a zero execute mask; else each register gets its value after `lat` slots. -/
def ScalarWrites (e : Env) (regs : List (Nat × W32)) (lat : Nat) (wr : List Pend) : Prop :=
  if e.mask = 0 then wr = []
  else wr.map (fun p => (p.kind, p.reg, p.left, p.word, p.poison.lanes)) =
    regs.map (fun r => (PendKind.gs, r.1, lat, r.2.zeroExtend 64, (0 : Lanes)))

/-- The write of a special register, by its number in 09 R249, clean of poison; none under a zero execute mask. -/
def SpecialWrite (e : Env) (reg : Nat) (v : W64) (wr : List Pend) : Prop :=
  if e.mask = 0 then wr = [] else ∃ p : Poison, p.lanes = 0 ∧ wr = [Pend.special reg 1 v p]

/-- A word of the group scalar group: its sources and its function of g[A] and of g[B] or the literal (13 R366, R367). -/
def scalarWord (i : Instr) : Option (LaneWord × Bool × Bool × (W32 → W32 → W32)) :=
  match i with
  | .gadd w => some (w, true, true, fun a b => BitVec.ofNat 32 (a.toNat + b.toNat))
  | .gsub w => some (w, true, true, fun a b => BitVec.ofInt 32 ((a.toNat : Int) - b.toNat))
  | .gand w => some (w, true, true, fun a b => a &&& b)
  | .gor w => some (w, true, true, fun a b => a ||| b)
  | .gxor w => some (w, true, true, fun a b => a ^^^ b)
  | .gandn w => some (w, true, true, fun a b => a &&& ~~~b)
  | .gshl w => some (w, true, true, fun a b => BitVec.ofNat 32 (a.toNat * 2 ^ (b.toNat % 32)))
  | .gshr w => some (w, true, true, fun a b =>
      if w.ty = 0 then BitVec.ofInt 32 (a.toInt / 2 ^ (b.toNat % 32)) else BitVec.ofNat 32 (a.toNat / 2 ^ (b.toNat % 32)))
  | .gmov w => some (w, false, true, fun _ b => b)
  | .gpopc w => some (w, true, false, fun a _ => BitVec.ofNat 32 ((List.range 32).filter (fun k => a.getLsbD k)).length)
  | .gfirst w => some (w, true, false, fun a _ => BitVec.ofNat 32 (((List.range 32).find? (fun k => a.getLsbD k)).getD 32))
  | _ => none

/-- The MOD values of ACVT: rounding and saturation, and only round-to-zero's place for a stored L6 code (05 R144). -/
def convModes (w : LaneWord) : List Nat := if w.ty = 9 then [0, 4] else [0, 1, 2, 3, 4, 5, 6, 7]


/-! ### Special registers and cross-lane words, from 02 R49, R53, 05 R130, 06 R171, 09 R249, 12 R354, 13 R375, 14 R385, R388, R391,
R400, 15 R410-R416, R418-R423 -/

/-- A word with the fields of `u` may issue with its operands. -/
def MayIssue (s : State) (x : Ctx) (g : Machine.Group) (w : LaneWord) (u : Uses) (ops : List Opd) : Prop :=
  LaneActs s x g w.hdr false ∧ u.ok w ∧ OperandsReady (Env.of s x g) ops

/-- A word that issues in one slot with the state, the group and the pending writes given. -/
def Issues (s : State) (x : Ctx) (g : Machine.Group) (i : Instr) (h : Hdr) (s' : State) (g' : Machine.Group)
    (P : List Pend → Prop) : Prop :=
  ∃ wr, exec i s = .next (issued s x g h 1 .none s' g' wr) ∧ P wr

/-- A precise trap at a word, FMASK the execute mask. -/
def WordTraps (s : State) (g : Machine.Group) (i : Instr) (cause : Nat) : Prop :=
  exec i s = .next (laneTrap s s.cur.core s.cur.ctx s.cur.group cause false true 0 g.pos.exmask 0)

/-- The operation of a reduction node on two lane patterns: the pattern of its result and the flags raised (15 R414). -/
def nodeOf (op ty : Nat) (md : BitVec 3) (a b : Nat) : Nat × W32 :=
  if ty = 6 ∨ ty = 7 ∨ ty = 8 then
    let x := readFp ty a
    let y := readFp ty b
    let v := if op = 0 then x.add (Round.ofMod md) y else if op = 1 then x.minmax false y else x.minmax true y
    (tyFmt ty).write (Round.ofMod md) (md.getLsbD 2) v.1 v.2
  else
    let wd := (intType ty).1
    let x := readInt ty a
    let y := readInt ty b
    let exact : Int := match op with
      | 0 => x + y | 1 => min x y | 2 => max x y
      | 3 => ((a % 2 ^ wd &&& b % 2 ^ wd : Nat) : Int) | 4 => ((a % 2 ^ wd ||| b % 2 ^ wd : Nat) : Int)
      | _ => ((a % 2 ^ wd ^^^ b % 2 ^ wd : Nat) : Int)
    (patternOf ty (reduced ty (decide (md = 4)) exact), 0)

/-- What an inactive lane contributes (15 R414). -/
def identityOf (op ty : Nat) : Nat :=
  let wd := (intType ty).1
  let sg := (intType ty).2
  match ty with
  | 6 => if op = 0 then 0x80000000 else if op = 1 then 0x7F800000 else 0xFF800000
  | 7 => if op = 0 then 0x8000 else if op = 1 then 0x7C00 else 0xFC00
  | 8 => if op = 0 then 0x8000 else if op = 1 then 0x7F80 else 0xFF80
  | _ => match op with
    | 1 => patternOf ty (if sg then 2 ^ (wd - 1) - 1 else 2 ^ wd - 1)
    | 2 => patternOf ty (if sg then -(2 ^ (wd - 1)) else 0)
    | 3 => patternOf ty (readInt ty (2 ^ wd - 1))
    | _ => 0

/-- Node i of level n of the tree over `v` (05 R130). -/
def treeNode (f : Nat → Nat → Nat) (v : Nat → Nat) : Nat → Nat → Nat
  | 0, i => v i
  | n + 1, i => f (treeNode f v n (2 * i)) (treeNode f v n (2 * i + 1))

/-- The inclusive scan, left to right (05 R130). -/
def scanned (f : Nat → Nat → Nat) (v : Nat → Nat) : Nat → Nat
  | 0 => v 0
  | n + 1 => f (scanned f v n) (v (n + 1))

/-- An element of a type as a register holds it: the stored field zero-extended for a floating type, extended by the type's
signedness for an integer (05 R124). -/
def heldAs (ty v : Nat) : Nat :=
  if ty = 6 then v % 2 ^ 32 else if ty = 7 ∨ ty = 8 then v % 2 ^ 16 else patternOf ty (readInt ty v)

/-- The special registers that SRD reads, but for GSTAT, and whether they take a pair (09 R249). -/
def specialValue (e : Env) (n : Nat) : Option (Bool × W64) :=
  match n with
  | 0 => some (false, e.g.fmt.zeroExtend 64) | 1 => some (false, e.g.shape.zeroExtend 64)
  | 4 => some (true, e.g.xpats.getD 0 0) | 5 => some (true, e.g.xpats.getD 1 0)
  | 6 => some (true, e.g.xpats.getD 2 0) | 7 => some (true, e.g.xpats.getD 3 0)
  | 8 => some (false, e.mask.zeroExtend 64)
  | 9 => some (false, BitVec.ofNat 64 (((e.x.descOf e.g.pos.seq).map (·.rot.toNat)).getD 0))
  | 10 => some (false, e.g.pos.seq.zeroExtend 64)
  | 11 => some (false, BitVec.ofNat 64 (e.gi % 32 + 32 * ((e.x.base + e.gi) % 4)))
  | 12 => some (true, e.s.devTime)
  | _ => none

/-- A value as the writes of g[D], or of the pair from g[D]. -/
def scalarPair (e : Env) (d : BitVec 8) (wide : Bool) (v : W64) : List (Nat × W32) :=
  (e.gmap d.toNat, v.truncate 32) :: (if wide then [(e.gmap (d.toNat + 1), (v >>> 32).truncate 32)] else [])


/-! ### Lane accesses, from 10 R266, R268, 13 R370, 14 R397, R398, R405, R407, R409, 07 R181-R183, 05 R147 -/

/-- Bytes of a type in memory (05 R124). -/
def sizeBytes (ty : Nat) : Nat := match ty with | 0 => 4 | 1 => 4 | 6 => 4 | 4 => 1 | 5 => 1 | 10 => 8 | 11 => 8 | _ => 2

/-- The 64-bit number in a pair of group scalars (02 R38). -/
def pairBase (e : Env) (k : BitVec 8) : W64 := BitVec.ofNat 64 ((e.gval k).toNat + 2 ^ 32 * (e.gval (k + 1)).toNat)

/-- Base, signed per-lane offset and signed X of a lane's address (14 R405, R407). -/
def laneAddress (e : Env) (w : LaneWord) (base : W64) (i : Nat) : W64 :=
  base + (BitVec.ofNat 32 (e.val w.b.toNat i false)).signExtend 64 + w.x.signExtend 64

/-- Lane i is active. -/
def Active (e : Env) (i : Nat) : Prop := i < 32 ∧ e.mask.getLsbD i = true

/-- Every active lane's access of n bytes at `va i` passes its checks with physical address `pa i`, and the pages are held (10 R268,
R305). -/
def LanesReach (e : Env) (k : Kind) (va : Nat → W64) (n : Nat) (atomic : Bool) (pa : Nat → Nat) : Prop :=
  (∀ i, Active e i → checkAccess e.s e.x.part (e.x.asid e.s) k pathL (va i) n atomic = .ok (pa i) ∧
    ∀ j, j < n → tierOf e.s (pa i + j) ≠ .hole) ∧
  tlbMisses e.s e.core (e.x.asid e.s) (e.act.map va) = []

/-- The bytes that the active lanes read in u are clean of poison, and no spill buffer of a known launch holds them (10 R300, 03
R98). -/
def LanesRead (e : Env) (u : State) (pa : Nat → Nat) (n : Nat) : Prop :=
  ∀ i, Active e i → loadPoison u e.agent (pa i) n = none ∧ spillHit u (pa i) n = []

/-- The group after an L access: each outstanding matrix loop is one that an L event has followed (15 R421). -/
def accessed (g : Machine.Group) : Machine.Group := { g with loops := g.loops.map (fun l => { l with touched := true }) }

/-- The state after the L access of a group: the first one after an MLOOP stands as an event that a context may acquire (15 R421). -/
def noted (e : Env) (u : State) : State :=
  if ∃ l ∈ e.g.loops, l.touched = false then { u with late := u.late ++ [{
    agent := groupPath e.core e.k e.gi .l, order := e.s.freeCtr, rmw := false, scratch := none, cells := [], before := [], read := [],
    shown := [] }] }
  else u

/-- The check of a lane's access to memory: its physical address, or the fault with the address that FADDR takes (10 R266, R268). -/
def memCheck (e : Env) (k : Kind) (va : W64) (n : Nat) (atomic : Bool) : Except (AFault × W64) Nat :=
  match checkAccess e.s e.x.part (e.x.asid e.s) k pathL va n atomic with
  | .ok p => .ok p
  | .error f => .error (f, va)

/-- Lane k is the lowest active lane whose check fails, with fault f at address a; m is the active lanes that fail with the same cause
(10 R266). -/
def LowestFault {α : Type} (e : Env) (chk : Nat → Except (AFault × W64) α) (k : Nat) (f : AFault) (a : W64) (m : Lanes) : Prop :=
  Active e k ∧ chk k = .error (f, a) ∧ (∀ i, i < k → Active e i → ∃ p, chk i = .ok p) ∧
  ∀ i, i < 32 → (m.getLsbD i = true ↔ Active e i ∧ ∃ g b, chk i = .error (g, b) ∧ g.cause = f.cause)

/-- A lane access traps with its lowest fault: FMASK the lanes of that cause, FADDR the address (10 R266, R267). -/
def LaneFaults {α : Type} (s : State) (x : Ctx) (g : Machine.Group) (i : Instr) (chk : Nat → Except (AFault × W64) α) : Prop :=
  ∀ k f a m, LowestFault (Env.of s x g) chk k f a m →
    exec i s = .next (laneTrap s s.cur.core s.cur.ctx s.cur.group f.cause false true a m f.finfo)

/-- A lane access whose checks pass but whose pages the TLBs do not hold suspends the group before the word (02 R65, 10 R305). -/
def TlbSuspends {α : Type} (s : State) (x : Ctx) (g : Machine.Group) (i : Instr) (chk : Nat → Except (AFault × W64) α)
    (va : Nat → W64) : Prop :=
  let e := Env.of s x g
  (∀ k, Active e k → ∃ p, chk k = .ok p) →
  tlbMisses s s.cur.core (x.asid s) (((List.range 32).filter (fun k => e.mask.getLsbD k)).map va) ≠ [] →
  exec i s = .next (suspendGroup s s.cur.core s.cur.ctx s.cur.group
    (.tlb (tlbMisses s s.cur.core (x.asid s) (((List.range 32).filter (fun k => e.mask.getLsbD k)).map va))))

/-- A scratchpad access whose checks pass but some of whose lines on the team's own core are absent, none held by a halted transfer,
suspends the group until they are present (02 R65, 07 R181). -/
def LineSuspends (s : State) (x : Ctx) (g : Machine.Group) (i : Instr) (chk : Nat → Except (AFault × W64) (List (Nat × Nat))) : Prop :=
  let e := Env.of s x g
  let absent (l : Nat) : Prop := presenceOf (s.core e.core) l ≠ 0 ∧
    ∃ k bs p, Active e k ∧ chk k = .ok bs ∧ p ∈ bs ∧ p.1 = e.core ∧ p.2 / 128 = l
  (∀ k, Active e k → ∃ p, chk k = .ok p) → (∃ l, absent l) → (∀ l, absent l → haltedOn s (e.core, l) = none) →
  ∃ ls : List Nat, (∀ l, l ∈ ls ↔ absent l) ∧
    exec i s = .next (suspendGroup s s.cur.core s.cur.ctx s.cur.group (.line ls))

/-- The word issues with one more outstanding result, of which P holds; nothing is written yet (02 R63). -/
def Awaits (s : State) (x : Ctx) (g : Machine.Group) (i : Instr) (h : Hdr) (s' : State) (g' : Machine.Group)
    (P : VarRes → Prop) : Prop :=
  ∃ v, exec i s = .next (issued s x g h 1 .none s' { g' with outs := g.outs ++ [v] } []) ∧ P v ∧ v.written = false

/-- A whole result for the active lanes of the register, or pair, d: its values wait in the result (02 R63). -/
def Result (e : Env) (gs : Bool) (d : BitVec 8) (wide : Bool) (val : Nat → Nat) (v : VarRes) : Prop :=
  let reg (k : Nat) : Nat := if gs then e.gmap k else e.vmap k
  v.gs = gs ∧ v.regs = (reg d.toNat :: if wide then [reg (d.toNat + 1)] else []) ∧ v.lanes = (if gs then 1 else e.mask) ∧
  v.remote = [] ∧ v.popQueue = none ∧ v.poison.lanes = 0 ∧
  ∀ i, (if gs then i = 0 else Active e i) →
    (v.vals.getD 0 [])[i]? = some (BitVec.ofNat 36 (if wide then val i % 2 ^ 32 else val i)) ∧
    (wide = true → (v.vals.getD 1 [])[i]? = some (BitVec.ofNat 36 (val i / 2 ^ 32)))

/-- The active lanes, ascending. -/
def activeLanes (e : Env) : List Nat := (List.range 32).filter (fun i => e.mask.getLsbD i)

/-- A lane's store as it enters the group's queue: to memory, or to the team's core (08 R216). -/
def laneStore (e : Env) (scratch : Option Nat) (places : List Nat) (v : Nat) : Store :=
  { agent := groupPath e.core e.k e.gi .l, order := e.s.freeCtr,
    host := scratch.isNone && places.any (inHost e.s), toward := [], scratch := scratch,
    cells := places.zip ((List.range places.length).map (leByte v)), poison := none }

/-- Operation of the atomic words by MOD (14 R397). -/
def atomicOf (md : BitVec 3) : AmoOp :=
  match md.toNat with
  | 0 => .add | 1 => .and | 2 => .or | 3 => .xor | 4 => .swap | 5 => .cas | 6 => .min | _ => .max

/-- Fields of a lane access. -/
def memUses (tys : List Nat) : Uses :=
  { noUses with d := true, a := true, b := true, ty := tys, x := BitVec.allOnes 32 }

def memTypes : List Nat := [0, 1, 2, 3, 4, 5, 6, 7, 8, 10, 11]

/-- The read-modify-write of a lane as it is left to be performed: its bytes, operand and compared value (14 R397, R398). -/
def pendingAtomic (e : Env) (w : LaneWord) (wide : Bool) (core : Nat) (k : Nat) (bytes : List (Nat × Nat)) : RemAcc :=
  { core := core, order := e.s.freeCtr, op := .atomic w.md w.ty, lanes := [{
      lane := k, bytes := bytes, own := [], shift := 0, operand := e.val w.c.toNat k wide, cmp := e.val w.d.toNat k wide, junk := none,
      bad := none }] }

/-- Every active lane's access to scratchpad passes its checks and names the bytes `b i`, as (core, address); the team's own lines
among them are present (07 R177-R181). -/
def ScratchReaches (e : Env) (k : Kind) (addr : Nat → W64) (n align : Nat) (b : Nat → List (Nat × Nat)) : Prop :=
  ∀ i, Active e i → e.checkScrAt k (addr i) n align = .ok (b i) ∧
    ∀ p ∈ b i, p.1 = e.core → presenceOf (e.s.core e.core) (p.2 / 128) = 0

/-- Every byte of the lane's access lies on the team's own core. -/
def Here (e : Env) (b : List (Nat × Nat)) : Prop := ∀ p ∈ b, p.1 = e.core

/-- The bytes that local lanes read in u are clean of poison (10 R300). -/
def ScratchClean (e : Env) (u : State) (b : Nat → List (Nat × Nat)) : Prop :=
  ∀ i, Active e i → Here e (b i) → ∀ p ∈ b i, seenPoison u e.agent (some e.core) p.2 1 = none

/-- What a group reads at a place of a core's scratchpad: on its own core its own stores of the last 11 slots are not seen (07 R182); of
the rest it sees what its agent does (08 R216). -/
def groupSees (s : State) (o : Agent) (r : Machine.Group) (b : Nat × Nat) : Byte :=
  match if b.1 = o.core then r.pos.ownStores.findSome? (fun o => (o.cells.find? (fun c => c.1 == b.2)).map (·.2)) else none with
  | some v => v
  | none => Machine.seenByte s o (some b.1) b.2

def ownSeen (e : Env) (a : Nat) : Byte := groupSees e.s e.agent e.g (e.core, a)

/-- The number in bytes that the group reads. -/
def seenNum (e : Env) (b : List (Nat × Nat)) : Nat :=
  ((List.range b.length).map (fun j => (ownSeen e ((b.getD j (0, 0)).2)).toNat * 256 ^ j)).sum

/-- The places of its own core's scratchpad that a word's active lanes access. -/
def ownPlaces (e : Env) (b : Nat → List (Nat × Nat)) : List Nat :=
  ((activeLanes e).flatMap b).filterMap (fun p => if p.1 = e.core then some p.2 else none)

/-- The state in which a group reads scratchpad: an address that a load-consume gave comes after what the releases before the consumed
write cover (08 R231), and the bytes of a transfer whose ECOMMIT happens before the read have arrived (R228). -/
def scratchState (e : Env) (w : LaneWord) (b : Nat → List (Nat × Nat)) : State :=
  arrive (seeFed e.s e.agent (e.taints [Opd.gr w.a false, Opd.vr w.b false])) e.agent (ownPlaces e b)

/-- The state after the read: of its own core, the bytes that its own late stores do not hide, are read by the group (07 R182). -/
def scratchRead (e : Env) (w : LaneWord) (b : Nat → List (Nat × Nat)) : State :=
  noted e (loaded (scratchState e w b) e.agent (some e.core) ((ownPlaces e b).filter (fun a =>
    (e.g.pos.ownStores.findSome? (fun o => (o.cells.find? (fun c => c.1 == a)).map (·.2))).isNone)) false)

/-- A scratchpad load: with every lane local its results are visible 12 slots later; otherwise the result has variable latency and its
remote lanes are still to be performed at their cores, one access for each core, with the bytes of the own core read now (14 R407, 07
R182, R183, 08 R216). -/
def ScratchLoads (s : State) (x : Ctx) (g : Machine.Group) (i : Instr) (w : LaneWord) (wide : Bool) (b : Nat → List (Nat × Nat))
    (value : Nat → Nat → Nat) : Prop :=
  let e := Env.of s x g
  let u := scratchState e w b
  ScratchClean e u b →
  ((∀ k, Active e k → Here e (b k)) →
    Issues s x g i w.hdr (scratchRead e w b) (accessed g)
      (LaneWrites e w wide 12 (fun _ k => value k (seenNum { e with s := u } (b k))))) ∧
  ((∃ k, Active e k ∧ ¬ Here e (b k)) → Awaits s x g i w.hdr (scratchRead e w b) (accessed g) (fun v =>
    v.gs = false ∧ v.regs = (e.vmap w.d.toNat :: if wide then [e.vmap (w.d.toNat + 1)] else []) ∧ v.lanes = e.mask ∧
    (v.remote.map (·.core)).Nodup ∧
    ∀ k, Active e k → ¬ Here e (b k) → ∃ a ∈ v.remote, ∃ l ∈ a.lanes, a.core = ((b k).headD (0, 0)).1 ∧ a.order = s.freeCtr ∧
      l.lane = k ∧ l.bytes = b k ∧ ∀ p ∈ b k, p.1 = e.core → (p.2, ownSeen { e with s := u } p.2) ∈ l.own))

/-- The fields of an extraction pattern: target type, signedness, distance, offset, count, period, width (05 R146). -/
structure Fields where
  target : Nat
  signed : Bool
  d : Nat
  o : Nat
  c : Nat
  p : Nat
  w : Nat

def fieldsOf (v : W64) : Fields :=
  let n := v.toNat
  { target := n / 2 ^ 34 % 16, signed := v.getLsbD 33, d := n / 2 ^ 26 % 128, o := n / 2 ^ 19 % 128, c := n / 2 ^ 12 % 128 + 1,
    p := n / 2 ^ 5 % 128 + 1, w := n % 32 + 1 }

/-- The checks of 05 R147. -/
def Fields.valid (t : Fields) : Prop :=
  t.o + (t.c - 1) * t.d + t.w ≤ t.p ∧ (1 < t.c → t.w ≤ t.d) ∧
  match t.target with
  | 0 => t.w ≤ 32 | 1 => t.w ≤ 32 ∧ t.signed = false
  | 2 => t.w ≤ 16 | 3 => t.w ≤ 16 ∧ t.signed = false
  | 4 => t.w ≤ 8 | 5 => t.w ≤ 8 ∧ t.signed = false
  | 6 => t.w = 32 ∧ t.signed = false | 7 => t.w = 16 ∧ t.signed = false
  | 8 => t.w = 16 ∧ t.signed = false | 9 => t.w = 6 ∧ t.signed = false | _ => False

/-- The first bit of element k. -/
def Fields.bit (t : Fields) (k : Nat) : Nat := k / t.c * t.p + t.o + k % t.c * t.d

/-- What a field of w bits puts in an element: L6 code 0x30 becomes 0x10; the rest is extended by its sign bit where the pattern is
signed, and stored as its type. -/
def Fields.element (t : Fields) (f : Nat) : Nat :=
  if t.target = 9 then (if f = 0x30 then 0x10 else f)
  else heldAs t.target (if t.signed = true ∧ 2 ^ (t.w - 1) ≤ f then 2 ^ 32 - 2 ^ t.w + f else f)


/-! ### Fences, queues, spawning and truss mode, from 08 R227, 15 R420, 03 R87-R93, R104-R106, 06 R148-R170; pairs from 09 R245-R247 -/

/-- The group's position with the wait of a fence (08 R227): `GroupWaitsEnd` says what the fence waits for and does. -/
def fenced (g : Machine.Group) (f : FenceReq) : Machine.Group := { g with pos := { g.pos with parkFence := some f } }

/-- A register-mapped queue with one more waiting consumer. -/
def queueWith (s : State) (q : Nat) (f : RQueue → RQueue) : State :=
  s.updCore s.cur.core (fun co => { co with queues := modifyAt co.queues q f })

/-- The record a lane's SPAWN makes (03 R89), with the issue order of its word, the checked place of its join counter and the poison of
its payload, which is none. -/
def recordOf (e : Env) (w : LaneWord) (joinPa i : Nat) : SpawnRec :=
  { part := e.x.part, launch := e.x.launch, cluster := e.x.cluster, entry := e.val w.a.toNat i false,
    payload := (List.range (w.x.toNat % 8)).map (fun j => BitVec.ofNat 32 (e.val (w.b.toNat + j) i false)),
    join := pairBase e w.c, depth := (match e.x.child with | some ch => ch.depth | none => 0) + 1,
    srcCore := e.core, srcCtx := e.k, order := e.s.stamp, joinPa := joinPa, poison := List.replicate (w.x.toNat % 8) none }

/-- The operands of SPAWN. -/
def spawnOps (w : LaneWord) : List Opd :=
  [Opd.vr w.a false] ++ (if w.x.toNat % 8 = 0 then [] else [{ Opd.vr w.b false with rows := w.x.toNat % 8 }]) ++ [Opd.gr w.c true]

def spawnUses (w : LaneWord) : Uses := { noUses with a := true, b := decide (0 < w.x.toNat % 8), c := true, x := 7 }

/-- The window of a matrix loop in storage registers (06 R154). -/
def windowOf (e : Env) (d : BitVec 8) : List Nat := (List.range 32).map (fun i => e.vmap (d.toNat + i))

/-- A value of the body of a double's continuation. -/
def bodyField (y : ContWord) (lo n : Nat) : Nat := y.body.toNat / 2 ^ lo % 2 ^ n

/-- A double may issue (02 R57, 09 R244). -/
def DoubleMayIssue (s : State) (x : Ctx) (g : Machine.Group) (w : LaneWord) (y : ContWord) (u : Uses) (ops : List Opd) : Prop :=
  s.grp? = some (x, g) ∧ x.debug = false ∧ g.pos.slot < 23 ∧ w.hdr = { fin := false, bnd := false, sw := false } ∧
  (y.hdr.sw = true → y.hdr.fin = true ∨ y.hdr.bnd = true) ∧ y.kind = 3 ∧ w.lit = false ∧ u.ok w ∧ OperandsReady (Env.of s x g) ops

/-- A wide word of a narrow operation: TL, MOD, C and X zero, the immediate in place of B or of the offset (09 R245). -/
def widened (n : Narrow) (h : Hdr) : LaneWord :=
  let v : LaneWord := { hdr := h, lit := false, d := n.d, a := n.a, b := n.b, c := 0, ty := n.ty, tl := false, md := 0, sa := 0, sb := 0,
                        sc := 0, x := 0 }
  if 96 ≤ n.opn.toNat then { v with x := BitVec.ofNat 32 (16 * n.imm.toNat) }
  else if n.imm.toNat < 512 then { v with x := BitVec.ofNat 32 n.imm.toNat }
  else { v with lit := true, x := BitVec.ofInt 32 (if n.imm.toNat < 768 then (n.imm.toNat : Int) - 512 else (n.imm.toNat : Int) - 1024) }

/-- The instruction of a narrow operation code (09 R245, R248). -/
def narrowInstr (opn : Nat) (w : LaneWord) : Option Instr :=
  match opn with
  | 0x01 => some (.vadd w) | 0x02 => some (.vsub w) | 0x03 => some (.vmul w) | 0x04 => some (.vmulh w) | 0x05 => some (.vmad w)
  | 0x06 => some (.vand w) | 0x07 => some (.vor w) | 0x08 => some (.vxor w) | 0x09 => some (.vandn w) | 0x0A => some (.vshl w)
  | 0x0B => some (.vshr w) | 0x0C => some (.vsra w) | 0x0D => some (.vmin w) | 0x0E => some (.vmax w) | 0x0F => some (.vabs w)
  | 0x10 => some (.vneg w) | 0x11 => some (.vclz w) | 0x12 => some (.vpopc w) | 0x13 => some (.vsel w) | 0x14 => some (.vmov w)
  | 0x20 => some (.fadd w) | 0x21 => some (.fsub w) | 0x22 => some (.fmul w) | 0x23 => some (.ffma w) | 0x24 => some (.fmin w)
  | 0x25 => some (.fmax w) | 0x26 => some (.fabs w) | 0x27 => some (.fneg w)
  | 0x40 => some (.gadd w) | 0x41 => some (.gsub w) | 0x42 => some (.gand w) | 0x43 => some (.gor w) | 0x44 => some (.gxor w)
  | 0x45 => some (.gandn w) | 0x46 => some (.gshl w) | 0x47 => some (.gshr w) | 0x48 => some (.gmov w) | 0x49 => some (.gpopc w)
  | 0x4A => some (.gfirst w) | 0x60 => some (.vlds w) | 0x61 => some (.vsts w) | _ => none

/-- A register word of a pair, or a VLDS whose lanes are all local: its fields, its operands, what must hold of the state besides, and
what its pending writes are. `b` gives the bytes of a VLDS lane. -/
def registerWord (e : Env) (b : Nat → List (Nat × Nat)) (i : Instr) : Option (Uses × List Opd × Prop × (List Pend → Prop)) :=
  match intLane i, floatLane e.g.fmt i, scalarWord i, i with
  | some l, _, _, _ => some (l.uses, l.ops e, True, LaneWrites e l.w false l.lat (l.value e))
  | _, some l, _, _ =>
    let flags (fl : W32) : Prop := FlagsOf e l.w (fun r i => (l.res e r i).2) fl
    some (l.uses, l.ops e, ∃ fl, flags fl ∧ firstEnabled e.g.gstat fl = none, fun wr =>
      ∃ fl wv, flags fl ∧ wr = wv ++ Pend.flags l.lat fl ∧ LaneWrites e l.w false l.lat (fun r i => (l.res e r i).1) wv)
  | _, _, some (w, ua, ub, f), _ =>
    some ({ noUses with d := true, a := ua, b := ub, ty := [0, 1], lit := ub },
      [Opd.gw w.d false] ++ (if ua then [Opd.gr w.a false] else []) ++ (if ub && !w.lit then [Opd.gr w.b false] else []), True,
      ScalarWrites e [(e.gmap w.d.toNat, f (e.gval w.a) (if w.lit then w.x else e.gval w.b))] 1)
  | _, _, _, .fabs w => some ({ noUses with d := true, a := true, ty := [6, 7, 8] }, [Opd.vw w.d false, Opd.vr w.a false], True,
      LaneWrites e w false 4 (fun _ k => let v := e.val w.a.toNat k false; if w.ty = 6 then v % 2 ^ 31 else v % 2 ^ 15))
  | _, _, _, .fneg w => some ({ noUses with d := true, a := true, ty := [6, 7, 8] }, [Opd.vw w.d false, Opd.vr w.a false], True,
      LaneWrites e w false 4 (fun _ k => let v := e.val w.a.toNat k false
        if w.ty = 6 then v ^^^ 2 ^ 31 else (v % 2 ^ 16) ^^^ 2 ^ 15))
  | _, _, _, .vlds w =>
    let n := sizeBytes w.ty.toNat
    some (memUses memTypes, [Opd.vw w.d false, Opd.gr w.a false, Opd.vr w.b false],
      ScratchReaches e .rd (laneAddress e w ((e.gval w.a).zeroExtend 64)) n n b ∧ (∀ k, Active e k → Here e (b k)) ∧
        ScratchClean e (scratchState e w b) b,
      fun wr => if e.mask = 0 then wr = [] else LaneWrites e w false 12 (fun _ k => heldAs w.ty.toNat
        (seenNum { e with s := scratchState e w b } (b k))) wr)
  | _, _, _, _ => none

/-- Fields, reserved values and operands of the lane words of one or two sources and of one place (14 R393-R405 and their kind); the
words that must end their run, the doubles and SPAWN stand apart. -/
def wordForm (e : Env) (i : Instr) : Option (LaneWord × Uses × Bool × List Opd) :=
  let src (w : LaneWord) : List Opd := [Opd.gr w.a false, Opd.vr w.b false]
  let wide (w : LaneWord) : Bool := decide (w.ty.toNat = 10 ∨ w.ty.toNat = 11)
  match intLane i, floatLane e.g.fmt i, scalarWord i, i with
  | some l, _, _, _ => some (l.w, l.uses, true, l.ops e)
  | _, some l, _, _ => some (l.w, l.uses, true, l.ops e)
  | _, _, some (w, ua, ub, _), _ => some (w, { noUses with d := true, a := ua, b := ub, ty := [0, 1], lit := ub }, true,
      [Opd.gw w.d false] ++ (if ua then [Opd.gr w.a false] else []) ++ (if ub && !w.lit then [Opd.gr w.b false] else []))
  | _, _, _, .fabs w | _, _, _, .fneg w => some (w, { noUses with d := true, a := true, ty := [6, 7, 8], tile := true }, true,
      [asTile e w (Opd.vw w.d false) 1, asTile e w (Opd.vr w.a false) w.sa])
  | _, _, _, .acvt w => some (w, { noUses with d := true, a := true, ty := [0, 6, 8, 9], md := convModes w, tile := true }, true,
      [asTile e w (Opd.vw w.d false) 1, asTile e w (Opd.vr w.a false) w.sa])
  | _, _, _, .vcmp w => some (w, { noUses with
        d := true, a := true, b := true, ty := [0, 1, 2, 3, 4, 5, 10, 11], md := [0, 1, 2, 3, 4, 5], lit := true }, decide (4 ≤ w.d.toNat),
      [Opd.gw w.d false, Opd.vr w.a (wide w)] ++ if w.lit then [] else [Opd.vr w.b (wide w)])
  | _, _, _, .fcmp w => some (w, { noUses with
        d := true, a := true, b := true, ty := [6, 7, 8], md := [0, 1, 2, 3, 4, 5, 6, 7], lit := true }, decide (4 ≤ w.d.toNat),
      [Opd.gw w.d false, Opd.vr w.a false] ++ if w.lit then [] else [Opd.vr w.b false])
  | _, _, _, .vote w => some (w, { noUses with d := true, a := true, md := [0, 1, 2, 3] }, decide (4 ≤ w.d.toNat),
      [Opd.gw w.d false, Opd.vr w.a false])
  | _, _, _, .exmset w | _, _, _, .pret w => some (w, { noUses with a := true }, true, [Opd.gr w.a false])
  | _, _, _, .sfmt w => some (w, { noUses with b := true, lit := true }, true, if w.lit then [] else [Opd.gr w.b false])
  | _, _, _, .tshape w => some (w, { noUses with a := true, x := if w.a = 0 then 0x3F3F else 0 }, true,
      if w.a = 0 then [] else [Opd.gr w.a false])
  | _, _, _, .xpat w => some (w, { noUses with a := true, x := 3 }, true, [Opd.gr w.a true])
  | _, _, _, .laneid w => some (w, { noUses with d := true, x := 1 }, true, [Opd.vw w.d false])
  | _, _, _, .vbcast w => some (w, { noUses with d := true, a := true, b := true, ty := [0, 10], x := if w.b = 0 then 0x1F else 0 },
      true, [Opd.vw w.d (wide w), Opd.vr w.a (wide w)] ++ if w.b = 0 then [] else [Opd.gr w.b false])
  | _, _, _, .vld w | _, _, _, .vldk w => some (w, memUses memTypes, true, Opd.vw w.d (wide w) :: [Opd.gr w.a true, Opd.vr w.b false])
  | _, _, _, .vst w => some (w, memUses memTypes, true, Opd.vr w.d (wide w) :: [Opd.gr w.a true, Opd.vr w.b false])
  | _, _, _, .gld w => some (w, { memUses [0, 1, 2, 3, 4, 5, 10, 11] with b := false }, true, [Opd.gw w.d (wide w), Opd.gr w.a true])
  | _, _, _, .vatom w => some (w, { memUses [0, 1, 10, 11] with c := true, md := [0, 1, 2, 3, 4, 5, 6, 7] }, true,
      [Opd.vw w.d (wide w), Opd.gr w.a true, Opd.vr w.b false, Opd.vr w.c (wide w)] ++ if w.md = 5 then [Opd.vr w.d (wide w)] else [])
  | _, _, _, .vlds w => some (w, memUses memTypes, true, Opd.vw w.d (wide w) :: src w)
  | _, _, _, .vsts w => some (w, memUses memTypes, true, Opd.vr w.d (wide w) :: src w)
  | _, _, _, .vldx w => some (w, { memUses [] with c := true }, decide (w.c.toNat < 4), Opd.vw w.d false :: src w)
  | _, _, _, .vatoms w => some (w, { memUses [0, 1] with c := true, md := [0, 1, 2, 3, 4, 5, 6, 7] }, true,
      [Opd.vw w.d false, Opd.gr w.a false, Opd.vr w.b false, Opd.vr w.c false] ++ if w.md = 5 then [Opd.vr w.d false] else [])
  | _, _, _, .qpop w => some (w, { noUses with d := true, a := true }, true, [Opd.vw w.d false, Opd.gr w.a false])
  | _, _, _, .qpush w => some (w, { noUses with a := true, b := true }, true, src w)
  | _, _, _, .vnop w | _, _, _, .mwait w | _, _, _, .spflush w => some (w, noUses, true, [])
  | _, _, _, _ => none

/-- Numbers of the vector registers that operands read. -/
def vectorsRead (ops : List Opd) : List Nat := (ops.filter (fun o => o.vec && o.rd)).flatMap (·.names)

/-- The pair rules of 09 R246 for two operations: their destinations, the banks of the vector registers they read, their types. -/
def PairDest (a b : List Opd) : Prop :=
  ∀ o ∈ a, ∀ q ∈ b, o.wr = true → q.wr = true → o.vec = q.vec → ∀ k ∈ o.names, k ∉ q.names

def PairBanks (a b : List Opd) : Prop :=
  (∀ j k, j ∈ vectorsRead a → j ∈ vectorsRead b → k ∈ vectorsRead a → k ∈ vectorsRead b → j = k) ∧
  ∀ j k, j ∈ vectorsRead a ++ vectorsRead b → k ∈ vectorsRead a ++ vectorsRead b → j ≠ k → j % 4 ≠ k % 4

def PairNarrow (p : PairWord) : Prop := ¬ (p.op1.ty.toNat = 10 ∨ p.op1.ty.toNat = 11 ∨ p.op2.ty.toNat = 10 ∨ p.op2.ty.toNat = 11)

def PairRules (p : PairWord) (a b : List Opd) : Prop :=
  p.op1.opn.toNat / 32 ≠ p.op2.opn.toNat / 32 ∧ PairDest a b ∧ PairBanks a b ∧ PairNarrow p

/-- The state and the group as a pair's VLDS leaves them; other register words change neither. -/
def pairAfter (e : Env) (b : Nat → List (Nat × Nat)) (i1 i2 : Instr) : State × Machine.Group :=
  match i1, i2 with
  | .vlds w, _ | _, .vlds w => if e.mask = 0 then (e.s, e.g) else (scratchRead e w b, accessed e.g)
  | _, _ => (e.s, e.g)


/-- The acting group of a state. -/
def myGroup (t : State) : Machine.Group := t.group t.cur.core t.cur.ctx t.cur.group

/-- The writes of one word as its entries stand: in ascending register order, the flag update last (10 R281). -/
def Ordered (wr o : List Pend) : Prop :=
  o.Perm wr ∧ o.Pairwise (fun p q => (p.kind = .flag → q.kind = .flag) ∧ (p.kind ≠ .flag → q.kind ≠ .flag → p.reg ≤ q.reg))

/-- Vector writes that become visible with the slot that passes. -/
def DueWrite (wr : List Pend) (p : Pend) : Prop := p ∈ wr ∧ p.left ≤ 1 ∧ p.kind = .vec


/-! ### The steps that move groups on, from 02 R49, R50, R63, 03 R84, R91-R94, R97, R105, R106, 06 R160, R161, 07 R183, 08 R227 -/

/-- Issue is neither stopped nor halted in a partition; a RESET of the partition ends the stop for it (01 R26, 10 R298). -/
def Issuing (s : State) (part : Nat) : Prop :=
  (s.stopped = true → ∃ p, s.partition part = some p ∧ p.released = true) ∧ ∀ p, s.partition part = some p → p.halted = false

/-- A resident team, issuing, with no freeze under way. -/
def Live (s : State) (c k : Nat) (x : Ctx) : Prop :=
  s.ctx c k = x ∧ x.resident = true ∧ x.trig = none ∧ Issuing s x.part

/-- A group of a resident team. -/
def Stands (s : State) (c k g : Nat) (x : Ctx) (r : Machine.Group) : Prop :=
  s.ctx c k = x ∧ x.resident = true ∧ x.groups[g]? = some r

/-- A group of a resident team that issues. -/
def Moves (s : State) (c k g : Nat) (x : Ctx) (r : Machine.Group) : Prop := Stands s c k g x r ∧ Issuing s x.part

/-- The first descriptor a group has not completed. -/
def NextIs (x : Ctx) (r : Machine.Group) (d : Desc) : Prop :=
  x.descOf (if r.pos.st = .done then r.pos.seq + 1 else r.pos.seq) = some d

/-- The group stands at the start of a descriptor, Eligible, with the lanes of its word of the descriptor's mask (02 R49). -/
def Started (r : Machine.Group) (g : Nat) (d : Desc) : Prop :=
  r.pos.seq = d.seq ∧ r.pos.trip = 0 ∧ r.pos.run = 0 ∧ r.pos.slot = 0 ∧ r.pos.word = 0 ∧ r.pos.g1 = 0 ∧ r.pos.g2 = d.arg0 ∧
  r.pos.g3 = d.arg1 ∧ r.pos.exmask = r.pos.activity ∧ r.pos.status = .eligible ∧
  ∀ i, i < 32 → r.pos.activity.getLsbD i = d.activity.getLsbD (32 * g + i)

/-- FMT and its stack as the flags of a descriptor leave them: the top is taken, FMT is put on top, the top is read, in this order (02
R49). Left to the model: an empty stack has zero on top, log entry 48. -/
def FmtFlagged (d : Desc) (r r' : Machine.Group) : Prop :=
  let popped := if d.pop then (r.pos.fmtStack.headD 0, r.pos.fmtStack.tail) else (r.fmt, r.pos.fmtStack)
  let stack := if d.push then popped.1 :: popped.2 else popped.2
  r'.pos.fmtStack = stack ∧ r'.fmt = if d.peek then stack.headD 0 else popped.1

/-- Some lane of group g is active in a descriptor of at least one trip. -/
def HasWork (d : Desc) (g : Nat) : Prop := d.trip ≠ 0 ∧ ∃ i, i < 32 ∧ d.activity.getLsbD (32 * g + i) = true

/-- A record is held by a core's gatherer, alone or in a formed team. -/
def Gathered (s : State) (c : Nat) (r : SpawnRec) : Prop := r ∈ (s.core c).gather ∨ ∃ f ∈ (s.core c).formed, r ∈ f

/-- No SPAWN of the core that issued before the batch's still has records to be accepted or spilled (03 R91, R97). -/
def FirstOf (s : State) (c : Nat) (batch : List SpawnRec) : Prop :=
  ∀ z ∈ (s.core c).ctxs, ∀ o ∈ z.groups, ∀ b ∈ o.spawnPend, ∀ q ∈ b, ∀ p ∈ batch, p.order ≤ q.order

/-- The set positions of a mask, ascending. -/
def placesOf (m : Mask) : List Nat := (List.range 1024).filter (fun i => m.getLsbD i)

/-- A group that has completed its descriptor cannot see its next one. -/
def Unseen (x : Ctx) (r : Machine.Group) (g : Nat) : Prop :=
  r.pos.st = .done → ∀ d, NextIs x r d → d.seen.getLsbD g = false

/-- A group's remote accesses are over: its stores acknowledged, its reads performed (07 R183, 08 R222). -/
def RemoteOver (r : Machine.Group) : Prop := r.rstores = [] ∧ ∀ v ∈ r.outs, v.remote = []

/-- The number of the first descriptor that a group has not completed. -/
def nextNumber (r : Machine.Group) : W32 := if r.pos.st = .done then r.pos.seq + 1 else r.pos.seq

/-- The state after a group's fence has made its stores leave their queue: those to the host window at system scope, the others for a
release beyond the group (08 R216, R222, R227, R232). -/
def groupFlush (s : State) (me : Agent) (own : Bool) (scope : BitVec 3) : State :=
  flushWhere s (fun q => q.agent == me && if q.host then scope == 6 else own && scope != 0)

/-- The remote stores of a group are far enough for a release at a scope: performed at core scope, acknowledged beyond (08 R222). -/
def StoresReach (r : Machine.Group) (scope : BitVec 3) : Prop :=
  (scope = 1 → ∀ st ∈ r.rstores, st.performed = true) ∧ (2 ≤ scope.toNat → r.rstores = [])

/-- No remote store that the group issued before an access still stands before it: at its bytes, or anywhere for a read-modify-write (08
R212, R216). -/
def NoStoreAhead (r : Machine.Group) (a : RemAcc) : Prop :=
  ∀ st ∈ r.rstores, st.performed = true ∨ a.order ≤ st.order ∨ (a.op.isAtomic = false ∧ ∀ b ∈ st.bytes, b ∉ a.bytes)

/-- A byte of a lane's part of a remote load: of its own core as the word read it when it issued, else as its agent reads it now (07
R182, R183). -/
def partByte (s : State) (o : Agent) (l : RemLane) (b : Nat × Nat) : Byte :=
  if b.1 = o.core then ((l.own.find? (fun q => q.1 == b.2)).map (·.2)).getD 0 else Machine.seenByte s o (some b.1) b.2

/-- A group that neither waits at a marker nor holds faults for one. -/
def Calm (r : Machine.Group) : Prop := r.async = [] ∧ r.pos.poisonRun = none


/-! ### The end of the waits of control words, from 02 R48, R54, 03 R100, 04 R116, 08 R229, 10 R305, 12 R351 -/

/-- The state with context k of core c acting. -/
def actingAt (s : State) (c k : Nat) : State := { s with cur := { core := c, ctx := k, group := 0 } }


/-! ### Transfers, routines, the pool tier and errors, from 07 R184-R189, R199-R205, 10 R273-R277, R296, R300, R301 -/

/-- Scratchpad and memory bytes and presence counts of t are those of s. -/
def SameStore (s t : State) : Prop :=
  SameBytes s t ∧ ∀ c l, presenceOf (t.core c) l = presenceOf (s.core c) l

/-- The byte of a place: of a core's scratchpad, or of memory. -/
def byteAt (s : State) (p : Option Nat × Nat) : Byte :=
  match p.1 with
  | some c => (s.core c).scr.get p.2
  | none => readByte s p.2

/-- A source address of a transfer passes its checks and names a place whose every write the engine sees (08 R213, R218), and no spill
buffer holds it (03 R98). -/
def SourceAt (s : State) (tr : Xfer) (va : W64) (p : Option Nat × Nat) : Prop :=
  (if tSscr tr.regs then ∃ c, p.1 = some c ∧ tr.scrByte .cs va = .ok (c, p.2)
   else p.1 = none ∧ checkAccess s tr.part tr.asid .cs pathX va 1 false = .ok p.2 ∧ spillHit s p.2 1 = []) ∧
  queuedAt s tr.agent p.1 p.2 = none ∧
  ∀ (i : Nat) (e : Late), s.late[i]? = some e → (e.at p.1 p.2).isSome → Sees tr.agent e (s.late.drop (i + 1))

/-- A channel but for who waits for it. -/
def ChanIs (t : State) (c ch : Nat) (y : Chan) : Prop := (t.core c).chans[ch]? = some y

/-- No team is in a routine, and every team has a privileged image (10 R286). -/
def UserTeams (s : State) : Prop := ∀ co ∈ s.cores, ∀ z ∈ co.ctxs, z.mode = .user ∧ z.trapVec.msb = false

/-- No present event ring lies in the pool tier (11 R316). -/
def RingsOutside (s : State) : Prop :=
  ∀ q ∈ s.pages, ∀ v ∈ q.evs, v.present = true → ∀ i r, i < 32 * v.entries → tierOf s (v.base + i) ≠ .pool r

/-- A group that has stopped where a freeze takes it (10 R275, R277). -/
def Stopped (g : Machine.Group) : Prop :=
  g.pos.status ≠ .running ∧ g.pos.parkFence = none ∧ g.spawnPend = [] ∧
  ∀ v ∈ g.outs, v.written = true ∨ v.popQueue.isSome

/-- The words of memory or scratchpad that are poisoned, with their causes. -/
def PoisonedAt (t : State) (scratch : Option Nat) (addr cause : Nat) : Prop := (poisonOf t scratch addr 1).map (·.1) = some cause


/-! ### Power, heat, bring-up and rings, from 01 R25-R27, 11 R314-R321, R335, R337 -/

/-- Firmware runs: bring-up has verified the configuration (11 R335). -/
def Running (s : State) : Prop := s.boot.phase = .training ∨ s.boot.phase = .ready

/-- The first bytes of a record as the ring holds them (11 R320, R321). -/
def RecordAt (t : State) (slot : Nat) (time : W64) (status cause faults : Nat) (tag : W32) (pos : Nat) (result : W64) : Prop :=
  (∀ i, i < 8 → readByte t (slot + i) = leByte time.toNat i) ∧ (∀ i, i < 2 → readByte t (slot + 8 + i) = leByte status i) ∧
  (∀ i, i < 2 → readByte t (slot + 10 + i) = leByte cause i) ∧ (∀ i, i < 4 → readByte t (slot + 12 + i) = leByte faults i) ∧
  (∀ i, i < 4 → readByte t (slot + 16 + i) = leByte tag.toNat i) ∧ (∀ i, i < 4 → readByte t (slot + 20 + i) = leByte pos i) ∧
  ∀ i, i < 8 → readByte t (slot + 24 + i) = leByte result.toNat i

/-- An event ring that takes a record, in bonded DRAM. -/
def TakesRecord (s : State) (p e : Nat) (v : EvRing) : Prop :=
  ∃ q, s.pages[p]? = some q ∧ q.evs[e]? = some v ∧ v.present = true ∧ v.held = [] ∧ v.produced - v.consumed < v.entries ∧
    ∀ i, i < 32 * v.entries → ∃ d o, tierOf s (v.base + i) = .dram d o

/-- A submission ring with blocks to fetch whose event ring takes a record (11 R317, R318). -/
def Fetches (s : State) (p r : Nat) (g : Page) (q : SubRing) (v : EvRing) : Prop :=
  bar0Up s = true ∧ s.pages[p]? = some g ∧ g.subs[r]? = some q ∧ q.present = true ∧ q.consumer < 2 ^ 32 - 1 ∧
  q.consumer ≠ q.announced ∧ g.evs[q.event]? = some v ∧ v.present = true ∧ v.held = [] ∧ v.produced - v.consumed < v.entries ∧
  ∀ c ∈ s.cmds, ¬ (c.src.page = p ∧ c.src.ring = r)

/-- The bytes of the ring's next block. -/
def blockBytes (s : State) (q : SubRing) : List Byte := (List.range 64).map (fun i => readByte s (q.base + q.consumer % q.entries * 64 + i))

/-- The tag of the next block names its position (11 R318). -/
def Tagged (s : State) (q : SubRing) : Prop :=
  (readByte s (q.base + q.consumer % q.entries * 64 + 6)).toNat + 256 * (readByte s (q.base + q.consumer % q.entries * 64 + 7)).toNat =
    (q.consumer + 1) % 2 ^ 16


/-! ### Commands, from 04 R108-R115, 07 R191, R201, 10 R289, R297-R299, 11 R324-R339, R438, R439 -/

/-- The command names partition p. -/
def Names (s : State) (src : CmdSrc) (p : Partition) : Prop := s.partition src.part = some p

/-- The partition holds the address space. -/
def HasSpace (p : Partition) (asid : Nat) : Prop := p.asidFirst ≤ asid ∧ asid < p.asidFirst + p.asidCount

/-- The lines that `p` selects are checked in: the device takes each byte that differs from the twin, or a whole dirty line without one,
and keeps every other (07 R199, R201). -/
def CheckedIn (s u : State) (p : PoolLine → Prop) : Prop :=
  (s.poolLines.map (·.line)).Nodup → (∀ l ∈ s.poolLines, ∀ tw, l.twin = some tw → tw.length = 128) → MemoryOk s →
  (∀ l ∈ s.poolLines, p l → ∀ (i : Nat) (b : Byte), l.work[i]? = some b → u.poolDev.get (128 * l.line + i) =
    match l.twin with
    | some tw => if tw[i]? = some b then s.poolDev.get (128 * l.line + i) else b
    | none => if l.dirty then b else s.poolDev.get (128 * l.line + i)) ∧
  ∀ a, (∀ l ∈ s.poolLines, p l → a / 128 ≠ l.line) → u.poolDev.get a = s.poolDev.get a

/-- A table's form: every entry is a valid leaf of level 0 to 2, and no two map one address (10 R302). -/
def TableOk (sp : AddrSpace) : Prop :=
  (∀ e ∈ sp.ptes, e.leaf = true ∧ e.level ≤ 2) ∧
  sp.ptes.Pairwise (fun e f => e.base + leafSize e.level ≤ f.base ∨ f.base + leafSize f.level ≤ e.base)

/-- Bytes of a page-size code (11 R324). -/
def pageBytes (sz : BitVec 2) : Nat := [2 ^ 12, 2 ^ 16, 2 ^ 21, 2 ^ 30].getD sz.toNat 0

/-- u's translations of an address space: those of [lo, hi) are `new`, the others those of s. -/
def Retranslated (s u : State) (asid lo hi : Nat) (new : Nat → Option Nat) : Prop :=
  (∀ a, lo ≤ a → a < hi → (translate u asid a).map (·.1) = new a) ∧
  (∀ a, (a < lo ∨ hi ≤ a) → (translate u asid a).map (·.1) = (translate s asid a).map (·.1)) ∧
  (∀ b a, b ≠ asid → translate u b a = translate s b a) ∧
  ∀ co ∈ u.cores, ∀ e ∈ co.tlb, (e.asid = asid ∨ e.globalTo.isSome) → ¬ (lo ≤ e.page * 4096 ∧ e.page * 4096 < hi)

/-- u differs from s in address spaces and TLBs at most. -/
def OnlyTables (s u : State) : Prop :=
  u = { s with spaces := u.spaces, cores := u.cores } ∧
  u.cores.map (fun co => { co with tlb := [] }) = s.cores.map (fun co => { co with tlb := [] })

/-- s once the stores issued to the addresses that `p` selects are performed: none is queued, and every agent sees the writes there (10
R306, 11 R331). -/
def Performed (s v : State) (p : Nat → Bool) : Prop :=
  let u := flushThrough s (fun q => q.scratch.isNone && q.cells.any (fun c => p c.1))
  OnlyOrders u v ∧ (∀ q ∈ v.queue, q ∈ s.queue ∧ (q.scratch = none → ∀ c ∈ q.cells, p c.1 = false)) ∧
  ∀ (i : Nat) (e f : Late), u.late[i]? = some e → v.late[i]? = some f →
    if e.scratch = none ∧ ∃ c ∈ e.cells, p c.1 = true then ∀ o, f.visible o = true else f = e

/-- A MAP, UNMAP or POOLCFG that waits for accesses. -/
def waitingMap (src : CmdSrc) (part : Nat) (i : Instr) : PendingCmd :=
  { src := src, map := some i, freeze := none, part := part, ids := [], halt := false, cause := none, faults := 0 }

/-- A buffer of n bytes in bonded DRAM of the command's partition on a deck that is ready, clean of poison. -/
def Buffer (s : State) (p : Partition) (buf n : Nat) : Prop :=
  s.poison = [] ∧ ∀ i, i < n → (∃ d o, tierOf s (buf + i) = .dram d o ∧ (s.boot.reduced = true → s.boot.ready.getLsbD d = true)) ∧
    owns s p (buf + i) = true

/-- The 64-bit words at a buffer in u, as every agent reads them; every other byte of memory as in s. -/
def Reports (s u : State) (buf : Nat) (ws : List W64) : Prop :=
  (∀ i w, ws[i]? = some w → leValue u (buf + 8 * i) 8 = w.toNat) ∧
  (∀ a, (a < buf ∨ buf + 8 * ws.length ≤ a) → readByte u a = readByte s a) ∧
  (∀ e ∈ u.late, e.scratch = none → ∀ c ∈ e.cells, c.1 < buf ∨ buf + 8 * ws.length ≤ c.1) ∧
  u = { s with mem := u.mem, late := u.late, launches := u.launches, wrote := u.wrote, stamp := u.stamp }

/-- No launch of the partition waits, is placed or is being pre-empted. -/
def NoLaunches (s : State) (p : Partition) : Prop :=
  ∀ l ∈ s.launches, l.part = p.id → l.status = .completed ∨ l.status = .preempted

/-- A core position of a partition (01 R18). -/
def HasCore (p : Partition) (c : Nat) : Prop := p.halfDecks.getLsbD (2 * (c / 48) + c % 48 / 24) = true

/-- Every partition's teams have a privileged image and are in no routine, and none is stopping. -/
def AllTrappable (s : State) : Prop := ∀ co ∈ s.cores, ∀ z ∈ co.ctxs, z.resident = true → Trappable z

/-- A team that PREEMPT has reached: it will freeze with cause PREEMPT at its pc (10 R289). -/
def preemptTrig (x : Ctx) : Trig := { ctrlTrig cPREEMPT false x.pc 0 0 0 with preempt := true }

/-- The partition CREATE's parameters describe (11 R326, R329). -/
def created (src : CmdSrc) (a : CreateArgs) : Partition :=
  { id := src.part, halfDecks := a.halfDecks, asidFirst := a.asidFirst.toNat, asidCount := a.asidCount.toNat,
    stierBase := a.stierBase.toNat * 2 ^ 30, stierSize := a.reserve.toNat * 2 ^ 30,
    watchdog := if a.watchdog = 0 then 10000 else a.watchdog.toNat, privVa := a.priv, priv := none, save := a.save,
    ringTable := a.ringTable, pasid := a.pasid, halted := false, frozen := false, sealed := false, released := false }

/-- A region that POOLCFG maps (11 R331). -/
def mappedRegion (a : PoolArgs) : Region :=
  { num := a.region.toNat, port := a.port.toNat, ownership := a.mode == 1, owner := a.owner.toNat, severed := false, dropped := 0 }

/-- Partition identifiers and launch identifiers each name one. -/
def OneEach (s : State) : Prop :=
  s.parts.Pairwise (fun p q => p.id ≠ q.id) ∧ s.launches.Pairwise (fun l m => l.part ≠ m.part ∨ l.id ≠ m.id)


/-! ### The machine as a whole, from 01 R17, 02 R42, R44, 04 R120, R121, 09 R234-R251 -/

/-- The queues of a control slice hold no more than they have places (02 R44, R53, 03 R72, 02 R47). -/
def StreamOk (st : Stream) : Prop :=
  st.blockQ.length ≤ 256 ∧ st.returnQ.length ≤ 16 ∧ st.recon.length ≤ 16 ∧ st.fmtDepth ≤ 16 ∧ st.masks.length = 16

/-- A context has its 32 scalar registers, and its control slice and the one a freeze keeps are in order. -/
def CtxOk (x : Ctx) : Prop :=
  x.s.length = 32 ∧ x.spoison.length = 32 ∧ StreamOk x.strm ∧ ∀ f, x.frozen = some f → StreamOk f.stream

/-- The invariant: the part's 192 core positions of eight contexts with four lane sets and 16 queues, and its nine BAR0 pages; byte
storage in canonical form and cached pool lines of 128 bytes; contexts in order, resident or kept with a pre-empted launch; the core
clock between 1.0 and 3.0 GHz and the power limit between 600 and 2000 W (01 R17, R25, 02 R42, 11 R314, R337). -/
def Inv (s : State) : Prop :=
  State.shaped s = true ∧ MemoryOk s ∧
  (∀ co ∈ s.cores, co.queues.length = 16 ∧ co.lanesets.length = 4 ∧ ∀ x ∈ co.ctxs, CtxOk x) ∧
  (∀ l ∈ s.launches, ∀ v ∈ l.saved, CtxOk v.body) ∧
  (∀ m ∈ s.images, m.pages.wf = true ∧ ∀ l ∈ m.launches, ∀ v ∈ l.saved, CtxOk v.body) ∧
  (1000 ≤ s.coreClock ∧ s.coreClock ≤ 3000) ∧ 600 ≤ s.powerLimit ∧ s.powerLimit ≤ 2000

/-- Core c's control slice fetches for context k. -/
def fetching (s : State) (c k : Nat) : State :=
  { s.updCore c (fun (co : Core) => { co with lastFetch := k }) with cur := { core := c, ctx := k, group := 0 } }

/-- Group g of context k acts on core c. -/
def issuing (s : State) (c k g : Nat) : State := { s with cur := { core := c, ctx := k, group := g } }

def header (fin bnd sw : Bool) : Hdr := { fin := fin, bnd := bnd, sw := sw }

/-- A single word with three operand fields set and every other field zero. -/
def bareWord (d a b : BitVec 8) : LaneWord :=
  { hdr := header false false false, lit := false, d := d, a := a, b := b, c := 0, ty := 0, tl := false, md := 0, sa := 0, sb := 0,
    sc := 0, x := 0 }

def bareNarrow (opn : BitVec 7) (d a b : BitVec 8) (ty : BitVec 4) : Narrow := { opn := opn, d := d, a := a, b := b, ty := ty, imm := 0 }

def barePair (p q : Narrow) : PairWord := { hdr := header false false false, op1 := p, op2 := q, r0 := false }

end Sys2Proof.Claims

open Sys2Proof Sys2Proof.Machine Sys2Proof.Claims

/-- The integer group writes its result, modulo 2^64, to s[D] (s0 ignores it), with the OR of the taints of the registers read; the
pc moves to the next word (12 R342-R344, 13 R380, 12 R347). -/
def Obligations.IntegerResults : Prop :=
  ∀ (i : Instr) (s : State) (x : Ctx) (d : BitVec 5) (rs : List (BitVec 5)) (v : W64),
    Acts s x rs [] → intResult i x = some (d, rs, v) →
    exec i s = .next (s.setMe (retired (x.wr d v (rs.any x.taint)) (x.pc + 1)))

/-- A write of s[d] is read back, with its taint and clean of poison; s0 reads zero and ignores it; every other register keeps what
it holds (02 R42, 08 R230). -/
def Obligations.ScalarRegisterWrites : Prop :=
  ∀ (x : Ctx) (d r : BitVec 5) (v : W64) (t : Bool), x.s.length = 32 → x.spoison.length = 32 →
    (x.wr d v t).rd 0 = 0 ∧
    (r = d → d ≠ 0 → (x.wr d v t).rd r = v ∧ (x.wr d v t).taint r = t ∧ (x.wr d v t).poison r = none) ∧
    (r ≠ d → (x.wr d v t).rd r = x.rd r ∧ (x.wr d v t).taint r = x.taint r ∧ (x.wr d v t).poison r = x.poison r) ∧
    x.wr 0 v t = x

/-- Jumps write the link, branches go to the word offset from the pc or to the next word, NOP, the all-zero word that adds s0 to s0,
changes only the pc (09 R237, 12 R342, R348, 13 R371, R372). CLOOP counts down, lowers the rotation base and closes while the counter is not zero; BMASK narrows the team active
mask and branches while a lane remains; ROTB exchanges the rotation base (03 R78, R80, R81). -/
def Obligations.BranchesAndLoops : Prop :=
  (∀ (i : Instr) (s : State) (x : Ctx) (rs : List (BitVec 5)) (link : Option (BitVec 5 × W64)) (pc : W64),
    Acts s x rs [] → jumpResult i x = some (rs, link, pc) →
    exec i s = .next (s.setMe (retired (match link with | some (d, v) => x.wr d v false | none => x) pc))) ∧
  ((∀ (s : State) (x : Ctx) (a : BitVec 5) (o : BitVec 16), Acts s x [a] [] →
    exec (.cloop a o) s =
      .next (s.setMe (retired { x.wr a (x.rd a - 1) (x.taint a) with strm := { x.strm with rotb := x.strm.rotb - 1 } }
        (if x.rd a = 1 then x.pc + 1 else x.pc + o.signExtend 64)))) ∧
  (∀ (s : State) (x : Ctx) (a : BitVec 4) (o : BitVec 16), Acts s x [] [a] →
    exec (.bmask a o) s =
      .next (s.setMe (retired { x with strm := { x.strm with active := x.strm.active &&& x.mask a } }
        (if x.strm.active &&& x.mask a = 0 then x.pc + 1 else x.pc + o.signExtend 64)))) ∧
  ∀ (s : State) (x : Ctx) (d a : BitVec 5) (k : BitVec 16), Acts s x [a] [] →
    exec (.rotb d a k) s =
      .next (s.setMe (retired { x.wr d (BitVec.ofNat 64 x.strm.rotb.toNat) false with
        strm := { x.strm with rotb := BitVec.ofInt 6 ((x.rd a).toInt + k.toInt) } } (x.pc + 1))))

/-- The mask operations act on each of the 1024 lanes (13 R381). MCNT, MFIRST and MWORD bring a mask to a scalar register; MWORD's
other form replaces one 32-bit word of a mask (13 R381). -/
def Obligations.MaskWords : Prop :=
  (∀ (i : Instr) (s : State) (x : Ctx) (ms : List (BitVec 4)) (d : BitVec 4) (f : Nat → Bool),
    Acts s x [] ms → maskResult i x = some (ms, d, f) →
    ∃ v : Mask, (∀ k, k < 1024 → v.getLsbD k = f k) ∧ exec i s = .next (s.setMe (retired (x.wrMask d v) (x.pc + 1)))) ∧
  ((∀ (i : Instr) (s : State) (x : Ctx) (a : BitVec 4) (d : BitVec 5) (n : Nat),
    Acts s x [] [a] → maskCount i x = some (a, d, n) →
    exec i s = .next (s.setMe (retired (x.wr d (BitVec.ofNat 64 n) false) (x.pc + 1)))) ∧
  ∀ (s : State) (x : Ctx) (d : BitVec 4) (a w : BitVec 5), Acts s x [a] [] →
    ∃ v : Mask,
      (∀ k, k < 1024 → v.getLsbD k = if k / 32 = w.toNat then (x.rd a).getLsbD (k % 32) else (x.mask d).getLsbD k) ∧
      exec (.mwordW d a w) s =
        .next (s.setMe (retired { x with strm := { x.strm with masks := x.strm.masks.set d.toNat v } } (x.pc + 1))))

/-- Frame of the plain control words: nothing but the acting context changes, every byte reads as before, and in that context only
the registers of `plainWrites`, the pc and the wait. -/
def Obligations.PlainControlFrame : Prop :=
  ∀ (i : Instr) (s t : State) (x : Ctx) (ds : List (BitVec 5)) (dm : List (BitVec 4)) (act rot : Bool),
    plainWrites i = some (ds, dm, act, rot) → Acts s x (plainReads i x).1 (plainReads i x).2 → exec i s = .next t →
    OnlyMine s t ∧ SameBytes s t ∧
    mine t = { x with s := (mine t).s, staint := (mine t).staint, spoison := (mine t).spoison, strm := (mine t).strm,
                      pc := (mine t).pc, wait := none, recent := none } ∧
    (∀ r, r ∉ ds → (mine t).rd r = x.rd r ∧ (mine t).taint r = x.taint r ∧ (mine t).poison r = x.poison r) ∧
    (mine t).strm = { x.strm with masks := (mine t).strm.masks, mpoison := (mine t).strm.mpoison,
                                  active := (mine t).strm.active, rotb := (mine t).strm.rotb } ∧
    (∀ m, m ∉ dm → (mine t).mask m = x.mask m ∧ (mine t).strm.mpoison.getLsbD m.toNat = x.strm.mpoison.getLsbD m.toNat) ∧
    (act = false → (mine t).strm.active = x.strm.active) ∧ (rot = false → (mine t).strm.rotb = x.strm.rotb)

/-- The checks of a memory access in their order: address form, alignment, translation, permission, partition, pool rules; the cause
is 0x080 + 32 × space + 4 × kind + reason (10 R268, 00 R13). The pool rules: a read-modify-write of a merge-mode region raises POOLATOM,
then any access to a severed one POOLSEVER, with its region and count of dropped lines (07 R199, R205, 10 R313). A leaf entry maps a
page of its level: 1 GiB, 2 MiB or 4 KiB; the low bits of the address are those of the virtual address (10 R302, R303). -/
def Obligations.AccessChecks : Prop :=
  (∀ (s : State) (part asid : Nat) (k : Kind) (path : Nat) (va : W64) (align : Nat) (atomic : Bool), 0 < align →
    let sp := match translate s asid va.toNat with | some t => (tierOf s t.1).space | none => 0
    let cause (r : Nat) : Nat := 0x080 + 32 * sp + 4 * k.code + r
    (2 ^ 56 ≤ va.toNat → ∃ f, checkAccess s part asid k path va align atomic = .error f ∧ f.cause = cause 0) ∧
    (va.toNat < 2 ^ 56 → va.toNat % align ≠ 0 →
      ∃ f, checkAccess s part asid k path va align atomic = .error f ∧ f.cause = cause 2) ∧
    (va.toNat < 2 ^ 56 → va.toNat % align = 0 →
      (translate s asid va.toNat = none →
        ∃ f, checkAccess s part asid k path va align atomic = .error f ∧ f.cause = cause 0) ∧
      ∀ pa e, translate s asid va.toNat = some (pa, e) →
        (permOk k e = false → ∃ f, checkAccess s part asid k path va align atomic = .error f ∧ f.cause = cause 1) ∧
        (permOk k e = true → (∀ p, s.partition part = some p → owns s p pa = false) →
          ∃ f, checkAccess s part asid k path va align atomic = .error f ∧ f.cause = cause 3) ∧
        (permOk k e = true → (∃ p, s.partition part = some p ∧ owns s p pa = true) →
          checkAccess s part asid k path va align atomic =
            match poolCheck s pa path atomic (some (pa, e)) with | some f => .error f | none => .ok pa))) ∧
  (∀ (s : State) (pa path n : Nat) (atomic : Bool) (t : Option (Nat × W64)) (r : Region),
    tierOf s pa = .pool n → s.region n = some r →
    (atomic = true → r.ownership = false → ∃ f, poolCheck s pa path atomic t = some f ∧ f.cause = 0x101) ∧
    ((atomic = false ∨ r.ownership = true) → r.severed = true →
      ∃ f, poolCheck s pa path atomic t = some f ∧ f.cause = 0x100 ∧ f.finfo.toNat = r.num % 2 ^ 18 + 2 ^ 32 * (r.dropped % 2 ^ 32)) ∧
    ((atomic = false ∨ r.ownership = true) → r.severed = false → poolCheck s pa path atomic t = none)) ∧
  (∀ (s : State) (asid va pa : Nat) (e : W64), translate s asid va = some (pa, e) →
    va < 2 ^ 56 ∧ pa % 4096 = va % 4096 ∧
    ∃ lvl ∈ [0, 1, 2], (s.space asid).entry lvl (va / 2 ^ (12 + 9 * lvl)) = some e ∧ (lvl = 0 ∨ e.getLsbD 5 = true) ∧
      pa % 2 ^ (12 + 9 * lvl) = va % 2 ^ (12 + 9 * lvl))

/-- A byte written is read back, whatever tier holds it, and no other byte changes (07 R174, R199, R200). An agent reads the newest of
its own queued stores to a byte; else what the oldest write that it does not see replaced; else what storage holds (08 R212, R213, R216,
R218). It sees the writes performed toward it, and with one of them every earlier write of the same line of memory, or byte of
scratchpad (07 R195). A write is performed toward its agent, the agents of path C or L on its core, spawn reads anywhere for spawn
writes, the agents it was ordered before and those it reached. What an agent has read is noted as `ReadBy` says. Stores that leave their
queues write their own bytes alone. A release covers what its agents had done, or acquired, by its time; an access whose address a
load-consume gave comes after what the releases cover before a write the load returned (08 R219, R231). Model choice: the form of queues,
writes and releases, log entry 5. -/
def Obligations.MemoryReadAfterWrite : Prop :=
  (∀ (s : State) (a b : Nat) (v : Byte), MemoryOk s →
    (tierOf s a ≠ .hole → readByte (writeByte s a v) a = v) ∧ (b ≠ a → readByte (writeByte s a v) b = readByte s b)) ∧
  (∀ (s : State) (o : Agent) (scratch : Option Nat) (a : Nat) (v : Byte),
    (∀ old q new, s.queue = old ++ q :: new → QueuedAt q o scratch a → (∀ r ∈ new, ¬ QueuedAt r o scratch a) →
      (∀ c ∈ q.cells, c.1 = a → c.2 = v) → Machine.seenByte s o scratch a = v) ∧
    ((∀ q ∈ s.queue, ¬ QueuedAt q o scratch a) →
      ((∀ old e new, s.late = old ++ e :: new → WroteAt e scratch a → Sees o e new) →
        Machine.seenByte s o scratch a = match scratch with | none => readByte s a | some c => (s.core c).scr.get a) ∧
      ∀ old e new, s.late = old ++ e :: new → WroteAt e scratch a → (∀ c ∈ e.cells, c.1 = a → c.2.1 = v) → ¬ Sees o e new →
        (∀ older f newer, old = older ++ f :: newer → WroteAt f scratch a → Sees o f (newer ++ e :: new)) →
        Machine.seenByte s o scratch a = v)) ∧
  (∀ (e : Late) (o : Agent), e.visible o = true ↔
    e.agent = o ∨
      (e.agent.path = o.path ∧ (o.path = .s ∨ ((o.path = .c ∨ o.path = .l) ∧ (e.agent.core = o.core ∨ e.scratch = some o.core)))) ∨
      (∃ b ∈ e.before, b.view.has o = true) ∨ o ∈ e.shown) ∧
  (∀ (s : State) (o : Agent) (scratch : Option Nat) (as_ : List Nat) (consume : Bool),
    ReadBy s (loaded s o scratch as_ consume) o scratch as_ consume) ∧
  (∀ (s : State) (p : Store → Bool), (flushWhere s p).queue = s.queue.filter (fun q => !p q) ∧
    ∀ a, MemoryOk s → (∀ q ∈ s.queue, p q = true → q.scratch = none → ∀ c, q.cells.head? = some c → a < c.1 ∨ c.1 + q.cells.length ≤ a) →
      readByte (flushWhere s p) a = readByte s a) ∧
  (∀ (r : Release) (e : Late), r.covers e = true ↔ ∃ a ∈ r.agents, (e.agent = a ∧ e.order ≤ r.time) ∨
    ∃ b ∈ e.before, b.view.has a = true ∧ b.time ≤ r.time) ∧
  ∀ (s : State) (o : Agent), seeFed s o false = s ∧ OnlyOrders s (seeFed s o true) ∧
    Covers s (seeFed s o true) (fun e => ∃ r ∈ s.releases, ctxAgent o.core o.ctx .c ∈ r.fed ∧ r.reach.has o.core = true ∧
      r.covers e = true) o

/-- LD and LDK write the bytes they read, extended as SZ says, to s[D]; LD passes its base's taint on, LDK sets the taint (13 R378,
R379, 09 R236). Before it reads the host window its own stores there have left their queue (08 R232). The load is noted as its agent's
read, LDK's as a load-consume (08 R213, R231; `MemoryReadAfterWrite` says what that notes). Model choices: that a load after which only ECOMMITs stand may be performed again, for
which the context keeps its place, log entry 5. -/
def Obligations.LoadResults : Prop :=
  ∀ (s : State) (x : Ctx) (d a : BitVec 5) (sz : BitVec 3) (o : BitVec 13) (n pa : Nat) (sg : Bool),
    Acts s x [a] [] → szCode sz = some (n, sg) → Reaches s x .rd (x.rd a + o.signExtend 64) n false pa →
    let u := loadState s (myPath s .c) [pa] (x.taint a)
    let v := extended sg n (seenValue u (myPath s .c) pa n)
    let read (consume : Bool) : State := loaded u (myPath s .c) none (placesOn pa n) consume
    let last (y : Ctx) : Ctx := { y with recent := some { reg := d, pa := pa, len := n, signed := sg } }
    loadPoison u (myPath s .c) pa n = none → spillHit u pa n = [] →
    exec (.ld d a sz o) s = .next ((read false).setMe (last (retired (x.wr d v (x.taint a)) (x.pc + 1)))) ∧
    exec (.ldk d a sz o) s = .next ((read true).setMe (last (retired (x.wr d v true) (x.pc + 1))))

/-- ST puts the low bytes of s[D], with the poison of s[D], into its agent's store queue for its address and changes nothing else but
the pc (14 R392, 10 R300, 08 R216), after an address that a load-consume gave has ordered it (R231): its own agent sees the bytes at once,
every other one what it saw. A store that leaves the queue writes its bytes and no other, with its poison; the agents of path C, or L, on
its core see them then if that is its path, those of another path go on reading what it replaced (08 R213, R218). Model choices: that a store of less than a 32-bit word cleans, or poisons, the whole word, log entry
47; the queue, log entry 5. -/
def Obligations.StoreResult : Prop :=
  (∀ (s : State) (x : Ctx) (d a : BitVec 5) (sz : BitVec 3) (o : BitVec 13) (n pa : Nat) (sg : Bool),
    Acts s x [a] [] → szCode sz = some (n, sg) → Reaches s x .wr (x.rd a + o.signExtend 64) n false pa →
    let q : Store := {
      agent := myPath s .c, order := s.freeCtr, host := (List.range n).any (fun i => inHost s (pa + i)), toward := [],
      scratch := none, cells := numCells pa n (x.rd d).toNat, poison := x.poison d }
    let u := seeFed s (myPath s .c) (x.taint a)
    let t : State := { u with queue := s.queue ++ [q] }
    exec (.st d a sz o) s = .next (t.setMe (retired x (x.pc + 1))) ∧
    ∀ i, i < n → Machine.seenByte t (myPath s .c) none (pa + i) = leByte (x.rd d).toNat i ∧
      ∀ b, b ≠ myPath s .c → Machine.seenByte t b none (pa + i) = Machine.seenByte s b none (pa + i)) ∧
  ∀ (s : State) (q : Store) (pa n v : Nat), MemoryOk s → 0 < n → q.scratch = none → q.cells = numCells pa n v →
    let t := q.leave s
    Stored s t pa n v ∧ t.queue = s.queue ∧ (t.cores.map (·.ctxs)) = s.cores.map (·.ctxs) ∧
    ((∀ i, i < n → tierOf s (pa + i) ≠ .hole) → (poisonOf t none pa n).map (·.1) = q.poison) ∧
    ((∀ i, i < n → inHost s (pa + i) = false) → WritesGrow s t q.agent (fun a => pa ≤ a ∧ a < pa + n)) ∧
    ∀ (i : Nat) (o : Agent), i < n → (∀ r ∈ s.queue, ¬ QueuedAt r o none (pa + i)) → (∀ e ∈ s.late, ¬ WroteAt e none (pa + i)) →
      (∀ j, j < n → inHost s (pa + j) = false) →
      Machine.seenByte t o none (pa + i) =
        if o = q.agent ∨ o ∈ q.toward ∨
            (o.path = q.agent.path ∧ (o.path = .s ∨ ((o.path = .c ∨ o.path = .l) ∧ o.core = q.agent.core))) then readByte t (pa + i)
        else readByte s (pa + i)

/-- The AMO group, its agent's earlier stores having left their queue, reads the old value into s[D], stores the new one and leaves every
other byte alone; a compare that fails stores nothing; the host window takes add, swap and cas (12 R345, R346, 08 R214, R216). Its agent
sees the writes of those bytes from then on (08 R212). -/
def Obligations.AtomicResults : Prop :=
  ∀ (i : Instr) (s : State) (x : Ctx) (op : AmoOp) (d a b : BitVec 5) (w u : Bool) (pa : Nat),
    amoParts i = some (op, d, a, b, w, u) → Acts s x (if op = .cas then [a, b, d] else [a, b]) [] →
    Reaches s x .at (x.rd a) (if w then 8 else 4) true pa → (inHost s pa = true → op = .add ∨ op = .swap ∨ op = .cas) →
    let n := if w then 8 else 4
    let before := seeFed (flushWhere s (fun q => q.agent == myPath s .c && q.host == inHost s pa)) (myPath s .c) (x.taint a)
    let old := leValue before pa n
    let y := retired (x.wr d (extended (!u) n old) (x.taint a)) (x.pc + 1)
    MemoryOk before → poisonOf before none pa n = none → spillHit before pa n = [] →
    match amoStores op n u old ((x.rd b).toNat % 2 ^ (8 * n)) ((x.rd d).toNat % 2 ^ (8 * n)) with
    | some v => ∃ t, exec i s = .next t ∧ Stored before t pa n v ∧ OnlyMemory before t y pa n
    | none => ∃ t, exec i s = .next (t.setMe y) ∧ OnlyOrders before t ∧
        ∀ (j : Nat) (f : Late), t.late[j]? = some f → (∃ k, k < n ∧ WroteAt f none (pa + k)) → f.visible (myPath s .c) = true

/-- An access of the control stream that fails a check traps precisely with its cause: FADDR the address, FMASK 1 (10 R267, R268,
R276). An AMO that fails a check traps; so does one the host window does not take, with DRAM_AT_PERM (12 R345, R346). A control word
that reads a poisoned scalar or mask register raises its cause, precisely, as an asynchronous one, and has no effect (10 R300, R312).
Model choices: that a poisoned register is raised as an asynchronous fault at the word that reads it is deduced, log entry 13. -/
def Obligations.ControlFaultsTrap : Prop :=
  (∀ (i : Instr) (s : State) (x : Ctx) (a : BitVec 5) (va : W64) (k : Kind) (n path : Nat) (at_ : Bool) (f : AFault),
    Acts s x [a] [] → Trappable x → scalarAccess i x = some (a, va, k, n, path, at_) →
    checkAccess s x.part (x.asid s) k path va n at_ = .error f →
    exec i s = .next (s.setMe (triggered x (ctrlTrig f.cause false x.pc va 1 f.finfo)))) ∧
  (∀ (i : Instr) (s : State) (x : Ctx) (op : AmoOp) (d a b : BitVec 5) (w u : Bool),
    amoParts i = some (op, d, a, b, w, u) → Acts s x (if op = .cas then [a, b, d] else [a, b]) [] → Trappable x →
    (∀ f, checkAccess s x.part (x.asid s) .at pathC (x.rd a) (if w then 8 else 4) true = .error f →
      exec i s = .next (s.setMe (triggered x (ctrlTrig f.cause false x.pc (x.rd a) 1 f.finfo)))) ∧
    (∀ pa, checkAccess s x.part (x.asid s) .at pathC (x.rd a) (if w then 8 else 4) true = .ok pa →
      tlbMisses s s.cur.core (x.asid s) [x.rd a] = [] → inHost s pa = true →
      op = .and ∨ op = .or ∨ op = .xor ∨ op = .min ∨ op = .max →
      ∃ fi, exec i s = .next (s.setMe (triggered x (ctrlTrig 0x089 false x.pc (x.rd a) 1 fi))))) ∧
  (∀ (i : Instr) (s : State) (x : Ctx) (rs : List (BitVec 5)) (ms : List (BitVec 4)) (c : Nat),
    s.me? = some x → Trappable x → controlReads i = some (rs, ms) → poisonCause x rs ms = some c →
    exec i s = .next (s.setMe (triggered x (ctrlTrig c true x.pc 0 0 0))))

/-- EMIT appends the descriptor its operands name, numbers it and moves the FMT depth and the return count; it releases the C events
before it and what happened before them at core scope, to its block (02 R44-R48, 08 R220). -/
def Obligations.EmitAppendsDescriptor : Prop :=
  ∀ (s : State) (x : Ctx) (a b t : BitVec 5) (m : BitVec 4) (push pop peek ret bar : Bool),
    Acts s x [a, b, t] [m] → Emits x a t push pop peek ret →
    exec (.emit a b t m push pop peek ret bar) s = .next (emission s (emitted s.freeCtr x a b t m push pop peek ret bar))

/-- EMIT stalls with no effect while the block queue holds 256 entries; then it traps EMITFIELD, RETFULL or FMTDEPTH, in that order
(02 R47). DIVG, ELSE and RECON stall likewise, then trap in the order of their operations; a token that is poisoned raises SECTRL
where ELSE or RECON reads it (03 R73, 10 R300, R312). -/
def Obligations.EmissionTraps : Prop :=
  (∀ (s : State) (x : Ctx) (a b t : BitVec 5) (m : BitVec 4) (push pop peek ret bar : Bool), Acts s x [a, b, t] [m] →
    let i : Instr := .emit a b t m push pop peek ret bar
    let traps (c : Nat) : Prop := exec i s = .next (s.setMe (triggered x (ctrlTrig c false x.pc 0 0 0)))
    let field := 2 ^ 24 ≤ (x.rd a).toNat ∨ 2 ^ 16 ≤ (x.rd t).toNat
    let full := ret = true ∧ 16 ≤ x.strm.returnQ.length
    let depth := (pop = true ∧ x.strm.fmtDepth = 0) ∨ (push = true ∧ x.strm.fmtDepth - pop.toNat = 16) ∨
      (peek = true ∧ x.strm.fmtDepth - pop.toNat + push.toNat = 0)
    (256 ≤ x.strm.blockQ.length → exec i s = .next (s.setMe (waiting x i))) ∧
    (Trappable x → x.strm.blockQ.length < 256 →
      (field → traps 0x030) ∧ (¬ field → full → traps 0x031) ∧ (¬ field → ¬ full → depth → traps 0x033))) ∧
  (∀ (s : State) (x : Ctx), 256 ≤ x.strm.blockQ.length →
    (∀ a, Acts s x [] [a] → exec (.divg a) s = .next (s.setMe (waiting x (.divg a)))) ∧
    (Acts s x [] [] → exec .elseM s = .next (s.setMe (waiting x .elseM)) ∧ exec .recon s = .next (s.setMe (waiting x .recon)))) ∧
  (∀ (s : State) (x : Ctx), x.strm.blockQ.length < 256 → Trappable x →
    let traps (i : Instr) (c : Nat) : Prop := exec i s = .next (s.setMe (triggered x (ctrlTrig c false x.pc 0 0 0)))
    (∀ a, Acts s x [] [a] → (16 ≤ x.strm.recon.length → traps (.divg a) 0x034) ∧
      (x.strm.recon.length < 16 → x.strm.fmtDepth = 16 → traps (.divg a) 0x033)) ∧
    (Acts s x [] [] → x.strm.recon = [] → traps .elseM 0x035 ∧ traps .recon 0x035) ∧
    (∀ tok rest, Acts s x [] [] → x.strm.recon = tok :: rest → tok.poison = false →
      (tok.phase = true → traps .elseM 0x036) ∧ (x.strm.fmtDepth = 0 → traps .recon 0x033)) ∧
    ∀ tok rest i, Acts s x [] [] → x.strm.recon = tok :: rest → tok.poison = true → i = .elseM ∨ i = .recon →
      exec i s = .next (s.setMe (triggered x (ctrlTrig 0x177 true x.pc 0 0 0))))

/-- DIVG, ELSE and RECON change the reconvergence stack and the team active mask, and place a marker descriptor whose activity is
the team active mask after the instruction (03 R73). -/
def Obligations.DivergenceMarkers : Prop :=
  ∀ (s : State) (x : Ctx), x.strm.blockQ.length < 256 →
    (∀ a, Acts s x [] [a] → x.strm.recon.length < 16 → x.strm.fmtDepth ≠ 16 →
      exec (.divg a) s = .next (s.setMe (diverged s.freeCtr x a))) ∧
    (∀ tok rest, Acts s x [] [] → x.strm.recon = tok :: rest → tok.poison = false → tok.phase = false →
      exec .elseM s = .next (s.setMe (turnedElse s.freeCtr x tok rest))) ∧
    (∀ tok rest, Acts s x [] [] → x.strm.recon = tok :: rest → tok.poison = false → x.strm.fmtDepth ≠ 0 →
      exec .recon s = .next (s.setMe (reconverged s.freeCtr x tok rest)))

/-- RPOP of a delivered entry writes word g of m[D] from group g's word, zero for groups the team does not have, and lowers the
return count; it waits for the deliveries and for the remote accesses that the words released, and traps RPOPNONE with nothing
outstanding (02 R54, 18 R430). It acquires what the words released: the groups' stores up to then leave their queues, and what the
releases cover happens before the context's next C events, and is among the L events it has acquired (08 R220, R225); a poisoned word
raises its cause, with the FINFO of its storage (10 R300, R313). -/
def Obligations.RpopTakesOldestEntry : Prop :=
  ∀ (s : State) (x : Ctx) (d : BitVec 4), s.me? = some x →
    (∀ e rest, x.strm.returnQ = e :: rest → e.words.length ≤ 32 → (∀ w ∈ e.words, w.isSome) → WordsDone s x e.time →
      (∀ p ∈ e.poison, p = none) →
      ∃ (v : Mask) (u t : State), (∀ g i, g < 32 → i < 32 → v.getLsbD (32 * g + i) = ((e.words.getD g none).getD 0).getLsbD i) ∧
        exec (.rpop d) s = .next t ∧
        let y := retired ({ x with strm := { x.strm with returnQ := rest } }.wrMask d v) (x.pc + 1)
        let word (l : Link) : Prop := l = .ret s.cur.core s.cur.ctx e.time
        u = flushWhere (s.setMe y) (fun q => !q.host && q.agent.of s.cur.core s.cur.ctx && q.agent.grp.isSome && q.agent.path == .l &&
          s.releases.any (fun r => r.link == .ret s.cur.core s.cur.ctx e.time && r.agents.contains q.agent && decide (q.order ≤ r.time))) ∧
        mine t = y ∧ OnlyOrders u t ∧
        Covers u t (Released u word s.cur.core) (myPath s .c) ∧ Covers u t (Released u word s.cur.core) (myPath s .gotL) ∧
        ∀ (i : Nat) (w f : Late) (r : Release), u.late[i]? = some w → t.late[i]? = some f → r ∈ u.releases → word r.link →
          (∃ b ∈ w.read, b.time ≤ r.time ∧ ∃ a ∈ r.agents, b.view.has a = true) → ∃ b ∈ f.read, b.view.has (myPath s .gotL) = true) ∧
    (∀ e rest, x.strm.returnQ = e :: rest → (∃ w ∈ e.words, w = none) ∨ ¬ WordsDone s x e.time →
      exec (.rpop d) s = .next (s.setMe (waiting x (.rpop d)))) ∧
    (∀ e rest c fi, x.strm.returnQ = e :: rest → (∀ w ∈ e.words, w.isSome) → WordsDone s x e.time →
      e.poison.findSome? id = some (c, fi) → Trappable x →
      exec (.rpop d) s = .next (s.setMe (triggered x (ctrlTrig c true x.pc 0 0 fi)))) ∧
    (x.strm.returnQ = [] → Trappable x →
      exec (.rpop d) s = .next (s.setMe (triggered x (ctrlTrig 0x032 false x.pc 0 0 0))))

/-- REGROUP outside privileged mode, with count at most n and no open divergence, places its barrier marker; with the block queue
full it stalls; it traps REGROUPN, then REGROUPNEST; in a routine it ends the team with DOUBLETRAP of PRIVOP (03 R83, R84, 14 R386,
10 R273, R285). Model choice: that its traps come before the stall, with the block queue full too, log entry 48. -/
def Obligations.RegroupPlacesMarker : Prop :=
  ∀ (s : State) (x : Ctx) (k : BitVec 4) (n : BitVec 8), Acts s x [] [k] →
    let traps (c : Nat) : Prop := exec (.regroup k n) s = .next (s.setMe (triggered x (ctrlTrig c false x.pc 0 0 0)))
    (x.mode = .user → n.toNat + 1 ≤ x.n → x.strm.recon = [] → x.strm.blockQ.length < 256 →
      exec (.regroup k n) s = .next (s.setMe (regrouping s.freeCtr x k n))) ∧
    (x.mode = .user → n.toNat + 1 ≤ x.n → x.strm.recon = [] → 256 ≤ x.strm.blockQ.length →
      exec (.regroup k n) s = .next (s.setMe (waiting x (.regroup k n)))) ∧
    (Trappable x → (x.n < n.toNat + 1 → traps 0x037) ∧ (n.toNat + 1 ≤ x.n → x.strm.recon ≠ [] → traps 0x038)) ∧
    (x.mode ≠ .user → exec (.regroup k n) s = .next (terminate s s.cur.core s.cur.ctx 0x025 0x026))

/-- EWR of a shadow register writes it, of a read-only register nothing; EWR of STATE restarts a halted channel's transfer from its
first iteration (RETRY), or completes it (SKIP), and its waiters try again; ERD reads a shadow register, COMPLETE, NEXTID, STATE and,
of a halted channel, FAULT (07 R185, R189, R190). -/
def Obligations.EngineRegisters : Prop :=
  ∀ (s : State) (x : Ctx) (e : BitVec 8) (y : Chan),
    (s.core s.cur.core).chans[engCh e]? = some y →
    (∀ a, Acts s x [a] [] → engReg e < 0x1C →
      ∃ t, exec (.ewr a e) s = .next t ∧ mine t = retired x (x.pc + 1) ∧
        (t.core s.cur.core).chans[engCh e]? = some { y with shadow := y.shadow.set (engReg e) (shadowValue (engReg e) (x.rd a)) } ∧
        (∀ ch, ch ≠ engCh e → (t.core s.cur.core).chans[ch]? = (s.core s.cur.core).chans[ch]?) ∧ SameBytes s t) ∧
    (∀ a, Acts s x [a] [] → engReg e = 0x1C ∨ engReg e = 0x1D ∨ engReg e = 0x1F →
      exec (.ewr a e) s = .next (s.setMe (retired x (x.pc + 1)))) ∧
    (∀ a, Acts s x [a] [] → engReg e = 0x1E → ∃ t, exec (.ewr a e) s = .next t ∧ SameBytes s t ∧
      (mine t).pc = x.pc + 1 ∧ (mine t).wait = none ∧ (mine t).s = x.s ∧
      (∀ ch, ch ≠ engCh e → (t.core s.cur.core).chans[ch]? = (s.core s.cur.core).chans[ch]?) ∧
      let after (z : Chan) : Prop := (t.core s.cur.core).chans[engCh e]? = some z
      ((x.rd a).toNat % 4 = 1 → y.halted = true →
        after { y with halted := false, active := y.active.map (fun tr => { tr with landed := [] }) }) ∧
      (∀ tr, (x.rd a).toNat % 4 = 2 → y.halted = true → y.active = some tr →
        after { y with halted := false, active := y.queued, queued := none, complete := openId y }) ∧
      (((x.rd a).toNat % 4 = 0 ∨ (x.rd a).toNat % 4 = 3 ∨ y.halted = false) → after y) ∧
      ((x.rd a).toNat % 4 = 1 ∨ (x.rd a).toNat % 4 = 2 → ∀ k z d b c sc, k ≠ s.cur.ctx → (s.core s.cur.core).ctxs[k]? = some z →
        z.wait = some (.cwait b c sc) ∨ z.wait = some (.ecommit d c) → (t.ctx s.cur.core k).wait = none)) ∧
    ∀ d, s.me? = some x →
      (engReg e < 0x1C → exec (.erd d e) s = .next (s.setMe (retired (x.wr d (y.shadow.getD (engReg e) 0) false) (x.pc + 1)))) ∧
      (engReg e = 0x1C → exec (.erd d e) s = .next (s.setMe (retired (x.wr d (BitVec.ofNat 64 y.complete) false) (x.pc + 1)))) ∧
      (engReg e = 0x1D → exec (.erd d e) s = .next (s.setMe (retired (x.wr d (BitVec.ofNat 64 y.nextId) false) (x.pc + 1)))) ∧
      (engReg e = 0x1E → exec (.erd d e) s = .next (s.setMe (retired (x.wr d (BitVec.ofNat 64
        (y.active.isSome.toNat + 2 * y.queued.isSome.toNat + 4 * y.halted.toNat)) false) (x.pc + 1)))) ∧
      (engReg e = 0x1F → y.halted = true → 0x80 ≤ y.faultCause → y.faultCause < 0x180 →
        exec (.erd d e) s = .next (s.setMe (retired (x.wr d (BitVec.ofNat 64
          (y.faultAddr.toNat % 2 ^ 56 + 2 ^ 56 * (y.faultCause - 0x80))) false) (x.pc + 1))))

/-- ECOMMIT with a free queued slot copies the shadow set into it under NEXTID, raises the presence count of every scratchpad line
the nest writes, and writes the identifier plus one to s[D]; with the slot occupied it waits, or raises the fault of a halted
channel (07 R187). Its release covers the transfer's X events and what was ordered before them; where the nest writes scratchpad, an event
of path C stands at it (08 R208, R220, R228). CWAIT completes once COMPLETE, or what it was when the team was saved (10 R290), has reached
its identifier, acquires what the transfers release, at its scope, waits while its transfers move, raises a halted channel's fault, and
traps CWAITAHEAD beyond NEXTID (07 R188, R193, 12 R349, 08 R220). Model choices: the form of a halted channel's fault is
deduced, log entry 13; releases and events, log entry 5; the identifiers of a saved team, log entry 42. -/
def Obligations.TransferWords : Prop :=
  (∀ (s : State) (x : Ctx) (d : BitVec 5) (c : BitVec 3) (y : Chan), s.me? = some x →
    (s.core s.cur.core).chans[c.toNat]? = some y →
    (y.queued = none → ∃ t tr, exec (.ecommit d c) s = .next t ∧
      (t.core s.cur.core).chans[c.toNat]? = some { y with queued := some tr, nextId := y.nextId + 1 } ∧
      tr.id = y.nextId ∧ tr.regs = y.shadow ∧ tr.time = s.freeCtr ∧ tr.lines = tr.writtenLines ∧
      (∀ c l, c < s.cores.length →
        presenceOf (t.core c) l = presenceOf (s.core c) l + (tr.lines.filter (fun p => p = (c, l))).length) ∧
      mine t = { retired (x.wr d (BitVec.ofNat 64 (y.nextId + 1)) false) (x.pc + 1) with
        recent := x.recent.filter (fun r => decide (r.reg ≠ d)) } ∧ SameBytes s t ∧ t.queue = s.queue ∧
      t.late = s.late ++ (if tr.lines = [] then [] else [{
        agent := myPath s .c, order := s.freeCtr, rmw := false, scratch := none, cells := [], before := [], read := [], shown := [] }]) ∧
      t.releases = s.releases ++ [releasing s (.transfer s.cur.core c.toNat y.nextId)
        [{ core := s.cur.core, ctx := s.cur.ctx, grp := some c.toNat, path := .x }, myPath s .w] [] (.cores [s.cur.core])]) ∧
    (y.queued.isSome → y.halted = false → exec (.ecommit d c) s = .next (s.setMe (waiting x (.ecommit d c)))) ∧
    (y.queued.isSome → y.halted = true → Trappable x →
      ∃ fa fi, exec (.ecommit d c) s = .next (s.setMe (triggered x (ctrlTrig y.faultCause true x.pc fa 1 fi))))) ∧
  (∀ (s : State) (x : Ctx) (a : BitVec 5) (c scope : BitVec 3) (y : Chan), Acts s x [a] [] →
    (s.core s.cur.core).chans[c.toNat]? = some y →
    let done := max y.complete (x.passed.getD c.toNat 1)
    ((x.rd a).toNat ≤ done → (x.rd a).toNat ≤ y.nextId →
      ∃ t, exec (.cwait a c scope) s = .next (t.setMe (retired x (x.pc + 1))) ∧ OnlyOrders s t ∧
        (∀ p ∈ [Path.c, .gotX], Covers s t (Released s (fun l => ∃ id, id < (x.rd a).toNat ∧ l = .transfer s.cur.core c.toNat id)
          s.cur.core) (myPath s p)) ∧
        (Invalidates s x scope.toNat → Covers s t InMemory (myPath s .c))) ∧
    (done < (x.rd a).toNat → (x.rd a).toNat ≤ y.nextId → y.halted = false →
      exec (.cwait a c scope) s = .next (s.setMe (waiting x (.cwait a c scope)))) ∧
    (Trappable x → done < (x.rd a).toNat → (x.rd a).toNat ≤ y.nextId → y.halted = true →
      ∃ fa fi, exec (.cwait a c scope) s = .next (s.setMe (triggered x (ctrlTrig y.faultCause true x.pc fa 1 fi)))) ∧
    (Trappable x → y.nextId < (x.rd a).toNat →
      exec (.cwait a c scope) s = .next (s.setMe (triggered x (ctrlTrig 0x163 false x.pc 0 0 0)))))

/-- FENCE, as a release at cluster scope or wider, waits until the team's remote stores are acknowledged; XFENCE too, and for path U
until each matrix loop that RPOP acquired is complete; IFENCE until every descriptor has completed and the remote accesses are performed.
They then retire. A release makes the stores it waits for leave their queues, covers what happens before it and orders it before the X
writes of later transfers; an acquire that has read a write after a fence's release, each scope holding the other's core, orders what
that release covers before the context's later events of every path, and sees every write of memory where it invalidates L1; XFENCE orders
what happens before it on path P, of L and X what the context has acquired, before its path Q, and with P = Q is both sides of a fence;
at pool and system scope a release checks every checked-out pool line in; after IFENCE the words of the team's code fetch as the writes
left them that the context or its groups' descriptors made or acquired, and from the host window as it stands (07 R183, R193, R203, 08
R210, R211, R216, R221, R222, R225, R226, R229, 15 R421). Model choices: the form of queues, releases and orders, log entry 5. -/
def Obligations.FencesRetire : Prop :=
  (∀ (s : State) (x : Ctx) (scope : BitVec 3), s.me? = some x →
    let y := retired x (x.pc + 1)
    (∀ o : BitVec 2, (o.getLsbD 1 = true → StoresAcked x ∨ scope.toNat < 2) →
      let u := fenceFlush s (o.getLsbD 1) scope
      let reach := reachOf s x s.cur.core scope.toNat
      ∃ t, exec (.fence scope o) s = .next ((if o.getLsbD 1 then released t scope else t).setMe y) ∧
        OnlyOrders { u with releases := t.releases } t ∧
        t.releases = u.releases ++ (if o.getLsbD 1 then [releasing s .fence [myPath s .c] (ctxLater s) reach] else []) ∧
        (o.getLsbD 1 = true → Covers u t (fun e => e.covered (myPath s .c) = true) (myPath s .w) ∧
          (o.getLsbD 0 = true → ∀ ch, Covers u t (fun e => e.covered (myPath s .c) = true) (chanAgent s.cur.core s.cur.ctx ch))) ∧
        (o.getLsbD 0 = true → ∀ v ∈ ctxLater s, ∀ a, v.has a = true →
          Covers u t (FencedTo u reach s.cur.core (ctxReaders s)) a ∧ (Invalidates u x scope.toNat → Covers u t InMemory a))) ∧
    (∀ o : BitVec 2, o.getLsbD 1 = true → 2 ≤ scope.toNat → ¬ StoresAcked x →
      exec (.fence scope o) s = .next (s.setMe (waiting x (.fence scope o)))) ∧
    (∀ p q, EarlierDone s x scope p →
      let u := fenceFlush s (decide (p = 0)) scope
      let reach := reachOf u x s.cur.core scope.toNat
      let from_ := earlierPath (myPath s) false p
      ∃ t, exec (.xfence scope p q) s = .next ((released t scope).setMe y) ∧ OnlyOrders { u with releases := t.releases } t ∧
        t.releases = u.releases ++ [releasing s (if p = q then .fence else .cross) from_ [laterPath s q] reach] ∧
        ∀ a, (laterPath s q).has a = true → Covers u t (fun e => ∃ o ∈ from_, e.covered o = true) a ∧
          (p = q → Covers u t (FencedTo u reach s.cur.core from_) a ∧ (Invalidates u x scope.toNat → Covers u t InMemory a))) ∧
    (∀ p q, ¬ EarlierDone s x scope p → exec (.xfence scope p q) s = .next (s.setMe (waiting x (.xfence scope p q)))) ∧
    (x.strm.blockQ = [] → AccessesDone x →
      let u := flushTeam s s.cur.core s.cur.ctx
      ∃ t : State, exec .ifence s = .next (t.setMe y) ∧ t = { u with launches := t.launches } ∧
        t.launches.map noCode = u.launches.map noCode ∧
        ∀ l ∈ t.launches, l.part = x.part → l.id = x.launch → ∀ b ∈ l.oldCode,
          (inHost u b.addr = true ∨ ∀ old e new, u.late = old ++ e :: new → WroteAt e none b.addr → (∀ f ∈ new, ¬ WroteAt f none b.addr) →
            e.covered (myPath s .c) = true ∨ (e.agent.of s.cur.core s.cur.ctx = true ∧ e.agent.path = .l)) →
          (s.cur.core, s.cur.ctx) ∈ b.fenced) ∧
    (x.strm.blockQ ≠ [] ∨ ¬ AccessesDone x → exec .ifence s = .next (s.setMe (waiting x .ifence)))) ∧
  ∀ (s : State) (x : Ctx) (c d scope : Nat),
    (reachOf s x c 0).has d = false ∧ ((reachOf s x c 1).has d = true ↔ d = c) ∧
    ((reachOf s x c 2).has d = true ↔ d = c ∨ ∃ cl, x.cluster? s = some cl ∧ ∃ m ∈ cl.cores, m.1 = d) ∧
    ((reachOf s x c 3).has d = true ↔ d / 48 = c / 48) ∧ (4 ≤ scope → (reachOf s x c scope).has d = true)

/-- KTRIG waits until every descriptor has completed and its release's work is done: the remote stores acknowledged, the remote reads
performed (04 R116, 08 R222, 18 R430). A launched team's then sets the team's trigger; its stores leave their queues, and its release at
device scope covers its C events, its groups' L events and what happened before them (04 R117, 08 R220). With the trigger set already, and
in a child team, KTRIG retires and changes nothing else (04 R116). KWAIT retires once every producer of its launch is ready, acquires at
device scope what their triggers released, and waits else; in a routine both end the team with DOUBLETRAP of PRIVOP (04 R116, 10 R273,
R285). JWAIT retires when its counter reads zero, acquires at device scope what the teams released whose decrements its read returned,
and waits while it does not; a child team traps JWAITCHILD (03 R100, 08 R220, 13 R373). Model choices: the form of releases and events,
log entry 5. -/
def Obligations.TriggersAndWaits : Prop :=
  (∀ (s : State) (x : Ctx), s.me? = some x →
    (x.mode = .user → x.strm.blockQ = [] → StoresAcked x → ReadsDone x → x.child = none → x.trigger = false →
      ∃ t, exec .ktrig s = .next t ∧ mine t = retired { x with trigger := true } (x.pc + 1) ∧ SameBytes (teamFlush s) t ∧
        t.queue = (teamFlush s).queue ∧ t.late = (teamFlush s).late ∧ t.releases = (teamFlush s).releases ++ [kernelRelease s x] ∧
        ∀ l cl, (teamFlush s).launch? x.part x.launch = some l → l.placed[x.cluster]? = some cl →
          ∃ l', t.launch? x.part x.launch = some l' ∧
            l'.placed[x.cluster]? = some { cl with triggers := cl.triggers.set x.team true }) ∧
    (x.mode = .user → x.strm.blockQ = [] → StoresAcked x → ReadsDone x → x.child.isSome ∨ x.trigger = true →
      exec .ktrig s = .next (s.setMe (retired x (x.pc + 1)))) ∧
    (x.mode = .user → (x.strm.blockQ ≠ [] ∨ ¬ StoresAcked x ∨ ¬ ReadsDone x) → exec .ktrig s = .next (s.setMe (waiting x .ktrig))) ∧
    (x.mode = .user → (∀ l, s.launch? x.part x.launch = some l → ∀ p ∈ l.producers, p = 0 ∨ producerReady s x.part p = true) →
      ∃ t, exec .kwait s = .next (t.setMe (retired x (x.pc + 1))) ∧ OnlyOrders s t ∧
        Covers s t (Released s (fun k => ∃ l p, s.launch? x.part x.launch = some l ∧ p ∈ l.producers ∧ k = .trigger x.part p)
          s.cur.core) (myPath s .c) ∧ Covers s t InMemory (myPath s .c)) ∧
    (x.mode = .user → (∃ l, s.launch? x.part x.launch = some l ∧ ∃ p ∈ l.producers, p ≠ 0 ∧ producerReady s x.part p = false) →
      exec .kwait s = .next (s.setMe (waiting x .kwait))) ∧
    (x.mode ≠ .user → exec .ktrig s = .next (terminate s s.cur.core s.cur.ctx 0x025 0x026) ∧
      exec .kwait s = .next (terminate s s.cur.core s.cur.ctx 0x025 0x026))) ∧
  (∀ (s : State) (x : Ctx) (a : BitVec 5) (o : BitVec 16) (pa : Nat), Acts s x [a] [] →
    (x.child = none → checkAccess s x.part (x.asid s) .sp pathS (x.rd a + o.signExtend 64) 4 false = .ok pa →
      tlbMisses s s.cur.core (x.asid s) [x.rd a + o.signExtend 64] = [] → loadPoison s (myPath s .s) pa 4 = none →
      spillHit s pa 4 = [] →
      (∀ l, s.launch? x.part x.launch = some l →
        l.refillCause = none ∧ ∀ f ∈ l.joinFails, f.1 ≠ x.rd a + o.signExtend 64) →
      (seenValue s (myPath s .s) pa 4 = 0 → ∃ t, exec (.jwait a o) s = .next (t.setMe (retired x (x.pc + 1))) ∧ OnlyOrders s t ∧
        (∀ p ∈ [Path.c, .gotS], Covers s t (fun e => ∃ r ∈ s.releases, (∃ part l, r.link = .join part l) ∧
          r.reach.has s.cur.core = true ∧ r.covers e = true ∧ ∃ i w, i ∈ returned s (myPath s .s) none (placesOn pa 4) ∧
            s.late[i]? = some w ∧ w.order = r.time ∧ w.agent ∈ r.agents) (myPath s p)) ∧
        Covers s t InMemory (myPath s .c)) ∧
      (seenValue s (myPath s .s) pa 4 ≠ 0 → exec (.jwait a o) s = .next (s.setMe (waiting x (.jwait a o))))) ∧
    (x.child.isSome → Trappable x →
      exec (.jwait a o) s = .next (s.setMe (triggered x (ctrlTrig 0x144 false x.pc 0 0 0)))))

/-- In a routine CRD reads every context register and CWR writes those that may be written; a read of FRDATA gives the freeze-record
word at FRIDX and moves FRIDX on (10 R271, R272). -/
def Obligations.ContextRegisters : Prop :=
  ∀ (s : State) (x : Ctx), s.me? = some x → x.mode ≠ .user →
    (∀ (d : BitVec 5) (e : BitVec 8) (v : W64), ctxRegister x e.toNat = some v →
      exec (.crd d e) s = .next (s.setMe (retired (x.wr d v false) (x.pc + 1)))) ∧
    (∀ (d : BitVec 5) (f : Frozen), x.frozen = some f → x.fridx.toNat < 2 ^ 20 →
      ∃ fv, let y := retired { x.wr d (recordWord f x.fridx.toNat fv) false with
          fridx := BitVec.ofNat 64 ((x.fridx.toNat + 1) % 2 ^ 20) } (x.pc + 1)
        exec (.crd d 0x09) s = .next (s.setMe y) ∧ exec (.frdataRead d) s = .next (s.setMe y)) ∧
    (∀ (a : BitVec 5) (e : BitVec 8) (y : Ctx), x.poison a = none → wroteCtx x e.toNat (x.rd a) = some y →
      exec (.cwr a e) s = .next (s.setMe (retired y (x.pc + 1))))

/-- Outside a routine CRD, CWR and a read of FRDATA trap CPRIV, and ERET traps ERETNONE (10 R272, R282). TRAP and BRK trigger the
freeze with EPC at the next word; unassigned and reserved encodings trap CILLOP and CRESFIELD at themselves, with no other effect
(09 R237, R250, 10 R276, R288). -/
def Obligations.ControlTraps : Prop :=
  (∀ (s : State) (x : Ctx), s.me? = some x → Trappable x →
    (∀ d e, exec (.crd d e) s = .next (s.setMe (triggered x (ctrlTrig 0x023 false x.pc 0 0 0)))) ∧
    (∀ d, exec (.frdataRead d) s = .next (s.setMe (triggered x (ctrlTrig 0x023 false x.pc 0 0 0)))) ∧
    (∀ a e, x.poison a = none → exec (.cwr a e) s = .next (s.setMe (triggered x (ctrlTrig 0x023 false x.pc 0 0 0)))) ∧
    (x.frozen = none → exec .eret s = .next (s.setMe (triggered x (ctrlTrig 0x024 false x.pc 0 0 0))))) ∧
  (∀ (s : State) (x : Ctx), s.me? = some x → Trappable x →
    (∀ k : BitVec 6, exec (.trap k) s = .next (s.setMe (triggered x (ctrlTrig (0x040 + k.toNat) false (x.pc + 1) 0 0 0)))) ∧
    exec .brk s = .next (s.setMe (triggered x (ctrlTrig 0x022 false (x.pc + 1) 0 0 0))) ∧
    (∀ w, exec (.cillop w) s = .next (s.setMe (triggered x (ctrlTrig 0x020 false x.pc 0 0 0)))) ∧
    ∀ w, exec (.cresfield w) s = .next (s.setMe (triggered x (ctrlTrig 0x021 false x.pc 0 0 0))))

/-- A cause in a routine ends the team with DOUBLETRAP and the cause in FINFO; without a privileged image the team ends with the
cause; while a freeze is triggered the cause is not taken (10 R278, R285, R286). Model choices: a word whose cause is dropped while
a freeze is triggered runs again later, log entry 10. -/
def Obligations.TrapTaking : Prop :=
  ∀ (s : State) (c k : Nat) (t : Trig),
    ((s.ctx c k).mode ≠ .user → takeTrap s c k t = terminate s c k 0x025 (BitVec.ofNat 64 t.cause)) ∧
    ((s.ctx c k).mode = .user → (s.ctx c k).trig.isSome → takeTrap s c k t = s) ∧
    ((s.ctx c k).mode = .user → (s.ctx c k).trig = none → (s.ctx c k).trapVec.msb = true →
      takeTrap s c k t = terminate s c k t.cause t.finfo) ∧
    (Trappable (s.ctx c k) → takeTrap s c k t = s.setCtx c k (triggered (s.ctx c k) t))

/-- ERET with no work of the routine left resumes the frozen work: the control slice at EPC, the stream, trigger, taints, group
positions and unfolding descriptors as the record holds them, user mode; what was in flight when the freeze came is in flight again, and
a fault of its stores is raised as before it (10 R278); with work left, a descriptor, a result not yet written, a push or a spawn record,
it waits. A pre-emption held meanwhile is taken at once (10 R277, R282, R290, R294). The ERET of a restore routine,
further: vector registers from .keep up read zero, those below keep their 32 low bits with the extensions of the record, and the
matrix loops of the record go on (10 R291, R292). Model choices: that an ERET with work left waits and is tried again, that the
trapping word is passed over, and what a restored context holds, log entries 10, 14 and 42. -/
def Obligations.EretResumes : Prop :=
  (∀ (s : State) (x : Ctx) (f : Frozen), s.me? = some x → x.frozen = some f →
    (¬ RoutineDone x → exec .eret s = .next (s.setMe (waiting x .eret))) ∧
    (RoutineDone x → (∀ r ∈ x.groups, ∀ v ∈ r.outs, v.conflict = 0) → x.mode = .trap → skipsWord x f.trig f.trig.group = false → x.held = [] → x.trig = none →
      ∃ t, exec .eret s = .next t ∧
        (mine t).pc = x.epc ∧ (mine t).mode = .user ∧ (mine t).frozen = none ∧ (mine t).wait = none ∧
        (mine t).strm = f.stream ∧ (mine t).trigger = f.trigger ∧ (mine t).staint = f.staint ∧ (mine t).s = x.s ∧
        ((mine t).trig = if x.pendPreempt then some (ctrlTrig 0x170 false x.epc 0 0 0 |> fun g => { g with preempt := true })
                         else none) ∧
        (mine t).groups.length = x.groups.length ∧
        ∀ (g : Nat) (r : Sys2Proof.Machine.Group) (p : GroupPos), x.groups[g]? = some r → f.pcs[g]? = some p →
          ∃ r' : Sys2Proof.Machine.Group, (mine t).groups[g]? = some r' ∧ r'.pos = { p with heldOuts := [], status := resumedStatus p } ∧
            r'.outs = p.heldOuts ∧ r'.vregs = r.vregs ∧ r'.gregs = r.gregs ∧
            r'.loops = r.loops ∧ (∀ st ∈ r'.rstores, st.frozen = false) ∧
            ∀ o, f.groups[g]? = some o → r'.unf = o.unf ∧ r'.origin = o.origin)) ∧
  (∀ (s : State) (x : Ctx) (f : Frozen), s.me? = some x → x.frozen = some f → RoutineDone x →
    (∀ r ∈ x.groups, ∀ v ∈ r.outs, v.conflict = 0) → x.mode = .restore → skipsWord x f.trig f.trig.group = false → x.held = [] → x.trig = none → x.pendPreempt = false →
    recordedFaults f s.cur.ctx = [] →
    ∃ t, exec .eret s = .next t ∧ (mine t).pc = x.epc ∧ (mine t).mode = .user ∧ (mine t).frozen = none ∧
      (mine t).strm = f.stream ∧ (mine t).s = x.s ∧ (mine t).trig = none ∧ (mine t).groups.length = x.groups.length ∧
      ∀ (g : Nat) (r o : Sys2Proof.Machine.Group), x.groups[g]? = some r → f.groups[g]? = some o →
        ∃ r' : Sys2Proof.Machine.Group, (mine t).groups[g]? = some r' ∧ r'.loops = o.loops.map (fun l => { l with told := [] }) ∧ r'.unf = o.unf ∧ r'.gregs = r.gregs ∧
          r'.vregs.length = r.vregs.length ∧
          ∀ (k i : Nat) (v w : VReg) (e h : Elem), r.vregs[k]? = some v → v[i]? = some e → o.vregs[k]? = some w → w[i]? = some h →
            ∃ v', r'.vregs[k]? = some v' ∧
              (k < (x.img s).keep → v'[i]? = some (BitVec.ofNat 36 (e.toNat % 2 ^ 32 + 2 ^ 32 * (h.toNat / 2 ^ 32)))) ∧
              ((x.img s).keep ≤ k → i < 32 → v'[i]? = some 0))

/-- EXIT releases the context: of a user team whose work and transfers are done, its stores having left their queues, of a save routine
whose work is done, and of a trap or restore routine, whose team it terminates; a team with work left waits (08 R216, 10 R284, R295, 12
R351).
Model choices: the waiting word is tried again, log entry 7. -/
def Obligations.ExitReleasesContext : Prop :=
  ∀ (s : State) (x : Ctx), s.me? = some x →
    (x.mode = .user → groupsDone x = true → (∀ y ∈ (s.core s.cur.core).chans,
        (∀ tr, y.queued = some tr → tr.by x s.cur.ctx = false) ∧ ∀ tr, y.active = some tr → tr.by x s.cur.ctx = false) →
      ∃ t, exec .exit s = .next t ∧ mine t = Ctx.free ∧ (∀ q ∈ t.queue, q.agent.of s.cur.core s.cur.ctx = false) ∧
        (x.child = none → ∀ l cl, s.launch? x.part x.launch = some l → l.placed[x.cluster]? = some cl →
          ∃ l' cl', t.launch? x.part x.launch = some l' ∧ l'.placed[x.cluster]? = some cl' ∧
            cl'.exited = cl.exited.set x.team true)) ∧
    (x.mode = .user → groupsDone x = false → exec .exit s = .next (s.setMe (waiting x .exit))) ∧
    (x.mode = .save → groupsDone x = false → exec .exit s = .next (s.setMe (waiting x .exit))) ∧
    (x.mode = .save → groupsDone x = true → ∃ t, exec .exit s = .next t ∧ mine t = Ctx.free ∧
      ∀ l, s.launch? x.part x.launch = some l → ∃ l', t.launch? x.part x.launch = some l' ∧
        ∃ sv, l'.saved = l.saved ++ [sv] ∧ sv.body = { x with wait := none } ∧
          sv.ids = (s.core s.cur.core).chans.map (·.nextId)) ∧
    (x.mode = .trap ∨ x.mode = .restore →
      exec .exit s = .next (terminate s s.cur.core s.cur.ctx (x.cause.toNat % 512) x.finfo) ∧
      mine (terminate s s.cur.core s.cur.ctx (x.cause.toNat % 512) x.finfo) = Ctx.free)

/-- A word of the integer or unary group issues, and each active lane of each row of D will receive, 2 or 4 slots later, the exact
result reduced to its type (14 R393-R396, 02 R52, R59, R60). -/
def Obligations.IntegerLaneResults : Prop :=
  ∀ (i : Instr) (s : State) (x : Ctx) (g : Machine.Group) (l : IntLane), intLane i = some l →
    LaneActs s x g l.w.hdr false → l.uses.ok l.w → OperandsReady (Env.of s x g) (l.ops (Env.of s x g)) →
    ∃ wr, exec i s = .next (issued s x g l.w.hdr 1 .none s g wr) ∧
      LaneWrites (Env.of s x g) l.w (decide (l.w.ty.toNat = 10 ∨ l.w.ty.toNat = 11)) l.lat (l.value (Env.of s x g)) wr

/-- VBFX extracts the field of position B[4:0] and length B[13:8], at most 32, zero- or sign-extended; VBFI puts the low bits of A
in that field of C (14 R401, R402). FABS clears and FNEG flips the sign bit of the type, whatever the value, and raise no flag (12
R356). -/
def Obligations.BitFieldAndSignResults : Prop :=
  (∀ (ins : Bool) (w : LaneWord) (s : State) (x : Ctx) (g : Machine.Group), LaneActs s x g w.hdr false →
    Uses.ok { d := true, a := true, b := true, c := ins, strideC := ins, ty := [0, 1], md := [0], tile := true, x := 0, lit := true } w →
    let e := Env.of s x g
    OperandsReady e ([asTile e w (Opd.vw w.d false) 1, asTile e w (Opd.vr w.a false) w.sa] ++
      (if w.lit then [] else [asTile e w (Opd.vr w.b false) w.sb]) ++ (if ins then [asTile e w (Opd.vr w.c false) w.sc] else [])) →
    let a (r i : Nat) : Nat := e.val (w.a.toNat + r * w.sa.toNat) i false
    let b (r i : Nat) : Nat := if w.lit then w.x.toNat else e.val (w.b.toNat + r * w.sb.toNat) i false
    let c (r i : Nat) : Nat := e.val (w.c.toNat + r * w.sc.toNat) i false
    let p (r i : Nat) : Nat := b r i % 32
    let n (r i : Nat) : Nat := min (b r i / 256 % 64) 32
    ∃ wr val, exec (if ins then .vbfi w else .vbfx w) s = .next (issued s x g w.hdr 1 .none s g wr) ∧
      LaneWrites e w false 2 val wr ∧
      ∀ r i k, k < 32 → (val r i).testBit k =
        if ins then (if p r i ≤ k ∧ k < p r i + n r i then (a r i).testBit (k - p r i) else (c r i).testBit k)
        else if n r i = 0 then false
        else if k < n r i then (a r i).testBit (k + p r i)
        else w.ty = 0 && (a r i).testBit (p r i + n r i - 1)) ∧
  (∀ (neg : Bool) (w : LaneWord) (s : State) (x : Ctx) (g : Machine.Group), LaneActs s x g w.hdr false →
    Uses.ok { d := true, a := true, b := false, c := false, strideC := false, ty := [6, 7, 8], md := [0], tile := true, x := 0, lit := false } w →
    let e := Env.of s x g
    OperandsReady e [asTile e w (Opd.vw w.d false) 1, asTile e w (Opd.vr w.a false) w.sa] →
    let top := if w.ty = 6 then 31 else 15
    ∃ wr val, exec (if neg then .fneg w else .fabs w) s = .next (issued s x g w.hdr 1 .none s g wr) ∧
      LaneWrites e w false 4 val wr ∧
      ∀ r i k, k < 32 → (val r i).testBit k =
        if k < top then (e.val (w.a.toNat + r * w.sa.toNat) i false).testBit k
        else if k = top then neg && !(e.val (w.a.toNat + r * w.sa.toNat) i false).testBit k else false)

/-- A floating or conversion word that raises no enabled exception issues; each active lane will receive its result, and the flags
its lanes raised are ORed into GSTAT with it (05 R127-R134, R139, 12 R358, R363, R364, 13 R377); `RoundedFloats` says what the results
are. An enabled exception of a floating word traps precisely: cause 0x014 plus its number, FMASK the lanes that raised it, and the word writes nothing (05 R132). -/
def Obligations.FloatLaneResults : Prop :=
  (∀ (i : Instr) (s : State) (x : Ctx) (g : Machine.Group) (l : FloatLane), floatLane g.fmt i = some l →
    LaneActs s x g l.w.hdr false → l.uses.ok l.w → OperandsReady (Env.of s x g) (l.ops (Env.of s x g)) →
    ∀ fl, FlagsOf (Env.of s x g) l.w (fun r i => (l.res (Env.of s x g) r i).2) fl → firstEnabled g.gstat fl = none →
    ∃ wr, exec i s = .next (issued s x g l.w.hdr 1 .none s g (wr ++ Pend.flags l.lat fl)) ∧
      LaneWrites (Env.of s x g) l.w false l.lat (fun r i => (l.res (Env.of s x g) r i).1) wr) ∧
  (∀ (i : Instr) (s : State) (x : Ctx) (g : Machine.Group) (l : FloatLane) (k : Nat), floatLane g.fmt i = some l →
    LaneActs s x g l.w.hdr false → l.uses.ok l.w → OperandsReady (Env.of s x g) (l.ops (Env.of s x g)) →
    ∀ fl, FlagsOf (Env.of s x g) l.w (fun r i => (l.res (Env.of s x g) r i).2) fl → firstEnabled g.gstat fl = some k →
    ∃ m : Lanes, exec i s = .next (laneTrap s s.cur.core s.cur.ctx s.cur.group (0x014 + k) false true 0 m 0) ∧
      ∀ i, i < 32 → (m.getLsbD i = true ↔ ((Env.of s x g).lanes l.w).getLsbD i = true ∧
        ∃ r, r < (Env.of s x g).rows l.w ∧ ((l.res (Env.of s x g) r i).2).getLsbD k = true))

/-- ACVT writes the value its accumulator element has under FMT's row, converted to its type; its flags are sticky only; an FMT
outside the rows traps FMTTYPE (05 R144, R145, 12 R340, R341). -/
def Obligations.AcvtResults : Prop :=
  ∀ (w : LaneWord) (s : State) (x : Ctx) (g : Machine.Group), LaneActs s x g w.hdr false →
    Uses.ok { noUses with d := true, a := true, ty := [0, 6, 8, 9], md := convModes w, tile := true } w →
    let e := Env.of s x g
    OperandsReady e [asTile e w (Opd.vw w.d false) 1, asTile e w (Opd.vr w.a false) w.sa] →
    (∀ p, productOf g.fmt = some p →
      let res (r i : Nat) : Nat × W32 :=
        acvtRes w.ty.toNat w.md (fmtEA g.fmt) (accValue p (e.elem (w.a.toNat + r * w.sa.toNat) i).toNat)
      ∀ fl, FlagsOf e w (fun r i => (res r i).2) fl →
        ∃ wr, exec (.acvt w) s = .next (issued s x g w.hdr 1 .none s g (wr ++ Pend.flags 4 fl)) ∧
          LaneWrites e w false 4 (fun r i => (res r i).1) wr) ∧
    (productOf g.fmt = none →
      exec (.acvt w) s = .next (laneTrap s s.cur.core s.cur.ctx s.cur.group 0x012 false true 0 e.mask 0))

/-- FADD, FSUB, FMUL, FFMA, FRCP and FCVT of finite operands give the exact result rounded once as MOD says, subnormal numbers
included, with the flags of the rounding, and ACVT to F32 and BF16 the element's value, which is the 36-bit integer over 2^14, over 1, or
the F36 number. FMIN and FMAX choose an operand, −0 below +0, a number before a NaN. FRSQ rounds the inverse root correctly; FEXP2 and
FLOG2 are exact at integers and at powers of two, lie between those on both sides else, and are the nearest number at one half and at
three; the four have the special cases of R129. FCVT to an integer type rounds and clamps; LCVT to L6 takes the nearest code, and from L6
rounds the code's value (05 R127-R129, R134, R137, R139, R142, R144, 12 R358, R363, R365, 13 R377). Model choice: an overflowing result
is infinity in every mode, deduced, log entry 50. -/
def Obligations.RoundedFloats : Prop :=
  (∀ (fmt : W32) (w : LaneWord) (l : FloatLane) (a b c : Nat),
    let ty := w.ty.toNat
    let q := floatValue ty
    let rounds (v : ℚ) : Prop := (v ≠ 0 → Rounded ty w.md v (l.f a b c)) ∧
      (v = 0 → FiniteFloat ty (l.f a b c).1 ∧ q (l.f a b c).1 = 0 ∧ (l.f a b c).2 = 0)
    ty = 6 ∨ ty = 7 ∨ ty = 8 →
    (FiniteFloat ty a → FiniteFloat ty b →
      (floatLane fmt (.fadd w) = some l → rounds (q a + q b)) ∧ (floatLane fmt (.fsub w) = some l → rounds (q a - q b)) ∧
      (floatLane fmt (.fmul w) = some l → rounds (q a * q b)) ∧
      (FiniteFloat ty c → floatLane fmt (.ffma w) = some l → rounds (q a * q b + q c))) ∧
    (FiniteFloat ty a → q a ≠ 0 → w.md = 0 ∨ w.md = 4 → floatLane fmt (.frcp w) = some l → rounds (1 / q a)) ∧
    (floatLane fmt (.fcvt w) = some l →
      let src := w.x.toNat % 16
      (src ≤ 5 → rounds (readInt src a)) ∧ (6 ≤ src → FiniteFloat src a → rounds (floatValue src a)) ∧
      (6 ≤ src → IsNan src a → l.f a b c = (nanFloat ty, if signalled src a then 1 else 0))) ∧
    (floatLane fmt (.fmin w) = some l → ChosenFloat ty false a b (l.f a b c)) ∧
    (floatLane fmt (.fmax w) = some l → ChosenFloat ty true a b (l.f a b c)) ∧
    (w.md = 0 ∨ w.md = 4 →
      (floatLane fmt (.frcp w) = some l → TransSpecial ty w.md 0 a (l.f a b c)) ∧
      (floatLane fmt (.frsq w) = some l → TransSpecial ty w.md 1 a (l.f a b c) ∧
        (FiniteFloat ty a → 0 < q a → InverseRoot ty (q a) (l.f a b c))) ∧
      (floatLane fmt (.fexp2 w) = some l → TransSpecial ty w.md 2 a (l.f a b c) ∧
        (FiniteFloat ty a → PowerOfTwo ty w.md (q a) (l.f a b c)) ∧ (ty = 6 → a = 0x3F000000 → l.f a b c = (0x3FB504F3, 0x10))) ∧
      (floatLane fmt (.flog2 w) = some l → TransSpecial ty w.md 3 a (l.f a b c) ∧
        (FiniteFloat ty a → 0 < q a → Logarithm ty w.md (q a) (l.f a b c)) ∧
        (ty = 6 → a = 0x40400000 → l.f a b c = (0x3FCAE00D, 0x10)))) ∧
    (floatLane fmt (.lcvt w) = some l →
      let v := codeValue (BitVec.ofNat 6 (fmt.toNat / 2 ^ 18)).toInt (a % 64)
      rounds v)) ∧
  (∀ (fmt : W32) (w : LaneWord) (l : FloatLane) (a b c : Nat),
    let src := w.x.toNat % 16
    let r := l.f a b c
    (floatLane fmt (.fcvt w) = some l → w.ty.toNat ≤ 5 → ConvertedInt w.ty.toNat src w.md a r) ∧
    (floatLane fmt (.lcvt w) = some l → w.ty = 9 →
      let code := CodeOf (BitVec.ofNat 6 (fmt.toNat / 2 ^ 18)).toInt
      (src ≤ 5 → code (readInt src a) r) ∧ (6 ≤ src → FiniteFloat src a → code (floatValue src a) r) ∧
      (6 ≤ src → IsNan src a → r = (0x10, 1)) ∧
      ∀ neg, 6 ≤ src → ownBits src a = infFloat src neg → r = (if neg then 0x2F else 0x0F, 0x14))) ∧
  (∀ (ty : Nat) (md : BitVec 3) (scale : Int) (x : FVal) (v : ℚ), ty = 6 ∨ ty = 8 → ExactValue x v → v ≠ 0 →
    Rounded ty md v (acvtRes ty md scale x)) ∧
  ∀ a : Nat, a < 2 ^ 36 →
    let z : Int := if 2 ^ 35 ≤ a then (a : Int) - 2 ^ 36 else a
    ExactValue (accValue .l6 a) ((z : ℚ) / 2 ^ 14) ∧ ExactValue (accValue .int8 a) z ∧
    (FiniteFloat 36 a → ExactValue (accValue .bf16 a) (floatValue 36 a))

/-- VCMP sets bit i of g[D] for the active lanes whose condition holds, four slots later (14 R403, 12 R361). FCMP likewise for the
quiet and signalling conditions; the flags of its lanes are sticky, and an enabled one traps (12 R360, R361, 05 R131, R132). -/
def Obligations.CompareResults : Prop :=
  (∀ (w : LaneWord) (s : State) (x : Ctx) (g : Machine.Group), LaneActs s x g w.hdr false → 4 ≤ w.d.toNat →
    Uses.ok { noUses with d := true, a := true, b := true, ty := [0, 1, 2, 3, 4, 5, 10, 11], md := [0, 1, 2, 3, 4, 5], lit := true } w →
    let e := Env.of s x g
    let wide := decide (w.ty.toNat = 10 ∨ w.ty.toNat = 11)
    OperandsReady e ([Opd.gw w.d false, Opd.vr w.a wide] ++ if w.lit then [] else [Opd.vr w.b wide]) →
    let a (i : Nat) : Int := readInt w.ty.toNat (e.val w.a.toNat i wide)
    let b (i : Nat) : Int := readInt w.ty.toNat (if w.lit then litPattern w else e.val w.b.toNat i wide)
    ∃ wr m, exec (.vcmp w) s = .next (issued s x g w.hdr 1 .none s g wr) ∧
      ScalarWrites e [(e.gmap w.d.toNat, m)] 4 wr ∧
      ∀ i, i < 32 → m.getLsbD i = (e.mask.getLsbD i && match w.md.toNat with
        | 0 => decide (a i = b i) | 1 => decide (a i ≠ b i) | 2 => decide (a i < b i)
        | 3 => decide (a i ≤ b i) | 4 => decide (a i > b i) | _ => decide (a i ≥ b i))) ∧
  (∀ (w : LaneWord) (s : State) (x : Ctx) (g : Machine.Group), LaneActs s x g w.hdr false → 4 ≤ w.d.toNat →
    Uses.ok { noUses with d := true, a := true, b := true, ty := [6, 7, 8], md := [0, 1, 2, 3, 4, 5, 6, 7], lit := true } w →
    let e := Env.of s x g
    OperandsReady e ([Opd.gw w.d false, Opd.vr w.a false] ++ if w.lit then [] else [Opd.vr w.b false]) →
    let a (i : Nat) : FVal := readFp w.ty.toNat (e.val w.a.toNat i false)
    let b (i : Nat) : FVal := readFp w.ty.toNat (if w.lit then w.x.toNat else e.val w.b.toNat i false)
    let un (i : Nat) : Bool := (a i).isNan || (b i).isNan
    let holds (i : Nat) : Bool := match w.md.toNat with
      | 0 => !un i && (a i).cmp (b i) == .eq | 1 => un i || (a i).cmp (b i) != .eq
      | 2 => !un i && (a i).cmp (b i) == .lt | 3 => !un i && (a i).cmp (b i) != .gt
      | 4 => !un i && (a i).cmp (b i) == .gt | 5 => !un i && (a i).cmp (b i) != .lt
      | 6 => !un i | _ => un i
    let invalid (i : Nat) : Bool := if 2 ≤ w.md.toNat ∧ w.md.toNat ≤ 5 then un i else (a i).sig || (b i).sig
    let nv : Bool := (List.range 32).any (fun i => e.mask.getLsbD i && invalid i)
    ((nv && g.gstat.getLsbD 8) = false →
      ∃ wr m, exec (.fcmp w) s = .next (issued s x g w.hdr 1 .none s g (wr ++ Pend.flags 4 (if nv then 1 else 0))) ∧
        ScalarWrites e [(e.gmap w.d.toNat, m)] 4 wr ∧ ∀ i, i < 32 → m.getLsbD i = (e.mask.getLsbD i && holds i)) ∧
    ((nv && g.gstat.getLsbD 8) = true →
      ∃ m : Lanes, exec (.fcmp w) s = .next (laneTrap s s.cur.core s.cur.ctx s.cur.group 0x014 false true 0 m 0) ∧
        ∀ i, i < 32 → m.getLsbD i = (e.mask.getLsbD i && invalid i)))

/-- The group scalar words write their result to g[D] one slot later where the execute mask is not zero (13 R367, R368). -/
def Obligations.GroupScalarResults : Prop :=
  ∀ (i : Instr) (s : State) (x : Ctx) (g : Machine.Group) (w : LaneWord) (ua ub : Bool) (f : W32 → W32 → W32),
    scalarWord i = some (w, ua, ub, f) → LaneActs s x g w.hdr false →
    Uses.ok { noUses with d := true, a := ua, b := ub, ty := [0, 1], lit := ub } w →
    let e := Env.of s x g
    OperandsReady e ([Opd.gw w.d false] ++ (if ua then [Opd.gr w.a false] else []) ++
      (if ub && !w.lit then [Opd.gr w.b false] else [])) →
    ∃ wr, exec i s = .next (issued s x g w.hdr 1 .none s g wr) ∧
      ScalarWrites e [(e.gmap w.d.toNat, f (e.gval w.a) (if w.lit then w.x else e.gval w.b))] 1 wr

/-- EXMSET, PRET, SFMT, TSHAPE, XPAT, SRD, SWR, LANEID and VNOP: what each writes, at its latency (12 R354, 14 R385, R388, R391,
06 R171, 15 R410, R422, R423, 13 R375). Model choices: SRD of GSTAT while a loop runs is deduced, log entry 41. -/
def Obligations.SpecialRegisterWords : Prop :=
  ∀ (w : LaneWord) (s : State) (x : Ctx) (g : Machine.Group),
    let e := Env.of s x g
    let n := w.x.toNat % 256
    (MayIssue s x g w { noUses with a := true } [Opd.gr w.a false] →
      Issues s x g (.exmset w) w.hdr s g (fun wr => ∃ p : Poison, p.lanes = 0 ∧
        wr = [Pend.special 8 1 ((g.pos.activity &&& e.gval w.a).zeroExtend 64) p])) ∧
    (MayIssue s x g w { noUses with a := true } [Opd.gr w.a false] →
      (g.pos.delivered = true ∨ (∀ d, x.descOf g.pos.seq = some d → d.ret = false) →
        Issues s x g (.pret w) w.hdr s g (fun wr => wr = [])) ∧
      (∀ d, x.descOf g.pos.seq = some d → d.ret = true → g.pos.delivered = false →
        Issues s x g (.pret w) w.hdr
          (s.setCtx s.cur.core s.cur.ctx { x with strm := { x.strm with returnQ := x.strm.returnQ.map (fun r =>
            if r.seq = g.pos.seq ∧ r.words.getD s.cur.group none = none
            then { r with words := r.words.set s.cur.group (some (e.gval w.a &&& g.pos.activity)),
                          poison := r.poison.set s.cur.group none } else r) } })
          { g with pos := { g.pos with delivered := true } } (fun wr => wr = []))) ∧
    (MayIssue s x g w { noUses with b := true, lit := true } (if w.lit then [] else [Opd.gr w.b false]) →
      Issues s x g (.sfmt w) w.hdr s g
        (SpecialWrite e 0 (((if w.lit then w.x else e.gval w.b) &&& 0xFFFFFF00).zeroExtend 64))) ∧
    (MayIssue s x g w { noUses with a := true, x := if w.a = 0 then 0x3F3F else 0 } (if w.a = 0 then [] else [Opd.gr w.a false]) →
      let v := if w.a = 0 then w.x.toNat else (e.gval w.a).toNat
      let rows := v / 256 % 64
      let cols := v % 64
      (1 ≤ rows ∧ rows ≤ 32 ∧ 1 ≤ cols ∧ cols ≤ 32 →
        Issues s x g (.tshape w) w.hdr s g (SpecialWrite e 1 (BitVec.ofNat 64 (32 * (rows - 1) + (cols - 1))))) ∧
      (¬ (1 ≤ rows ∧ rows ≤ 32 ∧ 1 ≤ cols ∧ cols ≤ 32) → WordTraps s g (.tshape w) 0x010)) ∧
    (MayIssue s x g w { noUses with a := true, x := 3 } [Opd.gr w.a true] →
      Issues s x g (.xpat w) w.hdr s g (SpecialWrite e (4 + w.x.toNat % 4)
        (BitVec.ofNat 64 (((e.gval w.a).toNat + 2 ^ 32 * (e.gval (w.a + 1)).toNat) % 2 ^ 38)))) ∧
    (∀ wide v, specialValue e n = some (wide, v) → MayIssue s x g w { noUses with d := true, x := 0xFF } [Opd.gw w.d wide] →
      Issues s x g (.srd w) w.hdr s g (ScalarWrites e (scalarPair e w.d wide v) 2)) ∧
    (n = 2 → g.loops = [] → MayIssue s x g w { noUses with d := true, x := 0xFF } [Opd.gw w.d false] →
      Issues s x g (.srd w) w.hdr s g (ScalarWrites e [(e.gmap w.d.toNat, g.gstat)] 2)) ∧
    (0x20 ≤ n → n < 0x28 → MayIssue s x g w { noUses with d := true, x := 0xFF } [Opd.gw w.d true] →
      Issues s x g (.srd w) w.hdr s g (ScalarWrites e (scalarPair e w.d true (featWord s (regionsOf s x.part) (n - 0x20))) 2)) ∧
    (n ≤ 2 → MayIssue s x g w { noUses with b := true, x := 0xFF } [Opd.gr w.b false] →
      Issues s x g (.swr w) w.hdr s g (SpecialWrite e n
        ((e.gval w.b &&& (if n = 0 then 0xFFFFFF00 else if n = 1 then 0x3FF else 0x1F3F)).zeroExtend 64))) ∧
    (MayIssue s x g w { noUses with d := true, x := 1 } [Opd.vw w.d false] →
      Issues s x g (.laneid w) w.hdr s g (LaneWrites e w false 1
        (fun _ i => if w.x.getLsbD 0 then (g.origin.getD i 0).toNat else i))) ∧
    (MayIssue s x g w noUses [] → Issues s x g (.vnop w) w.hdr s g (fun wr => wr = []))

/-- VOTE, VSHFL, VBCAST, VRED and VSCAN: their results over the active lanes (15 R412, R414-R416, R418, 14 R400, 05 R130). -/
def Obligations.CrossLaneResults : Prop :=
  ∀ (w : LaneWord) (s : State) (x : Ctx) (g : Machine.Group),
    let e := Env.of s x g
    let wide := decide (w.ty.toNat = 10 ∨ w.ty.toNat = 11)
    let act (i : Nat) : Prop := i < 32 ∧ e.mask.getLsbD i = true
    let el (i : Nat) : Nat := e.val w.a.toNat i wide
    let op := w.x.toNat % 8
    let ty := w.ty.toNat
    let v (i : Nat) : Nat := if e.mask.getLsbD i then el i else identityOf op ty
    let node (a b : Nat) : Nat := (nodeOf op ty w.md a b).1
    (4 ≤ w.d.toNat → MayIssue s x g w { noUses with d := true, a := true, md := [0, 1, 2, 3] } [Opd.gw w.d false, Opd.vr w.a false] →
      ∃ r : W32, Issues s x g (.vote w) w.hdr s g (ScalarWrites e [(e.gmap w.d.toNat, r)] 3) ∧
        (w.md = 0 → ∀ i, i < 32 → (r.getLsbD i = true ↔ act i ∧ e.val w.a.toNat i false ≠ 0)) ∧
        (w.md = 1 → r = 0 ∨ r = 1) ∧ (w.md = 1 → (r = 1 ↔ ∃ i, act i ∧ e.val w.a.toNat i false ≠ 0)) ∧
        (w.md = 2 → r = 0 ∨ r = 1) ∧ (w.md = 2 → (r = 1 ↔ ∀ i, act i → e.val w.a.toNat i false ≠ 0)) ∧
        (w.md = 3 → r = 0 ∨ r = 1) ∧
        (w.md = 3 → (r = 1 ↔ ∀ i j, act i → act j → e.val w.a.toNat i false = e.val w.a.toNat j false))) ∧
    (MayIssue s x g w { noUses with
        d := true, a := true, b := decide (w.x.toNat % 4 = 0), ty := [0, 10],
        x := if w.x.toNat % 4 = 0 then 0x3 else 0x1F03 }
        ([Opd.vw w.d wide, Opd.vr w.a wide] ++ if w.x.toNat % 4 = 0 then [Opd.vr w.b false] else []) →
      let k := w.x.toNat / 256 % 32
      let src (i : Nat) : Nat := match w.x.toNat % 4 with
        | 0 => e.val w.b.toNat i false % 32
        | 1 => i ^^^ k
        | 2 => if k ≤ i then i - k else i
        | _ => if i + k ≤ 31 then i + k else i
      Issues s x g (.vshfl w) w.hdr s g (LaneWrites e w wide 3 (fun _ i => el (src i)))) ∧
    (MayIssue s x g w { noUses with d := true, a := true, b := true, ty := [0, 10], x := if w.b = 0 then 0x1F else 0 }
        ([Opd.vw w.d wide, Opd.vr w.a wide] ++ if w.b = 0 then [] else [Opd.gr w.b false]) →
      Issues s x g (.vbcast w) w.hdr s g (LaneWrites e w wide 3
        (fun _ _ => el ((if w.b = 0 then w.x.toNat else (e.gval w.b).toNat) % 32)))) ∧
    (∀ scan : Bool, op < 6 → (ty = 6 ∨ ty = 7 ∨ ty = 8 → op < 3) → e.mask ≠ 0 →
      MayIssue s x g w { noUses with
        d := true, a := true, ty := [0, 1, 2, 3, 4, 5, 6, 7, 8, 10, 11], x := if scan then 0xF else 0x7,
        md := if op ≠ 0 then [0] else if ty = 6 ∨ ty = 7 ∨ ty = 8 then [0, 1, 2, 3, 4, 5, 6, 7] else [0, 4] }
        [Opd.vw w.d wide, Opd.vr w.a wide] →
      ∀ fl : W32,
        (∀ k, fl.getLsbD k = true ↔
          if scan then ∃ i, i < 31 ∧ (nodeOf op ty w.md (scanned node v i) (v (i + 1))).2.getLsbD k = true
          else ∃ n i, n < 5 ∧ i < 2 ^ (4 - n) ∧
            (nodeOf op ty w.md (treeNode node v n (2 * i)) (treeNode node v n (2 * i + 1))).2.getLsbD k = true) →
        let i : Instr := if scan then .vscan w else .vred w
        let r (i : Nat) : Nat := if !scan then treeNode node v 5 0
          else if w.x.getLsbD 3 then (if i = 0 then identityOf op ty else scanned node v (i - 1)) else scanned node v i
        (firstEnabled g.gstat fl = none → Issues s x g i w.hdr s g (fun wr =>
          ∃ wv, wr = wv ++ Pend.flags 8 fl ∧ LaneWrites e w wide 8 (fun _ i => heldAs ty (r i)) wv)) ∧
        ∀ k, firstEnabled g.gstat fl = some k → WordTraps s g i (0x014 + k))

/-- The lane words that trap whatever the execute mask holds, and the checks of the lane words in their order: where the word stands,
its reserved fields, its type, its register numbers, in the debug schedule mode its hazards; a word that must end its run and does
not; a double's lead, place and continuation (02 R39, R57, R64, 05 R125, 06 R163, 09 R244, R251, 10 R288, 15 R419). Model choices:
FMASK of a word-level trap is deduced, log entry 11. -/
def Obligations.LaneTraps : Prop :=
  ∀ (w : LaneWord) (s : State) (x : Ctx) (g : Machine.Group), s.grp? = some (x, g) →
    (Placed g w.hdr false → Uses.ok noUses w → WordTraps s g (.vbrk w) 0x01C) ∧
    (Placed g w.hdr false → Uses.ok { noUses with x := 0x3F } w →
      WordTraps s g (.vtrap w) (0x040 + w.x.toNat % 64)) ∧
    (∀ b : LaneBits, laneKind b ≠ 3 → Placed g (decodeHdr b) false → WordTraps s g (.illop b) 0x000) ∧
    (w.hdr.sw = true → w.hdr.fin = false → w.hdr.bnd = false →
      WordTraps s g (.vnop w) 0x006 ∧ WordTraps s g (.mwait w) 0x006) ∧
    (w.hdr.sw = false → 24 ≤ g.pos.slot → WordTraps s g (.vnop w) 0x007) ∧
    (∀ i, i = .mmodeT w ∨ i = .mmodeV w ∨ i = .vfence w ∨ i = .vxfence w → w.hdr.fin = false → w.hdr.bnd = false →
      WordTraps s g i 0x00C) ∧
    (∀ (y : ContWord) (i : Instr), i = .mloop w y ∨ i = .sunf w y →
      let lead := w.hdr.fin = false ∧ w.hdr.bnd = false ∧ w.hdr.sw = false
      let flags := y.hdr.sw = true → y.hdr.fin = true ∨ y.hdr.bnd = true
      (¬ lead → WordTraps s g i 0x008) ∧ (lead → ¬ flags → WordTraps s g i 0x006) ∧
      (lead → flags → 24 ≤ g.pos.slot → WordTraps s g i 0x007) ∧ (lead → flags → g.pos.slot = 23 → WordTraps s g i 0x008) ∧
      (lead → flags → g.pos.slot < 23 → y.kind ≠ 3 → WordTraps s g i 0x005)) ∧
    (∀ i v u vals ops, wordForm (Env.of s x g) i = some (v, u, vals, ops) → Placed g v.hdr false →
      (¬ u.clean v → WordTraps s g i 0x005) ∧ (u.clean v → vals = false → WordTraps s g i 0x005) ∧
      (u.clean v → vals = true → ¬ u.typed v → WordTraps s g i 0x013) ∧
      (u.ok v → vals = true → (∃ o ∈ ops, o.pair = true ∧ o.num % 2 = 1) → WordTraps s g i 0x009) ∧
      (u.ok v → vals = true → (∀ o ∈ ops, o.pair = true → o.num % 2 = 0) →
        ((∃ o ∈ ops, o.vec = true ∧ ∃ k ∈ o.names, x.n ≤ k) → WordTraps s g i 0x00A) ∧
        ((∀ o ∈ ops, o.vec = true → ∀ k ∈ o.names, k < x.n) → (∃ o ∈ ops, o.vec = false ∧ ∃ k ∈ o.names, x.q ≤ k) →
          WordTraps s g i 0x00B))) ∧
    ∀ i l, intLane i = some l → Placed g l.w.hdr false →
      let e := Env.of s x g
      let ops := l.ops e
      (l.uses.ok l.w → (∀ o ∈ ops, (o.pair = true → o.num % 2 = 0) ∧ ∀ k ∈ o.names, k < if o.vec then x.n else x.q) →
        x.debug = true → g.pos.exmask ≠ 0 →
        (e.owns ops (fun _ => true) = true → WordTraps s g i 0x019) ∧
        (e.owns ops (fun _ => true) = false → e.uncovered ops (fun _ => true) = true → WordTraps s g i 0x01B))

/-- VLD, VLDK, VST, GLD and VATOM: the values loaded, as the group's agent sees them, wait in an outstanding result; the stores of the
active lanes enter the group's store queue in ascending order; VATOM's read-modify-writes, the group's earlier stores having left the
queue, are left to be performed, one for each active lane, in ascending order, before the group's next word (14 R398, R405, 13 R370, 02
R63, 08 R216, R231, R232; `GroupWaitsEnd` says what each of them does).
Under a zero execute mask none has an effect (15 R436). Where a lane's check fails the word traps with the lowest such lane's cause and
address, FMASK the lanes of that cause; where the pages are not held the group is suspended before the word (02 R65, 10 R266, R267, R305,
12 R346). Model choices: when a variable result is written is the agenda, log entries 2 and 8; the queue, log entry 5. -/
def Obligations.LaneMemoryResults : Prop :=
  ∀ (w : LaneWord) (s : State) (x : Ctx) (g : Machine.Group) (pa : Nat → Nat),
    let e := Env.of s x g
    let ty := w.ty.toNat
    let wide := decide (ty = 10 ∨ ty = 11)
    let n := sizeBytes ty
    let va (i : Nat) : W64 := laneAddress e w (pairBase e w.a) i
    let src := [Opd.gr w.a true, Opd.vr w.b false]
    (e.mask = 0 → ∀ i u vals ops, wordForm e i = some (w, u, vals, ops) → MayIssue s x g w u ops →
      i = .vld w ∨ i = .vldk w ∨ i = .vst w ∨ i = .gld w ∨ i = .vatom w → Issues s x g i w.hdr s g (fun wr => wr = [])) ∧
    (e.mask ≠ 0 →
    (MayIssue s x g w (memUses memTypes) (Opd.vw w.d wide :: src) → LanesReach e .rd va n false pa →
      let u := loadState s e.agent ((activeLanes e).map pa) (e.taints src)
      LanesRead e u pa n →
      let val (i : Nat) : Nat := heldAs ty (seenValue u e.agent (pa i) n)
      let read (consume : Bool) : State :=
        noted e (loaded u e.agent none ((activeLanes e).flatMap (fun i => placesOn (pa i) n)) consume)
      Awaits s x g (.vld w) w.hdr (read false) (accessed g) (fun v => Result e false w.d wide val v ∧ v.taint = e.taints src) ∧
      Awaits s x g (.vldk w) w.hdr (read true) (accessed g) (fun v => Result e false w.d wide val v ∧ v.taint = true)) ∧
    (MayIssue s x g w (memUses memTypes) (Opd.vr w.d wide :: src) → LanesReach e .wr va n false pa →
      let store (i : Nat) : Store := laneStore e none ((List.range n).map (pa i + ·)) (e.val w.d.toNat i wide)
      exec (.vst w) s = .next (issued s x g w.hdr 1 .none
        (noted e { seeFed s e.agent (e.taints src) with queue := s.queue ++ (activeLanes e).map store }) (accessed g) [])) ∧
    (MayIssue s x g w { memUses [0, 1, 2, 3, 4, 5, 10, 11] with b := false } [Opd.gw w.d wide, Opd.gr w.a true] →
      ∀ p, checkAccess s x.part (x.asid s) .rd pathL (pairBase e w.a + w.x.signExtend 64) n false = .ok p →
        tlbMisses s s.cur.core (x.asid s) [pairBase e w.a + w.x.signExtend 64] = [] →
        let u := loadState s e.agent [p] (e.taints [Opd.gr w.a true])
        loadPoison u e.agent p n = none → spillHit u p n = [] →
        Awaits s x g (.gld w) w.hdr (noted e (loaded u e.agent none (placesOn p n) false)) (accessed g)
          (Result e true w.d wide (fun _ => heldAs ty (seenValue u e.agent p n)))) ∧
    (MayIssue s x g w { memUses [0, 1, 10, 11] with c := true, md := [0, 1, 2, 3, 4, 5, 6, 7] }
        ([Opd.vw w.d wide, Opd.gr w.a true, Opd.vr w.b false, Opd.vr w.c wide] ++ if w.md = 5 then [Opd.vr w.d wide] else []) →
      LanesReach e .at va n true pa → (∀ i, Active e i → inHost s (pa i) = true → w.md = 0 ∨ w.md = 4 ∨ w.md = 5) →
      let u := ((activeLanes e).map pa).foldl (fun t p => flushWhere t (fun q => q.agent == e.agent && q.host == inHost t p))
        (seeFed s e.agent (e.taints src))
      Awaits s x g (.vatom w) w.hdr (noted e u) (accessed g) (fun v =>
        v.gs = false ∧ v.regs = (e.vmap w.d.toNat :: if wide then [e.vmap (w.d.toNat + 1)] else []) ∧ v.lanes = e.mask ∧
        v.taint = e.taints src ∧ v.poison.lanes = 0 ∧ v.junk = [] ∧
        v.remote = (activeLanes e).map (fun i => pendingAtomic e w wide 192 i ((placesOn (pa i) n).map (fun a => (192, a)))))) ∧
    (MayIssue s x g w (memUses memTypes) (Opd.vw w.d wide :: src) → ∀ i, i = .vld w ∨ i = .vldk w →
      let chk (k : Nat) := memCheck e .rd (va k) n false
      LaneFaults s x g i chk ∧ TlbSuspends s x g i chk va) ∧
    (MayIssue s x g w (memUses memTypes) (Opd.vr w.d wide :: src) →
      let chk (k : Nat) := memCheck e .wr (va k) n false
      LaneFaults s x g (.vst w) chk ∧ TlbSuspends s x g (.vst w) chk va) ∧
    (MayIssue s x g w { memUses [0, 1, 2, 3, 4, 5, 10, 11] with b := false } [Opd.gw w.d wide, Opd.gr w.a true] →
      let a := pairBase e w.a + w.x.signExtend 64
      (∀ f, checkAccess s x.part (x.asid s) .rd pathL a n false = .error f →
        exec (.gld w) s = .next (laneTrap s s.cur.core s.cur.ctx s.cur.group f.cause false true a e.mask f.finfo)) ∧
      (∀ p, checkAccess s x.part (x.asid s) .rd pathL a n false = .ok p → tlbMisses s s.cur.core (x.asid s) [a] ≠ [] →
        exec (.gld w) s = .next (suspendGroup s s.cur.core s.cur.ctx s.cur.group (.tlb (tlbMisses s s.cur.core (x.asid s) [a]))))) ∧
    (MayIssue s x g w { memUses [0, 1, 10, 11] with c := true, md := [0, 1, 2, 3, 4, 5, 6, 7] }
        ([Opd.vw w.d wide, Opd.gr w.a true, Opd.vr w.b false, Opd.vr w.c wide] ++ if w.md = 5 then [Opd.vr w.d wide] else []) →
      let chk (k : Nat) : Except (AFault × W64) Nat := match memCheck e .at (va k) n true with
        | .ok p => if inHost s p = true ∧ ¬ (w.md = 0 ∨ w.md = 4 ∨ w.md = 5)
            then .error ({ cause := 0x089, finfo := finfoAccess pathL (translate s (x.asid s) (va k).toNat) }, va k) else .ok p
        | .error f => .error f
      LaneFaults s x g (.vatom w) chk ∧ TlbSuspends s x g (.vatom w) chk va))

/-- VLDS, VLDX, VSTS and VATOMS on the team's scratchpad and its cluster's: local loads act at once, local stores enter the group's store
queue in lane order, remote lanes are still to be performed at their cores, and VATOMS' read-modify-writes are left to be performed, one
for each active lane, in ascending order (14 R398, R407, R409, 05 R147, 07 R181-R183, 08 R216, R228, R231). Under a zero execute mask none has an effect, but VLDX traps XPATINVAL on its pattern all the same (15 R436).
Where a lane's check fails VLDS, VSTS and VATOMS trap with the lowest such lane's fault; where a local line is absent the group is
suspended (02 R65, 10 R266, R267). Model choices: VLDX into a signed type of the field's width is deduced, log entry 23; the queue, log
entry 5. -/
def Obligations.ScratchpadResults : Prop :=
  ∀ (w : LaneWord) (s : State) (x : Ctx) (g : Machine.Group) (b : Nat → List (Nat × Nat)),
    let e := Env.of s x g
    let ty := w.ty.toNat
    let wide := decide (ty = 10 ∨ ty = 11)
    let n := sizeBytes ty
    let addr (i : Nat) : W64 := laneAddress e w ((e.gval w.a).zeroExtend 64) i
    let src := [Opd.gr w.a false, Opd.vr w.b false]
    (e.mask = 0 → ∀ i u vals ops, wordForm e i = some (w, u, vals, ops) → vals = true → MayIssue s x g w u ops →
      i = .vlds w ∨ i = .vsts w ∨ i = .vatoms w ∨ (i = .vldx w ∧ (fieldsOf (g.xpats.getD w.c.toNat 0)).valid) →
      Issues s x g i w.hdr s g (fun wr => wr = [])) ∧
    (w.c.toNat < 4 → MayIssue s x g w { memUses [] with c := true } (Opd.vw w.d false :: src) →
      ¬ (fieldsOf (g.xpats.getD w.c.toNat 0)).valid → WordTraps s g (.vldx w) 0x011) ∧
    (e.mask ≠ 0 →
    (MayIssue s x g w (memUses memTypes) (Opd.vw w.d wide :: src) → ScratchReaches e .rd addr n n b →
      ScratchLoads s x g (.vlds w) w wide b (fun _ v => heldAs ty v)) ∧
    (w.c.toNat < 4 → MayIssue s x g w { memUses [] with c := true } (Opd.vw w.d false :: src) →
      let t := fieldsOf (g.xpats.getD w.c.toNat 0)
      let base := (e.gval w.a).zeroExtend 64 + w.x.signExtend 64
      let first (i : Nat) : Nat := t.bit (e.val w.b.toNat i false)
      t.valid →
      (∀ i, Active e i → (b i).length = (first i + t.w - 1) / 8 - first i / 8 + 1 ∧
        ∀ (j : Nat) (p : Nat × Nat), (b i)[j]? = some p →
          e.checkScrAt .rd (base + BitVec.ofNat 64 (first i / 8 + j)) 1 1 = .ok [p] ∧
          (p.1 = e.core → presenceOf (s.core e.core) (p.2 / 128) = 0)) →
      ScratchLoads s x g (.vldx w) w false b (fun i v => t.element (v / 2 ^ (first i % 8) % 2 ^ t.w))) ∧
    (MayIssue s x g w (memUses memTypes) (Opd.vr w.d wide :: src) → ScratchReaches e .wr addr n n b →
      let bytes (k : Nat) : List (Nat × Byte) := ((b k).map (·.2)).zip ((List.range n).map (leByte (e.val w.d.toNat k wide)))
      ∃ (s' : State) (g' : Machine.Group) (rem : List RemStore) (here : List Nat),
        exec (.vsts w) s = .next (issued s x g w.hdr 1 .none s' g' []) ∧
        g'.rstores = g.rstores ++ rem ∧ ((∀ k, Active e k → Here e (b k)) → rem = []) ∧
        (∀ k, Active e k → ¬ Here e (b k) → ∃ r ∈ rem, r.performed = false ∧ r.frozen = false ∧ r.core = ((b k).headD (0, 0)).1 ∧
          r.order = s.freeCtr ∧ (bytes k, none) ∈ r.parts) ∧
        g' = { accessed g with rstores := g'.rstores, pos := { g.pos with ownStores := g'.pos.ownStores } } ∧
        here.Pairwise (· < ·) ∧ (∀ k, k ∈ here ↔ Active e k ∧ Here e (b k)) ∧
        s' = noted e { seeFed s e.agent (e.taints src) with
          queue := s.queue ++ here.map (fun k => laneStore e (some e.core) ((b k).map (·.2)) (e.val w.d.toNat k wide)) } ∧
        ∀ a, ownSeen { e with s := s', g := g' } a = ownSeen { e with s := seeFed s e.agent (e.taints src) } a) ∧
    (MayIssue s x g w { memUses [0, 1] with c := true, md := [0, 1, 2, 3, 4, 5, 6, 7] }
        ([Opd.vw w.d false, Opd.gr w.a false, Opd.vr w.b false, Opd.vr w.c false] ++
          if w.md = 5 then [Opd.vr w.d false] else []) →
      let u := flushWhere (seeFed s e.agent (e.taints src)) (fun q => q.agent == e.agent && q.host == false)
      ScratchReaches e .at addr 4 4 b →
      Awaits s x g (.vatoms w) w.hdr (noted e (arrive u e.agent (ownPlaces e b))) (accessed g) (fun v =>
        v.gs = false ∧ v.regs = [e.vmap w.d.toNat] ∧ v.lanes = e.mask ∧ v.taint = e.taints src ∧ v.poison.lanes = 0 ∧ v.junk = [] ∧
        v.remote = (activeLanes e).map (fun k => pendingAtomic e w false ((b k).headD (0, 0)).1 k (b k)))) ∧
    (MayIssue s x g w (memUses memTypes) (Opd.vw w.d wide :: src) →
      let chk (k : Nat) := e.checkScrAt .rd (addr k) n n
      LaneFaults s x g (.vlds w) chk ∧ LineSuspends s x g (.vlds w) chk) ∧
    (MayIssue s x g w (memUses memTypes) (Opd.vr w.d wide :: src) →
      let chk (k : Nat) := e.checkScrAt .wr (addr k) n n
      LaneFaults s x g (.vsts w) chk ∧ LineSuspends s x g (.vsts w) chk) ∧
    (MayIssue s x g w { memUses [0, 1] with c := true, md := [0, 1, 2, 3, 4, 5, 6, 7] }
        ([Opd.vw w.d false, Opd.gr w.a false, Opd.vr w.b false, Opd.vr w.c false] ++ if w.md = 5 then [Opd.vr w.d false] else []) →
      let chk (k : Nat) := e.checkScrAt .at (addr k) 4 4
      LaneFaults s x g (.vatoms w) chk ∧ LineSuspends s x g (.vatoms w) chk))

/-- VFENCE, VXFENCE, QPOP, QPUSH, SPAWN and SPFLUSH: what each makes the group, its queue or its gatherer wait for or hold, and the
traps of QPOP, QPUSH and SPAWN in their order: for SPAWN the entry, the checks of the join counter with POOLATOM and POOLSEVER, the
room, the checks of the spill writes; while its page is not held the group is suspended. With no active lane QPOP, SPAWN and SPFLUSH
have no effect and QPUSH ends its run as ever; a bad selection, SPAWNOFF and SPAWNDEPTH trap then too (02 R65, 03 R88, R89, R93, R97,
R104-R106, 08 R222, R227, 14 R389, 15 R420, R436). Model choices: no taint travels through a queue, log entry 19; the place a record spills to, log entry
36. -/
def Obligations.FenceQueueSpawnWords : Prop :=
  ∀ (w : LaneWord) (s : State) (x : Ctx) (g : Machine.Group),
    let e := Env.of s x g
    let scope := w.x.toNat / 64 % 8
    let from_ := w.x.toNat / 8 % 8
    let to_ := w.x.toNat % 8
    let path (k : Nat) : Prop := k ≤ 4
    (LaneActs s x g w.hdr true → Uses.ok { noUses with x := 0x1F0 } w → scope ≠ 7 → w.x.toNat / 16 % 4 ≠ 0 →
      Issues s x g (.vfence w) w.hdr s (fenced g (.fence (BitVec.ofNat 3 scope) (BitVec.ofNat 2 (w.x.toNat / 16)))) (fun wr => wr = [])) ∧
    (LaneActs s x g w.hdr true → Uses.ok { noUses with x := 0x1FF } w → scope ≠ 7 → path from_ → path to_ →
      Issues s x g (.vxfence w) w.hdr s
        (fenced g (.cross (BitVec.ofNat 3 scope) (BitVec.ofNat 3 from_) (BitVec.ofNat 3 to_))) (fun wr => wr = [])) ∧
    (MayIssue s x g w { noUses with d := true, a := true } [Opd.vw w.d false, Opd.gr w.a false] →
      (queueCore e (e.gval w.a) = some s.cur.core → e.mask ≠ 0 →
        Awaits s x g (.qpop w) w.hdr
          (queueWith s ((e.gval w.a).toNat % 16) (fun r => { r with pops := r.pops ++ [(s.cur.ctx, s.cur.group)] })) g
          (fun v => v.gs = false ∧ v.regs = [e.vmap w.d.toNat] ∧ v.lanes = e.mask ∧
            v.popQueue = some ((e.gval w.a).toNat % 16) ∧ v.remote = [])) ∧
      (queueCore e (e.gval w.a) = some s.cur.core → e.mask = 0 → Issues s x g (.qpop w) w.hdr s g (fun wr => wr = [])) ∧
      (queueCore e (e.gval w.a) ≠ some s.cur.core → WordTraps s g (.qpop w) 0x145)) ∧
    (MayIssue s x g w { noUses with a := true, b := true } [Opd.gr w.a false, Opd.vr w.b false] →
      (queueCore e (e.gval w.a) ≠ none → e.mask ≠ 0 →
        Issues s x g (.qpush w) w.hdr s { g with pos := { g.pos with
          marked := true
          pushes := g.pos.pushes ++ [{ lanes := e.mask, sel := e.gval w.a,
                                       elems := (activeLanes e).map (fun i => BitVec.ofNat 32 (e.val w.b.toNat i false)),
                                       poison := (activeLanes e).map (fun _ => none) }] } }
          (fun wr => wr = [])) ∧
      (queueCore e (e.gval w.a) ≠ none → e.mask = 0 →
        Issues s x g (.qpush w) w.hdr s { g with pos := { g.pos with marked := true } } (fun wr => wr = [])) ∧
      (queueCore e (e.gval w.a) = none → WordTraps s g (.qpush w) 0x145)) ∧
    (MayIssue s x g w (spawnUses w) (spawnOps w) → w.x.toNat % 8 ≤ 4 →
      let depth := match x.child with | some ch => ch.depth | none => 0
      let unknown (i : Nat) : Prop := e.val w.a.toNat i false ∉ (x.img s).entries
      ((x.img s).spill = 0 → WordTraps s g (.spawn w) 0x143) ∧
      ((x.img s).spill ≠ 0 → depth = 15 → WordTraps s g (.spawn w) 0x141) ∧
      ((x.img s).spill ≠ 0 → depth ≠ 15 → e.mask = 0 → Issues s x g (.spawn w) w.hdr s g (fun wr => wr = [])) ∧
      ((x.img s).spill ≠ 0 → depth ≠ 15 → (∃ i, Active e i ∧ unknown i) →
        ∃ m : Lanes, (∀ i, i < 32 → (m.getLsbD i = true ↔ Active e i ∧ unknown i)) ∧
          exec (.spawn w) s = .next (laneTrap s s.cur.core s.cur.ctx s.cur.group 0x142 false true 0 m 0)) ∧
      ((x.img s).spill ≠ 0 → depth ≠ 15 → e.mask ≠ 0 → (∀ i, Active e i → ¬ unknown i) →
        let join := pairBase e w.c
        (∀ f, checkAccess s x.part (x.asid s) .sp pathS join 4 true = .error f →
          exec (.spawn w) s = .next (laneTrap s s.cur.core s.cur.ctx s.cur.group f.cause false true join e.mask f.finfo)) ∧
        ∀ pa, checkAccess s x.part (x.asid s) .sp pathS join 4 true = .ok pa →
        (tlbMisses s s.cur.core (x.asid s) [join] ≠ [] → exec (.spawn w) s = .next (suspendGroup s s.cur.core s.cur.ctx s.cur.group
          (.tlb (tlbMisses s s.cur.core (x.asid s) [join])))) ∧
        (tlbMisses s s.cur.core (x.asid s) [join] = [] →
        let rs := (activeLanes e).map (recordOf e w pa)
        let s1 := { s with stamp := s.stamp + 1 }
        ((s.core s.cur.core).spilling = false → gatherLoad s s.cur.core + rs.length ≤ 4096 →
          Issues s x g (.spawn w) w.hdr s1 { g with spawnPend := g.spawnPend ++ [rs] } (fun wr => wr = [])) ∧
        (∀ l, x.launch? s = some l →
          (s.core s.cur.core).spilling = true ∨ 4096 < gatherLoad s s.cur.core + rs.length →
          let places := freeSlots l (spillLoad s l - l.spilled.length) rs.length
          ((x.img s).spill / 32 < spillLoad s l + rs.length → WordTraps s g (.spawn w) 0x140) ∧
          (spillLoad s l + rs.length ≤ (x.img s).spill / 32 →
            (∀ f va, spillFault s l places = some (f, va) →
              exec (.spawn w) s = .next (laneTrap s s.cur.core s.cur.ctx s.cur.group f.cause false true va e.mask f.finfo)) ∧
            (spillFault s l places = none →
              exec (.spawn w) s = .next (suspendGroup
                ((s1.updCore s.cur.core (fun co => { co with spilling := true })).setGroup s.cur.core s.cur.ctx s.cur.group
                  { g with spawnPend := g.spawnPend ++ [rs] }) s.cur.core s.cur.ctx s.cur.group .spill))))))) ∧
    (MayIssue s x g w noUses [] → e.mask = 0 → Issues s x g (.spflush w) w.hdr s g (fun wr => wr = [])) ∧
    (MayIssue s x g w noUses [] → e.mask ≠ 0 →
      Issues s x g (.spflush w) w.hdr
        (s.updCore s.cur.core (fun co => formPartials co (fun r => r.part == x.part && r.launch == x.launch))) g (fun wr => wr = []))

/-- MMODE, MLOOP, MWAIT, MZERO and SUNF: entering and leaving truss mode, the loop started, its end, the window cleared, the
descriptor of the unfolding unit; and the traps of MLOOP, MZERO and SUNF in their order. MMODE.t with the lane set held by another
group makes the group Truss-waiting, last of the order, and by the group that holds it changes nothing, as MMODE.v outside truss mode; at
MMODE.v the longest Truss-waiting group takes the lane set, Eligible; MLOOP with a loop outstanding suspends the group; MWAIT raises the
fault of a halted transfer whose lines its loop waits for (06 R148-R152, R154-R161, R165, R166, R170, 13 R384). Model choices: a loop with free operands and MMODE.v with a halted line are deduced, log entries 15 and 16. -/
def Obligations.TrussWords : Prop :=
  ∀ (w : LaneWord) (y : ContWord) (s : State) (x : Ctx) (g : Machine.Group),
    let e := Env.of s x g
    let ls := (x.base + s.cur.group) % 4
    let own := isTruss s s.cur.core s.cur.ctx s.cur.group
    let unf := w.x.getLsbD 1
    let ia : Int := (BitVec.ofNat 32 (bodyField y 32 32)).toInt
    let ib : Int := (BitVec.ofNat 32 (bodyField y 0 32)).toInt
    (LaneActs s x g w.hdr true → Uses.ok { noUses with x := 1 } w → ls < (s.core s.cur.core).lanesets.length →
      g.async = [] → g.pos.poisonRun = none →
      ((s.laneSetAt s.cur.core ls).truss = none →
        ∃ t, exec (.mmodeT w) s = .next t ∧ (t.laneSetAt s.cur.core ls).truss = some (s.cur.ctx, s.cur.group)) ∧
      (∀ h, (s.laneSetAt s.cur.core ls).truss = some h → h ≠ (s.cur.ctx, s.cur.group) →
        (s.cur.ctx, s.cur.group) ∉ (s.laneSetAt s.cur.core ls).trussWait →
        g.pos.marked = false → w.hdr.sw = false → g.pos.parkFence = none → g.pos.pushes = [] → g.pos.parkMmodeV = false →
        ∃ t, exec (.mmodeT w) s = .next t ∧ (t.laneSetAt s.cur.core ls).truss = some h ∧
          (t.laneSetAt s.cur.core ls).trussWait = (s.laneSetAt s.cur.core ls).trussWait ++ [(s.cur.ctx, s.cur.group)] ∧
          (t.group s.cur.core s.cur.ctx s.cur.group).pos.status = .trussWaiting) ∧
      (own = true → g.loops = [] → (s.laneSetAt s.cur.core ls).trussWait = [] →
        ∃ t, exec (.mmodeV w) s = .next t ∧ (t.laneSetAt s.cur.core ls).truss = none) ∧
      (∀ (k h : Nat) (rest : List (Nat × Nat)) (z : Ctx) (r : Machine.Group), own = true → g.loops = [] →
        (s.laneSetAt s.cur.core ls).trussWait = (k, h) :: rest → (k, h) ≠ (s.cur.ctx, s.cur.group) →
        (s.core s.cur.core).ctxs[k]? = some z → z.groups[h]? = some r → r.pos.status = .trussWaiting →
        ∃ t, exec (.mmodeV w) s = .next t ∧ (t.laneSetAt s.cur.core ls).truss = some (k, h) ∧
          (t.laneSetAt s.cur.core ls).trussWait = rest ∧ (t.group s.cur.core k h).pos.status = .eligible)) ∧
    (LaneActs s x g w.hdr true → Uses.ok { noUses with x := 1 } w →
      (own = true → exec (.mmodeT w) s = .next (issued s x g w.hdr 1 .none s g [])) ∧
      (own = false → exec (.mmodeV w) s = .next (issued s x g w.hdr 1 .none s g []))) ∧
    (DoubleMayIssue s x g w y { noUses with d := true, a := !unf, b := true, c := true, x := 3 }
        ((if unf then [] else [Opd.gr w.a false]) ++ [Opd.gr w.b false, Opd.gr w.c false]) →
      bodyField y 64 27 = 0 → (unf = true → ia = 0) →
      let k := (e.gval w.c).toNat
      let a := (e.gval w.a).toNat
      let b := (e.gval w.b).toNat
      ((∃ l ∈ g.loops, l.visible = false) →
        exec (.mloop w y) s = .next (suspendGroup s s.cur.core s.cur.ctx s.cur.group .loop)) ∧
      ((∀ l ∈ g.loops, l.visible = true) →
      (own = false → WordTraps s g (.mloop w y) 0x00E) ∧
      (own = true → windowOk x.n w.d.toNat = false → WordTraps s g (.mloop w y) 0x00D) ∧
      (own = true → windowOk x.n w.d.toNat = true → productOf g.fmt = none → WordTraps s g (.mloop w y) 0x012) ∧
      (own = true → windowOk x.n w.d.toNat = true → productOf g.fmt ≠ none → k = 0 ∨ 65535 < k →
        WordTraps s g (.mloop w y) 0x120) ∧
      (∀ p, own = true → windowOk x.n w.d.toNat = true → productOf g.fmt = some p → 1 ≤ k → k ≤ 65535 →
        let aligned := (unf = false → a % 32 = 0) ∧ b % 32 = 0 ∧ ia % 32 = 0 ∧ ib % 32 = 0
        let inside (at_ : Nat) (inc : Int) : Prop :=
          inOwn s (x.who s.cur.core) (operandRange at_ inc k p.bytes).1 (operandRange at_ inc k p.bytes).2 = true
        let ranged := (unf = false → inside a ia) ∧ inside b ib
        let unfolds := unf = true → ∃ u, g.unf = some u ∧ some u.e = unfWidth g.fmt
        (¬ aligned → WordTraps s g (.mloop w y) 0x122) ∧ (aligned → ¬ ranged → WordTraps s g (.mloop w y) 0x121) ∧
        (aligned → ranged → ¬ unfolds → WordTraps s g (.mloop w y) 0x123) ∧
        (aligned → ranged → unfolds → windowPending e (windowOf e w.d) = false → g.owned (windowOf e w.d) = false →
        ∃ (g' : Machine.Group) (l : Loop), exec (.mloop w y) s = .next (finishWord e y.hdr 2 .none (.go s g' [])) ∧
          g'.loops = g.loops ++ [l] ∧ l.win = windowOf e w.d ∧ l.a = a ∧ l.b = b ∧ l.ia = ia ∧ l.ib = ib ∧ l.k = k ∧ l.next = 0 ∧
          l.fmt = g.fmt ∧ l.unf = (if unf then g.unf else none) ∧ l.complete = false ∧ l.visible = false ∧ l.spoiled = false ∧
          l.flags = 0 ∧ l.poison = none ∧ l.time = s.freeCtr ∧ l.touched = false ∧ l.told = [] ∧
          (w.x.getLsbD 0 = true → ∀ r ∈ windowOf e w.d, r < g.vregs.length → g'.vregs[r]? = some VReg.zero) ∧
          (∀ r, w.x.getLsbD 0 = false ∨ r ∉ windowOf e w.d → g'.vregs[r]? = g.vregs[r]?))))) ∧
    (MayIssue s x g w noUses [] → (∀ l ∈ g.loops, l.visible = true ∧ l.spoiled = false) →
      ∃ fl : W32, (∀ k, fl.getLsbD k = true ↔ g.gstat.getLsbD k = true ∨ ∃ l ∈ g.loops, l.flags.getLsbD k = true) ∧
        Issues s x g (.mwait w) w.hdr s { g with loops := [], gstat := fl } (fun wr => wr = [])) ∧
    (MayIssue s x g w noUses [] → (∃ l ∈ g.loops, l.visible = false) → loopHalt s (x.who s.cur.core) g = none →
      exec (.mwait w) s = .next (suspendGroup s s.cur.core s.cur.ctx s.cur.group .loop)) ∧
    (∀ c ch, MayIssue s x g w noUses [] → (∃ l ∈ g.loops, l.visible = false) → loopHalt s (x.who s.cur.core) g = some (c, ch) →
      let h := s.chan c ch
      exec (.mwait w) s = .next (laneTrap s s.cur.core s.cur.ctx s.cur.group h.faultCause true true
        (BitVec.ofNat 64 (h.faultAddr.toNat % 2 ^ 56)) e.mask
        (if h.faultCause = 0x100 then h.faultInfo else BitVec.ofNat 64 (ch + h.complete % 2 ^ 56 * 256)))) ∧
    (MayIssue s x g w { noUses with d := true } (if windowOk x.n w.d.toNat then [{ Opd.vw w.d false with rows := 32 }] else []) →
      (windowOk x.n w.d.toNat = true → Issues s x g (.mzero w) w.hdr s g (fun wr =>
        wr.map (fun p => (p.kind, p.reg, p.left, p.lanes, p.vals, p.poison.lanes)) =
          (windowOf e w.d).map (fun r => (PendKind.vec, r, 1, BitVec.allOnes 32, List.replicate 32 0, 0)))) ∧
      (windowOk x.n w.d.toNat = false → WordTraps s g (.mzero w) 0x00D)) ∧
    (DoubleMayIssue s x g w y { noUses with a := true, b := true, c := true, x := 0xFFFFFF00 }
        [Opd.gr w.a false, Opd.gr w.b false, Opd.gr w.c false] → bodyField y 64 27 = 0 → bodyField y 0 32 = 0 →
      let h := w.x.toNat / 2 ^ 20
      let wd := w.x.toNat / 2 ^ 8 % 2 ^ 12
      let chans := (e.gval w.c).toNat % 2 ^ 16
      let ow := (e.gval w.c).toNat / 2 ^ 16
      let t := (e.gval w.a).toNat
      let u (width : Nat) : Unf :=
        { t := t, oy0 := (e.gval w.b).toNat / 2 ^ 16, ox0 := (e.gval w.b).toNat % 2 ^ 16, chans := chans, ow := ow, h := h, w := wd,
          kh := bodyField y 60 4 + 1, kw := bodyField y 56 4 + 1, sy := bodyField y 52 4 + 1, sx := bodyField y 48 4 + 1,
          dy := bodyField y 44 4 + 1, dx := bodyField y 40 4 + 1, py := bodyField y 36 4, px := bodyField y 32 4, e := width }
      (unfWidth g.fmt = none → WordTraps s g (.sunf w y) 0x00F) ∧
      (∀ width, unfWidth g.fmt = some width → h = 0 ∨ wd = 0 ∨ chans = 0 ∨ ow = 0 ∨ t % width ≠ 0 →
        WordTraps s g (.sunf w y) 0x00F) ∧
      (∀ width, unfWidth g.fmt = some width → h ≠ 0 → wd ≠ 0 → chans ≠ 0 → ow ≠ 0 → t % width = 0 →
        (inOwn s (x.who s.cur.core) t (t + h * wd * chans * width - 1) = false → WordTraps s g (.sunf w y) 0x124) ∧
        (inOwn s (x.who s.cur.core) t (t + h * wd * chans * width - 1) = true →
          exec (.sunf w y) s = .next (finishWord e y.hdr 2 .none (.go s { g with unf := some (u width) } [])))))

/-- A pair of operations of different narrow classes that keeps the pair rules issues both in one slot: each reads the values
visible at the slot and writes as its wide word does; a pair that breaks a rule traps, with the first of PAIRCLASS, PAIRDEST, PAIRBANK and
PAIRWIDE (09 R245-R247). Model choices: that both operations read at the slot is deduced, log entry 17. -/
def Obligations.PairedResults : Prop :=
  ∀ (p : PairWord) (s : State) (x : Ctx) (g : Machine.Group) (b : Nat → List (Nat × Nat)) (i1 i2 : Instr),
    LaneActs s x g p.hdr false → p.r0 = false →
    narrowInstr p.op1.opn.toNat (widened p.op1 p.hdr) = some i1 → narrowInstr p.op2.opn.toNat (widened p.op2 p.hdr) = some i2 →
    let e := Env.of s x g
    (p.op1.opn.toNat / 32 = p.op2.opn.toNat / 32 → WordTraps s g (.paired p) 0x001) ∧
    (∀ v1 u1 n1 o1 v2 u2 n2 o2, wordForm e i1 = some (v1, u1, n1, o1) → wordForm e i2 = some (v2, u2, n2, o2) →
      p.op1.opn.toNat / 32 ≠ p.op2.opn.toNat / 32 →
      (¬ PairDest o1 o2 → WordTraps s g (.paired p) 0x002) ∧ (PairDest o1 o2 → ¬ PairBanks o1 o2 → WordTraps s g (.paired p) 0x003) ∧
      (PairDest o1 o2 → PairBanks o1 o2 → ¬ PairNarrow p → WordTraps s g (.paired p) 0x004)) ∧
    (∀ (u1 u2 : Uses) (o1 o2 : List Opd) (pre1 pre2 : Prop) (P Q : List Pend → Prop),
      registerWord e b i1 = some (u1, o1, pre1, P) → registerWord e b i2 = some (u2, o2, pre2, Q) → pre1 → pre2 →
      u1.ok (widened p.op1 p.hdr) → u2.ok (widened p.op2 p.hdr) → OperandsReady e o1 → OperandsReady e o2 → PairRules p o1 o2 →
      ∃ wr1 wr2, exec (.paired p) s = .next (issued s x g p.hdr 1 .none (pairAfter e b i1 i2).1 (pairAfter e b i1 i2).2 (wr1 ++ wr2)) ∧
        P wr1 ∧ Q wr2) ∧
    ∀ (u : Uses) (i : Instr) (w v : LaneWord) (o : List Opd) (pre : Prop) (P : List Pend → Prop),
      (i1 = i ∧ w = widened p.op1 p.hdr ∧ v = widened p.op2 p.hdr ∧ i2 = .vsts v) ∨
        (i2 = i ∧ w = widened p.op2 p.hdr ∧ v = widened p.op1 p.hdr ∧ i1 = .vsts v) →
      let n := sizeBytes v.ty.toNat
      let ops := [Opd.vr v.d false, Opd.gr v.a false, Opd.vr v.b false]
      registerWord e b i = some (u, o, pre, P) → pre → u.ok w → (memUses memTypes).ok v → OperandsReady e o →
      OperandsReady e ops → PairRules p o ops → e.mask ≠ 0 → ScratchReaches e .wr (laneAddress e v ((e.gval v.a).zeroExtend 64)) n n b →
      (∀ k, Active e k → Here e (b k)) →
      ∃ g' wr, exec (.paired p) s = .next (issued s x g p.hdr 1 .none
          (noted e { seeFed s e.agent (e.taints [Opd.gr v.a false, Opd.vr v.b false]) with
            queue := s.queue ++ (activeLanes e).map (fun k => laneStore e (some e.core) ((b k).map (·.2)) (e.val v.d.toNat k false)) })
          g' wr) ∧ P wr ∧ g' = { accessed g with pos := { g.pos with ownStores := g'.pos.ownStores } }

/-- One slot passes with a word that ends no run: nothing but the acting group changes; a pending write whose slot has come is
visible in its lanes and in no other, and the others stand one slot nearer; every register that no such write names keeps its
value; a word's own entries follow the earlier ones in register order, its flag update last (02 R52, R60, R61, 10 R281). At the
end of a run with no marker and no wait, no write is left pending and the lane set is free; the group stands before its next run;
at END before its next trip, with g1 the trip number, or, after the last, its descriptor is complete, and a descriptor that asked
for a word gets zero where PRET gave none; the group then starts the next one if it can see it, else it waits (02 R49, R53, R60,
R63, R68). -/
def Obligations.SlotsAndRunsEnd : Prop :=
  (∀ (s : State) (x : Ctx) (g : Machine.Group) (h : Hdr) (m : Truss) (wr : List Pend), s.grp? = some (x, g) → noEnd h →
    (∀ p ∈ wr, p.reg < 65536) →
    let t := issued s x g h 1 m s g wr
    let r := myGroup t
    ∃ o, Ordered wr o ∧
    let all := g.pos.pend ++ o
    t = s.setGrp r ∧ r.pos.slot = g.pos.slot + 1 ∧ r.pos.word = g.pos.word + 1 ∧ r.pos.run = g.pos.run ∧ r.pos.trip = g.pos.trip ∧
    r.pos.status = g.pos.status ∧ r.outs = g.outs ∧ r.loops = g.loops ∧
    r.pos.pend = (all.filter (fun p => decide (1 < p.left))).map (fun p => { p with left := p.left - 1 }) ∧
    (∀ k, (∀ p, DueWrite all p → p.reg ≠ k) → r.vregs[k]? = g.vregs[k]?) ∧
    (∀ k, 4 ≤ k → (∀ p ∈ all, p.left ≤ 1 → p.kind = .gs → p.reg ≠ k) → r.gregs[k]? = g.gregs[k]?) ∧
    ((∀ p ∈ all, p.left ≤ 1 → p.kind = .spec → p.reg ≠ 8) → r.pos.exmask = g.pos.exmask) ∧
    ∀ p, DueWrite all p → (∀ q, DueWrite all q → q.reg = p.reg → q = p) → (all.filter (fun q => q == p)).length = 1 →
      ∀ old, g.vregs[p.reg]? = some old → old.length = 32 → ∃ new, r.vregs[p.reg]? = some new ∧ new.length = 32 ∧
        ∀ i, i < 32 → (p.lanes.getLsbD i = true → new[i]? = some (p.vals.getD i 0)) ∧
          (p.lanes.getLsbD i = false → new[i]? = old[i]?)) ∧
  (∀ (s : State) (x : Ctx) (g : Machine.Group) (h : Hdr) (wr : List Pend), s.grp? = some (x, g) → h.fin = true ∨ h.bnd = true →
    h.sw = false → g.pos.marked = false → g.pos.parkMarker = false → g.pos.parkFence = none → g.pos.pushes = [] →
    g.pos.parkMmodeV = false → g.pos.trussReq = false → g.pos.poisonRun = none → s.cur.group < x.groups.length →
    (x.base + s.cur.group) % 4 < (s.core s.cur.core).lanesets.length →
    let t := issued s x g h 1 .none s g wr
    let r := myGroup t
    let free := (t.laneSetAt s.cur.core ((x.base + s.cur.group) % 4)).running ≠ some (s.cur.ctx, s.cur.group)
    (s.queue = [] ∨ h.fin = false ∨ Unseen x { g with pos := { g.pos with st := .done } } s.cur.group →
      t.mem = s.mem ∧ t.host = s.host ∧ t.poolLines = s.poolLines ∧ t.launches = s.launches) ∧
    free ∧ r.pos.pend = [] ∧ r.pos.slot = 0 ∧
    (∀ d, x.descOf g.pos.seq = some d →
      (h.fin = false → r.pos.run = g.pos.run + 1 ∧ r.pos.trip = g.pos.trip ∧ r.pos.st = .between ∧ r.pos.status = .eligible) ∧
      (h.fin = true → g.pos.trip + 1 < d.trip.toNat → r.pos.trip = g.pos.trip + 1 ∧ r.pos.run = 0 ∧ r.pos.word = 0 ∧
        r.pos.g1 = BitVec.ofNat 32 (g.pos.trip + 1) ∧ r.pos.g2 = d.arg0 ∧ r.pos.g3 = d.arg1 ∧ r.pos.exmask = g.pos.activity ∧
        r.pos.status = .eligible) ∧
      (h.fin = true → d.trip.toNat ≤ g.pos.trip + 1 →
        ((∀ d', x.descOf (g.pos.seq + 1) = some d' → d'.seen.getLsbD s.cur.group = false) →
          r.pos.st = .done ∧ r.pos.status = .waiting) ∧
        (∀ d', x.descOf (g.pos.seq + 1) = some d' → d'.seen.getLsbD s.cur.group = true → d'.regroup = none → d'.bar = false →
          HasWork d' s.cur.group → x.trig = none → Started r s.cur.group d') ∧
        ∀ e ∈ (t.ctx s.cur.core s.cur.ctx).strm.returnQ, e.seq = d.seq → d.ret = true → s.cur.group < e.words.length →
          e.words.getD s.cur.group none ≠ none)))

/-- A descriptor that becomes visible is started by a waiting group whose next one it is, which sees its FMT flags to the group's FMT
and FMT stack; one with no active lane of the group, or no trip, is completed at once; the last earlier completion, with the groups'
remote accesses performed, releases a barrier descriptor to every waiting group that sees it (02 R49, R50, R69, 03 R77, 08 R222). The
start of a descriptor acquires what its EMIT released, the control stores before it having left their queue, and a barrier's what the
groups did before (08 R220). Model choices: the form of releases is the model's, log entry 5; the descriptors become visible to a group in
their order, log entry 8; zero on top of an empty FMT stack, log entry 48. -/
def Obligations.DescriptorsStart : Prop :=
  ∀ (s : State) (c k g : Nat) (x : Ctx) (r : Machine.Group) (d : Desc),
    Live s c k x → x.groups[g]? = some r → r.pos.status = .waiting → NextIs x r d → d.regroup = none →
    (d.bar = true → (∃ e, x.strm.blockQ.head? = some e ∧ e.seq = d.seq) ∧ ∀ o ∈ x.groups, nextNumber o = d.seq →
      (∀ v ∈ o.outs, v.remote = []) ∧ ∀ st ∈ o.rstores, st.performed = true) → g < 32 →
    (∀ p q, x.strm.blockQ = p ++ d :: q → (∀ e ∈ p, e.seen.getLsbD g = true) →
      (HasWork d g → ∃ t, exec (.descriptorVisible c k g) s = .next t ∧ Started (t.group c k g) g d ∧ FmtFlagged d r (t.group c k g)) ∧
      (¬ HasWork d g → ∃ t, exec (.descriptorVisible c k g) s = .next t ∧ (t.group c k g).pos.st = .done ∧
        (t.group c k g).pos.seq = d.seq ∧ (t.group c k g).pos.status = .waiting ∧ FmtFlagged d r (t.group c k g))) ∧
    (d.bar = true → d.seen.getLsbD g = true → HasWork d g →
      ∃ t, exec (.barrierRelease c k) s = .next t ∧ Started (t.group c k g) g d ∧ FmtFlagged d r (t.group c k g) ∧
        ((∀ q ∈ s.releases, q.link ≠ .barrier c k d.time) → ∀ h, h < x.groups.length →
          Covers s t (fun e => e.agent = groupPath c k h .l ∧ e.order ≤ s.freeCtr) (groupPath c k g .l))) ∧
    (d.bar = false → ∀ p q, x.strm.blockQ = p ++ d :: q → (∀ e ∈ p, e.seen.getLsbD g = true) →
      let u := flushWhere s (fun st => !st.host && st.agent == ctxAgent c k .c && decide (st.order ≤ d.time))
      ∃ t, exec (.descriptorVisible c k g) s = .next t ∧
        (∀ st ∈ t.queue, st.agent = ctxAgent c k .c → st.host = true ∨ d.time < st.order) ∧
        Covers u t (fun e => ∃ r ∈ s.releases, r.link = .block c k d.time ∧ r.covers e = true) (groupPath c k g .l))

/-- A result is written in its lanes, and a Parked group whose last result it is goes on; a queue gives its oldest waiting QPOP its
elements in lane order, with their poison, and acquires at cluster scope what the pushes of these elements released; a push enters its
queue when there is room and the group's remote accesses are over, and its release covers what the group did or acquired; a fence's wait
ends with its work, and it orders and releases as its scope and paths say; an acknowledged store leaves the group's count (02 R63, R68,
03 R105-R107, 07 R183, R193, 08 R211, R216, R220-R222, R227, 10 R300). A remote access is performed at its core when its lines are present, each in the order of
issue at its bytes: a load's lanes get their elements; a store, oldest of its core and with no earlier store of the group in its queue,
writes its bytes with the poison of each lane. A lane's read-modify-write, of memory or scratchpad, reads the old value, stores the new
one, and leaves every other byte alone (07 R183, 08 R212, R216, 14 R398). Model choices: when each happens is the agenda, log entries 2
and 8; how far the stores of a core lie apart and the form of releases, log entry 5. -/
def Obligations.GroupWaitsEnd : Prop :=
  (∀ (s : State) (c k g : Nat) (x : Ctx) (r : Machine.Group), Moves s c k g x r →
    (∀ (idx : Nat) (v : VarRes), r.outs[idx]? = some v → v.written = false → v.remote = [] → v.popQueue = none →
      (r.pos.status ≠ .parked → v.gs = false → v.conflict = 0 → r.loops = [] → v.regs.Nodup →
        (∀ q ∈ v.regs, ∃ old, r.vregs[q]? = some old ∧ old.length = 32) →
        ∃ t, exec (.varResultWritten c k g idx) s = .next t ∧ (t.group c k g).outs[idx]? = some { v with written := true } ∧
          (∀ q, q ∉ v.regs → (t.group c k g).vregs[q]? = r.vregs[q]?) ∧
          ∀ (j q : Nat) (vals : List Elem), v.regs[j]? = some q → v.vals[j]? = some vals →
            ∃ new, (t.group c k g).vregs[q]? = some new ∧ ∀ i, i < 32 →
              (v.lanes.getLsbD i = true → new[i]? = some (vals.getD i 0)) ∧
              (v.lanes.getLsbD i = false → new[i]? = (r.vregs.getD q VReg.zero)[i]?)) ∧
      (r.pos.status = .parked → r.pos.parkMarker = true → r.pos.parkFence = none → r.pos.parkMmodeV = false → r.pos.pushes = [] →
        r.pos.trussReq = false → r.spawnPend = [] → Calm r → Unseen x r g → (∀ (j : Nat) (u : VarRes), j ≠ idx → r.outs[j]? = some u → u.written = true) →
        ∃ t, exec (.varResultWritten c k g idx) s = .next t ∧ (t.group c k g).outs = [] ∧
          (t.group c k g).pos.status = if r.pos.st = .done then .waiting else .eligible)) ∧
    (∀ (q i : Nat) (v : VarRes) (elems : List W32) (bad : List (Option (Nat × W64))) (times : List Nat) (rest : List (Nat × Nat)),
      (s.core c).queues[q]? = some { elems := elems, poison := bad, times := times, pops := (k, g) :: rest } → r.outs[i]? = some v → v.popQueue = some q → v.written = false →
      (∀ (j : Nat) (u : VarRes), j < i → r.outs[j]? = some u → u.popQueue = some q → u.written = true) →
      let lanes := (List.range 32).filter (fun i => v.lanes.getLsbD i)
      lanes.length ≤ elems.length →
      ∃ t, exec (.qpopTake c q) s = .next t ∧
        (t.core c).queues[q]? = some {
          elems := elems.drop lanes.length, poison := bad.drop lanes.length, times := times.drop lanes.length, pops := rest } ∧
        Covers s t (fun e => ∃ r ∈ s.releases, r.link = .queue c q ∧ r.time ∈ times.take lanes.length ∧ r.reach.has c = true ∧
          r.covers e = true) (groupPath c k g .l) ∧ (Invalidates s x 2 → Covers s t InMemory (groupPath c k g .l)) ∧
        ∃ u : VarRes, (t.group c k g).outs[i]? = some u ∧ u.popQueue = none ∧ u.written = false ∧
          (∀ (n lane : Nat) (cause : Nat × W64), lanes[n]? = some lane → bad[n]? = some (some cause) →
            u.poison.lanes.getLsbD lane = true) ∧
          ∀ (n lane : Nat), lanes[n]? = some lane → ∃ vals, u.vals = [vals] ∧
            vals[lane]? = some (((elems.getD n 0).zeroExtend 36 : Elem))) ∧
    (∀ (p : Push) (rest : List Push) (tc : Nat), r.pos.pushes = p :: rest → RemoteOver r →
      queueCore (Env.of s x r) p.sel = some tc → tc < s.cores.length → Calm r →
      ∀ y : RQueue, (s.core tc).queues[p.sel.toNat % 16]? = some y → y.elems.length + p.elems.length ≤ 256 →
      y.poison.length = y.elems.length →
      ∃ t, exec (.qpushEnter c k g) s = .next t ∧ (t.group c k g).pos.pushes = rest ∧
        (t.core tc).queues[p.sel.toNat % 16]? = some { y with
          elems := y.elems ++ p.elems, poison := y.poison ++ p.poison, times := y.times ++ List.replicate p.elems.length s.freeCtr } ∧
        (∀ q ∈ t.queue, q.agent = groupPath c k g .l → q.host = true) ∧
        (Unseen x r g → t.releases = s.releases ++ [releasing s (.queue tc (p.sel.toNat % 16)) [groupPath c k g .l]
          [.one (groupPath c k g .l)] (reachOf s x c 2)])) ∧
    (∀ (scope : BitVec 3) (o : BitVec 2), r.pos.status = .parked → r.pos.parkFence = some (.fence scope o) →
      (o.getLsbD 1 = true → StoresReach r scope ∧ (scope ≠ 0 → r.spawnPend = [])) → (scope ≠ 0 → ∀ l ∈ r.loops, l.complete = true) →
      (∀ v ∈ r.outs, v.remote = []) → Calm r →
      let u := groupFlush s (groupPath c k g .l) (o.getLsbD 1) scope
      let reach := reachOf s x c scope.toNat
      let me (p : Path) : Agent := groupPath c k g p
      ∃ t, exec (.fenceWorkDone c k (some g)) s = .next t ∧ (t.group c k g).pos.parkFence = none ∧
        (scope ≠ 0 → o = 3 → ∀ a ∈ [me .l, me .s], ∀ p ∈ [Path.l, .u], Covers u t (fun e => e.covered a = true) (me p)) ∧
        (scope ≠ 0 → o.getLsbD 0 = true → ∀ p ∈ [Path.l, .u, .s],
          Covers u t (FencedTo u reach c [me .l, me .u, me .s]) (me p) ∧ (Invalidates u x scope.toNat → Covers u t InMemory (me p))) ∧
        (Unseen x r g → t.poolLines = (if o.getLsbD 1 then released u scope else u).poolLines ∧
          t.poolDev = (if o.getLsbD 1 then released u scope else u).poolDev ∧
          t.releases = u.releases ++ (if scope ≠ 0 ∧ o.getLsbD 1 = true then
            [releasing s .fence [me .l, me .s] [.one (me .l), .one (me .u), .one (me .s)] reach] else []))) ∧
    (∀ scope p q : BitVec 3, r.pos.status = .parked → r.pos.parkFence = some (.cross scope p q) → StoresReach r scope →
      (p = 3 → ∀ l ∈ r.loops, l.visible = true) → (p = 4 → r.spawnPend = []) → (∀ v ∈ r.outs, v.remote = []) → Calm r →
      let me (p : BitVec 3) : Agent := groupPath c k g (codePath p)
      let from_ := earlierPath (groupPath c k g) true p
      let u := groupFlush s (groupPath c k g .l) (decide (p = 1)) scope
      let reach := reachOf s x c scope.toNat
      ∃ t, exec (.fenceWorkDone c k (some g)) s = .next t ∧ (t.group c k g).pos.parkFence = none ∧
        (p ≠ q ∨ scope ≠ 0 → Covers u t (fun e => ∃ a ∈ from_, e.covered a = true) (me q)) ∧
        (p = q → scope ≠ 0 → Covers u t (FencedTo u reach c from_) (me q) ∧ (Invalidates u x scope.toNat → Covers u t InMemory (me q))) ∧
        (scope = 0 → p = 1 → q = 3 → ∀ st ∈ t.queue, st.agent = me 1 → me 3 ∈ st.toward) ∧
        (Unseen x r g → t.poolLines = (released u scope).poolLines ∧ t.poolDev = (released u scope).poolDev ∧
          t.releases = u.releases ++ (if p ≠ q ∨ scope ≠ 0 then
            [releasing s (if p = q then .fence else .cross) from_ [.one (me q)] reach] else []))) ∧
    ∀ (j : Nat) (st : RemStore), r.rstores[j]? = some st → st.performed = true →
      exec (.remoteStoreAck c k g j) s = .next (s.setGroup c k g { r with rstores := r.rstores.eraseIdx j })) ∧
  (∀ (s : State) (c k g : Nat) (x : Ctx) (r : Machine.Group), Stands s c k g x r → clusterFreed s x = false →
    (∀ (idx : Nat) (v : VarRes) (a : RemAcc) (rest : List RemAcc) (ty : BitVec 4), r.outs[idx]? = some v → v.remote = a :: rest →
      a.op = .load ty → v.vals.length = 1 → ty ≠ 9 → v.junk = [] → (∀ (i : Nat) (o : VarRes), i < idx → r.outs[i]? = some o → o.remote = []) →
      NoStoreAhead r a → (a.lanes.map (·.lane)).Nodup →
      (∀ l ∈ a.lanes, l.bytes ≠ [] ∧ l.lane < 32 ∧ ∀ b ∈ l.bytes, b.1 ≠ c → presenceOf (s.core b.1) (b.2 / 128) = 0) →
      ∃ (t : State) (u : VarRes), exec (.remoteScratchpadAccess c k g idx) s = .next t ∧ (t.group c k g).outs[idx]? = some u ∧ u.remote = rest ∧
        u.written = v.written ∧ u.lanes = v.lanes ∧
        ∀ l ∈ a.lanes, (v.vals.getD 0 []).length = 32 → (u.vals.getD 0 [])[l.lane]? = some (BitVec.ofNat 36 (heldAs ty.toNat
          (((List.range l.bytes.length).map (fun j =>
            (partByte s (groupPath c k g .l) l (l.bytes.getD j (0, 0))).toNat * 256 ^ j)).sum) % 2 ^ 32))) ∧
    (∀ (idx : Nat) (v : VarRes) (a : RemAcc) (rest : List RemAcc) (md : BitVec 3) (ty : BitVec 4) (l : RemLane) (pa : Nat),
      r.outs[idx]? = some v → v.remote = a :: rest → a.op = .atomic md ty → a.lanes = [l] → l.lane < 32 → v.junk = [] → l.junk = none →
      (∀ (i : Nat) (o : VarRes), i < idx → r.outs[i]? = some o → o.remote = []) → NoStoreAhead r a → MemoryOk s →
      let n := sizeBytes ty.toNat
      l.bytes = (List.range n).map (fun j => (a.core, pa + j)) → l.operand < 2 ^ (8 * n) → l.cmp < 2 ^ (8 * n) →
      ty = 0 ∨ ty = 1 ∨ ty = 10 ∨ ty = 11 →
      let done (old : Nat) (t : State) : Prop := ∃ u : VarRes, exec (.remoteScratchpadAccess c k g idx) s = .next t ∧
        (t.group c k g).outs[idx]? = some u ∧ u.remote = rest ∧
        ∀ (h : Nat) (vs : List Elem), v.vals[h]? = some vs → l.lane < vs.length →
          (u.vals.getD h [])[l.lane]? = some (BitVec.ofNat 36 (old / 2 ^ (32 * h) % 2 ^ 32))
      let stores (old : Nat) : Option Nat := amoStores (atomicOf md) n (decide (ty = 1 ∨ ty = 11)) old l.operand l.cmp
      (a.core = 192 → spillHit s pa n = [] → (∀ j, j < n → tierOf s (pa + j) ≠ .hole) →
        ∃ t, done (leValue s pa n) t ∧ WritesGrow s t (groupPath c k g .l) (fun b => pa ≤ b ∧ b < pa + n) ∧
          match stores (leValue s pa n) with | some w => Stored s t pa n w | none => SameBytes s t) ∧
      (a.core < s.cores.length → a.core < 192 → (a.core ≠ c → ∀ b ∈ l.bytes, presenceOf (s.core a.core) (b.2 / 128) = 0) →
        let old := ((List.range n).map (fun j => ((s.core a.core).scr.get (pa + j)).toNat * 256 ^ j)).sum
        ∃ t, done old t ∧ WritesGrow s t (groupPath c k g .l) (fun b => pa ≤ b ∧ b < pa + n) ∧
          (∀ d b, d ≠ a.core → (t.core d).scr.get b = (s.core d).scr.get b) ∧
          ∀ b, (t.core a.core).scr.get b = match stores old with
            | some w => if pa ≤ b ∧ b < pa + n then leByte w (b - pa) else (s.core a.core).scr.get b
            | none => (s.core a.core).scr.get b)) ∧
    (∀ (j : Nat) (st : RemStore), r.rstores[j]? = some st → st.performed = false → st.core < s.cores.length → Memory.wf s = true →
      (∀ (i : Nat) (o : RemStore), i < j → r.rstores[i]? = some o → o.core = st.core → o.performed = true) →
      (∀ v ∈ r.outs, ∀ a ∈ v.remote, st.order ≤ a.order) →
      (∀ q ∈ s.queue, q.agent = groupPath c k g .l → q.host = false → st.order ≤ q.order) →
      let cells : List (Nat × Byte) := st.parts.flatMap (·.1)
      (∀ b ∈ cells, presenceOf (s.core st.core) (b.1 / 128) = 0) →
      ∃ t, exec (.remoteScratchpadAccess c k g (r.outs.length + j)) s = .next t ∧
        (t.group c k g).rstores[j]? = some { st with performed := true } ∧
        WritesGrow s t (groupPath c k g .l) (fun a => ∃ b ∈ cells, b.1 = a) ∧
        (∀ a, (∀ b ∈ cells, b.1 ≠ a) → (t.core st.core).scr.get a = (s.core st.core).scr.get a) ∧
        (∀ (i : Nat) (b : Nat × Byte), cells[i]? = some b → (∀ (m : Nat) (o : Nat × Byte), i < m → cells[m]? = some o → o.1 ≠ b.1) →
          (t.core st.core).scr.get b.1 = b.2) ∧
        ∀ (i : Nat) (p : List (Nat × Byte) × Option Nat), st.parts[i]? = some p → ∀ b ∈ p.1,
          (∀ (m : Nat) (o : List (Nat × Byte) × Option Nat), i < m → st.parts[m]? = some o → ∀ q ∈ o.1, q.1 / 4 ≠ b.1 / 4) →
          (poisonOf t (some st.core) b.1 1).map (·.1) = p.2))

/-- REGROUP with every group at its marker and none in truss mode: lane j of the regrouped team takes, in registers below the count,
the low 32 bits of the j-th active lane of the mask register, and its origin; a group that receives lanes takes the scalar registers,
special registers, FMT stack and unfolding descriptor of the lowest-numbered group they come from; a lane that receives none, a group
that receives none, and registers from the count on keep what they held; the mask register and the active mask are the first lanes;
every write of the team happens before what any of its agents does next; in truss mode it traps REGROUPTRUSS (03 R84-R86, 06 R168). Model choices: the taint of a migrated register is deduced, log entry 20. -/
def Obligations.RegroupMigrates : Prop :=
  ∀ (s : State) (c k : Nat) (x : Ctx) (d : Desc) (rest : List Desc) (m n : Nat), Live s c k x → c < s.cores.length →
    x.strm.blockQ = d :: rest → d.regroup = some (m, n) → m < 16 → x.strm.masks.length = 16 →
    (∀ r ∈ x.groups, r.pos.status = .waiting ∧ (∀ v ∈ r.outs, v.written = true) ∧ r.pos.pushes = [] ∧ r.spawnPend = [] ∧
      (∀ st ∈ r.rstores, st.performed = true) ∧ ∀ v ∈ r.vregs, v.length = 32) →
    let places := placesOf (x.mask (BitVec.ofNat 4 m) &&& x.strm.active)
    ((∀ g, g < x.groups.length → isTruss s c k g = false) →
      ∃ t, exec (.regroupMigration c k) s = .next t ∧
        (∀ a : Agent, a.of c k = true →
          Covers (flushWhere s (fun q => q.agent.of c k && !q.host)) t (fun e => e.agent.of c k = true) a) ∧
        (∀ i, i < 1024 → (t.ctx c k).strm.active.getLsbD i = decide (i < places.length)) ∧
        (t.ctx c k).mask (BitVec.ofNat 4 m) = (t.ctx c k).strm.active ∧
        (∀ r ∈ (t.ctx c k).groups, r.pos.st = .done ∧ r.pos.seq = d.seq) ∧
        (∀ (j q p : Nat) (r o : Machine.Group) (v : VReg) (e : Elem), places[j]? = some p → q < n → x.groups[j / 32]? = some r →
          x.groups[p / 32]? = some o → q < r.vregs.length → o.vregs[q]? = some v → v[p % 32]? = some e →
          (∃ w, (t.group c k (j / 32)).vregs[q]? = some w ∧ w[j % 32]? = some (e &&& 0xFFFFFFFF)) ∧
          ∀ z, o.origin[p % 32]? = some z → j % 32 < r.origin.length → (t.group c k (j / 32)).origin[j % 32]? = some z) ∧
        (∀ (h : Nat) (r : Machine.Group), x.groups[h]? = some r → places.length ≤ 32 * h →
          t.group c k h = { r with pos := { r.pos with seq := d.seq, st := .done } }) ∧
        ∀ (h : Nat) (r o : Machine.Group) (j0 p0 : Nat), x.groups[h]? = some r → j0 / 32 = h → places[j0]? = some p0 →
          (∀ j p, j / 32 = h → places[j]? = some p → p0 / 32 ≤ p / 32) → x.groups[p0 / 32]? = some o →
          let r' := t.group c k h
          r'.gregs = o.gregs ∧ r'.pos.g1 = o.pos.g1 ∧ r'.pos.g2 = o.pos.g2 ∧ r'.pos.g3 = o.pos.g3 ∧ r'.fmt = o.fmt ∧
          r'.pos.fmtStack = o.pos.fmtStack ∧ r'.shape = o.shape ∧ r'.xpats = o.xpats ∧ r'.gstat = o.gstat ∧ r'.unf = o.unf ∧
          r'.loops = r.loops ∧ r'.pos.exmask = r.pos.exmask ∧ (∀ q, n ≤ q → r'.vregs[q]? = r.vregs[q]?) ∧
          ∀ (q j : Nat) (v : VReg), r.vregs[q]? = some v → j < 32 → places.length ≤ 32 * h + j →
            (∃ w, r'.vregs[q]? = some w ∧ w[j]? = v[j]?) ∧ r'.origin[j]? = r.origin[j]?) ∧
    ((∃ g, g < x.groups.length ∧ isTruss s c k g = true) → Trappable x →
      ∃ t, exec (.regroupMigration c k) s = .next t ∧ (t.ctx c k).trig = some (ctrlTrig 0x039 false x.pc 0 0 0) ∧
        ∀ (g : Nat) (r : Machine.Group), x.groups[g]? = some r → (t.group c k g).vregs = r.vregs)

/-- Records of SPAWN words: accepted by the gatherer of their core in issue order, the join counter rising by one for each, or written
to the free places of the spill buffer, after which the group goes on past its SPAWN, and read back as room frees; a SPAWN releases what
its group did once its remote accesses are over, and the started team acquires it; a partial sequence forms when the gatherer is idle; a
formed team starts as 03 R94 says (03 R89, R91-R94, R97, R99; 07 R183, 08 R220, R222). Model choices: the
places in the buffer, one record a refill and the order of formed teams are the model's, log entry 36; what happens to the counter in a
severed region, log entry 36. -/
def Obligations.SpawnedRecordsMove : Prop :=
  ∀ (s : State) (c : Nat), c < s.cores.length →
    (∀ k g x r batch rest, Moves s c k g x r → r.spawnPend = batch :: rest → (r.pos.status = .suspended .spill → rest ≠ []) →
      RemoteOver r → FirstOf s c batch → Calm r →
      let u := flushWhere s (fun q => q.agent == groupPath c k g .l && q.host == false)
      ∃ t, exec (.spawnRecordsAccepted c k g) s = .next t ∧ (t.group c k g).spawnPend = rest ∧ (∀ b ∈ batch, Gathered t c b) ∧
        (∀ b, batch.head? = some b → Unseen x r g →
          t.releases = s.releases ++ [releasing s (.spawn b.order) [groupPath c k g .l] [.one (groupPath c k g .l)] .all]) ∧
        ∀ b, batch = [b] → severedAt s b.joinPa = false → MemoryOk u → Unseen x r g → Stored u t b.joinPa 4 (leValue u b.joinPa 4 + 1) ∧
          WritesGrow u t (groupPath c k g .s) (fun a => b.joinPa ≤ a ∧ a < b.joinPa + 4)) ∧
    (∀ k g x r batch l, Moves s c k g x r → r.spawnPend = [batch] → r.pos.status = .suspended .spill → RemoteOver r →
      FirstOf s c batch → x.launch? s = some l → Calm r →
      (∀ slot ∈ freeSlots l 0 batch.length,
        ∃ pa, checkAccess s l.part l.asid .sp pathS (l.spillBase + BitVec.ofNat 64 (32 * slot)) 1 false = .ok pa) →
      ∃ t l', exec (.spillWriteComplete c k g) s = .next t ∧ (t.group c k g).spawnPend = [] ∧
        (t.group c k g).pos.status ≠ .suspended .spill ∧
        t.launch? x.part x.launch = some l' ∧ l'.spilled.map (·.record) = l.spilled.map (·.record) ++ batch) ∧
    (∀ l r pa, oldestSpill s c = some (l, r) → r.overwritten = false → gatherLoad s c < 4096 → l ∈ s.launches →
      (s.launches.filter (fun m => m.part == l.part && m.id == l.id)) = [l] →
      checkAccess s l.part l.asid .sp pathS (l.spillBase + BitVec.ofNat 64 (32 * r.slot)) 1 false = .ok pa →
      r.record.entry ∈ l.img.entries →
      ∃ t l', exec (.gathererRefill c) s = .next t ∧ Gathered t c r.record ∧ t.launch? l.part l.id = some l' ∧
        l'.spilled = l.spilled.filter (fun o => decide (o.order ≠ r.order))) ∧
    (∃ t, exec (.gathererIdleTimeout c) s = .next t ∧ (∀ r ∈ (s.core c).gather, Gathered t c r) ∧
      ∀ r ∈ (t.core c).gather, forming s r.part r.launch = false) ∧
    ∀ rs l k ls, (s.core c).formed = [rs] → rs ≠ [] → rs.length ≤ 32 →
      (∀ r ∈ rs, s.launch? r.part r.launch = some l) → l.status = .placed → (∀ r ∈ rs, powerStopped s r.part = false) →
      childPlace (s.core c) l.img.n = some (k, ls) →
      k < (s.core c).ctxs.length →
      ∃ t y, exec (.childTeamStart c) s = .next t ∧ t.ctx c k = y ∧ (t.core c).formed = [] ∧ y.resident = true ∧ y.base = ls ∧
        (∀ a : Agent, a.of c k = true →
          Covers s t (Released s (fun l => ∃ r ∈ rs, l = .spawn r.order) c) a ∧ Covers s t InMemory a) ∧
        y.n = l.img.n ∧ y.q = l.img.q ∧ y.mode = .user ∧ y.pc = BitVec.ofNat 64 ((rs.map (·.entry)).getD 0 0) ∧
        y.rd 1 = BitVec.ofNat 64 rs.length ∧ y.rd 3 = l.arg ∧
        (∃ ch, y.child = some ch ∧ y.rd 2 = BitVec.ofNat 64 ch.depth ∧ ch.joins = rs.map (·.join) ∧
          ∀ r ∈ rs, r.depth ≤ ch.depth) ∧
        (∀ i, i < 1024 → y.strm.active.getLsbD i = decide (i < rs.length)) ∧ y.mask 0 = y.strm.active ∧ y.groups.length = 1 ∧
        ∀ (i j : Nat) (r : SpawnRec) (p : W32), rs[i]? = some r → r.payload[j]? = some p → j < l.img.n →
          ∃ v, (y.group 0).vregs[j]? = some v ∧ v[i]? = some ((p.zeroExtend 36 : Elem))

/-- A matrix loop performs its K-steps one at a time, each cell of its window taking what the step makes of it and the rest of the
group's registers staying, with no taint left on the window (08 R230); the last step completes it, and its completion then becomes
visible to MWAIT; an INT8 cell adds exact products to its 36-bit accumulator and an L6 cell the log products at the two scales, and
both saturate, which sets ACCSAT; a BF16 cell adds one exact product to its F36 accumulator, rounded once to nearest even, a subnormal
operand read as a zero, every NaN result the canonical one (06 R160, R161, 05 R133, R140-R142). Model choices: overlapping windows are the model's, log entry 15. -/
def Obligations.MatrixLoopsRun : Prop :=
  ∀ (s : State) (c k g : Nat) (x : Ctx) (r : Machine.Group), Moves s c k g x r →
    (∀ l p, r.loops = [l] → l.complete = false → productOf l.fmt = some p → (∀ tr, x.trig = some tr → tr.preempt = false) →
      isTruss s c k g = true → l.waits s (x.who c) = [] → l.win.length = 32 → l.win.Nodup → (∀ q ∈ l.win, q < r.vregs.length) →
      ∃ t l', exec (.matrixLoopStep c k g) s = .next t ∧ (t.group c k g).loops = [l'] ∧
        l' = { l with next := l.next + 1, complete := decide (l.k ≤ l.next + 1), flags := l'.flags, told := [] } ∧
        (∀ q, q ∉ l.win → (t.group c k g).vregs[q]? = r.vregs[q]?) ∧
        (∀ q ∈ l.win, (t.group c k g).vtaint.getD q false = false) ∧
        ∀ (i j q : Nat), l.win[i]? = some q → j < 32 →
          let xs := (List.range p.depth).map (fun kk => match l.aElem p l.next i kk with
            | some e => (readElem s (groupPath c k g .u) (x.who c) p e).1 | none => p.zero)
          let ys := (List.range p.depth).map (fun kk => (readElem s (groupPath c k g .u) (x.who c) p (l.bElem p l.next j kk)).1)
          ((t.group c k g).vregs.getD q VReg.zero)[j]? = some (BitVec.ofNat 36
            (cellStep p l.fmt ((r.vregs.getD q VReg.zero).getD j 0).toNat xs ys).1)) ∧
    (r.pos.status ≠ .suspended .loop → r.pos.parkMmodeV = false →
      exec (.matrixLoopComplete c k g) s = .next (s.setGroup c k g
        { r with loops := r.loops.map (fun l => { l with visible := l.visible || l.complete }) })) ∧
    (r.pos.status = .suspended .loop → (∀ l ∈ r.loops, l.complete = true ∨ l.visible = true) → r.pos.parkMmodeV = false →
      ∃ t, exec (.matrixLoopComplete c k g) s = .next t ∧ (t.group c k g).pos.status = .eligible ∧
        ∀ l ∈ (t.group c k g).loops, l.visible = true) ∧
    ∀ (fmt : W32) (acc : Nat) (xs ys : List Nat), acc < 2 ^ 36 →
      let a : Int := if 2 ^ 35 ≤ acc then (acc : Int) - 2 ^ 36 else acc
      let top : Int := 2 ^ 35 - 1
      let kept (v : Int) : Nat := (max (-top) (min top v) % 2 ^ 36).toNat
      let type (n : Nat) : Nat := fmt.toNat / 2 ^ n % 16
      let i8 (sg : Bool) (v : Nat) : Int := if sg = true ∧ 128 ≤ v % 256 then (v % 256 : Nat) - 256 else (v % 256 : Nat)
      let scale (n : Nat) : Int := (BitVec.ofNat 6 (fmt.toNat / 2 ^ n)).toInt
      let cell (sum : Int) : Nat × W32 := (kept (a + sum), if -top ≤ a + sum ∧ a + sum ≤ top then 0 else 0x20)
      (type 28 = 4 ∨ type 28 = 5 → type 24 = 4 ∨ type 24 = 5 → cellStep .int8 fmt acc xs ys =
        cell ((xs.zip ys).map (fun v => i8 (decide (type 28 = 4)) v.1 * i8 (decide (type 24 = 4)) v.2)).sum) ∧
      ((∀ v ∈ xs, v < 64) → (∀ v ∈ ys, v < 64) → cellStep .l6 fmt acc xs ys =
        cell ((xs.zip ys).map (fun v => logProduct v.1 v.2 (scale 18) (scale 12))).sum) ∧
      ∀ b d : Nat, b < 2 ^ 16 → d < 2 ^ 16 →
        let out := cellStep .bf16 fmt acc [b] [d]
        (FiniteFloat 8 b → FiniteFloat 8 d → FiniteFloat 36 acc →
          let v := floatValue 36 acc + flushed b * flushed d
          (v ≠ 0 → Rounded 36 0 v out) ∧ (v = 0 → out.1 % 2 ^ 35 = 0 ∧ out.2 = 0)) ∧
        (IsNan 8 b ∨ IsNan 8 d ∨ IsNan 36 acc → out.1 = 0x7FC000000)

/-- The event that ends the wait of a control word. -/
def Retries (c k : Nat) (ev i : Instr) : Prop :=
  match i with
  | .emit _ _ _ _ _ _ _ _ _ | .divg _ | .elseM | .recon | .regroup _ _ => ev = .stalledEmitRetire c k
  | .rpop _ => ev = .returnReady c k
  | .ifence => ev = .ifenceComplete c k
  | .ktrig => ev = .ktrigComplete c k
  | .kwait => ev = .kwaitSatisfied c k
  | .jwait _ _ => ev = .jwaitZero c k
  | .exit => ev = .exitComplete c k
  | .fence _ _ | .xfence _ _ _ => ev = .fenceWorkDone c k none
  | _ => False

/-- A live team's waiting word executes again at its event, and retires once its wait is over, as it does when it need not wait: a
stalled EMIT, DIVG, ELSE, RECON or REGROUP, RPOP, IFENCE, KTRIG, KWAIT, JWAIT, EXIT, FENCE, XFENCE; a walk whose page has a translation
puts it in the core's TLBs, and the waiting control or lane word is tried again (02 R48, R54, R65, 03 R73, R84, R100, 04 R116, 08 R225,
R226, R229, 10 R305, 12 R351). Model choices: the waiting word is tried again, log entry 7; the TLB is the model's set, log entry 8. -/
def Obligations.ControlWaitsEnd : Prop :=
  ∀ (s : State) (c k : Nat) (x : Ctx), Live s c k x →
    let s' := actingAt s c k
    let y := retired x (x.pc + 1)
    (∀ ev i, x.wait = some i → Retries c k ev i → exec ev s = exec i s') ∧
    (∀ a b t m push pop peek ret bar, x.wait = some (.emit a b t m push pop peek ret bar) → Acts s' x [a, b, t] [m] →
      Emits x a t push pop peek ret →
      exec (.stalledEmitRetire c k) s = .next (emission s' (emitted s.freeCtr x a b t m push pop peek ret bar))) ∧
    (x.strm.blockQ.length < 256 →
      (∀ a, x.wait = some (.divg a) → Acts s' x [] [a] → x.strm.recon.length < 16 → x.strm.fmtDepth ≠ 16 →
        exec (.stalledEmitRetire c k) s = .next (s'.setMe (diverged s.freeCtr x a))) ∧
      (∀ tok rest, x.strm.recon = tok :: rest → tok.poison = false →
        (x.wait = some .elseM → tok.phase = false → exec (.stalledEmitRetire c k) s = .next (s'.setMe (turnedElse s.freeCtr x tok rest))) ∧
        (x.wait = some .recon → x.strm.fmtDepth ≠ 0 → exec (.stalledEmitRetire c k) s = .next (s'.setMe (reconverged s.freeCtr x tok rest)))) ∧
      ∀ m n, x.wait = some (.regroup m n) → Acts s' x [] [m] → x.mode = .user → n.toNat + 1 ≤ x.n → x.strm.recon = [] →
        exec (.stalledEmitRetire c k) s = .next (s'.setMe (regrouping s.freeCtr x m n))) ∧
    (∀ d e rest, x.wait = some (.rpop d) → x.strm.returnQ = e :: rest → e.words.length ≤ 32 → (∀ w ∈ e.words, w.isSome) →
      WordsDone s' x e.time → (∀ p ∈ e.poison, p = none) →
      ∃ (v : Mask) (t : State), (∀ g i, g < 32 → i < 32 → v.getLsbD (32 * g + i) = ((e.words.getD g none).getD 0).getLsbD i) ∧
        exec (.returnReady c k) s = .next t ∧ t.ctx c k =
          retired ({ x with strm := { x.strm with returnQ := rest } }.wrMask d v) (x.pc + 1)) ∧
    (x.wait = some .ifence → x.strm.blockQ = [] → AccessesDone x →
      ∃ t, exec (.ifenceComplete c k) s = .next t ∧ t.ctx c k = y) ∧
    (x.wait = some .ktrig → x.mode = .user → x.strm.blockQ = [] → StoresAcked x → ReadsDone x →
      ∃ t, exec (.ktrigComplete c k) s = .next t ∧ t.ctx c k = { y with trigger := x.trigger || x.child.isNone }) ∧
    (x.wait = some .kwait → x.mode = .user →
      (∀ l, s.launch? x.part x.launch = some l → ∀ p ∈ l.producers, p = 0 ∨ producerReady s x.part p = true) →
      ∃ t, exec (.kwaitSatisfied c k) s = .next t ∧ t.ctx c k = y) ∧
    (∀ a o pa, x.wait = some (.jwait a o) → x.child = none → x.poison a = none →
      checkAccess s x.part (x.asid s) .sp pathS (x.rd a + o.signExtend 64) 4 false = .ok pa →
      tlbMisses s c (x.asid s) [x.rd a + o.signExtend 64] = [] → loadPoison s (myPath s' .s) pa 4 = none →
      spillHit s pa 4 = [] → seenValue s (myPath s' .s) pa 4 = 0 →
      (∀ l, s.launch? x.part x.launch = some l → l.refillCause = none ∧ ∀ f ∈ l.joinFails, f.1 ≠ x.rd a + o.signExtend 64) →
      ∃ t, exec (.jwaitZero c k) s = .next t ∧ t.ctx c k = y) ∧
    (x.wait = some .exit → x.mode = .user → groupsDone x = true → (∀ ch ∈ (s.core c).chans,
        (∀ tr, ch.queued = some tr → tr.by x k = false) ∧ ∀ tr, ch.active = some tr → tr.by x k = false) →
      ∃ t, exec (.exitComplete c k) s = .next t ∧ t.ctx c k = Ctx.free) ∧
    (∀ (sc : BitVec 3) (o : BitVec 2), x.wait = some (.fence sc o) → (o.getLsbD 1 = true → StoresAcked x ∨ sc.toNat < 2) →
      ∃ t, exec (.fenceWorkDone c k none) s = .next t ∧ t.ctx c k = y) ∧
    (∀ sc p q : BitVec 3, x.wait = some (.xfence sc p q) → EarlierDone s' x sc p →
      ∃ t, exec (.fenceWorkDone c k none) s = .next t ∧ t.ctx c k = y) ∧
    ((∀ i, x.wait = some i → i = .nop) → exec (.returnReady c k) s = .next s) ∧
    ∀ page, (∃ pa e, translate s (x.asid s) (page * 4096) = some (pa, e)) →
      (x.tlbWait = [page] → ∃ t, exec (.tlbWalkComplete c k none) s = .next t ∧ tlbHit t (t.core c) (x.asid s) (page * 4096) = true ∧
        t.ctx c k = { x with tlbWait := [] }) ∧
      ∀ (g : Nat) (r : Machine.Group), x.groups[g]? = some r → r.pos.status = .suspended (.tlb [page]) →
        ∃ t, exec (.tlbWalkComplete c k (some g)) s = .next t ∧ tlbHit t (t.core c) (x.asid s) (page * 4096) = true ∧
          (t.group c k g).pos = { r.pos with status := .eligible } ∧ (t.group c k g).vregs = r.vregs

/-- A queued transfer becomes active; its lines land one by one, the bytes of its nest at its completion at the latest, each
destination taking its source's byte and every other place staying; it completes under its identifier, with the presence counts it
held released, and the next one starts; one that meets a fault halts its channel with that fault; RETRY starts it again and SKIP
completes it (07 R184, R186, R187, R189). Model choices: one line at a time and the held windows are the model's, log entry 28. -/
def Obligations.TransfersRun : Prop :=
  ∀ (s : State) (c ch : Nat) (y : Chan), (s.core c).chans[ch]? = some y →
    (∀ tr, y.active = none → y.queued = some tr →
      ∃ t, exec (.transferStart c ch) s = .next t ∧ ChanIs t c ch { y with active := some tr, queued := none } ∧ SameStore s t) ∧
    (∀ tr, y.active = some tr → y.halted = false →
      (xferFaults s tr = [] → ∃ t, exec (.transferComplete c ch) s = .next t ∧
        ChanIs t c ch { y with active := y.queued, queued := none, complete := openId y }) ∧
      (xferFaults s tr = [] → tr.lines.Nodup → (∀ l ∈ tr.lines, presenceOf (s.core l.1) l.2 = 1 ∧ l.1 < s.cores.length) →
        ∃ t, exec (.transferComplete c ch) s = .next t ∧ ∀ l ∈ tr.lines, presenceOf (t.core l.1) l.2 = 0) ∧
      (∀ (src dst : Nat → Option Nat × Nat), tr.landed = [] → MemoryOk s →
        let n := (nestBytes tr.regs).length
        (∀ i p, (nestBytes tr.regs)[i]? = some p → SourceAt s tr p.1 (src i) ∧ xferDest s tr p.2 = .ok (dst i) ∧
          (∀ d, (dst i).1 = some d → d < s.cores.length) ∧ ((dst i).1 = none → tierOf s (dst i).2 ≠ .hole)) →
        (∀ i j, i < n → j < n → (dst i = dst j → i = j) ∧ dst i ≠ src j) →
        ∃ t, exec (.transferComplete c ch) s = .next t ∧ (∀ i, i < n → byteAt t (dst i) = byteAt s (src i)) ∧
          ∀ p, (∀ i, i < n → dst i ≠ p) → byteAt t p = byteAt s p) ∧
      (∀ i l, tr.lines[i]? = some l → lineClean s tr l = true → ∃ t, exec (.lineLanded c ch i) s = .next t ∧
        ChanIs t c ch { y with active := some { tr with
          lines := tr.lines.filter (fun o => decide (o ≠ l)), landed := tr.landed ++ [l] } }) ∧
      (xferFaults s tr ≠ [] → (∃ k z, (s.core c).ctxs[k]? = some z ∧ z.resident = true ∧ tr.by z k = true) → UserTeams s →
        ∃ t f tr', exec (.transferHalt c ch) s = .next t ∧ f ∈ xferFaults s tr ∧
          ChanIs t c ch { y with
            active := some tr', halted := true, faultCause := f.1.cause, faultAddr := f.2, faultInfo := f.1.finfo } ∧
          tr' = { tr with lines := tr'.lines, landed := tr'.landed } ∧ (∀ l ∈ tr'.lines, l ∈ tr.lines) ∧
          ∀ l ∈ tr.lines, l ∈ tr'.lines ∨ (l ∈ tr'.landed ∧ lineClean s tr l = true)) ∧
      (xferFaults s tr ≠ [] → (∀ k z, (s.core c).ctxs[k]? = some z → z.resident = true → tr.by z k = false) →
        ∃ t f, exec (.transferHalt c ch) s = .next t ∧ f ∈ xferFaults s tr ∧
          ChanIs t c ch { y with active := y.queued, queued := none, complete := openId y, faultCause := f.1.cause,
                                 faultAddr := f.2, faultInfo := f.1.finfo })) ∧
    (∀ tr, y.active = some tr → y.halted = true →
      (∃ t, exec (.engineRetry c ch) s = .next t ∧ ChanIs t c ch { y with halted := false, active := some { tr with landed := [] } } ∧
        SameStore s t) ∧
      (∃ t, exec (.engineSkip c ch) s = .next t ∧ SameBytes s t ∧
        ChanIs t c ch { y with halted := false, active := y.queued, queued := none, complete := openId y })) ∧
    (y.halted = false → ∃ t u, exec (.engineRetry c ch) s = .next t ∧ exec (.engineSkip c ch) s = .next u ∧ ChanIs t c ch y ∧
      ChanIs u c ch y)

/-- A freeze whose groups have all stopped enters its routine: trap, or save once every transfer of the core has drained. The saved
registers hold the cause and where it arose, the pc is the vector, the control slice and the groups' positions are fresh, and the
freeze record keeps what they were; faults not yet raised are held, waiting QPOPs are withdrawn (10 R271, R273-R278, R289, R292). The
team's stores stay queued, and its events keep their orders (08 R216, R219). -/
def Obligations.RoutineEntry : Prop :=
  ∀ (s : State) (c k : Nat) (x : Ctx) (g : Trig), s.ctx c k = x → x.resident = true → x.trig = some g → Issuing s x.part →
    (∀ r ∈ x.groups, Stopped r) → x.strm.masks.length = 16 →
    (g.preempt = true → ∀ y ∈ (s.core c).chans, y.active = none ∧ y.queued = none ∧ y.halted = false) →
    ∃ t y f, exec (.routineEntry c k) s = .next t ∧ t.ctx c k = y ∧ y.frozen = some f ∧
      y.mode = (if g.preempt then .save else .trap) ∧
      y.pc = (if g.preempt then x.saveVec else BitVec.ofNat 64 (x.trapVec.toNat % 2 ^ 32)) ∧
      (g.cause < 512 → g.group < 32 → y.cause = BitVec.ofNat 64 (g.cause + (if g.lane then 2 ^ 9 else 0) + 2 ^ 10 * g.group +
        (if g.async then 2 ^ 15 else 0) + (if g.preempt then 2 ^ 16 else 0))) ∧
      y.epc = g.epc ∧ y.faddr = g.faddr ∧ y.fmask = g.fmask.zeroExtend 64 ∧ y.finfo = g.finfo ∧ y.resumeR = 0 ∧ y.trig = none ∧
      y.s = x.s ∧ y.ks = x.ks ∧ y.strm.blockQ = [] ∧ y.strm.returnQ = [] ∧ y.strm.recon = [] ∧ y.strm.fmtDepth = 0 ∧
      (∀ i, i < 1024 → y.strm.active.getLsbD i = decide (i < 32 * x.groups.length)) ∧ y.mask 0 = y.strm.active ∧
      f.trig = g ∧ f.stream = x.strm ∧ f.trigger = x.trigger ∧ f.staint = x.staint ∧ f.groups = x.groups ∧
      f.pcs = x.groups.map (fun r => { r.pos with heldOuts := r.outs }) ∧ y.held = x.held ++ x.groups.flatMap (·.async) ∧
      t.queue = s.queue ∧ t.late = s.late ∧ t.releases = s.releases ∧
      (∀ q ∈ (t.core c).queues, ∀ p ∈ q.pops, p.1 ≠ k) ∧
      ∀ (j : Nat) (r : Machine.Group), x.groups[j]? = some r → ∃ q : Machine.Group, (t.group c k j) = q ∧ q.vregs = r.vregs ∧
        q.gregs = r.gregs ∧ q.fmt = r.fmt ∧ q.pos = GroupPos.fresh ∧ q.outs = [] ∧ q.async = [] ∧
        q.loops = (if g.preempt then [] else r.loops) ∧
        q.rstores = r.rstores.map (fun st => { st with frozen := true })

/-- A routine that passes its limit ends its team with WATCHDOG; a lost link, a request without completion and an integrity
failure sever the port's regions, and drop their cached lines; a BISnp drops its line; a single-bit error is counted; an
uncorrectable error poisons what it struck with the cause of its storage, a register, special register, return word, token or
queue element as well, and one in hidden storage ends every team and launch of its partition (07 R202, R204, 10 R296, R300, R301,
R312, 11 R330). Model choices: the event operands are the model's, log entry 44, and the causes of the records deduced, log entry
27. -/
def Obligations.ErrorsAndLinks : Prop :=
  ∀ (s : State),
    (∀ c k x, s.ctx c k = x → x.resident = true → powerStopped s x.part = false → x.mode = .trap ∨ x.mode = .restore →
      exec (.watchdog c k) s = .next (terminate s c k 0x171 0) ∧ (terminate s c k 0x171 0).ctx c k = Ctx.free) ∧
    (∀ c k x l, s.ctx c k = x → x.resident = true → powerStopped s x.part = false → x.mode = .save →
      s.launch? x.part x.launch = some l → (∀ co ∈ s.cores, co.ctxs.length ≤ 8) →
      ∃ t, exec (.watchdog c k) s = .next t ∧ t.ctx c k = Ctx.free ∧
        ∀ d j, (t.ctx d j).resident = true → ¬ ((t.ctx d j).part = x.part ∧ (t.ctx d j).launch = x.launch)) ∧
    (∀ port, ∃ t, exec (.poolLinkDown port) s = .next t ∧ exec (.poolRequestTimeout port) s = .next t ∧
      exec (.poolIdeFailure port) s = .next t ∧ t.poolDev = s.poolDev ∧
      (∀ r ∈ t.regions, r.port = port → r.severed = true) ∧
      (t.regions.map (fun r => (r.num, r.port, r.owner, r.ownership))) = s.regions.map (fun r => (r.num, r.port, r.owner, r.ownership)) ∧
      (∀ r ∈ s.regions, r.port ≠ port → r ∈ t.regions) ∧
      (RingsOutside s → ∀ e ∈ t.late, e.scratch = none → ∀ c ∈ e.cells, ∀ n, tierOf s c.1 = .pool n →
        ∀ r ∈ s.regions, r.num = n → r.port = port → r.severed = true) ∧
      (RingsOutside s → ∀ r ∈ s.regions, r.port = port → r.severed = false → ∀ l ∈ t.poolLines, lineRegion l ≠ r.num)) ∧
    (∀ line, ∃ t, exec (.bisnpReceived line) s = .next t ∧ t.poolLine line = none ∧
      (∀ n, n ≠ line → t.poolLine n = s.poolLine n) ∧ t.mem = s.mem ∧ t.host = s.host ∧
      ∀ e ∈ t.late, e.scratch = none → ∀ c ∈ e.cells, c.1 / 128 ≠ line) ∧
    exec .singleBitError s = .next { s with sbe := s.sbe + 1 } ∧
    (∀ pa d o, tierOf s pa = .dram d o → ∃ t, exec (.uncorrectableError (.mem pa)) s = .next t ∧ PoisonedAt t none pa 0x175 ∧
      readByte t pa = readByte s pa) ∧
    (∀ pa o, tierOf s pa = .stier o → ∃ t, exec (.uncorrectableError (.mem pa)) s = .next t ∧ PoisonedAt t none pa 0x176) ∧
    (∀ pa r, tierOf s pa = .pool r → ∃ t, exec (.uncorrectableError (.pool pa)) s = .next t ∧ PoisonedAt t none pa 0x102) ∧
    (∀ pa d o, tierOf s pa = .dram d o → ∃ t, exec (.uncorrectableError (.cache pa)) s = .next t ∧ PoisonedAt t none pa 0x174) ∧
    (∀ c a, a < 2 ^ 20 → ∃ t, exec (.uncorrectableError (.scratch c a)) s = .next t ∧ PoisonedAt t (some c) a 0x173) ∧
    (∀ c k (x : Ctx) (r : BitVec 5), (s.core c).ctxs[k]? = some x → x.spoison.length = 32 → r ≠ 0 →
      ∃ t, exec (.uncorrectableError (.sreg c k r.toNat)) s = .next t ∧ (t.ctx c k).poison r = some 0x177 ∧
        ∀ q, q ≠ r → (t.ctx c k).poison q = x.poison q) ∧
    (∀ c k (x : Ctx) (r : BitVec 4), (s.core c).ctxs[k]? = some x →
      ∃ t, exec (.uncorrectableError (.mreg c k r.toNat)) s = .next t ∧ (t.ctx c k).strm.mpoison.getLsbD r.toNat = true) ∧
    (∀ c k g (x : Ctx) (r : Machine.Group) (q lane : Nat), (s.core c).ctxs[k]? = some x → x.groups[g]? = some r → lane < 32 →
      q < r.vpoison.length → ∃ t p, exec (.uncorrectableError (.vreg c k g q lane)) s = .next t ∧
        (t.group c k g).vpoison[q]? = some p ∧ p.lanes.getLsbD lane = true ∧ p.cause = 0x172) ∧
    (∀ c k g (x : Ctx) (r : Machine.Group) (q : Nat), (s.core c).ctxs[k]? = some x → x.groups[g]? = some r →
      (0 < q → q < r.gpoison.length → ∃ t p, exec (.uncorrectableError (.greg c k g q)) s = .next t ∧
        (t.group c k g).gpoison[q]? = some p ∧ p.lanes = 1 ∧ p.cause = 0x172) ∧
      (q < r.spoison.length → ∃ t, exec (.uncorrectableError (.special c k g q)) s = .next t ∧
        (t.group c k g).spoison[q]? = some (some (0x172, 0)))) ∧
    (∀ c k (x : Ctx) (i : Nat), (s.core c).ctxs[k]? = some x →
      (∀ e g w, x.strm.returnQ[i]? = some e → e.words[g]? = some (some w) → g < e.poison.length →
        ∃ t, exec (.uncorrectableError (.ret c k i g)) s = .next t ∧
          (t.ctx c k).strm.returnQ[i]? = some { e with poison := e.poison.set g (some (0x177, 0)) }) ∧
      ∀ tok, x.strm.recon[i]? = some tok → ∃ t, exec (.uncorrectableError (.token c k i)) s = .next t ∧
        (t.ctx c k).strm.recon[i]? = some { tok with poison := true }) ∧
    (∀ c q i (y : RQueue), (s.core c).queues[q]? = some y → i < y.elems.length → y.poison.length = y.elems.length →
      ∃ t, exec (.uncorrectableError (.queue c q i)) s = .next t ∧
        (t.core c).queues[q]? = some { y with poison := y.poison.set i (some (0x177, 0)) }) ∧
    (∀ part, s.partition part = none → exec (.uncorrectableError (.hidden part)) s = .next s) ∧
    ∀ part p, s.partition part = some p → (∀ co ∈ s.cores, co.ctxs.length ≤ 8) →
      (∀ d j, (s.ctx d j).resident = true → (s.ctx d j).part = part →
        ∃ l ∈ s.launches, l.part = part ∧ l.id = (s.ctx d j).launch ∧ l.status ≠ .completed) →
      ∃ t, exec (.uncorrectableError (.hidden part)) s = .next t ∧
        (∀ d j, (t.ctx d j).resident = true → (t.ctx d j).part ≠ part) ∧ ∀ l ∈ t.launches, l.part = part → l.status = .completed

/-- A sample above the limit lowers the clock 50 MHz, to 1.0 GHz at least, and one below 95 % raises it to its cap at most; 500
samples above the limit at the floor stop issue, in a partition that a RESET let go on too, and 100 below 95 % resume it; a die at 100 °C or more lowers the clock, and at 115
°C the module trips: its memory, partitions, launches and cores are lost, host memory and pool devices stay, and the host restarts
it below 90 °C (01 R25-R27). Power-on verifies the configuration record and training begins, or the module is rejected; each deck
trained is ready, and the first begins reduced service; a third failure marks a deck failed; with every deck, the second tier and
every enabled port trained the module is in full service (11 R335). Model choices: the order of decks, the cap in reduced service
and what a trip keeps are the model's, log entries 24 to 26. -/
def Obligations.PowerHeatAndBringUp : Prop :=
  (∀ (s : State),
    (Running s → ∀ watts, (∀ d ∈ s.temps, d < 100) → ¬ (s.stopped = true ∧ s.limitSet = true) →
      ∃ t, exec (.powerSample watts) s = .next t ∧
        t = { s with coreClock := t.coreClock, throttledNs := t.throttledNs, meanAbove := t.meanAbove, meanBelow := t.meanBelow,
                     limitSet := false } ∧
        (s.stopped = false → s.powerLimit < watts → t.coreClock = max 1000 (s.coreClock - 50)) ∧
        (s.stopped = false → 100 * watts < 95 * s.powerLimit → watts ≤ s.powerLimit →
          t.coreClock = min (if s.boot.phase = .training then 1500 else 3000) (s.coreClock + 50)) ∧
        (s.stopped = false → 95 * s.powerLimit ≤ 100 * watts → watts ≤ s.powerLimit → t.coreClock = s.coreClock) ∧
        (s.stopped = true → t.coreClock = s.coreClock) ∧
        t.meanAbove = (if s.powerLimit < watts ∧ s.coreClock = 1000 then s.meanAbove + 1 else 0) ∧
        t.meanBelow = (if 100 * watts < 95 * s.powerLimit then s.meanBelow + 1 else 0)) ∧
    (Running s → s.stopped = false ∨ (∃ q ∈ s.parts, q.released = true) → 500 ≤ s.meanAbove → s.coreClock = 1000 →
      ∃ t, exec .powerLimitStop s = .next t ∧ t.stopped = true ∧ t.coreClock = 1000 ∧ t.cores = s.cores ∧
        ∀ p, powerStopped t p = !(t.partition p).any (·.released) ∧ ∀ q, t.partition p = some q → q.released = false) ∧
    (s.stopped = true → 100 ≤ s.meanBelow →
      ∃ t, exec .powerLimitResume s = .next t ∧ t.stopped = false ∧ t.coreClock = 1000 ∧ t.cores = s.cores) ∧
    (∀ die temp, die < s.temps.length → temp < 115 →
      exec (.thermalThrottle die temp) s = .next { s with
        temps := s.temps.set die temp
        coreClock := if 100 ≤ temp ∧ (s.boot.phase = .training ∨ s.boot.phase = .ready) ∧ s.stopped = false then max 1000 (s.coreClock - 50) else s.coreClock }) ∧
    (∀ die temp, die < s.temps.length → 115 ≤ temp →
      ∃ t, exec (.thermalTrip die temp) s = .next t ∧ t.boot.phase = .tripped ∧ t.mem = [] ∧ t.parts = [] ∧ t.launches = [] ∧
        t.poolLines = [] ∧ t.cmds = [] ∧ t.cores = State.reset.cores ∧ t.host = s.host ∧ t.poolDev = s.poolDev ∧ t.part = s.part) ∧
    (s.boot.phase = .tripped → (∀ d ∈ s.temps, d < 90) →
      exec .hostRestart s = .next { s with boot := { Boot.off with thermal := true } }) ∧
    (s.boot.phase = .tripped → (∃ d ∈ s.temps, 90 ≤ d) → exec .hostRestart s = .next s)) ∧
  (∀ (s : State),
    (s.boot.phase = .off →
      exec (.powerOn true) s = .next { s with boot := { s.boot with phase := .training, verified := true } } ∧
      exec (.powerOn false) s = .next { s with boot := { s.boot with phase := .rejected } }) ∧
    (∀ deck, deck < 4 → s.boot.phase = .training →
      (∀ d, d < 4 → d < deck → s.boot.ready.getLsbD d = true ∨ s.boot.failed.getLsbD d = true) →
      s.boot.ready.getLsbD deck = false → s.boot.failed.getLsbD deck = false → s.boot.fails.length = 4 →
      (∃ t, exec (.deckTrainingComplete deck) s = .next t ∧
        (∀ d, d < 4 → t.boot.ready.getLsbD d = (s.boot.ready.getLsbD d || decide (d = deck))) ∧
        (s.boot.stier = false → t.boot.phase = .training ∧ t.boot.reduced = true ∧ t.coreClock = s.coreClock) ∧
        ((∀ d, d < 4 → d ≠ deck → s.boot.ready.getLsbD d = true) → s.boot.stier = true → s.boot.poolPorts = s.part.ports →
          t.boot.phase = .ready ∧ t.boot.reduced = false)) ∧
      ∃ t n, s.boot.fails[deck]? = some n ∧ exec (.deckTrainingFailed deck) s = .next t ∧
        t = { s with boot := { s.boot with fails := s.boot.fails.set deck (n + 1), failed := t.boot.failed } } ∧
        ∀ d, d < 4 → t.boot.failed.getLsbD d = (s.boot.failed.getLsbD d || decide (d = deck ∧ 2 ≤ n))) ∧
    (s.boot.phase = .training →
      (∃ t, exec (.secondTierOrPoolPortTrained .stier) s = .next t ∧ t.boot.stier = true ∧
        (s.boot.ready ≠ 15 → t = { s with boot := { s.boot with stier := true } }) ∧
        (s.boot.ready = 15 → s.boot.poolPorts = s.part.ports → t.boot.phase = .ready)) ∧
      ∀ p rate lanes, p < 8 → s.part.ports.getLsbD p = true → ∃ t, exec (.secondTierOrPoolPortTrained (.port p rate lanes)) s = .next t ∧
        t.boot.poolPorts.getLsbD p = true ∧ t.ports = s.ports.set p (rate, lanes)))

/-- A read of BAR0 gives BOOTSTAT on the management page, the feature words of each page, and zero elsewhere, and while the module
is held in reset BOOTSTAT alone; NOTIFY announces positions, and one beyond the ring's size is clipped with a RINGOVER record;
EVCONS frees record slots; MRTABLE gives the management page its rings; other BAR0 writes are ignored; firmware fetches the
announced block whose tag is its position, and runs it as a command or rejects it; a tag still wrong is rejected after 64 µs; a
record waiting for its delay interrupts (11 R314, R316-R320, R332, 01 R27). Model choices: the tag of a RINGOVER record and a
broken ring table are the model's, log entry 33. -/
def Obligations.RingsWork : Prop :=
  ∀ (s : State) (p r : Nat),
    (bar0Read s 8 0x10).toNat = s.boot.verified.toNat + 2 * s.boot.reduced.toNat + 4 * s.boot.ready.toNat + 64 * s.boot.failed.toNat +
      1024 * (decide (s.boot.phase = .rejected)).toNat + 2048 * s.boot.thermal.toNat ∧
    (∀ page off, ¬ (page = 8 ∧ off = 0x10) → s.boot.phase = .tripped ∨ 8 < page ∨ off < 0x100 ∨ 0x138 < off ∨ off % 8 ≠ 0 →
      bar0Read s page off = 0) ∧
    (∀ page i, page ≤ 8 → i < 8 → s.boot.phase ≠ .tripped →
      bar0Read s page (0x100 + 8 * i) = featWord s (if page = 8 then s.regions.length else regionsOf s page) i) ∧
    (∀ g q (v : W64), bar0Up s = true → s.pages[p]? = some g → g.subs[r]? = some q → r < 16 → q.present = true →
      v.toNat % 16 = r → q.announced < 2 ^ 32 → q.consumer ≤ q.announced → q.consumer < 2 ^ 32 →
      q.announced < v.toNat / 2 ^ 32 → v.toNat / 2 ^ 32 < q.announced + 2 ^ 31 →
      (v.toNat / 2 ^ 32 ≤ q.consumer + q.entries →
        exec (.notify p v) s = .next { s with pages := s.pages.set p { g with subs := g.subs.set r { q with announced := v.toNat / 2 ^ 32 } } }) ∧
      (q.consumer + q.entries < v.toNat / 2 ^ 32 → ∃ t g' q', exec (.notify p v) s = .next t ∧ t.pages[p]? = some g' ∧
        g'.subs[r]? = some q' ∧ q'.announced = (q.consumer + q.entries) % 2 ^ 32 ∧ q'.consumer = q.consumer ∧
        ∀ y, TakesRecord s p q.event y → Memory.wf s = true → y.entries ≤ 4096 →
          (t.evRing p q.event).produced = y.produced + 1 ∧
          RecordAt t (y.base + y.produced % y.entries * 32) s.devTime 0x0006 0 0
            (BitVec.ofNat 32 (r * 2 ^ 28 + v.toNat / 2 ^ 32 % 2 ^ 28)) (y.produced + 1) 0)) ∧
    (∀ g v (w : W64), bar0Up s = true → s.pages[p]? = some g → r < 16 → g.evs[r]? = some v → v.present = true → w.toNat % 16 = r → v.held = [] →
      v.produced < 2 ^ 32 → v.consumed ≤ w.toNat / 2 ^ 32 → w.toNat / 2 ^ 32 ≤ v.produced →
      exec (.evcons p w) s = .next { s with pages := s.pages.set p { g with evs := g.evs.set r { v with consumed := w.toNat / 2 ^ 32 } } }) ∧
    (∀ (v : W64) g, bar0Up s = true → parseTable s v.toNat = some g →
      exec (.mrtable v) s = .next { s with mgmtTable := v, pages := s.pages.set 8 g }) ∧
    (∀ o v, exec (.bar0OtherWrite p o v) s = .next s) ∧
    (∀ g q v, Fetches s p r g q v → Tagged s q →
      (∀ i, decodeBlock p r (BitVec.ofNat 32 (q.consumer + 1)) (blockBytes s q) = .ok i →
        ∃ t, exec (.blockFetch p r) s = .next t ∧ t.agenda = .event i :: s.agenda ∧
          (t.subRing p r).consumer = q.consumer + 1 ∧ t.cores = s.cores ∧ t.parts = s.parts ∧ t.launches = s.launches) ∧
      (∀ st, decodeBlock p r (BitVec.ofNat 32 (q.consumer + 1)) (blockBytes s q) = .error st →
        ∃ t, exec (.blockFetch p r) s = .next t ∧ t.agenda = s.agenda ∧ (t.subRing p r).consumer = q.consumer + 1 ∧
          (t.evRing p q.event).produced = v.produced + 1)) ∧
    ((∃ c ∈ s.cmds, c.src.page = p ∧ c.src.ring = r) → exec (.blockFetch p r) s = .next s) ∧
    (∀ g q v, Fetches s p r g q v → ¬ Tagged s q →
      exec (.blockFetch p r) s = .next s ∧
      ∃ t, exec (.tagMismatch p r) s = .next t ∧ (t.subRing p r).consumer = q.consumer + 1 ∧
        (t.evRing p q.event).produced = v.produced + 1 ∧ t.agenda = s.agenda) ∧
    (∀ g v, s.pages[p]? = some g → g.evs[r]? = some v → v.present = true → 0 < v.since →
      exec (.coalescingDelayExpiry p r) s = .next { s with
        pages := s.pages.set p { g with evs := g.evs.set r { v with since := 0 } }, irqs := s.irqs ++ [16 * p + r] }) ∧
    ∀ (v : EvRing) (rec : Record), TakesRecord s p r v → Memory.wf s = true → v.entries ≤ 4096 → rec.status < 2 ^ 16 →
      rec.faults < 2 ^ 32 → ∃ t, writeRecord s p r rec = t ∧ (t.evRing p r).produced = v.produced + 1 ∧
        RecordAt t (v.base + v.produced % v.entries * 32) s.devTime rec.status
          (match rec.cause with | some c => 0x8000 + c % 512 | none => 0) rec.faults rec.tag (v.produced + 1) rec.result ∧
        (v.delay = 0 → t.irqs = s.irqs ++ [16 * p + r])

/-- MAP makes its range translate to its physical range with its permissions, UNMAP leaves its range without translations, each
drops the TLBs' copies and counts, waits for the joins of issued SPAWNs and the lanes' read-modify-writes in its range, and performs the
stores issued to it; MAP answers LIMIT with no room for its tables;
COPY moves the bytes of its block's nest; QUERY and ATTEST write their reports; POOLCFG maps a region in service or leaves it unmapped,
its accesses in flight performed, its lines checked in and dropped (07 R191, R201, 10 R303, R306, 11 R324, R331-R333, R336, R438). Model
choices: the order of the checks, what counts as room for tables and the free report bytes are the model's, log entries 29, 30 and 45,
and SHA-512 is presumed, log entry 52. -/
def Obligations.MemoryCommands : Prop :=
  ∀ (s : State) (src : CmdSrc) (p : Partition), Names s src p →
    (∀ a : MapArgs, HasSpace p a.asid.toNat → s.boot.reduced = false → a.len ≠ 0 → a.len.toNat % pageBytes a.size = 0 →
      a.va.toNat % pageBytes a.size = 0 → a.pa.toNat % pageBytes a.size = 0 → a.va.toNat + a.len.toNat ≤ 2 ^ 56 →
      ownsRange s p a.pa.toNat a.len.toNat = true → TableOk (s.space a.asid.toNat) →
      let sp := (s.space a.asid.toNat).carve a.va.toNat (a.va.toNat + a.len.toNat)
      let fits := tablesFit (s.setSpace { sp with ptes := sp.ptes ++ newPtes a }) p
      let old := (s.space a.asid.toNat).covers a.va.toNat (a.va.toNat + a.len.toNat)
      (fits = false → exec (.map src a) s = .next (reject s src stLimit)) ∧
      (fits = true → accessLeft s old = true → exec (.map src a) s = .next { s with cmds := s.cmds ++ [waitingMap src p.id (.map src a)] }) ∧
      (fits = true → accessLeft s old = false →
      ∃ v u, exec (.map src a) s = .next (finish u src (a.len.toNat / pageBytes a.size)) ∧ Performed s v old ∧ OnlyTables v u ∧
        TableOk (u.space a.asid.toNat) ∧
        Retranslated s u a.asid.toNat a.va.toNat (a.va.toNat + a.len.toNat) (fun v => some (a.pa.toNat + (v - a.va.toNat))) ∧
        ∀ v, a.va.toNat ≤ v → v < a.va.toNat + a.len.toNat → ∃ pa e, translate u a.asid.toNat v = some (pa, e) ∧
          permOk .rd e = a.r ∧ permOk .wr e = a.w ∧ permOk .fe e = a.x)) ∧
    (∀ (va len : W64) (asid : BitVec 16), HasSpace p asid.toNat → len ≠ 0 → len.toNat % 4096 = 0 → va.toNat % 4096 = 0 →
      va.toNat + len.toNat ≤ 2 ^ 56 → TableOk (s.space asid.toNat) →
      let sp := s.space asid.toNat
      let sp' := sp.carve va.toNat (va.toNat + len.toNat)
      (sp.tableBytes < sp'.tableBytes → tablesFit (s.setSpace sp') p = true) →
      let old := sp.covers va.toNat (va.toNat + len.toNat)
      (accessLeft s old = true →
        exec (.unmap src va len asid) s = .next { s with cmds := s.cmds ++ [waitingMap src p.id (.unmap src va len asid)] }) ∧
      (accessLeft s old = false →
      ∃ v u, exec (.unmap src va len asid) s = .next (finish u src
          (((List.range (len.toNat / 4096)).filter (fun i => (translate s asid.toNat (va.toNat + 4096 * i)).isSome)).length)) ∧
        Performed s v old ∧ OnlyTables v u ∧ TableOk (u.space asid.toNat) ∧
        Retranslated s u asid.toNat va.toNat (va.toNat + len.toNat) (fun _ => none))) ∧
    (∀ (i : Instr) (part : Nat) (at_ : Nat → Bool),
      (part = p.id ∧ (∃ a : MapArgs, i = .map src a ∧ at_ = (s.space a.asid.toNat).covers a.va.toNat (a.va.toNat + a.len.toNat)) ∨
        part = p.id ∧ (∃ (va n : W64) (k : BitVec 16), i = .unmap src va n k ∧ at_ = (s.space k.toNat).covers va.toNat (va.toNat + n.toNat)) ∨
        ∃ a : PoolArgs, (i = .poolcfgMap src a ∨ i = .poolcfgUnmap src a) ∧ part = a.owner.toNat ∧ at_ = inRegion s a.region.toNat) →
      s.cmds = [waitingMap src part i] → p.id = src.part → (∀ l ∈ s.launches, l.part ≠ part) →
      (accessLeft s at_ = true → exec (.launchPlace part) s = .next s) ∧
      (accessLeft s at_ = false → exec (.launchPlace part) s = exec i { s with cmds := [] })) ∧
    (∀ (va : W64) (asid : BitVec 16) (n : Nat) (b : List Byte) (regs : List W64) (from_ dst : Nat → Option Nat × Nat) (t : Xfer),
      HasSpace p asid.toNat → readVirt s p.id asid.toNat va.toNat n = some b → leNat b 2 2 = n → 256 ≤ n → n ≤ 4096 →
      blockFault s p.id asid.toNat va.toNat n = none → parseBlock b = .ok regs → tSscr regs = false → tDscr regs = false →
      t.regs = regs → t.asid = asid.toNat → t.part = src.part → t.core = 192 → t.ctx = 8 → MemoryOk s → (∀ l ∈ s.poolLines, l.twin = none) →
      let m := (nestBytes regs).length
      (∀ i q, (nestBytes regs)[i]? = some q → SourceAt s t q.1 (from_ i) ∧ xferDest s t q.2 = .ok (dst i) ∧
        ∃ d o, tierOf s (dst i).2 = .dram d o) →
      (∀ i j, i < m → j < m → (dst i = dst j → i = j) ∧ dst i ≠ from_ j) →
      ∃ u, exec (.copy src va asid) s = .next (finish u src m) ∧ (∀ i, i < m → byteAt u (dst i) = byteAt s (from_ i)) ∧
        ∀ q, (∀ i, i < m → dst i ≠ q) → byteAt u q = byteAt s q) ∧
    (∀ buf : W64, src.page < 8 → src.page = src.part → Memory.wf s = true → Buffer s p buf.toNat 64 →
      ∃ u, exec (.queryFeatures src buf) s = .next (finish u src 64) ∧ Reports s u buf.toNat
        [BitVec.ofNat 64 (1 + 384 * 2 ^ 16 + 0x3FFF * 2 ^ 32 + s.boot.reduced.toNat * 2 ^ 48 + s.boot.ready.toNat * 2 ^ 52), Config.feat1,
         (s.part.cores.getD 0 0).zeroExtend 64, (s.part.cores.getD 1 0).zeroExtend 64, (s.part.cores.getD 2 0).zeroExtend 64,
         (s.part.cores.getD 3 0).zeroExtend 64,
         BitVec.ofNat 64 (s.part.channels.toNat + s.part.ports.toNat * 2 ^ 32 + s.powerLimit % 2 ^ 16 * 2 ^ 48),
         BitVec.ofNat 64 ((s.regions.filter (fun r => r.owner == src.part)).length % 2 ^ 20)]) ∧
    (∀ buf : W64, src.page < 8 → Memory.wf s = true → Buffer s p buf.toNat 64 → s.coreClock < 2 ^ 64 →
      (∀ r ∈ s.ports, r.1 < 256 ∧ r.2 < 256) → s.ports.length = 8 →
      ∃ u qt, exec (.queryStatus src buf) s = .next (finish u src 64) ∧ (p.halted = false → qt = 0) ∧ qt ≤ 1 ∧
        Reports s u buf.toNat ([BitVec.ofNat 64 s.coreClock, s.throttledNs, BitVec.ofNat 64 (qt + 2 * s.boot.reduced.toNat), s.sbe] ++
          (List.range 4).map (fun i => BitVec.ofNat 64 ((s.ports.getD (2 * i) (0, 0)).1 + (s.ports.getD (2 * i) (0, 0)).2 * 2 ^ 8 +
            (s.ports.getD (2 * i + 1) (0, 0)).1 * 2 ^ 32 + (s.ports.getD (2 * i + 1) (0, 0)).2 * 2 ^ 40)))) ∧
    (∀ (nonce : BitVec 256) (buf : W64), src.page < 8 → Memory.wf s = true → Buffer s p buf.toNat 384 →
      ∃ u, exec (.attest src nonce buf) s = .next (finish u src 384) ∧
        (∀ i, i < 32 → readByte u (buf.toNat + 192 + i) = leByte nonce.toNat i) ∧ leValue u (buf.toNat + 224) 8 = s.devTime.toNat ∧
        (∀ i, i < 20 → readByte u (buf.toNat + 232 + i) = 0) ∧
        (p.priv = none → ∀ i, i < 64 → readByte u (buf.toNat + 128 + i) = 0) ∧
        (∀ im, p.priv = some im → ∀ i, i < 64 → (sha512 im.bytes)[i]? = some (readByte u (buf.toNat + 128 + i))) ∧
        ∀ a, (a < buf.toNat ∨ buf.toNat + 384 ≤ a) → readByte u a = readByte s a) ∧
    (∀ a : PoolArgs, a.region.toNat ≤ 262143 → a.port.toNat ≤ 7 → a.mode.toNat ≤ 1 → s.boot.reduced = false →
      (s.partition a.owner.toNat).isSome = true →
      let old := inRegion s a.region.toNat
      let changed (v u : State) : Prop := Performed s v old ∧
        u = { v with regions := u.regions, poolDev := u.poolDev, poolLines := u.poolLines, poison := u.poison } ∧
        (∀ n, n ≠ a.region.toNat → u.region n = s.region n) ∧
        (∀ l, l ∈ u.poolLines ↔ l ∈ v.poolLines ∧ lineRegion l ≠ a.region.toNat) ∧
        CheckedIn v u (fun l => lineRegion l = a.region.toNat)
      (s.part.ports.getLsbD a.port.toNat = true →
        (accessLeft s old = true →
          exec (.poolcfgMap src a) s = .next { s with cmds := s.cmds ++ [waitingMap src a.owner.toNat (.poolcfgMap src a)] }) ∧
        (accessLeft s old = false → ∃ v u, exec (.poolcfgMap src a) s = .next (finish u src 0) ∧ changed v u ∧
          u.region a.region.toNat = some (mappedRegion a) ∧
          u.poison.map (fun w => { w with copy := false }) = v.poison.map (fun w => { w with copy := false }))) ∧
      (s.part.ports.getLsbD a.port.toNat = false → exec (.poolcfgMap src a) s = .next (reject s src stLimit)) ∧
      (s.region a.region.toNat = none → exec (.poolcfgUnmap src a) s = .next (finish s src 0)) ∧
      ((s.region a.region.toNat).isSome → accessLeft s old = true →
        exec (.poolcfgUnmap src a) s = .next { s with cmds := s.cmds ++ [waitingMap src a.owner.toNat (.poolcfgUnmap src a)] }) ∧
      ((s.region a.region.toNat).isSome → accessLeft s old = false →
        ∃ v u, exec (.poolcfgUnmap src a) s = .next (finish u src 0) ∧ changed v u ∧ u.region a.region.toNat = none ∧
          ∀ w ∈ u.poison, w.copy = true → old w.addr = false))

/-- PARTITION CREATE makes a partition of free resources, DESTROY removes one and zeroes what it held, POWER and WATCHDOG set
their limits; PREEMPT freezes placed teams and holds waiting launches, and with the halt option halts the partition instead of
freezing; RESUME releases both, and enters chosen teams with cause HALT; FREEZE writes an image of a partition whose launches are
pre-empted and THAW reinstates it; RESET ends the work of a partition, and on the module destroys every partition (10 R289,
R297-R299, 11 R326, R329, R334, R337, R438, R439). Model choices: the choices of log entries 31, 34, 35 and 39. -/
def Obligations.PartitionCommands : Prop :=
  ∀ (s : State) (src : CmdSrc),
    (∀ (a : CreateArgs) (g : Page), s.partition src.part = none → a.halfDecks ≠ 0 → 1 ≤ a.asidCount.toNat → a.asidCount.toNat ≤ 4096 →
      a.asidFirst.toNat + a.asidCount.toNat ≤ 65536 →
      (a.reserve.toNat = 0 ∨ (a.stierBase.toNat + a.reserve.toNat) * 2 ^ 30 ≤ stierBytes s) → a.priv.toNat % 4096 = 0 →
      (∀ q ∈ s.parts, q.halfDecks &&& a.halfDecks = 0 ∧
        (a.asidFirst.toNat + a.asidCount.toNat ≤ q.asidFirst ∨ q.asidFirst + q.asidCount ≤ a.asidFirst.toNat) ∧
        (a.reserve.toNat = 0 ∨ q.stierSize = 0 ∨ (a.stierBase.toNat + a.reserve.toNat) * 2 ^ 30 ≤ q.stierBase ∨
          q.stierBase + q.stierSize ≤ a.stierBase.toNat * 2 ^ 30)) →
      s.boot.reduced = false → parseTable s a.ringTable.toNat = some g →
      exec (.partitionCreate src a) s = .next (finish { s with pages := s.pages.set src.part g, parts := s.parts ++ [created src a] } src 0)) ∧
    (∀ watts : BitVec 16, (600 ≤ watts.toNat → watts.toNat ≤ 2000 →
        exec (.partitionPower src watts) s = .next (finish { s with powerLimit := watts.toNat, limitSet := true } src 0)) ∧
      (watts.toNat < 600 ∨ 2000 < watts.toNat → exec (.partitionPower src watts) s = .next (reject s src stLimit))) ∧
    ∀ (p : Partition), Names s src p → OneEach s →
      (∀ us : BitVec 32, ∃ u, exec (.partitionWatchdog src us) s = .next (finish u src 0) ∧ u = { s with parts := u.parts } ∧
        u.partition p.id = some { p with watchdog := if us = 0 then 10000 else us.toNat } ∧
        ∀ n, n ≠ p.id → u.partition n = s.partition n) ∧
      (NoLaunches s p → ∃ u, exec (.partitionDestroy src) s = .next (finish u src 0) ∧ u.partition p.id = none ∧
        (∀ l ∈ u.launches, l.part ≠ p.id) ∧ (∀ r ∈ u.regions, r.owner ≠ p.id) ∧ (∀ sp ∈ u.spaces, ¬ HasSpace p sp.asid) ∧
        (∀ c co, u.cores[c]? = some co → HasCore p c → co = Core.idle) ∧
        (∀ w ∈ u.poison, w.copy = true → ∀ r ∈ s.regions, r.owner = p.id → inRegion s r.num w.addr = false) ∧
        ((∀ q ∈ s.queue, q.scratch = none → ∀ c ∈ q.cells, ∀ r ∈ s.regions, r.owner = p.id → inRegion s r.num c.1 = false) →
          (∀ c, ¬ HasCore p c → u.cores[c]? = s.cores[c]?) ∧
          ∀ a, ((∃ d o, tierOf s a = .dram d o) ∨ ∃ o, tierOf s a = .stier o) →
            readByte u a = if owns s p a then 0 else readByte s a)) ∧
      ((∃ l ∈ s.launches, l.part = p.id ∧ (l.status = .placed ∨ l.status = .waiting)) →
        exec (.partitionDestroy src) s = .next (reject s src stLimit)) ∧
      (∀ (id : W32) (l : Launch), s.cmds = [] → p.privVa ≠ 0 → id ≠ 0 → l ∈ s.launches → l.part = p.id → l.id = id →
        (∀ m ∈ s.launches, m.status = .placed ∨ m.status = .waiting) →
        (l.status = .waiting → exec (.preempt src id) s = .next (finish { s with
          launches := s.launches.map (fun (m : Launch) => if m = l then { m with status := .held } else m) } src 0)) ∧
        (l.status = .placed → ∀ c k x, (s.core c).ctxs[k]? = some x → x.resident = true → x.part = p.id → x.launch = id → Trappable x →
          ∃ t, exec (.preempt src id) s = .next t ∧ t.ctx c k = triggered x (preemptTrig x) ∧ t.pages = s.pages ∧
            t.launch? p.id id = some { l with status := .preempting, byCommand := true })) ∧
      (p.privVa = 0 → ∀ id, exec (.preempt src id) s = .next (reject s src stLimit)) ∧
      (∃ u, exec (.debugHalt src 0) s = .next (finish u src 0) ∧ u = { s with parts := u.parts, launches := u.launches } ∧
        u.partition p.id = some { p with halted := true } ∧ (∀ n, n ≠ p.id → u.partition n = s.partition n) ∧
        ∀ (i : Nat) (l : Launch), s.launches[i]? = some l → u.launches[i]? = some { l with
          status := if l.part = p.id ∧ l.status = .waiting then .held else l.status }) ∧
      (p.frozen = false → ∃ u, exec (.resume src 0) s = .next (finish u src 0) ∧ u = { s with parts := u.parts, launches := u.launches } ∧
        u.partition p.id = some { p with halted := false } ∧
        ∀ (i : Nat) (l : Launch), s.launches[i]? = some l → u.launches[i]? = some { l with
          status := if l.part = p.id ∧ (l.status = .held ∨ l.status = .preempted) then .waiting else l.status,
          byCommand := if l.part = p.id ∧ (l.status = .preempted ∨ l.status = .preempting) then false else l.byCommand }) ∧
      (p.frozen = false → AllTrappable s → s.cores.length = 192 → ∀ (id : W32) (cl : BitVec 16) (tm : BitVec 8) (c k : Nat) (x : Ctx),
        (s.core c).ctxs[k]? = some x → k < 8 → x.resident = true → x.part = p.id → x.child = none →
        (id = 0 ∨ x.launch = id ∧ ∃ l ∈ s.launches, l.part = p.id ∧ l.id = id ∧ l.status ≠ .completed) →
        (cl = 0xFFFF ∨ x.cluster = cl.toNat) → (tm = 0xFF ∨ x.team = tm.toNat) →
        ∃ u, exec (.resumeEnter src id cl tm) s = .next (finish u src 0) ∧ u.partition p.id = some { p with halted := false } ∧
          u.ctx c k = triggered x (ctrlTrig cHALT false x.pc 0 0 0)) ∧
      (∀ (target : BitVec 8) (addr size : W64), s.cmds = [] → NoLaunches s p → target.toNat ≤ 1 → p.privVa ≠ 0 → s.boot.reduced = false →
        mappedBytes s p + 2 ^ 32 ≤ size.toNat → freezeTarget s p target.toNat addr.toNat size.toNat = true →
        ∃ u n, exec (.freeze src target addr size) s = .next (finish u src n) ∧ n ≤ size.toNat ∧
          u.partition p.id = some { p with frozen := true, sealed := decide (0 < p.stierSize) } ∧
          ∃ m, u.images = s.images ++ [m] ∧ m.kind = target.toNat ∧ m.addr = addr ∧ m.bytes.length = n ∧
            m.launches = s.launches.filter (fun l => l.part == p.id && l.status == .preempted) ∧
            m.spaces = s.spaces.filter (fun sp => decide (p.asidFirst ≤ sp.asid ∧ sp.asid < p.asidFirst + p.asidCount))) ∧
      (∀ (kind : BitVec 8) (addr : W64) (m : FreezeImage), kind.toNat ≤ 1 → s.boot.reduced = false →
        imageAt s kind.toNat addr.toNat = some m → Memory.wf s = true →
        (thawMatches s p m = false ∨ thawEmpty s p m = false → exec (.thaw src kind addr) s = .next (reject s src stRefused)) ∧
        (thawMatches s p m = true → thawEmpty s p m = true →
        (∀ c ∈ m.pages, ∀ d ∈ m.pages, thawAddr s m.part p c.1 = thawAddr s m.part p d.1 → c = d) →
        ((∃ sp ∈ m.spaces, AddrSpace.thaw s m.part p sp = none) → exec (.thaw src kind addr) s = .next (reject s src stLimit)) ∧
        ((∀ sp ∈ m.spaces, (AddrSpace.thaw s m.part p sp).isSome = true) →
          ∃ u, exec (.thaw src kind addr) s = .next (finish u src 0) ∧ u.images = s.images ∧ u.cores = s.cores ∧
            (∀ c ∈ m.pages, ∀ a, thawAddr s m.part p c.1 = some a → u.mem.get a = c.2) ∧
            (∀ a, (∀ c ∈ m.pages, thawAddr s m.part p c.1 ≠ some a) →
              (∀ sp ∈ m.spaces, ∀ z, AddrSpace.thaw s m.part p sp = some z → ∀ e ∈ z.ptes, e.leaf = true →
                ¬ (e.pa ≤ a ∧ a < e.pa + leafSize e.level)) → u.mem.get a = s.mem.get a) ∧
            (∀ sp ∈ m.spaces, ∀ z, AddrSpace.thaw s m.part p sp = some z → z ∈ u.spaces) ∧
            (u.partition p.id).map (·.frozen) = some false ∧
            (∀ l ∈ s.launches, (l.part ≠ p.id ∨ l.status = .completed ∧ ∀ n ∈ m.launches, n.id ≠ l.id) → l ∈ u.launches) ∧
            ∀ l ∈ m.launches, ∃ l' ∈ u.launches, l'.part = p.id ∧ l'.id = l.id ∧ l'.img = l.img ∧
              l'.page = (if l.page = m.part.id then p.id else l.page) ∧ l'.saved.length = l.saved.length ∧ l'.status = .waiting))) ∧
      (∀ (kind : BitVec 8) (addr : W64), kind.toNat ≤ 1 → s.boot.reduced = false → imageAt s kind.toNat addr.toNat = none →
        exec (.thaw src kind addr) s = .next (reject s src stRefused)) ∧
      (∃ u, exec (.resetPartition src) s = .next (finish u src 0) ∧ (∀ l ∈ u.launches, l.part ≠ p.id) ∧
        u.partition p.id = some { p with sealed := false, frozen := false, released := s.stopped } ∧ u.spaces = s.spaces ∧
        u.regions = s.regions ∧ (∀ c ∈ u.cmds, c.part ≠ p.id ∨ c.ofPool = true) ∧
        ((∀ co ∈ s.cores, co.ctxs.length = 8 ∧ ∀ x ∈ co.ctxs, x.resident = true → x.part = p.id →
            ∃ l ∈ s.launches, l.part = p.id ∧ l.id = x.launch ∧ l.status ≠ .completed) →
          ∀ co ∈ u.cores, ∀ x ∈ co.ctxs, x.resident = true → x.part ≠ p.id)) ∧
      ∃ u, exec (.resetModule src) s = .next (finish u src 0) ∧ u.parts = [] ∧ u.powerLimit = 2000 ∧ u.stopped = false ∧
        u.boot = { s.boot with thermal := false }

/-- LAUNCH enters a launch whose image and parameters pass every check in the waiting list, with no record yet; an image that cannot
be read is BADIMAGE; a waiting launch of one team is placed on the first core that can take it, in the state of R41, R43 and R115; a
launch whose teams have all exited completes with a record, after what its EXITs cover (04 R108-R113, R115, 11 R325, 12 R352). Model choices: the order of placement is
the model's, log entry 38, and the order of image checks, log entry 32. -/
def Obligations.LaunchCommands : Prop :=
  ∀ (s : State) (p : Partition),
    (∀ (src : CmdSrc) (a : LaunchArgs) (i : Image), Names s src p → OneEach s → HasSpace p a.asid.toNat →
      (p.privVa = 0 ∨ p.priv.isSome = true) → readImage s p.id a.asid.toNat a.image = some i →
      launchStatus s p.id (srcTag src) a i = none → p.id = src.part →
      (placeLaunch (emptied s p (newLaunch s src a i)) p (newLaunch s src a i)).isSome = true →
      ∃ t l, exec (.launch src a) s = .next t ∧ t = { s with launches := t.launches, parts := t.parts, releases := t.releases, stamp := s.stamp + 1 } ∧
        (∀ r, r ∈ t.releases ↔ r ∈ s.releases ∧ r.link ≠ .trigger src.part (srcTag src) ∧ r.link ≠ .join src.part (srcTag src)) ∧
        t.launch? src.part (srcTag src) = some l ∧ l.status = .waiting ∧ l.img = i ∧ l.asid = a.asid.toNat ∧ l.arg = a.arg ∧
        l.producers = a.producers ∧ l.clusters = a.clusters.toNat ∧ l.queues = a.queues ∧ l.priority = a.priority.toNat ∧
        ∀ m ∈ t.launches, m = l ∨ ∃ n ∈ s.launches, m.part = n.part ∧ m.id = n.id ∧ m.status = n.status) ∧
    (∀ (src : CmdSrc) (a : LaunchArgs), Names s src p → HasSpace p a.asid.toNat → p.privVa = 0 →
      readImage s p.id a.asid.toNat a.image = none → exec (.launch src a) s = .next (reject s src stBadImage)) ∧
    (∀ (l : Launch) (c : Nat), s.partition p.id = some p → s.cmds = [] → OneEach s → s.stopped = false → p.frozen = false →
      (∀ m ∈ s.launches, m.part = p.id → m ≠ l → m.status = .placed ∨ m.status = .completed) →
      l ∈ s.launches → l.part = p.id → l.status = .waiting → l.saved = [] → (∀ q ∈ l.producers, q = 0) →
      imageLimits l.img = true → l.clusters = 1 → l.img.w = 1 → l.img.h = 1 → l.img.spill = 0 →
      c < 192 → coreOk s p c = true → (∀ d, d < c → coreOk s p d = false) → s.cores[c]? = some Core.idle → declared s c = 0 →
      (∀ co ∈ s.cores, ∀ y ∈ co.chans, y.queued = none ∧ y.active = none) →
      ∃ t x, exec (.launchPlace p.id) s = .next t ∧ (t.core c).ctxs[0]? = some x ∧ x.resident = true ∧ x.part = p.id ∧ x.launch = l.id ∧
        x.cluster = 0 ∧ x.team = 0 ∧ x.base = 0 ∧ x.pc = 0 ∧ x.mode = .user ∧ x.strm.blockQ = [] ∧ x.strm.returnQ = [] ∧
        x.s = [0, 0, 0, l.arg, BitVec.ofNat 64 (1 + 2 ^ 16 * (l.img.teams % 16) + 2 ^ 20 * l.img.groups), BitVec.ofNat 64 c,
               l.id.zeroExtend 64] ++ List.replicate 25 0 ∧
        (∀ i, i < 1024 → x.strm.active.getLsbD i = decide (i < 32 * l.img.groups)) ∧ x.groups.length = l.img.groups ∧
        (∀ g ∈ x.groups, g.vregs = List.replicate l.img.n VReg.zero ∧ g.gregs = List.replicate l.img.q 0 ∧ g.fmt = 0) ∧
        (∃ rv, (t.core c).resvs = [rv] ∧ rv.lines = List.range (l.img.scratch / 128)) ∧
        (∀ d, d ≠ c → t.core d = s.core d) ∧ ∃ l', t.launch? p.id l.id = some l' ∧ l'.status = .placed ∧ l'.placed.length = 1) ∧
    ∀ (l : Launch), s.launch? p.id l.id = some l → launchDone s l = true →
      ∃ v, OnlyOrders s v ∧ (∀ a : Agent, Covers s v (Released s (fun n => n = .trigger p.id l.id ∨ n = .join p.id l.id) 0) a) ∧
      exec (.launchComplete p.id l.id) s = .next
        ((writeRecord v l.page (s.subRing l.page l.ring).event
          { status := if l.terminated then stTerminated else if l.faults = 0 then stOk else stFaulted
            cause := l.firstCause
            faults := l.faults
            tag := l.id
            result := l.id.zeroExtend 64 }).updLaunch p.id l.id (fun (m : Launch) => { m with status := .completed, oldCode := [] }))

/-- The next agent of the agenda takes its turn. A control slice runs the word fetched for the next context that can fetch after the
one it last fetched for; a lane set runs the word its running group fetches, with the word after it for a double, or the oldest
read-modify-write of a lane it has issued; an event happens; the oldest store of a queue leaves it; a control load returns its bytes anew;
a write becomes visible to one more agent; the host or another module writes its memory; a pool line makes room; with an empty agenda
nothing moves (04 R120, R121, 02 R58, 09 R241, R244, 08 R214, R216, 07 R200, 14 R398). Model choices: the agenda is the model's, log
entry 2, and so is the second look of a control load, log entry 5. -/
def Obligations.StepRunsDecodedInstruction : Prop :=
  ∀ (s : State) (rest : List Turn),
    let s' := s.tookTurn rest
    (∀ c k w, s.agenda = .control c :: rest → nextFetch s' c = some k →
      fetchCtrl (fetching s' c k) ((fetching s' c k).ctx c k) = .ok w →
      step s = exec (decodeCtrl w) (fetching s' c k)) ∧
    (∀ c k, nextFetch s' c = some k → ∃ i, i < 8 ∧ k = ((s'.core c).lastFetch + 1 + i) % 8 ∧ canFetch s' (s'.ctx c k) = true ∧
      ∀ j, j < i → canFetch s' (s'.ctx c (((s'.core c).lastFetch + 1 + j) % 8)) = false) ∧
    (∀ c ls k g, s.agenda = .lane c ls :: rest → (s'.laneSetAt c ls).running = some (k, g) → Issuing s (s'.ctx c k).part →
      (s'.group c k g).atomicsLeft c = false →
      let e := Env.of (issuing s' c k g) (s'.ctx c k) ((s'.ctx c k).group g)
      (∀ w i, e.fetchAt 0 = .ok w → decodeLane w none = some i → step s = exec i (issuing s' c k g)) ∧
      ∀ w y i, e.fetchAt 0 = .ok w → decodeLane w none = none → e.fetchAt 1 = .ok y → decodeLane w (some y) = some i →
        step s = exec i (issuing s' c k g)) ∧
    (∀ i, s.agenda = .event i :: rest → isEvent i = true → step s = exec i s') ∧
    (∀ c ls k g, s.agenda = .lane c ls :: rest → (s'.laneSetAt c ls).running = some (k, g) → Issuing s (s'.ctx c k).part →
      (s'.group c k g).atomicsLeft c = true → step s = .next (performOldest s' c k g)) ∧
    (∀ c k g host, s.agenda = .drain c k g host :: rest → step s = .next (drainOne s' c k g host)) ∧
    (∀ c k, s.agenda = .reload c k :: rest → step s = .next (reloadCtrl s' c k)) ∧
    (∀ i a, s.agenda = .perform i a :: rest → step s = .next (showWrite s' i a)) ∧
    (∀ a b, (s.agenda = .hostWrite a b :: rest → step s = .next (hostWrite s' a b)) ∧
      (s.agenda = .poolWrite a b :: rest → step s = .next (poolWrite s' a b))) ∧
    (∀ l, s.agenda = .checkIn l :: rest → step s = .next (makeRoom s' l)) ∧
    (s.agenda = [] → step s = .next s)

/-- Words written out from the encoding tables decode to the instructions they stand for (09 R234-R245). -/
def Obligations.WordsDecode : Prop :=
  decodeCtrl 0b00000000101001100011100000000000 = .add 5 6 7 ∧
  decodeCtrl 0b00000101010000000000000001000000 = .addi 10 0 64 ∧
  decodeCtrl 0b00000000011001000010100000010100 = .div 3 4 5 true ∧
  decodeCtrl 0b00000001001010010100000001101011 = .sraImm 9 9 40 ∧
  decodeCtrl 0b00100000011001000101111111111110 = .ld 3 4 2 0x1FFE ∧
  decodeCtrl 0b00100100111100001010000000000100 = .st 7 16 5 4 ∧
  decodeCtrl 0b01000000001000000000000000000101 = .jal 1 5 ∧
  decodeCtrl 0b11001000000001000000000000001000 = .jwait 4 8 ∧
  decodeLane 0x40021208_08000000_00000000 none = some (.vadd { bareWord 9 4 4 with hdr := header false true false }) ∧
  decodeLane 0x03081000_00000000_00000000 none = some (.laneid (bareWord 8 0 0)) ∧
  decodeLane 0x021C0C08_00000000_00000000 none = some (.vote (bareWord 6 4 0)) ∧
  decodeLane 0x03041008_0000C000_00000000 none = some (.vred { bareWord 8 4 0 with ty := 6 }) ∧
  decodeLane 0x0A00C080_9600008A_05058000 none = some (.paired (barePair (bareNarrow 0x20 12 8 9 6) (bareNarrow 0x01 20 10 11 0)))

/-- Encoding a well-formed instruction and decoding its words gives the instruction back, with every operand at every value the
encoding admits; and every control word is the encoding of the instruction it decodes to (09 R234-R250). -/
def Obligations.EncodingRoundTrips : Prop :=
  (∀ i : Instr, i.wf = true → ∃ c, encode i = some c ∧ decode c = some i) ∧
  ∀ w : BitVec 32, encode (decodeCtrl w) = some (.ctrl w)

/-- After reset bring-up has not begun, there is no partition, launch, mapping or pool line, memory lists nothing, the power limit
is the 2000 W of R25, and the invariant holds (01 R25, 07 R185, 11 R335). Model choices: the power limit and the empty tables are
the spec's; the other values of reset are log entries 3 and 4. -/
def Obligations.ResetState : Prop :=
  State.reset.boot.phase = .off ∧ State.reset.parts = [] ∧ State.reset.launches = [] ∧ State.reset.spaces = [] ∧
  State.reset.poolLines = [] ∧ State.reset.regions = [] ∧ State.reset.mem = [] ∧ State.reset.powerLimit = 2000 ∧
  (∀ co ∈ State.reset.cores, co.scr = [] ∧ (∀ x ∈ co.ctxs, x.resident = false) ∧
    ∀ y ∈ co.chans, y.shadow = [0, 0, 0, 0] ++ List.replicate 8 1 ++ List.replicate 16 0 ∧ y.active = none ∧ y.queued = none) ∧
  Inv State.reset

/-- Every step keeps the invariant (01 R17, R25, 02 R42, R44, R53, 03 R72, 07 R199, R200, 11 R314, R337). Model choices: the clock
bound and the agenda are the model's, log entries 2, 3 and 24. -/
def Obligations.StepKeepsInvariant : Prop :=
  ∀ s t : State, Inv s → step s = .next t → Inv t
end

