-- ==== Sys2Proof/Laws/State.lean ====
section
/-! SUPPORT. What the state updates leave alone, one lemma per field and update, and what they write. -/

namespace Sys2Proof.Machine

/-! ### setCore -/

@[simp] theorem State.setCore_cur (s : State) (c : Nat) (k : Core) : (s.setCore c k).cur = s.cur := rfl
@[simp] theorem State.setCore_agenda (s : State) (c : Nat) (k : Core) : (s.setCore c k).agenda = s.agenda := rfl
@[simp] theorem State.setCore_freeCtr (s : State) (c : Nat) (k : Core) : (s.setCore c k).freeCtr = s.freeCtr := rfl
@[simp] theorem State.setCore_stamp (s : State) (c : Nat) (k : Core) : (s.setCore c k).stamp = s.stamp := rfl
@[simp] theorem State.setCore_devTime (s : State) (c : Nat) (k : Core) : (s.setCore c k).devTime = s.devTime := rfl
@[simp] theorem State.setCore_coreClock (s : State) (c : Nat) (k : Core) : (s.setCore c k).coreClock = s.coreClock := rfl
@[simp] theorem State.setCore_throttledNs (s : State) (c : Nat) (k : Core) : (s.setCore c k).throttledNs = s.throttledNs := rfl
@[simp] theorem State.setCore_part (s : State) (c : Nat) (k : Core) : (s.setCore c k).part = s.part := rfl
@[simp] theorem State.setCore_powerLimit (s : State) (c : Nat) (k : Core) : (s.setCore c k).powerLimit = s.powerLimit := rfl
@[simp] theorem State.setCore_meanAbove (s : State) (c : Nat) (k : Core) : (s.setCore c k).meanAbove = s.meanAbove := rfl
@[simp] theorem State.setCore_meanBelow (s : State) (c : Nat) (k : Core) : (s.setCore c k).meanBelow = s.meanBelow := rfl
@[simp] theorem State.setCore_limitSet (s : State) (c : Nat) (k : Core) : (s.setCore c k).limitSet = s.limitSet := rfl
@[simp] theorem State.setCore_stopped (s : State) (c : Nat) (k : Core) : (s.setCore c k).stopped = s.stopped := rfl
@[simp] theorem State.setCore_temps (s : State) (c : Nat) (k : Core) : (s.setCore c k).temps = s.temps := rfl
@[simp] theorem State.setCore_boot (s : State) (c : Nat) (k : Core) : (s.setCore c k).boot = s.boot := rfl
@[simp] theorem State.setCore_sbe (s : State) (c : Nat) (k : Core) : (s.setCore c k).sbe = s.sbe := rfl
@[simp] theorem State.setCore_ports (s : State) (c : Nat) (k : Core) : (s.setCore c k).ports = s.ports := rfl
@[simp] theorem State.setCore_irqs (s : State) (c : Nat) (k : Core) : (s.setCore c k).irqs = s.irqs := rfl
@[simp] theorem State.setCore_mgmtTable (s : State) (c : Nat) (k : Core) : (s.setCore c k).mgmtTable = s.mgmtTable := rfl
@[simp] theorem State.setCore_mem (s : State) (c : Nat) (k : Core) : (s.setCore c k).mem = s.mem := rfl
@[simp] theorem State.setCore_host (s : State) (c : Nat) (k : Core) : (s.setCore c k).host = s.host := rfl
@[simp] theorem State.setCore_poolDev (s : State) (c : Nat) (k : Core) : (s.setCore c k).poolDev = s.poolDev := rfl
@[simp] theorem State.setCore_poolLines (s : State) (c : Nat) (k : Core) : (s.setCore c k).poolLines = s.poolLines := rfl
@[simp] theorem State.setCore_regions (s : State) (c : Nat) (k : Core) : (s.setCore c k).regions = s.regions := rfl
@[simp] theorem State.setCore_spaces (s : State) (c : Nat) (k : Core) : (s.setCore c k).spaces = s.spaces := rfl
@[simp] theorem State.setCore_poison (s : State) (c : Nat) (k : Core) : (s.setCore c k).poison = s.poison := rfl
@[simp] theorem State.setCore_late (s : State) (c : Nat) (k : Core) : (s.setCore c k).late = s.late := rfl
@[simp] theorem State.setCore_queue (s : State) (c : Nat) (k : Core) : (s.setCore c k).queue = s.queue := rfl
@[simp] theorem State.setCore_releases (s : State) (c : Nat) (k : Core) : (s.setCore c k).releases = s.releases := rfl
@[simp] theorem State.setCore_wrote (s : State) (c : Nat) (k : Core) : (s.setCore c k).wrote = s.wrote := rfl
@[simp] theorem State.setCore_parts (s : State) (c : Nat) (k : Core) : (s.setCore c k).parts = s.parts := rfl
@[simp] theorem State.setCore_pages (s : State) (c : Nat) (k : Core) : (s.setCore c k).pages = s.pages := rfl
@[simp] theorem State.setCore_launches (s : State) (c : Nat) (k : Core) : (s.setCore c k).launches = s.launches := rfl
@[simp] theorem State.setCore_cmds (s : State) (c : Nat) (k : Core) : (s.setCore c k).cmds = s.cmds := rfl
@[simp] theorem State.setCore_images (s : State) (c : Nat) (k : Core) : (s.setCore c k).images = s.images := rfl

/-! ### updCore -/

@[simp] theorem State.updCore_cur (s : State) (c : Nat) (f : Core → Core) : (s.updCore c f).cur = s.cur := rfl
@[simp] theorem State.updCore_agenda (s : State) (c : Nat) (f : Core → Core) : (s.updCore c f).agenda = s.agenda := rfl
@[simp] theorem State.updCore_freeCtr (s : State) (c : Nat) (f : Core → Core) : (s.updCore c f).freeCtr = s.freeCtr := rfl
@[simp] theorem State.updCore_stamp (s : State) (c : Nat) (f : Core → Core) : (s.updCore c f).stamp = s.stamp := rfl
@[simp] theorem State.updCore_devTime (s : State) (c : Nat) (f : Core → Core) : (s.updCore c f).devTime = s.devTime := rfl
@[simp] theorem State.updCore_coreClock (s : State) (c : Nat) (f : Core → Core) : (s.updCore c f).coreClock = s.coreClock := rfl
@[simp] theorem State.updCore_throttledNs (s : State) (c : Nat) (f : Core → Core) : (s.updCore c f).throttledNs = s.throttledNs := rfl
@[simp] theorem State.updCore_part (s : State) (c : Nat) (f : Core → Core) : (s.updCore c f).part = s.part := rfl
@[simp] theorem State.updCore_powerLimit (s : State) (c : Nat) (f : Core → Core) : (s.updCore c f).powerLimit = s.powerLimit := rfl
@[simp] theorem State.updCore_meanAbove (s : State) (c : Nat) (f : Core → Core) : (s.updCore c f).meanAbove = s.meanAbove := rfl
@[simp] theorem State.updCore_meanBelow (s : State) (c : Nat) (f : Core → Core) : (s.updCore c f).meanBelow = s.meanBelow := rfl
@[simp] theorem State.updCore_limitSet (s : State) (c : Nat) (f : Core → Core) : (s.updCore c f).limitSet = s.limitSet := rfl
@[simp] theorem State.updCore_stopped (s : State) (c : Nat) (f : Core → Core) : (s.updCore c f).stopped = s.stopped := rfl
@[simp] theorem State.updCore_temps (s : State) (c : Nat) (f : Core → Core) : (s.updCore c f).temps = s.temps := rfl
@[simp] theorem State.updCore_boot (s : State) (c : Nat) (f : Core → Core) : (s.updCore c f).boot = s.boot := rfl
@[simp] theorem State.updCore_sbe (s : State) (c : Nat) (f : Core → Core) : (s.updCore c f).sbe = s.sbe := rfl
@[simp] theorem State.updCore_ports (s : State) (c : Nat) (f : Core → Core) : (s.updCore c f).ports = s.ports := rfl
@[simp] theorem State.updCore_irqs (s : State) (c : Nat) (f : Core → Core) : (s.updCore c f).irqs = s.irqs := rfl
@[simp] theorem State.updCore_mgmtTable (s : State) (c : Nat) (f : Core → Core) : (s.updCore c f).mgmtTable = s.mgmtTable := rfl
@[simp] theorem State.updCore_mem (s : State) (c : Nat) (f : Core → Core) : (s.updCore c f).mem = s.mem := rfl
@[simp] theorem State.updCore_host (s : State) (c : Nat) (f : Core → Core) : (s.updCore c f).host = s.host := rfl
@[simp] theorem State.updCore_poolDev (s : State) (c : Nat) (f : Core → Core) : (s.updCore c f).poolDev = s.poolDev := rfl
@[simp] theorem State.updCore_poolLines (s : State) (c : Nat) (f : Core → Core) : (s.updCore c f).poolLines = s.poolLines := rfl
@[simp] theorem State.updCore_regions (s : State) (c : Nat) (f : Core → Core) : (s.updCore c f).regions = s.regions := rfl
@[simp] theorem State.updCore_spaces (s : State) (c : Nat) (f : Core → Core) : (s.updCore c f).spaces = s.spaces := rfl
@[simp] theorem State.updCore_poison (s : State) (c : Nat) (f : Core → Core) : (s.updCore c f).poison = s.poison := rfl
@[simp] theorem State.updCore_late (s : State) (c : Nat) (f : Core → Core) : (s.updCore c f).late = s.late := rfl
@[simp] theorem State.updCore_queue (s : State) (c : Nat) (f : Core → Core) : (s.updCore c f).queue = s.queue := rfl
@[simp] theorem State.updCore_releases (s : State) (c : Nat) (f : Core → Core) : (s.updCore c f).releases = s.releases := rfl
@[simp] theorem State.updCore_wrote (s : State) (c : Nat) (f : Core → Core) : (s.updCore c f).wrote = s.wrote := rfl
@[simp] theorem State.updCore_parts (s : State) (c : Nat) (f : Core → Core) : (s.updCore c f).parts = s.parts := rfl
@[simp] theorem State.updCore_pages (s : State) (c : Nat) (f : Core → Core) : (s.updCore c f).pages = s.pages := rfl
@[simp] theorem State.updCore_launches (s : State) (c : Nat) (f : Core → Core) : (s.updCore c f).launches = s.launches := rfl
@[simp] theorem State.updCore_cmds (s : State) (c : Nat) (f : Core → Core) : (s.updCore c f).cmds = s.cmds := rfl
@[simp] theorem State.updCore_images (s : State) (c : Nat) (f : Core → Core) : (s.updCore c f).images = s.images := rfl

/-! ### setCtx -/

@[simp] theorem State.setCtx_cur (s : State) (c k : Nat) (x : Ctx) : (s.setCtx c k x).cur = s.cur := rfl
@[simp] theorem State.setCtx_agenda (s : State) (c k : Nat) (x : Ctx) : (s.setCtx c k x).agenda = s.agenda := rfl
@[simp] theorem State.setCtx_freeCtr (s : State) (c k : Nat) (x : Ctx) : (s.setCtx c k x).freeCtr = s.freeCtr := rfl
@[simp] theorem State.setCtx_stamp (s : State) (c k : Nat) (x : Ctx) : (s.setCtx c k x).stamp = s.stamp := rfl
@[simp] theorem State.setCtx_devTime (s : State) (c k : Nat) (x : Ctx) : (s.setCtx c k x).devTime = s.devTime := rfl
@[simp] theorem State.setCtx_coreClock (s : State) (c k : Nat) (x : Ctx) : (s.setCtx c k x).coreClock = s.coreClock := rfl
@[simp] theorem State.setCtx_throttledNs (s : State) (c k : Nat) (x : Ctx) : (s.setCtx c k x).throttledNs = s.throttledNs := rfl
@[simp] theorem State.setCtx_part (s : State) (c k : Nat) (x : Ctx) : (s.setCtx c k x).part = s.part := rfl
@[simp] theorem State.setCtx_powerLimit (s : State) (c k : Nat) (x : Ctx) : (s.setCtx c k x).powerLimit = s.powerLimit := rfl
@[simp] theorem State.setCtx_meanAbove (s : State) (c k : Nat) (x : Ctx) : (s.setCtx c k x).meanAbove = s.meanAbove := rfl
@[simp] theorem State.setCtx_meanBelow (s : State) (c k : Nat) (x : Ctx) : (s.setCtx c k x).meanBelow = s.meanBelow := rfl
@[simp] theorem State.setCtx_limitSet (s : State) (c k : Nat) (x : Ctx) : (s.setCtx c k x).limitSet = s.limitSet := rfl
@[simp] theorem State.setCtx_stopped (s : State) (c k : Nat) (x : Ctx) : (s.setCtx c k x).stopped = s.stopped := rfl
@[simp] theorem State.setCtx_temps (s : State) (c k : Nat) (x : Ctx) : (s.setCtx c k x).temps = s.temps := rfl
@[simp] theorem State.setCtx_boot (s : State) (c k : Nat) (x : Ctx) : (s.setCtx c k x).boot = s.boot := rfl
@[simp] theorem State.setCtx_sbe (s : State) (c k : Nat) (x : Ctx) : (s.setCtx c k x).sbe = s.sbe := rfl
@[simp] theorem State.setCtx_ports (s : State) (c k : Nat) (x : Ctx) : (s.setCtx c k x).ports = s.ports := rfl
@[simp] theorem State.setCtx_irqs (s : State) (c k : Nat) (x : Ctx) : (s.setCtx c k x).irqs = s.irqs := rfl
@[simp] theorem State.setCtx_mgmtTable (s : State) (c k : Nat) (x : Ctx) : (s.setCtx c k x).mgmtTable = s.mgmtTable := rfl
@[simp] theorem State.setCtx_mem (s : State) (c k : Nat) (x : Ctx) : (s.setCtx c k x).mem = s.mem := rfl
@[simp] theorem State.setCtx_host (s : State) (c k : Nat) (x : Ctx) : (s.setCtx c k x).host = s.host := rfl
@[simp] theorem State.setCtx_poolDev (s : State) (c k : Nat) (x : Ctx) : (s.setCtx c k x).poolDev = s.poolDev := rfl
@[simp] theorem State.setCtx_poolLines (s : State) (c k : Nat) (x : Ctx) : (s.setCtx c k x).poolLines = s.poolLines := rfl
@[simp] theorem State.setCtx_regions (s : State) (c k : Nat) (x : Ctx) : (s.setCtx c k x).regions = s.regions := rfl
@[simp] theorem State.setCtx_spaces (s : State) (c k : Nat) (x : Ctx) : (s.setCtx c k x).spaces = s.spaces := rfl
@[simp] theorem State.setCtx_poison (s : State) (c k : Nat) (x : Ctx) : (s.setCtx c k x).poison = s.poison := rfl
@[simp] theorem State.setCtx_late (s : State) (c k : Nat) (x : Ctx) : (s.setCtx c k x).late = s.late := rfl
@[simp] theorem State.setCtx_queue (s : State) (c k : Nat) (x : Ctx) : (s.setCtx c k x).queue = s.queue := rfl
@[simp] theorem State.setCtx_releases (s : State) (c k : Nat) (x : Ctx) : (s.setCtx c k x).releases = s.releases := rfl
@[simp] theorem State.setCtx_wrote (s : State) (c k : Nat) (x : Ctx) : (s.setCtx c k x).wrote = s.wrote := rfl
@[simp] theorem State.setCtx_parts (s : State) (c k : Nat) (x : Ctx) : (s.setCtx c k x).parts = s.parts := rfl
@[simp] theorem State.setCtx_pages (s : State) (c k : Nat) (x : Ctx) : (s.setCtx c k x).pages = s.pages := rfl
@[simp] theorem State.setCtx_launches (s : State) (c k : Nat) (x : Ctx) : (s.setCtx c k x).launches = s.launches := rfl
@[simp] theorem State.setCtx_cmds (s : State) (c k : Nat) (x : Ctx) : (s.setCtx c k x).cmds = s.cmds := rfl
@[simp] theorem State.setCtx_images (s : State) (c k : Nat) (x : Ctx) : (s.setCtx c k x).images = s.images := rfl

/-! ### updCtx -/

@[simp] theorem State.updCtx_cur (s : State) (c k : Nat) (f : Ctx → Ctx) : (s.updCtx c k f).cur = s.cur := rfl
@[simp] theorem State.updCtx_agenda (s : State) (c k : Nat) (f : Ctx → Ctx) : (s.updCtx c k f).agenda = s.agenda := rfl
@[simp] theorem State.updCtx_freeCtr (s : State) (c k : Nat) (f : Ctx → Ctx) : (s.updCtx c k f).freeCtr = s.freeCtr := rfl
@[simp] theorem State.updCtx_stamp (s : State) (c k : Nat) (f : Ctx → Ctx) : (s.updCtx c k f).stamp = s.stamp := rfl
@[simp] theorem State.updCtx_devTime (s : State) (c k : Nat) (f : Ctx → Ctx) : (s.updCtx c k f).devTime = s.devTime := rfl
@[simp] theorem State.updCtx_coreClock (s : State) (c k : Nat) (f : Ctx → Ctx) : (s.updCtx c k f).coreClock = s.coreClock := rfl
@[simp] theorem State.updCtx_throttledNs (s : State) (c k : Nat) (f : Ctx → Ctx) : (s.updCtx c k f).throttledNs = s.throttledNs := rfl
@[simp] theorem State.updCtx_part (s : State) (c k : Nat) (f : Ctx → Ctx) : (s.updCtx c k f).part = s.part := rfl
@[simp] theorem State.updCtx_powerLimit (s : State) (c k : Nat) (f : Ctx → Ctx) : (s.updCtx c k f).powerLimit = s.powerLimit := rfl
@[simp] theorem State.updCtx_meanAbove (s : State) (c k : Nat) (f : Ctx → Ctx) : (s.updCtx c k f).meanAbove = s.meanAbove := rfl
@[simp] theorem State.updCtx_meanBelow (s : State) (c k : Nat) (f : Ctx → Ctx) : (s.updCtx c k f).meanBelow = s.meanBelow := rfl
@[simp] theorem State.updCtx_limitSet (s : State) (c k : Nat) (f : Ctx → Ctx) : (s.updCtx c k f).limitSet = s.limitSet := rfl
@[simp] theorem State.updCtx_stopped (s : State) (c k : Nat) (f : Ctx → Ctx) : (s.updCtx c k f).stopped = s.stopped := rfl
@[simp] theorem State.updCtx_temps (s : State) (c k : Nat) (f : Ctx → Ctx) : (s.updCtx c k f).temps = s.temps := rfl
@[simp] theorem State.updCtx_boot (s : State) (c k : Nat) (f : Ctx → Ctx) : (s.updCtx c k f).boot = s.boot := rfl
@[simp] theorem State.updCtx_sbe (s : State) (c k : Nat) (f : Ctx → Ctx) : (s.updCtx c k f).sbe = s.sbe := rfl
@[simp] theorem State.updCtx_ports (s : State) (c k : Nat) (f : Ctx → Ctx) : (s.updCtx c k f).ports = s.ports := rfl
@[simp] theorem State.updCtx_irqs (s : State) (c k : Nat) (f : Ctx → Ctx) : (s.updCtx c k f).irqs = s.irqs := rfl
@[simp] theorem State.updCtx_mgmtTable (s : State) (c k : Nat) (f : Ctx → Ctx) : (s.updCtx c k f).mgmtTable = s.mgmtTable := rfl
@[simp] theorem State.updCtx_mem (s : State) (c k : Nat) (f : Ctx → Ctx) : (s.updCtx c k f).mem = s.mem := rfl
@[simp] theorem State.updCtx_host (s : State) (c k : Nat) (f : Ctx → Ctx) : (s.updCtx c k f).host = s.host := rfl
@[simp] theorem State.updCtx_poolDev (s : State) (c k : Nat) (f : Ctx → Ctx) : (s.updCtx c k f).poolDev = s.poolDev := rfl
@[simp] theorem State.updCtx_poolLines (s : State) (c k : Nat) (f : Ctx → Ctx) : (s.updCtx c k f).poolLines = s.poolLines := rfl
@[simp] theorem State.updCtx_regions (s : State) (c k : Nat) (f : Ctx → Ctx) : (s.updCtx c k f).regions = s.regions := rfl
@[simp] theorem State.updCtx_spaces (s : State) (c k : Nat) (f : Ctx → Ctx) : (s.updCtx c k f).spaces = s.spaces := rfl
@[simp] theorem State.updCtx_poison (s : State) (c k : Nat) (f : Ctx → Ctx) : (s.updCtx c k f).poison = s.poison := rfl
@[simp] theorem State.updCtx_late (s : State) (c k : Nat) (f : Ctx → Ctx) : (s.updCtx c k f).late = s.late := rfl
@[simp] theorem State.updCtx_queue (s : State) (c k : Nat) (f : Ctx → Ctx) : (s.updCtx c k f).queue = s.queue := rfl
@[simp] theorem State.updCtx_releases (s : State) (c k : Nat) (f : Ctx → Ctx) : (s.updCtx c k f).releases = s.releases := rfl
@[simp] theorem State.updCtx_wrote (s : State) (c k : Nat) (f : Ctx → Ctx) : (s.updCtx c k f).wrote = s.wrote := rfl
@[simp] theorem State.updCtx_parts (s : State) (c k : Nat) (f : Ctx → Ctx) : (s.updCtx c k f).parts = s.parts := rfl
@[simp] theorem State.updCtx_pages (s : State) (c k : Nat) (f : Ctx → Ctx) : (s.updCtx c k f).pages = s.pages := rfl
@[simp] theorem State.updCtx_launches (s : State) (c k : Nat) (f : Ctx → Ctx) : (s.updCtx c k f).launches = s.launches := rfl
@[simp] theorem State.updCtx_cmds (s : State) (c k : Nat) (f : Ctx → Ctx) : (s.updCtx c k f).cmds = s.cmds := rfl
@[simp] theorem State.updCtx_images (s : State) (c k : Nat) (f : Ctx → Ctx) : (s.updCtx c k f).images = s.images := rfl

/-! ### setGroup -/

@[simp] theorem State.setGroup_cur (s : State) (c k g : Nat) (r : Group) : (s.setGroup c k g r).cur = s.cur := rfl
@[simp] theorem State.setGroup_agenda (s : State) (c k g : Nat) (r : Group) : (s.setGroup c k g r).agenda = s.agenda := rfl
@[simp] theorem State.setGroup_freeCtr (s : State) (c k g : Nat) (r : Group) : (s.setGroup c k g r).freeCtr = s.freeCtr := rfl
@[simp] theorem State.setGroup_stamp (s : State) (c k g : Nat) (r : Group) : (s.setGroup c k g r).stamp = s.stamp := rfl
@[simp] theorem State.setGroup_devTime (s : State) (c k g : Nat) (r : Group) : (s.setGroup c k g r).devTime = s.devTime := rfl
@[simp] theorem State.setGroup_coreClock (s : State) (c k g : Nat) (r : Group) : (s.setGroup c k g r).coreClock = s.coreClock := rfl
@[simp] theorem State.setGroup_throttledNs (s : State) (c k g : Nat) (r : Group) : (s.setGroup c k g r).throttledNs = s.throttledNs := rfl
@[simp] theorem State.setGroup_part (s : State) (c k g : Nat) (r : Group) : (s.setGroup c k g r).part = s.part := rfl
@[simp] theorem State.setGroup_powerLimit (s : State) (c k g : Nat) (r : Group) : (s.setGroup c k g r).powerLimit = s.powerLimit := rfl
@[simp] theorem State.setGroup_meanAbove (s : State) (c k g : Nat) (r : Group) : (s.setGroup c k g r).meanAbove = s.meanAbove := rfl
@[simp] theorem State.setGroup_meanBelow (s : State) (c k g : Nat) (r : Group) : (s.setGroup c k g r).meanBelow = s.meanBelow := rfl
@[simp] theorem State.setGroup_limitSet (s : State) (c k g : Nat) (r : Group) : (s.setGroup c k g r).limitSet = s.limitSet := rfl
@[simp] theorem State.setGroup_stopped (s : State) (c k g : Nat) (r : Group) : (s.setGroup c k g r).stopped = s.stopped := rfl
@[simp] theorem State.setGroup_temps (s : State) (c k g : Nat) (r : Group) : (s.setGroup c k g r).temps = s.temps := rfl
@[simp] theorem State.setGroup_boot (s : State) (c k g : Nat) (r : Group) : (s.setGroup c k g r).boot = s.boot := rfl
@[simp] theorem State.setGroup_sbe (s : State) (c k g : Nat) (r : Group) : (s.setGroup c k g r).sbe = s.sbe := rfl
@[simp] theorem State.setGroup_ports (s : State) (c k g : Nat) (r : Group) : (s.setGroup c k g r).ports = s.ports := rfl
@[simp] theorem State.setGroup_irqs (s : State) (c k g : Nat) (r : Group) : (s.setGroup c k g r).irqs = s.irqs := rfl
@[simp] theorem State.setGroup_mgmtTable (s : State) (c k g : Nat) (r : Group) : (s.setGroup c k g r).mgmtTable = s.mgmtTable := rfl
@[simp] theorem State.setGroup_mem (s : State) (c k g : Nat) (r : Group) : (s.setGroup c k g r).mem = s.mem := rfl
@[simp] theorem State.setGroup_host (s : State) (c k g : Nat) (r : Group) : (s.setGroup c k g r).host = s.host := rfl
@[simp] theorem State.setGroup_poolDev (s : State) (c k g : Nat) (r : Group) : (s.setGroup c k g r).poolDev = s.poolDev := rfl
@[simp] theorem State.setGroup_poolLines (s : State) (c k g : Nat) (r : Group) : (s.setGroup c k g r).poolLines = s.poolLines := rfl
@[simp] theorem State.setGroup_regions (s : State) (c k g : Nat) (r : Group) : (s.setGroup c k g r).regions = s.regions := rfl
@[simp] theorem State.setGroup_spaces (s : State) (c k g : Nat) (r : Group) : (s.setGroup c k g r).spaces = s.spaces := rfl
@[simp] theorem State.setGroup_poison (s : State) (c k g : Nat) (r : Group) : (s.setGroup c k g r).poison = s.poison := rfl
@[simp] theorem State.setGroup_late (s : State) (c k g : Nat) (r : Group) : (s.setGroup c k g r).late = s.late := rfl
@[simp] theorem State.setGroup_queue (s : State) (c k g : Nat) (r : Group) : (s.setGroup c k g r).queue = s.queue := rfl
@[simp] theorem State.setGroup_releases (s : State) (c k g : Nat) (r : Group) : (s.setGroup c k g r).releases = s.releases := rfl
@[simp] theorem State.setGroup_wrote (s : State) (c k g : Nat) (r : Group) : (s.setGroup c k g r).wrote = s.wrote := rfl
@[simp] theorem State.setGroup_parts (s : State) (c k g : Nat) (r : Group) : (s.setGroup c k g r).parts = s.parts := rfl
@[simp] theorem State.setGroup_pages (s : State) (c k g : Nat) (r : Group) : (s.setGroup c k g r).pages = s.pages := rfl
@[simp] theorem State.setGroup_launches (s : State) (c k g : Nat) (r : Group) : (s.setGroup c k g r).launches = s.launches := rfl
@[simp] theorem State.setGroup_cmds (s : State) (c k g : Nat) (r : Group) : (s.setGroup c k g r).cmds = s.cmds := rfl
@[simp] theorem State.setGroup_images (s : State) (c k g : Nat) (r : Group) : (s.setGroup c k g r).images = s.images := rfl

/-! ### updGroup -/

@[simp] theorem State.updGroup_cur (s : State) (c k g : Nat) (f : Group → Group) : (s.updGroup c k g f).cur = s.cur := rfl
@[simp] theorem State.updGroup_agenda (s : State) (c k g : Nat) (f : Group → Group) : (s.updGroup c k g f).agenda = s.agenda := rfl
@[simp] theorem State.updGroup_freeCtr (s : State) (c k g : Nat) (f : Group → Group) : (s.updGroup c k g f).freeCtr = s.freeCtr := rfl
@[simp] theorem State.updGroup_stamp (s : State) (c k g : Nat) (f : Group → Group) : (s.updGroup c k g f).stamp = s.stamp := rfl
@[simp] theorem State.updGroup_devTime (s : State) (c k g : Nat) (f : Group → Group) : (s.updGroup c k g f).devTime = s.devTime := rfl
@[simp] theorem State.updGroup_coreClock (s : State) (c k g : Nat) (f : Group → Group) : (s.updGroup c k g f).coreClock = s.coreClock := rfl
@[simp] theorem State.updGroup_throttledNs (s : State) (c k g : Nat) (f : Group → Group) : (s.updGroup c k g f).throttledNs = s.throttledNs := rfl
@[simp] theorem State.updGroup_part (s : State) (c k g : Nat) (f : Group → Group) : (s.updGroup c k g f).part = s.part := rfl
@[simp] theorem State.updGroup_powerLimit (s : State) (c k g : Nat) (f : Group → Group) : (s.updGroup c k g f).powerLimit = s.powerLimit := rfl
@[simp] theorem State.updGroup_meanAbove (s : State) (c k g : Nat) (f : Group → Group) : (s.updGroup c k g f).meanAbove = s.meanAbove := rfl
@[simp] theorem State.updGroup_meanBelow (s : State) (c k g : Nat) (f : Group → Group) : (s.updGroup c k g f).meanBelow = s.meanBelow := rfl
@[simp] theorem State.updGroup_limitSet (s : State) (c k g : Nat) (f : Group → Group) : (s.updGroup c k g f).limitSet = s.limitSet := rfl
@[simp] theorem State.updGroup_stopped (s : State) (c k g : Nat) (f : Group → Group) : (s.updGroup c k g f).stopped = s.stopped := rfl
@[simp] theorem State.updGroup_temps (s : State) (c k g : Nat) (f : Group → Group) : (s.updGroup c k g f).temps = s.temps := rfl
@[simp] theorem State.updGroup_boot (s : State) (c k g : Nat) (f : Group → Group) : (s.updGroup c k g f).boot = s.boot := rfl
@[simp] theorem State.updGroup_sbe (s : State) (c k g : Nat) (f : Group → Group) : (s.updGroup c k g f).sbe = s.sbe := rfl
@[simp] theorem State.updGroup_ports (s : State) (c k g : Nat) (f : Group → Group) : (s.updGroup c k g f).ports = s.ports := rfl
@[simp] theorem State.updGroup_irqs (s : State) (c k g : Nat) (f : Group → Group) : (s.updGroup c k g f).irqs = s.irqs := rfl
@[simp] theorem State.updGroup_mgmtTable (s : State) (c k g : Nat) (f : Group → Group) : (s.updGroup c k g f).mgmtTable = s.mgmtTable := rfl
@[simp] theorem State.updGroup_mem (s : State) (c k g : Nat) (f : Group → Group) : (s.updGroup c k g f).mem = s.mem := rfl
@[simp] theorem State.updGroup_host (s : State) (c k g : Nat) (f : Group → Group) : (s.updGroup c k g f).host = s.host := rfl
@[simp] theorem State.updGroup_poolDev (s : State) (c k g : Nat) (f : Group → Group) : (s.updGroup c k g f).poolDev = s.poolDev := rfl
@[simp] theorem State.updGroup_poolLines (s : State) (c k g : Nat) (f : Group → Group) : (s.updGroup c k g f).poolLines = s.poolLines := rfl
@[simp] theorem State.updGroup_regions (s : State) (c k g : Nat) (f : Group → Group) : (s.updGroup c k g f).regions = s.regions := rfl
@[simp] theorem State.updGroup_spaces (s : State) (c k g : Nat) (f : Group → Group) : (s.updGroup c k g f).spaces = s.spaces := rfl
@[simp] theorem State.updGroup_poison (s : State) (c k g : Nat) (f : Group → Group) : (s.updGroup c k g f).poison = s.poison := rfl
@[simp] theorem State.updGroup_late (s : State) (c k g : Nat) (f : Group → Group) : (s.updGroup c k g f).late = s.late := rfl
@[simp] theorem State.updGroup_queue (s : State) (c k g : Nat) (f : Group → Group) : (s.updGroup c k g f).queue = s.queue := rfl
@[simp] theorem State.updGroup_releases (s : State) (c k g : Nat) (f : Group → Group) : (s.updGroup c k g f).releases = s.releases := rfl
@[simp] theorem State.updGroup_wrote (s : State) (c k g : Nat) (f : Group → Group) : (s.updGroup c k g f).wrote = s.wrote := rfl
@[simp] theorem State.updGroup_parts (s : State) (c k g : Nat) (f : Group → Group) : (s.updGroup c k g f).parts = s.parts := rfl
@[simp] theorem State.updGroup_pages (s : State) (c k g : Nat) (f : Group → Group) : (s.updGroup c k g f).pages = s.pages := rfl
@[simp] theorem State.updGroup_launches (s : State) (c k g : Nat) (f : Group → Group) : (s.updGroup c k g f).launches = s.launches := rfl
@[simp] theorem State.updGroup_cmds (s : State) (c k g : Nat) (f : Group → Group) : (s.updGroup c k g f).cmds = s.cmds := rfl
@[simp] theorem State.updGroup_images (s : State) (c k g : Nat) (f : Group → Group) : (s.updGroup c k g f).images = s.images := rfl

/-! ### setMe -/

@[simp] theorem State.setMe_cur (s : State) (x : Ctx) : (s.setMe x).cur = s.cur := rfl
@[simp] theorem State.setMe_agenda (s : State) (x : Ctx) : (s.setMe x).agenda = s.agenda := rfl
@[simp] theorem State.setMe_freeCtr (s : State) (x : Ctx) : (s.setMe x).freeCtr = s.freeCtr := rfl
@[simp] theorem State.setMe_stamp (s : State) (x : Ctx) : (s.setMe x).stamp = s.stamp := rfl
@[simp] theorem State.setMe_devTime (s : State) (x : Ctx) : (s.setMe x).devTime = s.devTime := rfl
@[simp] theorem State.setMe_coreClock (s : State) (x : Ctx) : (s.setMe x).coreClock = s.coreClock := rfl
@[simp] theorem State.setMe_throttledNs (s : State) (x : Ctx) : (s.setMe x).throttledNs = s.throttledNs := rfl
@[simp] theorem State.setMe_part (s : State) (x : Ctx) : (s.setMe x).part = s.part := rfl
@[simp] theorem State.setMe_powerLimit (s : State) (x : Ctx) : (s.setMe x).powerLimit = s.powerLimit := rfl
@[simp] theorem State.setMe_meanAbove (s : State) (x : Ctx) : (s.setMe x).meanAbove = s.meanAbove := rfl
@[simp] theorem State.setMe_meanBelow (s : State) (x : Ctx) : (s.setMe x).meanBelow = s.meanBelow := rfl
@[simp] theorem State.setMe_limitSet (s : State) (x : Ctx) : (s.setMe x).limitSet = s.limitSet := rfl
@[simp] theorem State.setMe_stopped (s : State) (x : Ctx) : (s.setMe x).stopped = s.stopped := rfl
@[simp] theorem State.setMe_temps (s : State) (x : Ctx) : (s.setMe x).temps = s.temps := rfl
@[simp] theorem State.setMe_boot (s : State) (x : Ctx) : (s.setMe x).boot = s.boot := rfl
@[simp] theorem State.setMe_sbe (s : State) (x : Ctx) : (s.setMe x).sbe = s.sbe := rfl
@[simp] theorem State.setMe_ports (s : State) (x : Ctx) : (s.setMe x).ports = s.ports := rfl
@[simp] theorem State.setMe_irqs (s : State) (x : Ctx) : (s.setMe x).irqs = s.irqs := rfl
@[simp] theorem State.setMe_mgmtTable (s : State) (x : Ctx) : (s.setMe x).mgmtTable = s.mgmtTable := rfl
@[simp] theorem State.setMe_mem (s : State) (x : Ctx) : (s.setMe x).mem = s.mem := rfl
@[simp] theorem State.setMe_host (s : State) (x : Ctx) : (s.setMe x).host = s.host := rfl
@[simp] theorem State.setMe_poolDev (s : State) (x : Ctx) : (s.setMe x).poolDev = s.poolDev := rfl
@[simp] theorem State.setMe_poolLines (s : State) (x : Ctx) : (s.setMe x).poolLines = s.poolLines := rfl
@[simp] theorem State.setMe_regions (s : State) (x : Ctx) : (s.setMe x).regions = s.regions := rfl
@[simp] theorem State.setMe_spaces (s : State) (x : Ctx) : (s.setMe x).spaces = s.spaces := rfl
@[simp] theorem State.setMe_poison (s : State) (x : Ctx) : (s.setMe x).poison = s.poison := rfl
@[simp] theorem State.setMe_late (s : State) (x : Ctx) : (s.setMe x).late = s.late := rfl
@[simp] theorem State.setMe_queue (s : State) (x : Ctx) : (s.setMe x).queue = s.queue := rfl
@[simp] theorem State.setMe_releases (s : State) (x : Ctx) : (s.setMe x).releases = s.releases := rfl
@[simp] theorem State.setMe_wrote (s : State) (x : Ctx) : (s.setMe x).wrote = s.wrote := rfl
@[simp] theorem State.setMe_parts (s : State) (x : Ctx) : (s.setMe x).parts = s.parts := rfl
@[simp] theorem State.setMe_pages (s : State) (x : Ctx) : (s.setMe x).pages = s.pages := rfl
@[simp] theorem State.setMe_launches (s : State) (x : Ctx) : (s.setMe x).launches = s.launches := rfl
@[simp] theorem State.setMe_cmds (s : State) (x : Ctx) : (s.setMe x).cmds = s.cmds := rfl
@[simp] theorem State.setMe_images (s : State) (x : Ctx) : (s.setMe x).images = s.images := rfl

/-! ### updLaneSet -/

@[simp] theorem State.updLaneSet_cur (s : State) (c l : Nat) (f : LaneSet → LaneSet) : (s.updLaneSet c l f).cur = s.cur := rfl
@[simp] theorem State.updLaneSet_agenda (s : State) (c l : Nat) (f : LaneSet → LaneSet) : (s.updLaneSet c l f).agenda = s.agenda := rfl
@[simp] theorem State.updLaneSet_freeCtr (s : State) (c l : Nat) (f : LaneSet → LaneSet) : (s.updLaneSet c l f).freeCtr = s.freeCtr := rfl
@[simp] theorem State.updLaneSet_stamp (s : State) (c l : Nat) (f : LaneSet → LaneSet) : (s.updLaneSet c l f).stamp = s.stamp := rfl
@[simp] theorem State.updLaneSet_devTime (s : State) (c l : Nat) (f : LaneSet → LaneSet) : (s.updLaneSet c l f).devTime = s.devTime := rfl
@[simp] theorem State.updLaneSet_coreClock (s : State) (c l : Nat) (f : LaneSet → LaneSet) : (s.updLaneSet c l f).coreClock = s.coreClock := rfl
@[simp] theorem State.updLaneSet_throttledNs (s : State) (c l : Nat) (f : LaneSet → LaneSet) : (s.updLaneSet c l f).throttledNs = s.throttledNs := rfl
@[simp] theorem State.updLaneSet_part (s : State) (c l : Nat) (f : LaneSet → LaneSet) : (s.updLaneSet c l f).part = s.part := rfl
@[simp] theorem State.updLaneSet_powerLimit (s : State) (c l : Nat) (f : LaneSet → LaneSet) : (s.updLaneSet c l f).powerLimit = s.powerLimit := rfl
@[simp] theorem State.updLaneSet_meanAbove (s : State) (c l : Nat) (f : LaneSet → LaneSet) : (s.updLaneSet c l f).meanAbove = s.meanAbove := rfl
@[simp] theorem State.updLaneSet_meanBelow (s : State) (c l : Nat) (f : LaneSet → LaneSet) : (s.updLaneSet c l f).meanBelow = s.meanBelow := rfl
@[simp] theorem State.updLaneSet_limitSet (s : State) (c l : Nat) (f : LaneSet → LaneSet) : (s.updLaneSet c l f).limitSet = s.limitSet := rfl
@[simp] theorem State.updLaneSet_stopped (s : State) (c l : Nat) (f : LaneSet → LaneSet) : (s.updLaneSet c l f).stopped = s.stopped := rfl
@[simp] theorem State.updLaneSet_temps (s : State) (c l : Nat) (f : LaneSet → LaneSet) : (s.updLaneSet c l f).temps = s.temps := rfl
@[simp] theorem State.updLaneSet_boot (s : State) (c l : Nat) (f : LaneSet → LaneSet) : (s.updLaneSet c l f).boot = s.boot := rfl
@[simp] theorem State.updLaneSet_sbe (s : State) (c l : Nat) (f : LaneSet → LaneSet) : (s.updLaneSet c l f).sbe = s.sbe := rfl
@[simp] theorem State.updLaneSet_ports (s : State) (c l : Nat) (f : LaneSet → LaneSet) : (s.updLaneSet c l f).ports = s.ports := rfl
@[simp] theorem State.updLaneSet_irqs (s : State) (c l : Nat) (f : LaneSet → LaneSet) : (s.updLaneSet c l f).irqs = s.irqs := rfl
@[simp] theorem State.updLaneSet_mgmtTable (s : State) (c l : Nat) (f : LaneSet → LaneSet) : (s.updLaneSet c l f).mgmtTable = s.mgmtTable := rfl
@[simp] theorem State.updLaneSet_mem (s : State) (c l : Nat) (f : LaneSet → LaneSet) : (s.updLaneSet c l f).mem = s.mem := rfl
@[simp] theorem State.updLaneSet_host (s : State) (c l : Nat) (f : LaneSet → LaneSet) : (s.updLaneSet c l f).host = s.host := rfl
@[simp] theorem State.updLaneSet_poolDev (s : State) (c l : Nat) (f : LaneSet → LaneSet) : (s.updLaneSet c l f).poolDev = s.poolDev := rfl
@[simp] theorem State.updLaneSet_poolLines (s : State) (c l : Nat) (f : LaneSet → LaneSet) : (s.updLaneSet c l f).poolLines = s.poolLines := rfl
@[simp] theorem State.updLaneSet_regions (s : State) (c l : Nat) (f : LaneSet → LaneSet) : (s.updLaneSet c l f).regions = s.regions := rfl
@[simp] theorem State.updLaneSet_spaces (s : State) (c l : Nat) (f : LaneSet → LaneSet) : (s.updLaneSet c l f).spaces = s.spaces := rfl
@[simp] theorem State.updLaneSet_poison (s : State) (c l : Nat) (f : LaneSet → LaneSet) : (s.updLaneSet c l f).poison = s.poison := rfl
@[simp] theorem State.updLaneSet_late (s : State) (c l : Nat) (f : LaneSet → LaneSet) : (s.updLaneSet c l f).late = s.late := rfl
@[simp] theorem State.updLaneSet_queue (s : State) (c l : Nat) (f : LaneSet → LaneSet) : (s.updLaneSet c l f).queue = s.queue := rfl
@[simp] theorem State.updLaneSet_releases (s : State) (c l : Nat) (f : LaneSet → LaneSet) : (s.updLaneSet c l f).releases = s.releases := rfl
@[simp] theorem State.updLaneSet_wrote (s : State) (c l : Nat) (f : LaneSet → LaneSet) : (s.updLaneSet c l f).wrote = s.wrote := rfl
@[simp] theorem State.updLaneSet_parts (s : State) (c l : Nat) (f : LaneSet → LaneSet) : (s.updLaneSet c l f).parts = s.parts := rfl
@[simp] theorem State.updLaneSet_pages (s : State) (c l : Nat) (f : LaneSet → LaneSet) : (s.updLaneSet c l f).pages = s.pages := rfl
@[simp] theorem State.updLaneSet_launches (s : State) (c l : Nat) (f : LaneSet → LaneSet) : (s.updLaneSet c l f).launches = s.launches := rfl
@[simp] theorem State.updLaneSet_cmds (s : State) (c l : Nat) (f : LaneSet → LaneSet) : (s.updLaneSet c l f).cmds = s.cmds := rfl
@[simp] theorem State.updLaneSet_images (s : State) (c l : Nat) (f : LaneSet → LaneSet) : (s.updLaneSet c l f).images = s.images := rfl

/-! ### updChan -/

@[simp] theorem State.updChan_cur (s : State) (c ch : Nat) (f : Chan → Chan) : (s.updChan c ch f).cur = s.cur := rfl
@[simp] theorem State.updChan_agenda (s : State) (c ch : Nat) (f : Chan → Chan) : (s.updChan c ch f).agenda = s.agenda := rfl
@[simp] theorem State.updChan_freeCtr (s : State) (c ch : Nat) (f : Chan → Chan) : (s.updChan c ch f).freeCtr = s.freeCtr := rfl
@[simp] theorem State.updChan_stamp (s : State) (c ch : Nat) (f : Chan → Chan) : (s.updChan c ch f).stamp = s.stamp := rfl
@[simp] theorem State.updChan_devTime (s : State) (c ch : Nat) (f : Chan → Chan) : (s.updChan c ch f).devTime = s.devTime := rfl
@[simp] theorem State.updChan_coreClock (s : State) (c ch : Nat) (f : Chan → Chan) : (s.updChan c ch f).coreClock = s.coreClock := rfl
@[simp] theorem State.updChan_throttledNs (s : State) (c ch : Nat) (f : Chan → Chan) : (s.updChan c ch f).throttledNs = s.throttledNs := rfl
@[simp] theorem State.updChan_part (s : State) (c ch : Nat) (f : Chan → Chan) : (s.updChan c ch f).part = s.part := rfl
@[simp] theorem State.updChan_powerLimit (s : State) (c ch : Nat) (f : Chan → Chan) : (s.updChan c ch f).powerLimit = s.powerLimit := rfl
@[simp] theorem State.updChan_meanAbove (s : State) (c ch : Nat) (f : Chan → Chan) : (s.updChan c ch f).meanAbove = s.meanAbove := rfl
@[simp] theorem State.updChan_meanBelow (s : State) (c ch : Nat) (f : Chan → Chan) : (s.updChan c ch f).meanBelow = s.meanBelow := rfl
@[simp] theorem State.updChan_limitSet (s : State) (c ch : Nat) (f : Chan → Chan) : (s.updChan c ch f).limitSet = s.limitSet := rfl
@[simp] theorem State.updChan_stopped (s : State) (c ch : Nat) (f : Chan → Chan) : (s.updChan c ch f).stopped = s.stopped := rfl
@[simp] theorem State.updChan_temps (s : State) (c ch : Nat) (f : Chan → Chan) : (s.updChan c ch f).temps = s.temps := rfl
@[simp] theorem State.updChan_boot (s : State) (c ch : Nat) (f : Chan → Chan) : (s.updChan c ch f).boot = s.boot := rfl
@[simp] theorem State.updChan_sbe (s : State) (c ch : Nat) (f : Chan → Chan) : (s.updChan c ch f).sbe = s.sbe := rfl
@[simp] theorem State.updChan_ports (s : State) (c ch : Nat) (f : Chan → Chan) : (s.updChan c ch f).ports = s.ports := rfl
@[simp] theorem State.updChan_irqs (s : State) (c ch : Nat) (f : Chan → Chan) : (s.updChan c ch f).irqs = s.irqs := rfl
@[simp] theorem State.updChan_mgmtTable (s : State) (c ch : Nat) (f : Chan → Chan) : (s.updChan c ch f).mgmtTable = s.mgmtTable := rfl
@[simp] theorem State.updChan_mem (s : State) (c ch : Nat) (f : Chan → Chan) : (s.updChan c ch f).mem = s.mem := rfl
@[simp] theorem State.updChan_host (s : State) (c ch : Nat) (f : Chan → Chan) : (s.updChan c ch f).host = s.host := rfl
@[simp] theorem State.updChan_poolDev (s : State) (c ch : Nat) (f : Chan → Chan) : (s.updChan c ch f).poolDev = s.poolDev := rfl
@[simp] theorem State.updChan_poolLines (s : State) (c ch : Nat) (f : Chan → Chan) : (s.updChan c ch f).poolLines = s.poolLines := rfl
@[simp] theorem State.updChan_regions (s : State) (c ch : Nat) (f : Chan → Chan) : (s.updChan c ch f).regions = s.regions := rfl
@[simp] theorem State.updChan_spaces (s : State) (c ch : Nat) (f : Chan → Chan) : (s.updChan c ch f).spaces = s.spaces := rfl
@[simp] theorem State.updChan_poison (s : State) (c ch : Nat) (f : Chan → Chan) : (s.updChan c ch f).poison = s.poison := rfl
@[simp] theorem State.updChan_late (s : State) (c ch : Nat) (f : Chan → Chan) : (s.updChan c ch f).late = s.late := rfl
@[simp] theorem State.updChan_queue (s : State) (c ch : Nat) (f : Chan → Chan) : (s.updChan c ch f).queue = s.queue := rfl
@[simp] theorem State.updChan_releases (s : State) (c ch : Nat) (f : Chan → Chan) : (s.updChan c ch f).releases = s.releases := rfl
@[simp] theorem State.updChan_wrote (s : State) (c ch : Nat) (f : Chan → Chan) : (s.updChan c ch f).wrote = s.wrote := rfl
@[simp] theorem State.updChan_parts (s : State) (c ch : Nat) (f : Chan → Chan) : (s.updChan c ch f).parts = s.parts := rfl
@[simp] theorem State.updChan_pages (s : State) (c ch : Nat) (f : Chan → Chan) : (s.updChan c ch f).pages = s.pages := rfl
@[simp] theorem State.updChan_launches (s : State) (c ch : Nat) (f : Chan → Chan) : (s.updChan c ch f).launches = s.launches := rfl
@[simp] theorem State.updChan_cmds (s : State) (c ch : Nat) (f : Chan → Chan) : (s.updChan c ch f).cmds = s.cmds := rfl
@[simp] theorem State.updChan_images (s : State) (c ch : Nat) (f : Chan → Chan) : (s.updChan c ch f).images = s.images := rfl

/-! ### updLaunch -/

@[simp] theorem State.updLaunch_cur (s : State) (p : Nat) (id : W32) (f : Launch → Launch) : (s.updLaunch p id f).cur = s.cur := rfl
@[simp] theorem State.updLaunch_agenda (s : State) (p : Nat) (id : W32) (f : Launch → Launch) : (s.updLaunch p id f).agenda = s.agenda := rfl
@[simp] theorem State.updLaunch_freeCtr (s : State) (p : Nat) (id : W32) (f : Launch → Launch) : (s.updLaunch p id f).freeCtr = s.freeCtr := rfl
@[simp] theorem State.updLaunch_stamp (s : State) (p : Nat) (id : W32) (f : Launch → Launch) : (s.updLaunch p id f).stamp = s.stamp := rfl
@[simp] theorem State.updLaunch_devTime (s : State) (p : Nat) (id : W32) (f : Launch → Launch) : (s.updLaunch p id f).devTime = s.devTime := rfl
@[simp] theorem State.updLaunch_coreClock (s : State) (p : Nat) (id : W32) (f : Launch → Launch) : (s.updLaunch p id f).coreClock = s.coreClock := rfl
@[simp] theorem State.updLaunch_throttledNs (s : State) (p : Nat) (id : W32) (f : Launch → Launch) : (s.updLaunch p id f).throttledNs = s.throttledNs := rfl
@[simp] theorem State.updLaunch_part (s : State) (p : Nat) (id : W32) (f : Launch → Launch) : (s.updLaunch p id f).part = s.part := rfl
@[simp] theorem State.updLaunch_powerLimit (s : State) (p : Nat) (id : W32) (f : Launch → Launch) : (s.updLaunch p id f).powerLimit = s.powerLimit := rfl
@[simp] theorem State.updLaunch_meanAbove (s : State) (p : Nat) (id : W32) (f : Launch → Launch) : (s.updLaunch p id f).meanAbove = s.meanAbove := rfl
@[simp] theorem State.updLaunch_meanBelow (s : State) (p : Nat) (id : W32) (f : Launch → Launch) : (s.updLaunch p id f).meanBelow = s.meanBelow := rfl
@[simp] theorem State.updLaunch_limitSet (s : State) (p : Nat) (id : W32) (f : Launch → Launch) : (s.updLaunch p id f).limitSet = s.limitSet := rfl
@[simp] theorem State.updLaunch_stopped (s : State) (p : Nat) (id : W32) (f : Launch → Launch) : (s.updLaunch p id f).stopped = s.stopped := rfl
@[simp] theorem State.updLaunch_temps (s : State) (p : Nat) (id : W32) (f : Launch → Launch) : (s.updLaunch p id f).temps = s.temps := rfl
@[simp] theorem State.updLaunch_boot (s : State) (p : Nat) (id : W32) (f : Launch → Launch) : (s.updLaunch p id f).boot = s.boot := rfl
@[simp] theorem State.updLaunch_sbe (s : State) (p : Nat) (id : W32) (f : Launch → Launch) : (s.updLaunch p id f).sbe = s.sbe := rfl
@[simp] theorem State.updLaunch_ports (s : State) (p : Nat) (id : W32) (f : Launch → Launch) : (s.updLaunch p id f).ports = s.ports := rfl
@[simp] theorem State.updLaunch_irqs (s : State) (p : Nat) (id : W32) (f : Launch → Launch) : (s.updLaunch p id f).irqs = s.irqs := rfl
@[simp] theorem State.updLaunch_mgmtTable (s : State) (p : Nat) (id : W32) (f : Launch → Launch) : (s.updLaunch p id f).mgmtTable = s.mgmtTable := rfl
@[simp] theorem State.updLaunch_mem (s : State) (p : Nat) (id : W32) (f : Launch → Launch) : (s.updLaunch p id f).mem = s.mem := rfl
@[simp] theorem State.updLaunch_host (s : State) (p : Nat) (id : W32) (f : Launch → Launch) : (s.updLaunch p id f).host = s.host := rfl
@[simp] theorem State.updLaunch_poolDev (s : State) (p : Nat) (id : W32) (f : Launch → Launch) : (s.updLaunch p id f).poolDev = s.poolDev := rfl
@[simp] theorem State.updLaunch_poolLines (s : State) (p : Nat) (id : W32) (f : Launch → Launch) : (s.updLaunch p id f).poolLines = s.poolLines := rfl
@[simp] theorem State.updLaunch_regions (s : State) (p : Nat) (id : W32) (f : Launch → Launch) : (s.updLaunch p id f).regions = s.regions := rfl
@[simp] theorem State.updLaunch_spaces (s : State) (p : Nat) (id : W32) (f : Launch → Launch) : (s.updLaunch p id f).spaces = s.spaces := rfl
@[simp] theorem State.updLaunch_poison (s : State) (p : Nat) (id : W32) (f : Launch → Launch) : (s.updLaunch p id f).poison = s.poison := rfl
@[simp] theorem State.updLaunch_late (s : State) (p : Nat) (id : W32) (f : Launch → Launch) : (s.updLaunch p id f).late = s.late := rfl
@[simp] theorem State.updLaunch_queue (s : State) (p : Nat) (id : W32) (f : Launch → Launch) : (s.updLaunch p id f).queue = s.queue := rfl
@[simp] theorem State.updLaunch_releases (s : State) (p : Nat) (id : W32) (f : Launch → Launch) : (s.updLaunch p id f).releases = s.releases := rfl
@[simp] theorem State.updLaunch_wrote (s : State) (p : Nat) (id : W32) (f : Launch → Launch) : (s.updLaunch p id f).wrote = s.wrote := rfl
@[simp] theorem State.updLaunch_parts (s : State) (p : Nat) (id : W32) (f : Launch → Launch) : (s.updLaunch p id f).parts = s.parts := rfl
@[simp] theorem State.updLaunch_pages (s : State) (p : Nat) (id : W32) (f : Launch → Launch) : (s.updLaunch p id f).pages = s.pages := rfl
@[simp] theorem State.updLaunch_cmds (s : State) (p : Nat) (id : W32) (f : Launch → Launch) : (s.updLaunch p id f).cmds = s.cmds := rfl
@[simp] theorem State.updLaunch_images (s : State) (p : Nat) (id : W32) (f : Launch → Launch) : (s.updLaunch p id f).images = s.images := rfl
@[simp] theorem State.updLaunch_cores (s : State) (p : Nat) (id : W32) (f : Launch → Launch) : (s.updLaunch p id f).cores = s.cores := rfl
/-! ### What the updates write -/

theorem State.core_setCore_self (s : State) (c : Nat) (k : Core) (h : c < s.cores.length) : (s.setCore c k).core c = k := by
  simp [State.core, State.setCore, h]

theorem State.core_setCore_other (s : State) (c d : Nat) (k : Core) (h : d ≠ c) : (s.setCore c k).core d = s.core d := by
  simp [State.core, State.setCore, List.getD, List.getElem?_set_ne h.symm]

theorem State.setCore_out (s : State) (c : Nat) (k : Core) (h : ¬ c < s.cores.length) : s.setCore c k = s := by
  simp [State.setCore, List.set_eq_of_length_le (Nat.le_of_not_lt h)]

theorem State.ctx_setCtx_self (s : State) (c k : Nat) (x : Ctx) (hc : c < s.cores.length) (hk : k < (s.core c).ctxs.length) :
    (s.setCtx c k x).ctx c k = x := by
  simp [State.ctx, State.setCtx, State.updCore, State.core_setCore_self _ _ _ hc, List.getD, hk]

/-- A context write leaves every other context alone. -/
theorem State.ctx_setCtx_other (s : State) (c k d j : Nat) (x : Ctx) (h : ¬ (d = c ∧ j = k)) :
    (s.setCtx c k x).ctx d j = s.ctx d j := by
  by_cases hd : d = c
  · subst hd
    have hj : k ≠ j := fun e => h ⟨rfl, e.symm⟩
    by_cases hc : d < s.cores.length
    · simp [State.ctx, State.setCtx, State.updCore, State.core_setCore_self _ _ _ hc, List.getD, List.getElem?_set_ne hj]
    · rw [State.setCtx, State.updCore, State.setCore_out _ _ _ hc]
  · simp [State.ctx, State.setCtx, State.updCore, State.core_setCore_other _ _ _ _ hd]

/-- What a resident acting context says: the core is a position of the part and the context one of its contexts. -/
theorem State.me?_some {s : State} {x : Ctx} (h : s.me? = some x) :
    s.cur.core < s.cores.length ∧ (s.core s.cur.core).ctxs[s.cur.ctx]? = some x ∧ x.resident = true := by
  unfold State.me? at h
  split at h
  · rename_i y hy
    split at h
    · rename_i hr
      cases h
      refine ⟨?_, hy, hr⟩
      by_contra hn
      have hi : s.core s.cur.core = Core.idle := by
        simp [State.core, List.getD, List.getElem?_eq_none (Nat.le_of_not_lt hn)]
      rw [hi] at hy
      have hall : ∀ z ∈ Core.idle.ctxs, z.resident = false := by decide
      have := hall _ (List.mem_of_getElem? hy)
      simp [hr] at this
    · cases h
  · cases h

theorem State.ctx_of_me? {s : State} {x : Ctx} (h : s.me? = some x) : s.ctx s.cur.core s.cur.ctx = x := by
  have := (State.me?_some h).2.1
  simp [State.ctx, List.getD, this]

/-- The acting context after a write of it. -/
theorem State.ctx_setMe {s : State} {x : Ctx} (h : s.me? = some x) (y : Ctx) : (s.setMe y).ctx s.cur.core s.cur.ctx = y := by
  obtain ⟨hc, hk, -⟩ := State.me?_some h
  exact State.ctx_setCtx_self _ _ _ _ hc (by
    have := List.getElem?_eq_some_iff.mp hk
    exact this.1)

/-- A write of the acting context leaves every core's scratchpad alone. -/
theorem State.scr_setMe (s : State) (x : Ctx) (c : Nat) : ((s.setMe x).core c).scr = (s.core c).scr := by
  by_cases h : c = s.cur.core
  · subst h
    by_cases hc : s.cur.core < s.cores.length
    · simp [State.setMe, State.setCtx, State.updCore, State.core_setCore_self _ _ _ hc]
    · rw [State.setMe, State.setCtx, State.updCore, State.setCore_out _ _ _ hc]
  · simp [State.setMe, State.setCtx, State.updCore, State.core_setCore_other _ _ _ _ h]

/-- A byte reads alike in states that agree on the memories, the pool and the part. -/
theorem readByte_congr {s t : State} (a : Nat) (hp : t.part = s.part) (hm : t.mem = s.mem) (hh : t.host = s.host)
    (hd : t.poolDev = s.poolDev) (hl : t.poolLines = s.poolLines) : readByte t a = readByte s a := by
  unfold readByte tierOf poolReadByte State.poolLine stierBytes
  rw [hp, hm, hh, hd, hl]

theorem readByte_setMe (s : State) (x : Ctx) (a : Nat) : readByte (s.setMe x) a = readByte s a :=
  readByte_congr a rfl rfl rfl rfl rfl

end Sys2Proof.Machine
end

