-- ==== Sys2Proof/Laws/Control.lean ====
section
/-! SUPPORT. The shared operations of the control stream: one lemma for each of them that says what it answers. -/

namespace Sys2Proof.Machine

/-! ### Register writes -/

@[simp] theorem Ctx.wr_resident (x : Ctx) (d : BitVec 5) (v : W64) (t : Bool) : (x.wr d v t).resident = x.resident := by
  unfold Ctx.wr; split <;> rfl
@[simp] theorem Ctx.wr_part (x : Ctx) (d : BitVec 5) (v : W64) (t : Bool) : (x.wr d v t).part = x.part := by
  unfold Ctx.wr; split <;> rfl
@[simp] theorem Ctx.wr_launch (x : Ctx) (d : BitVec 5) (v : W64) (t : Bool) : (x.wr d v t).launch = x.launch := by
  unfold Ctx.wr; split <;> rfl
@[simp] theorem Ctx.wr_cluster (x : Ctx) (d : BitVec 5) (v : W64) (t : Bool) : (x.wr d v t).cluster = x.cluster := by
  unfold Ctx.wr; split <;> rfl
@[simp] theorem Ctx.wr_team (x : Ctx) (d : BitVec 5) (v : W64) (t : Bool) : (x.wr d v t).team = x.team := by
  unfold Ctx.wr; split <;> rfl
@[simp] theorem Ctx.wr_child (x : Ctx) (d : BitVec 5) (v : W64) (t : Bool) : (x.wr d v t).child = x.child := by
  unfold Ctx.wr; split <;> rfl
@[simp] theorem Ctx.wr_base (x : Ctx) (d : BitVec 5) (v : W64) (t : Bool) : (x.wr d v t).base = x.base := by
  unfold Ctx.wr; split <;> rfl
@[simp] theorem Ctx.wr_n (x : Ctx) (d : BitVec 5) (v : W64) (t : Bool) : (x.wr d v t).n = x.n := by
  unfold Ctx.wr; split <;> rfl
@[simp] theorem Ctx.wr_q (x : Ctx) (d : BitVec 5) (v : W64) (t : Bool) : (x.wr d v t).q = x.q := by
  unfold Ctx.wr; split <;> rfl
@[simp] theorem Ctx.wr_debug (x : Ctx) (d : BitVec 5) (v : W64) (t : Bool) : (x.wr d v t).debug = x.debug := by
  unfold Ctx.wr; split <;> rfl
@[simp] theorem Ctx.wr_pc (x : Ctx) (d : BitVec 5) (v : W64) (t : Bool) : (x.wr d v t).pc = x.pc := by
  unfold Ctx.wr; split <;> rfl
@[simp] theorem Ctx.wr_strm (x : Ctx) (d : BitVec 5) (v : W64) (t : Bool) : (x.wr d v t).strm = x.strm := by
  unfold Ctx.wr; split <;> rfl
@[simp] theorem Ctx.wr_trigger (x : Ctx) (d : BitVec 5) (v : W64) (t : Bool) : (x.wr d v t).trigger = x.trigger := by
  unfold Ctx.wr; split <;> rfl
@[simp] theorem Ctx.wr_mode (x : Ctx) (d : BitVec 5) (v : W64) (t : Bool) : (x.wr d v t).mode = x.mode := by
  unfold Ctx.wr; split <;> rfl
@[simp] theorem Ctx.wr_trapVec (x : Ctx) (d : BitVec 5) (v : W64) (t : Bool) : (x.wr d v t).trapVec = x.trapVec := by
  unfold Ctx.wr; split <;> rfl
@[simp] theorem Ctx.wr_saveVec (x : Ctx) (d : BitVec 5) (v : W64) (t : Bool) : (x.wr d v t).saveVec = x.saveVec := by
  unfold Ctx.wr; split <;> rfl
@[simp] theorem Ctx.wr_restVec (x : Ctx) (d : BitVec 5) (v : W64) (t : Bool) : (x.wr d v t).restVec = x.restVec := by
  unfold Ctx.wr; split <;> rfl
@[simp] theorem Ctx.wr_cause (x : Ctx) (d : BitVec 5) (v : W64) (t : Bool) : (x.wr d v t).cause = x.cause := by
  unfold Ctx.wr; split <;> rfl
@[simp] theorem Ctx.wr_epc (x : Ctx) (d : BitVec 5) (v : W64) (t : Bool) : (x.wr d v t).epc = x.epc := by
  unfold Ctx.wr; split <;> rfl
@[simp] theorem Ctx.wr_faddr (x : Ctx) (d : BitVec 5) (v : W64) (t : Bool) : (x.wr d v t).faddr = x.faddr := by
  unfold Ctx.wr; split <;> rfl
@[simp] theorem Ctx.wr_fmask (x : Ctx) (d : BitVec 5) (v : W64) (t : Bool) : (x.wr d v t).fmask = x.fmask := by
  unfold Ctx.wr; split <;> rfl
@[simp] theorem Ctx.wr_finfo (x : Ctx) (d : BitVec 5) (v : W64) (t : Bool) : (x.wr d v t).finfo = x.finfo := by
  unfold Ctx.wr; split <;> rfl
@[simp] theorem Ctx.wr_fridx (x : Ctx) (d : BitVec 5) (v : W64) (t : Bool) : (x.wr d v t).fridx = x.fridx := by
  unfold Ctx.wr; split <;> rfl
@[simp] theorem Ctx.wr_resumeR (x : Ctx) (d : BitVec 5) (v : W64) (t : Bool) : (x.wr d v t).resumeR = x.resumeR := by
  unfold Ctx.wr; split <;> rfl
@[simp] theorem Ctx.wr_ks (x : Ctx) (d : BitVec 5) (v : W64) (t : Bool) : (x.wr d v t).ks = x.ks := by
  unfold Ctx.wr; split <;> rfl
@[simp] theorem Ctx.wr_wait (x : Ctx) (d : BitVec 5) (v : W64) (t : Bool) : (x.wr d v t).wait = x.wait := by
  unfold Ctx.wr; split <;> rfl
@[simp] theorem Ctx.wr_recent (x : Ctx) (d : BitVec 5) (v : W64) (t : Bool) : (x.wr d v t).recent = x.recent := by
  unfold Ctx.wr; split <;> rfl
@[simp] theorem Ctx.wr_passed (x : Ctx) (d : BitVec 5) (v : W64) (t : Bool) : (x.wr d v t).passed = x.passed := by
  unfold Ctx.wr; split <;> rfl
@[simp] theorem Ctx.wr_tlbWait (x : Ctx) (d : BitVec 5) (v : W64) (t : Bool) : (x.wr d v t).tlbWait = x.tlbWait := by
  unfold Ctx.wr; split <;> rfl
@[simp] theorem Ctx.wr_trig (x : Ctx) (d : BitVec 5) (v : W64) (t : Bool) : (x.wr d v t).trig = x.trig := by
  unfold Ctx.wr; split <;> rfl
@[simp] theorem Ctx.wr_held (x : Ctx) (d : BitVec 5) (v : W64) (t : Bool) : (x.wr d v t).held = x.held := by
  unfold Ctx.wr; split <;> rfl
@[simp] theorem Ctx.wr_pendPreempt (x : Ctx) (d : BitVec 5) (v : W64) (t : Bool) : (x.wr d v t).pendPreempt = x.pendPreempt := by
  unfold Ctx.wr; split <;> rfl
@[simp] theorem Ctx.wr_frozen (x : Ctx) (d : BitVec 5) (v : W64) (t : Bool) : (x.wr d v t).frozen = x.frozen := by
  unfold Ctx.wr; split <;> rfl
@[simp] theorem Ctx.wr_groups (x : Ctx) (d : BitVec 5) (v : W64) (t : Bool) : (x.wr d v t).groups = x.groups := by
  unfold Ctx.wr; split <;> rfl

theorem Ctx.wr_zero (x : Ctx) (v : W64) (t : Bool) : x.wr 0 v t = x := by simp [Ctx.wr]

theorem Ctx.step1_wr (x : Ctx) (d : BitVec 5) (v : W64) (t : Bool) :
    (x.wr d v t).step1 = { x.wr d v t with pc := x.pc + 1, wait := none, recent := none } := by simp [Ctx.step1, Ctx.jump]

/-- A bit of `putBit`. -/
theorem getLsbD_putBit {n : Nat} (w : BitVec n) (i j : Nat) (b : Bool) (hi : i < n) :
    (putBit w i b).getLsbD j = if j = i then b else w.getLsbD j := by
  have hp : (BitVec.ofNat n (2 ^ i)).getLsbD j = decide (j = i) := by
    rw [BitVec.getLsbD_ofNat, Nat.testBit_two_pow]
    by_cases h : j = i
    · subst h; simp [hi]
    · simp [h, Ne.symm h]
  unfold putBit
  cases b
  · simp only [Bool.false_eq_true, if_false, BitVec.getLsbD_and, BitVec.getLsbD_not, hp]
    by_cases h : j = i
    · subst h; simp
    · simp only [h, decide_false, Bool.not_false, Bool.and_true, if_false]
      by_cases hj : j < n
      · simp [hj]
      · simp [hj, BitVec.getLsbD_of_ge _ _ (Nat.le_of_not_lt hj)]
  · simp only [if_true, BitVec.getLsbD_or, hp]
    by_cases h : j = i
    · simp [h]
    · simp [h]

theorem Ctx.rd_wr_other (x : Ctx) {d r : BitVec 5} (v : W64) (t : Bool) (h : r ≠ d) : (x.wr d v t).rd r = x.rd r := by
  have hn : d.toNat ≠ r.toNat := fun e => h (BitVec.eq_of_toNat_eq e.symm)
  by_cases hd : d = 0#5
  · simp [Ctx.wr, hd]
  · simp [Ctx.wr, hd, Ctx.rd, List.getD, List.getElem?_set_ne hn]

theorem Ctx.taint_wr_other (x : Ctx) {d r : BitVec 5} (v : W64) (t : Bool) (h : r ≠ d) : (x.wr d v t).taint r = x.taint r := by
  have hn : r.toNat ≠ d.toNat := fun e => h (BitVec.eq_of_toNat_eq e)
  by_cases hd : d = 0#5
  · simp [Ctx.wr, hd]
  · simp [Ctx.wr, hd, Ctx.taint, getLsbD_putBit _ _ _ _ d.isLt, hn]

theorem Ctx.poison_wr_other (x : Ctx) {d r : BitVec 5} (v : W64) (t : Bool) (h : r ≠ d) : (x.wr d v t).poison r = x.poison r := by
  have hn : d.toNat ≠ r.toNat := fun e => h (BitVec.eq_of_toNat_eq e.symm)
  by_cases hd : d = 0#5
  · simp [Ctx.wr, hd]
  · simp [Ctx.wr, hd, Ctx.poison, List.getD, List.getElem?_set_ne hn]

/-! ### Meanings that read registers -/

theorem onCtx_some {s : State} {x : Ctx} (f : Ctx → State) (h : s.me? = some x) : onCtx s f = .next (f x) := by
  simp [onCtx, h]

/-- With every register it reads clean of poison, a meaning has its effect. -/
theorem reading_clean {s : State} {x : Ctx} {rs : List (BitVec 5)} (f : Ctx → State) (h : s.me? = some x)
    (hp : ∀ r ∈ rs, x.poison r = none) : reading s rs f = .next (f x) := by
  have hn : rs.findSome? x.poison = none := by simpa [List.findSome?_eq_none_iff] using hp
  simp [reading, onCtx, h, hn]

theorem readingM_clean {s : State} {x : Ctx} {rs : List (BitVec 5)} {ms : List (BitVec 4)} (f : Ctx → State)
    (h : s.me? = some x) (hp : ∀ r ∈ rs, x.poison r = none) (hm : ∀ m ∈ ms, x.strm.mpoison.getLsbD m.toNat = false) :
    readingM s rs ms f = .next (f x) := by
  have hn : ms.any (fun m => x.strm.mpoison.getLsbD m.toNat) = false := by simpa [List.any_eq_false] using hm
  rw [readingM, reading_clean _ h hp]
  simp [hn]

/-- A poisoned register it reads gives the meaning's cause instead (10 R300). -/
theorem reading_poisoned {s : State} {x : Ctx} {rs : List (BitVec 5)} {c : Nat} (f : Ctx → State) (h : s.me? = some x)
    (hp : rs.findSome? x.poison = some c) : reading s rs f = .next (ctrlTrap s c true x.pc 0 0 0) := by
  simp [reading, onCtx, h, hp]

/-- A meaning of these shapes goes on exactly where a team acts. -/
theorem onCtx_next {s t : State} {f : Ctx → State} (h : onCtx s f = .next t) : ∃ x, s.me? = some x ∧ t = f x := by
  unfold onCtx at h
  split at h
  · rename_i x hx
    cases h
    exact ⟨x, hx, rfl⟩
  · cases h

/-! ### A trap of an ordinary team -/

/-- A cause taken by a user-mode team with a privileged image and no freeze under way triggers the freeze (10 R274, R278). -/
theorem takeTrap_user {s : State} {c k : Nat} (t : Trig) (hm : (s.ctx c k).mode = .user) (ht : (s.ctx c k).trig = none)
    (hv : (s.ctx c k).trapVec.msb = false) :
    takeTrap s c k t = s.setCtx c k { s.ctx c k with trig := some t, wait := none, tlbWait := [] } := by
  simp [takeTrap, Ctx.priv, hm, ht, hv]

/-- A cause that meets a freeze already triggered changes nothing (10 R278). -/
theorem takeTrap_frozen {s : State} {c k : Nat} (t : Trig) (hm : (s.ctx c k).mode = .user) (ht : (s.ctx c k).trig.isSome) :
    takeTrap s c k t = s := by
  simp [takeTrap, Ctx.priv, hm, ht]

end Sys2Proof.Machine
end

