-- ==== Sys2Proof/Laws/Lane.lean ====
section
/-! SUPPORT. How a lane word issues: one lemma for the shared scheme of single words, and one for its checks. -/

namespace Sys2Proof.Machine

theorem onGroup_some {s : State} {x : Ctx} {g : Group} (f : Env → State) (h : s.grp? = some (x, g)) :
    onGroup s f = .next (f (Env.of s x g)) := by
  simp [onGroup, h]

theorem indexed_map_snd {α : Type} (l : List α) : (indexed l).map (·.2) = l := by
  unfold indexed
  rw [List.map_snd_zip]
  simp

/-- A map over a list with its positions that leaves every element alone. -/
theorem indexed_map_id {α : Type} (l : List α) (f : Nat × α → α) (h : ∀ p ∈ indexed l, f p = p.2) : (indexed l).map f = l := by
  rw [List.map_congr_left h, indexed_map_snd]

theorem mem_indexed {α : Type} {l : List α} {p : Nat × α} (h : p ∈ indexed l) : l[p.1]? = some p.2 := by
  obtain ⟨i, hi⟩ := List.getElem?_of_mem h
  unfold indexed at hi
  rw [List.getElem?_zip_eq_some] at hi
  obtain ⟨h1, h2⟩ := hi
  rw [List.getElem?_range (by
    have := (List.getElem?_eq_some_iff.mp h1).1
    simpa using this)] at h1
  cases h1
  exact h2

theorem Poison.join_lanes (a b : Poison) : (a.join b).lanes = a.lanes ||| b.lanes := by
  unfold Poison.join
  split
  · rename_i h
    simp [h]
  · rfl

/-- Poison of an operand list is the union of its operands' poison. -/
theorem Env.poisons_lanes_zero (e : Env) (os : List Opd) (h : ∀ o ∈ os, (e.poisonOf o).lanes = 0) : (e.poisons os).lanes = 0 := by
  unfold Env.poisons
  suffices ∀ p : Poison, p.lanes = 0 → (os.foldl (fun p o => p.join (e.poisonOf o)) p).lanes = 0 from this _ rfl
  induction os with
  | nil => intro p hp; exact hp
  | cons o r ih =>
    intro p hp
    refine ih (fun o ho => h o (List.mem_cons_of_mem _ ho)) _ ?_
    rw [Poison.join_lanes, hp, h o List.mem_cons_self]
    rfl

/-- The operands of a word meet no outstanding result, no owned window and no poison, nor does any special register hold poison. -/
structure Env.Quiet (e : Env) (en : Entry) : Prop where
  outs : e.uncovered en.ops (fun _ => true) = false
  loops : e.owns en.ops (fun _ => true) = false
  poison : ∀ o ∈ en.ops, o.rd = true → (e.poisonOf o).lanes = 0
  special : ∀ q ∈ e.g.spoison, q = none
  cross : ∀ f, en.reads = some f → (f e).lanes = 0

/-- No special register that such a word reads is poisoned. -/
theorem specialPoison_quiet {e : Env} {en : Entry} (w : LaneWord) (h : e.Quiet en) : specialPoison e w en = none := by
  unfold specialPoison
  rw [List.findSome?_eq_none_iff]
  intro r _
  rw [List.getD_eq_getElem?_getD]
  cases hr : e.g.spoison[r]? with
  | none => rfl
  | some q => exact h.special q (List.mem_of_getElem? hr)

theorem Env.stored_sub (e : Env) (os : List Opd) (vec : Bool) (sel : Opd → Bool) {r : Nat} (h : r ∈ e.stored os vec sel) :
    r ∈ e.stored os vec (fun _ => true) := by
  unfold Env.stored at *
  simp only [List.mem_flatMap, List.mem_filter, Bool.and_eq_true, Bool.and_true] at *
  obtain ⟨o, ⟨h1, h2, -⟩, h3⟩ := h
  exact ⟨o, ⟨h1, h2⟩, h3⟩

theorem Env.uncovered_sub {e : Env} {os : List Opd} (sel : Opd → Bool) (h : e.uncovered os (fun _ => true) = false)
    {v : VarRes} (hv : v ∈ e.g.outs) : v.hits (e.stored os true sel) (e.stored os false sel) = false := by
  unfold Env.uncovered at h
  have h1 := List.any_eq_false.mp h v hv
  rw [Bool.eq_false_iff]
  intro hc
  apply h1
  unfold VarRes.hits at *
  obtain ⟨r, hr, hm⟩ := List.any_eq_true.mp hc
  refine List.any_eq_true.mpr ⟨r, hr, ?_⟩
  split at hm <;> rename_i hg
  · simp only [hg, if_true] at *
    exact List.contains_iff_mem.mpr (e.stored_sub os _ sel (List.contains_iff_mem.mp hm))
  · simp only [hg] at *
    exact List.contains_iff_mem.mpr (e.stored_sub os _ sel (List.contains_iff_mem.mp hm))

theorem Env.owns_sub {e : Env} {os : List Opd} (sel : Opd → Bool) (h : e.owns os (fun _ => true) = false)
    {l : Loop} (hl : l ∈ e.g.loops) : l.hits (e.stored os true sel) = false := by
  unfold Env.owns Group.owned at h
  have h1 := List.any_eq_false.mp h l hl
  rw [Bool.eq_false_iff]
  intro hc
  apply h1
  unfold Loop.hits at *
  obtain ⟨r, hr, hm⟩ := List.any_eq_true.mp hc
  exact List.any_eq_true.mpr ⟨r, hr, List.contains_iff_mem.mpr (e.stored_sub os _ sel (List.contains_iff_mem.mp hm))⟩

theorem Env.uncovered_false {e : Env} {os : List Opd} (sel : Opd → Bool) (h : e.uncovered os (fun _ => true) = false) :
    e.uncovered os sel = false :=
  List.any_eq_false.mpr (fun _ hv => by rw [Env.uncovered_sub sel h hv]; simp)

theorem Env.owns_false {e : Env} {os : List Opd} (sel : Opd → Bool) (h : e.owns os (fun _ => true) = false) :
    e.owns os sel = false :=
  List.any_eq_false.mpr (fun _ hl => by rw [Env.owns_sub sel h hl]; simp)

/-- What an entry's effect keeps of a group where it issues: the outstanding results so far, the loops, and writes that go to
registers its operands name. -/
structure Tidy (e : Env) (en : Entry) (g : Group) (wr : List Pend) : Prop where
  outs : ∃ new, g.outs = e.g.outs ++ new
  loops : g.loops = e.g.loops
  regs : ∀ p ∈ wr, p.kind = .vec → p.reg ∈ e.stored en.ops true (fun _ => true)

/-- The hazard rules leave a quiet word alone. -/
theorem applyHazards_quiet {e : Env} {en : Entry} (w : LaneWord) (s : State) {g : Group} {wr : List Pend} (hj : e.junk = false)
    (hq : e.Quiet en) (ht : Tidy e en g wr) : applyHazards e w en s g wr = (s, g, wr) := by
  unfold applyHazards
  split
  · rfl
  · have hm : markConflicts e w en g = g := by
      obtain ⟨new, hn⟩ := ht.outs
      unfold markConflicts
      dsimp only
      rw [indexed_map_id]
      intro p hp
      split
      · rename_i hc
        simp only [Bool.and_eq_true, decide_eq_true_eq] at hc
        have hg := mem_indexed hp
        rw [hn, List.getElem?_append_left hc.1] at hg
        have := Env.uncovered_sub (·.wr) hq.outs (List.mem_of_getElem? hg)
        simp [this] at hc
      · rfl
    simp only [hj, Bool.false_eq_true, if_false, hm]
    refine Prod.ext rfl (Prod.ext ?_ ?_)
    · dsimp only
      rw [indexed_map_id]
      intro p hp
      split
      · rename_i hc
        simp only [Bool.and_eq_true, decide_eq_true_eq] at hc
        have hg := mem_indexed hp
        rw [ht.loops] at hg
        have := Env.owns_sub (·.wr) hq.loops (List.mem_of_getElem? hg)
        simp [this] at hc
      · rfl
    · dsimp only
      rw [List.filter_eq_self]
      intro p hp
      by_cases hk : p.kind = .vec
      · have hr := ht.regs p hp hk
        have : e.g.owned [p.reg] = false := by
          refine List.any_eq_false.mpr (fun l hl hc => ?_)
          have h1 := Env.owns_sub (fun _ => true) hq.loops hl
          unfold Loop.hits at *
          obtain ⟨r, hr', hm'⟩ := List.any_eq_true.mp hc
          have : r = p.reg := by simpa using hm'
          exact (Bool.eq_false_iff.mp h1) (List.any_eq_true.mpr ⟨r, hr', List.contains_iff_mem.mpr (this ▸ hr)⟩)
        simp [this]
      · simp [hk]

/-- A word whose checks pass and whose operands are quiet issues with its entry's effect. -/
theorem decide4to7_go {e : Env} {w : LaneWord} {en : Entry} {s : State} {g : Group} {wr : List Pend} (hj : e.junk = false)
    (hd : e.x.debug = false) (hc : en.form.clean w = true) (ht : en.form.typed w = true) (hr : regCheck e.x.n e.x.q en.ops = none)
    (hq : e.Quiet en) (hef : en.effect e = .go s g wr) (hti : Tidy e en g wr) :
    decide4to7 e w en = .go s g wr := by
  have hjunk : ({ e with junk := en.acts e w && (e.uncovered en.ops (·.rd) || e.owns en.ops (·.rd)) } : Env) = e := by
    rw [Env.uncovered_false _ hq.outs, Env.owns_false _ hq.loops]
    cases e
    simp_all
  have hdb : debugCause e w en = none := by simp [debugCause, hd]
  have hp : readPoison e w en = none := by
    have : (e.poisons (en.ops.filter (·.rd))).lanes = 0 :=
      Env.poisons_lanes_zero e _ (fun o ho => hq.poison o (List.mem_filter.mp ho).1 (List.mem_filter.mp ho).2)
    have hl : ((en.reads.map (· e)).getD (e.poisons (en.ops.filter (·.rd)))).lanes = 0 := by
      cases hf : en.reads with
      | none => exact this
      | some f => exact hq.cross f hf
    simp [readPoison, hl, specialPoison_quiet w hq]
  unfold decide4to7
  simp only [hc, ht, hr, Bool.not_true, Bool.false_eq_true, if_false, hjunk, hef, hdb, applyHazards_quiet w s hj hq hti,
    spreadSpecial, specialPoison_quiet w hq]
  have hg : (if g.pos.poisonRun.isNone then { g with pos := { g.pos with poisonRun := readPoison e w en } } else g) = g := by
    split
    · rename_i h
      have : g.pos.poisonRun = none := Option.isNone_iff_eq_none.mp h
      rw [hp]
      cases g with
      | mk pos => cases pos; simp_all
    · rfl
  rw [hg]

/-- A single word at a legal place, whose checks pass and whose operands are quiet. -/
theorem laneWord_go {s : State} {x : Ctx} {g : Group} {w : LaneWord} {mustEnd : Bool} {m : Truss} {en : Env → Entry} {s' : State}
    {g' : Group} {wr : List Pend} (h : s.grp? = some (x, g)) (hs : structure1 g w.hdr mustEnd = none)
    (hd : decide4to7 (Env.of s x g) w (en (Env.of s x g)) = .go s' g' wr) :
    laneWord s w mustEnd m en = .next (finishWord (Env.of s x g) w.hdr 1 m (.go s' g' wr)) := by
  have hg : (Env.of s x g).g = g := rfl
  rw [laneWord, onGroup_some _ h]
  simp only [hg, hs, hd]

end Sys2Proof.Machine
end

