-- ==== Sys2Proof/Laws/Mem.lean ====
section
/-! SUPPORT. Bytes: reading after writing on canonical byte lists, and every memory operation keeps the canonical form. -/

namespace Sys2Proof.Machine

theorem Mem.wf_iff (m : Mem) : m.wf = true ↔ (∀ c ∈ m, c.2 ≠ 0) ∧ m.Pairwise (fun x y => x.1 < y.1) := by
  simp [Mem.wf]

@[simp] theorem Mem.get_nil (a : Nat) : Mem.get [] a = 0 := rfl

theorem Mem.get_cons (k a : Nat) (v : Byte) (r : Mem) : Mem.get ((k, v) :: r) a = if k = a then v else Mem.get r a := rfl

/-- An address no entry lists reads zero. -/
theorem Mem.get_unlisted {m : Mem} {a : Nat} (h : ∀ c ∈ m, c.1 ≠ a) : m.get a = 0 := by
  induction m with
  | nil => rfl
  | cons c r ih =>
    obtain ⟨k, v⟩ := c
    rw [Mem.get_cons, if_neg (h (k, v) List.mem_cons_self)]
    exact ih (fun c hc => h c (List.mem_cons_of_mem _ hc))

/-- A write lists no address but its own that was not listed. -/
theorem Mem.mem_set {m : Mem} {a : Nat} {b : Byte} {c : Host.Cell} (h : c ∈ m.set a b) : (c = (a, b) ∧ b ≠ 0) ∨ c ∈ m := by
  induction m with
  | nil =>
    simp only [Mem.set] at h
    split at h
    · simp at h
    · rename_i hb
      simp only [List.mem_singleton] at h
      exact .inl ⟨h, hb⟩
  | cons d r ih =>
    obtain ⟨k, v⟩ := d
    simp only [Mem.set] at h
    split at h
    · split at h
      · exact .inr h
      · rename_i hb
        rcases List.mem_cons.mp h with h | h
        · exact .inl ⟨h, hb⟩
        · exact .inr h
    · split at h
      · split at h
        · exact .inr (List.mem_cons_of_mem _ h)
        · rename_i hb
          rcases List.mem_cons.mp h with h | h
          · exact .inl ⟨h, hb⟩
          · exact .inr (List.mem_cons_of_mem _ h)
      · rcases List.mem_cons.mp h with h | h
        · exact .inr (h ▸ List.mem_cons_self)
        · rcases ih h with h | h
          · exact .inl h
          · exact .inr (List.mem_cons_of_mem _ h)

/-- A byte written is read back, from a list in canonical form. -/
theorem Mem.get_set_same {m : Mem} (a : Nat) (b : Byte) (h : m.wf = true) : (m.set a b).get a = b := by
  rw [Mem.wf_iff] at h
  obtain ⟨-, h⟩ := h
  induction m with
  | nil => simp only [Mem.set]; split <;> simp_all [Mem.get_cons]
  | cons d r ih =>
    obtain ⟨k, v⟩ := d
    rw [List.pairwise_cons] at h
    simp only [Mem.set]
    split
    · rename_i hk
      split
      · rename_i hb
        rw [hb]
        refine Mem.get_unlisted (fun c hc => ?_)
        rcases List.mem_cons.mp hc with rfl | hc
        · exact Nat.ne_of_gt hk
        · exact Nat.ne_of_gt (Nat.lt_trans hk (h.1 c hc))
      · simp [Mem.get_cons]
    · split
      · rename_i hk
        split
        · rename_i hb
          rw [hb]
          exact Mem.get_unlisted (fun c hc => Nat.ne_of_gt (hk ▸ h.1 c hc))
        · simp [Mem.get_cons]
      · rename_i hk
        rw [Mem.get_cons, if_neg (fun e => hk e.symm)]
        exact ih h.2

/-- A write changes no other byte. -/
theorem Mem.get_set_other {m : Mem} {a c : Nat} (b : Byte) (h : c ≠ a) : (m.set a b).get c = m.get c := by
  induction m with
  | nil => simp only [Mem.set]; split <;> simp [Mem.get_cons, h.symm]
  | cons d r ih =>
    obtain ⟨k, v⟩ := d
    simp only [Mem.set]
    split
    · split
      · rfl
      · rw [Mem.get_cons, if_neg h.symm]
    · split
      · rename_i hk
        subst hk
        split <;> simp [Mem.get_cons, h.symm]
      · rw [Mem.get_cons, Mem.get_cons, ih]

/-- A write keeps the canonical form. -/
theorem Mem.wf_set {m : Mem} (a : Nat) (b : Byte) (h : m.wf = true) : (m.set a b).wf = true := by
  rw [Mem.wf_iff] at h ⊢
  obtain ⟨hz, hp⟩ := h
  refine ⟨fun c hc => ?_, ?_⟩
  · rcases Mem.mem_set hc with ⟨rfl, hb⟩ | hc
    · exact hb
    · exact hz c hc
  · clear hz
    induction m with
    | nil => simp only [Mem.set]; split <;> simp
    | cons d r ih =>
      obtain ⟨k, v⟩ := d
      rw [List.pairwise_cons] at hp
      simp only [Mem.set]
      split
      · rename_i hk
        split
        · exact List.pairwise_cons.mpr hp
        · refine List.pairwise_cons.mpr ⟨fun c hc => ?_, List.pairwise_cons.mpr hp⟩
          rcases List.mem_cons.mp hc with rfl | hc
          · exact hk
          · exact Nat.lt_trans hk (hp.1 c hc)
      · split
        · rename_i hk
          split
          · exact hp.2
          · exact List.pairwise_cons.mpr ⟨fun c hc => hk ▸ hp.1 c hc, hp.2⟩
        · rename_i h1 h2
          refine List.pairwise_cons.mpr ⟨fun c hc => ?_, ih hp.2⟩
          rcases Mem.mem_set hc with ⟨rfl, -⟩ | hc
          · exact Nat.lt_of_le_of_ne (Nat.le_of_not_lt h1) (fun e => h2 e.symm)
          · exact hp.1 c hc

theorem Mem.wf_writeBytes {m : Mem} (bs : List Byte) (a : Nat) (h : m.wf = true) : (m.writeBytes a bs).wf = true := by
  induction bs generalizing m a with
  | nil => exact h
  | cons b r ih => exact ih _ (Mem.wf_set a b h)

theorem Mem.wf_writeCells {m : Mem} (cs : List (Nat × Byte)) (h : m.wf = true) : (m.writeCells cs).wf = true := by
  induction cs generalizing m with
  | nil => exact h
  | cons c r ih => exact ih (Mem.wf_set c.1 c.2 h)

theorem Mem.wf_filter {m : Mem} (p : Host.Cell → Bool) (h : m.wf = true) : Mem.wf (m.filter p) = true := by
  rw [Mem.wf_iff] at h ⊢
  exact ⟨fun c hc => h.1 c (List.mem_of_mem_filter hc), h.2.filter p⟩

theorem checkInLine_wf {dev : Mem} (l : PoolLine) (h : dev.wf = true) : (checkInLine dev l).wf = true := by
  unfold checkInLine
  split
  · exact Mem.wf_writeCells _ h
  · split
    · exact Mem.wf_writeBytes _ _ h
    · exact h

/-- The canonical form as a conjunction. -/
theorem Memory.wf_iff (s : State) :
    Memory.wf s = true ↔ s.mem.wf = true ∧ s.host.wf = true ∧ s.poolDev.wf = true ∧ ∀ k ∈ s.cores, k.scr.wf = true := by
  simp [Memory.wf, and_assoc]

theorem Memory.wf_writeByte {s : State} (a : Nat) (b : Byte) (h : Memory.wf s = true) : Memory.wf (writeByte s a b) = true := by
  rw [Memory.wf_iff] at *
  obtain ⟨h1, h2, h3, h4⟩ := h
  unfold writeByte poolWriteByte
  split
  · exact ⟨Mem.wf_set _ _ h1, h2, h3, h4⟩
  · exact ⟨Mem.wf_set _ _ h1, h2, h3, h4⟩
  · exact ⟨h1, h2, h3, h4⟩
  · exact ⟨h1, Mem.wf_set _ _ h2, h3, h4⟩
  · exact ⟨h1, h2, h3, h4⟩

theorem Memory.wf_writePhys {s : State} (bs : List Byte) (a : Nat) (h : Memory.wf s = true) :
    Memory.wf (writePhys s a bs) = true := by
  induction bs generalizing s a with
  | nil => exact h
  | cons b r ih => exact ih _ (Memory.wf_writeByte a b h)

theorem Memory.wf_checkInWhere {s : State} (p : PoolLine → Bool) (h : Memory.wf s = true) :
    Memory.wf (checkInWhere s p) = true := by
  rw [Memory.wf_iff] at *
  refine ⟨h.1, h.2.1, ?_, h.2.2.2⟩
  change ((s.poolLines.filter p).foldl checkInLine s.poolDev).wf = true
  induction s.poolLines.filter p generalizing s with
  | nil => exact h.2.2.1
  | cons l r ih =>
    exact ih (s := { s with poolDev := checkInLine s.poolDev l }) ⟨h.1, h.2.1, checkInLine_wf l h.2.2.1, h.2.2.2⟩

theorem Memory.wf_setPoison {s : State} (sc : Option Nat) (a n : Nat) (c : Option Nat) (h : Memory.wf s = true) :
    Memory.wf (setPoison s sc a n c) = true := by
  unfold setPoison
  cases c <;> simp only <;> [split; skip] <;> exact h

/-- A change of one core keeps the canonical form if the core's scratchpad keeps it. -/
theorem Memory.wf_updCore {s : State} (c : Nat) (f : Core → Core) (hf : (s.core c).scr.wf = true → (f (s.core c)).scr.wf = true)
    (h : Memory.wf s = true) : Memory.wf (s.updCore c f) = true := by
  rw [Memory.wf_iff] at *
  refine ⟨h.1, h.2.1, h.2.2.1, fun k hk => ?_⟩
  rcases List.mem_or_eq_of_mem_set hk with hk | rfl
  · exact h.2.2.2 k hk
  · refine hf ?_
    unfold State.core
    rw [List.getD_eq_getElem?_getD]
    cases hc : s.cores[c]? with
    | none => rfl
    | some k => exact h.2.2.2 k (List.mem_of_getElem? hc)

theorem Memory.wf_writeScr {s : State} (c : Nat) (cells : List (Nat × Byte)) (poison : Option Nat) (h : Memory.wf s = true) :
    Memory.wf (writeScr s c cells poison) = true := by
  unfold writeScr
  generalize hs : s.updCore c (fun k => { k with scr := k.scr.writeCells cells }) = t
  have ht : Memory.wf t = true := hs ▸ Memory.wf_updCore c _ (Mem.wf_writeCells cells) h
  clear hs
  induction cells generalizing t with
  | nil => exact ht
  | cons b r ih => exact ih _ (Memory.wf_setPoison _ _ _ _ ht)

theorem clearLines_wf {k : Core} (lines : List Nat) (h : k.scr.wf = true) : (clearLines k lines).scr.wf = true :=
  Mem.wf_filter _ h

theorem Memory.wf_markSpill {s : State} (pa n : Nat) (h : Memory.wf s = true) : Memory.wf (markSpill s pa n) = true := by
  unfold markSpill
  generalize hl : spillHit s pa n = ls
  clear hl
  suffices H : ∀ (ls : List Launch) (t : State), Memory.wf t = true →
      Memory.wf (ls.foldl (fun s l => s.updLaunch l.part l.id (fun l => { l with
        spilled := l.spilled.map (fun r => if s.choice 1 r.slot then { r with overwritten := true } else r) })) t) = true from H ls s h
  intro ls
  induction ls with
  | nil => exact fun t ht => ht
  | cons l r ih => exact fun t ht => ih _ ht

theorem Memory.wf_keepCode {s : State} (pa n : Nat) (h : Memory.wf s = true) : Memory.wf (keepCode s pa n) = true := by
  unfold keepCode
  dsimp only
  split <;> split <;> exact h

theorem Memory.wf_putBytes {s : State} (pa : Nat) (bs : List Byte) (p : Option Nat) (h : Memory.wf s = true) :
    Memory.wf (putBytes s pa bs p) = true :=
  Memory.wf_setPoison _ _ _ _ (Memory.wf_markSpill _ _ (Memory.wf_writePhys _ _ (Memory.wf_keepCode _ _ h)))

/-! ### Queued stores, and the writes not everyone sees -/

/-- Orders and views touch what is remembered of earlier writes only. -/
theorem forgetLate_eq (s : State) (sc : Option Nat) (p : Nat → Bool) :
    forgetLate s sc p = { s with late := (forgetLate s sc p).late } := by
  unfold forgetLate
  split <;> rfl

theorem acquireWhere_eq (s : State) (p : Late → Bool) (vs : List View) :
    acquireWhere s p vs = { s with late := (acquireWhere s p vs).late } := by
  unfold acquireWhere
  split <;> rfl

/-- An acquire leaves everything but what the events come before. -/
theorem acquire_eq (s : State) (c : Nat) (p : Release → Bool) (vs : List View) :
    acquire s c p vs = { s with late := (acquire s c p vs).late } := acquireWhere_eq _ _ _

theorem refresh_eq (s : State) (w : Bool) (vs : List View) : refresh s w vs = { s with late := (refresh s w vs).late } := by
  unfold refresh
  split
  · exact acquireWhere_eq _ _ _
  · rfl

/-- A read leaves everything but what it notes. -/
theorem noteRead_eq (s : State) (o : Agent) (t : Nat) (sc : Option Nat) (as_ : List Nat) :
    noteRead s o t sc as_ = { s with late := (noteRead s o t sc as_).late } := by
  unfold noteRead
  split <;> rfl

theorem forgetLate_nil {s : State} (sc : Option Nat) (p : Nat → Bool) (h : s.late = []) : forgetLate s sc p = s := by
  simp [forgetLate, h]

theorem acquireWhere_nil {s : State} (p : Late → Bool) (vs : List View) (h : s.late = []) : acquireWhere s p vs = s := by
  simp [acquireWhere, h]

theorem noteRead_nil {s : State} (o : Agent) (t : Nat) (sc : Option Nat) (as_ : List Nat) (h : s.late = []) :
    noteRead s o t sc as_ = s := by
  simp [noteRead, h]

theorem flushWhere_nil {s : State} (p : Store → Bool) (h : s.queue = []) : flushWhere s p = s := by
  simp [flushWhere, h]

/-- What every agent sees where no store is queued and no write is remembered. -/
theorem seenByte_nil {s : State} (o : Agent) (sc : Option Nat) (a : Nat) (hq : s.queue = []) (hl : s.late = []) :
    seenByte s o sc a = byteAt s sc a := by
  simp [seenByte, queuedAt, hiddenAt, seenBy, hq, hl]

theorem Memory.wf_forgetLate {s : State} (sc : Option Nat) (p : Nat → Bool) (h : Memory.wf s = true) :
    Memory.wf (forgetLate s sc p) = true := by
  rw [forgetLate_eq]
  exact h

/-- A write that takes its place keeps the canonical form. -/
theorem Memory.wf_performWrite {s : State} (a : Agent) (o : Nat) (rmw : Bool) (b : List Since) (sc : Option Nat)
    (cells : List (Nat × Byte)) (p : Option Nat) (h : Memory.wf s = true) : Memory.wf (performWrite s a o rmw b sc cells p) = true := by
  unfold performWrite
  dsimp only
  split
  · split
    · exact Memory.wf_writeScr _ _ _ h
    · exact Memory.wf_putBytes _ _ _ h
    · exact h
  · refine (?_ : Memory.wf _ = true)
    have hw : ∀ t : State, Memory.wf t = true → ∀ l, Memory.wf { t with late := l } = true := fun t ht _ => ht
    apply hw
    split
    · exact Memory.wf_writeScr _ _ _ h
    · exact Memory.wf_putBytes _ _ _ h
    · exact h

/-- Stores that leave their queues keep it. -/
theorem Memory.wf_flushWhere {s : State} (p : Store → Bool) (h : Memory.wf s = true) : Memory.wf (flushWhere s p) = true := by
  unfold flushWhere
  split
  · exact h
  · suffices H : ∀ (l : List Store) (t : State), Memory.wf t = true → Memory.wf (l.foldl (fun s q => q.leave s) t) = true from
      H _ _ h
    intro l
    induction l with
    | nil => exact fun t ht => ht
    | cons q r ih => exact fun t ht => ih _ (Memory.wf_performWrite _ _ _ _ _ _ _ ht)

/-- A write of firmware keeps it. -/
theorem Memory.wf_storeBytes {s : State} (pa : Nat) (bs : List Byte) (p : Option Nat) (h : Memory.wf s = true) :
    Memory.wf (storeBytes s pa bs p) = true :=
  Memory.wf_forgetLate _ _ (Memory.wf_putBytes _ _ _ h)

/-- A store that enters a queue changes no storage. -/
theorem Memory.wf_queueStore {s : State} (a : Agent) (sc : Option Nat) (cells : List (Nat × Byte)) (p : Option Nat)
    (h : Memory.wf s = true) : Memory.wf (queueStore s a sc cells p) = true := h

/-- A byte of a transfer keeps it. -/
theorem Memory.wf_landByte {s : State} (t : Xfer) (i : Nat) (places ds : List (Option (Option Nat × Nat))) (p : W64 × W64)
    (h : Memory.wf s = true) : Memory.wf (landByte s t i places ds p) = true := by
  unfold landByte
  split
  · dsimp only
    split
    · exact h
    · refine Memory.wf_performWrite _ _ _ _ _ _ _ ?_
      split
      · rw [noteRead_eq]
        exact h
      · exact h
  · exact h

theorem Memory.wf_hostWrite {s : State} (a : Nat) (bs : List Byte) (h : Memory.wf s = true) :
    Memory.wf (hostWrite s a bs) = true := by
  have k := Memory.wf_keepCode (hostBase + a) bs.length h
  refine Memory.wf_setPoison _ _ _ _ ?_
  rw [Memory.wf_iff] at *
  exact ⟨k.1, Mem.wf_writeBytes _ _ h.2.1, k.2.2⟩

theorem Memory.wf_poolWrite {s : State} (a : Nat) (bs : List Byte) (h : Memory.wf s = true) :
    Memory.wf (poolWrite s a bs) = true := by
  have k := Memory.wf_keepCode a bs.length h
  refine Memory.wf_forgetLate _ _ ?_
  rw [Memory.wf_iff] at *
  exact ⟨k.1, k.2.1, Mem.wf_writeBytes _ _ h.2.2.1, k.2.2.2⟩

/-- Memory lists nothing at reset. -/
theorem Memory.wf_reset : Memory.wf State.reset = true := by
  rw [Memory.wf_iff]
  refine ⟨rfl, rfl, rfl, fun k hk => ?_⟩
  rw [List.eq_of_mem_replicate hk]
  rfl

end Sys2Proof.Machine
end

