-- ==== Sys2Proof/Laws/PerInstr.lean ====
section
/-! SUPPORT. Decoding gives back what was encoded: one lemma for each constructor, over one lemma for each format. -/

namespace Sys2Proof

/-! ### Fields of words put together -/

theorem fld_append_high {m n : Nat} (x : BitVec m) (y : BitVec n) (lo len : Nat) (h : n ≤ lo) :
    fld (x ++ y) lo len = fld x (lo - n) len := by
  ext i hi
  simp [fld, BitVec.getLsbD_append, show ¬ lo + i < n by omega, show lo + i - n = lo - n + i by omega]

theorem fld_append_low {m n : Nat} (x : BitVec m) (y : BitVec n) (lo len : Nat) (h : lo + len ≤ n) :
    fld (x ++ y) lo len = fld y lo len := by
  ext i hi
  simp [fld, BitVec.getLsbD_append, show lo + i < n by omega]

theorem fld_full {n : Nat} (x : BitVec n) : fld x 0 n = x := by
  ext i hi
  simp [fld]

theorem bit_append_high {m n : Nat} (x : BitVec m) (y : BitVec n) (i : Nat) (h : n ≤ i) : bit (x ++ y) i = bit x (i - n) := by
  simp [bit, BitVec.getLsbD_append, Nat.not_lt.mpr h]

theorem bit_append_low {m n : Nat} (x : BitVec m) (y : BitVec n) (i : Nat) (h : i < n) : bit (x ++ y) i = bit y i := by
  simp [bit, BitVec.getLsbD_append, h]

theorem fld_bit {n : Nat} (w : BitVec n) (lo len i : Nat) : (fld w lo len).getLsbD i = (decide (i < len) && bit w (lo + i)) := by
  simp [fld, bit]

theorem bit_b1 (b : Bool) : bit (b1 b) 0 = b := by cases b <;> rfl

theorem ne_zero_of_fld {n lo len : Nat} {w : BitVec n} {v : BitVec len} (h : fld w lo len = v) (hv : v ≠ 0) : w ≠ 0 := by
  rintro rfl
  apply hv
  rw [← h]
  ext i hi
  simp [fld]

/-! ### Control formats (09 R234, R235) -/

theorem cr_op (op : BitVec 6) (d : BitVec 5) (a : BitVec 5) (b : BitVec 5) (f : BitVec 11) :
    fld (n := 32) (op ++ d ++ a ++ b ++ f) 26 6 = op := by
  repeat (first | rw [fld_append_low (h := by decide)] | rw [fld_append_high (h := by decide)])
  exact fld_full _

theorem cr_d (op : BitVec 6) (d : BitVec 5) (a : BitVec 5) (b : BitVec 5) (f : BitVec 11) :
    fld (n := 32) (op ++ d ++ a ++ b ++ f) 21 5 = d := by
  repeat (first | rw [fld_append_low (h := by decide)] | rw [fld_append_high (h := by decide)])
  exact fld_full _

theorem cr_a (op : BitVec 6) (d : BitVec 5) (a : BitVec 5) (b : BitVec 5) (f : BitVec 11) :
    fld (n := 32) (op ++ d ++ a ++ b ++ f) 16 5 = a := by
  repeat (first | rw [fld_append_low (h := by decide)] | rw [fld_append_high (h := by decide)])
  exact fld_full _

theorem cr_b (op : BitVec 6) (d : BitVec 5) (a : BitVec 5) (b : BitVec 5) (f : BitVec 11) :
    fld (n := 32) (op ++ d ++ a ++ b ++ f) 11 5 = b := by
  repeat (first | rw [fld_append_low (h := by decide)] | rw [fld_append_high (h := by decide)])
  exact fld_full _

theorem cr_f0 (op : BitVec 6) (d : BitVec 5) (a : BitVec 5) (b : BitVec 5) (f : BitVec 11) :
    fld (n := 32) (op ++ d ++ a ++ b ++ f) 0 4 = fld f 0 4 := by
  repeat rw [fld_append_low (h := by decide)]

theorem cr_f7 (op : BitVec 6) (d : BitVec 5) (a : BitVec 5) (b : BitVec 5) (f : BitVec 11) :
    fld (n := 32) (op ++ d ++ a ++ b ++ f) 7 4 = fld f 7 4 := by
  repeat rw [fld_append_low (h := by decide)]

theorem cr_f6 (op : BitVec 6) (d : BitVec 5) (a : BitVec 5) (b : BitVec 5) (f : BitVec 11) :
    fld (n := 32) (op ++ d ++ a ++ b ++ f) 6 1 = fld f 6 1 := by
  repeat rw [fld_append_low (h := by decide)]

theorem cr_f65 (op : BitVec 6) (d : BitVec 5) (a : BitVec 5) (b : BitVec 5) (f : BitVec 11) :
    fld (n := 32) (op ++ d ++ a ++ b ++ f) 6 5 = fld f 6 5 := by
  repeat rw [fld_append_low (h := by decide)]

theorem cr_b4 (op : BitVec 6) (d : BitVec 5) (a : BitVec 5) (b : BitVec 5) (f : BitVec 11) :
    bit (n := 32) (op ++ d ++ a ++ b ++ f) 4 = bit f 4 := by
  repeat rw [bit_append_low (h := by decide)]

theorem cr_b5 (op : BitVec 6) (d : BitVec 5) (a : BitVec 5) (b : BitVec 5) (f : BitVec 11) :
    bit (n := 32) (op ++ d ++ a ++ b ++ f) 5 = bit f 5 := by
  repeat rw [bit_append_low (h := by decide)]

theorem cr_b6 (op : BitVec 6) (d : BitVec 5) (a : BitVec 5) (b : BitVec 5) (f : BitVec 11) :
    bit (n := 32) (op ++ d ++ a ++ b ++ f) 6 = bit f 6 := by
  repeat rw [bit_append_low (h := by decide)]

theorem ci_op (op : BitVec 6) (d : BitVec 5) (a : BitVec 5) (i : BitVec 16) :
    fld (n := 32) (op ++ d ++ a ++ i) 26 6 = op := by
  repeat (first | rw [fld_append_low (h := by decide)] | rw [fld_append_high (h := by decide)])
  exact fld_full _

theorem ci_d (op : BitVec 6) (d : BitVec 5) (a : BitVec 5) (i : BitVec 16) :
    fld (n := 32) (op ++ d ++ a ++ i) 21 5 = d := by
  repeat (first | rw [fld_append_low (h := by decide)] | rw [fld_append_high (h := by decide)])
  exact fld_full _

theorem ci_a (op : BitVec 6) (d : BitVec 5) (a : BitVec 5) (i : BitVec 16) :
    fld (n := 32) (op ++ d ++ a ++ i) 16 5 = a := by
  repeat (first | rw [fld_append_low (h := by decide)] | rw [fld_append_high (h := by decide)])
  exact fld_full _

theorem ci_i (op : BitVec 6) (d : BitVec 5) (a : BitVec 5) (i : BitVec 16) :
    fld (n := 32) (op ++ d ++ a ++ i) 0 16 = i := by
  repeat rw [fld_append_low (h := by decide)]
  exact fld_full _

theorem ci_m (op : BitVec 6) (d : BitVec 5) (a : BitVec 5) (i : BitVec 16) :
    fld (n := 32) (op ++ d ++ a ++ i) 21 4 = fld d 0 4 := by
  repeat (first | rw [fld_append_low (h := by decide)] | rw [fld_append_high (h := by decide)])

theorem ci_b25 (op : BitVec 6) (d : BitVec 5) (a : BitVec 5) (i : BitVec 16) :
    bit (n := 32) (op ++ d ++ a ++ i) 25 = bit d 4 := by
  repeat (first | rw [bit_append_low (h := by decide)] | rw [bit_append_high (h := by decide)])

theorem cim_op (op : BitVec 6) (d : BitVec 5) (a : BitVec 5) (sz : BitVec 3) (o : BitVec 13) :
    fld (n := 32) (op ++ d ++ a ++ sz ++ o) 26 6 = op := by
  repeat (first | rw [fld_append_low (h := by decide)] | rw [fld_append_high (h := by decide)])
  exact fld_full _

theorem cim_d (op : BitVec 6) (d : BitVec 5) (a : BitVec 5) (sz : BitVec 3) (o : BitVec 13) :
    fld (n := 32) (op ++ d ++ a ++ sz ++ o) 21 5 = d := by
  repeat (first | rw [fld_append_low (h := by decide)] | rw [fld_append_high (h := by decide)])
  exact fld_full _

theorem cim_a (op : BitVec 6) (d : BitVec 5) (a : BitVec 5) (sz : BitVec 3) (o : BitVec 13) :
    fld (n := 32) (op ++ d ++ a ++ sz ++ o) 16 5 = a := by
  repeat (first | rw [fld_append_low (h := by decide)] | rw [fld_append_high (h := by decide)])
  exact fld_full _

theorem cim_sz (op : BitVec 6) (d : BitVec 5) (a : BitVec 5) (sz : BitVec 3) (o : BitVec 13) :
    fld (n := 32) (op ++ d ++ a ++ sz ++ o) 13 3 = sz := by
  repeat (first | rw [fld_append_low (h := by decide)] | rw [fld_append_high (h := by decide)])
  exact fld_full _

theorem cim_o (op : BitVec 6) (d : BitVec 5) (a : BitVec 5) (sz : BitVec 3) (o : BitVec 13) :
    fld (n := 32) (op ++ d ++ a ++ sz ++ o) 0 13 = o := by
  repeat rw [fld_append_low (h := by decide)]
  exact fld_full _

theorem cj_op (op : BitVec 6) (d : BitVec 5) (o : BitVec 21) :
    fld (n := 32) (op ++ d ++ o) 26 6 = op := by
  repeat (first | rw [fld_append_low (h := by decide)] | rw [fld_append_high (h := by decide)])
  exact fld_full _

theorem cj_d (op : BitVec 6) (d : BitVec 5) (o : BitVec 21) :
    fld (n := 32) (op ++ d ++ o) 21 5 = d := by
  repeat (first | rw [fld_append_low (h := by decide)] | rw [fld_append_high (h := by decide)])
  exact fld_full _

theorem cj_o (op : BitVec 6) (d : BitVec 5) (o : BitVec 21) :
    fld (n := 32) (op ++ d ++ o) 0 21 = o := by
  repeat rw [fld_append_low (h := by decide)]
  exact fld_full _

theorem cm_op (op : BitVec 6) (d : BitVec 4) (a : BitVec 4) (b : BitVec 4) (s : BitVec 5) (f : BitVec 9) :
    fld (n := 32) (op ++ d ++ a ++ b ++ s ++ f) 26 6 = op := by
  repeat (first | rw [fld_append_low (h := by decide)] | rw [fld_append_high (h := by decide)])
  exact fld_full _

theorem cm_d (op : BitVec 6) (d : BitVec 4) (a : BitVec 4) (b : BitVec 4) (s : BitVec 5) (f : BitVec 9) :
    fld (n := 32) (op ++ d ++ a ++ b ++ s ++ f) 22 4 = d := by
  repeat (first | rw [fld_append_low (h := by decide)] | rw [fld_append_high (h := by decide)])
  exact fld_full _

theorem cm_a (op : BitVec 6) (d : BitVec 4) (a : BitVec 4) (b : BitVec 4) (s : BitVec 5) (f : BitVec 9) :
    fld (n := 32) (op ++ d ++ a ++ b ++ s ++ f) 18 4 = a := by
  repeat (first | rw [fld_append_low (h := by decide)] | rw [fld_append_high (h := by decide)])
  exact fld_full _

theorem cm_b (op : BitVec 6) (d : BitVec 4) (a : BitVec 4) (b : BitVec 4) (s : BitVec 5) (f : BitVec 9) :
    fld (n := 32) (op ++ d ++ a ++ b ++ s ++ f) 14 4 = b := by
  repeat (first | rw [fld_append_low (h := by decide)] | rw [fld_append_high (h := by decide)])
  exact fld_full _

theorem cm_s (op : BitVec 6) (d : BitVec 4) (a : BitVec 4) (b : BitVec 4) (s : BitVec 5) (f : BitVec 9) :
    fld (n := 32) (op ++ d ++ a ++ b ++ s ++ f) 9 5 = s := by
  repeat (first | rw [fld_append_low (h := by decide)] | rw [fld_append_high (h := by decide)])
  exact fld_full _

theorem cm_f4 (op : BitVec 6) (d : BitVec 4) (a : BitVec 4) (b : BitVec 4) (s : BitVec 5) (f : BitVec 9) :
    fld (n := 32) (op ++ d ++ a ++ b ++ s ++ f) 4 5 = fld f 4 5 := by
  repeat rw [fld_append_low (h := by decide)]

theorem cm_f0 (op : BitVec 6) (d : BitVec 4) (a : BitVec 4) (b : BitVec 4) (s : BitVec 5) (f : BitVec 9) :
    fld (n := 32) (op ++ d ++ a ++ b ++ s ++ f) 0 4 = fld f 0 4 := by
  repeat rw [fld_append_low (h := by decide)]

theorem cm_f (op : BitVec 6) (d : BitVec 4) (a : BitVec 4) (b : BitVec 4) (s : BitVec 5) (f : BitVec 9) :
    fld (n := 32) (op ++ d ++ a ++ b ++ s ++ f) 0 9 = f := by
  repeat rw [fld_append_low (h := by decide)]
  exact fld_full _

theorem cm_b1 (op : BitVec 6) (d : BitVec 4) (a : BitVec 4) (b : BitVec 4) (s : BitVec 5) (f : BitVec 9) :
    fld (n := 32) (op ++ d ++ a ++ b ++ s ++ f) 15 3 = fld b 1 3 := by
  repeat (first | rw [fld_append_low (h := by decide)] | rw [fld_append_high (h := by decide)])

theorem cm_b14 (op : BitVec 6) (d : BitVec 4) (a : BitVec 4) (b : BitVec 4) (s : BitVec 5) (f : BitVec 9) :
    bit (n := 32) (op ++ d ++ a ++ b ++ s ++ f) 14 = bit b 0 := by
  repeat (first | rw [bit_append_low (h := by decide)] | rw [bit_append_high (h := by decide)])

theorem cx_op (op : BitVec 6) (d : BitVec 5) (a : BitVec 5) (e : BitVec 8) (f : BitVec 8) :
    fld (n := 32) (op ++ d ++ a ++ e ++ f) 26 6 = op := by
  repeat (first | rw [fld_append_low (h := by decide)] | rw [fld_append_high (h := by decide)])
  exact fld_full _

theorem cx_d (op : BitVec 6) (d : BitVec 5) (a : BitVec 5) (e : BitVec 8) (f : BitVec 8) :
    fld (n := 32) (op ++ d ++ a ++ e ++ f) 21 5 = d := by
  repeat (first | rw [fld_append_low (h := by decide)] | rw [fld_append_high (h := by decide)])
  exact fld_full _

theorem cx_a (op : BitVec 6) (d : BitVec 5) (a : BitVec 5) (e : BitVec 8) (f : BitVec 8) :
    fld (n := 32) (op ++ d ++ a ++ e ++ f) 16 5 = a := by
  repeat (first | rw [fld_append_low (h := by decide)] | rw [fld_append_high (h := by decide)])
  exact fld_full _

theorem cx_e (op : BitVec 6) (d : BitVec 5) (a : BitVec 5) (e : BitVec 8) (f : BitVec 8) :
    fld (n := 32) (op ++ d ++ a ++ e ++ f) 8 8 = e := by
  repeat (first | rw [fld_append_low (h := by decide)] | rw [fld_append_high (h := by decide)])
  exact fld_full _

theorem cx_f (op : BitVec 6) (d : BitVec 5) (a : BitVec 5) (e : BitVec 8) (f : BitVec 8) :
    fld (n := 32) (op ++ d ++ a ++ e ++ f) 0 8 = f := by
  repeat rw [fld_append_low (h := by decide)]
  exact fld_full _

theorem cx_ch (op : BitVec 6) (d : BitVec 5) (a : BitVec 5) (e : BitVec 8) (f : BitVec 8) :
    fld (n := 32) (op ++ d ++ a ++ e ++ f) 13 3 = fld e 5 3 := by
  repeat (first | rw [fld_append_low (h := by decide)] | rw [fld_append_high (h := by decide)])

theorem cx_sc (op : BitVec 6) (d : BitVec 5) (a : BitVec 5) (e : BitVec 8) (f : BitVec 8) :
    fld (n := 32) (op ++ d ++ a ++ e ++ f) 0 3 = fld f 0 3 := by
  repeat rw [fld_append_low (h := by decide)]

theorem emit_fields (a b t : BitVec 5) (m : BitVec 4) (p q k r x : Bool) :
    let w : BitVec 32 := (0x24 : BitVec 6) ++ a ++ b ++ t ++ m ++ b1 p ++ b1 q ++ b1 k ++ b1 r ++ b1 x ++ (0 : BitVec 2)
    fld w 26 6 = 0x24 ∧ fld w 21 5 = a ∧ fld w 16 5 = b ∧ fld w 11 5 = t ∧ fld w 7 4 = m ∧ bit w 6 = p ∧ bit w 5 = q ∧ bit w 4 = k ∧
      bit w 3 = r ∧ bit w 2 = x ∧ fld w 0 2 = 0 := by
  refine ⟨?_, ?_, ?_, ?_, ?_, ?_, ?_, ?_, ?_, ?_, ?_⟩
  iterate 5
    · repeat (first | rw [fld_append_low (h := by decide)] | rw [fld_append_high (h := by decide)])
      exact fld_full _
  iterate 5
    · repeat (first | rw [bit_append_low (h := by decide)] | rw [bit_append_high (h := by decide)])
      exact bit_b1 _
  · repeat rw [fld_append_low (h := by decide)]
    exact fld_full _

theorem trap_fields (k : BitVec 6) :
    fld (n := 32) ((0x3A : BitVec 6) ++ (0 : BitVec 20) ++ k) 26 6 = 0x3A ∧
    fld (n := 32) ((0x3A : BitVec 6) ++ (0 : BitVec 20) ++ k) 6 20 = 0 ∧
    fld (n := 32) ((0x3A : BitVec 6) ++ (0 : BitVec 20) ++ k) 0 6 = k := by
  refine ⟨?_, ?_, ?_⟩
  iterate 3
    · repeat (first | rw [fld_append_low (h := by decide)] | rw [fld_append_high (h := by decide)])
      exact fld_full _

theorem rpop_low (op : BitVec 6) (d : BitVec 4) :
    fld (n := 32) (op ++ d ++ (0 : BitVec 4) ++ (0 : BitVec 4) ++ (0 : BitVec 5) ++ (0 : BitVec 9)) 0 22 = 0 := by
  refine BitVec.eq_of_getLsbD_eq fun i hi => ?_
  rw [fld_bit]
  replace hi : i < 22 := hi
  interval_cases i
  all_goals
    repeat (first | rw [bit_append_low (h := by decide)] | rw [bit_append_high (h := by decide)])
    rfl

theorem regroup_mid (op : BitVec 6) (d k : BitVec 4) (n : BitVec 8) :
    fld (n := 32) (op ++ d ++ k ++ (0 : BitVec 4) ++ (0 : BitVec 5) ++ ((0 : BitVec 1) ++ n)) 8 10 = 0 := by
  refine BitVec.eq_of_getLsbD_eq fun i hi => ?_
  rw [fld_bit]
  replace hi : i < 10 := hi
  interval_cases i
  all_goals
    repeat (first | rw [bit_append_low (h := by decide)] | rw [bit_append_high (h := by decide)])
    rfl

theorem ecommit_low (op : BitVec 6) (d a : BitVec 5) (c : BitVec 3) :
    fld (n := 32) (op ++ d ++ a ++ (c ++ (0 : BitVec 5)) ++ (0 : BitVec 8)) 0 13 = 0 := by
  refine BitVec.eq_of_getLsbD_eq fun i hi => ?_
  rw [fld_bit]
  replace hi : i < 13 := hi
  interval_cases i
  all_goals
    repeat (first | rw [bit_append_low (h := by decide)] | rw [bit_append_high (h := by decide)])
    rfl

theorem cwait_mid (op : BitVec 6) (d a : BitVec 5) (c s : BitVec 3) :
    fld (n := 32) (op ++ d ++ a ++ (c ++ (0 : BitVec 5)) ++ ((0 : BitVec 5) ++ s)) 3 10 = 0 := by
  refine BitVec.eq_of_getLsbD_eq fun i hi => ?_
  rw [fld_bit]
  replace hi : i < 10 := hi
  interval_cases i
  all_goals
    repeat (first | rw [bit_append_low (h := by decide)] | rw [bit_append_high (h := by decide)])
    rfl

theorem fInt_fields : ∀ (u : Bool) (op : BitVec 4), fld (fInt u op) 0 4 = op ∧ fld (fInt u op) 7 4 = 0 ∧ bit (fInt u op) 4 = u ∧
    bit (fInt u op) 5 = false ∧ bit (fInt u op) 6 = false := by decide

theorem fAmo_fields : ∀ (w u : Bool) (op : BitVec 4), fld (fAmo w u op) 0 4 = op ∧ fld (fAmo w u op) 6 5 = 0 ∧ bit (fAmo w u op) 4 = u ∧
    bit (fAmo w u op) 5 = w := by decide

/-- F field of the immediate shifts (09 R238). -/
def fShift (k : BitVec 6) (op : BitVec 4) : BitVec 11 := (0 : BitVec 4) ++ fld k 5 1 ++ (1 : BitVec 1) ++ (0 : BitVec 1) ++ op

theorem fShift_fields (k : BitVec 6) (op : BitVec 4) : fld (fShift k op) 0 4 = op ∧ fld (fShift k op) 7 4 = 0 ∧
    bit (fShift k op) 4 = false ∧ bit (fShift k op) 5 = true ∧ fld (fShift k op) 6 1 = fld k 5 1 := by
  refine ⟨?_, ?_, ?_, ?_, ?_⟩ <;> unfold fShift
  · repeat rw [fld_append_low (h := by decide)]
    exact fld_full _
  · repeat (first | rw [fld_append_low (h := by decide)] | rw [fld_append_high (h := by decide)])
    exact fld_full _
  · repeat (first | rw [bit_append_low (h := by decide)] | rw [bit_append_high (h := by decide)])
    rfl
  · repeat (first | rw [bit_append_low (h := by decide)] | rw [bit_append_high (h := by decide)])
    rfl
  · repeat (first | rw [fld_append_low (h := by decide)] | rw [fld_append_high (h := by decide)])
    exact fld_full _

theorem shift_amount : ∀ k : BitVec 6, fld k 5 1 ++ fld k 0 5 = k := by decide

/-! ### Lane words (09 R241-R244) -/

theorem packLane_fields (kind : BitVec 2) (opc : BitVec 10) (w : LaneWord) :
    laneKind (packLane kind opc w) = kind ∧ laneOpc (packLane kind opc w) = opc ∧
      decodeLaneWord (packLane kind opc w) = { w with lit := kind == 2 } := by
  obtain ⟨⟨f, bd, sw⟩, lit, d, a, b, c, ty, tl, md, sa, sb, sc, x⟩ := w
  have h1 : laneKind (packLane kind opc ⟨⟨f, bd, sw⟩, lit, d, a, b, c, ty, tl, md, sa, sb, sc, x⟩) = kind := by
    unfold laneKind packLane
    repeat (first | rw [fld_append_low (h := by decide)] | rw [fld_append_high (h := by decide)])
    exact fld_full _
  have h2 : laneOpc (packLane kind opc ⟨⟨f, bd, sw⟩, lit, d, a, b, c, ty, tl, md, sa, sb, sc, x⟩) = opc := by
    unfold laneOpc packLane
    repeat (first | rw [fld_append_low (h := by decide)] | rw [fld_append_high (h := by decide)])
    exact fld_full _
  refine ⟨h1, h2, ?_⟩
  unfold decodeLaneWord
  rw [h1]
  unfold decodeHdr packLane encHdr
  congr 1
  · congr 1
    iterate 3
      · repeat (first | rw [bit_append_low (h := by decide)] | rw [bit_append_high (h := by decide)])
        exact bit_b1 _
  all_goals first
    | (repeat (first | rw [fld_append_low (h := by decide)] | rw [fld_append_high (h := by decide)])
       exact fld_full _)
    | (repeat (first | rw [bit_append_low (h := by decide)] | rw [bit_append_high (h := by decide)])
       exact bit_b1 _)

theorem packCont_fields (y : ContWord) : decodeCont (packCont y) = y := by
  obtain ⟨⟨f, bd, sw⟩, k, b⟩ := y
  unfold decodeCont decodeHdr packCont encHdr laneKind
  congr 1
  · congr 1
    iterate 3
      · repeat (first | rw [bit_append_low (h := by decide)] | rw [bit_append_high (h := by decide)])
        exact bit_b1 _
  all_goals
    repeat (first | rw [fld_append_low (h := by decide)] | rw [fld_append_high (h := by decide)])
    exact fld_full _

theorem packNarrow_fields (n : Narrow) (h : BitVec 3) (k : BitVec 2) (p : Narrow) (r : Bool) :
    decodeNarrow (h ++ k ++ packNarrow n ++ packNarrow p ++ b1 r) 46 = n ∧
    decodeNarrow (h ++ k ++ packNarrow n ++ packNarrow p ++ b1 r) 1 = p := by
  obtain ⟨o, d, a, b, ty, im⟩ := n
  obtain ⟨o', d', a', b', ty', im'⟩ := p
  constructor <;> unfold decodeNarrow packNarrow <;> congr 1
  all_goals
    repeat (first | rw [fld_append_low (h := by decide)] | rw [fld_append_high (h := by decide)])
    exact fld_full _

theorem paired_fields (h : Hdr) (n p : Narrow) (r : Bool) :
    laneKind (encHdr h ++ (1 : BitVec 2) ++ packNarrow n ++ packNarrow p ++ b1 r) = 1 ∧
    decodeHdr (encHdr h ++ (1 : BitVec 2) ++ packNarrow n ++ packNarrow p ++ b1 r) = h ∧
    bit (encHdr h ++ (1 : BitVec 2) ++ packNarrow n ++ packNarrow p ++ b1 r) 0 = r := by
  obtain ⟨f, bd, sw⟩ := h
  refine ⟨?_, ?_, ?_⟩
  · unfold laneKind
    repeat (first | rw [fld_append_low (h := by decide)] | rw [fld_append_high (h := by decide)])
    exact fld_full _
  · unfold decodeHdr encHdr
    congr 1
    iterate 3
      · repeat (first | rw [bit_append_low (h := by decide)] | rw [bit_append_high (h := by decide)])
        exact bit_b1 _
  · repeat rw [bit_append_low (h := by decide)]
    exact bit_b1 _

namespace Laws.DecodeEncode

/-- Decoding the words of a well-formed instruction gives the instruction. -/
def Statement (i : Instr) : Prop := i.wf = true → ∀ c, encode i = some c → decode c = some i

theorem of_ctrl {i : Instr} {w : BitVec 32} (he : encode i = some (.ctrl w)) (hd : i.wf = true → decodeCtrl w = i) : Statement i := by
  intro hw c hc
  rw [he] at hc
  cases hc
  exact congrArg some (hd hw)

theorem of_none {i : Instr} (he : encode i = none) : Statement i := by
  intro _ c hc
  rw [he] at hc
  cases hc

theorem of_lane {i : Instr} {opc : BitVec 10} {w : LaneWord} (he : encode i = encLane opc w)
    (hd : i.wf = true → laneInstr opc.toNat w = some i) : Statement i := by
  intro hw c hc
  rw [he] at hc
  cases hc
  have hl : ({ w with lit := (if w.lit then (2 : BitVec 2) else 0) == 2 } : LaneWord) = w := by
    obtain ⟨h, lit, d, a, b, c, ty, tl, md, sa, sb, sc, x⟩ := w
    cases lit <;> rfl
  obtain ⟨h1, h2, h3⟩ := packLane_fields (if w.lit then 2 else 0) opc w
  change decodeLane _ none = _
  unfold decodeLane
  rw [h1, h2, h3, hl, hd hw]
  cases w.lit <;> rfl

theorem of_double {i : Instr} {opc : BitVec 10} {w : LaneWord} {y : ContWord} (he : encode i = encDouble opc w y)
    (hw : i.wf = true → w.lit = false)
    (hd : ∀ v z, laneKind v = 3 → laneOpc v = opc → decodeLaneWord v = w → decodeCont z = y → decodeLane v (some z) = some i) :
    Statement i := by
  intro hi c hc
  rw [he] at hc
  cases hc
  obtain ⟨h1, h2, h3⟩ := packLane_fields 3 opc w
  refine hd _ _ h1 h2 ?_ (packCont_fields y)
  rw [h3]
  have := hw hi
  obtain ⟨h, lit, d, a, b, c, ty, tl, md, sa, sb, sc, x⟩ := w
  cases this
  rfl

/-! ### The major opcodes -/

theorem major_00 (w : BitVec 32) (h : fld w 26 6 = 0x00) : decodeCtrl w = decodeInt w := by
  unfold decodeCtrl
  rw [h]
  rfl

theorem major_01 (w : BitVec 32) (h : fld w 26 6 = 0x01) : decodeCtrl w = .addi (fld w 21 5) (fld w 16 5) (fld w 0 16) := by
  unfold decodeCtrl
  rw [h]
  rfl

theorem major_02 (w : BitVec 32) (h : fld w 26 6 = 0x02) : decodeCtrl w = .andi (fld w 21 5) (fld w 16 5) (fld w 0 16) := by
  unfold decodeCtrl
  rw [h]
  rfl

theorem major_03 (w : BitVec 32) (h : fld w 26 6 = 0x03) : decodeCtrl w = .ori (fld w 21 5) (fld w 16 5) (fld w 0 16) := by
  unfold decodeCtrl
  rw [h]
  rfl

theorem major_04 (w : BitVec 32) (h : fld w 26 6 = 0x04) : decodeCtrl w = .xori (fld w 21 5) (fld w 16 5) (fld w 0 16) := by
  unfold decodeCtrl
  rw [h]
  rfl

theorem major_05 (w : BitVec 32) (h : fld w 26 6 = 0x05) : decodeCtrl w = .sltImm (fld w 21 5) (fld w 16 5) (fld w 0 16) := by
  unfold decodeCtrl
  rw [h]
  rfl

theorem major_06 (w : BitVec 32) (h : fld w 26 6 = 0x06) : decodeCtrl w = ifClean w ((fld w 16 5) == 0) (.lui (fld w 21 5) (fld w 0 16)) := by
  unfold decodeCtrl
  rw [h]
  rfl

theorem major_07 (w : BitVec 32) (h : fld w 26 6 = 0x07) : decodeCtrl w = ifClean w ((fld w 16 5) == 0) (.auipc (fld w 21 5) (fld w 0 16)) := by
  unfold decodeCtrl
  rw [h]
  rfl

theorem major_08 (w : BitVec 32) (h : fld w 26 6 = 0x08) : decodeCtrl w = ifClean w ((fld w 13 3) != 7) (.ld (fld w 21 5) (fld w 16 5) (fld w 13 3) (fld w 0 13)) := by
  unfold decodeCtrl
  rw [h]
  rfl

theorem major_09 (w : BitVec 32) (h : fld w 26 6 = 0x09) : decodeCtrl w = ifClean w ((fld w 13 3) != 7) (.st (fld w 21 5) (fld w 16 5) (fld w 13 3) (fld w 0 13)) := by
  unfold decodeCtrl
  rw [h]
  rfl

theorem major_0A (w : BitVec 32) (h : fld w 26 6 = 0x0A) : decodeCtrl w = ifClean w ((fld w 13 3) != 7) (.ldk (fld w 21 5) (fld w 16 5) (fld w 13 3) (fld w 0 13)) := by
  unfold decodeCtrl
  rw [h]
  rfl

theorem major_0B (w : BitVec 32) (h : fld w 26 6 = 0x0B) : decodeCtrl w = decodeAmo w := by
  unfold decodeCtrl
  rw [h]
  rfl

theorem major_0C (w : BitVec 32) (h : fld w 26 6 = 0x0C) : decodeCtrl w = decodeFence w := by
  unfold decodeCtrl
  rw [h]
  rfl

theorem major_10 (w : BitVec 32) (h : fld w 26 6 = 0x10) : decodeCtrl w = .jal (fld w 21 5) (fld w 0 21) := by
  unfold decodeCtrl
  rw [h]
  rfl

theorem major_11 (w : BitVec 32) (h : fld w 26 6 = 0x11) : decodeCtrl w = .jalr (fld w 21 5) (fld w 16 5) (fld w 0 16) := by
  unfold decodeCtrl
  rw [h]
  rfl

theorem major_12 (w : BitVec 32) (h : fld w 26 6 = 0x12) : decodeCtrl w = .beq (fld w 21 5) (fld w 16 5) (fld w 0 16) := by
  unfold decodeCtrl
  rw [h]
  rfl

theorem major_13 (w : BitVec 32) (h : fld w 26 6 = 0x13) : decodeCtrl w = .bne (fld w 21 5) (fld w 16 5) (fld w 0 16) := by
  unfold decodeCtrl
  rw [h]
  rfl

theorem major_14 (w : BitVec 32) (h : fld w 26 6 = 0x14) : decodeCtrl w = .blt (fld w 21 5) (fld w 16 5) (fld w 0 16) := by
  unfold decodeCtrl
  rw [h]
  rfl

theorem major_15 (w : BitVec 32) (h : fld w 26 6 = 0x15) : decodeCtrl w = .bge (fld w 21 5) (fld w 16 5) (fld w 0 16) := by
  unfold decodeCtrl
  rw [h]
  rfl

theorem major_16 (w : BitVec 32) (h : fld w 26 6 = 0x16) : decodeCtrl w = .bltN (fld w 21 5) (fld w 16 5) (fld w 0 16) := by
  unfold decodeCtrl
  rw [h]
  rfl

theorem major_17 (w : BitVec 32) (h : fld w 26 6 = 0x17) : decodeCtrl w = .bgeN (fld w 21 5) (fld w 16 5) (fld w 0 16) := by
  unfold decodeCtrl
  rw [h]
  rfl

theorem major_18 (w : BitVec 32) (h : fld w 26 6 = 0x18) : decodeCtrl w = ifClean w ((fld w 21 5) != 0 && (fld w 16 5) == 0) (.cloop (fld w 21 5) (fld w 0 16)) := by
  unfold decodeCtrl
  rw [h]
  rfl

theorem major_19 (w : BitVec 32) (h : fld w 26 6 = 0x19) : decodeCtrl w = ifClean w (!bit w 25 && (fld w 16 5) == 0) (.bmask (fld w 21 4) (fld w 0 16)) := by
  unfold decodeCtrl
  rw [h]
  rfl

theorem major_20 (w : BitVec 32) (h : fld w 26 6 = 0x20) : decodeCtrl w = decodeMask w := by
  unfold decodeCtrl
  rw [h]
  rfl

theorem major_24 (w : BitVec 32) (h : fld w 26 6 = 0x24) : decodeCtrl w = ifClean w (fld w 0 2 == 0) (.emit (fld w 21 5) (fld w 16 5) (fld w 11 5) (fld w 7 4) (bit w 6) (bit w 5) (bit w 4) (bit w 3) (bit w 2)) := by
  unfold decodeCtrl
  rw [h]
  rfl

theorem major_25 (w : BitVec 32) (h : fld w 26 6 = 0x25) : decodeCtrl w = ifClean w (fld w 0 22 == 0) (.rpop (fld w 22 4)) := by
  unfold decodeCtrl
  rw [h]
  rfl

theorem major_27 (w : BitVec 32) (h : fld w 26 6 = 0x27) : decodeCtrl w = ifClean w (fld w 22 4 == 0 && fld w 8 10 == 0) (.regroup (fld w 18 4) (fld w 0 8)) := by
  unfold decodeCtrl
  rw [h]
  rfl

theorem major_28 (w : BitVec 32) (h : fld w 26 6 = 0x28) : decodeCtrl w = .rotb (fld w 21 5) (fld w 16 5) (fld w 0 16) := by
  unfold decodeCtrl
  rw [h]
  rfl

theorem major_2C (w : BitVec 32) (h : fld w 26 6 = 0x2C) : decodeCtrl w = ifClean w ((fld w 21 5) == 0 && fld w 0 8 == 0) (.ewr (fld w 16 5) (fld w 8 8)) := by
  unfold decodeCtrl
  rw [h]
  rfl

theorem major_2D (w : BitVec 32) (h : fld w 26 6 = 0x2D) : decodeCtrl w = ifClean w ((fld w 16 5) == 0 && fld w 0 8 == 0) (.erd (fld w 21 5) (fld w 8 8)) := by
  unfold decodeCtrl
  rw [h]
  rfl

theorem major_2E (w : BitVec 32) (h : fld w 26 6 = 0x2E) : decodeCtrl w = ifClean w ((fld w 16 5) == 0 && fld w 0 13 == 0) (.ecommit (fld w 21 5) (fld w 13 3)) := by
  unfold decodeCtrl
  rw [h]
  rfl

theorem major_2F (w : BitVec 32) (h : fld w 26 6 = 0x2F) : decodeCtrl w = ifClean w ((fld w 21 5) == 0 && fld w 3 10 == 0 && ctrlScope (fld w 0 3)) (.cwait (fld w 16 5) (fld w 13 3) (fld w 0 3)) := by
  unfold decodeCtrl
  rw [h]
  rfl

theorem major_30 (w : BitVec 32) (h : fld w 26 6 = 0x30) : decodeCtrl w = ifClean w (fld w 0 26 == 0) .ktrig := by
  unfold decodeCtrl
  rw [h]
  rfl

theorem major_31 (w : BitVec 32) (h : fld w 26 6 = 0x31) : decodeCtrl w = ifClean w (fld w 0 26 == 0) .kwait := by
  unfold decodeCtrl
  rw [h]
  rfl

theorem major_32 (w : BitVec 32) (h : fld w 26 6 = 0x32) : decodeCtrl w = ifClean w ((fld w 21 5) == 0) (.jwait (fld w 16 5) (fld w 0 16)) := by
  unfold decodeCtrl
  rw [h]
  rfl

theorem major_38 (w : BitVec 32) (h : fld w 26 6 = 0x38) : decodeCtrl w = ifClean w ((fld w 16 5) == 0 && fld w 0 8 == 0 && decide ((fld w 8 8).toNat ≤ 0x0F)) (.crd (fld w 21 5) (fld w 8 8)) := by
  unfold decodeCtrl
  rw [h]
  rfl

theorem major_39 (w : BitVec 32) (h : fld w 26 6 = 0x39) : decodeCtrl w = ifClean w ((fld w 21 5) == 0 && fld w 0 8 == 0 && decide ((fld w 8 8).toNat ≤ 0x0F)) (.cwr (fld w 16 5) (fld w 8 8)) := by
  unfold decodeCtrl
  rw [h]
  rfl

theorem major_3A (w : BitVec 32) (h : fld w 26 6 = 0x3A) : decodeCtrl w = ifClean w (fld w 6 20 == 0) (.trap (fld w 0 6)) := by
  unfold decodeCtrl
  rw [h]
  rfl

theorem major_3B (w : BitVec 32) (h : fld w 26 6 = 0x3B) : decodeCtrl w = ifClean w (fld w 0 26 == 0) .eret := by
  unfold decodeCtrl
  rw [h]
  rfl

theorem major_3C (w : BitVec 32) (h : fld w 26 6 = 0x3C) : decodeCtrl w = ifClean w (fld w 0 26 == 0) .exit := by
  unfold decodeCtrl
  rw [h]
  rfl

theorem major_3E (w : BitVec 32) (h : fld w 26 6 = 0x3E) : decodeCtrl w = ifClean w (fld w 0 26 == 0) .brk := by
  unfold decodeCtrl
  rw [h]
  rfl

theorem int_row (d a b : BitVec 5) (u : Bool) (op : BitVec 4) (hop : op ≠ 0) :
    decodeCtrl ((0 : BitVec 6) ++ d ++ a ++ b ++ fInt u op) = decodeInt ((0 : BitVec 6) ++ d ++ a ++ b ++ fInt u op) ∧
    (0 : BitVec 6) ++ d ++ a ++ b ++ fInt u op ≠ (0 : BitVec 32) := by
  refine ⟨major_00 _ (cr_op ..), ne_zero_of_fld (cr_f0 ..) ?_⟩
  rw [(fInt_fields u op).1]
  exact hop

theorem add (d a b : BitVec 5) : Statement (.add d a b) :=
  of_ctrl rfl fun h => by
    rw [major_00 _ (cr_op ..)]
    unfold decodeInt
    rw [if_neg ?_]
    · simp only [cr_b, cr_a, cr_d, cr_f0, cr_f7, cr_b4, cr_b5, cr_b6, (fInt_fields false 0).1, (fInt_fields false 0).2.1, (fInt_fields false 0).2.2.1, (fInt_fields false 0).2.2.2.1, (fInt_fields false 0).2.2.2.2]
      rfl
    · intro hz
      have hd := (cr_d ..).symm.trans (congrArg (fld · 21 5) hz)
      have ha := (cr_a ..).symm.trans (congrArg (fld · 16 5) hz)
      have hb := (cr_b ..).symm.trans (congrArg (fld · 11 5) hz)
      subst hd ha hb
      revert h
      decide

theorem sub (d a b : BitVec 5) : Statement (.sub d a b) :=
  of_ctrl rfl fun _ => by
    rw [(int_row d a b false 1 (by decide)).1]
    unfold decodeInt
    rw [if_neg (int_row d a b false 1 (by decide)).2]
    simp only [cr_b, cr_a, cr_d, cr_f0, cr_f7, cr_b4, cr_b5, cr_b6, (fInt_fields false 1).1, (fInt_fields false 1).2.1, (fInt_fields false 1).2.2.1, (fInt_fields false 1).2.2.2.1, (fInt_fields false 1).2.2.2.2]
    rfl

theorem mul (d a b : BitVec 5) : Statement (.mul d a b) :=
  of_ctrl rfl fun _ => by
    rw [(int_row d a b false 2 (by decide)).1]
    unfold decodeInt
    rw [if_neg (int_row d a b false 2 (by decide)).2]
    simp only [cr_b, cr_a, cr_d, cr_f0, cr_f7, cr_b4, cr_b5, cr_b6, (fInt_fields false 2).1, (fInt_fields false 2).2.1, (fInt_fields false 2).2.2.1, (fInt_fields false 2).2.2.2.1, (fInt_fields false 2).2.2.2.2]
    rfl

theorem mulh (d a b : BitVec 5) (u : Bool) : Statement (.mulh d a b u) :=
  of_ctrl rfl fun _ => by
    rw [(int_row d a b u 3 (by decide)).1]
    unfold decodeInt
    rw [if_neg (int_row d a b u 3 (by decide)).2]
    simp only [cr_b, cr_a, cr_d, cr_f0, cr_f7, cr_b4, cr_b5, cr_b6, (fInt_fields u 3).1, (fInt_fields u 3).2.1, (fInt_fields u 3).2.2.1, (fInt_fields u 3).2.2.2.1, (fInt_fields u 3).2.2.2.2]
    rfl

theorem div (d a b : BitVec 5) (u : Bool) : Statement (.div d a b u) :=
  of_ctrl rfl fun _ => by
    rw [(int_row d a b u 4 (by decide)).1]
    unfold decodeInt
    rw [if_neg (int_row d a b u 4 (by decide)).2]
    simp only [cr_b, cr_a, cr_d, cr_f0, cr_f7, cr_b4, cr_b5, cr_b6, (fInt_fields u 4).1, (fInt_fields u 4).2.1, (fInt_fields u 4).2.2.1, (fInt_fields u 4).2.2.2.1, (fInt_fields u 4).2.2.2.2]
    rfl

theorem rem (d a b : BitVec 5) (u : Bool) : Statement (.rem d a b u) :=
  of_ctrl rfl fun _ => by
    rw [(int_row d a b u 5 (by decide)).1]
    unfold decodeInt
    rw [if_neg (int_row d a b u 5 (by decide)).2]
    simp only [cr_b, cr_a, cr_d, cr_f0, cr_f7, cr_b4, cr_b5, cr_b6, (fInt_fields u 5).1, (fInt_fields u 5).2.1, (fInt_fields u 5).2.2.1, (fInt_fields u 5).2.2.2.1, (fInt_fields u 5).2.2.2.2]
    rfl

theorem and (d a b : BitVec 5) : Statement (.and d a b) :=
  of_ctrl rfl fun _ => by
    rw [(int_row d a b false 6 (by decide)).1]
    unfold decodeInt
    rw [if_neg (int_row d a b false 6 (by decide)).2]
    simp only [cr_b, cr_a, cr_d, cr_f0, cr_f7, cr_b4, cr_b5, cr_b6, (fInt_fields false 6).1, (fInt_fields false 6).2.1, (fInt_fields false 6).2.2.1, (fInt_fields false 6).2.2.2.1, (fInt_fields false 6).2.2.2.2]
    rfl

theorem or (d a b : BitVec 5) : Statement (.or d a b) :=
  of_ctrl rfl fun _ => by
    rw [(int_row d a b false 7 (by decide)).1]
    unfold decodeInt
    rw [if_neg (int_row d a b false 7 (by decide)).2]
    simp only [cr_b, cr_a, cr_d, cr_f0, cr_f7, cr_b4, cr_b5, cr_b6, (fInt_fields false 7).1, (fInt_fields false 7).2.1, (fInt_fields false 7).2.2.1, (fInt_fields false 7).2.2.2.1, (fInt_fields false 7).2.2.2.2]
    rfl

theorem xor (d a b : BitVec 5) : Statement (.xor d a b) :=
  of_ctrl rfl fun _ => by
    rw [(int_row d a b false 8 (by decide)).1]
    unfold decodeInt
    rw [if_neg (int_row d a b false 8 (by decide)).2]
    simp only [cr_b, cr_a, cr_d, cr_f0, cr_f7, cr_b4, cr_b5, cr_b6, (fInt_fields false 8).1, (fInt_fields false 8).2.1, (fInt_fields false 8).2.2.1, (fInt_fields false 8).2.2.2.1, (fInt_fields false 8).2.2.2.2]
    rfl

theorem shl (d a b : BitVec 5) : Statement (.shl d a b) :=
  of_ctrl rfl fun _ => by
    rw [(int_row d a b false 9 (by decide)).1]
    unfold decodeInt
    rw [if_neg (int_row d a b false 9 (by decide)).2]
    simp only [cr_b, cr_a, cr_d, cr_f0, cr_f7, cr_b4, cr_b5, cr_b6, (fInt_fields false 9).1, (fInt_fields false 9).2.1, (fInt_fields false 9).2.2.1, (fInt_fields false 9).2.2.2.1, (fInt_fields false 9).2.2.2.2]
    rfl

theorem shr (d a b : BitVec 5) : Statement (.shr d a b) :=
  of_ctrl rfl fun _ => by
    rw [(int_row d a b false 10 (by decide)).1]
    unfold decodeInt
    rw [if_neg (int_row d a b false 10 (by decide)).2]
    simp only [cr_b, cr_a, cr_d, cr_f0, cr_f7, cr_b4, cr_b5, cr_b6, (fInt_fields false 10).1, (fInt_fields false 10).2.1, (fInt_fields false 10).2.2.1, (fInt_fields false 10).2.2.2.1, (fInt_fields false 10).2.2.2.2]
    rfl

theorem sra (d a b : BitVec 5) : Statement (.sra d a b) :=
  of_ctrl rfl fun _ => by
    rw [(int_row d a b false 11 (by decide)).1]
    unfold decodeInt
    rw [if_neg (int_row d a b false 11 (by decide)).2]
    simp only [cr_b, cr_a, cr_d, cr_f0, cr_f7, cr_b4, cr_b5, cr_b6, (fInt_fields false 11).1, (fInt_fields false 11).2.1, (fInt_fields false 11).2.2.1, (fInt_fields false 11).2.2.2.1, (fInt_fields false 11).2.2.2.2]
    rfl

theorem slt (d a b : BitVec 5) (u : Bool) : Statement (.slt d a b u) :=
  of_ctrl rfl fun _ => by
    rw [(int_row d a b u 12 (by decide)).1]
    unfold decodeInt
    rw [if_neg (int_row d a b u 12 (by decide)).2]
    simp only [cr_b, cr_a, cr_d, cr_f0, cr_f7, cr_b4, cr_b5, cr_b6, (fInt_fields u 12).1, (fInt_fields u 12).2.1, (fInt_fields u 12).2.2.1, (fInt_fields u 12).2.2.2.1, (fInt_fields u 12).2.2.2.2]
    rfl

theorem min (d a b : BitVec 5) (u : Bool) : Statement (.min d a b u) :=
  of_ctrl rfl fun _ => by
    rw [(int_row d a b u 13 (by decide)).1]
    unfold decodeInt
    rw [if_neg (int_row d a b u 13 (by decide)).2]
    simp only [cr_b, cr_a, cr_d, cr_f0, cr_f7, cr_b4, cr_b5, cr_b6, (fInt_fields u 13).1, (fInt_fields u 13).2.1, (fInt_fields u 13).2.2.1, (fInt_fields u 13).2.2.2.1, (fInt_fields u 13).2.2.2.2]
    rfl

theorem max (d a b : BitVec 5) (u : Bool) : Statement (.max d a b u) :=
  of_ctrl rfl fun _ => by
    rw [(int_row d a b u 14 (by decide)).1]
    unfold decodeInt
    rw [if_neg (int_row d a b u 14 (by decide)).2]
    simp only [cr_b, cr_a, cr_d, cr_f0, cr_f7, cr_b4, cr_b5, cr_b6, (fInt_fields u 14).1, (fInt_fields u 14).2.1, (fInt_fields u 14).2.2.1, (fInt_fields u 14).2.2.2.1, (fInt_fields u 14).2.2.2.2]
    rfl

theorem shiftImm {d a : BitVec 5} {k : BitVec 6} {op : BitVec 4} (hop : op ≠ 0) :
    decodeCtrl ((0 : BitVec 6) ++ d ++ a ++ fld k 0 5 ++ fShift k op) =
      decodeInt ((0 : BitVec 6) ++ d ++ a ++ fld k 0 5 ++ fShift k op) ∧
    (0 : BitVec 6) ++ d ++ a ++ fld k 0 5 ++ fShift k op ≠ (0 : BitVec 32) := by
  refine ⟨major_00 _ (cr_op ..), ne_zero_of_fld (cr_f0 ..) ?_⟩
  rw [(fShift_fields k op).1]
  exact hop

theorem shlImm (d a : BitVec 5) (k : BitVec 6) : Statement (.shlImm d a k) :=
  of_ctrl (w := (0 : BitVec 6) ++ d ++ a ++ fld k 0 5 ++ fShift k 9) rfl fun _ => by
    rw [(shiftImm (by decide)).1]
    unfold decodeInt
    rw [if_neg (shiftImm (by decide)).2]
    simp only [cr_b, cr_a, cr_d, cr_f0, cr_f7, cr_f6, cr_b4, cr_b5, (fShift_fields k 9).1, (fShift_fields k 9).2.1, (fShift_fields k 9).2.2.1, (fShift_fields k 9).2.2.2.1, (fShift_fields k 9).2.2.2.2, shift_amount]
    rfl

theorem shrImm (d a : BitVec 5) (k : BitVec 6) : Statement (.shrImm d a k) :=
  of_ctrl (w := (0 : BitVec 6) ++ d ++ a ++ fld k 0 5 ++ fShift k 10) rfl fun _ => by
    rw [(shiftImm (by decide)).1]
    unfold decodeInt
    rw [if_neg (shiftImm (by decide)).2]
    simp only [cr_b, cr_a, cr_d, cr_f0, cr_f7, cr_f6, cr_b4, cr_b5, (fShift_fields k 10).1, (fShift_fields k 10).2.1, (fShift_fields k 10).2.2.1, (fShift_fields k 10).2.2.2.1, (fShift_fields k 10).2.2.2.2, shift_amount]
    rfl

theorem sraImm (d a : BitVec 5) (k : BitVec 6) : Statement (.sraImm d a k) :=
  of_ctrl (w := (0 : BitVec 6) ++ d ++ a ++ fld k 0 5 ++ fShift k 11) rfl fun _ => by
    rw [(shiftImm (by decide)).1]
    unfold decodeInt
    rw [if_neg (shiftImm (by decide)).2]
    simp only [cr_b, cr_a, cr_d, cr_f0, cr_f7, cr_f6, cr_b4, cr_b5, (fShift_fields k 11).1, (fShift_fields k 11).2.1, (fShift_fields k 11).2.2.1, (fShift_fields k 11).2.2.2.1, (fShift_fields k 11).2.2.2.2, shift_amount]
    rfl

theorem addi (d a : BitVec 5) (i : BitVec 16) : Statement (.addi d a i) :=
  of_ctrl rfl fun _ => by
    rw [major_01 _ (ci_op ..), ci_d, ci_a, ci_i]

theorem andi (d a : BitVec 5) (i : BitVec 16) : Statement (.andi d a i) :=
  of_ctrl rfl fun _ => by
    rw [major_02 _ (ci_op ..), ci_d, ci_a, ci_i]

theorem ori (d a : BitVec 5) (i : BitVec 16) : Statement (.ori d a i) :=
  of_ctrl rfl fun _ => by
    rw [major_03 _ (ci_op ..), ci_d, ci_a, ci_i]

theorem xori (d a : BitVec 5) (i : BitVec 16) : Statement (.xori d a i) :=
  of_ctrl rfl fun _ => by
    rw [major_04 _ (ci_op ..), ci_d, ci_a, ci_i]

theorem sltImm (d a : BitVec 5) (i : BitVec 16) : Statement (.sltImm d a i) :=
  of_ctrl rfl fun _ => by
    rw [major_05 _ (ci_op ..), ci_d, ci_a, ci_i]

theorem jalr (d a : BitVec 5) (i : BitVec 16) : Statement (.jalr d a i) :=
  of_ctrl rfl fun _ => by
    rw [major_11 _ (ci_op ..), ci_d, ci_a, ci_i]

theorem beq (d a : BitVec 5) (i : BitVec 16) : Statement (.beq d a i) :=
  of_ctrl rfl fun _ => by
    rw [major_12 _ (ci_op ..), ci_d, ci_a, ci_i]

theorem bne (d a : BitVec 5) (i : BitVec 16) : Statement (.bne d a i) :=
  of_ctrl rfl fun _ => by
    rw [major_13 _ (ci_op ..), ci_d, ci_a, ci_i]

theorem blt (d a : BitVec 5) (i : BitVec 16) : Statement (.blt d a i) :=
  of_ctrl rfl fun _ => by
    rw [major_14 _ (ci_op ..), ci_d, ci_a, ci_i]

theorem bge (d a : BitVec 5) (i : BitVec 16) : Statement (.bge d a i) :=
  of_ctrl rfl fun _ => by
    rw [major_15 _ (ci_op ..), ci_d, ci_a, ci_i]

theorem bltN (d a : BitVec 5) (i : BitVec 16) : Statement (.bltN d a i) :=
  of_ctrl rfl fun _ => by
    rw [major_16 _ (ci_op ..), ci_d, ci_a, ci_i]

theorem bgeN (d a : BitVec 5) (i : BitVec 16) : Statement (.bgeN d a i) :=
  of_ctrl rfl fun _ => by
    rw [major_17 _ (ci_op ..), ci_d, ci_a, ci_i]

theorem rotb (d a : BitVec 5) (i : BitVec 16) : Statement (.rotb d a i) :=
  of_ctrl rfl fun _ => by
    rw [major_28 _ (ci_op ..), ci_d, ci_a, ci_i]

theorem lui (d : BitVec 5) (i : BitVec 16) : Statement (.lui d i) :=
  of_ctrl rfl fun _ => by
    rw [major_06 _ (ci_op ..), ci_d, ci_a, ci_i]
    rfl

theorem auipc (d : BitVec 5) (i : BitVec 16) : Statement (.auipc d i) :=
  of_ctrl rfl fun _ => by
    rw [major_07 _ (ci_op ..), ci_d, ci_a, ci_i]
    rfl

theorem jwait (a : BitVec 5) (i : BitVec 16) : Statement (.jwait a i) :=
  of_ctrl rfl fun _ => by
    rw [major_32 _ (ci_op ..), ci_d, ci_a, ci_i]
    rfl

theorem ld (d a : BitVec 5) (sz : BitVec 3) (o : BitVec 13) : Statement (.ld d a sz o) :=
  of_ctrl rfl fun h => by
    rw [major_08 _ (cim_op ..), cim_d, cim_a, cim_sz, cim_o]
    exact if_pos h

theorem st (d a : BitVec 5) (sz : BitVec 3) (o : BitVec 13) : Statement (.st d a sz o) :=
  of_ctrl rfl fun h => by
    rw [major_09 _ (cim_op ..), cim_d, cim_a, cim_sz, cim_o]
    exact if_pos h

theorem ldk (d a : BitVec 5) (sz : BitVec 3) (o : BitVec 13) : Statement (.ldk d a sz o) :=
  of_ctrl rfl fun h => by
    rw [major_0A _ (cim_op ..), cim_d, cim_a, cim_sz, cim_o]
    exact if_pos h

theorem amoAdd (d a b : BitVec 5) (w : Bool) : Statement (.amoAdd d a b w) :=
  of_ctrl rfl fun _ => by
    rw [major_0B _ (cr_op ..)]
    unfold decodeAmo
    simp only [cr_b, cr_a, cr_d, cr_f0, cr_f65, cr_b4, cr_b5, (fAmo_fields w false 0).1, (fAmo_fields w false 0).2.1, (fAmo_fields w false 0).2.2.1, (fAmo_fields w false 0).2.2.2]
    rfl

theorem amoAnd (d a b : BitVec 5) (w : Bool) : Statement (.amoAnd d a b w) :=
  of_ctrl rfl fun _ => by
    rw [major_0B _ (cr_op ..)]
    unfold decodeAmo
    simp only [cr_b, cr_a, cr_d, cr_f0, cr_f65, cr_b4, cr_b5, (fAmo_fields w false 1).1, (fAmo_fields w false 1).2.1, (fAmo_fields w false 1).2.2.1, (fAmo_fields w false 1).2.2.2]
    rfl

theorem amoOr (d a b : BitVec 5) (w : Bool) : Statement (.amoOr d a b w) :=
  of_ctrl rfl fun _ => by
    rw [major_0B _ (cr_op ..)]
    unfold decodeAmo
    simp only [cr_b, cr_a, cr_d, cr_f0, cr_f65, cr_b4, cr_b5, (fAmo_fields w false 2).1, (fAmo_fields w false 2).2.1, (fAmo_fields w false 2).2.2.1, (fAmo_fields w false 2).2.2.2]
    rfl

theorem amoXor (d a b : BitVec 5) (w : Bool) : Statement (.amoXor d a b w) :=
  of_ctrl rfl fun _ => by
    rw [major_0B _ (cr_op ..)]
    unfold decodeAmo
    simp only [cr_b, cr_a, cr_d, cr_f0, cr_f65, cr_b4, cr_b5, (fAmo_fields w false 3).1, (fAmo_fields w false 3).2.1, (fAmo_fields w false 3).2.2.1, (fAmo_fields w false 3).2.2.2]
    rfl

theorem amoSwap (d a b : BitVec 5) (w : Bool) : Statement (.amoSwap d a b w) :=
  of_ctrl rfl fun _ => by
    rw [major_0B _ (cr_op ..)]
    unfold decodeAmo
    simp only [cr_b, cr_a, cr_d, cr_f0, cr_f65, cr_b4, cr_b5, (fAmo_fields w false 4).1, (fAmo_fields w false 4).2.1, (fAmo_fields w false 4).2.2.1, (fAmo_fields w false 4).2.2.2]
    rfl

theorem amoCas (d a b : BitVec 5) (w : Bool) : Statement (.amoCas d a b w) :=
  of_ctrl rfl fun _ => by
    rw [major_0B _ (cr_op ..)]
    unfold decodeAmo
    simp only [cr_b, cr_a, cr_d, cr_f0, cr_f65, cr_b4, cr_b5, (fAmo_fields w false 5).1, (fAmo_fields w false 5).2.1, (fAmo_fields w false 5).2.2.1, (fAmo_fields w false 5).2.2.2]
    rfl

theorem amoMin (d a b : BitVec 5) (w u : Bool) : Statement (.amoMin d a b w u) :=
  of_ctrl rfl fun _ => by
    rw [major_0B _ (cr_op ..)]
    unfold decodeAmo
    simp only [cr_b, cr_a, cr_d, cr_f0, cr_f65, cr_b4, cr_b5, (fAmo_fields w u 6).1, (fAmo_fields w u 6).2.1, (fAmo_fields w u 6).2.2.1, (fAmo_fields w u 6).2.2.2]
    rfl

theorem amoMax (d a b : BitVec 5) (w u : Bool) : Statement (.amoMax d a b w u) :=
  of_ctrl rfl fun _ => by
    rw [major_0B _ (cr_op ..)]
    unfold decodeAmo
    simp only [cr_b, cr_a, cr_d, cr_f0, cr_f65, cr_b4, cr_b5, (fAmo_fields w u 7).1, (fAmo_fields w u 7).2.1, (fAmo_fields w u 7).2.2.1, (fAmo_fields w u 7).2.2.2]
    rfl

theorem fence (s : BitVec 3) (o : BitVec 2) : Statement (.fence s o) :=
  by
  revert s o
  unfold Statement
  intro s o h c hc
  cases hc
  revert s o
  decide +kernel

theorem xfence (s p q : BitVec 3) : Statement (.xfence s p q) :=
  by
  intro h c hc
  cases hc
  revert s p q
  decide +kernel

theorem ifence : Statement (.ifence) :=
  of_ctrl rfl fun _ => by decide +kernel

theorem nop : Statement (.nop) :=
  of_ctrl rfl fun _ => by decide +kernel

theorem elseM : Statement (.elseM) :=
  of_ctrl rfl fun _ => by decide +kernel

theorem recon : Statement (.recon) :=
  of_ctrl rfl fun _ => by decide +kernel

theorem ktrig : Statement (.ktrig) :=
  of_ctrl rfl fun _ => by decide +kernel

theorem kwait : Statement (.kwait) :=
  of_ctrl rfl fun _ => by decide +kernel

theorem eret : Statement (.eret) :=
  of_ctrl rfl fun _ => by decide +kernel

theorem exit : Statement (.exit) :=
  of_ctrl rfl fun _ => by decide +kernel

theorem brk : Statement (.brk) :=
  of_ctrl rfl fun _ => by decide +kernel

theorem jal (d : BitVec 5) (o : BitVec 21) : Statement (.jal d o) :=
  of_ctrl rfl fun _ => by
    rw [major_10 _ (cj_op ..), cj_d, cj_o]

theorem cloop (a : BitVec 5) (o : BitVec 16) : Statement (.cloop a o) :=
  of_ctrl rfl fun h => by
    rw [major_18 _ (ci_op ..), ci_d, ci_a, ci_i]
    exact if_pos (by rw [Bool.and_eq_true]; exact ⟨h, rfl⟩)

theorem bmask_reg : ∀ a : BitVec 4, bit ((0 : BitVec 1) ++ a) 4 = false ∧ fld ((0 : BitVec 1) ++ a) 0 4 = a := by decide

theorem bmask (a : BitVec 4) (o : BitVec 16) : Statement (.bmask a o) :=
  of_ctrl rfl fun _ => by
    rw [major_19 _ (ci_op ..), ci_a, ci_i, ci_b25, ci_m, (bmask_reg a).1, (bmask_reg a).2]
    rfl

theorem mand (d a b : BitVec 4) : Statement (.mand d a b) :=
  of_ctrl rfl fun _ => by
    rw [major_20 _ (cm_op ..)]
    unfold decodeMask
    simp only [cm_d, cm_a, cm_b, cm_s, cm_f4, cm_f0]
    rfl

theorem mor (d a b : BitVec 4) : Statement (.mor d a b) :=
  of_ctrl rfl fun _ => by
    rw [major_20 _ (cm_op ..)]
    unfold decodeMask
    simp only [cm_d, cm_a, cm_b, cm_s, cm_f4, cm_f0]
    rfl

theorem mxor (d a b : BitVec 4) : Statement (.mxor d a b) :=
  of_ctrl rfl fun _ => by
    rw [major_20 _ (cm_op ..)]
    unfold decodeMask
    simp only [cm_d, cm_a, cm_b, cm_s, cm_f4, cm_f0]
    rfl

theorem mandn (d a b : BitVec 4) : Statement (.mandn d a b) :=
  of_ctrl rfl fun _ => by
    rw [major_20 _ (cm_op ..)]
    unfold decodeMask
    simp only [cm_d, cm_a, cm_b, cm_s, cm_f4, cm_f0]
    rfl

theorem mnot (d a : BitVec 4) : Statement (.mnot d a) :=
  of_ctrl rfl fun _ => by
    rw [major_20 _ (cm_op ..)]
    unfold decodeMask
    simp only [cm_d, cm_a, cm_b, cm_s, cm_f4, cm_f0]
    rfl

theorem mmov (d a : BitVec 4) : Statement (.mmov d a) :=
  of_ctrl rfl fun _ => by
    rw [major_20 _ (cm_op ..)]
    unfold decodeMask
    simp only [cm_d, cm_a, cm_b, cm_s, cm_f4, cm_f0]
    rfl

theorem mcnt (a : BitVec 4) (s : BitVec 5) : Statement (.mcnt a s) :=
  of_ctrl rfl fun _ => by
    rw [major_20 _ (cm_op ..)]
    unfold decodeMask
    simp only [cm_d, cm_a, cm_b, cm_s, cm_f4, cm_f0]
    rfl

theorem mfirst (a : BitVec 4) (s : BitVec 5) : Statement (.mfirst a s) :=
  of_ctrl rfl fun _ => by
    rw [major_20 _ (cm_op ..)]
    unfold decodeMask
    simp only [cm_d, cm_a, cm_b, cm_s, cm_f4, cm_f0]
    rfl

theorem mword_fields : ∀ w : BitVec 5, fld (w ++ (8 : BitVec 4)) 0 4 = 8 ∧ fld (w ++ (8 : BitVec 4)) 4 5 = w := by decide

theorem mwordR (a : BitVec 4) (s w : BitVec 5) : Statement (.mwordR a s w) :=
  of_ctrl rfl fun _ => by
    rw [major_20 _ (cm_op ..)]
    unfold decodeMask
    simp only [cm_d, cm_a, cm_b, cm_s, cm_f4, cm_f0, cm_b14, cm_b1, (mword_fields w).1, (mword_fields w).2]
    rfl

theorem mwordW (d : BitVec 4) (s w : BitVec 5) : Statement (.mwordW d s w) :=
  of_ctrl rfl fun _ => by
    rw [major_20 _ (cm_op ..)]
    unfold decodeMask
    simp only [cm_d, cm_a, cm_b, cm_s, cm_f4, cm_f0, cm_b14, cm_b1, (mword_fields w).1, (mword_fields w).2]
    rfl

theorem emit (a b t : BitVec 5) (m : BitVec 4) (push pop peek ret bar : Bool) : Statement (.emit a b t m push pop peek ret bar) :=
  of_ctrl rfl fun _ => by
    obtain ⟨h0, h1, h2, h3, h4, h5, h6, h7, h8, h9, h10⟩ := emit_fields a b t m push pop peek ret bar
    rw [major_24 _ h0, h1, h2, h3, h4, h5, h6, h7, h8, h9, h10]
    rfl

theorem rpop (d : BitVec 4) : Statement (.rpop d) :=
  of_ctrl rfl fun _ => by
    rw [major_25 _ (cm_op ..), rpop_low, cm_d]
    rfl

theorem divg (a : BitVec 4) : Statement (.divg a) :=
  by
  intro h c hc
  cases hc
  revert a
  decide +kernel

theorem low8 : ∀ n : BitVec 8, fld ((0 : BitVec 1) ++ n) 0 8 = n := by decide +kernel

theorem cm_n (op : BitVec 6) (d a b : BitVec 4) (s : BitVec 5) (n : BitVec 8) :
    fld (n := 32) (op ++ d ++ a ++ b ++ s ++ ((0 : BitVec 1) ++ n)) 0 8 = n := by
  rw [fld_append_low (h := by decide)]
  exact low8 n

theorem regroup (k : BitVec 4) (n : BitVec 8) : Statement (.regroup k n) :=
  of_ctrl rfl fun _ => by
    rw [major_27 _ (cm_op ..), cm_d, regroup_mid, cm_a, cm_n]
    rfl

theorem ewr (a : BitVec 5) (e : BitVec 8) : Statement (.ewr a e) :=
  of_ctrl rfl fun _ => by
    rw [major_2C _ (cx_op ..), cx_d, cx_a, cx_e, cx_f]
    rfl

theorem erd (d : BitVec 5) (e : BitVec 8) : Statement (.erd d e) :=
  of_ctrl rfl fun _ => by
    rw [major_2D _ (cx_op ..), cx_d, cx_a, cx_e, cx_f]
    rfl

theorem chan_fields : ∀ c : BitVec 3, fld (c ++ (0 : BitVec 5)) 5 3 = c ∧ fld ((0 : BitVec 5) ++ c) 0 3 = c := by decide

theorem ecommit (d : BitVec 5) (c : BitVec 3) : Statement (.ecommit d c) :=
  of_ctrl rfl fun _ => by
    rw [major_2E _ (cx_op ..), cx_d, cx_a, ecommit_low, cx_ch, (chan_fields c).1]
    rfl

theorem cwait (a : BitVec 5) (c s : BitVec 3) : Statement (.cwait a c s) :=
  of_ctrl rfl fun h => by
    rw [major_2F _ (cx_op ..), cx_d, cx_a, cwait_mid, cx_ch, cx_sc, (chan_fields c).1, (chan_fields s).2]
    exact if_pos h

theorem crd (d : BitVec 5) (e : BitVec 8) : Statement (.crd d e) :=
  of_ctrl rfl fun h => by
    rw [major_38 _ (cx_op ..), cx_d, cx_a, cx_e, cx_f]
    exact if_pos h

theorem cwr (a : BitVec 5) (e : BitVec 8) : Statement (.cwr a e) :=
  of_ctrl rfl fun h => by
    rw [major_39 _ (cx_op ..), cx_d, cx_a, cx_e, cx_f]
    exact if_pos h

theorem trap (k : BitVec 6) : Statement (.trap k) :=
  by
  intro h c hc
  cases hc
  revert k
  decide +kernel

theorem vnop (w : LaneWord) : Statement (.vnop w) :=
  of_lane rfl fun _ => rfl

theorem vadd (w : LaneWord) : Statement (.vadd w) :=
  of_lane rfl fun _ => rfl

theorem vsub (w : LaneWord) : Statement (.vsub w) :=
  of_lane rfl fun _ => rfl

theorem vmul (w : LaneWord) : Statement (.vmul w) :=
  of_lane rfl fun _ => rfl

theorem vmulh (w : LaneWord) : Statement (.vmulh w) :=
  of_lane rfl fun _ => rfl

theorem vmad (w : LaneWord) : Statement (.vmad w) :=
  of_lane rfl fun _ => rfl

theorem vand (w : LaneWord) : Statement (.vand w) :=
  of_lane rfl fun _ => rfl

theorem vor (w : LaneWord) : Statement (.vor w) :=
  of_lane rfl fun _ => rfl

theorem vxor (w : LaneWord) : Statement (.vxor w) :=
  of_lane rfl fun _ => rfl

theorem vandn (w : LaneWord) : Statement (.vandn w) :=
  of_lane rfl fun _ => rfl

theorem vshl (w : LaneWord) : Statement (.vshl w) :=
  of_lane rfl fun _ => rfl

theorem vshr (w : LaneWord) : Statement (.vshr w) :=
  of_lane rfl fun _ => rfl

theorem vsra (w : LaneWord) : Statement (.vsra w) :=
  of_lane rfl fun _ => rfl

theorem vmin (w : LaneWord) : Statement (.vmin w) :=
  of_lane rfl fun _ => rfl

theorem vmax (w : LaneWord) : Statement (.vmax w) :=
  of_lane rfl fun _ => rfl

theorem vabs (w : LaneWord) : Statement (.vabs w) :=
  of_lane rfl fun _ => rfl

theorem vneg (w : LaneWord) : Statement (.vneg w) :=
  of_lane rfl fun _ => rfl

theorem vclz (w : LaneWord) : Statement (.vclz w) :=
  of_lane rfl fun _ => rfl

theorem vpopc (w : LaneWord) : Statement (.vpopc w) :=
  of_lane rfl fun _ => rfl

theorem vsel (w : LaneWord) : Statement (.vsel w) :=
  of_lane rfl fun _ => rfl

theorem vmov (w : LaneWord) : Statement (.vmov w) :=
  of_lane rfl fun _ => rfl

theorem vbfx (w : LaneWord) : Statement (.vbfx w) :=
  of_lane rfl fun _ => rfl

theorem vbfi (w : LaneWord) : Statement (.vbfi w) :=
  of_lane rfl fun _ => rfl

theorem vcmp (w : LaneWord) : Statement (.vcmp w) :=
  of_lane rfl fun _ => rfl

theorem fadd (w : LaneWord) : Statement (.fadd w) :=
  of_lane rfl fun _ => rfl

theorem fsub (w : LaneWord) : Statement (.fsub w) :=
  of_lane rfl fun _ => rfl

theorem fmul (w : LaneWord) : Statement (.fmul w) :=
  of_lane rfl fun _ => rfl

theorem ffma (w : LaneWord) : Statement (.ffma w) :=
  of_lane rfl fun _ => rfl

theorem fmin (w : LaneWord) : Statement (.fmin w) :=
  of_lane rfl fun _ => rfl

theorem fmax (w : LaneWord) : Statement (.fmax w) :=
  of_lane rfl fun _ => rfl

theorem fabs (w : LaneWord) : Statement (.fabs w) :=
  of_lane rfl fun _ => rfl

theorem fneg (w : LaneWord) : Statement (.fneg w) :=
  of_lane rfl fun _ => rfl

theorem frcp (w : LaneWord) : Statement (.frcp w) :=
  of_lane rfl fun _ => rfl

theorem frsq (w : LaneWord) : Statement (.frsq w) :=
  of_lane rfl fun _ => rfl

theorem fexp2 (w : LaneWord) : Statement (.fexp2 w) :=
  of_lane rfl fun _ => rfl

theorem flog2 (w : LaneWord) : Statement (.flog2 w) :=
  of_lane rfl fun _ => rfl

theorem fcvt (w : LaneWord) : Statement (.fcvt w) :=
  of_lane rfl fun _ => rfl

theorem lcvt (w : LaneWord) : Statement (.lcvt w) :=
  of_lane rfl fun _ => rfl

theorem fcmp (w : LaneWord) : Statement (.fcmp w) :=
  of_lane rfl fun _ => rfl

theorem gadd (w : LaneWord) : Statement (.gadd w) :=
  of_lane rfl fun _ => rfl

theorem gsub (w : LaneWord) : Statement (.gsub w) :=
  of_lane rfl fun _ => rfl

theorem gand (w : LaneWord) : Statement (.gand w) :=
  of_lane rfl fun _ => rfl

theorem gor (w : LaneWord) : Statement (.gor w) :=
  of_lane rfl fun _ => rfl

theorem gxor (w : LaneWord) : Statement (.gxor w) :=
  of_lane rfl fun _ => rfl

theorem gandn (w : LaneWord) : Statement (.gandn w) :=
  of_lane rfl fun _ => rfl

theorem gshl (w : LaneWord) : Statement (.gshl w) :=
  of_lane rfl fun _ => rfl

theorem gshr (w : LaneWord) : Statement (.gshr w) :=
  of_lane rfl fun _ => rfl

theorem gmov (w : LaneWord) : Statement (.gmov w) :=
  of_lane rfl fun _ => rfl

theorem gpopc (w : LaneWord) : Statement (.gpopc w) :=
  of_lane rfl fun _ => rfl

theorem gfirst (w : LaneWord) : Statement (.gfirst w) :=
  of_lane rfl fun _ => rfl

theorem gld (w : LaneWord) : Statement (.gld w) :=
  of_lane rfl fun _ => rfl

theorem exmset (w : LaneWord) : Statement (.exmset w) :=
  of_lane rfl fun _ => rfl

theorem pret (w : LaneWord) : Statement (.pret w) :=
  of_lane rfl fun _ => rfl

theorem vote (w : LaneWord) : Statement (.vote w) :=
  of_lane rfl fun _ => rfl

theorem vshfl (w : LaneWord) : Statement (.vshfl w) :=
  of_lane rfl fun _ => rfl

theorem vbcast (w : LaneWord) : Statement (.vbcast w) :=
  of_lane rfl fun _ => rfl

theorem vred (w : LaneWord) : Statement (.vred w) :=
  of_lane rfl fun _ => rfl

theorem vscan (w : LaneWord) : Statement (.vscan w) :=
  of_lane rfl fun _ => rfl

theorem laneid (w : LaneWord) : Statement (.laneid w) :=
  of_lane rfl fun _ => rfl

theorem vld (w : LaneWord) : Statement (.vld w) :=
  of_lane rfl fun _ => rfl

theorem vst (w : LaneWord) : Statement (.vst w) :=
  of_lane rfl fun _ => rfl

theorem vldk (w : LaneWord) : Statement (.vldk w) :=
  of_lane rfl fun _ => rfl

theorem vlds (w : LaneWord) : Statement (.vlds w) :=
  of_lane rfl fun _ => rfl

theorem vsts (w : LaneWord) : Statement (.vsts w) :=
  of_lane rfl fun _ => rfl

theorem vldx (w : LaneWord) : Statement (.vldx w) :=
  of_lane rfl fun _ => rfl

theorem vatom (w : LaneWord) : Statement (.vatom w) :=
  of_lane rfl fun _ => rfl

theorem vatoms (w : LaneWord) : Statement (.vatoms w) :=
  of_lane rfl fun _ => rfl

theorem vfence (w : LaneWord) : Statement (.vfence w) :=
  of_lane rfl fun _ => rfl

theorem vxfence (w : LaneWord) : Statement (.vxfence w) :=
  of_lane rfl fun _ => rfl

theorem qpop (w : LaneWord) : Statement (.qpop w) :=
  of_lane rfl fun _ => rfl

theorem qpush (w : LaneWord) : Statement (.qpush w) :=
  of_lane rfl fun _ => rfl

theorem spawn (w : LaneWord) : Statement (.spawn w) :=
  of_lane rfl fun _ => rfl

theorem spflush (w : LaneWord) : Statement (.spflush w) :=
  of_lane rfl fun _ => rfl

theorem mmodeT (w : LaneWord) : Statement (.mmodeT w) :=
  of_lane rfl fun h => by
    have hb : bit w.x 0 = true := h
    change some (if bit w.x 0 then Instr.mmodeT w else Instr.mmodeV w) = _
    rw [hb]
    rfl

theorem mmodeV (w : LaneWord) : Statement (.mmodeV w) :=
  of_lane rfl fun h => by
    have hb : bit w.x 0 = false := by
      have h1 : (!bit w.x 0) = true := h
      simpa using h1
    change some (if bit w.x 0 then Instr.mmodeT w else Instr.mmodeV w) = _
    rw [hb]
    rfl

theorem mwait (w : LaneWord) : Statement (.mwait w) :=
  of_lane rfl fun _ => rfl

theorem mzero (w : LaneWord) : Statement (.mzero w) :=
  of_lane rfl fun _ => rfl

theorem acvt (w : LaneWord) : Statement (.acvt w) :=
  of_lane rfl fun _ => rfl

theorem tshape (w : LaneWord) : Statement (.tshape w) :=
  of_lane rfl fun _ => rfl

theorem sfmt (w : LaneWord) : Statement (.sfmt w) :=
  of_lane rfl fun _ => rfl

theorem xpat (w : LaneWord) : Statement (.xpat w) :=
  of_lane rfl fun _ => rfl

theorem srd (w : LaneWord) : Statement (.srd w) :=
  of_lane rfl fun _ => rfl

theorem swr (w : LaneWord) : Statement (.swr w) :=
  of_lane rfl fun _ => rfl

theorem vbrk (w : LaneWord) : Statement (.vbrk w) :=
  of_lane rfl fun _ => rfl

theorem vtrap (w : LaneWord) : Statement (.vtrap w) :=
  of_lane rfl fun _ => rfl

theorem mloop (w : LaneWord) (y : ContWord) : Statement (.mloop w y) :=
  of_double rfl (fun h => by
      have h1 : (!w.lit) = true := h
      simpa using h1) fun v z h1 h2 h3 h4 => by
    unfold decodeLane
    rw [h1, h2, h3, ← h4]
    rfl

theorem sunf (w : LaneWord) (y : ContWord) : Statement (.sunf w y) :=
  of_double rfl (fun h => by
      have h1 : (!w.lit) = true := h
      simpa using h1) fun v z h1 h2 h3 h4 => by
    unfold decodeLane
    rw [h1, h2, h3, ← h4]
    rfl

theorem paired (p : PairWord) : Statement (.paired p) :=
  by
  intro h c hc
  cases hc
  obtain ⟨k1, k2, k3⟩ := paired_fields p.hdr p.op1 p.op2 p.r0
  obtain ⟨n1, n2⟩ := packNarrow_fields p.op1 (encHdr p.hdr) 1 p.op2 p.r0
  change decodeLane _ none = _
  unfold decodeLane
  rw [k1, k2, k3, n1, n2]
  exact if_pos h

theorem cillop (w : BitVec 32) : Statement (.cillop w) :=
  of_ctrl rfl fun h => of_decide_eq_true h

theorem cresfield (w : BitVec 32) : Statement (.cresfield w) :=
  of_ctrl rfl fun h => of_decide_eq_true h

theorem illop (w : LaneBits) : Statement (.illop w) :=
  by
  intro h c hc
  cases hc
  exact of_decide_eq_true h

theorem launch (src : CmdSrc) (p : LaunchArgs) : Statement (.launch src p) :=
  of_none rfl

theorem copy (src : CmdSrc) (va : W64) (asid : BitVec 16) : Statement (.copy src va asid) :=
  of_none rfl

theorem map (src : CmdSrc) (p : MapArgs) : Statement (.map src p) :=
  of_none rfl

theorem unmap (src : CmdSrc) (va len : W64) (asid : BitVec 16) : Statement (.unmap src va len asid) :=
  of_none rfl

theorem partitionCreate (src : CmdSrc) (p : CreateArgs) : Statement (.partitionCreate src p) :=
  of_none rfl

theorem partitionDestroy (src : CmdSrc) : Statement (.partitionDestroy src) :=
  of_none rfl

theorem partitionPower (src : CmdSrc) (watts : BitVec 16) : Statement (.partitionPower src watts) :=
  of_none rfl

theorem partitionWatchdog (src : CmdSrc) (us : BitVec 32) : Statement (.partitionWatchdog src us) :=
  of_none rfl

theorem preempt (src : CmdSrc) (id : W32) : Statement (.preempt src id) :=
  of_none rfl

theorem debugHalt (src : CmdSrc) (id : W32) : Statement (.debugHalt src id) :=
  of_none rfl

theorem resume (src : CmdSrc) (id : W32) : Statement (.resume src id) :=
  of_none rfl

theorem resumeEnter (src : CmdSrc) (id : W32) (cluster : BitVec 16) (team : BitVec 8) : Statement (.resumeEnter src id cluster team) :=
  of_none rfl

theorem freeze (src : CmdSrc) (target : BitVec 8) (addr size : W64) : Statement (.freeze src target addr size) :=
  of_none rfl

theorem thaw (src : CmdSrc) (kind : BitVec 8) (addr : W64) : Statement (.thaw src kind addr) :=
  of_none rfl

theorem queryFeatures (src : CmdSrc) (buf : W64) : Statement (.queryFeatures src buf) :=
  of_none rfl

theorem queryStatus (src : CmdSrc) (buf : W64) : Statement (.queryStatus src buf) :=
  of_none rfl

theorem attest (src : CmdSrc) (nonce : BitVec 256) (buf : W64) : Statement (.attest src nonce buf) :=
  of_none rfl

theorem poolcfgMap (src : CmdSrc) (p : PoolArgs) : Statement (.poolcfgMap src p) :=
  of_none rfl

theorem poolcfgUnmap (src : CmdSrc) (p : PoolArgs) : Statement (.poolcfgUnmap src p) :=
  of_none rfl

theorem resetPartition (src : CmdSrc) : Statement (.resetPartition src) :=
  of_none rfl

theorem resetModule (src : CmdSrc) : Statement (.resetModule src) :=
  of_none rfl

theorem notify (page : Nat) (v : W64) : Statement (.notify page v) :=
  of_none rfl

theorem evcons (page : Nat) (v : W64) : Statement (.evcons page v) :=
  of_none rfl

theorem mrtable (v : W64) : Statement (.mrtable v) :=
  of_none rfl

theorem bar0OtherWrite (page off : Nat) (v : W64) : Statement (.bar0OtherWrite page off v) :=
  of_none rfl

theorem engineRetry (core ch : Nat) : Statement (.engineRetry core ch) :=
  of_none rfl

theorem engineSkip (core ch : Nat) : Statement (.engineSkip core ch) :=
  of_none rfl

theorem frdataRead (d : BitVec 5) : Statement (.frdataRead d) :=
  of_none rfl

theorem blockFetch (page ring : Nat) : Statement (.blockFetch page ring) :=
  of_none rfl

theorem tagMismatch (page ring : Nat) : Statement (.tagMismatch page ring) :=
  of_none rfl

theorem coalescingDelayExpiry (page ring : Nat) : Statement (.coalescingDelayExpiry page ring) :=
  of_none rfl

theorem powerSample (watts : Nat) : Statement (.powerSample watts) :=
  of_none rfl

theorem thermalThrottle (die temp : Nat) : Statement (.thermalThrottle die temp) :=
  of_none rfl

theorem thermalTrip (die temp : Nat) : Statement (.thermalTrip die temp) :=
  of_none rfl

theorem powerOn (ok : Bool) : Statement (.powerOn ok) :=
  of_none rfl

theorem deckTrainingComplete (deck : Nat) : Statement (.deckTrainingComplete deck) :=
  of_none rfl

theorem deckTrainingFailed (deck : Nat) : Statement (.deckTrainingFailed deck) :=
  of_none rfl

theorem launchPlace (part : Nat) : Statement (.launchPlace part) :=
  of_none rfl

theorem launchComplete (part : Nat) (id : W32) : Statement (.launchComplete part id) :=
  of_none rfl

theorem descriptorVisible (core ctx group : Nat) : Statement (.descriptorVisible core ctx group) :=
  of_none rfl

theorem barrierRelease (core ctx : Nat) : Statement (.barrierRelease core ctx) :=
  of_none rfl

theorem stalledEmitRetire (core ctx : Nat) : Statement (.stalledEmitRetire core ctx) :=
  of_none rfl

theorem returnReady (core ctx : Nat) : Statement (.returnReady core ctx) :=
  of_none rfl

theorem varResultWritten (core ctx group idx : Nat) : Statement (.varResultWritten core ctx group idx) :=
  of_none rfl

theorem tlbWalkComplete (core ctx : Nat) (group : Option Nat) : Statement (.tlbWalkComplete core ctx group) :=
  of_none rfl

theorem qpopTake (core queue : Nat) : Statement (.qpopTake core queue) :=
  of_none rfl

theorem qpushEnter (core ctx group : Nat) : Statement (.qpushEnter core ctx group) :=
  of_none rfl

theorem remoteScratchpadAccess (core ctx group idx : Nat) : Statement (.remoteScratchpadAccess core ctx group idx) :=
  of_none rfl

theorem remoteStoreAck (core ctx group idx : Nat) : Statement (.remoteStoreAck core ctx group idx) :=
  of_none rfl

theorem fenceWorkDone (core ctx : Nat) (group : Option Nat) : Statement (.fenceWorkDone core ctx group) :=
  of_none rfl

theorem ifenceComplete (core ctx : Nat) : Statement (.ifenceComplete core ctx) :=
  of_none rfl

theorem ktrigComplete (core ctx : Nat) : Statement (.ktrigComplete core ctx) :=
  of_none rfl

theorem kwaitSatisfied (core ctx : Nat) : Statement (.kwaitSatisfied core ctx) :=
  of_none rfl

theorem jwaitZero (core ctx : Nat) : Statement (.jwaitZero core ctx) :=
  of_none rfl

theorem exitComplete (core ctx : Nat) : Statement (.exitComplete core ctx) :=
  of_none rfl

theorem regroupMigration (core ctx : Nat) : Statement (.regroupMigration core ctx) :=
  of_none rfl

theorem spawnRecordsAccepted (core ctx group : Nat) : Statement (.spawnRecordsAccepted core ctx group) :=
  of_none rfl

theorem spillWriteComplete (core ctx group : Nat) : Statement (.spillWriteComplete core ctx group) :=
  of_none rfl

theorem gathererRefill (core : Nat) : Statement (.gathererRefill core) :=
  of_none rfl

theorem gathererIdleTimeout (core : Nat) : Statement (.gathererIdleTimeout core) :=
  of_none rfl

theorem childTeamStart (core : Nat) : Statement (.childTeamStart core) :=
  of_none rfl

theorem transferStart (core ch : Nat) : Statement (.transferStart core ch) :=
  of_none rfl

theorem lineLanded (core ch line : Nat) : Statement (.lineLanded core ch line) :=
  of_none rfl

theorem transferComplete (core ch : Nat) : Statement (.transferComplete core ch) :=
  of_none rfl

theorem transferHalt (core ch : Nat) : Statement (.transferHalt core ch) :=
  of_none rfl

theorem matrixLoopStep (core ctx group : Nat) : Statement (.matrixLoopStep core ctx group) :=
  of_none rfl

theorem matrixLoopComplete (core ctx group : Nat) : Statement (.matrixLoopComplete core ctx group) :=
  of_none rfl

theorem routineEntry (core ctx : Nat) : Statement (.routineEntry core ctx) :=
  of_none rfl

theorem watchdog (core ctx : Nat) : Statement (.watchdog core ctx) :=
  of_none rfl

theorem bisnpReceived (line : Nat) : Statement (.bisnpReceived line) :=
  of_none rfl

theorem poolLinkDown (port : Nat) : Statement (.poolLinkDown port) :=
  of_none rfl

theorem poolRequestTimeout (port : Nat) : Statement (.poolRequestTimeout port) :=
  of_none rfl

theorem poolIdeFailure (port : Nat) : Statement (.poolIdeFailure port) :=
  of_none rfl

theorem uncorrectableError (loc : ErrLoc) : Statement (.uncorrectableError loc) :=
  of_none rfl

theorem secondTierOrPoolPortTrained (what : Trained) : Statement (.secondTierOrPoolPortTrained what) :=
  of_none rfl

theorem powerLimitStop : Statement (.powerLimitStop) :=
  of_none rfl

theorem powerLimitResume : Statement (.powerLimitResume) :=
  of_none rfl

theorem hostRestart : Statement (.hostRestart) :=
  of_none rfl

theorem singleBitError : Statement (.singleBitError) :=
  of_none rfl

end Laws.DecodeEncode

end Sys2Proof
end

