-- ==== Sys2Proof/Tests/Slice0.lean ====
section
/-! SUPPORT. Tests: words written out from the encoding tables, ill-formed terms refused, results the manual works out, and for
every statement with hypotheses a state and operands that meet them. -/

namespace Sys2Proof.Tests

open Sys2Proof Sys2Proof.Machine Sys2Proof.Claims

set_option Elab.async false

/-! ### Decoding: words written out from 09 R234-R249, and the worked encodings of 12 to 15 -/

theorem test_decode_integer_group : decodeCtrl 0x00A63800 = .add 5 6 7 ∧ decodeCtrl 0x00642814 = .div 3 4 5 true ∧
    decodeCtrl 0x0129406B = .sraImm 9 9 40 ∧ decodeCtrl 0 = .nop := by decide +kernel

theorem test_decode_immediate_group : decodeCtrl 0x05400040 = .addi 10 0 64 ∧ decodeCtrl 0x0D4A1234 = .ori 10 10 0x1234 ∧
    decodeCtrl 0x19400012 = .lui 10 0x12 := by decide +kernel

theorem test_decode_memory : decodeCtrl 0x20B0A000 = .ld 5 16 5 0 ∧ decodeCtrl 0x20645FFE = .ld 3 4 2 0x1FFE ∧
    decodeCtrl 0x24F0A004 = .st 7 16 5 4 ∧ decodeCtrl 0x28E3C008 = .ldk 7 3 6 8 := by decide +kernel

theorem test_decode_branches : decodeCtrl 0x40200005 = .jal 1 5 ∧ decodeCtrl 0x4C80FFFD = .bne 4 0 0xFFFD ∧
    decodeCtrl 0xC8040008 = .jwait 4 8 := by decide +kernel

theorem test_decode_masks : decodeCtrl 0x80D14000 = .mand 3 4 5 ∧ decodeCtrl 0x80100A06 = .mcnt 4 5 ∧
    decodeCtrl 0x80804C38 = .mwordW 2 6 3 := by decide +kernel

theorem test_decode_system : decodeCtrl 0xE8000005 = .trap 5 ∧ decodeCtrl 0xE0A00300 = .crd 5 3 ∧ decodeCtrl 0xC0000000 = .ktrig := by
  decide +kernel

theorem test_decode_reserved : decodeCtrl 0x0000000F = .cillop 0x0000000F ∧ decodeCtrl 0x00000081 = .cresfield 0x00000081 ∧
    decodeCtrl 0x2000E000 = .cresfield 0x2000E000 ∧ decodeCtrl 0xFC000000 = .cillop 0xFC000000 := by decide +kernel

theorem test_decode_lane_words :
    decodeLane 0x0200100C0E00000000000000 none = some (.gadd (bareWord 8 6 7)) ∧
    decodeLane 0x0218000C0000000000000000 none = some (.exmset (bareWord 0 6 0)) ∧
    decodeLane 0x050A00000000000000000000 none = some (.spflush (bareWord 0 0 0)) ∧
    decodeLane 0x03060C0A0000000000000008 none = some (.vscan { bareWord 6 5 0 with x := 8 }) := by decide +kernel

/-- MMODE.v is OPC 0x300 with X zero; MLOOP's OPC 0x301 stands only in a double; its lead has KIND 3. -/
theorem test_decode_truss_words :
    decodeLane 0x060000000000000000000000 none = some (.mmodeV (bareWord 0 0 0)) ∧
    decodeLane 0x060000000000000000000001 none = some (.mmodeT { bareWord 0 0 0 with x := 1 }) ∧
    decodeLane 0x060200000000000000000000 none = some (.illop 0x060200000000000000000000) ∧
    decodeLane 0x1E0200000000000000000000 (some 0x580000000000002000000020) =
      some (.mloop (bareWord 0 0 0) { hdr := header false true false, kind := 3, body := 0x2000000020 }) := by decide +kernel

/-- A LAUNCH block (11 R322, R325): opcode 1, version 1, size 64, tag 1, image 0x1000. -/
theorem test_decode_launch : decodeTableWord 512 (1 + 2 ^ 16 + 64 * 2 ^ 32 + 2 ^ 48 + 0x1000 * 2 ^ 128 + 2 ^ 336) =
    some (.launch { page := 0, ring := 0, pos := 1, part := 0 } { image := 0x1000, spill := 0, arg := 0, asid := 0, clusters := 1, teams := 0, priority := 0, debug := false, groups := 0, queues := 0, producers := [0, 0, 0, 0] }) := by decide +kernel

/-! ### Ill-formed terms -/

theorem test_wf_reserved_size : (Instr.ld 1 2 7 0).wf = false ∧ (Instr.st 1 2 7 0).wf = false ∧ (Instr.ldk 1 2 7 0).wf = false := by decide +kernel

theorem test_wf_nop_spelling : (Instr.add 0 0 0).wf = false ∧ (Instr.add 0 0 1).wf = true := by decide +kernel

theorem test_wf_fences : (Instr.fence 0 1).wf = false ∧ (Instr.fence 7 1).wf = false ∧ (Instr.fence 1 0).wf = false ∧
    (Instr.xfence 1 5 0).wf = false ∧ (Instr.cwait 1 0 0).wf = false ∧ (Instr.xfence 6 4 0).wf = true := by decide +kernel

theorem test_wf_registers : (Instr.cloop 0 1).wf = false ∧ (Instr.crd 1 0x10).wf = false ∧ (Instr.cwr 1 0x10).wf = false := by decide +kernel

theorem test_wf_lane_words : (Instr.mmodeT (bareWord 0 0 0)).wf = false ∧ (Instr.mmodeV { bareWord 0 0 0 with x := 1 }).wf = false ∧
    (Instr.mloop { bareWord 0 0 0 with lit := true } { hdr := header false false false, kind := 3, body := 0 }).wf = false ∧
    (Instr.sunf { bareWord 0 0 0 with lit := true } { hdr := header false false false, kind := 3, body := 0 }).wf = false ∧
    (Instr.paired (barePair (bareNarrow 0 0 0 0 0) (bareNarrow 1 0 0 0 0))).wf = false := by decide +kernel

theorem test_wf_trapping_rows : (Instr.cillop 0).wf = false ∧ (Instr.cresfield 0).wf = false ∧
    (Instr.illop 0).wf = false ∧ (Instr.powerLimitStop).wf = false := by decide +kernel

/-! ### The small machine of the witnesses -/

/-- A team of one group whose running block stands at its start. -/
def team : Ctx := { placeCtx true with trapVec := 0x40, saveVec := 0x80, restVec := 0xC0 }

/-- A machine of one core with the team in context 0, its first page held by the TLBs. -/
def world (x : Ctx) : State :=
  { placeProgram State.reset true [] with
    agenda := []
    cores := [{ Core.idle with
      ctxs := [x]
      tlb := [⟨0, 0, none⟩, ⟨0, 511, none⟩]
      lanesets := Core.idle.lanesets.set 0 { running := some (0, 0), truss := none, trussWait := [] } }] }

/-- The team with values in scalar registers. -/
def withS (x : Ctx) (l : List (Nat × W64)) : Ctx := { x with s := l.foldl (fun r p => r.set p.1 p.2) x.s }

def withStream (x : Ctx) (f : Stream → Stream) : Ctx := { x with strm := f x.strm }

/-- A stream of no descriptors. -/
def quiet (x : Ctx) : Ctx := withStream x (fun st => { st with blockQ := [] })

/-- The state an outcome goes on to. -/
def went (o : Host.Outcome State Machine.Fault Refusal) : Option State := match o with | .next t => some t | _ => none

/-- A vector register whose lane i holds f i. -/
def lanes (f : Nat → Nat) : VReg := (List.range 32).map (fun i => BitVec.ofNat 36 (f i))

/-- The team with values in the vector and group scalar registers of its group. -/
def withV (x : Ctx) (vs : List (Nat × VReg)) (gs : List (Nat × W32)) : Ctx :=
  { x with groups := x.groups.map (fun g => { g with
      vregs := vs.foldl (fun r p => r.set p.1 p.2) g.vregs, gregs := gs.foldl (fun r p => r.set p.1 p.2) g.gregs }) }

/-- The group of the witnesses' team. -/
def group0 (x : Ctx) : Machine.Group := x.group 0

/-- A one-slot word. -/
def wordOf (d a b c : BitVec 8) (ty : BitVec 4) (md : BitVec 3) (x : W32) : LaneWord :=
  { bareWord d a b with c := c, ty := ty, md := md, x := x }

/-- What the pending writes of the acting group hold: register, slots left, and the values of the first lanes. -/
def pending (n : Nat) (o : Host.Outcome State Machine.Fault Refusal) : List (Nat × Nat × List Elem × W64) :=
  ((went o).map (fun t => (myGroup t).pos.pend.map (fun p => (p.reg, p.left, p.vals.take n, p.word)))).getD []

theorem flagsOf_const {e : Env} {w : LaneWord} {f : Nat → Nat → W32} {fl : W32} (h : ∀ r, r < e.rows w → ∀ i, i < 32 → f r i = fl)
    (hr : 0 < e.rows w) (ha : (e.lanes w).getLsbD 0 = true) : FlagsOf e w f fl := by
  intro k
  constructor
  · intro hk
    exact ⟨0, 0, hr, by omega, ha, by rw [h 0 hr 0 (by omega)]; exact hk⟩
  · rintro ⟨r, i, hr', hi, -, hk⟩
    rwa [h r hr' i hi] at hk

/-- What a word of the team's group sees. -/
def env (x : Ctx) : Env := Env.of (world x) x (group0 x)

/-! ### Witnesses: the control stream -/

def nums : Ctx := withS team [(5, 0xFFFFFFFFFFFFFFFF), (6, 2), (7, 0x8000000000000000)]

/-- A sum that wraps, a high product, a division by zero and one that overflows; s0 as destination. -/
theorem witness_IntegerResults :
    Acts (world nums) nums [5, 6] [] ∧ intResult (.add 8 5 6) nums = some (8, [5, 6], 1) ∧
    intResult (.mulh 8 5 6 true) nums = some (8, [5, 6], 1) ∧ intResult (.div 8 5 0 false) nums = some (8, [5, 0], 0xFFFFFFFFFFFFFFFF) ∧
    intResult (.div 8 7 5 false) nums = some (8, [7, 5], 0x8000000000000000) ∧ intResult (.lui 0 0x8000) nums = some (0, [], 0xFFFFFFFF80000000) := by
  unfold Acts; constructorm* _ ∧ _ <;> decide +kernel

theorem test_add_wraps : went (exec (.add 8 5 6) (world nums)) = some ((world nums).setMe (retired (nums.wr 8 1 false) 1)) := by decide +kernel

theorem witness_ScalarRegisterWrites : nums.s.length = 32 ∧ nums.spoison.length = 32 ∧ (31 : BitVec 5) ≠ 0 ∧ (31 : BitVec 5) ≠ 30 := by
  decide +kernel

theorem witness_BranchesAndLoops :
    Acts (world nums) nums [5] [] ∧ Acts (world nums) nums [] [0] ∧ Acts (world nums) nums [7, 5] [] ∧
    jumpResult (.jalr 1 5 2) nums = some ([5], some (1, 1), 1) ∧ jumpResult (.blt 7 5 0xFFFF) nums = some ([7, 5], none, 0xFFFFFFFFFFFFFFFF) ∧
    jumpResult .nop nums = some ([], none, 1) := by unfold Acts; constructorm* _ ∧ _ <;> decide +kernel

theorem witness_MaskWords :
    Acts (world nums) nums [] [0, 15] ∧ Acts (world nums) nums [] [15] ∧ Acts (world nums) nums [5] [] ∧
    (maskResult (.mandn 2 0 15) nums).map (fun r => (r.1, r.2.1)) = some ([0, 15], 2) ∧
    maskCount (.mfirst 15 4) nums = some (15, 4, 1024) ∧ maskCount (.mwordR 15 4 31) nums = some (15, 4, 0) := by
  unfold Acts; constructorm* _ ∧ _ <;> decide +kernel

theorem witness_PlainControlFrame :
    plainWrites (.cloop 6 0xFFFF) = some ([6], [], false, true) ∧
    Acts (world nums) nums (plainReads (.cloop 6 0xFFFF) nums).1 (plainReads (.cloop 6 0xFFFF) nums).2 ∧
    went (exec (.cloop 6 0xFFFF) (world nums)) = some ((world nums).setMe { retired (nums.wr 6 1 false) 0xFFFFFFFFFFFFFFFF with
      strm := { nums.strm with rotb := 63 } }) := by unfold Acts; constructorm* _ ∧ _ <;> decide +kernel

/-- Beyond 2^56, misaligned, unmapped, forbidden, a partition without the page, and allowed. -/
theorem witness_AccessChecks :
    translate (world team) 0 0x1FFFFF = some (0x1FFFFF, 0x3D) ∧ translate (world team) 0 0x200000 = none ∧
    permOk .rd 0x3D = true ∧ permOk .wr 0x35 = false ∧
    (∀ p, (world team).partition 0 = some p → owns (world team) p 0x1FFFFF = true) ∧ (world team).partition 1 = none ∧
    checkAccess (world team) 0 0 .rd pathC 0x1FFFF8 8 false = .ok 0x1FFFF8 := by
  refine ⟨by decide +kernel, by decide +kernel, by decide, by decide, ?_, by decide +kernel, by decide +kernel⟩
  intro p hp
  have h : (world team).partition 0 = some placePart := by decide +kernel
  rw [h] at hp
  cases hp
  decide +kernel

/-- Context 0 of core 0 on a path. -/
def own (p : Path) : Agent := { core := 0, ctx := 0, grp := none, path := p }

/-- A write that replaced one byte. -/
def replaced (o : Agent) (scratch : Option Nat) (a : Nat) (was : Byte) : Late :=
  { agent := o, order := 0, rmw := false, scratch := scratch, cells := [(a, was, none)], before := [], read := [], shown := [] }

/-- A store of one byte in its agent's queue. -/
def stored (o : Agent) (scratch : Option Nat) (a : Nat) (v : Byte) : Store :=
  { agent := o, order := 0, host := false, toward := [], scratch := scratch, cells := [(a, v)], poison := none }

/-- A byte that the engine wrote and then a group of context 0, and one that context 0 has in its queue. -/
def masked (x : Ctx) : State :=
  { world x with
    queue := [stored (own .c) none 0x804 9]
    late := [replaced (own .x) none 0x800 5, replaced (groupPath 0 0 0 .l) none 0x800 7] }

/-- The control slice sees none of the two writes; the group sees its own, the engine the first alone; the queued store is its agent's. -/
theorem witness_MemoryReadAfterWrite :
    Memory.wf (world team) = true ∧ (world team).poolLines = [] ∧ tierOf (world team) 0x800 ≠ .hole ∧
    (∃ q, (masked team).queue = [] ++ q :: [] ∧ q.agent = own .c ∧ q.scratch = none ∧ q.cells = [(0x804, 9)]) ∧
    (replaced (own .x) none 0x800 5).visible (own .c) = false ∧ (replaced (groupPath 0 0 0 .l) none 0x800 7).visible (own .c) = false ∧
    (replaced (own .x) none 0x800 5).visible (own .x) = true ∧ (replaced (groupPath 0 0 0 .l) none 0x800 7).visible (own .x) = false ∧
    Machine.seenByte (masked team) (own .c) none 0x800 = 5 ∧ Machine.seenByte (masked team) (own .x) none 0x800 = 7 ∧
    Machine.seenByte (masked team) (own .c) none 0x804 = 9 ∧ Machine.seenByte (masked team) (own .l) none 0x804 = 0 :=
  ⟨by decide +kernel, rfl, by decide +kernel, ⟨_, rfl, rfl, rfl, rfl⟩, by decide, by decide, by decide, by decide,
    by decide +kernel, by decide +kernel, by decide +kernel, by decide +kernel⟩

theorem test_store_queue : (went (exec (.ld 3 4 0 0) (masked (withS team [(4, 0x800)])))).map (fun t => (mine t).rd 3) = some 5 := by
  decide +kernel

def ptrs : Ctx := withS team [(4, 0x1FFFF8), (5, 0xFF), (6, 1), (9, 0x200000), (10, 2), (11, 3)]

theorem witness_LoadResults :
    Acts (world ptrs) ptrs [4] [] ∧ szCode 6 = some (8, false) ∧ Reaches (world ptrs) ptrs .rd (ptrs.rd 4 + (0 : BitVec 13).signExtend 64) 8 false 0x1FFFF8 ∧
    szCode 1 = some (1, true) ∧ Reaches (world ptrs) ptrs .rd (ptrs.rd 4 + (7 : BitVec 13).signExtend 64) 1 false 0x1FFFFF := by
  unfold Acts Reaches; constructorm* _ ∧ _ <;> decide +kernel

theorem memoryOk_world (x : Ctx) : MemoryOk (world x) := by
  constructor
  · rfl
  · intro l hl
    cases hl

theorem witness_StoreResult :
    Acts (world ptrs) ptrs [4] [] ∧ MemoryOk (world ptrs) ∧ szCode 2 = some (2, false) ∧
    Reaches (world ptrs) ptrs .wr (ptrs.rd 4 + (6 : BitVec 13).signExtend 64) 2 false 0x1FFFFE := by
  refine ⟨?_, memoryOk_world _, ?_, ?_⟩
  · unfold Acts; constructorm* _ ∧ _ <;> decide +kernel
  · decide
  · unfold Reaches; constructorm* _ ∧ _ <;> decide +kernel

/-- An addition, and a compare that fails (memory reads 0, s[8] holds 1). -/
theorem witness_AtomicResults :
    amoParts (.amoMin 8 4 5 true false) = some (.min, 8, 4, 5, true, false) ∧ amoParts (.amoCas 6 4 5 false) = some (.cas, 6, 4, 5, false, false) ∧
    Acts (world ptrs) ptrs [4, 5, 6] [] ∧ Reaches (world ptrs) ptrs .at (ptrs.rd 4) 8 true 0x1FFFF8 ∧
    Reaches (world ptrs) ptrs .at (ptrs.rd 4) 4 true 0x1FFFF8 ∧ inHost (world ptrs) 0x1FFFF8 = false ∧
    amoStores .cas 4 false (leValue (world ptrs) 0x1FFFF8 4) 0xFF 1 = none := by
  unfold Acts Reaches; constructorm* _ ∧ _ <;> decide +kernel

def badPtr : Ctx := { withStream (withS team [(4, 0x1FFFF9), (9, 0x200000)]) (fun st => { st with mpoison := 8 }) with
  spoison := team.spoison.set 5 (some 0x177) }

/-- A machine whose page at 0 lies in host memory. -/
def hosted (x : Ctx) : State :=
  { world x with spaces := [{ asid := 0, ptes := [{ level := 1, idx := 0, word := 0x800000000003D }] }] }

/-- A misaligned load, an unmapped atomic, a minimum in host memory, and scalar and mask registers that hold poisoned data. -/
theorem witness_ControlFaultsTrap :
    Acts (world badPtr) badPtr [4] [] ∧ Acts (world badPtr) badPtr [9, 4] [] ∧ Trappable badPtr ∧
    scalarAccess (.ld 5 4 6 0) badPtr = some (4, 0x1FFFF9, .rd, 8, pathC, false) ∧
    (∃ f, checkAccess (world badPtr) 0 0 .rd pathC 0x1FFFF9 8 false = .error f) ∧
    (∃ f, checkAccess (world badPtr) 0 0 .at pathC (badPtr.rd 9) 8 true = .error f) ∧
    amoParts (.amoMin 8 6 9 true false) = some (.min, 8, 6, 9, true, false) ∧ Acts (hosted badPtr) badPtr [6, 9] [] ∧
    (∃ pa, checkAccess (hosted badPtr) 0 0 .at pathC (badPtr.rd 6) 8 true = .ok pa ∧ inHost (hosted badPtr) pa = true) ∧
    tlbMisses (hosted badPtr) 0 0 [badPtr.rd 6] = [] ∧
    controlReads (.add 8 5 6) = some ([5, 6], []) ∧ poisonCause badPtr [5, 6] [] = some 0x177 ∧
    controlReads (.mand 1 2 3) = some ([], [2, 3]) ∧ poisonCause badPtr [] [2, 3] = some 0x177 := by
  refine ⟨?_, ?_, ?_, by decide +kernel, ⟨_, rfl⟩, ⟨_, rfl⟩, rfl, ?_, ⟨hostBase, by decide +kernel, by decide +kernel⟩, by decide +kernel,
    rfl, by decide +kernel, rfl, by decide +kernel⟩
  rotate_left 3
  · unfold Acts; constructorm* _ ∧ _ <;> decide +kernel
  · unfold Acts; constructorm* _ ∧ _ <;> decide +kernel
  · unfold Acts; constructorm* _ ∧ _ <;> decide +kernel
  · unfold Trappable; decide +kernel

def emitter : Ctx := withStream (withS team [(4, 0xFFFFFF), (5, 0x100000002), (6, 0xFFFF)]) (fun st => { st with
  blockQ := List.replicate 255 placeDesc, fmtDepth := 16, returnQ := List.replicate 15 { seq := 0, time := 0, words := [none], poison := [none] } })

/-- A last free place of the block queue and of the return queue, and an FMT popped, pushed and peeked at depth 16. -/
theorem witness_EmitAppendsDescriptor :
    Acts (world emitter) emitter [4, 5, 6] [0] ∧ emitter.strm.blockQ.length < 256 ∧ (emitter.rd 4).toNat < 2 ^ 24 ∧
    (emitter.rd 6).toNat < 2 ^ 16 ∧ emitter.strm.returnQ.length < 16 ∧ 0 < emitter.strm.fmtDepth ∧
    emitter.strm.fmtDepth - true.toNat ≠ 16 ∧ 0 < emitter.strm.fmtDepth - true.toNat + true.toNat := by
  unfold Acts; constructorm* _ ∧ _ <;> decide +kernel

theorem test_emit : (went (exec (.emit 4 5 6 0 true true true true false) (world emitter))).map (fun t =>
    ((mine t).strm.blockQ.getLast?.map (fun d => (d.block, d.arg0, d.arg1, d.trip)), (mine t).strm.fmtDepth, (mine t).strm.returnQ.length)) =
    some (some (0xFFFFFF, 2, 1, 0xFFFF), 16, 16) := by decide +kernel

def fullQueue : Ctx := withStream team (fun st => { st with blockQ := List.replicate 256 placeDesc })
def bigIndex : Ctx := withS team [(4, 0x1000000)]
def fullReturns : Ctx := withStream team (fun st => { st with returnQ := List.replicate 16 { seq := 0, time := 0, words := [none], poison := [none] }, fmtDepth := 16 })
def lastToken : Token := { saved := 3, els := 1, phase := true, poison := false }
def badToken : Ctx := withStream team (fun st => { st with recon := [{ lastToken with poison := true }] })
def fullTokens : Ctx := withStream team (fun st => { st with recon := List.replicate 16 lastToken })

/-- A full block queue; a block index of 2^24; sixteen return entries; a pop of nothing; sixteen tokens; none; a token whose else
part ran. -/
theorem witness_EmissionTraps :
    Acts (world fullQueue) fullQueue [4, 5, 6] [0] ∧ 256 ≤ fullQueue.strm.blockQ.length ∧ Trappable bigIndex ∧
    Acts (world bigIndex) bigIndex [4, 5, 6] [0] ∧ 2 ^ 24 ≤ (bigIndex.rd 4).toNat ∧ Acts (world fullReturns) fullReturns [4, 5, 6] [0] ∧
    Trappable fullReturns ∧ 16 ≤ fullReturns.strm.returnQ.length ∧ fullReturns.strm.recon.length < 16 ∧ fullReturns.strm.fmtDepth = 16 ∧
    team.strm.fmtDepth = 0 ∧ Trappable team ∧ Acts (world team) team [4, 5, 6] [0] ∧ Acts (world fullTokens) fullTokens [] [0] ∧
    16 ≤ fullTokens.strm.recon.length ∧ Trappable fullTokens ∧ team.strm.recon = [] ∧
    fullTokens.strm.recon = lastToken :: List.replicate 15 lastToken ∧ lastToken.phase = true ∧ lastToken.poison = false ∧
    Acts (world badToken) badToken [] [] ∧ Trappable badToken ∧ badToken.strm.blockQ.length < 256 ∧
    badToken.strm.recon = [{ lastToken with poison := true }] := by
  unfold Acts Trappable; constructorm* _ ∧ _ <;> decide +kernel

def firstToken : Token := { saved := 3, els := 1, phase := false, poison := false }
def diverged : Ctx := withStream team (fun st => { st with recon := List.replicate 15 firstToken, fmtDepth := 15 })

theorem witness_DivergenceMarkers :
    Acts (world diverged) diverged [] [15] ∧ diverged.strm.blockQ.length < 256 ∧ diverged.strm.recon.length < 16 ∧
    diverged.strm.fmtDepth ≠ 16 ∧ diverged.strm.recon = firstToken :: List.replicate 14 firstToken ∧ firstToken.phase = false ∧
    firstToken.poison = false ∧
    diverged.strm.fmtDepth ≠ 0 := by
  unfold Acts; constructorm* _ ∧ _ <;> decide +kernel

def readyEntry : RetEntry := { seq := 0, time := 0, words := [some 5], poison := [none] }
def returned : Ctx := withStream team (fun st => { st with returnQ := [readyEntry] })
def unreturned : Ctx := withStream team (fun st => { st with returnQ := [{ seq := 1, time := 0, words := [none], poison := [none] }] })

def badReturn : Ctx := withStream team (fun st => { st with returnQ := [{ readyEntry with poison := [some (0x176, 0)] }] })

theorem witness_RpopTakesOldestEntry :
    (∀ p ∈ readyEntry.poison, p = none) ∧ (world badReturn).me? = some badReturn ∧ Trappable badReturn ∧
    [(some (0x176, 0) : Option (Nat × W64))].findSome? id = some (0x176, 0) ∧
    (world returned).me? = some returned ∧ returned.strm.returnQ = [readyEntry] ∧ readyEntry.words.length ≤ 32 ∧
    (∀ w ∈ readyEntry.words, w.isSome = true) ∧ (world unreturned).me? = some unreturned ∧
    unreturned.strm.returnQ = [{ seq := 1, time := 0, words := [none], poison := [none] }] ∧ (world team).me? = some team ∧ team.strm.returnQ = [] ∧ Trappable team := by
  refine ⟨by decide, by decide +kernel, ?_, rfl, by decide +kernel, rfl, by decide, by simp [readyEntry], by decide +kernel, rfl,
    by decide +kernel, rfl, ?_⟩
  all_goals unfold Trappable; decide +kernel

def openDivergence : Ctx := withStream team (fun st => { st with recon := [lastToken] })

/-- A count of N; one beyond N; a divergence left open; a full block queue; a routine. -/
theorem witness_RegroupPlacesMarker :
    Acts (world team) team [] [3] ∧ team.mode = .user ∧ (31 : BitVec 8).toNat + 1 ≤ team.n ∧ team.strm.recon = [] ∧
    team.strm.blockQ.length < 256 ∧ Acts (world fullQueue) fullQueue [] [3] ∧ 256 ≤ fullQueue.strm.blockQ.length ∧
    fullQueue.strm.recon = [] ∧ Trappable team ∧ team.n < (32 : BitVec 8).toNat + 1 ∧ Acts (world openDivergence) openDivergence [] [3] ∧
    Trappable openDivergence ∧ openDivergence.strm.recon ≠ [] ∧ Acts (world { team with mode := .trap }) { team with mode := .trap } [] [3] ∧
    ({ team with mode := .trap } : Ctx).mode ≠ .user := by
  unfold Acts Trappable; constructorm* _ ∧ _ <;> decide +kernel

/-! ### Witnesses: engines, fences, traps -/

def withChan (s : State) (ch : Nat) (y : Chan) : State := s.updCore 0 (fun co => { co with chans := co.chans.set ch y })

/-- A transfer of one byte that the team committed: from memory 0x1000 to memory 0x2000. -/
def byteMove : Xfer :=
  { core := 0, ch := 0, id := 1, regs := [0x1000, 0x2000, 1, 0] ++ List.replicate 8 1 ++ List.replicate 16 0, time := 0, asid := 0, part := 0, ctx := 0, launch := 0,
    cluster := 0, team := 0, child := false, windows := [(0, [])], scratch := 0, lines := [], landed := [] }

def haltedChan : Chan :=
  { Chan.reset with active := some byteMove, queued := some { byteMove with id := 2 }, nextId := 3, halted := true, faultCause := 0x17F }

/-- Channel 7: its registers 0x1B, 0x1C to 0x1F, halted with the last cause FAULT can hold; values of RETRY, SKIP and neither. -/
theorem witness_EngineRegisters :
    ((withChan (world ptrs) 7 haltedChan).core 0).chans[engCh 0xFB]? = some haltedChan ∧
    Acts (withChan (world ptrs) 7 haltedChan) ptrs [4] [] ∧ engReg 0xFB < 0x1C ∧ engReg 0xFC = 0x1C ∧ engReg 0xFD = 0x1D ∧
    engReg 0xFE = 0x1E ∧ engReg 0xFF = 0x1F ∧ (withChan (world ptrs) 7 haltedChan).me? = some ptrs ∧
    Acts (withChan (world ptrs) 7 haltedChan) ptrs [6, 9, 10] [] ∧ (ptrs.rd 6).toNat % 4 = 1 ∧ (ptrs.rd 10).toNat % 4 = 2 ∧
    (ptrs.rd 9).toNat % 4 = 0 ∧ haltedChan.active = some byteMove ∧ haltedChan.halted = true ∧ 0x80 ≤ haltedChan.faultCause ∧ haltedChan.faultCause < 0x180 := by
  unfold Acts; constructorm* _ ∧ _ <;> decide +kernel

def busyChan : Chan := { haltedChan with halted := false, faultCause := 0 }

/-- A free, an occupied and a halted channel; an identifier done, one ahead of COMPLETE, one beyond NEXTID. -/
theorem witness_TransferWords :
    (withChan (world ptrs) 0 Chan.reset).me? = some ptrs ∧ ((withChan (world ptrs) 0 Chan.reset).core 0).chans[0]? = some Chan.reset ∧
    Chan.reset.queued = none ∧ ((withChan (world ptrs) 0 busyChan).core 0).chans[0]? = some busyChan ∧ busyChan.queued.isSome = true ∧
    busyChan.halted = false ∧ ((withChan (world ptrs) 0 haltedChan).core 0).chans[0]? = some haltedChan ∧ Trappable ptrs ∧
    0 < (withChan (world ptrs) 0 Chan.reset).cores.length ∧ Acts (withChan (world ptrs) 0 busyChan) ptrs [6, 11, 5] [] ∧ (ptrs.rd 6).toNat ≤ busyChan.complete ∧ (ptrs.rd 6).toNat ≤ busyChan.nextId ∧
    busyChan.complete < (ptrs.rd 11).toNat ∧ (ptrs.rd 11).toNat ≤ busyChan.nextId ∧ busyChan.nextId < (ptrs.rd 5).toNat := by
  unfold Acts Trappable; constructorm* _ ∧ _ <;> decide +kernel

/-- A group with a remote store that is not acknowledged. -/
def storing : Group := { placeGroup with rstores := [{ core := 0, order := 0, parts := [([(0, 1)], none)], performed := false, frozen := false }] }

def unacked : Ctx := { team with groups := [storing] }

/-- A result whose lane 0 is still to be read in core 0, and a loop that runs. -/
def reading : Ctx := { team with
  groups := [{ placeGroup with
    outs := [{ gs := false, regs := [4], lanes := 1, vals := [lanes (fun _ => 0)], taint := false, poison := Poison.none, written := false,
               remote := [{ core := 0, order := 0, op := .load 0, lanes := [{ lane := 0, bytes := [(0, 0)], own := [], shift := 0, operand := 0, cmp := 0, junk := none, bad := none }] }]
               popQueue := none, conflict := 0, junk := [], pool := [] }]
    loops := [{ win := List.range 32, a := 0, b := 0, ia := 0, ib := 0, k := 1, next := 0, fmt := 0, unf := none, time := 0,
                touched := true, complete := false, visible := false, told := [], spoiled := false, poison := none,
                flags := 0 }] }] }

/-- A release of the group's return word for the first descriptor, and an L event of the group after its loop that the context has
acquired by it. -/
def wordBack : Release :=
  { link := .ret 0 0 0, agents := [grpAgent 0 0 0 .l], after := [], reach := .cores [0], time := 0, fed := [] }

def acquiredLoop (x : Ctx) : State :=
  { world x with
    releases := [wordBack]
    late := [{ replaced (grpAgent 0 0 0 .l) none 0x800 7 with order := 1, before := [{ view := .one (ctxAgent 0 0 .gotL), time := 2 }] }] }

/-- The earlier events of XFENCE, and the remote accesses of a return word: performed, and one of each kind that is not; a word of another
descriptor. -/
theorem witness_earlier_events :
    ¬ ReadsDone reading ∧ ReadsDone team ∧ AcquiredLoops (world team) team ∧ AcquiredLoops (world reading) reading ∧
    EarlierDone (world team) team 5 1 ∧ EarlierDone (world team) team 5 3 ∧ EarlierDone (world reading) reading 1 0 ∧
    ¬ StoresAcked unacked ∧ 2 ≤ (2 : BitVec 3).toNat ∧ (world reading).me? = some reading ∧ ¬ AccessesDone unacked ∧ AccessesDone team := by
  unfold EarlierDone AcquiredLoops AccessesDone ReadsDone StoresAcked
  refine ⟨by decide +kernel, by decide +kernel, ?_, ?_, ⟨?_, ?_⟩, ⟨?_, ?_⟩, ⟨?_, ?_⟩, by decide +kernel, by decide, rfl, by decide +kernel, by decide +kernel⟩
  · intro i g hg l hl
    cases i with
    | zero => obtain rfl := Option.some.inj hg; cases hl
    | succ n => cases hg
  · intro i g hg l hl
    exact .inr (fun e he => by cases he)
  · exact fun h => absurd h (by decide)
  · exact .inr (by decide +kernel)
  · intro _ i g hg l hl
    cases i with
    | zero => obtain rfl := Option.some.inj hg; cases hl
    | succ n => cases hg
  · exact .inr (by decide +kernel)
  · exact fun h => absurd h (by decide)
  · exact .inl (by decide)

/-- The acquired loop still runs: an XFENCE on path U waits; and RPOP waits for the result that the word released. -/
theorem witness_later_events :
    ¬ EarlierDone (acquiredLoop reading) reading 1 3 ∧ ¬ WordsDone (acquiredLoop reading) reading 0 ∧ WordsDone (world reading) reading 0 := by
  refine ⟨fun h => ?_, fun h => ?_, fun i g hg => ⟨fun v hv a ha hr => ?_, fun st hst => ?_⟩⟩
  · have h2 := h.1 rfl 0 (group0 reading) rfl _ (List.mem_singleton.mpr rfl)
    rcases h2 with h2 | h2
    · cases h2
    · exact absurd (h2 _ (List.mem_singleton.mpr rfl) rfl (by decide)) (by decide +kernel)
  · exact (h 0 (group0 reading) rfl).1 _ (List.mem_singleton.mpr rfl) _ (List.mem_singleton.mpr rfl)
      ⟨wordBack, List.mem_singleton.mpr rfl, rfl, List.mem_singleton.mpr rfl, by decide⟩
  · obtain ⟨r, hr, -⟩ := hr
    cases hr
  · cases i with
    | zero => obtain rfl := Option.some.inj hg; cases hst
    | succ n => cases hg

theorem witness_FencesRetire :
    (world team).me? = some team ∧ StoresAcked team ∧ (world unacked).me? = some unacked ∧ ¬ StoresAcked unacked ∧
    (2 : BitVec 2).getLsbD 1 = true ∧ (1 : BitVec 2).getLsbD 1 = false ∧ (1 : BitVec 3).toNat < 2 ∧ 2 ≤ (2 : BitVec 3).toNat ∧
    (quiet team).strm.blockQ = [] ∧ AccessesDone (quiet team) ∧ team.strm.blockQ ≠ [] := by
  unfold AccessesDone ReadsDone StoresAcked; constructorm* _ ∧ _ <;> decide +kernel

/-- The release of a fence of the group, and its write after it, which the control slice has read: the group's earlier write is what the
fence covers. -/
def fenced : State :=
  { masked team with
    freeCtr := 9
    releases := [{ link := .fence, agents := [grpAgent 0 0 0 .l], after := [{ view := .one (grpAgent 0 0 0 .l), time := 1 }], reach := .cores [0],
                   time := 1, fed := [] }]
    late := [replaced (groupPath 0 0 0 .l) none 0x700 7,
             { replaced (groupPath 0 0 0 .l) none 0x800 7 with order := 2, read := [{ view := .one (own .c), time := 3 }] }] }

/-- A release and an acquire at core scope: the queued store leaves, and the write that the group's fence covers happens before the
context's next events, not before those of its copy channels that no order reaches; without the read there is no acquire. -/
theorem test_fence_releases_and_acquires :
    (went (exec (.fence 1 3) fenced)).map (fun t => (t.queue.isEmpty, t.late.map (fun e => (e.cells.map (·.1), e.covered (own .c), e.covered (own .s))),
      t.releases.length)) = some (true, [([0x700], true, true), ([0x800], false, false), ([0x804], true, false)], 2) ∧
    (went (exec (.fence 1 3) { fenced with late := fenced.late.map (fun e => { e with read := [] }) })).map (fun t =>
      t.late.map (fun e => e.covered (own .c))) = some [false, false, true] := by
  constructor <;> decide +kernel

/-- An acquire at deck scope sees every write at its coherence point (07 R193, 08 R215). -/
theorem test_wide_acquire : (went (exec (.fence 3 1) (masked team))).map (fun t =>
    (Machine.seenByte t (own .c) none 0x800, Machine.seenByte t (groupPath 0 1 0 .l) none 0x800)) =
    some (readByte (masked team) 0x800, readByte (masked team) 0x800) := by decide +kernel

/-- A JWAIT's read sees a change of the counter that the control slice's path does not. -/
theorem test_spawn_path_sees_every_change :
    Machine.seenByte { world team with late := [replaced (groupPath 0 0 0 .s) none 0x800 1] } (own .s) none 0x800 = 0 ∧
    Machine.seenByte { world team with late := [replaced (groupPath 0 0 0 .s) none 0x800 1] } (own .c) none 0x800 = 1 := by decide +kernel

/-- A machine whose launch waits for launch 9, which is not ready. -/
def waitsForNine (x : Ctx) : State :=
  { world x with launches := [{ placeLaunchRec with producers := [9] }, { placeLaunchRec with id := 9, placed := [], status := .waiting }] }

def childTeam : Ctx := { quiet team with child := some { depth := 1, joins := [0x1000] } }

theorem launch_world (x : Ctx) : (world x).launch? 0 0 = some placeLaunchRec := rfl

theorem witness_TriggersAndWaits :
    (world (quiet team)).me? = some (quiet team) ∧ team.mode = .user ∧ StoresAcked (quiet team) ∧ ReadsDone (quiet team) ∧ team.child = none ∧
    (world (quiet team)).launch? 0 0 = some placeLaunchRec ∧ (∃ cl, placeLaunchRec.placed[team.cluster]? = some cl) ∧
    (world childTeam).me? = some childTeam ∧ childTeam.child.isSome = true ∧ team.strm.blockQ ≠ [] ∧
    (∀ l, (world team).launch? 0 0 = some l → ∀ p ∈ l.producers, p = 0 ∨ producerReady (world team) 0 p = true) ∧
    (∃ l, (waitsForNine team).launch? 0 0 = some l ∧ ∃ p ∈ l.producers, p ≠ 0 ∧ producerReady (waitsForNine team) 0 p = false) ∧
    Trappable childTeam ∧ Acts (world ptrs) ptrs [4] [] ∧
    checkAccess (world ptrs) 0 0 .sp pathS (ptrs.rd 4 + (4 : BitVec 16).signExtend 64) 4 false = .ok 0x1FFFFC ∧
    tlbMisses (world ptrs) 0 0 [ptrs.rd 4 + (4 : BitVec 16).signExtend 64] = [] ∧ loadPoison (world ptrs) (own .s) 0x1FFFFC 4 = none ∧
    spillHit (world ptrs) 0x1FFFFC 4 = [] ∧ placeLaunchRec.refillCause = none ∧ placeLaunchRec.joinFails = [] ∧
    seenValue (world ptrs) (own .s) 0x1FFFFC 4 = 0 := by
  refine ⟨by decide +kernel, rfl, by unfold StoresAcked; decide +kernel, by unfold ReadsDone; decide +kernel, rfl, rfl, ⟨_, rfl⟩, by decide +kernel, rfl, by decide, ?_,
    ⟨_, rfl, 9, by decide, by decide, by decide +kernel⟩, by unfold Trappable; decide +kernel, ?_, by decide +kernel, by decide +kernel,
    by decide +kernel, by decide +kernel, rfl, rfl, by decide +kernel⟩
  · intro l hl
    obtain rfl := Option.some.inj ((launch_world team).symm.trans hl)
    intro p hp
    cases hp
  · unfold Acts; constructorm* _ ∧ _ <;> decide +kernel

/-- KTRIG sets the trigger, releases once, and again changes nothing; KWAIT, with no producer, and JWAIT, of a counter that is zero,
retire and see every write at its coherence point (04 R116, R117, 03 R100, 07 R193). -/
theorem test_triggers_and_waits :
    (went (exec .ktrig (world (quiet team)))).map (fun t => ((mine t).trigger, (mine t).pc, t.releases.map (·.link))) =
      some (true, 1, [.trigger 0 0]) ∧
    (went (exec .ktrig (world { quiet team with trigger := true }))).map (fun t => ((mine t).pc, t.releases.length)) = some (1, 0) ∧
    (went (exec .kwait (masked team))).map (fun t => ((mine t).pc, Machine.seenByte t (own .c) none 0x800)) = some (1, 0) ∧
    (went (exec (.jwait 4 4) (masked ptrs))).map (fun t => ((mine t).pc, Machine.seenByte t (own .c) none 0x800)) = some (1, 0) := by
  constructorm* _ ∧ _ <;> decide +kernel

/-- A child's queued store to its join counter stands before its decrement (12 R351). -/
theorem test_exit_flushes_first :
    (went (exec .exit { world childTeam with queue := [stored (own .c) none 0x1000 9] })).map (fun t => (readByte t 0x1000, t.queue.length)) =
      some (8, 0) := by decide +kernel

/-- What a freeze of the team keeps. -/
def frozenTeam : Frozen :=
  { trig := ctrlTrig 0x040 false 7 0 0 0, stream := team.strm, trigger := true, staint := 5, pcs := [placeGroup.pos], groups := team.groups,
    truss := [], trussPos := [], shadows := [], chanStat := [] }

def inRoutine (m : Mode) : Ctx := { quiet team with mode := m, frozen := some frozenTeam, epc := 7, fridx := 0xFFFFF, cause := 0x40 }

theorem witness_ContextRegisters :
    (world (inRoutine .trap)).me? = some (inRoutine .trap) ∧ (inRoutine .trap).mode ≠ .user ∧
    ctxRegister (inRoutine .trap) 0x0A = some 3 ∧ ctxRegister (inRoutine .trap) 0x0F = some 0 ∧ (inRoutine .trap).frozen = some frozenTeam ∧
    (inRoutine .trap).fridx.toNat < 2 ^ 20 ∧ (inRoutine .trap).poison 0 = none ∧ (wroteCtx (inRoutine .trap) 0x0F 1).isSome = true := by
  constructorm* _ ∧ _ <;> decide +kernel

theorem witness_ControlTraps : (world team).me? = some team ∧ Trappable team ∧ team.poison 31 = none ∧ team.frozen = none := by
  unfold Trappable; constructorm* _ ∧ _ <;> decide +kernel

/-- A routine, a freeze triggered, no privileged image, and a team that can trap. -/
theorem witness_TrapTaking :
    ((world (inRoutine .save)).ctx 0 0).mode ≠ .user ∧ ((world team).ctx 0 0).mode = .user ∧
    ((world { team with trig := some frozenTeam.trig }).ctx 0 0).trig.isSome = true ∧
    ((world { team with trapVec := 1#64 <<< 63 }).ctx 0 0).trapVec.msb = true ∧ Trappable ((world team).ctx 0 0) := by
  unfold Trappable; constructorm* _ ∧ _ <;> decide +kernel

theorem witness_EretResumes :
    (world (inRoutine .trap)).me? = some (inRoutine .trap) ∧ (inRoutine .trap).frozen = some frozenTeam ∧ RoutineDone (inRoutine .trap) ∧
    (∀ r ∈ (inRoutine .trap).groups, ∀ v ∈ r.outs, v.conflict = 0) ∧ RoutineDone (inRoutine .restore) ∧
    (∀ r ∈ (inRoutine .restore).groups, ∀ v ∈ r.outs, v.conflict = 0) ∧ (inRoutine .restore).frozen = some frozenTeam ∧
    (inRoutine .trap).mode = .trap ∧ skipsWord (inRoutine .trap) frozenTeam.trig frozenTeam.trig.group = false ∧
    (inRoutine .trap).held = [] ∧ (inRoutine .trap).trig = none ∧ (inRoutine .trap).groups[0]? = some placeGroup ∧
    frozenTeam.pcs[0]? = some placeGroup.pos ∧ (world (inRoutine .restore)).me? = some (inRoutine .restore) ∧
    (inRoutine .restore).mode = .restore ∧ (inRoutine .restore).pendPreempt = false ∧ recordedFaults frozenTeam 0 = [] ∧
    skipsWord (inRoutine .restore) frozenTeam.trig frozenTeam.trig.group = false ∧ (inRoutine .restore).held = [] ∧
    (inRoutine .restore).trig = none ∧
    frozenTeam.groups[0]? = some placeGroup ∧ ¬ RoutineDone (withStream (inRoutine .trap) (fun st => { st with blockQ := [placeDesc] })) := by
  unfold RoutineDone; constructorm* _ ∧ _ <;> decide +kernel

theorem test_eret : (went (exec .eret (world (inRoutine .trap)))).map (fun t => ((mine t).pc, (mine t).mode, (mine t).trigger, (mine t).staint)) =
    some (7, .user, true, 5) := by decide +kernel

theorem witness_ExitReleasesContext :
    (world (quiet team)).me? = some (quiet team) ∧ (quiet team).mode = .user ∧ groupsDone (quiet team) = true ∧
    (∀ y ∈ ((world (quiet team)).core 0).chans, y.queued = none ∧ y.active = none) ∧ (quiet team).child = none ∧
    placeLaunchRec.placed[team.cluster]?.isSome = true ∧ groupsDone team = false ∧
    (world (inRoutine .save)).me? = some (inRoutine .save) ∧ (inRoutine .save).strm.blockQ = [] ∧ StoresAcked (inRoutine .save) ∧
    (inRoutine .restore).mode = .restore ∧ groupsDone (inRoutine .save) = true ∧
    groupsDone (withStream (inRoutine .save) (fun st => { st with blockQ := [placeDesc] })) = false := by
  unfold StoresAcked; constructorm* _ ∧ _ <;> decide +kernel

/-! ### Witnesses: lane words -/

def vals : Ctx := withV team
  [(4, lanes (fun i => i)), (5, lanes (fun _ => 0x7FFFFFFF)), (6, lanes (fun _ => 0x1FE0)), (7, lanes (fun _ => 0x12345678)),
   (8, lanes (fun _ => 0x3F800000)), (9, lanes (fun _ => 0x7F800000)), (10, lanes (fun _ => 0xFF800000)), (11, lanes (fun _ => 0xAB))]
  [(6, 0xFFFFFFFF), (7, 0x80000000), (8, 0x21), (9, 3)]

/-- The word stands in slot 0 of a running group. -/
theorem acts_vals (h : Hdr) (hs : h.sw = false) : LaneActs (world vals) vals (group0 vals) h false := by
  refine ⟨rfl, rfl, by decide, ?_, by simp⟩
  intro h'
  simp [hs] at h'

/-- A saturating addition over D itself, and a 64-bit product of pairs at the top of the register file. -/
theorem witness_IntegerLaneResults :
    (intLane (.vadd (wordOf 5 5 4 0 0 4 0))).isSome = true ∧ (intLane (.vmul (wordOf 30 28 28 0 10 0 0))).isSome = true ∧
    LaneActs (world vals) vals (group0 vals) (header false false false) false ∧
    (∀ l, intLane (.vadd (wordOf 5 5 4 0 0 4 0)) = some l → l.uses.ok l.w ∧ OperandsReady (env vals) (l.ops (env vals))) ∧
    ∀ l, intLane (.vmul (wordOf 30 28 28 0 10 0 0)) = some l → l.uses.ok l.w ∧ OperandsReady (env vals) (l.ops (env vals)) := by
  refine ⟨rfl, rfl, acts_vals _ rfl, ?_, ?_⟩
  all_goals
    intro l hl
    obtain rfl := Option.some.inj hl
    unfold Uses.ok Uses.clean Uses.typed OperandsReady
    constructorm* _ ∧ _ <;> decide +kernel

theorem test_vadd : pending 3 (exec (.vadd (wordOf 5 5 4 0 0 4 0)) (world vals)) = [(5, 1, [0x7FFFFFFF, 0x7FFFFFFF, 0x7FFFFFFF], 0)] ∧
    pending 3 (exec (.vadd (wordOf 5 5 4 0 0 0 0)) (world vals)) = [(5, 1, [0x7FFFFFFF, 0x80000000, 0x80000001], 0)] := by decide +kernel

def litWord (d a c : BitVec 8) (ty : BitVec 4) (x : W32) : LaneWord := { wordOf d a 0 c ty 0 x with lit := true }

theorem witness_BitFieldAndSignResults :
    LaneActs (world vals) vals (group0 vals) (header false false false) false ∧
    Uses.ok { d := true, a := true, b := true, c := false, strideC := false, ty := [0, 1], md := [0], tile := true, x := 0, lit := true }
      (litWord 8 6 0 0 0x0805) ∧
    OperandsReady (env vals) [Opd.vw 8 false, Opd.vr 6 false] ∧
    Uses.ok { d := true, a := true, b := true, c := true, strideC := true, ty := [0, 1], md := [0], tile := true, x := 0, lit := true }
      (litWord 9 6 7 0 0x0808) ∧
    OperandsReady (env vals) [Opd.vw 9 false, Opd.vr 6 false, Opd.vr 7 false] ∧
    Uses.ok { d := true, a := true, b := false, c := false, strideC := false, ty := [6, 7, 8], md := [0], tile := true, x := 0, lit := false }
      (wordOf 9 8 0 0 8 0 0) := by
  refine ⟨acts_vals _ rfl, ?_⟩
  unfold Uses.ok Uses.clean Uses.typed OperandsReady
  constructorm* _ ∧ _ <;> decide +kernel

/-- The worked examples of 14 R402. -/
theorem test_bit_fields : pending 1 (exec (.vbfx (litWord 8 6 0 0 0x0805)) (world vals)) = [(8, 1, [0xFFFFFFFF], 0)] ∧
    pending 1 (exec (.vbfx (litWord 8 6 0 1 0x0805)) (world vals)) = [(8, 1, [0xFF], 0)] ∧
    pending 1 (exec (.vbfi (litWord 9 11 7 0 0x0804)) (world vals)) = [(9, 1, [0x12345AB8], 0)] := by
  constructorm* _ ∧ _ <;> decide +kernel

/-- 1 + 1, which raises nothing, and infinity less infinity, which is invalid, with the trap off and on. -/
theorem witness_FloatLaneResults :
    (∀ l, floatLane 0 (.fadd (wordOf 9 8 8 0 6 0 0)) = some l → l.uses.ok l.w ∧ OperandsReady (env vals) (l.ops (env vals)) ∧
      FlagsOf (env vals) l.w (fun r i => (l.res (env vals) r i).2) 0) ∧
    (∀ l, floatLane 0 (.fadd (wordOf 11 9 10 0 6 0 0)) = some l → l.uses.ok l.w ∧ OperandsReady (env vals) (l.ops (env vals)) ∧
      FlagsOf (env vals) l.w (fun r i => (l.res (env vals) r i).2) 1) ∧
    (floatLane 0 (.fadd (wordOf 9 8 8 0 6 0 0))).isSome = true ∧ (floatLane 0 (.fadd (wordOf 11 9 10 0 6 0 0))).isSome = true ∧
    LaneActs (world vals) vals (group0 vals) (header false false false) false ∧
    firstEnabled (group0 vals).gstat 1 = none ∧ firstEnabled 0x100 1 = some 0 ∧ firstEnabled 0x1F00 0x1C = some 2 := by
  refine ⟨?_, ?_, rfl, rfl, acts_vals _ rfl, by decide, by decide, by decide⟩
  all_goals
    intro l hl
    obtain rfl := Option.some.inj hl
    refine ⟨?_, ?_, flagsOf_const (by decide +kernel) (by decide +kernel) (by decide +kernel)⟩
    · unfold Uses.ok Uses.clean Uses.typed
      constructorm* _ ∧ _ <;> decide +kernel
    · unfold OperandsReady
      constructorm* _ ∧ _ <;> decide +kernel

theorem test_fadd : pending 1 (exec (.fadd (wordOf 9 8 8 0 6 0 0)) (world vals)) = [(9, 3, [0x40000000], 0)] := by decide +kernel

def withFmt (x : Ctx) (f : W32) : Ctx := { x with groups := x.groups.map (fun g => { g with fmt := f }) }

def int8 : Ctx := withFmt vals 0x44000D00
def noRow : Ctx := withFmt vals 0xFF000000

theorem acts_of (x : Ctx) (h : Hdr) (hx : (world x).grp? = some (x, group0 x)) (hd : x.debug = false) (hp : (group0 x).pos.slot < 24)
    (hs : h.sw = false) : LaneActs (world x) x (group0 x) h false := by
  refine ⟨hx, hd, hp, ?_, by simp⟩
  intro h'
  simp [hs] at h'

theorem witness_AcvtResults :
    LaneActs (world int8) int8 (group0 int8) (header false false false) false ∧
    Uses.ok { noUses with d := true, a := true, ty := [0, 6, 8, 9], md := convModes (wordOf 9 4 0 0 0 0 0), tile := true } (wordOf 9 4 0 0 0 0 0) ∧
    OperandsReady (env int8) [Opd.vw 9 false, Opd.vr 4 false] ∧ productOf 0x44000D00 = some .int8 ∧
    FlagsOf (env int8) (wordOf 9 4 0 0 0 0 0)
      (fun r i => (acvtRes 0 0 (fmtEA 0x44000D00) (accValue .int8 ((env int8).elem (4 + r * 0) i).toNat)).2) 0 ∧
    LaneActs (world noRow) noRow (group0 noRow) (header false false false) false ∧ productOf 0xFF000000 = none := by
  refine ⟨acts_of _ _ rfl rfl (by decide) rfl, ?_, ?_, by decide, flagsOf_const (by decide +kernel) (by decide +kernel) (by decide +kernel),
    acts_of _ _ rfl rfl (by decide) rfl, by decide⟩
  · unfold Uses.ok Uses.clean Uses.typed
    constructorm* _ ∧ _ <;> decide +kernel
  · unfold OperandsReady
    constructorm* _ ∧ _ <;> decide +kernel

/-- One and the largest F16, the least subnormal BF16; 2^128, beyond the largest F32 in every mode, and one, which is not; three halves. -/
theorem witness_RoundedFloats :
    (floatLane 0 (.fadd (wordOf 9 8 8 0 6 0 0))).isSome = true ∧ (floatLane 0 (.fsub (wordOf 9 8 8 0 7 1 0))).isSome = true ∧
    (floatLane 0 (.fmul (wordOf 9 8 8 0 8 2 0))).isSome = true ∧ (floatLane 0 (.ffma (wordOf 9 8 8 8 6 7 0))).isSome = true ∧
    (floatLane 0 (.frcp (wordOf 9 8 0 0 6 4 0))).isSome = true ∧ (floatLane 0 (.fcvt (wordOf 9 8 0 0 7 0 5))).isSome = true ∧
    (floatLane 0 (.fcvt (wordOf 9 8 0 0 7 3 6))).isSome = true ∧ FiniteFloat 6 0x3F800000 ∧ FiniteFloat 7 0x7BFF ∧ FiniteFloat 8 1 ∧
    FiniteFloat 36 0xFEFFFFFFF ∧ floatValue 6 0x3F800000 ≠ 0 ∧ Overflows 6 0 (2 ^ 128) ∧ Overflows 6 1 (2 ^ 128) ∧ ¬ Overflows 6 0 1 ∧
    Tiny 6 1 (1 / 2 ^ 127) ∧ ¬ Tiny 6 1 1 ∧ ExactValue (.fin false 3 (-1)) (3 / 2) := by
  refine ⟨rfl, rfl, rfl, rfl, rfl, rfl, rfl, ?_, ?_, ?_, ?_, ?_, ?_, ?_, ?_, ?_, ?_, ⟨false, 3, -1, rfl, by norm_num⟩⟩
  all_goals first
    | (unfold FiniteFloat floatForm; decide)
    | (have h0 : BitVec.toNat (0 : BitVec 3) = 0 := rfl
       have h1 : BitVec.toNat (1 : BitVec 3) = 1 := rfl
       norm_num [floatValue, floatForm, Overflows, Tiny, RoundsAway, h0, h1])

/-- The words that choose, invert, scale and convert; a number, a zero, a NaN and an infinity of F32; powers and what lies between; an
L6 code beyond its largest. -/
theorem witness_RoundedFloats_forms :
    (floatLane 0 (.fmin (wordOf 9 8 8 0 6 0 0))).isSome = true ∧ (floatLane 0 (.fmax (wordOf 9 8 8 0 7 0 0))).isSome = true ∧
    (floatLane 0 (.frsq (wordOf 9 8 0 0 6 0 0))).isSome = true ∧ (floatLane 0 (.fexp2 (wordOf 9 8 0 0 8 4 0))).isSome = true ∧
    (floatLane 0 (.flog2 (wordOf 9 8 0 0 6 0 0))).isSome = true ∧ (floatLane 0 (.lcvt (wordOf 9 8 0 0 6 0 9))).isSome = true ∧
    (floatLane 0 (.lcvt (wordOf 9 8 0 0 9 0 6))).isSome = true ∧ (floatLane 0 (.fcvt (wordOf 9 8 0 0 4 1 6))).isSome = true ∧
    IsNan 6 0x7FC00000 ∧ ¬ IsNan 6 0x7F800000 ∧ ownBits 6 0xFF800000 = infFloat 6 true ∧ FiniteFloat 6 0x80000000 ∧
    floatValue 6 0x80000000 = 0 ∧ floatValue 6 0x3F000000 = 1 / 2 ∧ ¬ Overflows 6 0 2 ∧ (6889 : ℚ) * 2 ^ (0 - 9 : ℤ) < 14 := by
  refine ⟨rfl, rfl, rfl, rfl, rfl, rfl, rfl, rfl, ?_, ?_, by decide, ?_, ?_, ?_, ?_, by norm_num⟩
  all_goals first
    | (unfold IsNan FiniteFloat floatForm; decide)
    | (unfold FiniteFloat floatForm; decide)
    | (have h0 : BitVec.toNat (0 : BitVec 3) = 0 := rfl
       norm_num [floatValue, floatForm, Overflows, RoundsAway, h0])

/-- The square root of two, the logarithm of three, −0 below +0, −1 from −1.5 toward zero in I8, 14 in L6 (05 R128, R129, R139). -/
theorem test_float_forms :
    (floatLane 0 (.fexp2 (wordOf 9 8 0 0 6 0 0))).map (fun l => l.f 0x3F000000 0 0) = some (0x3FB504F3, 0x10) ∧
    (floatLane 0 (.flog2 (wordOf 9 8 0 0 6 0 0))).map (fun l => l.f 0x40400000 0 0) = some (0x3FCAE00D, 0x10) ∧
    (floatLane 0 (.fmin (wordOf 9 8 8 0 6 0 0))).map (fun l => l.f 0 0x80000000 0) = some (0x80000000, 0) ∧
    (floatLane 0 (.fcvt (wordOf 9 8 0 0 4 1 6))).map (fun l => l.f 0xBFC00000 0 0) = some (0xFFFFFFFF, 0x10) ∧
    (floatLane 0 (.lcvt (wordOf 9 8 0 0 9 0 6))).map (fun l => l.f 0x41600000 0 0) = some (0x0F, 0x14) := by
  constructorm* _ ∧ _ <;> decide +kernel

/-- The comparison of pairs of 64 bits with a literal, and of floats; the lowest destination. -/
theorem witness_CompareResults :
    LaneActs (world vals) vals (group0 vals) (header false false false) false ∧ 4 ≤ (4 : BitVec 8).toNat ∧
    Uses.ok { noUses with d := true, a := true, b := true, ty := [0, 1, 2, 3, 4, 5, 10, 11], md := [0, 1, 2, 3, 4, 5], lit := true }
      (litWord 4 4 0 10 5) ∧
    OperandsReady (env vals) [Opd.gw 4 false, Opd.vr 4 true] ∧
    Uses.ok { noUses with d := true, a := true, b := true, ty := [6, 7, 8], md := [0, 1, 2, 3, 4, 5, 6, 7], lit := true }
      (wordOf 15 8 9 0 6 7 0) ∧
    OperandsReady (env vals) [Opd.gw 15 false, Opd.vr 8 false, Opd.vr 9 false] := by
  refine ⟨acts_vals _ rfl, by decide, ?_⟩
  unfold Uses.ok Uses.clean Uses.typed OperandsReady
  constructorm* _ ∧ _ <;> decide +kernel

theorem test_vcmp : pending 1 (exec (.vcmp (litWord 6 4 0 0 5)) (world vals)) = [(6, 3, [], 0x20)] := by decide +kernel

theorem witness_GroupScalarResults :
    (scalarWord (.gshr (wordOf 15 7 9 0 0 0 0))).isSome = true ∧ LaneActs (world vals) vals (group0 vals) (header false false false) false ∧
    Uses.ok { noUses with d := true, a := true, b := true, ty := [0, 1], lit := true } (wordOf 15 7 9 0 0 0 0) ∧
    OperandsReady (env vals) [Opd.gw 15 false, Opd.gr 7 false, Opd.gr 9 false] := by
  refine ⟨rfl, acts_vals _ rfl, ?_⟩
  unfold Uses.ok Uses.clean Uses.typed OperandsReady
  constructorm* _ ∧ _ <;> decide +kernel

theorem test_gadd : (went (exec (.gadd (wordOf 15 6 9 0 1 0 0)) (world vals))).map (fun t => (myGroup t).gregs.getD 15 0) = some 2 := by
  decide +kernel

/-- 13 R368: a shift takes the low five bits of its amount; a signed one copies the sign. -/
theorem test_gshr : (went (exec (.gshr (wordOf 15 7 8 0 0 0 0)) (world vals))).map (fun t => (myGroup t).gregs.getD 15 0) = some 0xC0000000 ∧
    (went (exec (.gshr (wordOf 15 7 8 0 1 0 0)) (world vals))).map (fun t => (myGroup t).gregs.getD 15 0) = some 0x40000000 := by
  constructor <;> decide +kernel

def delivering : Ctx := { vals with strm := { vals.strm with blockQ := [{ placeDesc with ret := true }], returnQ := [{ seq := 0, time := 0, words := [none], poison := [none] }] } }

theorem mayIssue_vals {w : LaneWord} {u : Uses} {ops : List Opd} (hs : w.hdr.sw = false) (hu : u.ok w) (ho : OperandsReady (env vals) ops) :
    MayIssue (world vals) vals (group0 vals) w u ops := ⟨acts_vals _ hs, hu, ho⟩

theorem witness_SpecialRegisterWords :
    MayIssue (world vals) vals (group0 vals) (wordOf 0 6 0 0 0 0 0) { noUses with a := true } [Opd.gr 6 false] ∧
    MayIssue (world vals) vals (group0 vals) (wordOf 0 0 6 0 0 0 0) { noUses with b := true, lit := true } [Opd.gr 6 false] ∧
    MayIssue (world vals) vals (group0 vals) (wordOf 0 0 0 0 0 0 0x2020) { noUses with a := true, x := 0x3F3F } [] ∧
    MayIssue (world vals) vals (group0 vals) (wordOf 0 0 0 0 0 0 0x2100) { noUses with a := true, x := 0x3F3F } [] ∧
    MayIssue (world vals) vals (group0 vals) (wordOf 0 6 0 0 0 0 3) { noUses with a := true, x := 3 } [Opd.gr 6 true] ∧
    MayIssue (world vals) vals (group0 vals) (wordOf 14 0 0 0 0 0 12) { noUses with d := true, x := 0xFF } [Opd.gw 14 true] ∧
    (specialValue (env vals) 12).isSome = true ∧
    MayIssue (world vals) vals (group0 vals) (wordOf 15 0 0 0 0 0 2) { noUses with d := true, x := 0xFF } [Opd.gw 15 false] ∧
    (group0 vals).loops = [] ∧
    MayIssue (world vals) vals (group0 vals) (wordOf 14 0 0 0 0 0 0x27) { noUses with d := true, x := 0xFF } [Opd.gw 14 true] ∧
    MayIssue (world vals) vals (group0 vals) (wordOf 0 0 6 0 0 0 2) { noUses with b := true, x := 0xFF } [Opd.gr 6 false] ∧
    MayIssue (world vals) vals (group0 vals) (wordOf 31 0 0 0 0 0 1) { noUses with d := true, x := 1 } [Opd.vw 31 false] ∧
    MayIssue (world vals) vals (group0 vals) (wordOf 0 0 0 0 0 0 0) noUses [] ∧
    vals.descOf 0 = some placeDesc ∧ placeDesc.ret = false := by
  constructorm* _ ∧ _
  all_goals first
    | rfl
    | (refine mayIssue_vals rfl ?_ ?_
       · unfold Uses.ok Uses.clean Uses.typed; constructorm* _ ∧ _ <;> decide +kernel
       · unfold OperandsReady; constructorm* _ ∧ _ <;> decide +kernel)

/-- PRET with a descriptor that asks for a word. -/
theorem witness_pret :
    MayIssue (world delivering) delivering (group0 delivering) (wordOf 0 6 0 0 0 0 0) { noUses with a := true } [Opd.gr 6 false] ∧
    delivering.descOf 0 = some { placeDesc with ret := true } ∧ (group0 delivering).pos.delivered = false := by
  refine ⟨⟨acts_of _ _ rfl rfl (by decide) rfl, ?_, ?_⟩, rfl, rfl⟩
  · unfold Uses.ok Uses.clean Uses.typed; constructorm* _ ∧ _ <;> decide +kernel
  · unfold OperandsReady; constructorm* _ ∧ _ <;> decide +kernel

theorem test_pret : (went (exec (.pret (wordOf 0 9 0 0 0 0 0)) (world delivering))).map (fun t => (mine t).strm.returnQ.map (·.words)) =
    some [[some 3]] := by decide +kernel

theorem witness_CrossLaneResults :
    MayIssue (world vals) vals (group0 vals) (wordOf 4 4 0 0 0 3 0) { noUses with d := true, a := true, md := [0, 1, 2, 3] } [Opd.gw 4 false, Opd.vr 4 false] ∧
    MayIssue (world vals) vals (group0 vals) (wordOf 12 4 4 0 10 0 0) { noUses with d := true, a := true, b := true, ty := [0, 10], x := 3 }
      [Opd.vw 12 true, Opd.vr 4 true, Opd.vr 4 false] ∧
    MayIssue (world vals) vals (group0 vals) (wordOf 12 4 0 0 0 0 0x1F01) { noUses with d := true, a := true, b := false, ty := [0, 10], x := 0x1F03 }
      [Opd.vw 12 false, Opd.vr 4 false] ∧
    MayIssue (world vals) vals (group0 vals) (wordOf 12 4 0 0 0 0 0x1F) { noUses with d := true, a := true, b := true, ty := [0, 10], x := 0x1F }
      [Opd.vw 12 false, Opd.vr 4 false] ∧
    MayIssue (world vals) vals (group0 vals) (wordOf 12 4 8 0 0 0 0) { noUses with d := true, a := true, b := true, ty := [0, 10], x := 0 }
      [Opd.vw 12 false, Opd.vr 4 false, Opd.gr 8 false] ∧
    MayIssue (world vals) vals (group0 vals) (wordOf 12 4 0 0 11 4 8) { noUses with
        d := true, a := true, ty := [0, 1, 2, 3, 4, 5, 6, 7, 8, 10, 11], x := 0xF, md := [0, 4] } [Opd.vw 12 true, Opd.vr 4 true] ∧
    MayIssue (world vals) vals (group0 vals) (wordOf 12 4 0 0 6 0 2) { noUses with
        d := true, a := true, ty := [0, 1, 2, 3, 4, 5, 6, 7, 8, 10, 11], x := 0x7, md := [0] } [Opd.vw 12 false, Opd.vr 4 false] ∧
    (env vals).mask ≠ 0 ∧ (nodeOf 0 11 4 1 2).2 = 0 ∧ (nodeOf 2 6 0 0x3F800000 0).2 = 0 := by
  constructorm* _ ∧ _
  all_goals first
    | decide +kernel
    | (refine mayIssue_vals rfl ?_ ?_
       · unfold Uses.ok Uses.clean Uses.typed; constructorm* _ ∧ _ <;> decide +kernel
       · unfold OperandsReady; constructorm* _ ∧ _ <;> decide +kernel)

/-- VOTE.ballot of the lanes that are not zero, and the sum of the lane numbers. -/
theorem test_vote_vred : pending 0 (exec (.vote (wordOf 6 4 0 0 0 0 0)) (world vals)) = [(6, 2, [], 0xFFFFFFFE)] ∧
    pending 1 (exec (.vred (wordOf 12 4 0 0 0 0 0)) (world vals)) = [(12, 7, [496], 0)] := by
  constructor <;> decide +kernel

/-- The fields and operands of a word whose group stands in slot 0. -/
def formOf (i : Instr) : Option (LaneWord × Uses × Bool × List Opd) := wordForm (env vals) i

/-- A reserved field, a mask register as destination of a comparison, a type the word does not take, an odd pair, a vector and a
scalar register out of range; the words that trap; a switch without an end of run; a continuation of another kind. -/
theorem witness_LaneTraps :
    (world vals).grp? = some (vals, group0 vals) ∧ Placed (group0 vals) (header false false false) false ∧ Uses.ok noUses (wordOf 0 0 0 0 0 0 0) ∧
    Uses.ok { noUses with x := 0x3F } (wordOf 0 0 0 0 0 0 0x3F) ∧ laneKind (0x060200000000000000000000 : LaneBits) ≠ 3 ∧
    (∃ v u ok ops, formOf (.vnop (wordOf 0 0 0 1 0 0 0)) = some (v, u, ok, ops) ∧ ¬ u.clean v) ∧
    (∃ v u ops, formOf (.vcmp (wordOf 3 4 4 0 0 0 0)) = some (v, u, false, ops) ∧ u.clean v) ∧
    (∃ v u ops, formOf (.vadd (wordOf 3 4 4 0 6 0 0)) = some (v, u, true, ops) ∧ u.clean v ∧ ¬ u.typed v) ∧
    (∃ v u ops, formOf (.vld (wordOf 3 4 4 0 10 0 0)) = some (v, u, true, ops) ∧ u.ok v ∧ ∃ o ∈ ops, o.pair = true ∧ o.num % 2 = 1) ∧
    (∃ v u ops, formOf (.fneg (wordOf 32 4 0 0 6 0 0)) = some (v, u, true, ops) ∧ u.ok v ∧ (∀ o ∈ ops, o.pair = true → o.num % 2 = 0) ∧
      ∃ o ∈ ops, o.vec = true ∧ ∃ k ∈ o.names, vals.n ≤ k) ∧
    (∃ v u ops, formOf (.qpop (wordOf 3 16 0 0 0 0 0)) = some (v, u, true, ops) ∧ u.ok v ∧ (∀ o ∈ ops, o.pair = true → o.num % 2 = 0) ∧
      (∀ o ∈ ops, o.vec = true → ∀ k ∈ o.names, k < vals.n) ∧ ∃ o ∈ ops, o.vec = false ∧ ∃ k ∈ o.names, vals.q ≤ k) ∧
    (wordOf 0 0 0 0 0 0 0).hdr = header false false false ∧ (header false false true).sw = true ∧ (header false false true).fin = false ∧
    (group0 vals).pos.slot < 23 ∧ ({ hdr := header true false false, kind := 2, body := 0 } : ContWord).kind ≠ 3 := by
  refine ⟨rfl, ⟨by decide, by simp [header], by simp⟩, ?_, ?_, by decide, ⟨_, _, _, _, rfl, ?_⟩, ⟨_, _, _, rfl, ?_⟩, ⟨_, _, _, rfl, ?_, ?_⟩,
    ⟨_, _, _, rfl, ?_, ?_⟩, ⟨_, _, _, rfl, ?_, ?_, ?_⟩, ⟨_, _, _, rfl, ?_, ?_, ?_, ?_⟩, rfl, rfl, rfl, by decide, by decide⟩
  all_goals
    first | unfold Uses.ok Uses.clean Uses.typed | unfold Uses.clean | unfold Uses.typed | skip
    decide +kernel

/-- The last slots of a run, and the one after them. -/
def atSlot (k : Nat) : Ctx := { vals with groups := vals.groups.map (fun g => { g with pos := { g.pos with slot := k } }) }

theorem witness_LaneTraps_slots :
    (world (atSlot 24)).grp? = some (atSlot 24, group0 (atSlot 24)) ∧ 24 ≤ (group0 (atSlot 24)).pos.slot ∧
    (world (atSlot 23)).grp? = some (atSlot 23, group0 (atSlot 23)) ∧ (group0 (atSlot 23)).pos.slot = 23 := by
  constructorm* _ ∧ _ <;> decide +kernel

/-- In debug schedule mode, a read of a result still outstanding, and of a register a loop owns. -/
def outstanding : VarRes :=
  { gs := false, regs := [4], lanes := 0xFFFFFFFF, vals := [lanes (fun _ => 7)], taint := false, poison := Poison.none, written := false,
    remote := [], popQueue := none, conflict := 0, junk := [], pool := [] }

def running : Loop :=
  { win := List.range 32, a := 0, b := 0, ia := 0, ib := 0, k := 1, next := 0, fmt := 0x44000D00, unf := none, time := 0,
    touched := false, complete := false, visible := false, told := [], spoiled := false, poison := none, flags := 0 }

def hazard (outs : List VarRes) (loops : List Loop) : Ctx :=
  { vals with debug := true, groups := vals.groups.map (fun g => { g with outs := outs, loops := loops }) }

theorem witness_LaneTraps_hazards :
    (env (hazard [outstanding] [])).uncovered [Opd.vr 4 false] (fun _ => true) = true ∧
    (env (hazard [outstanding] [])).owns [Opd.vr 4 false] (fun _ => true) = false ∧
    (env (hazard [] [running])).owns [Opd.vr 4 false] (fun _ => true) = true ∧ (hazard [] [running]).debug = true ∧
    (group0 (hazard [] [running])).pos.exmask ≠ 0 := by constructorm* _ ∧ _ <;> decide +kernel

/-! ### Witnesses: lane accesses, queues, truss mode, pairs -/

theorem mayIssue_of {s : State} {x : Ctx} {g : Machine.Group} {w : LaneWord} {u : Uses} {ops : List Opd} (hg : s.grp? = some (x, g))
    (hd : x.debug = false) (hp : g.pos.slot < 24) (hs : w.hdr.sw = false) (hu : u.ok w) (ho : OperandsReady (Env.of s x g) ops) :
    MayIssue s x g w u ops := by
  refine ⟨⟨hg, hd, hp, ?_, by simp⟩, hu, ho⟩
  intro h'
  simp [hs] at h'

theorem forall_active {e : Env} {P : Nat → Prop} (h : ∀ i, i < 32 → e.mask.getLsbD i = true → P i) : ∀ i, Active e i → P i :=
  fun i hi => h i hi.1 hi.2

/-- Lane i accesses the word at 4i from 0x1FF000; g8 is the start of a scratchpad range of the cluster's second team. -/
def accessing : Ctx := withV team [(4, lanes (fun i => 4 * i)), (5, lanes (fun i => i + 1)), (9, lanes (fun _ => 0x20))]
  [(6, 0x1FF000), (8, 0x01100000), (10, 0x200), (12, 0x40), (13, 0x10)]

/-- The fault of a check that fails. -/
def errOf {α : Type} (r : Except (AFault × W64) α) : Option (AFault × W64) := match r with | .error f => some f | .ok _ => none

theorem error_of {α : Type} {r : Except (AFault × W64) α} {f : AFault × W64} (h : errOf r = some f) : r = .error f := by
  cases r with
  | error g => exact congrArg _ (Option.some.inj h)
  | ok c => cases h

theorem passes_of {α : Type} {r : Except (AFault × W64) α} (h : errOf r = none) : ∃ p, r = .ok p := by
  cases r with
  | error g => cases h
  | ok c => exact ⟨c, rfl⟩

theorem some_of {β : Type} {o : Option β} (h : o.isSome = true) : o = some (o.get h) := (Option.some_get h).symm

theorem lowestFault_of {α : Type} {e : Env} {chk : Nat → Except (AFault × W64) α} {k : Nat} {f : AFault} {a : W64} {m : Lanes}
    (hk : Active e k) (hf : errOf (chk k) = some (f, a)) (hl : ∀ i, i < k → errOf (chk i) = none)
    (hm : ∀ i, i < 32 → m.getLsbD i = (e.mask.getLsbD i && (errOf (chk i)).any (fun q => q.1.cause == f.cause))) :
    LowestFault e chk k f a m := by
  refine ⟨hk, error_of hf, fun i hi _ => passes_of (hl i hi), fun i hi => ?_⟩
  rw [hm i hi, Bool.and_eq_true]
  constructor
  · rintro ⟨h1, h2⟩
    cases hq : errOf (chk i) with
    | none => simp [hq] at h2
    | some q => exact ⟨⟨hi, h1⟩, q.1, q.2, error_of hq, by simpa [hq] using h2⟩
  · rintro ⟨h1, g, b, hq, hc⟩
    refine ⟨h1.2, ?_⟩
    rw [show errOf (chk i) = some (g, b) by rw [hq]; rfl]
    simpa using hc

/-- The address of lane i's word from g[6] with offset x. -/
def memAt (x : W32) (i : Nat) : W64 := laneAddress (env accessing) (wordOf 12 6 4 0 0 0 x) (pairBase (env accessing) 6) i

/-- Lane 0 reads the last mapped word, and lanes 1 to 31 fault; a page the TLBs do not hold. -/
theorem witness_LaneMemoryResults_faults :
    (∃ f a, LowestFault (env accessing) (fun k => memCheck (env accessing) .rd (memAt 0xFFC k) 4 false) 1 f a 0xFFFFFFFE) ∧
    (∀ k, Active (env accessing) k → ∃ p, memCheck (env accessing) .rd (memAt 0xFFF02000 k) 4 false = .ok p) ∧
    tlbMisses (world accessing) 0 0 (((List.range 32).filter (fun k => (env accessing).mask.getLsbD k)).map (memAt 0xFFF02000)) ≠ [] ∧
    (∃ f, checkAccess (world accessing) 0 0 .rd pathL (pairBase (env accessing) 12) 4 false = .error f) ∧
    tlbMisses (world accessing) 0 0 [0x100000] ≠ [] := by
  refine ⟨⟨_, _, lowestFault_of (by unfold Active; decide +kernel)
    (some_of (o := errOf (memCheck (env accessing) .rd (memAt 0xFFC 1) 4 false)) (by decide +kernel)) (by decide +kernel) (by decide +kernel)⟩, fun k hk => passes_of ?_, by decide +kernel, ⟨_, rfl⟩, by decide +kernel⟩
  have h : ∀ k, k < 32 → errOf (memCheck (env accessing) .rd (memAt 0xFFF02000 k) 4 false) = none := by decide +kernel
  exact h k hk.1

theorem witness_LaneMemoryResults :
    (env accessing).mask ≠ 0 ∧
    MayIssue (world accessing) accessing (group0 accessing) (wordOf 12 6 4 0 0 0 0) (memUses memTypes) [Opd.vw 12 false, Opd.gr 6 true, Opd.vr 4 false] ∧
    LanesReach (env accessing) .rd (fun i => laneAddress (env accessing) (wordOf 12 6 4 0 0 0 0) (pairBase (env accessing) 6) i) 4 false
      (fun i => 0x1FF000 + 4 * i) ∧
    MayIssue (world accessing) accessing (group0 accessing) (wordOf 5 6 4 0 0 0 0) (memUses memTypes) [Opd.vr 5 false, Opd.gr 6 true, Opd.vr 4 false] ∧
    LanesReach (env accessing) .wr (fun i => laneAddress (env accessing) (wordOf 5 6 4 0 0 0 0) (pairBase (env accessing) 6) i) 4 false
      (fun i => 0x1FF000 + 4 * i) ∧
    MayIssue (world accessing) accessing (group0 accessing) (wordOf 14 6 0 0 11 0 0xFF8)
      { memUses [0, 1, 2, 3, 4, 5, 10, 11] with b := false } [Opd.gw 14 true, Opd.gr 6 true] ∧
    checkAccess (world accessing) 0 0 .rd pathL (pairBase (env accessing) 6 + (0xFF8 : W32).signExtend 64) 8 false = .ok 0x1FFFF8 ∧
    tlbMisses (world accessing) 0 0 [pairBase (env accessing) 6 + (0xFF8 : W32).signExtend 64] = [] ∧
    MayIssue (world accessing) accessing (group0 accessing) (wordOf 12 6 4 5 1 5 0)
      { memUses [0, 1, 10, 11] with c := true, md := [0, 1, 2, 3, 4, 5, 6, 7] }
      ([Opd.vw 12 false, Opd.gr 6 true, Opd.vr 4 false, Opd.vr 5 false] ++ [Opd.vr 12 false]) ∧
    LanesReach (env accessing) .at (fun i => laneAddress (env accessing) (wordOf 12 6 4 5 1 5 0) (pairBase (env accessing) 6) i) 4 true
      (fun i => 0x1FF000 + 4 * i) ∧
    loadPoison (world accessing) (groupPath 0 0 0 .l) 0x1FFFF8 8 = none ∧
    LanesRead (env accessing) (world accessing) (fun i => 0x1FF000 + 4 * i) 4 ∧ spillHit (world accessing) 0x1FFFF8 8 = [] := by
  constructorm* _ ∧ _
  all_goals first
    | decide +kernel
    | (refine mayIssue_of rfl rfl (by decide) rfl ?_ ?_
       · unfold Uses.ok Uses.clean Uses.typed; constructorm* _ ∧ _ <;> decide +kernel
       · unfold OperandsReady; constructorm* _ ∧ _ <;> decide +kernel)
    | exact forall_active (by decide +kernel)
    | exact ⟨forall_active (by decide +kernel), by decide +kernel⟩

/-- Under a zero execute mask a load, a store and an atomic issue and do nothing (15 R436). -/
def masked0 : Ctx := { accessing with groups := accessing.groups.map (fun g => { g with pos := { g.pos with exmask := 0 } }) }

theorem witness_zeroMask :
    (env masked0).mask = 0 ∧
    (∃ u vals ops, wordForm (env masked0) (.vst (wordOf 5 6 4 0 0 0 0)) = some (wordOf 5 6 4 0 0 0 0, u, vals, ops)) ∧
    MayIssue (world masked0) masked0 (group0 masked0) (wordOf 5 6 4 0 0 0 0) (memUses memTypes) [Opd.vr 5 false, Opd.gr 6 true, Opd.vr 4 false] := by
  refine ⟨by decide +kernel, ⟨_, _, _, rfl⟩, mayIssue_of rfl rfl (by decide) rfl ?_ ?_⟩
  · unfold Uses.ok Uses.clean Uses.typed; constructorm* _ ∧ _ <;> decide +kernel
  · unfold OperandsReady; constructorm* _ ∧ _ <;> decide +kernel

theorem test_zero_mask : (went (exec (.vst (wordOf 5 6 4 0 0 0 0)) (world masked0))).map (fun t => (t.queue.length, (myGroup t).pos.slot)) =
    some (0, 1) := by decide +kernel

/-- The store of lane 31 is the last of the queue, 128 bytes on; the group sees it, and the control slice does not yet. -/
theorem test_vst : (went (exec (.vst (wordOf 5 6 4 0 0 0 0)) (world accessing))).map (fun t =>
      (t.queue.length, t.queue.getLast?.map (·.cells.map (·.1)), Machine.seenByte t (groupPath 0 0 0 .l) none 0x1FF07C, Machine.seenByte t (own .c) none 0x1FF07C)) =
    some (32, some [0x1FF07C, 0x1FF07D, 0x1FF07E, 0x1FF07F], 32, 0) := by decide +kernel

/-! A cluster of two teams on two cores, each with 4096 bytes of scratchpad. -/

def twoTeams : Launch :=
  { placeLaunchRec with
    img := { placeImage with teams := 2, w := 2, h := 1, scratch := 4096, n := 32, q := 16, entries := [32] }
    queues := 0x8001
    placed := [{ cores := [(0, 0, 0), (1, 0, 0)], exited := [false, false], triggers := [false, false], freed := false }] }

def reserved (t : Nat) : Resv := { part := 0, launch := 0, cluster := 0, team := t, lines := List.range 32 }

def cluster (x : Ctx) : State :=
  { world x with
    launches := [twoTeams]
    cores := [{ ((world x).core 0) with resvs := [reserved 0] }, { Core.idle with resvs := [reserved 1] }] }

def envC (x : Ctx) : Env := Env.of (cluster x) x (group0 x)

/-- Byte j of lane i's word from a scratchpad offset on. -/
def wordsAt (core off i : Nat) : List (Nat × Nat) := (List.range 4).map (fun j => (core, off + 4 * i + j))

/-- An extraction pattern of 8-bit signed fields into I8, one in each byte; and one whose field is wider than its target. -/
def bytePattern : W64 := BitVec.ofNat 64 (4 * 2 ^ 34 + 2 ^ 33 + 7 * 2 ^ 5 + 7)
def widePattern : W64 := BitVec.ofNat 64 (4 * 2 ^ 34 + 31 * 2 ^ 5 + 8)

theorem test_patterns : (fieldsOf bytePattern).valid ∧ ¬ (fieldsOf widePattern).valid := by
  refine ⟨⟨by decide +kernel, by decide +kernel, ?_⟩, fun h => absurd (show (fieldsOf widePattern).w ≤ 8 from h.2.2) (by decide +kernel)⟩
  show (fieldsOf bytePattern).w ≤ 8
  decide +kernel

theorem bytes_of_lane {b : List (Nat × Nat)} {P : Nat → Nat × Nat → Prop} (h : ∀ j, j < b.length → P j (b.getD j (0, 0))) :
    ∀ (j : Nat) (p : Nat × Nat), b[j]? = some p → P j p := by
  intro j p hp
  obtain ⟨hj, hv⟩ := List.getElem?_eq_some_iff.mp hp
  have := h j hj
  rwa [List.getD_eq_getElem?_getD, hp] at this

def patterned (v : W64) : Ctx := { accessing with groups := accessing.groups.map (fun g => { g with xpats := g.xpats.set 3 v }) }

/-- The bytes of an access that passes its checks. -/
def okBytes (r : Except (AFault × W64) ScrBytes) : Option (List (Nat × Nat)) := match r with | .ok b => some b | .error _ => none

theorem ok_of {r : Except (AFault × W64) ScrBytes} {b : List (Nat × Nat)} (h : okBytes r = some b) : r = .ok b := by
  cases r with
  | error f => cases h
  | ok c => exact congrArg _ (Option.some.inj h)

theorem scratchReaches_of {e : Env} {k : Kind} {addr : Nat → W64} {n align : Nat} {b : Nat → List (Nat × Nat)}
    (h : ∀ i, i < 32 → okBytes (e.checkScrAt k (addr i) n align) = some (b i) ∧
      ∀ p ∈ b i, p.1 = e.core → presenceOf (e.s.core e.core) (p.2 / 128) = 0) :
    ScratchReaches e k addr n align b := fun i hi => ⟨ok_of (h i hi.1).1, (h i hi.1).2⟩

/-- Its own scratchpad and that of the cluster's second team; an extraction; a store over another lane's; an atomic. -/
theorem witness_ScratchpadResults :
    (envC accessing).mask ≠ 0 ∧
    MayIssue (cluster accessing) accessing (group0 accessing) (wordOf 12 10 4 0 0 0 0) (memUses memTypes) [Opd.vw 12 false, Opd.gr 10 false, Opd.vr 4 false] ∧
    ScratchReaches (envC accessing) .rd (laneAddress (envC accessing) (wordOf 12 10 4 0 0 0 0) (((envC accessing).gval 10).zeroExtend 64)) 4 4
      (wordsAt 0 0x200) ∧
    (∀ k, Active (envC accessing) k → Here (envC accessing) (wordsAt 0 0x200 k)) ∧
    ScratchReaches (envC accessing) .rd (laneAddress (envC accessing) (wordOf 12 8 4 0 0 0 0) (((envC accessing).gval 8).zeroExtend 64)) 4 4
      (wordsAt 1 0) ∧
    (∃ k, Active (envC accessing) k ∧ ¬ Here (envC accessing) (wordsAt 1 0 k)) ∧
    ScratchReaches (envC accessing) .wr (laneAddress (envC accessing) (wordOf 5 10 4 0 0 0 0) (((envC accessing).gval 10).zeroExtend 64)) 4 4
      (wordsAt 0 0x200) ∧
    ScratchReaches (envC accessing) .at (laneAddress (envC accessing) (wordOf 12 10 4 5 0 0 0) (((envC accessing).gval 10).zeroExtend 64)) 4 4
      (wordsAt 0 0x200) ∧
    (∀ k, Active (envC accessing) k → wordsAt 0 0x200 k = (List.range 4).map (fun j => (0, ((wordsAt 0 0x200 k).headD (0, 0)).2 + j))) ∧
    MayIssue (cluster (patterned bytePattern)) (patterned bytePattern) (group0 (patterned bytePattern)) (wordOf 12 10 4 3 0 0 0)
      { memUses [] with c := true } [Opd.vw 12 false, Opd.gr 10 false, Opd.vr 4 false] ∧
    ∀ i, Active (envC (patterned bytePattern)) i →
      [(0, 0x200 + 4 * i)].length = ((fieldsOf bytePattern).bit (4 * i) + 8 - 1) / 8 - (fieldsOf bytePattern).bit (4 * i) / 8 + 1 ∧
      okBytes ((envC (patterned bytePattern)).checkScrAt .rd (0x200 + BitVec.ofNat 64 ((fieldsOf bytePattern).bit (4 * i) / 8 + 0)) 1 1) =
        some [(0, 0x200 + 4 * i)] := by
  constructorm* _ ∧ _
  all_goals first
    | decide +kernel
    | (refine mayIssue_of rfl rfl (by decide) rfl ?_ ?_
       · unfold Uses.ok Uses.clean Uses.typed; constructorm* _ ∧ _ <;> decide +kernel
       · unfold OperandsReady; constructorm* _ ∧ _ <;> decide +kernel)
    | exact forall_active (by unfold Here; decide +kernel)
    | exact forall_active (by decide +kernel)
    | exact scratchReaches_of (by decide +kernel)
    | exact ⟨0, by unfold Active; decide +kernel, by unfold Here; decide +kernel⟩

/-- Lane i's word from g[a]. -/
def scrAt (a : BitVec 8) (i : Nat) : W64 := laneAddress (envC accessing) (wordOf 12 a 4 0 0 0 0) (((envC accessing).gval a).zeroExtend 64) i

/-- The team's fourth line is not there. -/
def unlanded : State := { cluster accessing with cores := (cluster accessing).cores.map (fun co => { co with presence := [(4, 1)] }) }

def envU : Env := Env.of unlanded accessing (group0 accessing)

/-- Atomics in the cluster's other core, an address beyond the cluster's teams, an absent line. -/
theorem witness_ScratchpadResults_waits :
    ScratchReaches (envC accessing) .at (scrAt 8) 4 4 (wordsAt 1 0) ∧ (envC accessing).core < (cluster accessing).cores.length ∧
    Memory.wf (cluster accessing) = true ∧
    (∃ f a m, LowestFault (envC accessing) (fun k => (envC accessing).checkScrAt .rd (scrAt 6 k) 4 4) 0 f a m) ∧
    (∀ k, Active envU k → ∃ p, envU.checkScrAt .rd (scrAt 10 k) 4 4 = .ok p) ∧
    (∃ l, presenceOf (unlanded.core envU.core) l ≠ 0 ∧
      ∃ k bs p, Active envU k ∧ envU.checkScrAt .rd (scrAt 10 k) 4 4 = .ok bs ∧ p ∈ bs ∧ p.1 = envU.core ∧ p.2 / 128 = l) ∧
    ∀ l, haltedOn unlanded (envU.core, l) = none := by
  refine ⟨scratchReaches_of (by decide +kernel), by decide +kernel, by decide +kernel, ?_, ?_, ⟨4, by decide +kernel, 0, wordsAt 0 0x200 0, (0, 0x200),
    by unfold Active; decide +kernel, ok_of (by decide +kernel), by decide +kernel, rfl, by decide +kernel⟩, ?_⟩
  · exact ⟨_, _, 0xFFFFFFFF, lowestFault_of (by unfold Active; decide +kernel)
      (some_of (o := errOf ((envC accessing).checkScrAt .rd (scrAt 6 0) 4 4)) (by decide +kernel)) (by intro i hi; omega) (by decide +kernel)⟩
  · intro k hk
    have h : ∀ k, k < 32 → errOf (envU.checkScrAt .rd (scrAt 10 k) 4 4) = none := by decide +kernel
    exact passes_of (h k hk.1)
  · intro l
    rfl

theorem test_vlds : pending 2 (exec (.vlds (wordOf 12 10 4 0 0 0 0)) { cluster accessing with
    cores := (cluster accessing).cores.map (fun co => { co with scr := [(0x204, 7)] }) }) = [(12, 11, [0, 7], 0)] := by decide +kernel

theorem laneActs_of {s : State} {x : Ctx} {g : Machine.Group} {h : Hdr} (hg : s.grp? = some (x, g)) (hd : x.debug = false)
    (hp : g.pos.slot < 24) (hf : h.fin = true ∨ h.bnd = true) : LaneActs s x g h true := ⟨hg, hd, hp, fun _ => hf, fun _ => hf⟩

def endWord (a b : BitVec 8) (x : W32) : LaneWord := { bareWord 0 a b with hdr := header false true false, x := x }

/-- A launch with a spill buffer of four records, the gatherer with room or spilling. -/
def spillTeam : Launch := { twoTeams with img := { twoTeams.img with spill := 4096 }, spillBase := 0x1FE000 }

def spawns (x : Ctx) (spilling : Bool) : State :=
  { cluster x with launches := [spillTeam], cores := (cluster x).cores.map (fun co => { co with spilling := spilling }) }

def envS (x : Ctx) (sp : Bool) : Env := Env.of (spawns x sp) x (group0 x)

/-- The team with another join counter. -/
def spawnsTo (join : W32) : Ctx := withV accessing [] [(6, join)]

def deepChild : Ctx := { accessing with child := some { depth := 15, joins := [] } }

theorem witness_FenceQueueSpawnWords :
    LaneActs (cluster accessing) accessing (group0 accessing) (header false true false) true ∧
    Uses.ok { noUses with x := 0x1F0 } (endWord 0 0 0x1B0) ∧ Uses.ok { noUses with x := 0x1FF } (endWord 0 0 0x19C) ∧
    MayIssue (cluster accessing) accessing (group0 accessing) (wordOf 12 11 0 0 0 0 0) { noUses with d := true, a := true }
      [Opd.vw 12 false, Opd.gr 11 false] ∧
    queueCore (envC accessing) ((envC accessing).gval 11) = some 0 ∧ queueCore (envC accessing) ((envC accessing).gval 10) = none ∧
    (envC accessing).mask ≠ 0 ∧
    MayIssue (cluster accessing) accessing (group0 accessing) (wordOf 0 13 5 0 0 0 0) { noUses with a := true, b := true }
      [Opd.gr 13 false, Opd.vr 5 false] ∧
    queueCore (envC accessing) ((envC accessing).gval 13) = some 1 ∧
    MayIssue (spawns accessing false) accessing (group0 accessing) (wordOf 0 9 5 6 0 0 4) (spawnUses (wordOf 0 9 5 6 0 0 4))
      (spawnOps (wordOf 0 9 5 6 0 0 4)) ∧
    (accessing.img (cluster accessing)).spill = 0 ∧ (accessing.img (spawns accessing false)).spill ≠ 0 ∧
    (∀ i, i < 32 → (envS accessing false).val 9 i false ∈ (accessing.img (spawns accessing false)).entries) ∧
    (envS accessing false).val 5 0 false ∉ (accessing.img (spawns accessing false)).entries ∧
    checkAccess (spawns accessing false) 0 0 .sp pathS (pairBase (envS accessing false) 6) 4 true = .ok 0x1FF000 ∧
    tlbMisses (spawns accessing false) 0 0 [pairBase (envS accessing false) 6] = [] ∧ gatherLoad (spawns accessing false) 0 + 32 ≤ 4096 ∧
    accessing.launch? (spawns accessing true) = some spillTeam ∧ ((spawns accessing true).core 0).spilling = true ∧
    spillLoad (spawns accessing true) spillTeam + 32 ≤ (accessing.img (spawns accessing true)).spill / 32 ∧
    spillFault (spawns accessing true) spillTeam
      (freeSlots spillTeam (spillLoad (spawns accessing true) spillTeam - spillTeam.spilled.length) 32) = none ∧
    (∃ f, checkAccess (spawns (spawnsTo 0x200000) false) 0 0 .sp pathS (pairBase (envS (spawnsTo 0x200000) false) 6) 4 true = .error f) ∧
    checkAccess (spawns (spawnsTo 0x100000) false) 0 0 .sp pathS (pairBase (envS (spawnsTo 0x100000) false) 6) 4 true = .ok 0x100000 ∧
    tlbMisses (spawns (spawnsTo 0x100000) false) 0 0 [pairBase (envS (spawnsTo 0x100000) false) 6] ≠ [] ∧
    (spillFault (spawns accessing true) { spillTeam with spillBase := 0x200000 } [0]).isSome = true ∧
    deepChild.child.map (·.depth) = some 15 ∧
    MayIssue (world vals) vals (group0 vals) (wordOf 0 0 0 0 0 0 0) noUses [] := by
  constructorm* _ ∧ _
  all_goals first
    | decide +kernel
    | exact laneActs_of rfl rfl (by decide) (.inr rfl)
    | exact ⟨_, rfl⟩
    | (refine mayIssue_of rfl rfl (by decide) rfl ?_ ?_
       · unfold Uses.ok Uses.clean Uses.typed; constructorm* _ ∧ _ <;> decide +kernel
       · unfold OperandsReady; constructorm* _ ∧ _ <;> decide +kernel)
    | (unfold Uses.ok Uses.clean Uses.typed; constructorm* _ ∧ _ <;> decide +kernel)

/-- The cluster with the team's group in truss mode. -/
def trussed (x : Ctx) : State :=
  { cluster x with cores := (cluster x).cores.map (fun co => { co with
      lanesets := co.lanesets.set 0 { running := some (0, 0), truss := some (0, 0), trussWait := [] } }) }

def looping (loops : List Loop) : Ctx :=
  { accessing with groups := accessing.groups.map (fun g => { g with fmt := 0x44000D00, loops := loops }) }

def unfolded : Unf :=
  { t := 0x40, oy0 := 0, ox0 := 0, chans := 1, ow := 4, h := 4, w := 4, kh := 1, kw := 1, sy := 1, sx := 1, dy := 1, dx := 1, py := 0, px := 0, e := 1 }

def unfolding : Ctx := { looping [] with groups := (looping []).groups.map (fun g => { g with unf := some unfolded }) }

def lead (d a b c : BitVec 8) (x : W32) : LaneWord := { bareWord d a b with c := c, x := x }

def cont (body : BitVec 91) : ContWord := { hdr := header true false false, kind := 3, body := body }

theorem doubleMayIssue_of {s : State} {x : Ctx} {g : Machine.Group} {w : LaneWord} {y : ContWord} {u : Uses} {ops : List Opd}
    (hg : s.grp? = some (x, g)) (hd : x.debug = false) (hp : g.pos.slot < 23) (hh : w.hdr = header false false false) (hs : y.hdr.sw = false)
    (hk : y.kind = 3) (hl : w.lit = false) (hu : u.ok w) (ho : OperandsReady (Env.of s x g) ops) : DoubleMayIssue s x g w y u ops := by
  refine ⟨hg, hd, hp, hh, ?_, hk, hl, hu, ho⟩
  intro h'
  simp [hs] at h'

/-- The cluster with another group in truss mode. -/
def trussedByOther : State :=
  { cluster accessing with cores := (cluster accessing).cores.map (fun co => { co with
      lanesets := co.lanesets.set 0 { running := some (0, 0), truss := some (1, 0), trussWait := [] } }) }

theorem witness_TrussWords :
    LaneActs trussedByOther accessing (group0 accessing) (header false true false) true ∧ (trussedByOther.laneSetAt 0 0).truss = some (1, 0) ∧
    ((0, 0) : Nat × Nat) ∉ (trussedByOther.laneSetAt 0 0).trussWait ∧ (group0 accessing).async = [] ∧ (group0 accessing).pos.poisonRun = none ∧
    (group0 accessing).pos.marked = false ∧ (group0 accessing).pos.parkFence = none ∧ (group0 accessing).pos.pushes = [] ∧
    (group0 accessing).pos.parkMmodeV = false ∧
    DoubleMayIssue (trussed (looping [running])) (looping [running]) (group0 (looping [running])) (lead 0 10 12 13 1) (cont 0x2000000020)
      { noUses with d := true, a := true, b := true, c := true, x := 3 } [Opd.gr 10 false, Opd.gr 12 false, Opd.gr 13 false] ∧
    (∃ l ∈ (group0 (looping [running])).loops, l.visible = false) ∧ (0x201 : Nat) % 32 ≠ 0 ∧
    inOwn (trussed (looping [])) ((looping []).who 0) 0x1000 0x101F = false ∧ (group0 (looping [])).unf = none ∧
    LaneActs (cluster accessing) accessing (group0 accessing) (header false true false) true ∧ Uses.ok { noUses with x := 1 } (endWord 0 0 1) ∧
    ((cluster accessing).laneSetAt 0 0).truss = none ∧ isTruss (trussed accessing) 0 0 0 = true ∧
    LaneActs (trussed accessing) accessing (group0 accessing) (header false true false) true ∧
    DoubleMayIssue (trussed (looping [])) (looping []) (group0 (looping [])) (lead 0 10 12 13 1) (cont 0x2000000020)
      { noUses with d := true, a := true, b := true, c := true, x := 3 } [Opd.gr 10 false, Opd.gr 12 false, Opd.gr 13 false] ∧
    bodyField (cont 0x2000000020) 64 27 = 0 ∧ windowOk 32 0 = true ∧ windowOk 32 1 = false ∧ productOf 0x44000D00 = some .int8 ∧
    isTruss (trussed (looping [])) 0 0 0 = true ∧
    inOwn (trussed (looping [])) ((looping []).who 0) (operandRange 0x200 32 16 Product.int8.bytes).1 (operandRange 0x200 32 16 Product.int8.bytes).2 = true ∧
    inOwn (trussed (looping [])) ((looping []).who 0) (operandRange 0x40 32 16 Product.int8.bytes).1 (operandRange 0x40 32 16 Product.int8.bytes).2 = true ∧
    windowPending (Env.of (trussed (looping [])) (looping []) (group0 (looping []))) (List.range 32) = false ∧
    (group0 (looping [])).owned (List.range 32) = false ∧
    DoubleMayIssue (trussed unfolding) unfolding (group0 unfolding) (lead 0 0 12 13 2) (cont 0x20)
      { noUses with d := true, a := false, b := true, c := true, x := 3 } [Opd.gr 12 false, Opd.gr 13 false] ∧
    (group0 unfolding).unf = some unfolded ∧ some unfolded.e = unfWidth (group0 unfolding).fmt ∧
    MayIssue (trussed (looping [running])) (looping [running]) (group0 (looping [running])) (wordOf 0 0 0 0 0 0 0) noUses [] ∧
    loopHalt (trussed (looping [running])) ((looping [running]).who 0) (group0 (looping [running])) = none ∧ running.visible = false ∧
    MayIssue (trussed (looping [])) (looping []) (group0 (looping [])) (wordOf 0 0 0 0 0 0 0) { noUses with d := true } [{ Opd.vw 0 false with rows := 32 }] ∧
    DoubleMayIssue (trussed (looping [])) (looping []) (group0 (looping [])) (lead 0 12 11 8 0x00400400) (cont 0)
      { noUses with a := true, b := true, c := true, x := 0xFFFFFF00 } [Opd.gr 12 false, Opd.gr 11 false, Opd.gr 8 false] ∧
    unfWidth 0x44000D00 = some 1 ∧ unfWidth 0 = none ∧ inOwn (trussed (looping [])) ((looping []).who 0) 0x40 (0x40 + 15) = true := by
  constructorm* _ ∧ _
  all_goals first
    | decide +kernel
    | exact laneActs_of rfl rfl (by decide) (.inr rfl)
    | (refine mayIssue_of rfl rfl (by decide) rfl ?_ ?_
       · unfold Uses.ok Uses.clean Uses.typed; constructorm* _ ∧ _ <;> decide +kernel
       · unfold OperandsReady; constructorm* _ ∧ _ <;> decide +kernel)
    | (refine doubleMayIssue_of rfl rfl (by decide) rfl rfl rfl rfl ?_ ?_
       · unfold Uses.ok Uses.clean Uses.typed; constructorm* _ ∧ _ <;> decide +kernel
       · unfold OperandsReady; constructorm* _ ∧ _ <;> decide +kernel)
    | (unfold Uses.ok Uses.clean Uses.typed; constructorm* _ ∧ _ <;> decide +kernel)

/-- The group in truss mode, and a group of the next context that waits for the lane set. -/
def trussWaiter : Ctx := { team with groups := team.groups.map (fun g => { g with pos := { g.pos with status := .trussWaiting } }) }
def handing : State :=
  { trussed accessing with cores := (trussed accessing).cores.map (fun co => { co with
      ctxs := [accessing, trussWaiter], lanesets := co.lanesets.set 0 { running := some (0, 0), truss := some (0, 0), trussWait := [(1, 0)] } }) }

/-- A loop whose operand lies in a line that a halted transfer holds. -/
def haltedLine : Chan :=
  { haltedChan with active := some { byteMove with lines := [(0, 0)] }, queued := none, faultCause := 0x100, faultInfo := 5 }
def loopHalted : State :=
  { trussed (looping [running]) with cores := (trussed (looping [running])).cores.map (fun co => { co with
      presence := [(0, 1)], chans := co.chans.set 2 haltedLine }) }

theorem witness_TrussWords_waits :
    LaneActs handing accessing (group0 accessing) (header false true false) true ∧ isTruss handing 0 0 0 = true ∧ (group0 accessing).loops = [] ∧
    (handing.laneSetAt 0 0).trussWait = (1, 0) :: [] ∧ (handing.core 0).ctxs[1]? = some trussWaiter ∧
    trussWaiter.groups[0]? = some (group0 trussWaiter) ∧ (group0 trussWaiter).pos.status = .trussWaiting ∧
    isTruss trussedByOther 0 0 0 = false ∧
    MayIssue loopHalted (looping [running]) (group0 (looping [running])) (wordOf 0 0 0 0 0 0 0) noUses [] ∧
    loopHalt loopHalted ((looping [running]).who 0) (group0 (looping [running])) = some (0, 2) := by
  constructorm* _ ∧ _
  all_goals first
    | decide +kernel
    | exact laneActs_of rfl rfl (by decide) (.inr rfl)
    | (refine mayIssue_of rfl rfl (by decide) rfl ?_ ?_
       · unfold Uses.ok Uses.clean Uses.typed; constructorm* _ ∧ _ <;> decide +kernel
       · unfold OperandsReady; constructorm* _ ∧ _ <;> decide +kernel)

/-- MMODE.v hands the lane set over; MWAIT raises the fault of the halted transfer, a severed region in FINFO (06 R151, 13 R384). -/
theorem test_truss_waits :
    (went (exec (.mmodeV (endWord 0 0 0)) handing)).map (fun t => ((t.laneSetAt 0 0).truss, (t.group 0 1 0).pos.status)) =
      some (some (1, 0), .eligible) ∧
    (went (exec (.mwait (wordOf 0 0 0 0 0 0 0)) loopHalted)).map (fun t => ((t.ctx 0 0).trig.map (fun g => (g.cause, g.finfo)))) =
      some (some (0x100, 5)) := by
  constructor <;> decide +kernel

theorem test_mzero : pending 1 (exec (.mzero (wordOf 0 0 0 0 0 0 0)) (world vals)) = [] ∧
    (went (exec (.mzero (wordOf 0 0 0 0 0 0 0)) (world vals))).map (fun t => (myGroup t).vregs.getD 5 []) = some VReg.zero := by
  constructor <;> decide +kernel

def pairA : PairWord := barePair (bareNarrow 0x20 12 8 9 6) (bareNarrow 0x01 20 10 11 0)
def pairB : PairWord := barePair (bareNarrow 0x61 5 10 4 0) (bareNarrow 0x20 12 10 11 6)

theorem pairs_of {a b : List Opd} {A B : List Nat} (ha : vectorsRead a = A) (hb : vectorsRead b = B)
    (hs : ∀ j ∈ A, j ∈ B → ∀ k ∈ A, k ∈ B → j = k) (hm : ∀ j ∈ A ++ B, ∀ k ∈ A ++ B, j ≠ k → j % 4 ≠ k % 4) : PairBanks a b := by
  unfold PairBanks
  rw [ha, hb]
  exact ⟨fun j k h1 h2 h3 h4 => hs j h1 h2 k h3 h4, fun j k h1 h2 => hm j h1 k h2⟩

theorem pairRules_A : PairRules pairA [Opd.vw 12 false, Opd.vr 8 false, Opd.vr 9 false] [Opd.vw 20 false, Opd.vr 10 false, Opd.vr 11 false] := by
  exact ⟨by decide, by unfold PairDest; decide +kernel, pairs_of (A := [8, 9]) (B := [10, 11]) (by decide +kernel) (by decide +kernel)
    (by decide) (by decide), by unfold PairNarrow; decide⟩

/-- The store of 12 FADD's pair: v5 to v4's addresses, beside FADD v12, v10, v11. -/
theorem pairRules_B : PairRules pairB [Opd.vw 12 false, Opd.vr 10 false, Opd.vr 11 false] [Opd.vr 5 false, Opd.gr 10 false, Opd.vr 4 false] := by
  exact ⟨by decide, by unfold PairDest; decide +kernel, pairs_of (A := [10, 11]) (B := [5, 4]) (by decide +kernel) (by decide +kernel)
    (by decide) (by decide), by unfold PairNarrow; decide⟩

/-- FADD beside VADD, a pair of one class, and FADD beside a store to the team's own scratchpad. -/
theorem witness_PairedResults :
    LaneActs (world vals) vals (group0 vals) pairA.hdr false ∧ pairA.r0 = false ∧
    narrowInstr 0x20 (widened pairA.op1 pairA.hdr) = some (.fadd (widened pairA.op1 pairA.hdr)) ∧
    narrowInstr 0x01 (widened pairA.op2 pairA.hdr) = some (.vadd (widened pairA.op2 pairA.hdr)) ∧
    (∃ u o pre P, registerWord (env vals) (wordsAt 0 0) (.fadd (widened pairA.op1 pairA.hdr)) = some (u, o, pre, P) ∧ pre ∧
      u.ok (widened pairA.op1 pairA.hdr) ∧ OperandsReady (env vals) o ∧ o = [Opd.vw 12 false, Opd.vr 8 false, Opd.vr 9 false]) ∧
    (∃ u o pre P, registerWord (env vals) (wordsAt 0 0) (.vadd (widened pairA.op2 pairA.hdr)) = some (u, o, pre, P) ∧ pre ∧
      u.ok (widened pairA.op2 pairA.hdr) ∧ OperandsReady (env vals) o ∧ o = [Opd.vw 20 false, Opd.vr 10 false, Opd.vr 11 false]) ∧
    (0x21 : BitVec 7).toNat / 32 = (0x20 : BitVec 7).toNat / 32 ∧
    narrowInstr 0x61 (widened pairB.op1 pairB.hdr) = some (.vsts (widened pairB.op1 pairB.hdr)) ∧
    (memUses memTypes).ok (widened pairB.op1 pairB.hdr) ∧
    OperandsReady (envC accessing) [Opd.vr 5 false, Opd.gr 10 false, Opd.vr 4 false] ∧
    OperandsReady (envC accessing) [Opd.vw 12 false, Opd.vr 10 false, Opd.vr 11 false] := by
  refine ⟨acts_vals _ rfl, rfl, rfl, rfl, ⟨_, _, _, _, rfl, ⟨0, flagsOf_const (by decide +kernel) (by decide +kernel) (by decide +kernel), ?_⟩, ?_, ?_, rfl⟩,
    ⟨_, _, _, _, rfl, trivial, ?_, ?_, rfl⟩, by decide, rfl, ?_, ?_, ?_⟩
  · decide
  all_goals
    first | unfold Uses.ok Uses.clean Uses.typed | unfold OperandsReady
    constructorm* _ ∧ _ <;> decide +kernel

/-- Pairs that break one rule each, and the first of two broken ones: the same destination, two registers of one bank, a 64-bit type (09
R246). -/
def badPairs : List PairWord :=
  [barePair (bareNarrow 0x20 12 8 9 6) (bareNarrow 0x01 12 10 11 0), barePair (bareNarrow 0x20 12 8 9 6) (bareNarrow 0x01 20 12 11 0),
   barePair (bareNarrow 0x20 12 8 9 6) (bareNarrow 0x01 20 10 10 10), barePair (bareNarrow 0x20 12 8 9 6) (bareNarrow 0x01 12 12 11 0)]

theorem test_bad_pairs : badPairs.map (fun p => ((went (exec (.paired p) (world vals))).bind (fun t => (t.ctx 0 0).trig)).map (·.cause)) =
    [some 0x002, some 0x003, some 0x004, some 0x002] := by decide +kernel

theorem witness_PairedResults_rules :
    (∀ p ∈ badPairs, p.hdr = pairA.hdr ∧ p.r0 = false ∧ p.op1.opn.toNat / 32 ≠ p.op2.opn.toNat / 32 ∧
      (wordForm (env vals) (.fadd (widened p.op1 p.hdr))).isSome = true ∧ (wordForm (env vals) (.vadd (widened p.op2 p.hdr))).isSome = true) ∧
    ¬ PairDest [Opd.vw 12 false, Opd.vr 8 false, Opd.vr 9 false] [Opd.vw 12 false, Opd.vr 10 false, Opd.vr 11 false] ∧
    ¬ PairBanks [Opd.vw 12 false, Opd.vr 8 false, Opd.vr 9 false] [Opd.vw 20 false, Opd.vr 12 false, Opd.vr 11 false] ∧
    ¬ PairNarrow (badPairs.getD 2 pairA) := by
  refine ⟨by decide +kernel, by unfold PairDest; decide +kernel, ?_, by unfold PairNarrow; decide⟩
  rintro ⟨-, h⟩
  exact absurd (h 8 12 (by decide +kernel) (by decide +kernel) (by decide)) (by decide)

/-- FADD v12, v8, v9 beside VADD v20, v10, v11: both read the old values. -/
theorem test_pair : pending 1 (exec (.paired pairA) (world vals)) = [(12, 3, [0x7F800000], 0), (20, 1, [0xFF8000AB], 0)] := by decide +kernel

/-! ### Witnesses: groups and teams that move on -/

theorem issuing_world (x : Ctx) : Issuing (world x) 0 := by
  refine ⟨fun h => (by cases h), ?_⟩
  intro p hp
  have h : (world x).partition 0 = some placePart := rfl
  obtain rfl := Option.some.inj (h.symm.trans hp)
  rfl

theorem live_world (x : Ctx) (hr : x.resident = true) (ht : x.trig = none) (hp : x.part = 0) : Live (world x) 0 0 x :=
  ⟨rfl, hr, ht, by rw [hp]; exact issuing_world x⟩

def write3 : Pend :=
  { kind := .vec, reg := 3, left := 1, lanes := 0x80000001, vals := lanes (fun i => i), word := 0, taint := false, poison := Poison.none }

theorem hasWork (d : Desc) (h : d.trip ≠ 0) (ha : d.activity.getLsbD 0 = true) : HasWork d 0 := ⟨h, 0, by omega, ha⟩

/-- A next descriptor that the group can see. -/
def nextDesc : Desc := { placeDesc with seq := 1, seen := 1 }
def afterFirst : Ctx := withStream vals (fun st => { st with blockQ := [placeDesc, nextDesc] })

/-- One write that lands in lanes 0 and 31; an end of a run, and of the last trip, with the next descriptor seen or none. -/
theorem witness_SlotsAndRunsEnd :
    (world vals).grp? = some (vals, group0 vals) ∧ noEnd (header false false false) ∧ DueWrite ((group0 vals).pos.pend ++ [write3]) write3 ∧
    (∀ q, DueWrite ((group0 vals).pos.pend ++ [write3]) q → q = write3) ∧
    (((group0 vals).pos.pend ++ [write3]).filter (fun q => q == write3)).length = 1 ∧ (group0 vals).vregs[3]? = some VReg.zero ∧
    VReg.zero.length = 32 ∧ (header true false false).fin = true ∧ (group0 vals).pos.marked = false ∧ (group0 vals).pos.parkMarker = false ∧
    (group0 vals).pos.parkFence = none ∧ (group0 vals).pos.pushes = [] ∧ (group0 vals).pos.parkMmodeV = false ∧
    (group0 vals).pos.trussReq = false ∧ (group0 vals).pos.poisonRun = none ∧ 0 < vals.groups.length ∧
    (vals.base + 0) % 4 < ((world vals).core 0).lanesets.length ∧ vals.descOf (group0 vals).pos.seq = some placeDesc ∧
    placeDesc.trip.toNat ≤ (group0 vals).pos.trip + 1 ∧ vals.descOf ((group0 vals).pos.seq + 1) = none ∧
    (∀ p ∈ [write3], p.reg < 65536) ∧ afterFirst.descOf ((group0 afterFirst).pos.seq + 1) = some nextDesc ∧
    nextDesc.seen.getLsbD 0 = true ∧ nextDesc.regroup = none ∧ nextDesc.bar = false ∧ HasWork nextDesc 0 ∧ afterFirst.trig = none := by
  unfold noEnd DueWrite
  constructorm* _ ∧ _
  all_goals first
    | decide +kernel
    | exact hasWork _ (by decide) (by decide +kernel)
    | (rintro q ⟨h, -⟩
       simpa [show (group0 vals).pos.pend = [] from rfl] using h)

theorem test_slot : (went (exec (.vnop (wordOf 0 0 0 0 0 0 0)) (world { vals with groups := vals.groups.map (fun g =>
    { g with pos := { g.pos with pend := [write3] } }) }))).map (fun t => ((myGroup t).vregs.getD 3 []).map (·.toNat)) =
    some (List.replicate 31 0 ++ [31]) := by decide +kernel

/-- A group that waits for the next descriptor. -/
def waitingTeam (d : Desc) : Ctx := { withStream team (fun st => { st with blockQ := [d] }) with groups := [Group.fresh 32 16 0] }

def barDesc : Desc := { placeDesc with bar := true, seen := 1 }
def emptyDesc : Desc := { placeDesc with activity := 0 }

theorem witness_DescriptorsStart :
    Live (world (waitingTeam barDesc)) 0 0 (waitingTeam barDesc) ∧ (waitingTeam barDesc).groups[0]? = some (Group.fresh 32 16 0) ∧
    (Group.fresh 32 16 0).pos.status = .waiting ∧ NextIs (waitingTeam barDesc) (Group.fresh 32 16 0) barDesc ∧ barDesc.regroup = none ∧
    (waitingTeam barDesc).strm.blockQ.head? = some barDesc ∧ (waitingTeam barDesc).strm.blockQ = [] ++ barDesc :: [] ∧
    barDesc.seen.getLsbD 0 = true ∧ HasWork barDesc 0 ∧
    NextIs (waitingTeam emptyDesc) (Group.fresh 32 16 0) emptyDesc ∧ ¬ HasWork emptyDesc 0 := by
  refine ⟨live_world _ rfl rfl rfl, rfl, rfl, rfl, rfl, rfl, rfl, by decide, hasWork _ (by decide) (by decide +kernel), rfl, ?_⟩
  rintro ⟨-, i, -, hi⟩
  simp [emptyDesc] at hi

def grouped (x : Ctx) (f : Machine.Group → Machine.Group) : Ctx := { x with groups := x.groups.map f }

def withPos (x : Ctx) (f : GroupPos → GroupPos) : Ctx := grouped x (fun g => { g with pos := f g.pos })

/-- A result that waits, of a running and of a Parked group; a QPOP and two elements; a push; a fence; an acknowledged store. -/
def owed : Ctx := grouped team (fun g => { g with outs := [{ outstanding with regs := [4, 5], vals := [lanes (fun _ => 7), lanes (fun _ => 8)] }] })
def parkedOwed : Ctx := withPos (grouped team (fun g => { g with outs := [outstanding] }))
  (fun p => { p with status := .parked, parkMarker := true, st := .between })
def popping : Ctx := grouped team (fun g => { g with outs := [{ outstanding with lanes := 0x80000001, popQueue := some 0 }] })
def pushing : Ctx := withPos team (fun p => { p with pushes := [{ lanes := 3, sel := 0x10, elems := [1, 2], poison := [none, none] }] })
def fencing : Ctx := withPos team (fun p => { p with status := .parked, parkFence := some (.fence 6 3) })
def ackedStore : RemStore := { core := 1, order := 0, parts := [([(0, 5)], none), ([(0, 6)], none)], performed := true, frozen := false }
def storedAway : Ctx := grouped team (fun g => { g with rstores := [ackedStore, { ackedStore with performed := false }] })
def remoteLoad : RemAcc :=
  { core := 1, order := 0, op := .load 0, lanes := [{ lane := 31, bytes := [(1, 0), (1, 1), (1, 2), (1, 3)], own := [], shift := 0, operand := 0, cmp := 0, junk := none, bad := none }] }
/-- A remote sum of one lane. -/
def remoteSum : RemAcc :=
  { core := 1, order := 0, op := .atomic 0 0, lanes := [{ lane := 31, bytes := (List.range 4).map (fun j => (1, 0 + j)), own := [], shift := 0, operand := 5, cmp := 0, junk := none, bad := none }] }
def summing : Ctx := grouped team (fun g => { g with outs := [{ outstanding with remote := [remoteSum] }] })
def loading : Ctx := grouped team (fun g => { g with outs := [{ outstanding with remote := [remoteLoad] }] })

def queued (x : Ctx) : State :=
  { cluster x with cores := (cluster x).cores.map (fun co => { co with queues := co.queues.set 0 { elems := [1, 2], poison := [none, none], times := [0, 0], pops := [(0, 0)] } }) }

theorem issuing_of {s : State} (h1 : s.stopped = false) (h2 : s.partition 0 = some placePart) : Issuing s 0 := by
  refine ⟨fun h => by simp [h1] at h, fun p hp => ?_⟩
  obtain rfl := Option.some.inj (h2.symm.trans hp)
  rfl

theorem stands (s : State) (x : Ctx) (hc : s.ctx 0 0 = x) (hr : x.resident = true) (hg : 0 < x.groups.length) : Stands s 0 0 0 x (group0 x) := by
  refine ⟨hc, hr, ?_⟩
  obtain ⟨g, gs, hx⟩ := List.exists_cons_of_length_pos hg
  simp [group0, Ctx.group, hx]

theorem moves (s : State) (x : Ctx) (hc : s.ctx 0 0 = x) (hr : x.resident = true) (hg : 0 < x.groups.length) (hp : x.part = 0)
    (h1 : s.stopped = false) (h2 : s.partition 0 = some placePart) : Moves s 0 0 0 x (group0 x) :=
  ⟨stands s x hc hr hg, by rw [hp]; exact issuing_of h1 h2⟩

theorem witness_GroupWaitsEnd :
    Moves (world owed) 0 0 0 owed (group0 owed) ∧ (group0 owed).outs.length = 1 ∧ (group0 owed).pos.status ≠ .parked ∧ (group0 owed).loops = [] ∧
    ((group0 owed).outs.map (·.regs)) = [[4, 5]] ∧ (group0 owed).vregs[4]? = some VReg.zero ∧ (group0 owed).vregs[5]? = some VReg.zero ∧
    Unseen parkedOwed (group0 parkedOwed) 0 ∧ RemoteOver (group0 pushing) ∧
    Moves (world parkedOwed) 0 0 0 parkedOwed (group0 parkedOwed) ∧ (group0 parkedOwed).pos.status = .parked ∧ Calm (group0 parkedOwed) ∧
    (group0 parkedOwed).outs = [outstanding] ∧
    Moves (queued popping) 0 0 0 popping (group0 popping) ∧ ((queued popping).core 0).queues[0]? = some { elems := [1, 2], poison := [none, none], times := [0, 0], pops := (0, 0) :: [] } ∧
    (group0 popping).outs.map (·.popQueue) = [some 0] ∧
    ((List.range 32).filter (fun i => (0x80000001 : Lanes).getLsbD i)).length ≤ [(1 : W32), 2].length ∧
    Moves (cluster pushing) 0 0 0 pushing (group0 pushing) ∧
    queueCore (Env.of (cluster pushing) pushing (group0 pushing)) 0x10 = some 1 ∧
    ((cluster pushing).core 1).queues[0]? = some { elems := [], poison := [], times := [], pops := [] } ∧ (∀ l ∈ (group0 fencing).loops, l.complete = true) ∧
    Moves (world fencing) 0 0 0 fencing (group0 fencing) ∧ StoresReach (group0 fencing) 6 ∧ StoresReach (group0 storedAway) 0 ∧
    ¬ StoresReach (group0 storedAway) 1 ∧ Calm (group0 fencing) ∧
    Moves (cluster storedAway) 0 0 0 storedAway (group0 storedAway) ∧ (cluster storedAway).queue = [] ∧
    (∀ v ∈ (group0 storedAway).outs, ∀ a ∈ v.remote, 0 ≤ a.order) ∧ (group0 storedAway).rstores[0]? = some ackedStore ∧ ackedStore.performed = true ∧
    clusterFreed (cluster storedAway) storedAway = false ∧ (group0 storedAway).rstores[1]?.map (·.performed) = some false ∧
    presenceOf ((cluster storedAway).core 1) 0 = 0 ∧ Stands (cluster loading) 0 0 0 loading (group0 loading) ∧
    clusterFreed (cluster loading) loading = false ∧ poisonOf (cluster loading) (some 1) 3 1 = none ∧
    NoStoreAhead (group0 loading) remoteLoad ∧ NoStoreAhead (group0 summing) remoteSum ∧ remoteSum.op = .atomic 0 0 ∧
    ¬ NoStoreAhead (group0 storedAway) { remoteLoad with order := 1 } ∧
    (group0 summing).outs.map (fun v => (v.remote, v.junk)) = [([remoteSum], [])] ∧
    Stands (cluster summing) 0 0 0 summing (group0 summing) ∧ clusterFreed (cluster summing) summing = false ∧
    Memory.wf (cluster summing) = true ∧
    1 < (cluster summing).cores.length ∧
    remoteSum.lanes.map (·.bytes) = [(List.range 4).map (fun j => (1, (fun _ => 0) 31 + j))] := by
  unfold Calm RemoteOver StoresReach NoStoreAhead
  constructorm* _ ∧ _
  all_goals first
    | exact moves _ _ rfl rfl (by decide) rfl rfl rfl
    | exact stands _ _ rfl rfl (by decide)
    | decide +kernel
    | exact fun h => nomatch h

def regroupDesc : Desc := { placeDesc with bar := true, regroup := some (3, 32) }

def regrouping : Ctx := { waitingTeam regroupDesc with strm := { (waitingTeam regroupDesc).strm with
  masks := (List.replicate 16 (0 : Mask)).set 3 (BitVec.ofNat 1024 0x80000002) } }

theorem witness_RegroupMigrates :
    Live (world regrouping) 0 0 regrouping ∧ 0 < (world regrouping).cores.length ∧ regrouping.strm.blockQ = regroupDesc :: [] ∧
    regroupDesc.regroup = some (3, 32) ∧ regrouping.strm.masks.length = 16 ∧
    (∀ r ∈ regrouping.groups, r.pos.status = .waiting ∧ r.outs = [] ∧ r.pos.pushes = [] ∧ r.spawnPend = [] ∧ ∀ v ∈ r.vregs, v.length = 32) ∧
    isTruss (world regrouping) 0 0 0 = false ∧ placesOf (regrouping.mask 3 &&& regrouping.strm.active) = [1, 31] ∧
    (∃ g, g < regrouping.groups.length ∧ isTruss (trussed regrouping) 0 0 g = true) ∧ Trappable regrouping := by
  refine ⟨live_world _ rfl rfl rfl, by decide, rfl, rfl, by decide, ?_, by decide +kernel, by decide +kernel, ⟨0, by decide, by decide +kernel⟩, ?_⟩
  · simp only [regrouping, waitingTeam, Group.fresh, List.mem_singleton]
    rintro r rfl
    refine ⟨rfl, rfl, rfl, rfl, ?_⟩
    intro v hv
    rw [List.eq_of_mem_replicate hv]
    rfl
  · unfold Trappable; decide +kernel

def child : SpawnRec :=
  { part := 0, launch := 0, cluster := 0, entry := 32, payload := [9], join := 0x1FF000, depth := 1, srcCore := 0, srcCtx := 0,
    order := 0, joinPa := 0x1FF000, poison := [none] }

def spawning (st : GStatus) : Ctx := { withPos team (fun p => { p with status := st }) with
  groups := (withPos team (fun p => { p with status := st })).groups.map (fun g => { g with spawnPend := [[child]] }) }

/-- A record in the spill buffer, none in the gatherer. -/
def spilt : Launch := { spillTeam with spilled := [{ core := 0, slot := 0, record := child, order := 0, overwritten := false }] }

def spillWorld : State := { cluster team with launches := [spilt] }

def formedWorld : State :=
  { cluster team with
    launches := [spillTeam]
    cores := [{ Core.idle with resvs := [reserved 0], formed := [[child, child]], childRes := some (1, 1, 1) }] }

theorem witness_SpawnedRecordsMove :
    Moves (spawns (spawning .parked) false) 0 0 0 (spawning .parked) (group0 (spawning .parked)) ∧
    RemoteOver (group0 (spawning .parked)) ∧ FirstOf (spawns (spawning .parked) false) 0 [child] ∧
    severedAt (spawns (spawning .parked) false) child.joinPa = false ∧ MemoryOk (spawns (spawning .parked) false) ∧
    FirstOf (spawns (spawning (.suspended .spill)) true) 0 [child] ∧
    (∀ slot ∈ freeSlots spillTeam 0 1, ∃ pa, checkAccess (spawns (spawning (.suspended .spill)) true) 0 0 .sp pathS
      (spillTeam.spillBase + BitVec.ofNat 64 (32 * slot)) 1 false = .ok pa) ∧
    powerStopped formedWorld 0 = false ∧
    (group0 (spawning .parked)).spawnPend = [child] :: [] ∧ (group0 (spawning .parked)).rstores = [] ∧ Calm (group0 (spawning .parked)) ∧
    Moves (spawns (spawning (.suspended .spill)) true) 0 0 0 (spawning (.suspended .spill)) (group0 (spawning (.suspended .spill))) ∧
    (spawning (.suspended .spill)).launch? (spawns (spawning (.suspended .spill)) true) = some spillTeam ∧
    (group0 (spawning (.suspended .spill))).pos.parkMarker = false ∧ (group0 (spawning (.suspended .spill))).outs = [] ∧
    oldestSpill spillWorld 0 = some (spilt, { core := 0, slot := 0, record := child, order := 0, overwritten := false }) ∧
    gatherLoad spillWorld 0 < 4096 ∧ (spillWorld.launches.filter (fun m => m.part == 0 && m.id == 0)) = [spilt] ∧
    checkAccess spillWorld 0 0 .sp pathS (spilt.spillBase + BitVec.ofNat 64 0) 1 false = .ok 0x1FE000 ∧ child.entry ∈ spilt.img.entries ∧
    (formedWorld.core 0).formed = [[child, child]] ∧ [child, child].length ≤ 32 ∧ formedWorld.launch? 0 0 = some spillTeam ∧
    spillTeam.status = .placed ∧ (childPlace (formedWorld.core 0) spillTeam.img.n).isSome = true := by
  unfold Calm RemoteOver FirstOf
  constructorm* _ ∧ _
  all_goals first
    | exact moves _ _ rfl rfl (by decide) rfl rfl rfl
    | exact ⟨by decide +kernel, fun l hl => by cases hl⟩
    | decide +kernel
    | exact fun slot hslot => ⟨0x1FE000, by rw [show slot = 0 from by simpa [show freeSlots spillTeam 0 1 = [0] from by decide +kernel] using hslot]; decide +kernel⟩

/-- The child team starts at its entry with the number of records, its depth and, in v0, the payloads (03 R94). -/
theorem test_child_team : (childPlace (formedWorld.core 0) 32).map (·.1) = some 0 ∧
    (went (exec (.childTeamStart 0) formedWorld)).map (fun t => [(t.ctx 0 0).pc, (t.ctx 0 0).rd 1, (t.ctx 0 0).rd 2]) = some [32, 2, 1] ∧
    (went (exec (.childTeamStart 0) formedWorld)).map (fun t => (((t.ctx 0 0).group 0).vregs.getD 0 []).take 3) = some [9, 9, 0] := by
  constructorm* _ ∧ _ <;> decide +kernel

/-- A loop of one step under INT8, its operands in the team's scratchpad; the loops MWAIT waits for. -/
def stepping : Loop := { running with a := 0x200, b := 0x40, fmt := 0x44000D00 }
def mloopTeam : Ctx := looping [stepping]
def waitingLoop : Ctx := withPos (looping [{ stepping with complete := true }]) (fun p => { p with status := .suspended .loop })

theorem witness_MatrixLoopsRun :
    Moves (trussed mloopTeam) 0 0 0 mloopTeam (group0 mloopTeam) ∧ (group0 mloopTeam).loops = [stepping] ∧ stepping.complete = false ∧
    productOf stepping.fmt = some .int8 ∧ isTruss (trussed mloopTeam) 0 0 0 = true ∧ stepping.waits (trussed mloopTeam) (mloopTeam.who 0) = [] ∧
    stepping.win.length = 32 ∧ stepping.win.Nodup ∧ (∀ q ∈ stepping.win, q < (group0 mloopTeam).vregs.length) ∧ mloopTeam.trig = none ∧
    (group0 mloopTeam).pos.status ≠ .suspended .loop ∧ Stands (trussed waitingLoop) 0 0 0 waitingLoop (group0 waitingLoop) ∧
    (group0 waitingLoop).pos.status = .suspended .loop ∧ (∀ l ∈ (group0 waitingLoop).loops, l.complete = true ∨ l.visible = true) ∧
    Issuing (trussed mloopTeam) 0 := by
  refine ⟨moves _ _ rfl rfl (by decide) rfl rfl rfl, rfl, rfl, by decide, by decide +kernel, by decide +kernel, by decide +kernel, by decide +kernel,
    by decide +kernel, rfl, by decide, stands _ _ rfl rfl (by decide), rfl, by decide +kernel, issuing_of rfl rfl⟩

/-- INT8 by 05 R140: (-128) × (-128) + 3, and an accumulator that saturates. -/
theorem test_cell : (cellStep .int8 0x44000D00 3 [0x80] [0x80]).1 = 16387 ∧ (cellStep .int8 0x44000D00 (2 ^ 35 - 1) [1] [1]).1 = 2 ^ 35 - 1 := by
  decide +kernel

def waits (x : Ctx) (i : Instr) : Ctx := { x with wait := some i }

theorem witness_ControlWaitsEnd :
    (∀ i, Live (world (waits (quiet team) i)) 0 0 (waits (quiet team) i)) ∧
    Live (world (waits (withStream diverged (fun st => { st with recon := [firstToken] })) .elseM)) 0 0
      (waits (withStream diverged (fun st => { st with recon := [firstToken] })) .elseM) ∧ firstToken.phase = false ∧
    Live (world (waits returned (.rpop 3))) 0 0 (waits returned (.rpop 3)) ∧ (waits returned (.rpop 3)).strm.returnQ = [readyEntry] ∧
    Retries 0 0 (.fenceWorkDone 0 0 none) (.fence 2 3) ∧ Retries 0 0 (.stalledEmitRetire 0 0) .recon ∧ Retries 0 0 (.exitComplete 0 0) .exit ∧
    WordsDone (world (waits returned (.rpop 3))) (waits returned (.rpop 3)) readyEntry.time ∧ AccessesDone (quiet team) ∧ ReadsDone (quiet team) ∧
    (waits (quiet team) .ifence).strm.blockQ = [] ∧ StoresAcked (waits (quiet team) .ktrig) ∧ (quiet team).mode = .user ∧
    placeLaunchRec.producers = [] ∧
    checkAccess (world (waits ptrs (.jwait 4 4))) 0 0 .sp pathS (ptrs.rd 4 + (4 : BitVec 16).signExtend 64) 4 false = .ok 0x1FFFFC ∧
    leValue (world (waits ptrs (.jwait 4 4))) 0x1FFFFC 4 = 0 ∧ groupsDone (waits (quiet team) .exit) = true ∧
    (∀ ch ∈ ((world (waits (quiet team) .exit)).core 0).chans, ch.queued = none ∧ ch.active = none) ∧
    Live (world { team with tlbWait := [5] }) 0 0 { team with tlbWait := [5] } ∧ (translate (world team) 0 (5 * 4096)).isSome = true ∧
    (group0 (withPos team (fun p => { p with status := .suspended (.tlb [5]) }))).pos.status = .suspended (.tlb [5]) := by
  refine ⟨fun i => live_world _ rfl rfl rfl, live_world _ rfl rfl rfl, rfl, live_world _ rfl rfl rfl, rfl, rfl, rfl, rfl,
    fun i g _ => ⟨(fun _ _ _ _ ⟨_, hr, _⟩ => (by cases hr)), fun _ _ => .inr (fun ⟨_, hr, _⟩ => (by cases hr))⟩, ?_, ?_,
    rfl, ?_, rfl, rfl, by decide +kernel,
    by decide +kernel, by decide +kernel, by decide +kernel, live_world _ rfl rfl rfl, by decide +kernel, rfl⟩
  all_goals first | unfold StoresAcked | unfold AccessesDone ReadsDone | unfold ReadsDone
  all_goals decide +kernel

/-! ### Witnesses: engines, errors, power, rings and commands -/

def lineMove : Xfer := { byteMove with regs := [0x1000, 5 * 128, 1, 2] ++ List.replicate 8 1 ++ List.replicate 16 0,
                                       windows := [(0, List.range 8)], scratch := 1024, lines := [(0, 5)] }
def badMove : Xfer := { byteMove with regs := [0x300000, 0x2000, 1, 0] ++ List.replicate 8 1 ++ List.replicate 16 0 }

def moving (t : Xfer) (halted : Bool) : Chan := { Chan.reset with active := some t, nextId := 2, halted := halted }

def transferring (y : Chan) : State :=
  { withChan (world team) 0 y with cores := (withChan (world team) 0 y).cores.map (fun co => { co with presence := [(5, 1)] }) }

theorem userTeams_transferring (y : Chan) : UserTeams (transferring y) := by
  intro co hco z hz
  change co ∈ [_] at hco
  obtain rfl := List.mem_singleton.mp hco
  change z ∈ [team] at hz
  obtain rfl := List.mem_singleton.mp hz
  exact ⟨rfl, rfl⟩

theorem witness_TransfersRun :
    ((transferring { Chan.reset with queued := some byteMove }).core 0).chans[0]? = some { Chan.reset with queued := some byteMove } ∧
    ((transferring (moving byteMove false)).core 0).chans[0]? = some (moving byteMove false) ∧ (moving byteMove false).active = some byteMove ∧
    xferFaults (transferring (moving byteMove false)) byteMove = [] ∧ nestBytes byteMove.regs = [(0x1000, 0x2000)] ∧
    tSscr byteMove.regs = false ∧ tDscr byteMove.regs = false ∧ byteMove.landed = [] ∧
    SourceAt (transferring (moving byteMove false)) byteMove 0x1000 (none, 0x1000) ∧ MemoryOk (transferring (moving byteMove false)) ∧
    xferDest (transferring (moving byteMove false)) byteMove 0x2000 = .ok (none, 0x2000) ∧
    tierOf (transferring (moving byteMove false)) 0x2000 ≠ .hole ∧ ((none, 0x2000) : Option Nat × Nat) ≠ (none, 0x1000) ∧
    xferFaults (transferring (moving lineMove false)) lineMove = [] ∧ lineMove.lines.Nodup ∧
    (∀ l ∈ lineMove.lines, presenceOf ((transferring (moving lineMove false)).core l.1) l.2 = 1) ∧
    lineClean (transferring (moving lineMove false)) lineMove (0, 5) = true ∧
    xferFaults (transferring (moving badMove false)) badMove ≠ [] ∧ badMove.by team 0 = true ∧
    ({ badMove with launch := 7 } : Xfer).by team 0 = false ∧ (moving badMove true).halted = true := by
  unfold SourceAt
  constructorm* _ ∧ _
  all_goals first
    | decide +kernel
    | exact fun i e he => by cases he
    | exact ⟨by decide +kernel, fun l hl => by cases hl⟩

theorem test_transfer_lands : (went (exec (.transferComplete 0 0) { transferring (moving byteMove false) with mem := [(0x1000, 9)] })).map (fun t =>
    (readByte t 0x2000, readByte t 0x1000)) = some (9, 9) := by decide +kernel

def freezing (preempt : Bool) : Ctx := { waitingTeam placeDesc with trig := some { frozenTeam.trig with preempt := preempt } }

theorem witness_RoutineEntry :
    (world (freezing true)).ctx 0 0 = freezing true ∧ (freezing true).resident = true ∧ (freezing true).trig.isSome = true ∧
    Issuing (world (freezing true)) 0 ∧ (∀ r ∈ (freezing true).groups, Stopped r) ∧ (freezing true).strm.masks.length = 16 ∧
    (∀ y ∈ ((world (freezing true)).core 0).chans, y.active = none ∧ y.queued = none ∧ y.halted = false) ∧
    (freezing false).trig.map (·.preempt) = some false := by
  refine ⟨rfl, rfl, rfl, issuing_world _, ?_, rfl, by decide +kernel, rfl⟩
  intro r hr
  simp only [freezing, waitingTeam, List.mem_singleton] at hr
  subst hr
  exact ⟨by decide, rfl, rfl, fun v hv => by cases hv⟩

theorem test_routine_entry : (went (exec (.routineEntry 0 0) (world (freezing false)))).map (fun t =>
    [(t.ctx 0 0).pc, (t.ctx 0 0).epc, (t.ctx 0 0).cause]) = some [0x40, 7, 0x40] := by decide +kernel

def region5 : Region := { num := 5, port := 2, ownership := false, owner := 0, severed := false, dropped := 0 }

def queues3 : State := { world team with cores := [{ ((world team).core 0) with
  queues := ((world team).core 0).queues.set 3 { elems := [7], poison := [none], times := [0], pops := [] } }] }

/-- Every team of the partition is of a launch that has not completed. -/
theorem teams_world : ∀ d j, ((world team).ctx d j).resident = true → ((world team).ctx d j).part = 0 →
    ∃ l ∈ (world team).launches, l.part = 0 ∧ l.id = ((world team).ctx d j).launch ∧ l.status ≠ .completed := by
  intro d j hr _
  refine ⟨placeLaunchRec, List.mem_singleton.mpr rfl, rfl, ?_, by decide⟩
  cases d with
  | zero =>
    cases j with
    | zero => rfl
    | succ n => exact absurd hr (by rw [show (world team).ctx 0 (n + 1) = Ctx.free from rfl]; decide)
  | succ n =>
    have h : (world team).core (n + 1) = Core.idle := rfl
    have h2 : (world team).ctx (n + 1) j = Ctx.free := by
      unfold State.ctx
      rw [h, show Core.idle.ctxs = List.replicate 8 Ctx.free from rfl, List.getD_eq_getElem?_getD, List.getElem?_replicate]
      split <;> rfl
    exact absurd hr (by rw [h2]; decide)

theorem witness_errors_in_queues :
    powerStopped (world team) 0 = false ∧ (∀ co ∈ (world team).cores, co.ctxs.length ≤ 8) ∧
    returned.strm.returnQ[0]? = some readyEntry ∧ readyEntry.words[0]? = some (some 5) ∧ 0 < readyEntry.poison.length ∧
    fullTokens.strm.recon[15]? = some lastToken ∧ (queues3.core 0).queues[3]? = some { elems := [7], poison := [none], times := [0], pops := [] } ∧
    (world team).partition 0 = some placePart ∧ (world team).partition 1 = none := by
  constructorm* _ ∧ _ <;> decide +kernel

theorem witness_ErrorsAndLinks :
    (inRoutine .trap).resident = true ∧ (inRoutine .restore).mode = .restore ∧ (inRoutine .save).mode = .save ∧
    (world (inRoutine .save)).launch? 0 0 = some placeLaunchRec ∧ RingsOutside (world team) ∧ region5 ∈ { world team with regions := [region5] }.regions ∧
    tierOf (world team) 0x1000 = .dram 0 0x1000 ∧ tierOf (world team) stierBase = .stier 0 ∧ tierOf (world team) poolBase = .pool 0 ∧
    ((world team).core 0).ctxs[0]? = some team ∧ team.spoison.length = 32 ∧ (31 : BitVec 5) ≠ 0 ∧ team.groups[0]? = some placeGroup ∧
    31 < placeGroup.vpoison.length ∧ 15 < placeGroup.gpoison.length := by
  refine ⟨rfl, rfl, rfl, rfl, ?_, by decide +kernel, by decide +kernel, by decide +kernel, by decide +kernel, rfl, by decide, by decide, rfl,
    by decide, by decide⟩
  intro q hq v hv hp
  have h : (world team).pages = List.replicate 9 Page.empty := rfl
  rw [h] at hq
  rw [List.eq_of_mem_replicate hq] at hv
  rw [List.eq_of_mem_replicate hv] at hp
  cases hp

def stoppedAgain : State :=
  { world team with parts := [{ placePart with released := true }], stopped := true, meanAbove := 500, coreClock := 1000 }

theorem witness_PowerHeatAndBringUp :
    Running (world team) ∧ (∀ d ∈ (world team).temps, d < 100) ∧ ¬ ((world team).stopped = true ∧ (world team).limitSet = true) ∧
    (world team).powerLimit < 2001 ∧ 100 * 1899 < 95 * (world team).powerLimit ∧ 95 * (world team).powerLimit ≤ 100 * 1900 ∧
    State.reset.boot.phase = .off ∧ State.reset.temps.length = 6 ∧ State.reset.boot.fails.length = 4 ∧
    (let b : Boot := { Boot.off with phase := .training, ready := 7 }
     (∀ d, d < 4 → d < 3 → b.ready.getLsbD d = true ∨ b.failed.getLsbD d = true) ∧ b.ready.getLsbD 3 = false ∧ b.failed.getLsbD 3 = false) ∧
    State.reset.part.ports.getLsbD 7 = true ∧ (∃ q ∈ stoppedAgain.parts, q.released = true) ∧ Running stoppedAgain ∧ stoppedAgain.stopped = true := by
  refine ⟨.inr rfl, by decide, by decide, by decide, by decide, by decide, rfl, by decide, rfl, ⟨by decide, by decide, by decide⟩, by decide,
    ⟨_, List.mem_singleton.mpr rfl, rfl⟩, .inr rfl, rfl⟩

/-- The stop reaches a partition that a RESET let go on: 500 samples above the limit at the floor (01 R26). -/
theorem test_power_stop : powerStopped stoppedAgain 0 = false ∧
    (went (exec .powerLimitStop stoppedAgain)).map (fun t => (t.stopped, powerStopped t 0)) = some (true, true) := by
  constructor <;> decide +kernel

theorem test_power_sample : (went (exec (.powerSample 2001) (world team))).map (fun t => (t.coreClock, t.meanAbove)) = some (1450, 0) ∧
    (went (exec (.powerSample 2001) { world team with coreClock := 1000 })).map (fun t => (t.coreClock, t.meanAbove)) = some (1000, 1) := by
  constructor <;> decide +kernel

/-- A COPY block at the head of ring 0: 256 bytes of parameters lie at 0x4000. -/
def copyBlock : List Byte := bytesOf 64 (2 + 2 ^ 16 + 64 * 2 ^ 32 + 2 ^ 48 + 0x4000 * 2 ^ 128)

def ringWorld (block : List Byte) : State :=
  { world team with mem := (world team).mem.writeBytes placeBase block, pages := (world team).pages.set 0 placePage }

/-- The event ring of the placed page. -/
def placeEv : EvRing := placePage.evs.getD 0 EvRing.none

theorem witness_RingsWork :
    bar0Up (ringWorld copyBlock) = true ∧ (ringWorld copyBlock).pages[0]? = some placePage ∧
    placePage.subs[0]? = some { present := true, base := placeBase, entries := 16, event := 0, consumer := 0, announced := 1, rung := [] } ∧
    placePage.evs[0]? = some placeEv ∧ placeEv.present = true ∧ placeEv.held = [] ∧ placeEv.produced - placeEv.consumed < placeEv.entries ∧
    placeEv.entries = 16 ∧ placeEv.base = placeBase + 4096 ∧
    (0x10 * 2 ^ 32 : W64).toNat / 2 ^ 32 ≤ 0 + 16 ∧ 0 + 16 < (0x11 * 2 ^ 32 : W64).toNat / 2 ^ 32 ∧
    (parseTable (world team) 0x8000).isSome = true ∧ (ringWorld copyBlock).cmds = [] ∧
    (decodeBlock 0 0 1 copyBlock).toOption = some (.copy { page := 0, ring := 0, pos := 1, part := 0 } 0x4000 0) ∧
    (decodeBlock 0 0 1 (bytesOf 64 (5 + 2 ^ 16 + 64 * 2 ^ 32 + 2 ^ 48))).toOption = none ∧
    copyBlock.getD 6 0 = 1 ∧ Memory.wf (ringWorld copyBlock) = true ∧
    (∀ i, i < 32 * 16 → ∃ d o, tierOf (ringWorld copyBlock) (placeBase + 4096 + i) = .dram d o) := by
  refine ⟨by decide +kernel, by decide +kernel, by decide +kernel, rfl, by decide +kernel, by decide +kernel, by decide +kernel,
    by decide +kernel, by decide +kernel, by decide, by decide, by decide +kernel, by decide +kernel, by decide +kernel, by decide +kernel,
    by decide +kernel, by decide +kernel, ?_⟩
  intro i hi
  refine ⟨0, placeBase + 4096 + i, ?_⟩
  have h1 : placeBase + 4096 + i < 4 * (64 * GiB) := by simp only [placeBase, GiB]; omega
  have h2 : (placeBase + 4096 + i) % (64 * GiB) = placeBase + 4096 + i := Nat.mod_eq_of_lt (by simp only [placeBase, GiB]; omega)
  have h3 : (placeBase + 4096 + i) / (64 * GiB) = 0 := Nat.div_eq_of_lt (by simp only [placeBase, GiB]; omega)
  unfold tierOf
  rw [if_pos h1, h2, h3, if_pos (by simp only [placeBase, dramBytes, GiB]; omega)]

/-- BOOTSTAT of a module in full service, and of one that a trip holds in reset; a feature word; elsewhere zero (11 R314). -/
theorem test_bar0_read : bar0Read (world team) 8 0x10 = 0x3D ∧ bar0Read (world team) 0 0x10 = 0 ∧
    bar0Read { world team with boot := { Boot.off with phase := .tripped, thermal := true } } 8 0x10 = 0x800 ∧
    bar0Read (world team) 0 0x138 = 0 ∧ bar0Read { world team with regions := [region5] } 8 0x138 = 1 := by
  constructorm* _ ∧ _ <;> decide +kernel

theorem test_block_fetch : (went (exec (.blockFetch 0 0) (ringWorld copyBlock))).map (fun t => (t.agenda.length, (t.subRing 0 0).consumer)) =
    some (1, 1) := by decide +kernel

def src0 : CmdSrc := { page := 0, ring := 0, pos := 3, part := 0 }
def mgmt (part : Nat) : CmdSrc := { page := 8, ring := 0, pos := 3, part := part }

/-- A ring whose command waits has no block fetched (11 R319). -/
theorem test_block_waits : (went (exec (.blockFetch 0 0) { ringWorld copyBlock with cmds := [waitingMap src0 0 .nop] })).map (fun t =>
    (t.agenda.length, (t.subRing 0 0).consumer)) = some (0, 0) := by decide +kernel

def copyParams : List Byte :=
  bytesOf 256 (1 + 256 * 2 ^ 16 + 0x1000 * 2 ^ 64 + 0x2000 * 2 ^ 128 + 2 ^ 192 +
    ((List.range 8).map (fun k => 2 ^ (320 + 64 * k))).sum)

/-- The move of a COPY, of no core. -/
def copyMove : Xfer := { byteMove with core := 192, ctx := 8 }

def copyWorld : State := { world team with mem := (world team).mem.writeBytes 0x4000 copyParams }

theorem test_copyParams : (parseBlock copyParams).toOption = some byteMove.regs := by decide +kernel

def mapArgs : MapArgs :=
  { va := 0x200000, pa := 0x400000, len := 0x200000, asid := 7, r := true, w := false, x := true, g := false, size := 2 }

theorem buffer_world (n : Nat) (hn : n ≤ 4096) : Buffer (world team) placePart 0x8000 n := by
  refine ⟨rfl, ?_⟩
  intro i hi
  have h1 : 0x8000 + i < 4 * (64 * GiB) := by simp only [GiB]; omega
  have h2 : (0x8000 + i) % (64 * GiB) = 0x8000 + i := Nat.mod_eq_of_lt (by simp only [GiB]; omega)
  have h3 : (0x8000 + i) / (64 * GiB) = 0 := Nat.div_eq_of_lt (by simp only [GiB]; omega)
  have h4 : tierOf (world team) (0x8000 + i) = .dram 0 (0x8000 + i) := by
    unfold tierOf
    rw [if_pos h1, h2, h3, if_pos (by simp only [dramBytes, GiB]; omega)]
  refine ⟨⟨_, _, h4, fun hr => by cases hr⟩, ?_⟩
  unfold owns
  rw [h4]
  change placePart.halfDecks.getLsbD (halfDeckOf 0 (0x8000 + i)) = true
  unfold halfDeckOf
  rw [if_pos (by simp only [dramBytes, GiB]; omega)]
  decide

/-- A half-deck of 23.5 GiB has no room for tables beside 24 mapped pages of 1 GiB; a range that holds the join counter of an issued
SPAWN. -/
def halfDeck : Partition := { placePart with halfDecks := 1 }
def pages24 : MapArgs := { va := 0, pa := 0, len := 0x600000000, asid := 7, r := true, w := true, x := false, g := false, size := 3 }
def onePage : MapArgs := { pages24 with va := 0x600000000, pa := 0x5C0000000, len := 0x200000, size := 2 }
def mostlyMapped : State := { world team with parts := [halfDeck], spaces := [{ asid := 7, ptes := newPtes pages24 }] }

theorem witness_MemoryCommands_waits :
    (let s := world (spawning .parked)
     tablesFit (s.setSpace { (s.space 7).carve 0x200000 0x400000 with ptes := ((s.space 7).carve 0x200000 0x400000).ptes ++ newPtes mapArgs }) placePart =
        true ∧ accessLeft s ((s.space 7).covers 0x200000 0x400000) = false ∧ accessLeft s ((s.space 0).covers 0 0x200000) = true) ∧
    ownsRange mostlyMapped halfDeck onePage.pa.toNat onePage.len.toNat = true ∧ onePage.len.toNat % pageBytes onePage.size = 0 ∧
    (let sp := (mostlyMapped.space 7).carve 0x600000000 0x600200000
     tablesFit (mostlyMapped.setSpace { sp with ptes := sp.ptes ++ newPtes onePage }) halfDeck = false) := by
  constructorm* _ ∧ _ <;> decide +kernel

theorem witness_MemoryCommands :
    Names (world team) src0 placePart ∧ HasSpace placePart 7 ∧ (world team).boot.reduced = false ∧ mapArgs.len ≠ 0 ∧
    mapArgs.len.toNat % pageBytes mapArgs.size = 0 ∧ mapArgs.va.toNat % pageBytes mapArgs.size = 0 ∧ mapArgs.pa.toNat % pageBytes mapArgs.size = 0 ∧
    mapArgs.va.toNat + mapArgs.len.toNat ≤ 2 ^ 56 ∧ ownsRange (world team) placePart mapArgs.pa.toNat mapArgs.len.toNat = true ∧
    TableOk ((world team).space 7) ∧ TableOk ((world team).space 0) ∧ HasSpace placePart 0 ∧
    readVirt copyWorld 0 0 0x4000 256 = some copyParams ∧ leNat copyParams 2 2 = 256 ∧ blockFault copyWorld 0 0 0x4000 256 = none ∧
    SourceAt copyWorld copyMove 0x1000 (none, 0x1000) ∧ tierOf copyWorld 0x2000 = .dram 0 0x2000 ∧ xferDest copyWorld copyMove 0x2000 = .ok (none, 0x2000) ∧ Memory.wf copyWorld = true ∧
    copyWorld.poolLines = [] ∧ src0.page < 8 ∧ Memory.wf (world team) = true ∧ Buffer (world team) placePart 0x8000 384 ∧
    (world team).coreClock < 2 ^ 64 ∧ (∀ r ∈ (world team).ports, r.1 < 256 ∧ r.2 < 256) ∧ (world team).ports.length = 8 ∧
    placePart.priv = none ∧ (world team).part.ports.getLsbD 7 = true ∧
    ({ world team with part := { Part.full with ports := 0x7F } } : State).part.ports.getLsbD 7 = false := by
  unfold Names HasSpace TableOk SourceAt
  constructorm* _ ∧ _
  all_goals first
    | exact fun i e he => by cases he
    | exact buffer_world 384 (by omega)
    | decide +kernel

/-- An UNMAP that waits for a join of the issued SPAWN does nothing at LAUNCH time, and runs once the counter is settled (10 R306). -/
def unmapWaits (x : Ctx) : State :=
  { world x with launches := [], cmds := [waitingMap src0 0 (.unmap src0 0 0x200000 0)] }

theorem witness_MemoryCommands_waiting :
    accessLeft (unmapWaits (spawning .parked)) (((unmapWaits team).space 0).covers 0 (0 + 0x200000)) = true ∧
    accessLeft (unmapWaits team) (((unmapWaits team).space 0).covers 0 (0 + 0x200000)) = false ∧
    (unmapWaits team).launches = [] ∧ (unmapWaits team).cmds = [waitingMap src0 placePart.id (.unmap src0 0 0x200000 0)] := by
  constructorm* _ ∧ _ <;> decide +kernel

theorem test_unmap_waits :
    (went (exec (.launchPlace 0) (unmapWaits (spawning .parked)))).map (fun t => (t.cmds.length, (translate t 0 0x1000).isSome)) =
      some (1, true) ∧
    (went (exec (.launchPlace 0) (unmapWaits team))).map (fun t => (t.cmds.length, (translate t 0 0x1000).isSome)) = some (0, false) := by
  constructor <;> decide +kernel

def poolArgs : PoolArgs := { region := 5, port := 2, owner := 0, mode := 1 }

/-- A store of the team to region 5 in its queue, and a lane's read-modify-write there that is still to be performed. -/
def pooled (x : Ctx) : State :=
  { world x with regions := [region5], queue := [stored (own .c) none (poolBase + 5 * GiB) 9] }

def poolAtomic : Ctx := grouped team (fun g => { g with outs := [{ outstanding with remote := [{ remoteSum with
  core := Config.cores
  lanes := remoteSum.lanes.map (fun l => { l with bytes := (List.range 4).map (fun j => (Config.cores, poolBase + 5 * GiB + j)) }) }] }] })

/-- POOLCFG performs the stores to its region before it checks the lines in, and waits for a read-modify-write there (11 R331). -/
theorem test_poolcfg_waits :
    (went (exec (.poolcfgMap (mgmt 0) poolArgs) (pooled team))).map (fun t =>
      (t.queue.length, t.poolDev, t.poolLines.length, (t.region 5).map (·.ownership))) = some (0, [(poolBase + 5 * GiB, 9)], 0, some true) ∧
    (went (exec (.poolcfgUnmap (mgmt 0) poolArgs) (pooled poolAtomic))).map (fun t => (t.cmds.length, t.queue.length, (t.region 5).isSome)) =
      some (1, 1, true) ∧
    accessLeft (pooled team) (inRegion (pooled team) 5) = false ∧ accessLeft (pooled poolAtomic) (inRegion (pooled poolAtomic) 5) = true := by
  constructorm* _ ∧ _ <;> decide +kernel

/-- SHA-512 of "abc" begins DDAF35A1 and ends A54CA49F (FIPS 180-4). -/
theorem test_sha512 : (sha512 [0x61, 0x62, 0x63]).take 4 = [0xDD, 0xAF, 0x35, 0xA1] ∧ (sha512 [0x61, 0x62, 0x63]).drop 60 = [0xA5, 0x4C, 0xA4, 0x9F] := by
  constructor <;> decide +kernel

def createArgs : CreateArgs :=
  { halfDecks := 0x10, asidFirst := 8, asidCount := 4096, reserve := 1, stierBase := 1023, watchdog := 0, priv := 0x1000, save := 0,
    ringTable := 0x8000, pasid := 5 }

def lowPart : Partition := { placePart with halfDecks := 0x0F, privVa := 0x1000, stierSize := GiB }

def governed (ls : List Launch) : State := { world team with parts := [lowPart], launches := ls }

def waitingLaunch : Launch := { placeLaunchRec with id := 2, status := .waiting, placed := [] }

def image0 : FreezeImage :=
  { kind := 0, addr := BitVec.ofNat 64 hostBase, part := lowPart, part0 := 0, channels := Part.full.channels, launches := [waitingLaunch],
    spaces := [placeSpace], regions := [], pages := [(0x1000, 9)], bytes := [0x49] }

/-- A machine that holds the image at the start of the host window, and one whose image names a space the partition has no place for. -/
def imaged : State := { governed [] with host := [(0, 0x49)], images := [image0] }
def strayImage : FreezeImage := { image0 with spaces := [{ placeSpace with asid := 9 }] }
def strayed : State := { imaged with images := [strayImage] }

theorem noLaunches_governed : NoLaunches (governed []) lowPart := fun l hl => (by cases hl)

theorem oneEach_governed : OneEach (governed [placeLaunchRec, waitingLaunch]) := by
  refine ⟨List.pairwise_singleton _ _, ?_⟩
  refine List.Pairwise.cons ?_ (List.pairwise_singleton _ _)
  intro m hm
  obtain rfl := List.mem_singleton.mp hm
  exact .inr (by decide)

theorem witness_PartitionCommands :
    (governed []).partition 1 = none ∧ createArgs.halfDecks ≠ 0 ∧ createArgs.asidCount.toNat ≤ 4096 ∧
    (createArgs.stierBase.toNat + createArgs.reserve.toNat) * 2 ^ 30 ≤ stierBytes (governed []) ∧ createArgs.priv.toNat % 4096 = 0 ∧
    (∀ q ∈ (governed []).parts, q.halfDecks &&& createArgs.halfDecks = 0 ∧ q.asidFirst + q.asidCount ≤ createArgs.asidFirst.toNat ∧
      q.stierBase + q.stierSize ≤ createArgs.stierBase.toNat * 2 ^ 30) ∧
    (parseTable (governed []) createArgs.ringTable.toNat).isSome = true ∧ (600 : BitVec 16).toNat ≤ 2000 ∧ (599 : BitVec 16).toNat < 600 ∧
    Names (governed []) (mgmt 0) lowPart ∧ NoLaunches (governed []) lowPart ∧ OneEach (governed [placeLaunchRec, waitingLaunch]) ∧
    (∃ l ∈ (governed [placeLaunchRec, waitingLaunch]).launches, l.part = 0 ∧ l.status = .placed) ∧ lowPart.privVa ≠ 0 ∧
    waitingLaunch ∈ (governed [placeLaunchRec, waitingLaunch]).launches ∧
    (∀ m ∈ (governed [placeLaunchRec, waitingLaunch]).launches, m.status = .placed ∨ m.status = .waiting) ∧ placePart.privVa = 0 ∧
    Trappable team ∧ ((governed []).core 0).ctxs[0]? = some team ∧ lowPart.frozen = false ∧ (governed []).cmds = [] ∧
    mappedBytes (governed []) lowPart + 2 ^ 32 ≤ (2 ^ 33 : W64).toNat ∧
    freezeTarget (governed []) lowPart 0 (BitVec.ofNat 64 hostBase).toNat (2 ^ 33 : W64).toNat = true ∧
    imageAt imaged 0 hostBase = some image0 ∧ thawMatches imaged lowPart image0 = true ∧
    thawEmpty imaged lowPart image0 = true ∧ thawEmpty { imaged with launches := [waitingLaunch] } lowPart image0 = false ∧ Memory.wf imaged = true ∧
    (∀ sp ∈ image0.spaces, (AddrSpace.thaw imaged image0.part lowPart sp).isSome = true) ∧
    thawAddr imaged image0.part lowPart 0x1000 = some 0x1000 ∧ imageAt strayed 0 hostBase = some strayImage ∧
    (∃ sp ∈ strayImage.spaces, AddrSpace.thaw strayed strayImage.part lowPart sp = none) ∧ imageAt (governed []) 1 0 = none := by
  unfold Names Trappable
  constructorm* _ ∧ _
  all_goals first
    | exact noLaunches_governed
    | exact oneEach_governed
    | decide +kernel

/-- RESUME's choice of a team needs the module's 192 cores. -/
theorem witness_resumeEnter : State.reset.cores.length = 192 ∧ AllTrappable State.reset := by
  refine ⟨by decide +kernel, ?_⟩
  intro co hco z hz hr
  have h : State.reset.cores = List.replicate 192 Core.idle := rfl
  rw [h] at hco
  rw [List.eq_of_mem_replicate hco] at hz
  have h2 : Core.idle.ctxs = List.replicate 8 Ctx.free := rfl
  rw [h2] at hz
  rw [List.eq_of_mem_replicate hz] at hr
  cases hr

/-- A kernel image of one control word and one lane word, at 0x4000 (09 R259). -/
def header192 : List Byte :=
  bytesOf 192 (0x4E444149 + 2 ^ 32 + 192 * 2 ^ 48 + 0x200 * 2 ^ 64 + 2 ^ 96 + 0x280 * 2 ^ 128 + 2 ^ 160 + 0x300 * 2 ^ 192 + 2 ^ 224 +
    32 * 2 ^ 384 + 16 * 2 ^ 400 + 2 ^ 408 + 2 ^ 416 + 2 ^ 424 + 2 ^ 432 + 128 * 2 ^ 448)

def image1 : Image :=
  { ctrlVa := 0x4200, ctrlWords := 1, laneVa := 0x4280, laneWords := 1, entries := [0], n := 32, q := 16, groups := 1, teams := 1, w := 1,
    h := 1, scratch := 128, spill := 0, keep := 0, discard := [] }

def launchArgs : LaunchArgs :=
  { image := 0x4000, spill := 0, arg := 9, asid := 0, clusters := 1, teams := 0, priority := 3, debug := false, groups := 0, queues := 1,
    producers := [0, 0, 0, 0] }

def launchWorld (ls : List Launch) : State :=
  { world Ctx.free with mem := (world team).mem.writeBytes 0x4000 header192, launches := ls, cores := [Core.idle] }

def readyLaunch : Launch := { waitingLaunch with img := image1, queues := 1, producers := [0, 0, 0, 0] }
def doneLaunch : Launch :=
  { placeLaunchRec with placed := [{ cores := [(0, 0, 0)], exited := [true], triggers := [true], freed := true }] }

theorem witness_LaunchCommands :
    Names (launchWorld []) src0 placePart ∧ HasSpace placePart 0 ∧ placePart.privVa = 0 ∧
    readImage (launchWorld []) 0 0 0x4000 = some image1 ∧ launchStatus (launchWorld []) 0 3 launchArgs image1 = none ∧
    (placeLaunch (emptied (launchWorld []) placePart (newLaunch (launchWorld []) src0 launchArgs image1)) placePart
      (newLaunch (launchWorld []) src0 launchArgs image1)).isSome = true ∧
    readImage (launchWorld []) 0 0 0x5000 = none ∧ (launchWorld [readyLaunch]).partition 0 = some placePart ∧
    (launchWorld [readyLaunch]).cmds = [] ∧ imageLimits image1 = true ∧ coreOk (launchWorld [readyLaunch]) placePart 0 = true ∧
    (launchWorld [readyLaunch]).cores[0]? = some Core.idle ∧ declared (launchWorld [readyLaunch]) 0 = 0 ∧
    (∀ co ∈ (launchWorld [readyLaunch]).cores, ∀ y ∈ co.chans, y.queued = none ∧ y.active = none) ∧
    (launchWorld [doneLaunch]).launch? 0 0 = some doneLaunch ∧ launchDone (launchWorld [doneLaunch]) doneLaunch = true := by
  unfold Names HasSpace
  constructorm* _ ∧ _
  all_goals decide +kernel

/-- A launched team starts with its argument in s3 and its scratchpad reserved (02 R41, 04 R110). -/
theorem test_launch_place : (went (exec (.launchPlace 0) (launchWorld [readyLaunch]))).map (fun t =>
    [(t.ctx 0 0).rd 3, (t.ctx 0 0).rd 6, BitVec.ofNat 64 (t.core 0).resvs.length]) = some [0, 2, 1] := by decide +kernel

/-! ### Witnesses: the step -/

def turns (n : Turn) (x : Ctx) : State := { masked x with agenda := [n] }

/-- A read-modify-write of one lane that the word has issued: lane 31 adds 5 to the word at 0x804. -/
def adding : Ctx := grouped team (fun g => { g with outs := [{ outstanding with remote := [{ remoteSum with
  core := Config.cores
  lanes := remoteSum.lanes.map (fun l => { l with bytes := (List.range 4).map (fun j => (Config.cores, 0x804 + j)) }) }] }] })

/-- The placed program runs ADDI s10, s0, #64; a placed lane word runs LANEID; an event happens. -/
theorem witness_StepRunsDecodedInstruction :
    (State.reset.withFetchWord 32 0x05400040).agenda = .control 0 :: [] ∧
    nextFetch ((State.reset.withFetchWord 32 0x05400040).tookTurn []) 0 = some 0 ∧
    (State.reset.withFetchWord 96 0x030810000000000000000000).agenda = .lane 0 0 :: [] ∧
    (((State.reset.withFetchWord 96 0x030810000000000000000000).tookTurn []).laneSetAt 0 0).running = some (0, 0) ∧
    isEvent .singleBitError = true ∧ State.reset.agenda = [] ∧
    ((State.reset.withFetchWord 96 0x030810000000000000000000).group 0 0 0).atomicsLeft 0 = false ∧
    (((turns (.lane 0 0) adding).tookTurn []).laneSetAt 0 0).running = some (0, 0) ∧ (group0 adding).atomicsLeft 0 = true ∧
    (turns (.drain 0 0 none false) team).agenda = .drain 0 0 none false :: [] ∧
    (turns (.reload 0 0) team).agenda = .reload 0 0 :: [] ∧
    (turns (.perform 0 (own .x)) team).agenda = .perform 0 (own .x) :: [] := by
  constructorm* _ ∧ _ <;> decide +kernel

/-- The queued store leaves and the engine does not see it; the group's write is performed toward the control slice, which then sees what
memory holds (08 R216, R218). -/
theorem test_step_orders :
    (went (step (turns (.drain 0 0 none false) team))).map (fun t => (t.queue.length, readByte t 0x804, Machine.seenByte t (own .x) none 0x804)) =
      some (0, 9, 0) ∧
    (went (step (turns (.perform 1 (own .c)) team))).map (fun t => Machine.seenByte t (own .c) none 0x800) =
      some (Machine.seenByte (masked team) (groupPath 0 0 0 .l) none 0x800) ∧
    (went (step (turns (.hostWrite 0 [7]) team))).map (fun t => readByte t hostBase) = some 7 := by
  constructorm* _ ∧ _ <;> decide +kernel

/-- A lane's read-modify-write is a step of its own: it adds 5 in memory, and its agent alone sees that (08 R214, 14 R398); a control load
performed again returns what stands there now (08 R218). -/
theorem test_step_atomic :
    (went (step (turns (.lane 0 0) adding))).map (fun t =>
      (readByte t 0x804, Machine.seenByte t (groupPath 0 0 0 .l) none 0x804, (t.group 0 0 0).atomicsLeft 0)) = some (5, 5, false) ∧
    (went (step { turns (.reload 0 0) { team with recent := some { reg := 3, pa := 0x800, len := 1, signed := false } } with late := [], mem := [(0x800, 6)] })).map
      (fun t => ((t.ctx 0 0).rd 3, (t.ctx 0 0).recent.isSome)) = some (6, true) := by
  constructor <;> decide +kernel

theorem test_step_control : (went (step (State.reset.withFetchWord 32 0x05400040))).map (fun t => [(t.ctx 0 0).rd 10, (t.ctx 0 0).pc]) =
    some [64, 1] := by decide +kernel

theorem test_step_lane : (went (step (State.reset.withFetchWord 96 0x030810000000000000000000))).map (fun t =>
    ((t.group 0 0 0).vregs.getD 8 []).map (·.toNat)) = some (List.range 32) := by decide +kernel

theorem witness_EncodingRoundTrips : (Instr.ld 31 31 6 0x1FFF).wf = true ∧ (Instr.mloop (bareWord 0xFF 0xFF 0xFF) (cont 5)).wf = true ∧
    (Instr.paired pairA).wf = true ∧ (Instr.cillop 0xFC000000).wf = true := by decide +kernel

def poweringOn : State := { State.reset with agenda := [.event (.powerOn true)] }

theorem ctxOk_free : CtxOk Ctx.free := by
  refine ⟨rfl, rfl, ⟨by decide, by decide, by decide, by decide, rfl⟩, ?_⟩
  intro f hf
  cases hf

theorem inv_poweringOn : Inv poweringOn := by
  refine ⟨by decide +kernel, ⟨by decide +kernel, fun l hl => (by cases hl)⟩, ?_, fun l hl => (by cases hl), fun m hm => (by cases hm),
    ⟨by decide, by decide⟩, by decide, by decide⟩
  intro co hco
  rw [List.eq_of_mem_replicate (show co ∈ List.replicate 192 Core.idle from hco)]
  refine ⟨rfl, rfl, ?_⟩
  intro x hx
  rw [List.eq_of_mem_replicate (show x ∈ List.replicate 8 Ctx.free from hx)]
  exact ctxOk_free

/-- A step of a state that keeps the invariant: the module is powered on. -/
theorem witness_StepKeepsInvariant : Inv poweringOn ∧ ∃ t, step poweringOn = .next t := ⟨inv_poweringOn, _, rfl⟩

end Sys2Proof.Tests
end

