-- ==== Sys2Proof/Proofs/Invariant.lean ====
section
/-! The invariant part by part: what it says of a core, a context, a launch and an image, and one rule for each update of
`Sys2Proof/Machine/Agents.lean`. An update of fields of which the invariant does not speak keeps it by definition. -/

namespace Sys2Proof.Claims

open Machine

/-! ### Lists -/

@[simp] theorem modifyAt_length {α : Type} (l : List α) (i : Nat) (f : α → α) : (modifyAt l i f).length = l.length := by
  induction l generalizing i with
  | nil => rfl
  | cons x r ih =>
    cases i with
    | zero => rfl
    | succ i => simpa [modifyAt] using ih i

@[simp] theorem indexed_length {α : Type} (l : List α) : (indexed l).length = l.length := by simp [indexed]

/-- What every step of a fold keeps, the fold keeps. -/
theorem foldl_keeps {σ α : Type} {p : σ → Prop} {f : σ → α → σ} (hf : ∀ s a, p s → p (f s a)) (l : List α) {s : σ} (h : p s) :
    p (l.foldl f s) := by
  induction l generalizing s with
  | nil => exact h
  | cons a r ih => exact ih (hf s a h)

/-! ### The parts -/

/-- What the invariant says of a core. -/
def CoreOk (co : Core) : Prop :=
  co.ctxs.length = 8 ∧ co.scr.wf = true ∧ co.queues.length = 16 ∧ co.lanesets.length = 4 ∧ ∀ x ∈ co.ctxs, CtxOk x

/-- What the invariant says of a launch: the contexts kept with it are in order. -/
def LaunchOk (l : Launch) : Prop := ∀ v ∈ l.saved, CtxOk v.body

/-- What the invariant says of a freeze image. -/
def ImageOk (m : FreezeImage) : Prop := m.pages.wf = true ∧ ∀ l ∈ m.launches, LaunchOk l

/-- The invariant with a name for each of its parts. -/
structure InvParts (s : State) : Prop where
  coreCount : s.cores.length = 192
  pageCount : s.pages.length = 9
  cores : ∀ co ∈ s.cores, CoreOk co
  mem : s.mem.wf = true
  host : s.host.wf = true
  poolDev : s.poolDev.wf = true
  lines : ∀ l ∈ s.poolLines, l.work.length = 128
  launches : ∀ l ∈ s.launches, LaunchOk l
  images : ∀ m ∈ s.images, ImageOk m
  clock : 1000 ≤ s.coreClock ∧ s.coreClock ≤ 3000
  limit : 600 ≤ s.powerLimit ∧ s.powerLimit ≤ 2000

theorem inv_iff_parts (s : State) : Inv s ↔ InvParts s := by
  simp only [Inv, State.shaped, MemoryOk, Memory.wf_iff, Bool.and_eq_true, beq_iff_eq, List.all_eq_true]
  constructor
  · rintro ⟨⟨⟨hn, hx⟩, hp⟩, ⟨⟨hm, hh, hd, hs⟩, hl⟩, hc, hv, hi, hk, hw⟩
    exact ⟨hn, hp, fun co h => ⟨hx co h, hs co h, (hc co h).1, (hc co h).2.1, (hc co h).2.2⟩, hm, hh, hd, hl, hv, hi, hk, hw⟩
  · rintro ⟨hn, hp, hc, hm, hh, hd, hl, hv, hi, hk, hw⟩
    refine ⟨⟨⟨hn, fun co h => (hc co h).1⟩, hp⟩, ⟨⟨hm, hh, hd, fun co h => (hc co h).2.1⟩, hl⟩, fun co h => ?_, hv, hi, hk, hw⟩
    obtain ⟨-, -, hq, hs, hx⟩ := hc co h
    exact ⟨hq, hs, hx⟩

theorem Inv.parts {s : State} (h : Inv s) : InvParts s := (inv_iff_parts s).mp h

theorem InvParts.inv {s : State} (h : InvParts s) : Inv s := (inv_iff_parts s).mpr h

/-! ### Reset values -/

theorem streamOk_fresh : StreamOk Stream.fresh := ⟨by decide, by decide, by decide, by decide, rfl⟩

theorem ctxOk_free : CtxOk Ctx.free := ⟨rfl, rfl, streamOk_fresh, fun f hf => by cases hf⟩

theorem coreOk_idle : CoreOk Core.idle := by
  refine ⟨rfl, rfl, rfl, rfl, fun x hx => ?_⟩
  rw [List.eq_of_mem_replicate (show x ∈ List.replicate 8 Ctx.free from hx)]
  exact ctxOk_free

theorem inv_reset : Inv State.reset := InvParts.inv
  { coreCount := List.length_replicate
    pageCount := rfl
    cores := fun co h => List.eq_of_mem_replicate (show co ∈ List.replicate 192 Core.idle from h) ▸ coreOk_idle
    mem := rfl
    host := rfl
    poolDev := rfl
    lines := fun l h => by cases h
    launches := fun l h => by cases h
    images := fun m h => by cases h
    clock := ⟨by decide, by decide⟩
    limit := ⟨by decide, by decide⟩ }

/-- Settles O58: each table is empty by definition, and the invariant holds core by core. -/
theorem resetState : Obligations.ResetState := by
  refine ⟨rfl, rfl, rfl, rfl, rfl, rfl, rfl, rfl, fun co h => ?_, inv_reset⟩
  rw [List.eq_of_mem_replicate (show co ∈ List.replicate 192 Core.idle from h)]
  refine ⟨rfl, fun x hx => ?_, fun y hy => ?_⟩
  · rw [List.eq_of_mem_replicate (show x ∈ List.replicate 8 Ctx.free from hx)]
    rfl
  · rw [List.eq_of_mem_replicate (show y ∈ List.replicate 8 Chan.reset from hy)]
    exact ⟨rfl, rfl, rfl⟩

/-! ### Contexts -/

theorem CtxOk.strm {x : Ctx} (h : CtxOk x) : StreamOk x.strm := h.2.2.1

theorem CtxOk.frozen {x : Ctx} (h : CtxOk x) {f : Frozen} (hf : x.frozen = some f) : StreamOk f.stream := h.2.2.2 f hf

/-- A context with another stream that is in order. -/
theorem CtxOk.setStrm {x : Ctx} (h : CtxOk x) {st : Stream} (hs : StreamOk st) : CtxOk { x with strm := st } := by
  obtain ⟨h1, h2, -, h4⟩ := h
  exact ⟨h1, h2, hs, h4⟩

/-- A context with another freeze record, whose stream is in order. -/
theorem CtxOk.setFrozen {x : Ctx} (h : CtxOk x) {o : Option Frozen} (hf : ∀ f, o = some f → StreamOk f.stream) :
    CtxOk { x with frozen := o } := by
  obtain ⟨h1, h2, h3, -⟩ := h
  exact ⟨h1, h2, h3, hf⟩

theorem CtxOk.wr {x : Ctx} (h : CtxOk x) (r : BitVec 5) (v : W64) (t : Bool) : CtxOk (x.wr r v t) := by
  obtain ⟨h1, h2, h3, h4⟩ := h
  unfold Ctx.wr
  split
  · exact ⟨h1, h2, h3, h4⟩
  · exact ⟨by simpa using h1, by simpa using h2, h3, h4⟩

theorem StreamOk.setMasks {st : Stream} (h : StreamOk st) {ms : List Mask} (hm : ms.length = 16) (p : BitVec 16) :
    StreamOk { st with masks := ms, mpoison := p } := by
  obtain ⟨h1, h2, h3, h4, -⟩ := h
  exact ⟨h1, h2, h3, h4, hm⟩

theorem CtxOk.wrMask {x : Ctx} (h : CtxOk x) (m : BitVec 4) (v : Mask) : CtxOk (x.wrMask m v) :=
  h.setStrm (h.strm.setMasks (by rw [List.length_set]; exact h.strm.2.2.2.2) _)

theorem CtxOk.jump {x : Ctx} (h : CtxOk x) (t : W64) : CtxOk (x.jump t) := h

theorem CtxOk.step1 {x : Ctx} (h : CtxOk x) : CtxOk x.step1 := h

theorem CtxOk.setGroup {x : Ctx} (h : CtxOk x) (g : Nat) (r : Group) : CtxOk (x.setGroup g r) := h

/-! ### Cores -/

theorem CoreOk.ctx {co : Core} (h : CoreOk co) (k : Nat) : CtxOk (co.ctxs.getD k Ctx.free) := by
  rw [List.getD_eq_getElem?_getD]
  cases hx : co.ctxs[k]? with
  | none => exact ctxOk_free
  | some x => exact h.2.2.2.2 x (List.mem_of_getElem? hx)

theorem CoreOk.setCtx {co : Core} (h : CoreOk co) (k : Nat) {x : Ctx} (hx : CtxOk x) :
    CoreOk { co with ctxs := co.ctxs.set k x } := by
  obtain ⟨h1, h2, h3, h4, h5⟩ := h
  refine ⟨by simpa using h1, h2, h3, h4, fun y hy => ?_⟩
  rcases List.mem_or_eq_of_mem_set hy with hy | rfl
  · exact h5 y hy
  · exact hx

theorem CoreOk.setScr {co : Core} (h : CoreOk co) {m : Mem} (hm : m.wf = true) : CoreOk { co with scr := m } := by
  obtain ⟨h1, -, h3, h4, h5⟩ := h
  exact ⟨h1, hm, h3, h4, h5⟩

theorem CoreOk.setQueues {co : Core} (h : CoreOk co) {qs : List RQueue} (hq : qs.length = 16) :
    CoreOk { co with queues := qs } := by
  obtain ⟨h1, h2, -, h4, h5⟩ := h
  exact ⟨h1, h2, hq, h4, h5⟩

theorem CoreOk.setLanesets {co : Core} (h : CoreOk co) {ls : List LaneSet} (hl : ls.length = 4) :
    CoreOk { co with lanesets := ls } := by
  obtain ⟨h1, h2, h3, -, h5⟩ := h
  exact ⟨h1, h2, h3, hl, h5⟩

theorem CoreOk.queueCount {co : Core} (h : CoreOk co) : co.queues.length = 16 := h.2.2.1

theorem CoreOk.lanesetCount {co : Core} (h : CoreOk co) : co.lanesets.length = 4 := h.2.2.2.1

/-! ### The state -/

section
variable {s : State} {c k g ls ch part : Nat} {id : W32}

/-- What each step of a fold over the state keeps, the fold keeps. -/
theorem Inv.foldl {α : Type} {l : List α} {f : State → α → State} (h : Inv s) (hf : ∀ t a, Inv t → Inv (f t a)) :
    Inv (l.foldl f s) := foldl_keeps hf l h

theorem Inv.core (h : Inv s) (c : Nat) : CoreOk (s.core c) := by
  unfold State.core
  rw [List.getD_eq_getElem?_getD]
  cases hc : s.cores[c]? with
  | none => exact coreOk_idle
  | some co => exact h.parts.cores co (List.mem_of_getElem? hc)

theorem Inv.ctx (h : Inv s) (c k : Nat) : CtxOk (s.ctx c k) := (h.core c).ctx k

theorem Inv.me (h : Inv s) {x : Ctx} (hx : s.me? = some x) : CtxOk x := State.ctx_of_me? hx ▸ h.ctx _ _

theorem Inv.setCore (h : Inv s) {co : Core} (hc : CoreOk co) : Inv (s.setCore c co) := by
  refine InvParts.inv { h.parts with coreCount := by simpa [State.setCore] using h.parts.coreCount, cores := fun d hd => ?_ }
  rcases List.mem_or_eq_of_mem_set hd with hd | rfl
  · exact h.parts.cores d hd
  · exact hc

theorem Inv.updCore (h : Inv s) {f : Core → Core} (hf : CoreOk (s.core c) → CoreOk (f (s.core c))) :
    Inv (s.updCore c f) := h.setCore (hf (h.core c))

theorem Inv.setCtx (h : Inv s) {x : Ctx} (hx : CtxOk x) : Inv (s.setCtx c k x) :=
  h.updCore fun hc => hc.setCtx k hx

theorem Inv.updCtx (h : Inv s) {f : Ctx → Ctx} (hf : CtxOk (s.ctx c k) → CtxOk (f (s.ctx c k))) :
    Inv (s.updCtx c k f) := h.setCtx (hf (h.ctx c k))

theorem Inv.setMe (h : Inv s) {x : Ctx} (hx : CtxOk x) : Inv (s.setMe x) := h.setCtx hx

theorem Inv.setGroup (h : Inv s) {r : Group} : Inv (s.setGroup c k g r) := h.setCtx (h.ctx c k)

theorem Inv.updGroup (h : Inv s) {f : Group → Group} : Inv (s.updGroup c k g f) := h.setGroup

theorem Inv.setGrp (h : Inv s) {r : Group} : Inv (s.setGrp r) := h.setGroup

theorem Inv.updLaneSet (h : Inv s) {f : LaneSet → LaneSet} : Inv (s.updLaneSet c ls f) :=
  h.updCore fun hc => hc.setLanesets (by rw [modifyAt_length]; exact hc.lanesetCount)

theorem Inv.updChan (h : Inv s) {f : Chan → Chan} : Inv (s.updChan c ch f) := h.updCore fun hc => hc

theorem Inv.setLaunches (h : Inv s) {ls : List Launch} (hl : ∀ l ∈ ls, LaunchOk l) : Inv { s with launches := ls } :=
  InvParts.inv { h.parts with launches := hl }

theorem Inv.mapLaunches (h : Inv s) {f : Launch → Launch} (hf : ∀ l, LaunchOk l → LaunchOk (f l)) :
    Inv { s with launches := s.launches.map f } :=
  h.setLaunches fun _ hl => by
    obtain ⟨m, hm, rfl⟩ := List.mem_map.mp hl
    exact hf m (h.parts.launches m hm)

theorem Inv.updLaunch (h : Inv s) {f : Launch → Launch} (hf : ∀ l, LaunchOk l → LaunchOk (f l)) :
    Inv (s.updLaunch part id f) :=
  h.mapLaunches fun l hl => by
    split
    · exact hf l hl
    · exact hl

theorem Inv.launch (h : Inv s) {l : Launch} (hl : s.launch? part id = some l) : LaunchOk l :=
  h.parts.launches l (List.mem_of_find?_eq_some hl)

theorem Inv.countFault (h : Inv s) {cause : Nat} : Inv (countFault s part id cause) :=
  h.updLaunch fun _ hl => hl

end

end Sys2Proof.Claims
end

