-- ==== Sys2Proof/Proofs/PowerHeat.lean ====
section
/-! O50: power samples, temperatures and bring-up (01 R25-R27, 11 R335). The records of a power stop change memory and rings alone. -/

namespace Sys2Proof.Claims

open Machine

/-! ### What a record changes (11 R320, R321) -/

/-- t is s but for memory, cached pool lines, rings and interrupts. -/
def RecordsOnly (s t : State) : Prop :=
  t = { s with mem := t.mem, host := t.host, poolLines := t.poolLines, pages := t.pages, irqs := t.irqs }

theorem RecordsOnly.refl (s : State) : RecordsOnly s s := rfl

theorem RecordsOnly.trans {s t u : State} (h : RecordsOnly s t) (k : RecordsOnly t u) : RecordsOnly s u := by
  unfold RecordsOnly at *
  rw [k, h]

theorem recordsOnly_writeByte (s : State) (pa : Nat) (b : Byte) : RecordsOnly s (writeByte s pa b) := by
  unfold writeByte poolWriteByte
  split <;> rfl

theorem recordsOnly_writePhys (s : State) (pa : Nat) (bs : List Byte) : RecordsOnly s (writePhys s pa bs) := by
  induction bs generalizing s pa with
  | nil => rfl
  | cons b r ih => exact (recordsOnly_writeByte s pa b).trans (ih _ _)

theorem recordsOnly_updEv (s : State) (p e : Nat) (f : EvRing → EvRing) : RecordsOnly s (s.updEv p e f) := rfl

theorem recordsOnly_raiseIrq (s : State) (p e : Nat) : RecordsOnly s (raiseIrq s p e) := rfl

theorem recordsOnly_emitRecord (s : State) (p e : Nat) (r : Record) : RecordsOnly s (emitRecord s p e r) := by
  unfold emitRecord
  have h := recordsOnly_writePhys s ((s.evRing p e).base + (s.evRing p e).produced % (s.evRing p e).entries * 32)
    (r.bytes s.devTime ((s.evRing p e).produced + 1))
  dsimp only
  split
  · exact (h.trans (recordsOnly_updEv _ p e _)).trans (recordsOnly_raiseIrq _ p e)
  · exact h.trans (recordsOnly_updEv _ p e _)

theorem recordsOnly_writeRecord (s : State) (p e : Nat) (r : Record) : RecordsOnly s (writeRecord s p e r) := by
  unfold writeRecord
  split
  · exact recordsOnly_emitRecord s p e r
  · exact recordsOnly_updEv s p e _

theorem recordsOnly_powerRecords (s : State) (w : W64) : RecordsOnly s (powerRecords s w) := by
  unfold powerRecords
  exact foldl_keeps (p := RecordsOnly s) (fun t p h => h.trans (recordsOnly_writeRecord t p.id 0 _)) s.parts (RecordsOnly.refl s)

/-! ### Power (01 R25, R26) -/

theorem firmwareUp_of_running {s : State} (h : Running s) : firmwareUp s = true := by
  rcases h with h | h <;> simp [firmwareUp, h]

theorem hot_of_cool {s : State} (h : ∀ d ∈ s.temps, d < 100) : hot s = false := by
  simpa [hot] using h

/-- A sample of the running mean: the clock, the counts and the throttled time, and nothing else (01 R25). -/
theorem execPowerSample_running {s : State} (hr : Running s) (hl : ¬ (s.stopped = true ∧ s.limitSet = true)) (watts : Nat) :
    exec (.powerSample watts) s = .next { s with
      coreClock := sampleClock s watts
      throttledNs := if s.coreClock < clockCap s then s.throttledNs + 100000 else s.throttledNs
      meanAbove := if s.powerLimit < watts && s.coreClock = 1000 then s.meanAbove + 1 else 0
      meanBelow := if watts * 100 < s.powerLimit * 95 then s.meanBelow + 1 else 0
      limitSet := false } := by
  have hs : (s.stopped && s.limitSet && decide (watts < s.powerLimit)) = false := by
    have hsl : (s.stopped && s.limitSet) = false := by simpa using hl
    rw [hsl, Bool.false_and]
  simp only [exec, execPowerSample, firmwareUp_of_running hr, hs]
  rfl

theorem sampleClock_above {s : State} {watts : Nat} (hs : s.stopped = false) (h : s.powerLimit < watts) :
    sampleClock s watts = max 1000 (s.coreClock - 50) := by
  simp [sampleClock, hs, h, clockDown]

theorem sampleClock_below {s : State} {watts : Nat} (hs : s.stopped = false) (hc : ∀ d ∈ s.temps, d < 100)
    (h : 100 * watts < 95 * s.powerLimit) (hw : watts ≤ s.powerLimit) :
    sampleClock s watts = min (if s.boot.phase = .training then 1500 else 3000) (s.coreClock + 50) := by
  have h1 : ¬ s.powerLimit < watts := by omega
  have h2 : watts * 100 < s.powerLimit * 95 := by omega
  simp [sampleClock, hs, h1, h2, hot_of_cool hc, clockUp, clockCap]

theorem sampleClock_between {s : State} {watts : Nat} (hs : s.stopped = false) (hc : ∀ d ∈ s.temps, d < 100)
    (h : 95 * s.powerLimit ≤ 100 * watts) (hw : watts ≤ s.powerLimit) : sampleClock s watts = s.coreClock := by
  have h1 : ¬ s.powerLimit < watts := by omega
  have h2 : ¬ watts * 100 < s.powerLimit * 95 := by omega
  simp [sampleClock, hs, h1, h2, hot_of_cool hc]

theorem sampleClock_stopped {s : State} (hs : s.stopped = true) (watts : Nat) : sampleClock s watts = s.coreClock := by
  simp [sampleClock, hs]

/-- No partition is released from the stop that the records of a stop announce. -/
theorem released_of_partition {t : State} {ps : List Partition}
    (h : t.parts = ps.map (fun (p : Partition) => { p with released := false })) {p : Nat} {q : Partition}
    (hq : t.partition p = some q) : q.released = false := by
  have hm := List.mem_of_find?_eq_some hq
  rw [h] at hm
  obtain ⟨r, -, rfl⟩ := List.mem_map.mp hm
  rfl

/-- The state a power stop leaves, before its records: issue is stopped in every partition (01 R26). -/
def stoppedForPower (s : State) : State :=
  { s with
    stopped := true, meanAbove := 0, meanBelow := 0, parts := s.parts.map (fun (p : Partition) => { p with released := false }) }

theorem execPowerLimitStop_stops {s : State} (hr : Running s) (hp : s.stopped = false ∨ ∃ q ∈ s.parts, q.released = true)
    (hm : 500 ≤ s.meanAbove) (hc : s.coreClock = 1000) :
    exec .powerLimitStop s = .next (powerRecords (stoppedForPower s) 0) := by
  have hs : (s.stopped && s.parts.all (fun p => !p.released)) = false := by
    rcases hp with hp | ⟨q, hq, hq'⟩
    · simp [hp]
    · simp only [Bool.and_eq_false_imp, List.all_eq_false]
      exact fun _ => ⟨q, hq, by simp [hq']⟩
  have hn : ¬ s.meanAbove < 500 := by omega
  have hg : (!firmwareUp s || (s.stopped && s.parts.all (fun p => !p.released)) || decide (s.meanAbove < 500) ||
      s.coreClock != 1000) = false := by simp [firmwareUp_of_running hr, hs, hn, hc]
  simp only [exec, execPowerLimitStop, hg]
  rfl

theorem execPowerLimitResume_resumes {s : State} (hs : s.stopped = true) (hm : 100 ≤ s.meanBelow) :
    exec .powerLimitResume s = .next (powerResume s) := by
  have hn : ¬ s.meanBelow < 100 := by omega
  simp [exec, execPowerLimitResume, hs, hn]

/-! ### Bring-up (11 R335) -/

/-- The bit a deck sets in a four-bit word. -/
theorem getLsbD_or_deck (w : BitVec 4) {deck d : Nat} (hd : d < 4) :
    (w ||| 1#4 <<< deck).getLsbD d = (w.getLsbD d || decide (d = deck)) := by
  rw [BitVec.getLsbD_or, BitVec.getLsbD_shiftLeft, BitVec.getLsbD_one]
  congr 1
  by_cases h : d = deck
  · subst h
    simp [hd]
  · by_cases hlt : d < deck
    · simp [h, hlt]
    · have : d - deck ≠ 0 := by omega
      simp [h, this]

/-- Whether a deck's training may end: it is neither ready nor failed, and each deck before it is one or the other. -/
theorem deckTurn {s : State} {deck : Nat} (hd : deck < 4) (hp : s.boot.phase = .training)
    (hb : ∀ d, d < 4 → d < deck → s.boot.ready.getLsbD d = true ∨ s.boot.failed.getLsbD d = true)
    (hr : s.boot.ready.getLsbD deck = false) (hf : s.boot.failed.getLsbD deck = false) :
    (s.boot.phase != .training || decide (4 ≤ deck) || s.boot.ready.getLsbD deck || s.boot.failed.getLsbD deck ||
      (List.range deck).any (fun d => !s.boot.ready.getLsbD d && !s.boot.failed.getLsbD d)) = false := by
  have hn : ¬ 4 ≤ deck := by omega
  have ha : (List.range deck).any (fun d => !s.boot.ready.getLsbD d && !s.boot.failed.getLsbD d) = false := by
    rw [List.any_eq_false]
    intro d hd'
    rw [List.mem_range] at hd'
    rcases hb d (by omega) hd' with h | h <;> simp [h]
  simp [hp, hn, hr, hf, ha]

theorem execDeckTrainingComplete_trains {s : State} {deck : Nat} (hd : deck < 4) (hp : s.boot.phase = .training)
    (hb : ∀ d, d < 4 → d < deck → s.boot.ready.getLsbD d = true ∨ s.boot.failed.getLsbD d = true)
    (hr : s.boot.ready.getLsbD deck = false) (hf : s.boot.failed.getLsbD deck = false) :
    exec (.deckTrainingComplete deck) s =
      .next (fullService { s with boot := { s.boot with ready := s.boot.ready ||| 1#4 <<< deck, reduced := true } }) := by
  simp only [exec, execDeckTrainingComplete, deckTurn hd hp hb hr hf]
  rfl

theorem execDeckTrainingFailed_counts {s : State} {deck n : Nat} (hd : deck < 4) (hp : s.boot.phase = .training)
    (hb : ∀ d, d < 4 → d < deck → s.boot.ready.getLsbD d = true ∨ s.boot.failed.getLsbD d = true)
    (hr : s.boot.ready.getLsbD deck = false) (hf : s.boot.failed.getLsbD deck = false) (hn : s.boot.fails[deck]? = some n) :
    exec (.deckTrainingFailed deck) s = .next { s with boot := { s.boot with
      fails := s.boot.fails.set deck (n + 1)
      failed := if 3 ≤ n + 1 then s.boot.failed ||| 1#4 <<< deck else s.boot.failed } } := by
  have hg : s.boot.fails.getD deck 0 = n := by rw [List.getD_eq_getElem?_getD, hn]; rfl
  simp only [exec, execDeckTrainingFailed, deckTurn hd hp hb hr hf, hg]
  rfl

/-- Full service changes the clock and two fields of the bring-up state at most. -/
theorem fullService_boot (s : State) :
    (fullService s).boot.ready = s.boot.ready ∧ (fullService s).boot.stier = s.boot.stier ∧
      (fullService s).boot.poolPorts = s.boot.poolPorts ∧ (fullService s).ports = s.ports := by
  unfold fullService
  split <;> exact ⟨rfl, rfl, rfl, rfl⟩

theorem fullService_untrained {s : State} (h : allTrained s = false) : fullService s = s := by
  simp [fullService, h]

theorem fullService_trained {s : State} (hp : s.boot.phase = .training) (h : allTrained s = true) :
    (fullService s).boot.phase = .ready ∧ (fullService s).boot.reduced = false := by
  simp [fullService, hp, h]

theorem eq_fifteen_iff (w : BitVec 4) : w = 15#4 ↔ ∀ d, d < 4 → w.getLsbD d = true := by
  constructor
  · rintro rfl
    decide
  · intro h
    refine BitVec.eq_of_getLsbD_eq (fun d hd => ?_)
    rw [h d hd]
    exact ((by decide : ∀ d, d < 4 → (15#4).getLsbD d = true) d hd).symm

/-- The second tier or a pool port trains (11 R335). -/
theorem execTrained_stier {s : State} (hp : s.boot.phase = .training) :
    exec (.secondTierOrPoolPortTrained .stier) s = .next (fullService { s with boot := { s.boot with stier := true } }) := by
  simp [exec, execSecondTierOrPoolPortTrained, hp]

theorem execTrained_port {s : State} (hp : s.boot.phase = .training) {p : Nat} (rate lanes : Nat) (h8 : p < 8)
    (hen : s.part.ports.getLsbD p = true) :
    exec (.secondTierOrPoolPortTrained (.port p rate lanes)) s = .next (fullService { s with
      ports := s.ports.set p (rate, lanes)
      boot := { s.boot with poolPorts := s.boot.poolPorts ||| 1#8 <<< p } }) := by
  have hn : ¬ 8 ≤ p := by omega
  simp [exec, execSecondTierOrPoolPortTrained, hp, hn, hen]

/-! ### The obligation -/

theorem powerStop_effect {s : State} (hr : Running s) (hp : s.stopped = false ∨ ∃ q ∈ s.parts, q.released = true)
    (hm : 500 ≤ s.meanAbove) (hc : s.coreClock = 1000) :
    ∃ t, exec .powerLimitStop s = .next t ∧ t.stopped = true ∧ t.coreClock = 1000 ∧ t.cores = s.cores ∧
      ∀ p, powerStopped t p = !(t.partition p).any (·.released) ∧ ∀ q, t.partition p = some q → q.released = false := by
  have hf := recordsOnly_powerRecords (stoppedForPower s) 0
  have hst : (powerRecords (stoppedForPower s) 0).stopped = true := by rw [hf, stoppedForPower]
  have hps : (powerRecords (stoppedForPower s) 0).parts = (stoppedForPower s).parts := by rw [hf]
  refine ⟨_, execPowerLimitStop_stops hr hp hm hc, hst, by rw [hf]; exact hc, by rw [hf, stoppedForPower], fun p => ⟨?_, fun q hq => ?_⟩⟩
  · rw [powerStopped, hst, Bool.true_and]
  · exact released_of_partition hps hq

theorem powerResume_effect {s : State} (hs : s.stopped = true) (hm : 100 ≤ s.meanBelow) :
    ∃ t, exec .powerLimitResume s = .next t ∧ t.stopped = false ∧ t.coreClock = 1000 ∧ t.cores = s.cores := by
  have hf := recordsOnly_powerRecords { s with stopped := false, coreClock := 1000, meanAbove := 0, meanBelow := 0 } (1#64 <<< 63)
  exact ⟨_, execPowerLimitResume_resumes hs hm, by rw [powerResume, hf], by rw [powerResume, hf], by rw [powerResume, hf]⟩

theorem powerSample_effect {s : State} (hr : Running s) (watts : Nat) (hc : ∀ d ∈ s.temps, d < 100)
    (hl : ¬ (s.stopped = true ∧ s.limitSet = true)) :
    ∃ t, exec (.powerSample watts) s = .next t ∧
      t = { s with coreClock := t.coreClock, throttledNs := t.throttledNs, meanAbove := t.meanAbove, meanBelow := t.meanBelow,
                   limitSet := false } ∧
      (s.stopped = false → s.powerLimit < watts → t.coreClock = max 1000 (s.coreClock - 50)) ∧
      (s.stopped = false → 100 * watts < 95 * s.powerLimit → watts ≤ s.powerLimit →
        t.coreClock = min (if s.boot.phase = .training then 1500 else 3000) (s.coreClock + 50)) ∧
      (s.stopped = false → 95 * s.powerLimit ≤ 100 * watts → watts ≤ s.powerLimit → t.coreClock = s.coreClock) ∧
      (s.stopped = true → t.coreClock = s.coreClock) ∧
      t.meanAbove = (if s.powerLimit < watts ∧ s.coreClock = 1000 then s.meanAbove + 1 else 0) ∧
      t.meanBelow = (if 100 * watts < 95 * s.powerLimit then s.meanBelow + 1 else 0) := by
  refine ⟨_, execPowerSample_running hr hl watts, rfl, fun hs h => sampleClock_above hs h,
    fun hs h hw => sampleClock_below hs hc h hw, fun hs h hw => sampleClock_between hs hc h hw,
    fun hs => sampleClock_stopped hs watts, by simp, ?_⟩
  simp only [Nat.mul_comm]

theorem thermalThrottle_effect {s : State} {die temp : Nat} (hd : die < s.temps.length) (ht : temp < 115) :
    exec (.thermalThrottle die temp) s = .next { s with
      temps := s.temps.set die temp
      coreClock := if 100 ≤ temp ∧ (s.boot.phase = .training ∨ s.boot.phase = .ready) ∧ s.stopped = false
        then max 1000 (s.coreClock - 50) else s.coreClock } := by
  have h1 : ¬ s.temps.length ≤ die := by omega
  have h2 : ¬ 115 ≤ temp := by omega
  simp [exec, execThermalThrottle, h1, h2, firmwareUp, clockDown, and_assoc]

theorem thermalTrip_effect {s : State} {die temp : Nat} (hd : die < s.temps.length) (ht : 115 ≤ temp) :
    ∃ t, exec (.thermalTrip die temp) s = .next t ∧ t.boot.phase = .tripped ∧ t.mem = [] ∧ t.parts = [] ∧ t.launches = [] ∧
      t.poolLines = [] ∧ t.cmds = [] ∧ t.cores = State.reset.cores ∧ t.host = s.host ∧ t.poolDev = s.poolDev ∧ t.part = s.part := by
  have h1 : (decide (s.temps.length ≤ die) || decide (temp < 115)) = false := by simp [hd, ht]
  simp only [exec, execThermalTrip, h1]
  exact ⟨_, rfl, rfl, rfl, rfl, rfl, rfl, rfl, rfl, rfl, rfl, rfl⟩

theorem hostRestart_cool {s : State} (hp : s.boot.phase = .tripped) (h : ∀ d ∈ s.temps, d < 90) :
    exec .hostRestart s = .next { s with boot := { Boot.off with thermal := true } } := by
  have ha : s.temps.all (fun t => decide (t < 90)) = true := by simpa using h
  simp only [exec, execHostRestart, hp, ha]
  rfl

theorem hostRestart_warm {s : State} (h : ∃ d ∈ s.temps, 90 ≤ d) : exec .hostRestart s = .next s := by
  obtain ⟨d, hd, h90⟩ := h
  have ha : s.temps.all (fun t => decide (t < 90)) = false := List.all_eq_false.mpr ⟨d, hd, by simpa using h90⟩
  simp [exec, execHostRestart, ha]

theorem deckComplete_effect {s : State} {deck : Nat} (hd : deck < 4) (hp : s.boot.phase = .training)
    (hb : ∀ d, d < 4 → d < deck → s.boot.ready.getLsbD d = true ∨ s.boot.failed.getLsbD d = true)
    (hr : s.boot.ready.getLsbD deck = false) (hf : s.boot.failed.getLsbD deck = false) :
    ∃ t, exec (.deckTrainingComplete deck) s = .next t ∧
      (∀ d, d < 4 → t.boot.ready.getLsbD d = (s.boot.ready.getLsbD d || decide (d = deck))) ∧
      (s.boot.stier = false → t.boot.phase = .training ∧ t.boot.reduced = true ∧ t.coreClock = s.coreClock) ∧
      ((∀ d, d < 4 → d ≠ deck → s.boot.ready.getLsbD d = true) → s.boot.stier = true → s.boot.poolPorts = s.part.ports →
        t.boot.phase = .ready ∧ t.boot.reduced = false) := by
  refine ⟨_, execDeckTrainingComplete_trains hd hp hb hr hf, fun d hd' => ?_, fun hs => ?_, fun hall hs hpp => ?_⟩
  · rw [(fullService_boot _).1]
    exact getLsbD_or_deck _ hd'
  · rw [fullService_untrained (by simp [allTrained, hs])]
    exact ⟨hp, rfl, rfl⟩
  · refine fullService_trained hp ?_
    have h15 : (s.boot.ready ||| 1#4 <<< deck) = 15#4 := (eq_fifteen_iff _).mpr fun d hd' => by
      rw [getLsbD_or_deck _ hd']
      by_cases h : d = deck
      · simp [h]
      · simp [hall d hd' h]
    simp [allTrained, h15, hs, hpp]

theorem deckFailed_effect {s : State} {deck : Nat} (hd : deck < 4) (hp : s.boot.phase = .training)
    (hb : ∀ d, d < 4 → d < deck → s.boot.ready.getLsbD d = true ∨ s.boot.failed.getLsbD d = true)
    (hr : s.boot.ready.getLsbD deck = false) (hf : s.boot.failed.getLsbD deck = false) (hn : s.boot.fails.length = 4) :
    ∃ t n, s.boot.fails[deck]? = some n ∧ exec (.deckTrainingFailed deck) s = .next t ∧
      t = { s with boot := { s.boot with fails := s.boot.fails.set deck (n + 1), failed := t.boot.failed } } ∧
      ∀ d, d < 4 → t.boot.failed.getLsbD d = (s.boot.failed.getLsbD d || decide (d = deck ∧ 2 ≤ n)) := by
  have hg := List.getElem?_eq_getElem (hn.symm ▸ hd : deck < s.boot.fails.length)
  refine ⟨_, _, hg, execDeckTrainingFailed_counts hd hp hb hr hf hg, rfl, fun d hd' => ?_⟩
  generalize s.boot.fails[deck] = n
  by_cases h : 2 ≤ n
  · simp [h, getLsbD_or_deck _ hd']
  · simp [h]

theorem stierTrained_effect {s : State} (hp : s.boot.phase = .training) :
    ∃ t, exec (.secondTierOrPoolPortTrained .stier) s = .next t ∧ t.boot.stier = true ∧
      (s.boot.ready ≠ 15 → t = { s with boot := { s.boot with stier := true } }) ∧
      (s.boot.ready = 15 → s.boot.poolPorts = s.part.ports → t.boot.phase = .ready) := by
  refine ⟨_, execTrained_stier hp, (fullService_boot _).2.1, fun h => ?_, fun h hpp => ?_⟩
  · exact fullService_untrained (by simpa [allTrained] using fun h' => absurd h' h)
  · exact (fullService_trained (s := { s with boot := { s.boot with stier := true } }) hp (by simp [allTrained, h, hpp])).1

theorem portTrained_effect {s : State} (hp : s.boot.phase = .training) {p : Nat} (rate lanes : Nat) (h8 : p < 8)
    (hen : s.part.ports.getLsbD p = true) :
    ∃ t, exec (.secondTierOrPoolPortTrained (.port p rate lanes)) s = .next t ∧
      t.boot.poolPorts.getLsbD p = true ∧ t.ports = s.ports.set p (rate, lanes) := by
  obtain ⟨-, -, hpp, hports⟩ := fullService_boot { s with
    ports := s.ports.set p (rate, lanes), boot := { s.boot with poolPorts := s.boot.poolPorts ||| 1#8 <<< p } }
  refine ⟨_, execTrained_port hp rate lanes h8 hen, ?_, hports⟩
  rw [hpp]
  simp [h8]

/-- Settles O50: each clause is one of the effects above. -/
theorem powerHeatAndBringUp : Obligations.PowerHeatAndBringUp := by
  refine ⟨fun s => ⟨fun hr watts hc hl => powerSample_effect hr watts hc hl,
      fun hr hp hm hc => powerStop_effect hr hp hm hc, fun hs hm => powerResume_effect hs hm,
      fun die temp hd ht => thermalThrottle_effect hd ht, fun die temp hd ht => thermalTrip_effect hd ht,
      fun hp h => hostRestart_cool hp h, fun _ h => hostRestart_warm h⟩,
    fun s => ⟨fun hp => ?_, fun deck hd hp hb hr hf hn => ⟨deckComplete_effect hd hp hb hr hf, deckFailed_effect hd hp hb hr hf hn⟩,
      fun hp => ⟨stierTrained_effect hp, fun p rate lanes h8 hen => portTrained_effect hp rate lanes h8 hen⟩⟩⟩
  constructor <;> simp [exec, execPowerOn, hp]

end Sys2Proof.Claims
end

