-- ==== Sys2Proof/Proofs/KeepsStorage.lean ====
section
/-! Storage and the order of accesses keep the invariant: bytes, poison, pool lines, writes as they take their place, store queues,
releases and acquires (07 R199-R206, 08 R207-R222). -/

namespace Sys2Proof.Claims

open Machine

section
variable {s : State} {a o me : Agent} {c k n pa va : Nat} {scratch : Option Nat} {cells : List (Nat × Byte)} {bytes : List Byte}
  {poison : Option Nat} {p : Nat → Bool} {vs : List View} {reach : Reach} {agents : List Agent} {l : Link} {places : List Nat}

/-! ### Bytes and poison -/

theorem Inv.setMem (h : Inv s) {m : Mem} (hm : m.wf = true) : Inv { s with mem := m } := InvParts.inv { h.parts with mem := hm }

theorem Inv.setHost (h : Inv s) {m : Mem} (hm : m.wf = true) : Inv { s with host := m } := InvParts.inv { h.parts with host := hm }

theorem Inv.setPoolDev (h : Inv s) {m : Mem} (hm : m.wf = true) : Inv { s with poolDev := m } :=
  InvParts.inv { h.parts with poolDev := hm }

theorem Inv.setPoolLines (h : Inv s) {ls : List PoolLine} (hl : ∀ x ∈ ls, x.work.length = 128) : Inv { s with poolLines := ls } :=
  InvParts.inv { h.parts with lines := hl }

theorem Inv.setPoison (h : Inv s) {cause : Option Nat} : Inv (setPoison s scratch pa n cause) := by
  unfold Machine.setPoison
  cases cause with
  | none => dsimp only; split <;> exact h
  | some c => exact h

theorem Inv.checkInWhere (h : Inv s) {q : PoolLine → Bool} : Inv (checkInWhere s q) := by
  have hd : ((s.poolLines.filter q).foldl checkInLine s.poolDev).wf = true :=
    foldl_keeps (p := fun m : Mem => m.wf = true) (fun _ x hm => checkInLine_wf x hm) _ h.parts.poolDev
  exact (h.setPoolDev hd).setPoolLines fun x hx => h.parts.lines x (List.mem_filter.mp hx).1

theorem Inv.dropCopies (h : Inv s) : Inv (dropCopies s p) := h

theorem Inv.checkInAll (h : Inv s) : Inv (checkInAll s) := h.checkInWhere

theorem Inv.makeRoom (h : Inv s) : Inv (makeRoom s n) := h.checkInWhere

/-- A pool line as it is opened holds 128 bytes. -/
theorem Inv.poolOpen_length (h : Inv s) (line : Nat) : (poolOpen s line).work.length = 128 := by
  unfold poolOpen
  split
  · rename_i x hx
    exact h.parts.lines x (List.mem_of_find?_eq_some hx)
  · simp [Mem.readBytes]

theorem Inv.poolWriteByte (h : Inv s) {b : Byte} : Inv (poolWriteByte s pa b) := by
  have hn : ((poolOpen s (poolLineOf pa)).work.set (pa % 128) b).length = 128 := by
    rw [List.length_set]
    exact h.poolOpen_length _
  unfold Machine.poolWriteByte
  refine h.setPoolLines fun x hx => ?_
  split at hx
  · obtain ⟨y, hy, rfl⟩ := List.mem_map.mp hx
    split
    · exact hn
    · exact h.parts.lines y hy
  · rcases List.mem_append.mp hx with hx | hx
    · exact h.parts.lines x hx
    · rw [List.mem_singleton.mp hx]
      exact hn

theorem Inv.writeByte (h : Inv s) {b : Byte} : Inv (writeByte s pa b) := by
  unfold Machine.writeByte
  split
  · exact h.setMem (Mem.wf_set _ _ h.parts.mem)
  · exact h.setMem (Mem.wf_set _ _ h.parts.mem)
  · exact h.poolWriteByte
  · exact h.setHost (Mem.wf_set _ _ h.parts.host)
  · exact h

theorem Inv.writePhys (h : Inv s) : Inv (writePhys s pa bytes) := by
  induction bytes generalizing s pa with
  | nil => exact h
  | cons b r ih => exact ih h.writeByte

theorem Inv.markSpill (h : Inv s) : Inv (markSpill s pa n) := h.foldl fun _ _ ht => ht.updLaunch fun _ hl => hl

theorem Inv.keepCode (h : Inv s) : Inv (keepCode s pa n) := by
  unfold Machine.keepCode
  extract_lets t
  have ht : Inv t := by
    unfold t
    split
    · exact h.mapLaunches fun l hl => by split <;> exact hl
    · exact h
  clear_value t
  split <;> exact ht

theorem Inv.putBytes (h : Inv s) : Inv (putBytes s pa bytes poison) := h.keepCode.writePhys.markSpill.setPoison

theorem Inv.writeScr (h : Inv s) : Inv (writeScr s c cells poison) :=
  Inv.foldl (h.updCore fun hc => hc.setScr (Mem.wf_writeCells _ hc.2.1)) fun _ _ ht => ht.setPoison

/-! ### Writes take their place -/

theorem Inv.setLate (h : Inv s) {es : List Late} : Inv { s with late := es } := h

theorem Inv.performWrite (h : Inv s) {rmw : Bool} {before : List Since} : Inv (performWrite s a n rmw before scratch cells poison) := by
  have hw : Inv (match scratch, cells with
      | some c, _ => Machine.writeScr s c cells poison
      | none, (pa, _) :: _ => Machine.putBytes s pa (cells.map (·.2)) poison
      | none, [] => s) := by
    split
    · exact h.writeScr
    · exact h.putBytes
    · exact h
  unfold Machine.performWrite
  dsimp only
  split
  · exact hw
  · exact hw.setLate

theorem Inv.noteEvent (h : Inv s) : Inv (noteEvent s a) := h

theorem Inv.leave (h : Inv s) {q : Store} : Inv (q.leave s) := h.performWrite

theorem Inv.flushWhere (h : Inv s) {q : Store → Bool} : Inv (flushWhere s q) := by
  unfold Machine.flushWhere
  split
  · exact h
  · exact Inv.foldl h fun _ _ ht => ht.leave

theorem Inv.flushThrough (h : Inv s) {q : Store → Bool} : Inv (flushThrough s q) := h.flushWhere

theorem Inv.flushAgent (h : Inv s) {host : Bool} : Inv (flushAgent s a host) := h.flushWhere

theorem Inv.flushTeam (h : Inv s) : Inv (flushTeam s c k) := h.flushWhere

theorem Inv.queueStore (h : Inv s) : Inv (queueStore s a scratch cells poison) := h

theorem Inv.beforeHost (h : Inv s) : Inv (beforeHost s a pa) := by
  unfold Machine.beforeHost
  split
  · exact h.flushAgent
  · exact h

theorem Inv.beforeAtomic (h : Inv s) : Inv (beforeAtomic s a pa) := h.flushAgent

theorem Inv.forgetLate (h : Inv s) : Inv (forgetLate s scratch p) := by
  rw [forgetLate_eq]
  exact h

theorem Inv.storeBytes (h : Inv s) : Inv (storeBytes s pa bytes poison) := h.putBytes.forgetLate

/-! ### Releases and acquires -/

theorem Inv.release (h : Inv s) {after : List View} : Inv (release s l agents after reach) := h

theorem Inv.acquireWhere (h : Inv s) {q : Late → Bool} : Inv (acquireWhere s q vs) := by
  rw [acquireWhere_eq]
  exact h

theorem Inv.acquire (h : Inv s) {q : Release → Bool} : Inv (acquire s c q vs) := h.acquireWhere

theorem Inv.acquireReads (h : Inv s) {q : Release → Bool} : Inv (acquireReads s q vs) := by
  unfold Machine.acquireReads
  split <;> exact h

theorem Inv.refresh (h : Inv s) {wide : Bool} : Inv (refresh s wide vs) := by
  rw [refresh_eq]
  exact h

theorem Inv.acquireFence (h : Inv s) {wide : Bool} : Inv (acquireFence s c reach wide agents vs) := h.acquire.refresh

theorem Inv.releaseFence (h : Inv s) {after later : List View} : Inv (releaseFence s l reach agents after later) :=
  h.release.acquireWhere

theorem Inv.orderPaths (h : Inv s) {wide same : Bool} : Inv (orderPaths s c reach wide same agents vs) := by
  unfold Machine.orderPaths
  split
  · exact h.acquireFence.releaseFence
  · exact h.releaseFence

theorem Inv.seeFed (h : Inv s) {tainted : Bool} : Inv (seeFed s o tainted) := by
  unfold Machine.seeFed
  split
  · exact h.acquire
  · exact h

theorem Inv.noteRead (h : Inv s) : Inv (noteRead s o n scratch places) := by
  rw [noteRead_eq]
  exact h

theorem Inv.feed (h : Inv s) : Inv (feed s o scratch places) := h

theorem Inv.loaded (h : Inv s) {consume : Bool} : Inv (loaded s o scratch places consume) := by
  unfold Machine.loaded
  split
  · exact h.feed.noteRead
  · exact h.noteRead

theorem Inv.readLatest (h : Inv s) : Inv (readLatest s o scratch places) := h.setLate.noteRead

theorem Inv.arrive (h : Inv s) : Inv (arrive s o places) := h.acquireWhere

theorem Inv.showWrite (h : Inv s) : Inv (showWrite s n o) := h

theorem Inv.renameTeam (h : Inv s) : Inv (renameTeam s c k n) := by
  unfold Machine.renameTeam
  extract_lets _ chan
  have hc : Inv (s.updCore c fun co => { co with chans := co.chans.map chan }) := h.updCore fun hc => hc
  exact hc

theorem Inv.endOrder (h : Inv s) : Inv (endOrder s c k) := h.flushTeam.renameTeam

theorem Inv.orderTeam (h : Inv s) : Inv (orderTeam s c k) := h.flushWhere.acquireWhere

end

end Sys2Proof.Claims
end

