-- ==== Sys2Proof/Proofs/KeepsOps.lean ====
section
/-! The shared operations of the machine keep the invariant: lane sets, join counters and the gatherer, copy channels, the end of a
team, traps, and the entry to and return from a routine (03 R91-R96, 07 R184, R189, 10 R273-R292). -/

namespace Sys2Proof.Claims

open Machine

/-! ### Contexts and cores -/

/-- A freeze record changed in fields other than its stream. -/
theorem CtxOk.mapFrozen {x : Ctx} (h : CtxOk x) {f : Frozen → Frozen} (hf : ∀ fr, (f fr).stream = fr.stream) :
    CtxOk { x with frozen := x.frozen.map f } :=
  h.setFrozen fun fr hfr => by
    obtain ⟨gr, hg, rfl⟩ := Option.map_eq_some_iff.mp hfr
    rw [hf]
    exact h.frozen hg

theorem streamOk_routine (n : Nat) : StreamOk (Stream.routine n) := by
  obtain ⟨h1, h2, h3, h4, -⟩ := streamOk_fresh
  exact ⟨h1, h2, h3, h4, by rw [Stream.routine, List.length_set, List.length_replicate]⟩

theorem CoreOk.formSeq {co : Core} (h : CoreOk co) {r : SpawnRec} : CoreOk (formSeq co r) := h

theorem CoreOk.formFull {co : Core} (h : CoreOk co) {r : SpawnRec} : CoreOk (formFull co r) := by
  unfold Machine.formFull
  extract_lets own
  split <;> exact h

theorem CoreOk.gatherRecord {co : Core} (h : CoreOk co) {r : SpawnRec} : CoreOk (gatherRecord co r) :=
  CoreOk.formFull (co := { co with gather := co.gather ++ [r] }) h

theorem CoreOk.formPartials {co : Core} (h : CoreOk co) {p : SpawnRec → Bool} : CoreOk (formPartials co p) :=
  foldl_keeps (p := CoreOk) (fun k r hk => by split <;> exact hk) co.gather h

theorem CoreOk.addPresence {co : Core} (h : CoreOk co) {line : Nat} {up : Bool} : CoreOk (addPresence co line up) := h

theorem CoreOk.clearLines {co : Core} (h : CoreOk co) {lines : List Nat} : CoreOk (clearLines co lines) :=
  h.setScr (Mem.wf_filter _ h.2.1)

theorem CoreOk.mapQueues {co : Core} (h : CoreOk co) {f : RQueue → RQueue} : CoreOk { co with queues := co.queues.map f } :=
  h.setQueues (by rw [List.length_map]; exact h.queueCount)

theorem CoreOk.mapCtxs {co : Core} (h : CoreOk co) {f : Ctx → Ctx} (hf : ∀ x, CtxOk x → CtxOk (f x)) :
    CoreOk { co with ctxs := co.ctxs.map f } := by
  obtain ⟨h1, h2, h3, h4, h5⟩ := h
  refine ⟨by simpa using h1, h2, h3, h4, fun y hy => ?_⟩
  obtain ⟨x, hx, rfl⟩ := List.mem_map.mp hy
  exact hf x (h5 x hx)

section
variable {s : State} {a : Agent} {agents : List Agent} {c k g ch ci n ls part cause : Nat} {id : W32} {x : Ctx}

theorem Inv.setStamp (h : Inv s) : Inv { s with stamp := n } := h

/-! ### Lane sets -/

theorem Inv.makeEligible (h : Inv s) : Inv (makeEligible s c k g) := h.updGroup.setStamp

theorem Inv.leaveTruss (h : Inv s) : Inv (leaveTruss s c ls) := by
  unfold Machine.leaveTruss
  split
  · exact h.updLaneSet
  · extract_lets t u p v
    have hu : Inv u := h.updLaneSet.updCtx fun hx => hx.mapFrozen fun _ => rfl
    have hv : Inv v := hu.updGroup
    split
    · exact hv.makeEligible
    · exact hv

theorem Inv.leaveLaneSets (h : Inv s) : Inv (leaveLaneSets s c k) := by
  refine h.foldl fun t ls ht => ?_
  extract_lets u
  have hu : Inv u := ht.updLaneSet
  split
  · exact hu.leaveTruss
  · exact hu

/-! ### Joins and the gatherer -/

theorem Inv.joinWrite (h : Inv s) {pa add : Nat} : Inv (joinWrite s a pa add) := h.performWrite

theorem Inv.joinDec (h : Inv s) {va : W64} : Inv (joinDec a part id s va) := by
  unfold Machine.joinDec
  extract_lets asid
  split
  · exact h.joinWrite
  · exact h.countFault.updLaunch fun _ hl => hl

theorem Inv.joinDecs (h : Inv s) {vas : List W64} : Inv (joinDecs s a agents part id vas) :=
  h.release.foldl fun _ _ ht => ht.joinDec

theorem Inv.gatherAt (h : Inv s) {r : SpawnRec} : Inv (gatherAt s c r) := by
  refine h.updCore fun hc => ?_
  split
  · exact hc.gatherRecord
  · exact hc

theorem Inv.joinInc (h : Inv s) {r : SpawnRec} : Inv (joinInc a s r) := by
  unfold Machine.joinInc
  split
  · exact h
  · exact h.joinWrite

theorem Inv.acceptAll (h : Inv s) {rs : List SpawnRec} : Inv (acceptAll s a c rs) := h.foldl fun _ _ ht => ht.joinInc.gatherAt

theorem Inv.orphanRecords (h : Inv s) : Inv (orphanRecords s c k x) := by
  unfold Machine.orphanRecords
  split
  · exact h
  · extract_lets t
    have ht : Inv t := h.updCore fun hc => hc
    exact ht.mapLaunches fun l hl => by split <;> exact hl

/-! ### Copy channels -/

theorem Inv.wakeLines (h : Inv s) : Inv (wakeLines s c) := by
  refine h.foldl fun t y ht => ht.foldl fun u r hu => ?_
  split
  · split
    · exact hu.makeEligible
    · exact hu
  · exact hu

theorem Inv.finishTransfer (h : Inv s) : Inv (finishTransfer s c ch) := by
  unfold Machine.finishTransfer
  extract_lets y
  split
  · exact h
  · extract_lets t u
    have ht : Inv t := h.foldl fun _ _ ht => ht.updCore fun hc => hc.addPresence
    have hu : Inv u := ht.foldl fun _ _ hu => hu.wakeLines
    exact hu.updChan

theorem Inv.skipHalted (h : Inv s) {count : Bool} : Inv (skipHalted s c k x count) := by
  refine h.foldl fun t ch ht => ?_
  extract_lets y
  split
  · split
    · exact ht.countFault.finishTransfer
    · exact ht.finishTransfer
  · exact ht

/-! ### The end of a team -/

theorem Inv.freeCluster (h : Inv s) {l : Launch} : Inv (freeCluster s l ci) := by
  unfold Machine.freeCluster
  split
  · exact h
  · exact h.foldl fun _ _ ht => ht.updCore fun hc => hc.setQueues (by simpa using hc.queueCount)

theorem Inv.markExited (h : Inv s) : Inv (markExited s x) := by
  unfold Machine.markExited
  extract_lets t
  have ht : Inv t := h.updLaunch fun _ hl => hl
  split
  · exact ht
  · split
    · exact ht.freeCluster.updLaunch fun _ hl => hl
    · exact ht

theorem Inv.releaseReservation (h : Inv s) : Inv (releaseReservation s c) := by
  unfold Machine.releaseReservation
  extract_lets co
  split <;> exact h.setCore (h.core c)

theorem Inv.freeContext (h : Inv s) : Inv (freeContext s c k) := by
  unfold Machine.freeContext
  extract_lets t u
  have ht : Inv t := h.leaveLaneSets.endOrder
  have hu : Inv u := ht.updCore fun hc => hc.mapQueues
  exact (hu.setCtx ctxOk_free).releaseReservation

theorem Inv.noteSave (h : Inv s) : Inv (noteSave s x cause) := by
  unfold Machine.noteSave
  split <;> exact h

theorem Inv.acceptPending (h : Inv s) : Inv (acceptPending s c k) := by
  refine h.foldl fun t r ht => ?_
  extract_lets bs
  refine Inv.foldl ?_ fun _ _ hu => hu.acceptAll
  split
  · exact ht
  · exact ht.updGroup

theorem Inv.leaveSpilling (h : Inv s) : Inv (leaveSpilling s c) := by
  unfold Machine.leaveSpilling
  split
  · exact h
  · exact h.updCore fun hc => hc

theorem Inv.endJoins (h : Inv s) {joins : List W64} {finfo : W64} : Inv (endJoins s a agents part id joins cause finfo) := by
  unfold Machine.endJoins
  extract_lets t
  have ht : Inv t := h.foldl fun _ _ hu => hu.countFault.updLaunch fun _ hl => hl
  exact ht.joinDecs

theorem Inv.terminate (h : Inv s) {finfo : W64} : Inv (terminate s c k cause finfo) := by
  unfold Machine.terminate
  extract_lets x t u v w
  have ht : Inv t := h.countFault.noteSave.acceptPending.flushTeam
  have hu : Inv u := by
    unfold u
    split
    · exact ht.endJoins
    · exact ht
  have hw : Inv w := hu.orphanRecords.skipHalted.freeContext.leaveSpilling
  split
  · exact hw
  · exact hw.markExited

/-! ### Traps and routines -/

theorem Inv.takeTrap (h : Inv s) {t : Trig} : Inv (takeTrap s c k t) := by
  unfold Machine.takeTrap
  extract_lets x
  split
  · exact h.terminate
  · split
    · exact h
    · split
      · exact h.terminate
      · exact h.setCtx (h.ctx c k)

theorem Inv.ctrlTrap (h : Inv s) {async : Bool} {epc faddr finfo : W64} {fmask : W32} :
    Inv (ctrlTrap s cause async epc faddr fmask finfo) := h.takeTrap

theorem Inv.trapHere (h : Inv s) : Inv (trapHere s x cause) := h.ctrlTrap

theorem Inv.faultHere (h : Inv s) {va : W64} {f : AFault} : Inv (faultHere s x va f) := h.ctrlTrap

theorem Inv.laneTrap (h : Inv s) {async skippable : Bool} {faddr finfo : W64} {fmask : Lanes} :
    Inv (laneTrap s c k g cause async skippable faddr fmask finfo) := h.updLaneSet.makeEligible.takeTrap

theorem Inv.enterRoutine (h : Inv s) {t : Trig} {m : Mode} {shadows chanStat : List (List W64)} :
    Inv (enterRoutine s c k t m shadows chanStat) := by
  unfold Machine.enterRoutine
  extract_lets x trussOf place fr u
  have hx : CtxOk x := h.ctx c k
  have hu : Inv u := h.updCore fun hc => hc.mapQueues
  obtain ⟨h1, h2, h3, -⟩ := hx
  exact hu.setCtx ⟨h1, h2, streamOk_routine _, fun f hf => by cases hf; exact h3⟩

theorem Inv.requeuePops (h : Inv s) : Inv (requeuePops s c k) := by
  refine h.foldl fun t r ht => ht.foldl fun u v hu => ?_
  split
  · split
    · exact hu
    · exact hu.updCore fun hc => hc.setQueues (by simpa using hc.queueCount)
  · exact hu

theorem Inv.resumeTrussGroup (h : Inv s) {f : Frozen} : Inv (resumeTrussGroup f c k s g) := by
  unfold Machine.resumeTrussGroup
  extract_lets ls t
  have ht : Inv t := h.updLaneSet
  split
  · exact ht.updLaneSet.updGroup
  · exact ht.updLaneSet.updGroup

theorem Inv.resumeTruss (h : Inv s) {f : Frozen} : Inv (resumeTruss s c k f) := h.foldl fun _ _ ht => ht.resumeTrussGroup

theorem Inv.clearScr (h : Inv s) {lines : List Nat} {f : Core → Core} (hf : ∀ co, CoreOk co → CoreOk (f co)) :
    Inv (clearScr s c lines f) := by
  unfold Machine.clearScr
  extract_lets t
  have ht : Inv t := by
    unfold t
    split <;> exact h
  exact ht.forgetLate.updCore (hf _)

theorem Inv.restoreCore (h : Inv s) {f : Frozen} : Inv (restoreCore s c x f) := h.clearScr fun _ hc => hc.clearLines

/-! ### Meanings -/

/-- An outcome keeps the invariant: its state, if it has one, meets it. -/
def OutOk : Out → Prop
  | .next t => Inv t
  | _ => True

theorem Inv.onCtx (h : Inv s) {f : Ctx → State} (hf : ∀ x, CtxOk x → Inv (f x)) : OutOk (onCtx s f) := by
  unfold Machine.onCtx
  split
  · exact hf _ (h.me ‹_›)
  · trivial

theorem Inv.reading (h : Inv s) {rs : List (BitVec 5)} {f : Ctx → State} (hf : ∀ x, CtxOk x → Inv (f x)) :
    OutOk (reading s rs f) := by
  refine h.onCtx fun x hx => ?_
  split
  · exact h.ctrlTrap
  · exact hf x hx

theorem Inv.readingM (h : Inv s) {rs : List (BitVec 5)} {ms : List (BitVec 4)} {f : Ctx → State} (hf : ∀ x, CtxOk x → Inv (f x)) :
    OutOk (readingM s rs ms f) := by
  refine h.reading fun x hx => ?_
  split
  · exact h.ctrlTrap
  · exact hf x hx

end

end Sys2Proof.Claims
end

