-- ==== Sys2Proof/Proofs/KeepsControl.lean ====
section
/-! The control stream keeps the invariant: results, branches and masks, accesses, descriptors and divergence, the copy engine,
fences, triggers and joins, context registers and EXIT (02 R47, R54, 03 R73, R83, 07 R184-R190, 08 R225-R229, 10 R272-R288). -/

namespace Sys2Proof.Claims

open Machine

/-! ### Streams -/

/-- A descriptor enters a block queue that is not full (02 R44). -/
theorem StreamOk.push {st : Stream} (h : StreamOk st) (hq : st.blockQ.length < 256) (d : Desc) : StreamOk (st.push d) := by
  obtain ⟨-, h2, h3, h4, h5⟩ := h
  refine ⟨?_, h2, h3, h4, h5⟩
  rw [Stream.push, List.length_append, List.length_singleton]
  omega

theorem StreamOk.setFmtDepth {st : Stream} (h : StreamOk st) {d : Nat} (hd : d ≤ 16) : StreamOk { st with fmtDepth := d } := by
  obtain ⟨h1, h2, h3, -, h5⟩ := h
  exact ⟨h1, h2, h3, hd, h5⟩

theorem StreamOk.setRecon {st : Stream} (h : StreamOk st) {ts : List Token} (ht : ts.length ≤ 16) (m : Mask) :
    StreamOk { st with recon := ts, active := m } := by
  obtain ⟨h1, h2, -, h4, h5⟩ := h
  exact ⟨h1, h2, ht, h4, h5⟩

theorem StreamOk.setReturnQ {st : Stream} (h : StreamOk st) {es : List RetEntry} (he : es.length ≤ 16) :
    StreamOk { st with returnQ := es } := by
  obtain ⟨h1, -, h3, h4, h5⟩ := h
  exact ⟨h1, he, h3, h4, h5⟩

theorem StreamOk.setActive {st : Stream} (h : StreamOk st) {m : Mask} : StreamOk { st with active := m } := h

theorem StreamOk.setRotb {st : Stream} (h : StreamOk st) {r : BitVec 6} : StreamOk { st with rotb := r } := h

theorem StreamOk.returnCount {st : Stream} (h : StreamOk st) : st.returnQ.length ≤ 16 := h.2.1

theorem StreamOk.reconCount {st : Stream} (h : StreamOk st) : st.recon.length ≤ 16 := h.2.2.1

theorem StreamOk.depth {st : Stream} (h : StreamOk st) : st.fmtDepth ≤ 16 := h.2.2.2.1

theorem StreamOk.maskCount {st : Stream} (h : StreamOk st) : st.masks.length = 16 := h.2.2.2.2

theorem blockQ_lt_of_not_full {x : Ctx} (h : ¬ queueFull x = true) : x.strm.blockQ.length < 256 := by
  simpa [queueFull] using h

/-- EMIT's flags leave at most 16 formats on the stack (02 R47). -/
theorem emitDepth_le {depth d : Nat} {push pop peek : Bool} (hd : depth ≤ 16) (h : emitDepth depth push pop peek = some d) :
    d ≤ 16 := by
  unfold emitDepth at h
  extract_lets d1 d2 at h
  have h1 : d1 ≤ 16 := by
    unfold d1
    split <;> omega
  split at h
  · cases h
  · split at h
    · cases h
    · rename_i hfull
      split at h
      · cases h
      · obtain rfl := Option.some.inj h
        unfold d2
        split
        · rename_i hpush
          have hne : d1 ≠ 16 := by simpa [hpush] using hfull
          omega
        · exact h1

section
variable {s : State} {t : Xfer} {c k ch n pa : Nat} {x : Ctx} {d a b : BitVec 5} {m : BitVec 4}

/-! ### Transfers (07 R184, R186) -/

theorem Inv.landByte (h : Inv s) {i : Nat} {places ds : List (Option (Option Nat × Nat))} {p : W64 × W64} :
    Inv (landByte s t i places ds p) := by
  unfold Machine.landByte
  split
  · extract_lets b u
    have hu : Inv u := by
      unfold u
      split
      · exact h.noteRead
      · exact h
    split
    · exact h
    · exact hu.performWrite
  · exact h

theorem Inv.landBytes (h : Inv s) {p : Nat → Option Nat × Nat → Bool} : Inv (landBytes s t p) := by
  refine h.foldl fun u b hu => ?_
  split
  · split
    · exact hu.landByte
    · exact hu
  · exact hu

theorem Inv.lineDone (h : Inv s) {l : Nat × Nat} : Inv (lineDone c ch s l) := by
  unfold Machine.lineDone
  split
  · exact h
  · extract_lets u
    have hu : Inv u := by
      unfold u
      split
      · exact h.updCore fun hc => hc.addPresence
      · exact h
    exact hu.wakeLines.updChan

theorem Inv.landLine (h : Inv s) {l : Nat × Nat} : Inv (landLine s c ch t l) := h.landBytes.lineDone

theorem Inv.completeTransfer (h : Inv s) : Inv (completeTransfer s c ch) := by
  unfold Machine.completeTransfer
  split
  · exact h
  · exact h.landBytes.finishTransfer

/-! ### Results, branches and masks -/

theorem Inv.aluRR (h : Inv s) {f : W64 → W64 → W64} : OutOk (aluRR s d a b f) := h.reading fun _ hx => h.setMe (hx.wr _ _ _)

theorem Inv.aluRI (h : Inv s) {f : W64 → W64} : OutOk (aluRI s d a f) := h.reading fun _ hx => h.setMe (hx.wr _ _ _)

theorem Inv.aluK (h : Inv s) {f : Ctx → W64} : OutOk (aluK s d f) := h.onCtx fun _ hx => h.setMe (hx.wr _ _ _)

theorem Inv.execNop (h : Inv s) : OutOk (execNop s) := h.onCtx fun _ hx => h.setMe hx

theorem Inv.execJal (h : Inv s) {o : BitVec 21} : OutOk (execJal d o s) := h.onCtx fun _ hx => h.setMe (hx.wr _ _ _)

theorem Inv.execJalr (h : Inv s) {i : BitVec 16} : OutOk (execJalr d a i s) := h.reading fun _ hx => h.setMe (hx.wr _ _ _)

theorem Inv.branch (h : Inv s) {o : BitVec 16} {cond : W64 → W64 → Bool} : OutOk (branch s a b o cond) :=
  h.reading fun _ hx => h.setMe (by split <;> exact hx)

theorem Inv.execCloop (h : Inv s) {o : BitVec 16} : OutOk (execCloop a o s) := by
  refine h.reading fun x hx => ?_
  extract_lets v w st y
  have hst : StreamOk st := hx.strm.setRotb
  have hy : CtxOk y := (hx.wr a v (x.taint a)).setStrm hst
  exact h.setMe (by split <;> exact hy)

theorem Inv.execBmask (h : Inv s) {o : BitVec 16} : OutOk (execBmask m o s) := by
  refine h.readingM fun x hx => ?_
  extract_lets v st y
  have hst : StreamOk st := hx.strm.setActive
  have hy : CtxOk y := hx.setStrm hst
  exact h.setMe (by split <;> exact hy)

theorem Inv.execRotb (h : Inv s) {i : BitVec 16} : OutOk (execRotb d a i s) := by
  refine h.reading fun x hx => ?_
  extract_lets v w st y
  have hst : StreamOk st := hx.strm.setRotb
  have hy : CtxOk y := (hx.wr d _ false).setStrm hst
  exact h.setMe hy

theorem Inv.maskOp (h : Inv s) {ms : List (BitVec 4)} {f : Ctx → Mask} : OutOk (maskOp s m ms f) :=
  h.readingM fun _ hx => h.setMe (hx.wrMask _ _)

theorem Inv.maskToS (h : Inv s) {f : Mask → W64} : OutOk (maskToS s d m f) := h.readingM fun _ hx => h.setMe (hx.wr _ _ _)

theorem Inv.execMwordW (h : Inv s) {w : BitVec 5} : OutOk (execMwordW m a w s) :=
  h.reading fun _ hx => h.setMe (hx.setStrm (hx.strm.setMasks (by rw [List.length_set]; exact hx.strm.maskCount) _))

/-! ### Accesses -/

theorem Inv.ctrlAccess (h : Inv s) (hx : CtxOk x) {kd : Kind} {va : W64} {atomic : Bool} {f : Nat → State} (hf : ∀ pa, Inv (f pa)) :
    Inv (ctrlAccess s x kd va n atomic f) := by
  unfold Machine.ctrlAccess
  split
  · exact h.faultHere
  · split
    · exact hf _
    · exact h.setMe hx

theorem Inv.poisonHere (h : Inv s) {va : W64} {p : Nat × Nat} : Inv (poisonHere s x va p) := h.ctrlTrap

theorem Inv.loadCtrl (h : Inv s) {sz : BitVec 3} {o : BitVec 13} {consume : Bool} : OutOk (loadCtrl d a sz o consume s) := by
  refine h.reading fun x hx => ?_
  extract_lets va n me
  refine h.ctrlAccess hx fun pa => ?_
  extract_lets t
  have ht : Inv t := h.seeFed.beforeHost
  split
  · exact ht.poisonHere
  · exact ht.loaded.setMe (hx.wr _ _ _)

theorem Inv.reloadCtrl (h : Inv s) : Inv (reloadCtrl s c k) := by
  unfold Machine.reloadCtrl
  extract_lets x me
  split
  · exact h
  · split
    · exact h
    · exact h.noteRead.setCtx ((h.ctx c k).wr _ _ _)

theorem Inv.execSt (h : Inv s) {sz : BitVec 3} {o : BitVec 13} : OutOk (execSt d a sz o s) :=
  h.reading fun _ hx => h.ctrlAccess hx fun _ => h.seeFed.queueStore.setMe hx

theorem Inv.amoCtrl (h : Inv s) {op : AmoOp} {w u : Bool} : OutOk (amoCtrl op d a b w u s) := by
  refine h.reading fun x hx => ?_
  extract_lets va n me low
  refine h.ctrlAccess hx fun pa => ?_
  split
  · exact h.faultHere
  · extract_lets t old u y
    have ht : Inv t := h.beforeAtomic.seeFed
    have hu : Inv u := ht.readLatest
    have hy : CtxOk y := hx.wr _ _ _
    split
    · exact ht.poisonHere
    · split
      · exact hu.performWrite.setMe hy
      · exact hu.setMe hy

/-! ### Descriptors and divergence -/

theorem Inv.waitIn (h : Inv s) (hx : CtxOk x) {i : Instr} : Inv (waitIn s x i) := h.setMe hx

theorem Inv.releaseBlock (h : Inv s) : Inv (releaseBlock s c k) := h.release

theorem Inv.execEmit (h : Inv s) {tr : BitVec 5} {push pop peek ret bar : Bool} :
    OutOk (execEmit a b tr m push pop peek ret bar s) := by
  refine h.readingM fun x hx => ?_
  extract_lets mk ds entry st0
  split
  · exact h.waitIn hx
  · rename_i hq
    split
    · exact h.trapHere
    · split
      · exact h.trapHere
      · rename_i hr
        split
        · exact h.trapHere
        · rename_i depth hd
          extract_lets st
          have hr' : (if ret then x.strm.returnQ ++ [entry] else x.strm.returnQ).length ≤ 16 := by
            split
            · rename_i hret
              have hroom : x.strm.returnQ.length < 16 := by simpa [hret] using hr
              rw [List.length_append, List.length_singleton]
              omega
            · exact hx.strm.returnCount
          have hst : StreamOk st :=
            ((hx.strm.push (blockQ_lt_of_not_full hq) ds).setFmtDepth (emitDepth_le hx.strm.depth hd)).setReturnQ hr'
          exact h.releaseBlock.setMe (hx.setStrm hst)

theorem Inv.acquireReturn (h : Inv s) : Inv (acquireReturn s c k n) := h.flushWhere.acquire.acquireReads

theorem Inv.execRpop (h : Inv s) : OutOk (execRpop m s) := by
  refine h.onCtx fun x hx => ?_
  split
  · exact h.trapHere
  · rename_i e rest hq
    split
    · split
      · exact h.ctrlTrap
      · have hrest : rest.length ≤ 16 := by
          have := hx.strm.returnCount
          rw [hq, List.length_cons] at this
          omega
        have hy : CtxOk ({ x with strm := { x.strm with returnQ := rest } } : Ctx) := hx.setStrm (hx.strm.setReturnQ hrest)
        exact (h.setMe (hy.wrMask m e.mask).step1).acquireReturn
    · exact h.waitIn hx

theorem Inv.execDivg (h : Inv s) : OutOk (execDivg m s) := by
  refine h.readingM fun x hx => ?_
  extract_lets st v active st'
  split
  · exact h.waitIn hx
  · rename_i hq
    split
    · exact h.trapHere
    · split
      · exact h.trapHere
      · rename_i hr hd
        have hd' : st.fmtDepth + 1 ≤ 16 := by
          have : st.fmtDepth ≤ 16 := hx.strm.depth
          omega
        have hst : StreamOk st' := hx.strm.setRecon (by rw [List.length_cons]; omega) _
        exact h.setMe (hx.setStrm ((hst.push (blockQ_lt_of_not_full hq) _).setFmtDepth hd'))

theorem Inv.execElseM (h : Inv s) : OutOk (execElseM s) := by
  refine h.onCtx fun x hx => ?_
  extract_lets st
  split
  · exact h.waitIn hx
  · rename_i hq
    split
    · exact h.trapHere
    · rename_i top rest hr
      split
      · exact h.ctrlTrap
      · split
        · exact h.trapHere
        · extract_lets st'
          have hn := hx.strm.reconCount
          rw [show x.strm.recon = top :: rest from hr] at hn
          have hst : StreamOk st' := hx.strm.setRecon (by simpa using hn) _
          exact h.setMe (hx.setStrm (hst.push (blockQ_lt_of_not_full hq) _))

theorem Inv.execRecon (h : Inv s) : OutOk (execRecon s) := by
  refine h.onCtx fun x hx => ?_
  extract_lets st
  split
  · exact h.waitIn hx
  · rename_i hq
    split
    · exact h.trapHere
    · rename_i top rest hr
      split
      · exact h.ctrlTrap
      · split
        · exact h.trapHere
        · extract_lets st'
          have hn := hx.strm.reconCount
          rw [show x.strm.recon = top :: rest from hr, List.length_cons] at hn
          have hst : StreamOk st' := hx.strm.setRecon (by omega) _
          have hd : st.fmtDepth - 1 ≤ 16 := by
            have : st.fmtDepth ≤ 16 := hx.strm.depth
            omega
          exact h.setMe (hx.setStrm ((hst.push (blockQ_lt_of_not_full hq) _).setFmtDepth hd))

theorem Inv.execRegroup (h : Inv s) {g : BitVec 8} : OutOk (execRegroup m g s) := by
  refine h.readingM fun x hx => ?_
  split
  · exact h.trapHere
  · split
    · exact h.trapHere
    · split
      · exact h.trapHere
      · split
        · exact h.waitIn hx
        · rename_i hq
          exact h.setMe (hx.setStrm (hx.strm.push (blockQ_lt_of_not_full hq) _))

/-! ### The copy engine -/

theorem Inv.mapCores (h : Inv s) {f : Core → Core} (hf : ∀ co, CoreOk co → CoreOk (f co)) :
    Inv { s with cores := s.cores.map f } := by
  refine InvParts.inv { h.parts with coreCount := by simpa using h.parts.coreCount, cores := fun co hco => ?_ }
  obtain ⟨b, hb, rfl⟩ := List.mem_map.mp hco
  exact hf b (h.parts.cores b hb)

theorem Inv.retryChan (h : Inv s) : Inv (retryChan s c ch) := by
  unfold Machine.retryChan
  split
  · extract_lets hear t
    have ht : Inv t := h.mapCores fun co hc => hc.mapCtxs fun x hx => by split <;> exact hx
    exact ht.updChan
  · exact h

theorem Inv.skipChan (h : Inv s) : Inv (skipChan s c ch) := by
  unfold Machine.skipChan
  split
  · exact h.finishTransfer
  · exact h

theorem Inv.wakeEngine (h : Inv s) : Inv (wakeEngine s c) :=
  h.updCore fun hc => hc.mapCtxs fun x hx => by split <;> exact hx

theorem Inv.writeState (h : Inv s) {v : W64} : Inv (writeState s c ch v) := by
  unfold Machine.writeState
  split
  · exact h.retryChan.wakeEngine
  · exact h.skipChan.wakeEngine
  · exact h

theorem Inv.execEwr (h : Inv s) {e : BitVec 8} : OutOk (execEwr a e s) := by
  refine h.reading fun x hx => ?_
  extract_lets ch r t
  have ht : Inv t := h.setMe hx
  split
  · exact ht.updChan
  · split
    · exact ht.writeState
    · exact ht

theorem Inv.execErd (h : Inv s) {e : BitVec 8} : OutOk (execErd d e s) := h.onCtx fun _ hx => h.setMe (hx.wr _ _ _)

theorem Inv.chanFault (h : Inv s) : Inv (chanFault s x ch) := h.ctrlTrap

theorem Inv.execEcommit (h : Inv s) {j : BitVec 3} : OutOk (execEcommit d j s) := by
  refine h.onCtx fun x hx => ?_
  extract_lets core ch y t0 lines t u v w z
  split
  · exact h.chanFault
  · split
    · exact h.waitIn hx
    · have hu : Inv u := h.release
      have hv : Inv v := by
        unfold v
        split
        · exact hu
        · exact hu.noteEvent
      have hw : Inv w := hv.foldl fun _ _ ht => ht.updCore fun hc => hc.addPresence
      have hz : Inv z := hw.updChan
      exact hz.updCtx fun hy => hy.wr d _ false

theorem Inv.acquireTransfers (h : Inv s) {want scope : Nat} : Inv (acquireTransfers s x c k ch want scope) := h.acquire.acquireReads.refresh

theorem Inv.execCwait (h : Inv s) {j scope : BitVec 3} : OutOk (execCwait a j scope s) := by
  refine h.reading fun x hx => ?_
  extract_lets y want
  split
  · exact h.trapHere
  · split
    · exact (h.setMe hx.step1).acquireTransfers
    · split
      · exact h.chanFault
      · exact h.waitIn hx

/-! ### Fences -/

theorem Inv.poolRelease (h : Inv s) {scope : BitVec 3} : Inv (poolRelease s scope) := by
  unfold Machine.poolRelease
  split
  · exact h.checkInAll
  · exact h

theorem Inv.flushCtrl (h : Inv s) {own sys : Bool} : Inv (flushCtrl s c k own sys) := h.flushWhere

theorem Inv.execFence (h : Inv s) {scope : BitVec 3} {order : BitVec 2} : OutOk (execFence scope order s) := by
  refine h.onCtx fun x hx => ?_
  split
  · exact h.waitIn hx
  · extract_lets c k reach t u v
    have ht : Inv t := h.flushCtrl
    have hu : Inv u := by
      unfold u
      split
      · exact ht.acquireFence
      · exact ht
    have hv : Inv v := by
      unfold v
      split
      · exact hu.releaseFence.poolRelease
      · exact hu
    exact hv.setMe hx

theorem Inv.execXfence (h : Inv s) {scope p q : BitVec 3} : OutOk (execXfence scope p q s) := by
  refine h.onCtx fun x hx => ?_
  split
  · exact h.waitIn hx
  · exact h.flushCtrl.orderPaths.poolRelease.setMe hx

theorem LaunchOk.fenceCode {l : Launch} (h : LaunchOk l) : LaunchOk (fenceCode s c k l) := fun v hv => h v hv

theorem Inv.execIfence (h : Inv s) : OutOk (execIfence s) := by
  refine h.onCtx fun x hx => ?_
  extract_lets c k t
  have ht : Inv t := h.flushTeam
  clear_value t
  split
  · exact Inv.setMe (ht.updLaunch fun _ hl => hl.fenceCode) hx
  · exact h.waitIn hx

/-! ### Triggers and joins -/

theorem Inv.releaseTrigger (h : Inv s) : Inv (releaseTrigger s x c k) := h.flushWhere.release

theorem Inv.execKtrig (h : Inv s) : OutOk (execKtrig s) := by
  refine h.onCtx fun x hx => ?_
  extract_lets t
  have ht : Inv t := h.releaseTrigger.updLaunch fun _ hl => hl
  split
  · exact h.trapHere
  · split
    · split
      · exact h.setMe hx
      · exact ht.setMe hx
    · exact h.waitIn hx

theorem Inv.execKwait (h : Inv s) : OutOk (execKwait s) := by
  refine h.onCtx fun x hx => ?_
  extract_lets from_ c t
  have ht : Inv t := (h.setMe hx.step1).acquire
  split
  · exact h.trapHere
  · split
    · exact ht.refresh
    · exact h.waitIn hx

theorem Inv.acquireJoins (h : Inv s) : Inv (acquireJoins s c k pa) := h.noteRead.acquire.refresh

theorem Inv.execJwait (h : Inv s) {i : BitVec 16} : OutOk (execJwait a i s) := by
  refine h.reading fun x hx => ?_
  extract_lets va me
  split
  · exact h.trapHere
  · split
    · exact h.faultHere
    · split
      · exact h.ctrlTrap
      · split
        · exact h.setMe hx
        · split
          · exact h.poisonHere
          · split
            · exact (h.setMe hx.step1).acquireJoins
            · exact h.waitIn hx

/-! ### Context registers, traps and EXIT -/

theorem Inv.readRecord (h : Inv s) (hx : CtxOk x) : Inv (readRecord s x d) := h.setMe (hx.wr d _ false)

theorem Inv.execCrd (h : Inv s) {e : BitVec 8} : OutOk (execCrd d e s) := by
  refine h.onCtx fun x hx => ?_
  split
  · exact h.trapHere
  · extract_lets out
    have ho : ∀ v, Inv (out v) := fun v => h.setMe (hx.wr d v false)
    split
    case h_10 => exact h.readRecord hx
    all_goals exact ho _

theorem Inv.execFrdataRead (h : Inv s) : OutOk (execFrdataRead d s) := by
  refine h.onCtx fun x hx => ?_
  split
  · exact h.trapHere
  · exact h.readRecord hx

theorem Inv.execCwr (h : Inv s) {e : BitVec 8} : OutOk (execCwr a e s) := by
  refine h.reading fun x hx => ?_
  extract_lets v
  split
  · exact h.trapHere
  · split
    · exact h.setMe hx
    · exact h.setMe hx
    · exact h.setMe hx
    · split
      · exact h.setMe hx
      · exact h.trapHere

theorem Inv.execTrap (h : Inv s) {j : BitVec 6} : OutOk (execTrap j s) := h.onCtx fun _ _ => h.ctrlTrap

theorem Inv.execBrk (h : Inv s) : OutOk (execBrk s) := h.onCtx fun _ _ => h.ctrlTrap

theorem Inv.execCillop (h : Inv s) {w : BitVec 32} : OutOk (execCillop w s) := h.onCtx fun _ _ => h.trapHere

theorem Inv.execCresfield (h : Inv s) {w : BitVec 32} : OutOk (execCresfield w s) := h.onCtx fun _ _ => h.trapHere

/-- A launch that keeps one more context in order. -/
theorem LaunchOk.save {l : Launch} (h : LaunchOk l) {v : SavedTeam} (hv : CtxOk v.body) :
    LaunchOk { l with saved := l.saved ++ [v] } := fun w hw => by
  rcases List.mem_append.mp hw with hw | hw
  · exact h w hw
  · rw [List.mem_singleton.mp hw]
    exact hv

theorem Inv.saveExit (h : Inv s) (hx : CtxOk x) : Inv (saveExit s c k x) := (h.updLaunch fun _ hl => hl.save hx).freeContext

theorem Inv.exitTeam (h : Inv s) : Inv (exitTeam s c k x) := by
  unfold Machine.exitTeam
  extract_lets t u v w
  have ht : Inv t := h.flushTeam
  have hu : Inv u := by
    unfold u
    split
    · exact ht.joinDecs
    · exact ht.release
  have hv : Inv v := hu.updCore fun hc => hc.formPartials
  have hw : Inv w := hv.orphanRecords.freeContext
  split
  · exact hw
  · exact hw.markExited

theorem Inv.execExit (h : Inv s) : OutOk (execExit s) := by
  refine h.onCtx fun x hx => ?_
  extract_lets c k t
  have ht : Inv t := h.skipHalted
  clear_value t
  split
  · split
    · exact h.saveExit hx
    · exact h.waitIn hx
  · split
    · split
      · exact ht.updCtx fun hy => hy
      · exact ht.exitTeam
    · exact h.waitIn hx
  · exact h.terminate

end

end Sys2Proof.Claims
end

