-- ==== Sys2Proof/Proofs/KeepsLane.lean ====
section
/-! The issue of lane words keeps the invariant: truss mode, descriptors and their release, run boundaries, the outcome of a word,
arbitration, and the return from a routine (02 R49-R69, 04 R121, 06 R148-R152, 10 R282-R294). -/

namespace Sys2Proof.Claims

open Machine

/-! ### Streams -/

theorem dropDone_length_le (groups : List Group) (q : List Desc) : (dropDone groups q).length ≤ q.length := by
  induction q with
  | nil => exact Nat.le_refl _
  | cons d r ih =>
    rw [dropDone]
    split
    · exact ih.trans (Nat.le_succ _)
    · exact Nat.le_refl _

theorem StreamOk.setBlockQ {st : Stream} (h : StreamOk st) {q : List Desc} (hq : q.length ≤ 256) : StreamOk { st with blockQ := q } := by
  obtain ⟨-, h2, h3, h4, h5⟩ := h
  exact ⟨hq, h2, h3, h4, h5⟩

theorem StreamOk.blockCount {st : Stream} (h : StreamOk st) : st.blockQ.length ≤ 256 := h.1

theorem CtxOk.retire {x : Ctx} (h : CtxOk x) : CtxOk x.retire :=
  h.setStrm (h.strm.setBlockQ ((dropDone_length_le _ _).trans h.strm.blockCount))

theorem CtxOk.complete {x : Ctx} (h : CtxOk x) {g : Nat} : CtxOk (x.complete g) := CtxOk.retire (h.setGroup g _)

theorem CtxOk.deliver {x : Ctx} (h : CtxOk x) {seq : W32} {g : Nat} {w : W32} {p : Option (Nat × W64)} :
    CtxOk (x.deliver seq g w p) :=
  h.setStrm (h.strm.setReturnQ (by rw [List.length_map]; exact h.strm.returnCount))

/-! ### Issues and entries -/

/-- The state of an issue, if it has one, meets the invariant. -/
def IssueOk : Issue → Prop
  | .hold t _ _ => Inv t
  | .go t _ _ => Inv t
  | _ => True

/-- A word's effect keeps the invariant. -/
def EntryOk (en : Entry) : Prop := ∀ e : Env, Inv e.s → IssueOk (en.effect e)

theorem applyHazards_state (e : Env) (w : LaneWord) (en : Entry) (s : State) (g : Group) (wr : List Pend) :
    (applyHazards e w en s g wr).1 = s := by
  unfold applyHazards
  split <;> rfl

theorem IssueOk.decide4to7 {e : Env} (h : Inv e.s) {w : LaneWord} {en : Entry} (hen : EntryOk en) : IssueOk (decide4to7 e w en) := by
  unfold Machine.decide4to7
  extract_lets trap e' seen
  have hi : IssueOk (en.effect e') := hen e' h
  clear_value e'
  split
  · trivial
  · split
    · trivial
    · split
      · trivial
      · cases he : en.effect e' with
        | trap => trivial
        | suspend => trivial
        | hold t g why =>
          rw [he] at hi
          dsimp only
          split
          · trivial
          · exact hi
        | go t g wr =>
          rw [he] at hi
          dsimp only
          split
          · trivial
          · change Inv (applyHazards e' w en t g wr).1
            rw [applyHazards_state]
            exact hi

section
variable {s : State} {c k g n ls : Nat} {d : Desc} {x : Ctx} {w : LaneWord}

/-! ### Truss mode -/

theorem Inv.enterTruss (h : Inv s) : Inv (enterTruss s c k g) := by
  unfold Machine.enterTruss
  extract_lets ls t
  have ht : Inv t := by
    unfold t
    split
    · exact h
    · exact h.updLaneSet
  clear_value t
  split
  · exact h.updLaneSet
  · split
    · exact h
    · exact ht.updGroup

theorem Inv.exitTruss (h : Inv s) : Inv (exitTruss s c k g) := h.updGroup.leaveTruss

/-! ### Descriptors -/

theorem Inv.releaseReturn (h : Inv s) {seq : W32} : Inv (releaseReturn s c k g seq) := by
  unfold Machine.releaseReturn
  split
  · exact h
  · split
    · exact h
    · exact h.release

theorem Inv.deliverWord (h : Inv s) {seq v : W32} {p : Option (Nat × W64)} : Inv (deliverWord s c k g seq v p) :=
  h.releaseReturn.updCtx fun hx => hx.deliver

theorem Inv.completeDesc (h : Inv s) : Inv (completeDesc s c k g d) := by
  have ht : Inv (if d.ret then Machine.deliverWord s c k g d.seq 0 none else s) := by
    split
    · exact h.deliverWord
    · exact h
  exact ht.updCtx fun hx => hx.complete

theorem Inv.releaseBarrier (h : Inv s) : Inv (releaseBarrier s c k d) := by
  unfold Machine.releaseBarrier
  split
  · exact h
  · exact h.flushWhere.release

theorem Inv.followFences (h : Inv s) : Inv (followFences s c k g d) := h

theorem Inv.acquireStart (h : Inv s) : Inv (acquireStart s c k g d) :=
  h.flushWhere.releaseBarrier.followFences.acquireWhere.acquireWhere.acquireWhere.acquireWhere

theorem Inv.startDesc (h : Inv s) : Inv (startDesc s c k g d) := by
  unfold Machine.startDesc
  extract_lets t x act r0 r1 r
  have ht : Inv t := h.acquireStart
  clear_value t
  have hx : CtxOk x := ht.ctx c k
  split
  · refine Inv.updCtx ?_ fun hy => CtxOk.retire (hy.setGroup g _)
    split
    · exact ht.deliverWord
    · exact ht
  · exact (ht.setCtx (hx.setGroup g _)).makeEligible

/-! ### Run boundaries -/

theorem Inv.raiseAsync (h : Inv s) {f : AsyncFault} : Inv (raiseAsync s c k f) := by
  unfold Machine.raiseAsync
  extract_lets x
  have hx : CtxOk x := h.ctx c k
  split
  · exact h
  · split
    · exact h.setCtx hx
    · exact h.takeTrap

theorem Inv.startVisible (h : Inv s) : Inv (startVisible s c k g n) := by
  induction n generalizing s with
  | zero => exact h
  | succ n ih =>
    rw [Machine.startVisible]
    split
    · exact ih h.startDesc
    · exact h

theorem Inv.coverSpawns (h : Inv s) : Inv (coverSpawns s c k g) := h.acquireWhere

theorem Inv.raisePoison (h : Inv s) {p : Option (Nat × W64)} : Inv (raisePoison s c k g p) := by
  unfold Machine.raisePoison
  split
  · exact h.raiseAsync
  · exact h

theorem Inv.settle (h : Inv s) : Inv (settle s c k g) := by
  unfold Machine.settle
  extract_lets r faults poison t r1 r' waits st p u v
  have ht : Inv t := by
    unfold t
    split
    · exact h.coverSpawns
    · exact h
  have hu : Inv u := ht.setGroup
  clear_value u
  have hv : Inv v := by
    unfold v
    split
    · exact hu
    · split
      · exact hu.makeEligible
      · exact hu.startVisible
  split
  · exact h.updGroup
  · exact (hv.foldl fun _ _ hw => hw.raiseAsync).raisePoison

theorem Inv.endRun (h : Inv s) {hd : Hdr} {m : Truss} : Inv (endRun s c k g hd m) := by
  unfold Machine.endRun
  extract_lets x r0 marker poison p0 r t u v w
  have ht : Inv t := h.setCtx ((h.ctx c k).setGroup g _)
  clear_value t
  have hu : Inv u := by
    unfold u
    split
    · exact ht
    · split
      · split
        · exact ht.setGroup
        · exact ht.completeDesc
      · exact ht
  have hv : Inv v := hu.updLaneSet
  clear_value v
  have hw : Inv w := by
    unfold w
    split
    · exact hv
    · exact hv.enterTruss
    · split
      · exact hv
      · split
        · exact hv.updGroup
        · exact hv.exitTruss
  exact hw.settle.raisePoison

/-! ### The outcome of a word -/

theorem Inv.suspendGroup (h : Inv s) {why : Susp} : Inv (suspendGroup s c k g why) := h.updLaneSet.updGroup

theorem Inv.finishWord {e : Env} (h : Inv e.s) {hd : Hdr} {m : Truss} {r : Issue} (hr : IssueOk r) :
    Inv (finishWord e hd n m r) := by
  unfold Machine.finishWord
  cases r with
  | trap => exact h.laneTrap
  | suspend => exact h.suspendGroup
  | hold t g why => exact (Inv.setGroup hr).suspendGroup
  | go t g wr =>
    have ht : ∀ r, Inv (t.setGroup e.core e.k e.gi r) := fun _ => Inv.setGroup hr
    dsimp only
    split
    · exact (ht _).endRun
    · exact ht _

theorem Inv.grp (h : Inv s) {r : Group} (_ : s.grp? = some (x, r)) : Inv (Env.of s x r).s := h

theorem Inv.onGroup (h : Inv s) {f : Env → State} (hf : ∀ e : Env, Inv e.s → Inv (f e)) : OutOk (onGroup s f) := by
  unfold Machine.onGroup
  split
  · exact hf (Env.of s _ _) h
  · trivial

theorem Inv.laneWord (h : Inv s) {mustEnd : Bool} {m : Truss} {en : Env → Entry} (hen : ∀ e : Env, Inv e.s → EntryOk (en e)) :
    OutOk (laneWord s w mustEnd m en) := by
  refine h.onGroup fun e he => he.finishWord ?_
  split
  · trivial
  · exact IssueOk.decide4to7 he (hen e he)

theorem Inv.word (h : Inv s) {en : Env → Entry} (hen : ∀ e : Env, Inv e.s → EntryOk (en e)) : OutOk (word s w en) := h.laneWord hen

theorem Inv.doubleWord (h : Inv s) {y : ContWord} {en : Env → Entry} (hen : ∀ e : Env, Inv e.s → EntryOk (en e)) :
    OutOk (doubleWord s w y en) := by
  refine h.onGroup fun e he => he.finishWord ?_
  split
  · trivial
  · split
    · trivial
    · exact IssueOk.decide4to7 he (hen e he)

/-! ### Arbitration -/

theorem Inv.unpark (h : Inv s) : Inv (unpark s c k g) := by
  unfold Machine.unpark
  split
  · exact h.settle
  · exact h

theorem Inv.arbitrate (h : Inv s) : Inv (arbitrate s c ls) := by
  unfold Machine.arbitrate
  extract_lets cs
  split
  · exact h
  · extract_lets t u
    have ht : Inv t := h.foldl fun v a hv => by
      split
      · exact hv.updGroup
      · exact hv
    have hu : Inv u := ht.updGroup
    clear_value u
    split
    · exact hu.settle
    · exact hu.updLaneSet

theorem Inv.laneFetchFault {e : Env} (h : Inv e.s) {f : AFault} {off : Nat} : Inv (laneFetchFault e f off) := h.laneTrap

theorem Inv.setCur (h : Inv s) {cur : Cur} : Inv { s with cur := cur } := h

theorem Inv.passOver (h : Inv s) : Inv (passOver s c k g) := by
  unfold Machine.passOver
  extract_lets cur t x e
  have he : Inv e.s := h
  clear_value e
  exact (he.finishWord (r := .go e.s e.g []) he).setCur

/-! ### The return from a routine -/

theorem Inv.takeHeld (h : Inv s) : Inv (takeHeld s c k) := by
  unfold Machine.takeHeld
  extract_lets x
  have hx : CtxOk x := h.ctx c k
  clear_value x
  split
  · exact h
  · split
    · exact h.setCtx hx
    · split
      · exact h
      · refine Inv.raiseAsync (h.setCtx ?_)
        exact hx

theorem Inv.finishEret (h : Inv s) {f : Frozen} (hf : StreamOk f.stream) : Inv (finishEret s c k f) := by
  unfold Machine.finishEret
  extract_lets x restoring keep base back t u v w y z
  obtain ⟨h1, h2, -, -⟩ : CtxOk x := h.ctx c k
  have ht : Inv t := by
    unfold t
    split
    · exact h.restoreCore
    · exact h
  have hu : Inv u := ht.setCtx ⟨h1, h2, hf, fun _ hn => by cases hn⟩
  have hv : Inv v := hu.setStamp
  have hw : Inv w := hv.requeuePops
  clear_value w
  have hy : Inv y := by
    unfold y
    split
    · exact hw.resumeTruss
    · exact hw
  clear_value y
  have hz : Inv z := by
    unfold z
    split
    · exact hy.passOver
    · exact hy
  exact hz.takeHeld

theorem Inv.execEret (h : Inv s) : OutOk (execEret s) := by
  refine h.onCtx fun x hx => ?_
  split
  · exact h.trapHere
  · rename_i f hf
    split
    · exact h.finishEret (hx.frozen hf)
    · exact h.waitIn hx

end

end Sys2Proof.Claims
end

