-- ==== Sys2Proof/Proofs/KeepsLaneWords.lean ====
section
/-! Each lane word's effect keeps the invariant. Words on registers alone leave the state as it is; the others change it through the
operations on storage, order and agents (chapters 12-15). -/

namespace Sys2Proof.Claims

open Machine

section
variable {s : State} {w : LaneWord} {y : ContWord} {e : Env}

/-! ### Elementwise words -/

theorem IssueOk.elementwise (h : Inv e.s) {sh : Shape} {f : Env → Inp → Res} : IssueOk (elementwise w sh f e) := by
  unfold Machine.elementwise
  extract_lets m rows raised
  split
  · trivial
  · exact h

theorem entryOk_element {form : Form} {sh : Shape} {f : Env → Inp → Res} : EntryOk (elementEntry w form sh f e) :=
  fun _ h => IssueOk.elementwise h

theorem entryOk_int (o : IntOp) : EntryOk (intEntry o w e) := entryOk_element

theorem entryOk_un (o : UnOp) : EntryOk (unEntry o w e) := entryOk_element

theorem entryOk_fp (o : FpOp) : EntryOk (fpEntry o w e) := entryOk_element

theorem entryOk_sign {neg : Bool} : EntryOk (signEntry neg w e) := entryOk_element

theorem entryOk_trans (t : Trans) : EntryOk (transEntry t w e) := entryOk_element

theorem entryOk_fcvt : EntryOk (fcvtEntry w e) := entryOk_element

theorem entryOk_lcvt : EntryOk (lcvtEntry w e) := fun e' h => by
  unfold lcvtEntry
  extract_lets src dst pair en
  have hen : EntryOk en := entryOk_element
  clear_value en
  exact hen e' h

theorem entryOk_acvt : EntryOk (acvtEntry w e) := fun e' h => by
  unfold acvtEntry
  extract_lets ty sh
  dsimp only
  split
  · trivial
  · exact IssueOk.elementwise h

theorem entryOk_cmp {tys md : List Nat} {traps : Bool} {f : Nat → Nat → Bool × W32} : EntryOk (cmpEntry w tys md traps f e) :=
  fun e' h => by
    unfold cmpEntry
    extract_lets sh
    dsimp only
    split
    · trivial
    · exact h

/-! ### Group words -/

theorem IssueOk.underMask (h : Inv e.s) {wr : List Pend} : IssueOk (underMask e wr) := h

theorem entryOk_g (o : GOp) : EntryOk (gEntry o w e) := fun _ h => IssueOk.underMask h

theorem Inv.execExmset (h : Inv s) : OutOk (execExmset w s) := h.word fun _ _ _ he => he

theorem Inv.execPret (h : Inv s) : OutOk (execPret w s) := h.word fun _ _ e he => by
  dsimp only
  split
  · exact he
  · exact he.deliverWord

theorem Inv.execVote (h : Inv s) : OutOk (execVote w s) := h.word fun _ _ _ he => IssueOk.underMask he

theorem Inv.execVshfl (h : Inv s) : OutOk (execVshfl w s) := h.word fun _ _ _ he => he

theorem Inv.execVbcast (h : Inv s) : OutOk (execVbcast w s) := h.word fun _ _ _ he => he

theorem entryOk_red {scan : Bool} : EntryOk (redEntry w scan e) := fun e' h => by
  unfold redEntry
  extract_lets op ty wide src
  dsimp only
  split
  · exact h
  · split
    · trivial
    · exact h

theorem Inv.execLaneid (h : Inv s) : OutOk (execLaneid w s) := h.word fun _ _ _ he => he

theorem Inv.execSfmt (h : Inv s) : OutOk (execSfmt w s) := h.word fun _ _ _ he => IssueOk.underMask he

theorem Inv.execTshape (h : Inv s) : OutOk (execTshape w s) := h.word fun _ _ e he => by
  exact iteInduction (fun _ => trivial) fun _ => IssueOk.underMask he

theorem Inv.execXpat (h : Inv s) : OutOk (execXpat w s) := h.word fun _ _ _ he => IssueOk.underMask he

theorem Inv.execSrd (h : Inv s) : OutOk (execSrd w s) := h.word fun _ _ _ he => IssueOk.underMask he

theorem Inv.execSwr (h : Inv s) : OutOk (execSwr w s) := h.word fun _ _ _ he => IssueOk.underMask he

theorem Inv.execVnop (h : Inv s) : OutOk (execVnop w s) := h.word fun _ _ _ he => he

theorem Inv.execVbrk (h : Inv s) : OutOk (execVbrk w s) := h.word fun _ _ _ _ => trivial

theorem Inv.execVtrap (h : Inv s) : OutOk (execVtrap w s) := h.word fun _ _ _ _ => trivial

theorem Inv.execIllop (h : Inv s) {b : LaneBits} : OutOk (execIllop b s) := h.onGroup fun e he => by
  extract_lets hd
  have htrap (c : Nat) : IssueOk (trapWord e c) := trivial
  split
  · split
    · exact he.finishWord (htrap _)
    · exact he.laneFetchFault
  · exact he.finishWord (htrap _)

/-! ### Accesses to memory -/

theorem IssueOk.accessed {i : Issue} (h : IssueOk i) : IssueOk (e.accessed i) := by
  unfold Env.accessed
  split
  · split
    · exact h
    · exact Inv.noteEvent h
  · exact h

theorem Inv.fed (h : Inv e.s) {addr : List Opd} : Inv (e.fed addr) := h.seeFed

theorem Inv.laneReading (h : Inv e.s) {addr : List Opd} {pas : List Nat} : Inv (e.reading addr pas) :=
  h.fed.foldl fun _ _ ht => ht.beforeHost

theorem IssueOk.laneFault {α : Type} {cs : List (Check α)} {i : Issue} (h : laneFault cs = some i) : IssueOk i := by
  unfold Machine.laneFault at h
  dsimp only at h
  split at h
  · contradiction
  · obtain rfl := Option.some.inj h
    trivial

/-- A wild access checks no lane, and the others end in the fault of a lane: either way a fault found is a trap. -/
theorem IssueOk.laneFault_unless {α : Type} {cs : List (Check α)} {wild : Bool} {i : Issue}
    (h : (if wild then none else Machine.laneFault cs) = some i) : IssueOk i := by
  split at h
  · cases h
  · exact IssueOk.laneFault h

theorem IssueOk.memAccess {addr : List Opd} {cs : List (Check (W64 × Nat))} {f : List (Nat × W64 × Nat) → Issue}
    (hf : ∀ as_, IssueOk (f as_)) : IssueOk (memAccess e addr cs f) := by
  unfold Machine.memAccess
  split
  · rename_i hi
    exact IssueOk.laneFault_unless hi
  · split
    · exact IssueOk.accessed (hf _)
    · trivial

theorem entryOk_load {consume : Bool} : EntryOk (loadEntry consume w e) := fun e' h => by
  unfold loadEntry
  extract_lets ty wide n src
  dsimp only
  split
  · exact h
  · exact IssueOk.memAccess fun as_ => h.laneReading.loaded

theorem Inv.execVst (h : Inv s) : OutOk (execVst w s) := by
  unfold Machine.execVst
  extract_lets ty wide n addr src
  refine h.word fun _ _ e he => ?_
  dsimp only
  split
  · exact he
  · exact IssueOk.memAccess fun as_ => he.fed.foldl fun _ _ ht => ht.queueStore

theorem Inv.execGld (h : Inv s) : OutOk (execGld w s) := by
  unfold Machine.execGld
  extract_lets ty wide n src
  refine h.word fun _ _ e he => ?_
  dsimp only
  split
  · exact he
  · split
    · exact he
    · split
      · trivial
      · split
        · trivial
        · exact IssueOk.accessed he.laneReading.loaded

/-! ### Atomics -/

theorem Inv.atomicAt (h : Inv s) {o : Agent} {order ty : Nat} {op : BitVec 3} {l : RemLane} : Inv (atomicAt s o order op ty l).1 := by
  unfold Machine.atomicAt
  extract_lets at_ as_ n pa old was t
  have ht : Inv t := h.readLatest
  clear_value t
  split
  · exact ht
  · exact ht.performWrite

theorem Inv.execVatom (h : Inv s) : OutOk (execVatom w s) := by
  unfold Machine.execVatom
  extract_lets ty wide n src
  refine h.word fun _ _ e he => ?_
  dsimp only
  split
  · exact he
  · exact IssueOk.memAccess fun as_ => he.fed.foldl fun _ _ ht => ht.beforeAtomic

/-! ### Scratchpad -/

theorem IssueOk.haltTrap {ch : Nat × Nat} : IssueOk (haltTrap e ch) := trivial

theorem IssueOk.scrAccess {addr : List Opd} {cs : List (Check ScrBytes)} {f : List (Nat × ScrBytes) → Issue}
    (hf : ∀ as_, IssueOk (f as_)) : IssueOk (scrAccess e addr cs f) := by
  unfold Machine.scrAccess
  split
  · rename_i hi
    exact IssueOk.laneFault_unless hi
  · extract_lets as_
    split
    · exact IssueOk.accessed (hf _)
    · split
      · exact IssueOk.haltTrap
      · trivial

theorem IssueOk.scrLoad (h : Inv e.s) {d : BitVec 8} {wide : Bool} {src : List Opd} {as_ : List (Nat × ScrBytes)} {op : RemOp}
    {shift : Nat → Nat} {value : Nat → List Byte → Nat} : IssueOk (scrLoad e d wide src as_ op shift value) := by
  unfold Machine.scrLoad
  split
  · trivial
  · extract_lets here there own e' vals t mp g p r remote
    have he : Inv e'.s := h.arrive
    have ht : Inv t := he.loaded
    clear_value t
    split
    · exact ht
    · exact ht

theorem entryOk_vlds : EntryOk (vldsEntry w e) := fun e' h => by
  unfold vldsEntry
  extract_lets ty wide n src
  dsimp only
  split
  · exact h
  · exact IssueOk.scrAccess fun as_ => IssueOk.scrLoad h.fed

theorem entryOk_vsts : EntryOk (vstsEntry w e) := fun e' h => by
  unfold vstsEntry
  extract_lets ty wide n addr src
  dsimp only
  split
  · exact h
  · exact IssueOk.scrAccess fun as_ => h.fed.foldl fun _ _ ht => ht.queueStore

theorem Inv.execVldx (h : Inv s) : OutOk (execVldx w s) := by
  unfold Machine.execVldx
  extract_lets src
  refine h.word fun _ _ e he => ?_
  dsimp only
  split
  · trivial
  · split
    · exact he
    · exact IssueOk.scrAccess fun as_ => IssueOk.scrLoad he.fed

theorem Inv.execVatoms (h : Inv s) : OutOk (execVatoms w s) := by
  unfold Machine.execVatoms
  extract_lets src
  refine h.word fun _ _ e he => ?_
  dsimp only
  split
  · exact he
  · exact IssueOk.scrAccess fun as_ => he.fed.flushAgent.arrive

/-! ### Fences, queues and spawning -/

theorem Inv.execVfence (h : Inv s) : OutOk (execVfence w s) := h.laneWord fun _ _ _ he => he

theorem Inv.execVxfence (h : Inv s) : OutOk (execVxfence w s) := h.laneWord fun _ _ _ he => he

theorem Inv.execQpop (h : Inv s) : OutOk (execQpop w s) := h.word fun _ _ e he => by
  dsimp only
  split
  · trivial
  · split
    · exact he
    · split
      · exact he
      · refine Inv.updCore he fun hc => hc.setQueues ?_
        rw [modifyAt_length]
        exact hc.queueCount

theorem Inv.execQpush (h : Inv s) : OutOk (execQpush w s) := h.word fun _ _ e he => by
  dsimp only
  split
  · split
    · exact he
    · trivial
  · exact he

theorem IssueOk.spawnPlace (h : Inv e.s) {rs : List SpawnRec} : IssueOk (spawnPlace e rs) := by
  unfold Machine.spawnPlace
  extract_lets src t g
  have ht : Inv t := h
  clear_value t
  split
  · exact ht
  · split
    · exact h
    · extract_lets used
      split
      · trivial
      · split
        · trivial
        · refine Inv.updCore ht fun hc => ?_
          exact hc

theorem Inv.execSpawn (h : Inv s) : OutOk (execSpawn w s) := by
  unfold Machine.execSpawn
  extract_lets k odd
  refine h.word fun _ _ e he => ?_
  dsimp -zeta only
  extract_lets img bad
  split
  · trivial
  · split
    · trivial
    · split
      · trivial
      · split
        · exact he
        · split
          · trivial
          · split
            · split
              · exact he
              · trivial
            · split
              · trivial
              · exact IssueOk.spawnPlace he

theorem Inv.execSpflush (h : Inv s) : OutOk (execSpflush w s) := h.word fun _ _ e he => by
  dsimp only
  split
  · exact he
  · exact he.updCore fun hc => hc.formPartials

/-! ### Truss words -/

theorem Inv.execSunf (h : Inv s) : OutOk (execSunf w y s) := h.doubleWord fun _ _ e he => by
  dsimp -zeta only
  extract_lets bad val
  split
  · trivial
  · extract_lets u
    split
    · trivial
    · split
      · exact he
      · split
        · trivial
        · split
          · trivial
          · exact he

theorem Inv.execMloop (h : Inv s) : OutOk (execMloop w y s) := by
  unfold Machine.execMloop
  extract_lets unf ia ib
  refine h.doubleWord fun _ _ e he => ?_
  dsimp only
  split
  · trivial
  · split
    · trivial
    · split
      · trivial
      · exact he

theorem Inv.execMwait (h : Inv s) : OutOk (execMwait w s) := h.word fun _ _ e he => by
  dsimp only
  split
  · split
    · exact IssueOk.haltTrap
    · exact he
  · exact he

theorem Inv.execMmodeT (h : Inv s) : OutOk (execMmodeT w s) := h.laneWord fun _ _ _ he => he

theorem Inv.execMmodeV (h : Inv s) : OutOk (execMmodeV w s) := h.laneWord fun _ _ e he => by
  dsimp only
  split
  · split
    · exact IssueOk.haltTrap
    · exact he
  · exact he

theorem Inv.execMzero (h : Inv s) : OutOk (execMzero w s) := h.word fun _ _ e he => by
  dsimp only
  split
  · trivial
  · exact he

/-! ### Paired words -/

theorem entryOk_narrow {opn : Nat} {en : Env → Entry} (h : narrowEntry opn w = some en) : EntryOk (en e) := by
  unfold narrowEntry at h
  split at h <;> cases h <;>
    simp only [entryOk_int, entryOk_un, entryOk_fp, entryOk_sign, entryOk_g, entryOk_vlds, entryOk_vsts]

theorem IssueOk.issuePair (h : Inv e.s) {w1 w2 : LaneWord} {en1 en2 : Entry} (h1 : EntryOk en1) (h2 : EntryOk en2) :
    IssueOk (issuePair e w1 w2 en1 en2) := by
  unfold Machine.issuePair
  have hi : IssueOk (Machine.decide4to7 e w1 en1) := IssueOk.decide4to7 h h1
  cases hd : Machine.decide4to7 e w1 en1 with
  | trap => trivial
  | suspend => trivial
  | hold t g why => rwa [hd] at hi
  | go t g wr =>
    rw [hd] at hi
    dsimp -zeta only
    extract_lets grp pos e2
    have hj : IssueOk (Machine.decide4to7 e2 w2 en2) := IssueOk.decide4to7 (e := e2) hi h2
    split
    · rename_i heq
      rwa [heq] at hj
    · exact hj

theorem Inv.execPaired (h : Inv s) {p : PairWord} : OutOk (execPaired p s) := by
  unfold Machine.execPaired
  extract_lets w1 w2
  refine h.onGroup fun e he => he.finishWord ?_
  split
  · trivial
  · split
    · rename_i h1 h2
      split
      · trivial
      · split
        · trivial
        · exact IssueOk.issuePair he (entryOk_narrow h1) (entryOk_narrow h2)
    · trivial

end

end Sys2Proof.Claims
end

