-- ==== Sys2Proof/Proofs/KeepsLaneEvents.lean ====
section
/-! The part's own steps that move groups on keep the invariant (02 R49-R69, 03 R84, R105, R106, 06 R160, R161, 07 R183, 08 R222). -/

namespace Sys2Proof.Claims

open Machine

/-! ### Descriptors -/

@[simp] theorem showNext_length (g : Nat) (q : List Desc) : (Machine.showNext g q).length = q.length := by
  induction q with
  | nil => rfl
  | cons d r ih =>
    rw [Machine.showNext]
    split
    · simp [ih]
    · rfl

theorem CtxOk.showNext {x : Ctx} (h : CtxOk x) {g : Nat} : CtxOk (x.showNext g) :=
  h.setStrm (h.strm.setBlockQ ((showNext_length g _).trans_le h.strm.blockCount))

theorem CtxOk.completeMarker {x : Ctx} (h : CtxOk x) {d : Desc} : CtxOk (completeMarker x d) := CtxOk.retire h

/-- The state of a turn meets the invariant: the one it ends in, or the one its instruction starts from. -/
def MoveOk : Move → Prop
  | .idle t => Inv t
  | .run t _ => Inv t

section
variable {s : State} {c k g q : Nat} {x : Ctx} {r : Group}

/-! ### Which agents act -/

theorem Inv.onLive (h : Inv s) {f : Ctx → State} (hf : ∀ x, CtxOk x → Inv (f x)) : OutOk (onLive s c k f) := by
  unfold Machine.onLive OutOk
  dsimp only
  split
  · exact hf _ (h.ctx c k)
  · exact h

theorem Inv.onTeamGroup (h : Inv s) {f : Ctx → Group → State} (hf : ∀ x r, CtxOk x → Inv (f x r)) :
    OutOk (onTeamGroup s c k g f) := by
  unfold Machine.onTeamGroup OutOk
  dsimp only
  split
  · split
    · exact hf _ _ (h.ctx c k)
    · exact h
  · exact h

theorem Inv.onIssuing (h : Inv s) {f : Ctx → Group → State} (hf : ∀ x r, CtxOk x → Inv (f x r)) : OutOk (onIssuing s c k g f) :=
  h.onTeamGroup fun x r hx => by
    split
    · exact hf x r hx
    · exact h

/-- A word that a context executes again keeps the invariant. -/
def RetryOk (o : Option (State → Out)) : Prop := ∀ m, o = some m → ∀ t, Inv t → OutOk (m t)

theorem RetryOk.none : RetryOk none := fun _ h => by cases h

theorem RetryOk.some {m : State → Out} (h : ∀ t, Inv t → OutOk (m t)) : RetryOk (some m) := fun _ hm => Option.some.inj hm ▸ h

theorem Inv.retry (h : Inv s) {f : Instr → Option (State → Out)} (hf : ∀ i, RetryOk (f i)) : OutOk (retry s c k f) := by
  unfold Machine.retry
  split
  · rename_i m hm
    obtain ⟨i, -, hi⟩ := Option.bind_eq_some_iff.mp hm
    split
    · exact hf i m hi _ h.setCur
    · exact h
  · exact h

/-! ### Descriptors and waiting control words -/

theorem Inv.execDescriptorVisible (h : Inv s) : OutOk (execDescriptorVisible c k g s) := h.onLive fun x hx => by
  extract_lets y t
  have ht : Inv t := h.setCtx hx.showNext
  clear_value t
  split
  · exact ht.startDesc
  · exact ht

theorem Inv.execBarrierRelease (h : Inv s) : OutOk (execBarrierRelease c k s) := h.onLive fun _ _ => by
  refine Inv.foldl h fun t a ht => ?_
  split
  · split
    · exact ht.startDesc
    · exact ht
  · exact ht

theorem Inv.execStalledEmitRetire (h : Inv s) : OutOk (execStalledEmitRetire c k s) := h.retry fun i => by
  cases i
  case emit => exact RetryOk.some fun _ ht => ht.execEmit
  case divg => exact RetryOk.some fun _ ht => ht.execDivg
  case elseM => exact RetryOk.some fun _ ht => ht.execElseM
  case recon => exact RetryOk.some fun _ ht => ht.execRecon
  case regroup => exact RetryOk.some fun _ ht => ht.execRegroup
  all_goals exact RetryOk.none

theorem Inv.execReturnReady (h : Inv s) : OutOk (execReturnReady c k s) := h.retry fun i => by
  cases i
  case rpop => exact RetryOk.some fun _ ht => ht.execRpop
  all_goals exact RetryOk.none

theorem Inv.execIfenceComplete (h : Inv s) : OutOk (execIfenceComplete c k s) := h.retry fun i => by
  cases i
  case ifence => exact RetryOk.some fun _ ht => ht.execIfence
  all_goals exact RetryOk.none

theorem Inv.execKtrigComplete (h : Inv s) : OutOk (execKtrigComplete c k s) := h.retry fun i => by
  cases i
  case ktrig => exact RetryOk.some fun _ ht => ht.execKtrig
  all_goals exact RetryOk.none

theorem Inv.execKwaitSatisfied (h : Inv s) : OutOk (execKwaitSatisfied c k s) := h.retry fun i => by
  cases i
  case kwait => exact RetryOk.some fun _ ht => ht.execKwait
  all_goals exact RetryOk.none

theorem Inv.execJwaitZero (h : Inv s) : OutOk (execJwaitZero c k s) := h.retry fun i => by
  cases i
  case jwait => exact RetryOk.some fun _ ht => ht.execJwait
  all_goals exact RetryOk.none

theorem Inv.execExitComplete (h : Inv s) : OutOk (execExitComplete c k s) := h.retry fun i => by
  cases i
  case exit => exact RetryOk.some fun _ ht => ht.execExit
  all_goals exact RetryOk.none

/-! ### Translation -/

theorem Inv.installPage (h : Inv s) {asid page : Nat} : Inv (installPage s c asid page) := by
  unfold Machine.installPage
  split
  · exact h
  · extract_lets e
    refine h.updCore fun hc => ?_
    split
    · exact hc
    · exact hc

theorem Inv.endTlbWait (h : Inv s) : Inv (s.updCtx c k fun x => { x with tlbWait := [] }) := h.updCtx fun hx => hx

theorem Inv.execTlbWalkComplete (h : Inv s) {group : Option Nat} : OutOk (execTlbWalkComplete c k group s) := by
  have hp (x : Ctx) (pages : List Nat) : Inv (pages.foldl (fun s p => Machine.installPage s c (x.asid s) p) s) :=
    h.foldl fun _ _ ht => ht.installPage
  unfold Machine.execTlbWalkComplete OutOk
  dsimp only
  split
  · exact h
  · split
    · exact (hp _ _).endTlbWait
    · split
      · exact (hp _ _).makeEligible
      · exact h

/-! ### Results and queues -/

theorem Inv.execVarResultWritten (h : Inv s) {idx : Nat} : OutOk (execVarResultWritten c k g idx s) := h.onIssuing fun x r hx => by
  split
  · split
    · exact h.setGroup.unpark
    · exact h
  · exact h

theorem Inv.releaseGroup (h : Inv s) {l : Link} {reach : Reach} : Inv (releaseGroup s c k g l reach) := h.flushAgent.release

theorem Inv.acquirePopped (h : Inv s) {times : List Nat} : Inv (acquirePopped s x c k g q times) := h.acquire.refresh

/-- A queue that takes another's place leaves the count. -/
theorem Inv.setQueue (h : Inv s) {f : RQueue → RQueue} : Inv (s.updCore c fun co => { co with queues := modifyAt co.queues q f }) :=
  h.updCore fun hc => hc.setQueues (by rw [modifyAt_length]; exact hc.queueCount)

theorem Inv.execQpopTake (h : Inv s) : OutOk (execQpopTake c q s) := by
  unfold Machine.execQpopTake OutOk
  dsimp only
  split
  · exact h
  · split
    · exact h
    · split
      · exact h
      · exact h.setGroup.acquirePopped.setQueue

theorem Inv.execQpushEnter (h : Inv s) : OutOk (execQpushEnter c k g s) := h.onIssuing fun x r hx => by
  split
  · exact h
  · dsimp only
    split
    · exact h
    · split
      · exact h.setGroup.unpark
      · split
        · exact h
        · exact h.setGroup.releaseGroup.setQueue.unpark

/-! ### Remote scratchpad -/

theorem Inv.remoteLane (h : Inv s) {first : State} {o : Agent} {order : Nat} {op : RemOp} {l : RemLane} :
    Inv (remoteLane first o order op s l).1 := by
  unfold Machine.remoteLane
  extract_lets bytes away t
  have ht : Inv t := h.foldl fun _ _ hu => hu.noteRead
  clear_value t
  split
  · exact ht
  · exact ht
  · exact h.atomicAt

theorem Inv.remoteLoad (h : Inv s) {idx : Nat} {v : VarRes} : Inv (remoteLoad s c k g idx x r v) := by
  unfold Machine.remoteLoad
  split
  · exact h
  · rename_i a rest _
    extract_lets v' me away v1 out mp src v2 src'
    split
    · exact h
    · split
      · exact h.setGroup
      · split
        · have ho : Inv out.1 := foldl_keeps (p := fun o : State × List (Nat × Nat) => Inv o.1) (fun _ _ ht => ht.remoteLane) _ h
          clear_value out
          exact ho.setGroup
        · split
          · exact h
          · exact h.setGroup

theorem Inv.performOldest (h : Inv s) : Inv (performOldest s c k g) := by
  unfold Machine.performOldest
  extract_lets x r
  split
  · exact h
  · exact h.remoteLoad

theorem Inv.laneTurn (h : Inv s) {ls : Nat} : MoveOk (laneTurn s c ls) := by
  unfold Machine.laneTurn
  split
  · exact h.arbitrate
  · extract_lets x t e
    split
    · exact h
    · have he : Inv e.s := h.setCur
      clear_value e
      split
      · exact h.setCur
      · exact he.laneFetchFault

theorem Inv.laneMove (h : Inv s) {ls : Nat} : MoveOk (laneMove s c ls) := by
  unfold Machine.laneMove
  split
  · exact h.laneTurn
  · split
    · exact h.performOldest
    · exact h.laneTurn

theorem Inv.remoteStore (h : Inv s) {j : Nat} {st : RemStore} : Inv (remoteStore s c k g j x r st) := by
  unfold Machine.remoteStore
  extract_lets drop
  split
  · exact h
  · split
    · exact h.setGroup
    · split
      · exact Inv.setGroup (h.foldl fun _ _ ht => ht.performWrite)
      · split
        · exact h
        · split
          · exact h.setGroup.updCtx fun hx => hx
          · exact h.setGroup

theorem Inv.execRemoteScratchpadAccess (h : Inv s) {idx : Nat} : OutOk (execRemoteScratchpadAccess c k g idx s) :=
  h.onTeamGroup fun x r _ => by
    split
    · exact h.remoteLoad
    · dsimp only
      split
      · exact h.remoteStore
      · exact h

theorem Inv.execRemoteStoreAck (h : Inv s) {idx : Nat} : OutOk (execRemoteStoreAck c k g idx s) := h.onTeamGroup fun x r _ => by
  split
  · split
    · exact h.setGroup
    · exact h
  · exact h

/-! ### Fences -/

theorem Inv.fenceFlush (h : Inv s) {f : FenceReq} {me : Agent} : Inv (f.flush s me) := by
  cases f with
  | fence scope order => exact h.flushWhere
  | cross scope p q => exact h.flushWhere

theorem Inv.fenceOrder (h : Inv s) {f : FenceReq} : Inv (f.order s x c k g) := by
  cases f with
  | fence scope order =>
    unfold FenceReq.order
    extract_lets me
    dsimp -zeta only
    split
    · exact h
    · extract_lets reach t
      have ht : Inv t := by
        unfold t
        split
        · exact h.acquireFence
        · exact h
      clear_value t
      split
      · exact ht.releaseFence
      · exact ht
  | cross scope p q =>
    unfold FenceReq.order
    extract_lets me
    dsimp -zeta only
    extract_lets t
    have ht : Inv t := by
      unfold t
      split
      · exact h
      · exact h
    clear_value t
    split
    · exact ht
    · exact ht.orderPaths

theorem Inv.execFenceWorkDone (h : Inv s) {group : Option Nat} : OutOk (execFenceWorkDone c k group s) := by
  cases group with
  | none =>
    refine h.retry fun i => ?_
    cases i
    case fence => exact RetryOk.some fun _ ht => ht.execFence
    case xfence => exact RetryOk.some fun _ ht => ht.execXfence
    all_goals exact RetryOk.none
  | some g =>
    refine h.onIssuing fun x r _ => ?_
    split
    · exact h
    · split
      · exact h
      · extract_lets t u
        have ht : Inv t := h.fenceFlush.fenceOrder
        clear_value t
        have hu : Inv u := by
          unfold u
          split
          · exact ht.checkInAll
          · exact ht
        exact hu.setGroup.unpark

/-! ### REGROUP -/

theorem Inv.execRegroupMigration (h : Inv s) : OutOk (execRegroupMigration c k s) := h.onLive fun x hx => by
  split
  · exact h
  · split
    · exact h
    · split
      · exact h
      · extract_lets t y truss u0 u dest active groups back y'
        have hy : CtxOk y := hx.completeMarker
        clear_value y
        have hu : Inv u := (h.orderTeam.setCtx hy).setCur
        clear_value u
        split
        · exact hu.ctrlTrap
        · exact hu.setCtx (CtxOk.wrMask (hy.setStrm hy.strm.setActive) _ _)

/-! ### Matrix loops -/

theorem Inv.tellLoops (h : Inv s) {t : Halt} : Inv (tellLoops s c k g t) := h.updGroup

theorem Inv.haltGroup (h : Inv s) {t : Halt} {f : AsyncFault} : Inv (haltGroup s c k g t f) := by
  unfold Machine.haltGroup
  extract_lets x r trap loopWaits
  have htrap : ∀ u, Inv u → Inv (trap u) := fun u hu => by
    unfold trap
    split
    · exact hu.makeEligible
    · split
      · exact hu.updCtx fun hy => hy
      · exact hu.laneTrap
  split
  · split
    · exact htrap _ h
    · exact h
  · split
    · exact h
    · split
      · exact htrap _ h.tellLoops
      · exact h
  · split
    · exact h.tellLoops.raiseAsync
    · exact h

theorem Inv.holdHalt (h : Inv s) {t : Halt} {f : AsyncFault} {p : Nat × GroupPos} : Inv (holdHalt c k t f s p) := by
  unfold Machine.holdHalt
  extract_lets f'
  refine h.tellLoops.updCtx fun hx => ?_
  split
  · exact hx
  · exact hx

theorem Inv.haltFrozen (h : Inv s) {t : Halt} {f : AsyncFault} : Inv (haltFrozen s c k t f) := by
  unfold Machine.haltFrozen
  extract_lets x
  split
  · exact h
  · exact h.foldl fun _ _ hu => hu.holdHalt

theorem Inv.loopHalted (h : Inv s) {lines : List Nat} : Inv (loopHalted s c k g lines) := by
  unfold Machine.loopHalted
  split
  · exact h
  · exact h.haltFrozen.haltGroup

theorem Inv.execMatrixLoopStep (h : Inv s) : OutOk (execMatrixLoopStep c k g s) := h.onIssuing fun x r _ => by
  split
  · exact h
  · split
    · exact h
    · split
      · exact h.loopHalted
      · split
        · exact h
        · exact h.setGroup

theorem Inv.dropWait (h : Inv s) : Inv (dropWait s c k g) := Inv.updGroup (h.updLaneSet)

theorem Inv.execMatrixLoopComplete (h : Inv s) : OutOk (execMatrixLoopComplete c k g s) := h.onIssuing fun x r _ => by
  extract_lets r' t u
  have ht : Inv t := h.setGroup
  clear_value t
  have hu : Inv u := by
    unfold u
    split
    · exact ht.makeEligible
    · exact ht
  clear_value u
  split
  · exact ht
  · split
    · exact hu
    · refine Inv.unpark ?_
      split
      · exact hu.exitTruss
      · exact hu.dropWait

end

end Sys2Proof.Claims
end

