-- ==== Sys2Proof/Proofs/KeepsPlacement.lean ====
section
/-! Placement, pre-emption and resumption keep the invariant: new teams and those taken back are in order, and firmware keeps contexts
that are (02 R41, R43, 03 R94, 04 R110-R115, 10 R289-R295). -/

namespace Sys2Proof.Claims

open Machine

/-! ### Folds that may end early -/

/-- What every step of a fold that may end early keeps, its result has. -/
theorem foldlM_keeps {σ α : Type} {p : σ → Prop} {f : σ → α → Option σ} {l : List α}
    (hf : ∀ s a t, a ∈ l → p s → f s a = some t → p t) {s t : σ} (h : p s) (ht : l.foldlM f s = some t) : p t := by
  induction l generalizing s with
  | nil =>
    obtain rfl := Option.some.inj ht
    exact h
  | cons a r ih =>
    rw [List.foldlM_cons] at ht
    obtain ⟨u, hu, hr⟩ := Option.bind_eq_some_iff.mp ht
    exact ih (fun s b t hb => hf s b t (List.mem_cons_of_mem _ hb)) (hf s a u List.mem_cons_self h hu) hr

/-- A fold that keeps the better of two ends in an element of the list, or where it began. -/
theorem foldl_best_mem {α : Type} {f : Option α → α → Option α} (hf : ∀ o a, f o a = o ∨ f o a = some a) (l : List α)
    {o : Option α} {b : α} (h : l.foldl f o = some b) : o = some b ∨ b ∈ l := by
  induction l generalizing o with
  | nil => exact .inl h
  | cons a r ih =>
    rcases ih h with hb | hb
    · rcases hf o a with ho | ho
      · exact .inl (ho.symm.trans hb)
      · exact .inr (by rw [Option.some.inj (ho.symm.trans hb)]; exact List.mem_cons_self)
    · exact .inr (List.mem_cons_of_mem _ hb)

/-! ### Contexts and cores -/

theorem ctxOk_launchedTeam (s : State) (l : Launch) (c k b ci t : Nat) : CtxOk (launchedTeam s l c k b ci t) :=
  ⟨rfl, rfl, streamOk_fresh, fun _ h => by cases h⟩

theorem ctxOk_childTeam (s : State) (l : Launch) (c k b : Nat) (rs : List SpawnRec) : CtxOk (childTeam s l c k b rs) :=
  have hs : StreamOk (childTeam s l c k b rs).strm :=
    StreamOk.setMasks (ms := (List.replicate 16 0).set 0 (lowMask 1024 rs.length))
      (streamOk_fresh.setActive (m := lowMask 1024 rs.length)) rfl 0
  ⟨rfl, rfl, hs, fun _ h => by cases h⟩

theorem CtxOk.context {t : SavedTeam} (h : CtxOk t.body) : CtxOk t.context := by
  obtain ⟨h1, h2, h3, h4⟩ := h
  unfold SavedTeam.context
  split
  · exact ⟨h1, h2, h3, h4⟩
  · exact ⟨h1, h2, streamOk_routine _, h4⟩

theorem CtxOk.setPassed {x : Ctx} (h : CtxOk x) {ids : List Nat} : CtxOk { x with passed := ids } := h

theorem CtxOk.preempt {x : Ctx} (h : CtxOk x) : CtxOk (preemptCtx x) := by
  unfold preemptCtx
  split
  · exact h
  · split
    · exact h
    · exact h

theorem CoreOk.wake {co : Core} (h : CoreOk co) : CoreOk (wakeCore co) := by
  unfold wakeCore
  split
  · exact h
  · exact h

theorem CoreOk.setRes {co : Core} (h : CoreOk co) {r : Option (Nat × Nat × Nat)} : CoreOk { co with childRes := r } := h

/-- Each queue may take another's place. -/
theorem CoreOk.indexQueues {co : Core} (h : CoreOk co) {f : Nat × RQueue → RQueue} :
    CoreOk { co with queues := (indexed co.queues).map f } :=
  h.setQueues (by rw [List.length_map, indexed_length]; exact h.queueCount)

section
variable {s t : State} {c k part : Nat} {p : Partition} {l : Launch}

/-- Each core may change as its position says. -/
theorem Inv.mapIndexedCores (h : Inv s) {f : Nat × Core → Core} (hf : ∀ c, CoreOk c.2 → CoreOk (f c)) :
    Inv { s with cores := (indexed s.cores).map f } := by
  refine InvParts.inv { h.parts with coreCount := by simpa using h.parts.coreCount, cores := fun co hco => ?_ }
  obtain ⟨b, hb, rfl⟩ := List.mem_map.mp hco
  exact hf b (h.parts.cores b.2 (List.mem_of_getElem? (mem_indexed hb)))

/-! ### Placement -/

theorem Inv.reserve (h : Inv s) {ci n : Nat} (ht : reserve s l ci n c = some t) : Inv t := by
  unfold Machine.reserve at ht
  dsimp only at ht
  split at ht
  · cases ht
  · obtain ⟨lines, -, rfl⟩ := Option.map_eq_some_iff.mp ht
    exact h.clearScr fun co hc => CoreOk.indexQueues hc.wake.clearLines

theorem Inv.placeTeam (h : Inv s) {ci n : Nat} {a : State × Nat × Nat × Nat} (ht : placeTeam s l ci n c = some a) : Inv a.1 := by
  unfold Machine.placeTeam at ht
  split at ht
  · cases ht
  · obtain ⟨u, hu, rfl⟩ := Option.map_eq_some_iff.mp ht
    exact Inv.setCtx ((h.reserve hu).updCore fun hc => hc) (ctxOk_launchedTeam _ _ _ _ _ _ _)

theorem Inv.placeOn (h : Inv s) {ci : Nat} {cores : List Nat} (ht : placeOn s l ci cores = some t) : Inv t := by
  obtain ⟨a, ha, rfl⟩ := Option.map_eq_some_iff.mp ht
  refine Inv.updLaunch ?_ fun _ hl => hl
  refine foldlM_keeps (p := fun a : State × List (Nat × Nat × Nat) => Inv a.1) (fun a tc b _ hv hb => ?_) h ha
  obtain ⟨r, hr, rfl⟩ := Option.map_eq_some_iff.mp hb
  exact hv.placeTeam hr

theorem Inv.placeCluster (h : Inv s) {ci : Nat} (ht : placeCluster l p s ci = some t) : Inv t := by
  obtain ⟨cores, -, hc⟩ := List.exists_of_findSome?_eq_some ht
  split at hc
  · exact h.placeOn hc
  · cases hc

theorem Inv.placeLaunch (h : Inv s) (ht : placeLaunch s p l = some t) : Inv t := by
  unfold Machine.placeLaunch at ht
  extract_lets u at ht
  have hu : Inv u := h.updLaunch fun _ hl => hl
  clear_value u
  have hv : Inv { u with stamp := s.stamp + 1 } := hu.setStamp
  refine foldlM_keeps (fun _ _ _ _ hv hw => ?_) hv ht
  exact hv.placeCluster hw

/-! ### Resumption -/

theorem Inv.resumeTeam (h : Inv s) {v : SavedTeam} (hv : CtxOk v.body) (ht : resumeTeam l s v = some t) : Inv t := by
  unfold Machine.resumeTeam at ht
  extract_lets co co' at ht
  have hco : CoreOk co' := (h.core v.core).wake
  clear_value co'
  split at ht
  · cases ht
  · obtain ⟨r, -, rfl⟩ := Option.map_eq_some_iff.mp ht
    exact (h.setCore hco.setRes).renameTeam.setCtx hv.context.setPassed

theorem Inv.resumeGatherer (h : Inv s) (ht : resumeGatherer l s c = some t) : Inv t := by
  unfold Machine.resumeGatherer at ht
  extract_lets co put at ht
  have hput (r : Option (Nat × Nat × Nat)) : Inv (put r) := h.setCore (h.core c).wake
  clear_value put
  split at ht
  · cases ht
  · split at ht
    · obtain rfl := Option.some.inj ht
      exact hput _
    · obtain ⟨r, -, rfl⟩ := Option.map_eq_some_iff.mp ht
      exact hput _
    · obtain rfl := Option.some.inj ht
      exact hput _

theorem Inv.returnKept (h : Inv s) : Inv (returnKept s l) := by
  unfold Machine.returnKept
  extract_lets t u
  have ht : Inv t := h.foldl fun _ _ hv => hv.setQueue
  clear_value t
  have hu : Inv u := ht.foldl fun _ _ hv => hv.updCore fun hc => hc
  clear_value u
  exact hu.foldl fun _ _ hv => hv.updCore fun hc => hc.gatherRecord

theorem Inv.resumeLaunch (h : Inv s) (hl : LaunchOk l) (ht : resumeLaunch s l = some t) : Inv t := by
  unfold Machine.resumeLaunch at ht
  extract_lets resvs at ht
  obtain ⟨w, hw, rfl⟩ := Option.map_eq_some_iff.mp ht
  obtain ⟨u, hu, hw⟩ := Option.bind_eq_some_iff.mp hw
  obtain ⟨v, hv, hw⟩ := Option.bind_eq_some_iff.mp hw
  have iu : Inv u := foldlM_keeps (fun a cl b _ ha hb => by
    split at hb
    · obtain rfl := Option.some.inj hb
      exact ha
    · exact foldlM_keeps (fun _ _ _ _ hd he => hd.reserve he) ha hb) h hu
  have iv : Inv v := foldlM_keeps (fun _ m _ hm ha hb => ha.resumeTeam (hl m hm) hb) iu hv
  have iw : Inv w := foldlM_keeps (fun _ _ _ _ ha hb => ha.resumeGatherer hb) iv hw
  exact Inv.setStamp (iw.returnKept.updLaunch fun _ _ _ hm => by cases hm)

/-! ### Pre-emption -/

theorem Inv.preemptLaunch (h : Inv s) {byCommand : Bool} : Inv (preemptLaunch s l byCommand) := by
  unfold Machine.preemptLaunch
  extract_lets mine t
  have ht : Inv t := h.mapCores fun co hc => by
    split
    · exact hc.mapCtxs fun x hx => by
        split
        · exact hx.preempt
        · exact hx
    · exact hc
  clear_value t
  exact ht.updLaunch fun _ hl => hl

theorem Inv.stripLaunch (h : Inv s) : Inv (stripLaunch s l) := by
  unfold Machine.stripLaunch
  extract_lets t
  have ht : Inv t := h.mapIndexedCores fun _ hc => CoreOk.indexQueues hc
  clear_value t
  exact ht.foldl fun _ _ hu => hu.releaseReservation

theorem Inv.settlePreempted (h : Inv s) : Inv (settlePreempted s l) := by
  unfold Machine.settlePreempted
  split
  · exact h
  · split
    · exact h.updLaunch fun _ hl => hl
    · extract_lets cores queues gather formed res t
      have ht : Inv t := h.updLaunch fun _ hl => hl
      clear_value t
      exact ht.stripLaunch

theorem Inv.preemptFor (h : Inv s) : Inv (preemptFor s p l) := by
  unfold Machine.preemptFor
  split
  · exact h
  · extract_lets keep cands gone
    split
    · exact h
    · exact h.foldl fun _ _ ht => ht.preemptLaunch

/-! ### The waiting list -/

theorem firstWaiting_mem (h : firstWaiting s part = some l) : l ∈ s.launches := by
  refine (foldl_best_mem (fun o a => ?_) _ h).elim (fun h => by cases h) List.mem_of_mem_filter
  split
  · exact .inr rfl
  · split
    · exact .inr rfl
    · exact .inl rfl

theorem Inv.tryFit (h : Inv s) (hl : LaunchOk l) (ht : tryFit s p l = some t) : Inv t := by
  unfold Machine.tryFit at ht
  split at ht
  · exact h.placeLaunch ht
  · exact h.resumeLaunch hl ht

theorem Inv.placeLoop (h : Inv s) {n : Nat} : Inv (placeLoop p n s) := by
  induction n generalizing s with
  | zero => exact h
  | succ n ih =>
    rw [Machine.placeLoop]
    split
    · exact h
    · rename_i l hl
      split
      · rename_i ht
        exact ih (h.tryFit (h.parts.launches l (firstWaiting_mem hl)) ht)
      · exact h.preemptFor

end

end Sys2Proof.Claims
end

