-- ==== Sys2Proof/Proofs/KeepsCores.lean ====
section
/-! Rings, records and the part's own steps that act on cores keep the invariant (03 R89-R99, 07 R184-R205, 10 R273-R301, 11 R314-R321). -/

namespace Sys2Proof.Claims

open Machine

theorem CoreOk.indexCtxs {co : Core} (h : CoreOk co) {f : Nat × Ctx → Ctx} (hf : ∀ x, CtxOk x.2 → CtxOk (f x)) :
    CoreOk { co with ctxs := (indexed co.ctxs).map f } := by
  obtain ⟨h1, h2, h3, h4, h5⟩ := h
  refine ⟨by simpa using h1, h2, h3, h4, fun x hx => ?_⟩
  obtain ⟨b, hb, rfl⟩ := List.mem_map.mp hx
  exact hf b (h5 b.2 (List.mem_of_getElem? (mem_indexed hb)))

section
variable {s t : State} {c k g ch page ring e : Nat} {l : Launch} {x : Ctx}

/-! ### Rings and records -/

theorem Inv.setPages (h : Inv s) {ps : List Page} (hp : ps.length = 9) : Inv { s with pages := ps } :=
  InvParts.inv { h.parts with pageCount := hp }

/-- A page of rings that takes another's place leaves the count. -/
theorem Inv.setPage (h : Inv s) {n : Nat} {g : Page} : Inv { s with pages := s.pages.set n g } :=
  h.setPages ((List.length_set ..).trans h.parts.pageCount)

theorem Inv.updPage (h : Inv s) {f : Page → Page} : Inv { s with pages := modifyAt s.pages page f } :=
  h.setPages ((modifyAt_length _ _ _).trans h.parts.pageCount)

theorem Inv.updEv (h : Inv s) {f : EvRing → EvRing} : Inv (s.updEv page e f) := h.updPage

theorem Inv.updSub (h : Inv s) {f : SubRing → SubRing} : Inv (s.updSub page ring f) := h.updPage

theorem Inv.raiseIrq (h : Inv s) : Inv (raiseIrq s page e) := h.updEv

theorem Inv.emitRecord (h : Inv s) {r : Record} : Inv (emitRecord s page e r) := by
  unfold Machine.emitRecord
  extract_lets v t u
  have hu : Inv u := h.writePhys.updEv
  clear_value u
  split
  · exact hu.raiseIrq
  · exact hu

theorem Inv.writeRecord (h : Inv s) {r : Record} : Inv (writeRecord s page e r) := by
  unfold Machine.writeRecord
  split
  · exact h.emitRecord
  · exact h.updEv

theorem Inv.flushHeld (h : Inv s) {rs : List Record} : Inv (flushHeld s page e rs) := by
  induction rs generalizing s with
  | nil => exact h
  | cons r rest ih =>
    rw [Machine.flushHeld]
    split
    · exact ih h.emitRecord.updEv
    · exact h

theorem Inv.complete (h : Inv s) {src : CmdSrc} {status faults : Nat} {cause : Option Nat} {result : W64} :
    Inv (complete s src status cause faults result) := h.writeRecord

theorem Inv.unsolicited (h : Inv s) {part : Nat} {cause : Option Nat} {result : W64} :
    Inv (unsolicited s part cause result) := h.writeRecord

theorem Inv.announce (h : Inv s) {pos : Nat} : Inv (announce s page ring pos) := by
  unfold Machine.announce
  extract_lets t
  have ht : Inv t := by
    unfold t
    split
    · exact h
    · exact h
  clear_value t
  exact ht.updSub.setStamp

theorem Inv.execNotify (h : Inv s) {v : W64} : OutOk (execNotify page v s) := by
  unfold Machine.execNotify OutOk
  dsimp only
  split
  · exact h
  · split
    · exact h.announce.writeRecord
    · exact h.announce

theorem Inv.execEvcons (h : Inv s) {v : W64} : OutOk (execEvcons page v s) := by
  unfold Machine.execEvcons OutOk
  dsimp only
  split
  · exact h
  · exact h.updEv.flushHeld

theorem Inv.execMrtable (h : Inv s) {v : W64} : OutOk (execMrtable v s) := by
  unfold Machine.execMrtable OutOk
  dsimp only
  split
  · exact h
  · split
    · exact h.setPage
    · exact h

theorem Inv.consume (h : Inv s) : Inv (consume s page ring) := h.updSub.writePhys

theorem Inv.setAgenda (h : Inv s) {ag : List Turn} : Inv { s with agenda := ag } := h

theorem Inv.execBlockFetch (h : Inv s) : OutOk (execBlockFetch page ring s) := by
  unfold Machine.execBlockFetch OutOk
  dsimp only
  split
  · exact h
  · split
    · exact h
    · split
      · exact h.consume.complete
      · exact h.consume.setAgenda

theorem Inv.execTagMismatch (h : Inv s) : OutOk (execTagMismatch page ring s) := by
  unfold Machine.execTagMismatch OutOk
  dsimp only
  split
  · exact h
  · split
    · exact h
    · exact h.consume.complete

theorem Inv.execCoalescingDelayExpiry (h : Inv s) : OutOk (execCoalescingDelayExpiry page e s) := by
  unfold Machine.execCoalescingDelayExpiry OutOk
  dsimp only
  split
  · exact h.raiseIrq
  · exact h

/-! ### Spawn records -/

theorem Inv.raiseStores (h : Inv s) {faults : List AsyncFault} {f : State → State} (hf : ∀ t, Inv t → Inv (f t)) :
    Inv (raiseStores s c k g faults f) := by
  unfold Machine.raiseStores
  extract_lets own
  refine Inv.foldl (hf _ ?_) fun _ _ ht => ht.raiseAsync
  split
  · exact h
  · exact h.updGroup

theorem Inv.releaseSpawn (h : Inv s) {batch : List SpawnRec} : Inv (releaseSpawn s c k g batch) := by
  unfold Machine.releaseSpawn
  split
  · exact h
  · exact h.releaseGroup

theorem Inv.execSpawnRecordsAccepted (h : Inv s) : OutOk (execSpawnRecordsAccepted c k g s) := h.onIssuing fun x r _ => by
  split
  · exact h
  · split
    · exact h
    · exact h.releaseSpawn.raiseStores fun _ ht => ht.updGroup.acceptAll.unpark

theorem Inv.spillWrites (h : Inv s) {a : Agent} {w : List (Nat × SpawnRec)} (ht : spillWrites s a l c w = .ok t) : Inv t := by
  induction w generalizing s with
  | nil =>
    obtain rfl := Except.ok.inj ht
    exact h
  | cons q rest ih =>
    obtain ⟨slot, r⟩ := q
    rw [Machine.spillWrites] at ht
    split at ht
    · cases ht
    · extract_lets w u v y at ht
      have hu : Inv u := h.writePhys
      clear_value u
      have hv : Inv v := by
        unfold v
        split
        · exact hu
        · exact hu
      clear_value v
      have hy : Inv y := hv.updLaunch fun _ hl => hl
      clear_value y
      exact ih hy.setStamp ht

theorem Inv.execSpillWriteComplete (h : Inv s) : OutOk (execSpillWriteComplete c k g s) := h.onIssuing fun x r _ => by
  split
  · split
    · exact h
    · extract_lets t
      have ht : Inv t := h.releaseSpawn.updGroup
      clear_value t
      split
      · exact ht.laneTrap.leaveSpilling
      · rename_i u hu
        exact (ht.spillWrites hu).raiseStores fun v hv => by
          refine Inv.passOver (Inv.makeEligible ?_)
          exact hv.foldl fun _ _ hw => hw.joinInc
  · exact h

theorem Inv.refillFault (h : Inv s) {cause : Nat} {finfo : W64} : Inv (refillFault s l cause finfo) :=
  h.countFault.updLaunch fun _ hl => hl

theorem Inv.execGathererRefill (h : Inv s) : OutOk (execGathererRefill c s) := by
  unfold Machine.execGathererRefill OutOk
  dsimp -zeta only
  split
  · exact h
  · split
    · exact h
    · extract_lets t y u
      have ht : Inv t := h.updLaunch fun _ hl => hl
      clear_value t
      have hu : Inv u := by
        unfold u
        split
        · exact ht.refillFault
        · split
          · exact ht.gatherAt
          · exact ht.refillFault
      exact hu.leaveSpilling.releaseReservation

theorem Inv.execGathererIdleTimeout (h : Inv s) : OutOk (execGathererIdleTimeout c s) := Inv.updCore h fun hc => hc.formPartials

theorem Inv.dropFormed (h : Inv s) {i : Nat} : Inv (s.updCore c fun co => { co with formed := co.formed.eraseIdx i }) :=
  h.updCore fun hc => hc

theorem Inv.execChildTeamStart (h : Inv s) : OutOk (execChildTeamStart c s) := by
  unfold Machine.execChildTeamStart OutOk
  dsimp -zeta only
  split
  · exact h
  · split
    · exact h
    · extract_lets span t
      have ht : Inv t := h.dropFormed
      clear_value t
      split
      · exact h
      · exact (ht.setCtx (ctxOk_childTeam _ _ _ _ _ _)).acquire.refresh.releaseReservation

/-! ### Copy transfers -/

theorem Inv.execTransferStart (h : Inv s) : OutOk (execTransferStart c ch s) := by
  unfold Machine.execTransferStart OutOk
  dsimp only
  split
  · exact h
  · exact h.updChan.wakeEngine

theorem Inv.execLineLanded (h : Inv s) {line : Nat} : OutOk (execLineLanded c ch line s) := by
  unfold Machine.execLineLanded OutOk
  dsimp only
  split
  · exact h
  · split
    · exact h
    · split
      · exact h
      · exact h.landLine

theorem Inv.execTransferComplete (h : Inv s) : OutOk (execTransferComplete c ch s) := by
  unfold Machine.execTransferComplete OutOk
  dsimp only
  split
  · exact h
  · split
    · exact h
    · exact h.completeTransfer.wakeEngine

theorem Inv.haltTeams (h : Inv s) {q : Halt} {f : Nat → AsyncFault} : Inv (haltTeams s q f) :=
  h.foldl fun _ _ ht => ht.foldl fun _ _ hu => by
    split
    · exact hu
    · exact hu.haltFrozen.foldl fun _ _ hv => hv.haltGroup

theorem Inv.execTransferHalt (h : Inv s) : OutOk (execTransferHalt c ch s) := by
  unfold Machine.execTransferHalt OutOk
  extract_lets y
  dsimp -zeta only
  split
  · exact h
  · split
    · exact h
    · split
      · exact h
      · extract_lets pick whole t u gone v
        have ht : Inv t := h.landBytes.foldl fun _ _ hw => hw.lineDone
        clear_value t
        have hu : Inv u := ht.updChan
        clear_value u
        have hv : Inv v := by
          unfold v
          split
          · exact hu.finishTransfer
          · exact hu.haltTeams
        exact hv.wakeEngine

theorem Inv.execEngineRetry (h : Inv s) : OutOk (execEngineRetry c ch s) := h.writeState

theorem Inv.execEngineSkip (h : Inv s) : OutOk (execEngineSkip c ch s) := h.writeState

/-! ### Routines -/

theorem Inv.skipForPreempt (h : Inv s) : Inv (skipForPreempt s c) := by
  refine Inv.foldl h fun t ch ht => ?_
  extract_lets y stat u
  split
  · exact ht
  · have hu : Inv u := by
      unfold u
      split
      · exact ht.updCore fun hc => hc.indexCtxs fun x hx => by
          split
          · exact hx
          · exact hx
      · exact ht.updCore fun hc => hc
    exact hu.finishTransfer.wakeEngine

theorem Inv.execRoutineEntry (h : Inv s) : OutOk (execRoutineEntry c k s) := by
  unfold Machine.execRoutineEntry OutOk
  extract_lets x u co
  have hu : Inv u := h.skipForPreempt
  clear_value u
  dsimp only
  split
  · exact h
  · split
    · exact h
    · split
      · exact h.enterRoutine
      · split
        · exact hu.enterRoutine
        · exact hu

theorem Inv.killLaunch (h : Inv s) {cause : Nat} : Inv (killLaunch s l cause) := by
  unfold Machine.killLaunch
  extract_lets mine t u v ended w
  have ht : Inv t := h.foldl fun _ _ hy => hy.foldl fun _ _ hz => by
    split
    · exact hz.terminate
    · exact hz
  clear_value t
  have hu : Inv u := ht.foldl fun _ _ hy => by
    dsimp only
    split
    · exact hy.countFault.endJoins
    · exact hy.countFault
  clear_value u
  have hv : Inv v := by
    unfold v
    split
    · split
      · exact hu.stripLaunch
      · exact hu
    · exact hu
  clear_value v
  have hw : Inv w := hv.updLaunch fun _ _ _ hm => by cases hm
  clear_value w
  exact hw.foldl fun _ _ hy => hy.leaveSpilling.releaseReservation

theorem Inv.execWatchdog (h : Inv s) : OutOk (execWatchdog c k s) := by
  unfold Machine.execWatchdog OutOk
  extract_lets x t
  have ht : Inv t := h.terminate
  clear_value t
  dsimp only
  split
  · exact h
  · split
    · exact ht
    · split
      · exact ht.killLaunch.updLaunch fun _ hl => hl
      · exact ht

/-! ### The pool tier -/

theorem Inv.execBisnpReceived (h : Inv s) {line : Nat} : OutOk (execBisnpReceived line s) := h.checkInWhere.dropCopies.forgetLate

theorem CoreOk.severGroups {co : Core} (h : CoreOk co) {f : Ctx → List Group} :
    CoreOk { co with ctxs := co.ctxs.map fun x => { x with groups := f x } } := h.mapCtxs fun _ hx => hx

theorem Inv.severPort (h : Inv s) {port : Nat} : Inv (severPort s port) := by
  unfold Machine.severPort
  extract_lets hitR at_ t lines lost gone u v hit w
  have ht : Inv t := h.flushThrough
  clear_value t
  have hu : Inv u := ht.setPoolLines fun q hq => ht.parts.lines q (List.mem_of_mem_filter hq)
  clear_value u
  have hv : Inv v := hu.dropCopies.forgetLate
  clear_value v
  have hw : Inv w := hv.mapCores fun co hc => hc.severGroups
  clear_value w
  exact hw.foldl fun _ _ hy => hy.unsolicited

theorem Inv.execPoolLinkDown (h : Inv s) {port : Nat} : OutOk (execPoolLinkDown port s) := h.severPort

theorem Inv.execPoolRequestTimeout (h : Inv s) {port : Nat} : OutOk (execPoolRequestTimeout port s) := h.severPort

theorem Inv.execPoolIdeFailure (h : Inv s) {port : Nat} : OutOk (execPoolIdeFailure port s) := h.severPort

/-! ### Errors -/

theorem Inv.execSingleBitError (h : Inv s) : OutOk (execSingleBitError s) := h

theorem Inv.endLaunch (h : Inv s) : Inv (endLaunch s l) := by
  unfold Machine.endLaunch
  split
  · exact h
  · extract_lets t
    have ht : Inv t := h.killLaunch
    clear_value t
    split
    · exact ht
    · exact ht.writeRecord.updLaunch fun _ hl => hl

theorem Inv.endPartitionWork (h : Inv s) {part : Nat} : Inv (endPartitionWork s part) := h.foldl fun _ _ ht => ht.endLaunch

theorem Inv.killPartition (h : Inv s) {part : Nat} : Inv (killPartition s part) := by
  unfold Machine.killPartition
  split
  · exact h
  · exact h.endPartitionWork.unsolicited

theorem Inv.poisonDevice (h : Inv s) {pa : Nat} : Inv (poisonDevice s pa) := by
  unfold Machine.poisonDevice
  extract_lets t
  have ht : Inv t := h.setPoison
  clear_value t
  exact ht

theorem Inv.execUncorrectableError (h : Inv s) {loc : ErrLoc} : OutOk (execUncorrectableError loc s) := by
  unfold Machine.execUncorrectableError OutOk
  dsimp only
  cases loc with
  | mem pa =>
    dsimp only
    split
    · split
      · exact h.poisonDevice
      · exact h.setPoison
    · exact h
  | pool pa =>
    dsimp only
    split
    · exact h.poisonDevice
    · exact h
  | cache pa =>
    dsimp only
    split
    · split
      · exact h
      · exact h.setPoison
    · exact h
  | scratch c a =>
    dsimp only
    split
    · exact h.setPoison
    · exact h
  | sreg c k r =>
    refine h.updCtx fun hx => ?_
    split
    · exact hx
    · obtain ⟨h1, h2, h3, h4⟩ := hx
      exact ⟨h1, (List.length_set ..).trans h2, h3, h4⟩
  | mreg c k r => exact h.updCtx fun hx => hx.setStrm (hx.strm.setMasks hx.strm.maskCount _)
  | vreg => exact h.updGroup
  | greg => exact h.updGroup
  | special => exact h.updGroup
  | ret c k i g =>
    exact h.updCtx fun hx => hx.setStrm (hx.strm.setReturnQ ((modifyAt_length _ _ _).trans_le hx.strm.returnCount))
  | token c k i =>
    exact h.updCtx fun hx => hx.setStrm (hx.strm.setRecon ((modifyAt_length _ _ _).trans_le hx.strm.reconCount) _)
  | queue => exact h.setQueue
  | hidden => exact h.killPartition

end

end Sys2Proof.Claims
end

