-- ==== Sys2Proof/Proofs/KeepsCommands.lean ====
section
/-! The commands and firmware's own steps keep the invariant: what they enter, keep, freeze and thaw is in order, and a new power limit lies
within its range (04 R108-R114, 10 R297-R306, 11 R324-R339). -/

namespace Sys2Proof.Claims

open Machine

section
variable {s t : State} {src : CmdSrc} {p : Partition} {l : Launch}

/-! ### Records and partitions -/

theorem Inv.reject (h : Inv s) {status : Nat} : Inv (reject s src status) := h.complete

theorem Inv.finish (h : Inv s) {result : Nat} : Inv (finish s src result) := h.complete

theorem Inv.onPart (h : Inv s) {f : Partition → State} (hf : ∀ p, Inv (f p)) : OutOk (onPart s src f) := by
  unfold Machine.onPart OutOk
  dsimp only
  split
  · exact hf _
  · exact h.reject

theorem Inv.updPart (h : Inv s) {id : Nat} {f : Partition → Partition} : Inv (s.updPart id f) := h

theorem Inv.setCmds (h : Inv s) {cs : List PendingCmd} : Inv { s with cmds := cs } := h

theorem Inv.filterLaunches (h : Inv s) {q : Launch → Bool} : Inv { s with launches := s.launches.filter q } :=
  h.setLaunches fun m hm => h.parts.launches m (List.mem_of_mem_filter hm)

/-! ### LAUNCH -/

theorem Inv.enterLaunch (h : Inv s) (hl : LaunchOk l) : Inv (enterLaunch s l) := by
  unfold Machine.enterLaunch
  extract_lets t others
  have ht : Inv t := h
  have hu : Inv { t with launches := others ++ [l] } := ht.setLaunches fun m hm => by
    rcases List.mem_append.mp hm with hm | hm
    · obtain ⟨q, hq, rfl⟩ := List.mem_map.mp hm
      have hq' : LaunchOk q := ht.parts.launches q (List.mem_of_mem_filter hq)
      split
      · exact hq'
      · exact hq'
    · rwa [List.mem_singleton.mp hm]
  exact hu

/-- A launch that has just been submitted keeps no team. -/
theorem launchOk_new {a : LaunchArgs} {i : Image} {old : List OldByte} : LaunchOk { newLaunch s src a i with oldCode := old } :=
  fun _ hv => by cases hv

theorem Inv.execLaunch (h : Inv s) {a : LaunchArgs} : OutOk (execLaunch src a s) := h.onPart fun p => by
  extract_lets id priv t
  have ht : Inv t := by
    unfold t
    split
    · exact h
    · exact h.updPart
  clear_value t
  split
  · exact h.reject
  · split
    · exact h.reject
    · split
      · exact ht.reject
      · split
        · exact ht.reject
        · extract_lets l
          split
          · exact ht.reject
          · exact ht.enterLaunch launchOk_new

/-! ### COPY -/

theorem Inv.copied (h : Inv s) {x : Xfer} : Inv (copied x s) := h.acquireWhere

theorem Inv.beforeCopy (h : Inv s) {x : Xfer} : Inv (beforeCopy s x) := by
  unfold Machine.beforeCopy
  split
  · exact h.acquireWhere
  · exact h

theorem Inv.runCopy (h : Inv s) {asid : Nat} {regs : List W64} : Inv (runCopy s src asid regs) := by
  unfold Machine.runCopy
  split
  · exact h.reject
  · extract_lets x t
    have ht : Inv t := h.beforeCopy
    clear_value t
    split
    · exact ht.landBytes.copied.checkInAll.finish
    · exact ht.landBytes.copied.checkInAll.complete

theorem Inv.execCopy (h : Inv s) {va : W64} {asid : BitVec 16} : OutOk (execCopy src va asid s) := h.onPart fun p => by
  extract_lets read size n
  split
  · exact h.reject
  · split
    · exact h.complete
    · split
      · exact h.complete
      · split
        · exact h.complete
        · exact h.runCopy

/-! ### MAP and UNMAP -/

theorem Inv.setSpace (h : Inv s) {sp : AddrSpace} : Inv (s.setSpace sp) := h

theorem Inv.dropTlb (h : Inv s) {asid lo hi : Nat} : Inv (dropTlb s asid lo hi) := h.mapCores fun co hc => by
  split
  · exact hc
  · exact hc

theorem Inv.performAt (h : Inv s) {q : Nat → Bool} : Inv (performAt s q) := h.flushThrough.acquireWhere

theorem Inv.waitCmd (h : Inv s) {part : Nat} {i : Instr} : Inv (waitCmd s src part i) := h

theorem Inv.mapPages (h : Inv s) {a : MapArgs} : Inv (mapPages src a s p) := by
  unfold Machine.mapPages
  extract_lets sz va len asid old sp sp'
  split
  · exact h.reject
  · split
    · exact h.reject
    · split
      · exact h.reject
      · split
        · exact h.reject
        · split
          · exact h.waitCmd
          · exact h.performAt.setSpace.dropTlb.finish

theorem Inv.execMap (h : Inv s) {a : MapArgs} : OutOk (execMap src a s) := h.onPart fun _ => h.mapPages

theorem Inv.unmapPages (h : Inv s) {va len : W64} {asid : BitVec 16} : Inv (unmapPages src va len asid s p) := by
  unfold Machine.unmapPages
  extract_lets lo hi n sp
  split
  · exact h.reject
  · split
    · exact h.reject
    · split
      · exact h.reject
      · split
        · exact h.waitCmd
        · exact h.performAt.setSpace.dropTlb.finish

theorem Inv.execUnmap (h : Inv s) {va len : W64} {asid : BitVec 16} : OutOk (execUnmap src va len asid s) := h.onPart fun _ => h.unmapPages

/-! ### POOLCFG -/

theorem Inv.flushRegion (h : Inv s) {r : Nat} : Inv (flushRegion s r) := h.checkInWhere

theorem Inv.calmRegion (h : Inv s) {n : Nat} : Inv (calmRegion s n) := h.performAt.flushRegion

theorem Inv.setRegions (h : Inv s) {rs : List Region} : Inv { s with regions := rs } := h

theorem Inv.poolMap (h : Inv s) {a : PoolArgs} : Inv (poolMap src a s) := by
  unfold Machine.poolMap
  extract_lets n
  split
  · exact h.reject
  · split
    · exact h.reject
    · split
      · exact h.waitCmd
      · exact h.calmRegion.setRegions.finish

theorem Inv.execPoolcfgMap (h : Inv s) {a : PoolArgs} : OutOk (execPoolcfgMap src a s) := h.poolMap

theorem Inv.poolUnmap (h : Inv s) {a : PoolArgs} : Inv (poolUnmap src a s) := by
  unfold Machine.poolUnmap
  extract_lets n
  split
  · exact h.reject
  · split
    · exact h.finish
    · split
      · exact h.waitCmd
      · exact h.calmRegion.dropCopies.setRegions.finish

theorem Inv.execPoolcfgUnmap (h : Inv s) {a : PoolArgs} : OutOk (execPoolcfgUnmap src a s) := h.poolUnmap

/-! ### PARTITION -/

theorem Inv.setParts (h : Inv s) {ps : List Partition} : Inv { s with parts := ps } := h

theorem Inv.execPartitionCreate (h : Inv s) {a : CreateArgs} : OutOk (execPartitionCreate src a s) := by
  unfold Machine.execPartitionCreate OutOk
  dsimp -zeta only
  split
  · exact h.reject
  · split
    · exact h.reject
    · split
      · exact h.reject
      · exact h.setPage.setParts.finish

theorem Inv.destroyPartition (h : Inv s) : Inv (destroyPartition s p) := by
  unfold Machine.destroyPartition
  extract_lets t mine myCore
  have ht : Inv t := h.foldl fun _ _ hu => hu.calmRegion.dropCopies
  clear_value t
  have hmem : Inv { t with mem := t.mem.filter fun c => !mine c.1 } := ht.setMem (Mem.wf_filter _ ht.parts.mem)
  have hcores := hmem.mapIndexedCores (f := fun c => if myCore c.1 then Core.idle else c.2) fun c hc => by
    split
    · exact coreOk_idle
    · exact hc
  exact (hcores.filterLaunches (q := fun l => l.part != p.id)).setPage (n := p.id) (g := Page.empty)

theorem Inv.execPartitionDestroy (h : Inv s) : OutOk (execPartitionDestroy src s) := h.onPart fun p => by
  split
  · exact h.reject
  · exact h.destroyPartition.finish

theorem Inv.setLimit (h : Inv s) {watts : Nat} (hw : 600 ≤ watts ∧ watts ≤ 2000) : Inv { s with powerLimit := watts } :=
  InvParts.inv { h.parts with limit := hw }

theorem Inv.execPartitionPower (h : Inv s) {watts : BitVec 16} : OutOk (execPartitionPower src watts s) := by
  unfold Machine.execPartitionPower OutOk
  dsimp only
  split
  · exact h.reject
  · rename_i hw
    rw [not_or, Nat.not_lt, Nat.not_lt] at hw
    have ht : Inv { s with powerLimit := watts.toNat, limitSet := true } := h.setLimit hw
    exact ht.finish

theorem Inv.execPartitionWatchdog (h : Inv s) {us : BitVec 32} : OutOk (execPartitionWatchdog src us s) :=
  h.onPart fun _ => h.updPart.finish

/-! ### PREEMPT and RESUME -/

theorem Inv.preemptOne (h : Inv s) : Inv (preemptOne s l) := by
  unfold Machine.preemptOne
  split
  · exact h.preemptLaunch
  · exact h.updLaunch fun _ hm => hm
  · exact h.updLaunch fun _ hm => hm
  · exact h

theorem Inv.checkInPart (h : Inv s) {part : Nat} : Inv (checkInPart s part) := h.checkInWhere

theorem Inv.addImage (h : Inv s) {m : FreezeImage} (hm : ImageOk m) : Inv { s with images := s.images ++ [m] } :=
  InvParts.inv { h.parts with
    images := fun q hq => (List.mem_append.mp hq).elim (h.parts.images q) fun hq => List.mem_singleton.mp hq ▸ hm }

theorem Inv.writeFreeze (h : Inv s) {c : PendingCmd} {kind : Nat} {addr size : W64} : Inv (writeFreeze s c kind addr size) := by
  unfold Machine.writeFreeze
  split
  · exact h.reject
  · extract_lets t need bytes image u v w
    have ht : Inv t := h.checkInPart
    have hm : ImageOk image :=
      ⟨Mem.wf_filter _ ht.parts.mem, fun m hm => ht.parts.launches m (List.mem_of_mem_filter hm)⟩
    clear_value image
    have hv : Inv v := ht.writePhys.updPart
    have hw : Inv w := hv.addImage hm
    clear_value w t
    split
    · exact ht.reject
    · split
      · exact hw.complete
      · exact hw.finish

theorem Inv.finishCmd (h : Inv s) {c : PendingCmd} : Inv (finishCmd s c) := by
  unfold Machine.finishCmd
  extract_lets t onPart
  have ht : Inv t := h.setCmds
  clear_value t
  have hon (f : Partition → State) (hf : ∀ p, Inv (f p)) : Inv (onPart f) := by
    unfold onPart
    split
    · exact hf _
    · exact ht.reject
  split
  · exact hon _ fun _ => ht.mapPages
  · exact hon _ fun _ => ht.unmapPages
  · exact ht.poolMap
  · exact ht.poolUnmap
  · split
    · exact ht.writeFreeze
    · split
      · exact ht.complete
      · exact ht.finish

theorem Inv.settleFirmware (h : Inv s) {part : Nat} : Inv (settleFirmware s part) := by
  unfold Machine.settleFirmware
  extract_lets t
  have ht : Inv t := h.foldl fun _ _ hu => hu.settlePreempted
  clear_value t
  refine Inv.foldl ht fun _ _ hu => ?_
  split
  · exact hu.finishCmd
  · exact hu

theorem Inv.execPreempt (h : Inv s) {id : W32} : OutOk (execPreempt src id s) := h.onPart fun p => by
  extract_lets ls t ids
  have ht : Inv t := h.foldl fun _ _ hu => hu.preemptOne
  clear_value t
  split
  · exact h.reject
  · split
    · exact h.reject
    · exact ht.setCmds.settleFirmware

theorem Inv.execDebugHalt (h : Inv s) {id : W32} : OutOk (execDebugHalt src id s) := h.onPart fun p => by
  extract_lets ls
  split
  · exact h.reject
  · refine Inv.finish (Inv.updPart ?_)
    exact h.foldl fun _ _ hu => hu.preemptOne

theorem Inv.resumeOne (h : Inv s) : Inv (resumeOne s l) := h.updLaunch fun m hm => by
  split
  · exact hm
  · exact hm
  · exact hm
  · exact hm

theorem Inv.releaseHalt (h : Inv s) {id : W32} : Inv (releaseHalt s p id) := by
  unfold Machine.releaseHalt
  extract_lets ls t
  have ht : Inv t := h.updPart
  clear_value t
  split
  · exact h
  · split
    · exact ht
    · exact ht.foldl fun _ _ hu => hu.resumeOne

theorem Inv.execResume (h : Inv s) {id : W32} : OutOk (execResume src id s) := h.onPart fun _ => h.releaseHalt.finish

theorem Inv.enterHalt (h : Inv s) {c k : Nat} : Inv (enterHalt s c k) := by
  unfold Machine.enterHalt
  extract_lets x
  split
  · exact h
  · exact h.takeTrap

theorem Inv.execResumeEnter (h : Inv s) {id : W32} {cluster : BitVec 16} {team : BitVec 8} :
    OutOk (execResumeEnter src id cluster team s) := h.onPart fun p => by
  refine Inv.finish (Inv.foldl h.releaseHalt fun _ _ ht => ht.foldl fun _ _ hu => ?_)
  split
  · exact hu.enterHalt
  · exact hu

/-! ### FREEZE and THAW -/

theorem Inv.execFreeze (h : Inv s) {target : BitVec 8} {addr size : W64} : OutOk (execFreeze src target addr size s) := h.onPart fun p => by
  extract_lets ls t ids
  have ht : Inv t := by
    refine Inv.updPart ?_
    exact h.foldl fun _ _ hu => hu.preemptOne
  clear_value t
  split
  · exact h.reject
  · split
    · exact h.reject
    · split
      · exact h.reject
      · exact ht.setCmds.settleFirmware

theorem imageAt_mem {kind addr : Nat} {m : FreezeImage} (h : imageAt s kind addr = some m) : m ∈ s.images := by
  unfold imageAt at h
  extract_lets here at h
  split at h
  · exact List.mem_of_find?_eq_some h
  · cases h

theorem LaunchOk.thaw (hl : LaunchOk l) {a b : Partition} : LaunchOk (l.thaw s a b) := fun v hv => by
  obtain ⟨q, hq, rfl⟩ := List.mem_map.mp hv
  exact hl q hq

theorem Inv.thawInto (h : Inv s) {m : FreezeImage} (hm : ImageOk m) {spaces : List AddrSpace} : Inv (thawInto s p m spaces) := by
  obtain ⟨-, hml⟩ := hm
  unfold Machine.thawInto
  extract_lets leaves mapped cells t u v
  have hmem : Inv { s with mem := Mem.writeCells (s.mem.filter fun c => !mapped c.1) cells } :=
    h.setMem (Mem.wf_writeCells _ (Mem.wf_filter _ h.parts.mem))
  have ht : Inv t := hmem.setLaunches fun q hq => by
    rcases List.mem_append.mp hq with hq | hq
    · exact h.parts.launches q (List.mem_of_mem_filter hq)
    · obtain ⟨r, hr, rfl⟩ := List.mem_map.mp hq
      exact LaunchOk.thaw (hml r hr)
  clear_value t
  exact ht.forgetLate.updPart.updPart

theorem Inv.execThaw (h : Inv s) {kind : BitVec 8} {addr : W64} : OutOk (execThaw src kind addr s) := h.onPart fun p => by
  split
  · exact h.reject
  · split
    · exact h.reject
    · split
      · exact h.reject
      · rename_i m hm
        split
        · exact h.reject
        · split
          · exact h.reject
          · exact (h.thawInto (h.parts.images m (imageAt_mem hm))).finish

/-! ### QUERY and ATTEST -/

theorem Inv.report (h : Inv s) {buf : W64} {bytes : List Byte} : Inv (report s src buf bytes) := by
  unfold Machine.report
  split
  · exact h.reject
  · split
    · exact h.reject
    · exact h.storeBytes.finish

theorem Inv.execQueryFeatures (h : Inv s) {buf : W64} : OutOk (execQueryFeatures src buf s) := h.onPart fun _ => h.report

theorem Inv.execQueryStatus (h : Inv s) {buf : W64} : OutOk (execQueryStatus src buf s) := h.onPart fun _ => h.report

theorem Inv.execAttest (h : Inv s) {nonce : BitVec 256} {buf : W64} : OutOk (execAttest src nonce buf s) := h.onPart fun _ => h.report

/-! ### RESET -/

theorem Inv.resetPart (h : Inv s) : Inv (resetPart s p) := by
  unfold Machine.resetPart
  extract_lets t u
  have ht : Inv t := h.endPartitionWork
  clear_value t
  have hu : Inv u := ht.foldl fun _ _ hv => hv.setCmds.complete
  clear_value u
  exact (hu.filterLaunches (q := fun l => l.part != p.id)).updPart

theorem Inv.execResetPartition (h : Inv s) : OutOk (execResetPartition src s) := h.onPart fun _ => h.resetPart.finish

theorem Inv.execResetModule (h : Inv s) : OutOk (execResetModule src s) := h.onPart fun p => by
  extract_lets t
  have ht : Inv t := h.foldl fun _ _ hu => hu.resetPart.destroyPartition
  clear_value t
  have hl : Inv { t with powerLimit := 2000, stopped := false, boot := { t.boot with thermal := false } } :=
    ht.setLimit ⟨by decide, by decide⟩
  exact hl.finish

/-! ### Firmware's own steps -/

theorem Inv.execLaunchPlace (h : Inv s) {part : Nat} : OutOk (execLaunchPlace part s) := by
  unfold Machine.execLaunchPlace OutOk
  extract_lets t
  have ht : Inv t := h.settleFirmware
  clear_value t
  dsimp only
  split
  · exact ht
  · split
    · exact ht
    · exact ht.placeLoop

theorem Inv.performExits (h : Inv s) {part : Nat} {id : W32} : Inv (performExits s part id) := h.acquire

theorem Inv.execLaunchComplete (h : Inv s) {part : Nat} {id : W32} : OutOk (execLaunchComplete part id s) := by
  unfold Machine.execLaunchComplete OutOk
  dsimp only
  split
  · exact h
  · split
    · exact h
    · exact h.performExits.writeRecord.updLaunch fun _ hl => hl

end

end Sys2Proof.Claims
end

