-- ==== Sys2Proof/Proofs/KeepsStep.lean ====
section
/-! Every step keeps the invariant: power, heat and bring-up, the turns of the agenda, each instruction's meaning, and O59. -/

namespace Sys2Proof.Claims

open Machine

section
variable {s t : State} {c k deck die temp : Nat}

/-! ### Power and heat (01 R25-R27) -/

theorem Inv.setClock (h : Inv s) {mhz : Nat} (hm : 1000 ≤ mhz ∧ mhz ≤ 3000) : Inv { s with coreClock := mhz } :=
  InvParts.inv { h.parts with clock := hm }

theorem clockDown_range {mhz : Nat} (h : 1000 ≤ mhz ∧ mhz ≤ 3000) : 1000 ≤ clockDown mhz ∧ clockDown mhz ≤ 3000 :=
  ⟨Nat.le_max_left _ _, Nat.max_le.mpr ⟨by decide, (Nat.sub_le _ _).trans h.2⟩⟩

theorem clockCap_range (s : State) : 1000 ≤ clockCap s ∧ clockCap s ≤ 3000 := by
  unfold clockCap
  split <;> decide

theorem clockUp_range (h : 1000 ≤ s.coreClock) : 1000 ≤ clockUp s ∧ clockUp s ≤ 3000 := by
  obtain ⟨hlow, hhigh⟩ := clockCap_range s
  exact ⟨Nat.le_min.mpr ⟨hlow, h.trans (Nat.le_add_right _ _)⟩, (Nat.min_le_left _ _).trans hhigh⟩

theorem sampleClock_range (h : 1000 ≤ s.coreClock ∧ s.coreClock ≤ 3000) (watts : Nat) :
    1000 ≤ sampleClock s watts ∧ sampleClock s watts ≤ 3000 := by
  unfold sampleClock
  split
  · exact h
  · split
    · exact clockDown_range h
    · split
      · exact clockUp_range h.1
      · exact h

theorem Inv.powerRecords (h : Inv s) {result : W64} : Inv (powerRecords s result) := h.foldl fun _ _ ht => ht.unsolicited

theorem Inv.powerResume (h : Inv s) : Inv (powerResume s) := by
  have ht : Inv { s with stopped := false, coreClock := 1000, meanAbove := 0, meanBelow := 0 } := h.setClock ⟨by decide, by decide⟩
  exact ht.powerRecords

theorem Inv.execPowerSample (h : Inv s) {watts : Nat} : OutOk (execPowerSample watts s) := by
  unfold Machine.execPowerSample OutOk
  extract_lets t
  have ht : Inv t := h.setClock (sampleClock_range h.parts.clock watts)
  clear_value t
  dsimp only
  split
  · exact h
  · split
    · exact ht.powerResume
    · exact ht

theorem Inv.execPowerLimitStop (h : Inv s) : OutOk (execPowerLimitStop s) := by
  unfold Machine.execPowerLimitStop OutOk
  dsimp only
  split
  · exact h
  · refine Inv.powerRecords ?_
    exact h

theorem Inv.execPowerLimitResume (h : Inv s) : OutOk (execPowerLimitResume s) := by
  unfold Machine.execPowerLimitResume OutOk
  dsimp only
  split
  · exact h
  · exact h.powerResume

theorem Inv.execThermalThrottle (h : Inv s) : OutOk (execThermalThrottle die temp s) := by
  unfold Machine.execThermalThrottle OutOk
  dsimp only
  split
  · exact h
  · have hm : 1000 ≤ (if 100 ≤ temp && firmwareUp s && !s.stopped then clockDown s.coreClock else s.coreClock) ∧
        (if 100 ≤ temp && firmwareUp s && !s.stopped then clockDown s.coreClock else s.coreClock) ≤ 3000 := by
      split
      · exact clockDown_range h.parts.clock
      · exact h.parts.clock
    exact h.setClock hm

/-- A trip leaves the state of reset, with host memory, pool devices and images as they were (01 R27). -/
theorem Inv.execThermalTrip (h : Inv s) : OutOk (execThermalTrip die temp s) := by
  unfold Machine.execThermalTrip OutOk
  dsimp only
  split
  · exact h
  · exact InvParts.inv { inv_reset.parts with host := h.parts.host, poolDev := h.parts.poolDev, images := h.parts.images }

/-! ### Bring-up (11 R335) -/

theorem Inv.setBoot (h : Inv s) {b : Boot} : Inv { s with boot := b } := h

theorem Inv.execHostRestart (h : Inv s) : OutOk (execHostRestart s) := by
  unfold Machine.execHostRestart OutOk
  dsimp only
  split
  · exact h.setBoot
  · exact h

theorem Inv.execPowerOn (h : Inv s) {ok : Bool} : OutOk (execPowerOn ok s) := by
  unfold Machine.execPowerOn OutOk
  dsimp only
  split
  · exact h
  · split
    · exact h.setBoot
    · exact h.setBoot

theorem Inv.fullService (h : Inv s) : Inv (fullService s) := by
  unfold Machine.fullService
  split
  · have hm : 1000 ≤ (if s.coreClock < 1500 || s.stopped || hot s then s.coreClock else 3000) ∧
        (if s.coreClock < 1500 || s.stopped || hot s then s.coreClock else 3000) ≤ 3000 := by
      split
      · exact h.parts.clock
      · decide
    exact h.setClock hm
  · exact h

theorem Inv.execDeckTrainingComplete (h : Inv s) : OutOk (execDeckTrainingComplete deck s) := by
  unfold Machine.execDeckTrainingComplete OutOk
  dsimp only
  split
  · exact h
  · exact h.setBoot.fullService

theorem Inv.execDeckTrainingFailed (h : Inv s) : OutOk (execDeckTrainingFailed deck s) := by
  unfold Machine.execDeckTrainingFailed OutOk
  dsimp only
  split
  · exact h
  · exact h.setBoot

theorem Inv.execSecondTierOrPoolPortTrained (h : Inv s) {what : Trained} : OutOk (execSecondTierOrPoolPortTrained what s) := by
  unfold Machine.execSecondTierOrPoolPortTrained OutOk
  dsimp only
  split
  · exact h
  · split
    · exact h.setBoot.fullService
    · split
      · exact h
      · refine Inv.fullService ?_
        exact h

theorem Inv.execBar0OtherWrite (h : Inv s) {page off : Nat} {v : W64} : OutOk (execBar0OtherWrite page off v s) := h

/-! ### Turns -/

theorem Inv.ctrlFetchFault (h : Inv s) {x : Ctx} {f : AFault} : Inv (ctrlFetchFault s x f) := h.ctrlTrap

theorem Inv.setFetch (h : Inv s) {n : Nat} : Inv (s.updCore c fun co => { co with lastFetch := n }) := h.updCore fun hc => hc

theorem Inv.ctrlTurn (h : Inv s) : MoveOk (ctrlTurn s c) := by
  unfold Machine.ctrlTurn
  split
  · exact h
  · extract_lets u t x
    have ht : Inv t := h.setFetch.setCur
    clear_value t
    split
    · exact ht
    · exact ht.ctrlFetchFault

theorem Inv.hostWrite (h : Inv s) {addr : Nat} {bytes : List Byte} : Inv (hostWrite s addr bytes) := by
  have ht : Inv { Machine.keepCode s (hostBase + addr) bytes.length with host := s.host.writeBytes addr bytes } :=
    h.keepCode.setHost (Mem.wf_writeBytes _ _ h.parts.host)
  exact ht.setPoison

theorem Inv.cleanDevice (h : Inv s) {addr n : Nat} : Inv (cleanDevice s addr n) := h

theorem Inv.poolWrite (h : Inv s) {addr : Nat} {bytes : List Byte} : Inv (poolWrite s addr bytes) := by
  have ht : Inv { Machine.keepCode s addr bytes.length with poolDev := s.poolDev.writeBytes addr bytes } :=
    h.keepCode.setPoolDev (Mem.wf_writeBytes _ _ h.parts.poolDev)
  exact ht.cleanDevice.forgetLate

theorem Inv.tick (h : Inv s) {ns : Nat} : Inv (tick s ns) := by
  unfold Machine.tick
  split
  · exact h
  · exact h

theorem Inv.drainOne (h : Inv s) {g : Option Nat} {host : Bool} : Inv (drainOne s c k g host) := by
  unfold Machine.drainOne
  extract_lets me
  split
  · exact h
  · rename_i j q _
    have ht : Inv { s with queue := s.queue.eraseIdx j } := h
    dsimp only
    split
    · exact h
    · exact ht.leave

theorem Inv.turnMove (h : Inv s) (t : Turn) : MoveOk (turnMove s t) := by
  cases t with
  | control => exact h.ctrlTurn
  | lane => exact h.laneMove
  | event i =>
    unfold Machine.turnMove
    dsimp only
    split
    · exact h
    · exact h
  | tick => exact h.tick
  | hostWrite => exact h.hostWrite
  | poolWrite => exact h.poolWrite
  | drain => exact h.drainOne
  | perform => exact h.showWrite
  | reload => exact h.reloadCtrl
  | checkIn => exact h.makeRoom

theorem Inv.tookTurn (h : Inv s) {rest : List Turn} : Inv (s.tookTurn rest) := h

end

/-! ### The step -/

/-- Every instruction's meaning keeps the invariant. -/
theorem Inv.exec {s : State} (h : Inv s) (i : Instr) : OutOk (exec i s) := by
  cases i <;> dsimp only [Machine.exec]
  case add | sub | mul | mulh | div | rem | and | or | xor | shl | shr | sra | slt | min | max => exact h.aluRR
  case shlImm | shrImm | sraImm | addi | andi | ori | xori | sltImm => exact h.aluRI
  case lui | auipc => exact h.aluK
  case ld | ldk => exact h.loadCtrl
  case amoAdd | amoAnd | amoOr | amoXor | amoSwap | amoCas | amoMin | amoMax => exact h.amoCtrl
  case beq | bne | blt | bge | bltN | bgeN => exact h.branch
  case mand | mor | mxor | mandn | mnot | mmov => exact h.maskOp
  case mcnt | mfirst | mwordR => exact h.maskToS
  case vadd | vsub | vmul | vmulh | vmad | vand | vor | vxor | vandn | vshl | vshr | vsra | vmin | vmax | vsel | vmov =>
    exact h.word fun _ _ => entryOk_int _
  case vabs | vneg | vclz | vpopc => exact h.word fun _ _ => entryOk_un _
  case vbfx | vbfi => exact h.word fun _ _ => entryOk_element
  case vcmp | fcmp => exact h.word fun _ _ => entryOk_cmp
  case fadd | fsub | fmul | ffma | fmin | fmax => exact h.word fun _ _ => entryOk_fp _
  case fabs | fneg => exact h.word fun _ _ => entryOk_sign
  case frcp | frsq | fexp2 | flog2 => exact h.word fun _ _ => entryOk_trans _
  case fcvt => exact h.word fun _ _ => entryOk_fcvt
  case lcvt => exact h.word fun _ _ => entryOk_lcvt
  case gadd | gsub | gand | gor | gxor | gandn | gshl | gshr | gmov | gpopc | gfirst => exact h.word fun _ _ => entryOk_g _
  case vred | vscan => exact h.word fun _ _ => entryOk_red
  case vld | vldk => exact h.word fun _ _ => entryOk_load
  case vlds => exact h.word fun _ _ => entryOk_vlds
  case vsts => exact h.word fun _ _ => entryOk_vsts
  case acvt => exact h.word fun _ _ => entryOk_acvt
  case st => exact h.execSt
  case fence => exact h.execFence
  case xfence => exact h.execXfence
  case jal => exact h.execJal
  case jalr => exact h.execJalr
  case cloop => exact h.execCloop
  case bmask => exact h.execBmask
  case mwordW => exact h.execMwordW
  case emit => exact h.execEmit
  case rpop => exact h.execRpop
  case divg => exact h.execDivg
  case regroup => exact h.execRegroup
  case rotb => exact h.execRotb
  case ewr => exact h.execEwr
  case erd => exact h.execErd
  case ecommit => exact h.execEcommit
  case cwait => exact h.execCwait
  case jwait => exact h.execJwait
  case crd => exact h.execCrd
  case cwr => exact h.execCwr
  case trap => exact h.execTrap
  case vnop => exact h.execVnop
  case gld => exact h.execGld
  case exmset => exact h.execExmset
  case pret => exact h.execPret
  case vote => exact h.execVote
  case vshfl => exact h.execVshfl
  case vbcast => exact h.execVbcast
  case laneid => exact h.execLaneid
  case vst => exact h.execVst
  case vldx => exact h.execVldx
  case vatom => exact h.execVatom
  case vatoms => exact h.execVatoms
  case vfence => exact h.execVfence
  case vxfence => exact h.execVxfence
  case qpop => exact h.execQpop
  case qpush => exact h.execQpush
  case spawn => exact h.execSpawn
  case spflush => exact h.execSpflush
  case mmodeT => exact h.execMmodeT
  case mmodeV => exact h.execMmodeV
  case mloop => exact h.execMloop
  case mwait => exact h.execMwait
  case mzero => exact h.execMzero
  case sunf => exact h.execSunf
  case tshape => exact h.execTshape
  case sfmt => exact h.execSfmt
  case xpat => exact h.execXpat
  case srd => exact h.execSrd
  case swr => exact h.execSwr
  case vbrk => exact h.execVbrk
  case vtrap => exact h.execVtrap
  case paired => exact h.execPaired
  case launch => exact h.execLaunch
  case copy => exact h.execCopy
  case map => exact h.execMap
  case unmap => exact h.execUnmap
  case partitionCreate => exact h.execPartitionCreate
  case partitionDestroy => exact h.execPartitionDestroy
  case partitionPower => exact h.execPartitionPower
  case partitionWatchdog => exact h.execPartitionWatchdog
  case preempt => exact h.execPreempt
  case debugHalt => exact h.execDebugHalt
  case resume => exact h.execResume
  case resumeEnter => exact h.execResumeEnter
  case freeze => exact h.execFreeze
  case thaw => exact h.execThaw
  case queryFeatures => exact h.execQueryFeatures
  case queryStatus => exact h.execQueryStatus
  case attest => exact h.execAttest
  case poolcfgMap => exact h.execPoolcfgMap
  case poolcfgUnmap => exact h.execPoolcfgUnmap
  case resetPartition => exact h.execResetPartition
  case resetModule => exact h.execResetModule
  case notify => exact h.execNotify
  case evcons => exact h.execEvcons
  case mrtable => exact h.execMrtable
  case bar0OtherWrite => exact h.execBar0OtherWrite
  case engineRetry => exact h.execEngineRetry
  case engineSkip => exact h.execEngineSkip
  case frdataRead => exact h.execFrdataRead
  case blockFetch => exact h.execBlockFetch
  case tagMismatch => exact h.execTagMismatch
  case coalescingDelayExpiry => exact h.execCoalescingDelayExpiry
  case powerSample => exact h.execPowerSample
  case thermalThrottle => exact h.execThermalThrottle
  case thermalTrip => exact h.execThermalTrip
  case powerOn => exact h.execPowerOn
  case deckTrainingComplete => exact h.execDeckTrainingComplete
  case deckTrainingFailed => exact h.execDeckTrainingFailed
  case launchPlace => exact h.execLaunchPlace
  case launchComplete => exact h.execLaunchComplete
  case descriptorVisible => exact h.execDescriptorVisible
  case barrierRelease => exact h.execBarrierRelease
  case stalledEmitRetire => exact h.execStalledEmitRetire
  case returnReady => exact h.execReturnReady
  case varResultWritten => exact h.execVarResultWritten
  case tlbWalkComplete => exact h.execTlbWalkComplete
  case qpopTake => exact h.execQpopTake
  case qpushEnter => exact h.execQpushEnter
  case remoteScratchpadAccess => exact h.execRemoteScratchpadAccess
  case remoteStoreAck => exact h.execRemoteStoreAck
  case fenceWorkDone => exact h.execFenceWorkDone
  case ifenceComplete => exact h.execIfenceComplete
  case ktrigComplete => exact h.execKtrigComplete
  case kwaitSatisfied => exact h.execKwaitSatisfied
  case jwaitZero => exact h.execJwaitZero
  case exitComplete => exact h.execExitComplete
  case regroupMigration => exact h.execRegroupMigration
  case spawnRecordsAccepted => exact h.execSpawnRecordsAccepted
  case spillWriteComplete => exact h.execSpillWriteComplete
  case gathererRefill => exact h.execGathererRefill
  case gathererIdleTimeout => exact h.execGathererIdleTimeout
  case childTeamStart => exact h.execChildTeamStart
  case transferStart => exact h.execTransferStart
  case lineLanded => exact h.execLineLanded
  case transferComplete => exact h.execTransferComplete
  case transferHalt => exact h.execTransferHalt
  case matrixLoopStep => exact h.execMatrixLoopStep
  case matrixLoopComplete => exact h.execMatrixLoopComplete
  case routineEntry => exact h.execRoutineEntry
  case watchdog => exact h.execWatchdog
  case bisnpReceived => exact h.execBisnpReceived
  case poolLinkDown => exact h.execPoolLinkDown
  case poolRequestTimeout => exact h.execPoolRequestTimeout
  case poolIdeFailure => exact h.execPoolIdeFailure
  case uncorrectableError => exact h.execUncorrectableError
  case cillop => exact h.execCillop
  case cresfield => exact h.execCresfield
  case illop => exact h.execIllop
  case secondTierOrPoolPortTrained => exact h.execSecondTierOrPoolPortTrained
  case nop => exact h.execNop
  case ifence => exact h.execIfence
  case elseM => exact h.execElseM
  case recon => exact h.execRecon
  case ktrig => exact h.execKtrig
  case kwait => exact h.execKwait
  case eret => exact h.execEret
  case exit => exact h.execExit
  case brk => exact h.execBrk
  case powerLimitStop => exact h.execPowerLimitStop
  case powerLimitResume => exact h.execPowerLimitResume
  case hostRestart => exact h.execHostRestart
  case singleBitError => exact h.execSingleBitError

theorem MoveOk.outcome {m : Move} (h : MoveOk m) : OutOk m.outcome := by
  cases m with
  | idle => exact h
  | run s i => exact Inv.exec h i

theorem Inv.step {s : State} (h : Inv s) : OutOk (step s) := by
  unfold Machine.step
  split
  · exact h
  · exact (h.tookTurn.turnMove _).outcome

/-- Settles O59: each turn of the agenda, and each instruction's meaning, keeps the invariant part by part. -/
theorem stepKeepsInvariant : Obligations.StepKeepsInvariant := by
  intro s t h ht
  have hs : OutOk (Machine.step s) := h.step
  rw [ht] at hs
  exact hs

end Sys2Proof.Claims
end

