-- ==== Sys2Proof/Proofs/ScalarFrame.lean ====
section
/-! O2 and O5: the scalar register file, and what the plain control words leave alone (02 R42, 03 R78-R81, 12 R342-R348, 13 R371,
R380, R381). -/

namespace Sys2Proof.Claims

open Machine

section
variable {x y : Ctx} {d r : BitVec 5} {v : W64} {t : Bool}

/-! ### The register written -/

theorem Ctx.rd_wr_self (hd : d ≠ 0) (hs : x.s.length = 32) : (x.wr d v t).rd d = v := by
  have hl : d.toNat < x.s.length := hs ▸ d.isLt
  simp_all [Ctx.wr, Ctx.rd, List.getD]

theorem Ctx.taint_wr_self (hd : d ≠ 0) : (x.wr d v t).taint d = t := by
  simp_all [Ctx.wr, Ctx.taint, getLsbD_putBit _ _ _ _ d.isLt]

theorem Ctx.poison_wr_self (hd : d ≠ 0) (hp : x.spoison.length = 32) : (x.wr d v t).poison d = none := by
  have hl : d.toNat < x.spoison.length := hp ▸ d.isLt
  simp_all [Ctx.wr, Ctx.poison, List.getD]

/-- Settles O2: the register written, the others and s0, one lemma for each thing read. -/
theorem scalarRegisterWrites : Obligations.ScalarRegisterWrites := by
  intro x d r v t hs hp
  refine ⟨by simp [Ctx.rd], ?_, ?_, Ctx.wr_zero x v t⟩
  · rintro rfl hd
    exact ⟨Ctx.rd_wr_self hd hs, Ctx.taint_wr_self hd, Ctx.poison_wr_self hd hp⟩
  · intro h
    exact ⟨Ctx.rd_wr_other x v t h, Ctx.taint_wr_other x v t h, Ctx.poison_wr_other x v t h⟩

/-! ### What a plain control word writes -/

/-- y is x but for its pc and wait, and for what `plainWrites` lists: the scalar registers `ds`, the mask registers `dm`, the team
active mask where `act`, the rotation base where `rot`. -/
structure PlainFrame (ds : List (BitVec 5)) (dm : List (BitVec 4)) (act rot : Bool) (x y : Ctx) : Prop where
  ctx : y = { x with s := y.s, staint := y.staint, spoison := y.spoison, strm := y.strm, pc := y.pc, wait := y.wait, recent := y.recent }
  regs : ∀ r, r ∉ ds → y.rd r = x.rd r ∧ y.taint r = x.taint r ∧ y.poison r = x.poison r
  strm : y.strm = { x.strm with masks := y.strm.masks, mpoison := y.strm.mpoison, active := y.strm.active, rotb := y.strm.rotb }
  masks : ∀ m, m ∉ dm → y.mask m = x.mask m ∧ y.strm.mpoison.getLsbD m.toNat = x.strm.mpoison.getLsbD m.toNat
  active : act = false → y.strm.active = x.strm.active
  rotb : rot = false → y.strm.rotb = x.strm.rotb

variable {ds : List (BitVec 5)} {dm : List (BitVec 4)} {act rot : Bool}

theorem PlainFrame.refl (x : Ctx) : PlainFrame ds dm act rot x x :=
  ⟨rfl, fun _ _ => ⟨rfl, rfl, rfl⟩, rfl, fun _ _ => ⟨rfl, rfl⟩, fun _ => rfl, fun _ => rfl⟩

theorem PlainFrame.wr (h : PlainFrame ds dm act rot x y) (hd : d ∈ ds) : PlainFrame ds dm act rot x (y.wr d v t) where
  ctx := by
    unfold Ctx.wr
    split
    · exact h.ctx
    · rw [h.ctx]
  regs r hr := by
    have hn : r ≠ d := fun e => hr (e ▸ hd)
    rw [Ctx.rd_wr_other y v t hn, Ctx.taint_wr_other y v t hn, Ctx.poison_wr_other y v t hn]
    exact h.regs r hr
  strm := by simpa using h.strm
  masks m hm := by simpa [Ctx.mask] using h.masks m hm
  active ha := by simpa using h.active ha
  rotb hr := by simpa using h.rotb hr

/-- A write of word m[d] that leaves the poison of the other mask registers alone. -/
theorem PlainFrame.setMask (h : PlainFrame ds dm act rot x y) {d : BitVec 4} (hd : d ∈ dm) {w : Mask} {p : BitVec 16}
    (hp : ∀ m : BitVec 4, m ≠ d → p.getLsbD m.toNat = y.strm.mpoison.getLsbD m.toNat) :
    PlainFrame ds dm act rot x { y with strm := { y.strm with masks := y.strm.masks.set d.toNat w, mpoison := p } } where
  ctx := by rw [h.ctx]
  regs := h.regs
  strm := by rw [h.strm]
  masks m hm := by
    have hn : m ≠ d := fun e => hm (e ▸ hd)
    have ht : d.toNat ≠ m.toNat := fun e => hn (BitVec.eq_of_toNat_eq e.symm)
    refine ⟨?_, (hp m hn).trans (h.masks m hm).2⟩
    rw [← (h.masks m hm).1]
    simp [Ctx.mask, List.getD, List.getElem?_set_ne ht]
  active := h.active
  rotb := h.rotb

theorem PlainFrame.wrMask (h : PlainFrame ds dm act rot x y) {d : BitVec 4} (hd : d ∈ dm) {w : Mask} :
    PlainFrame ds dm act rot x (y.wrMask d w) :=
  h.setMask hd fun m hm => by
    have ht : m.toNat ≠ d.toNat := fun e => hm (BitVec.eq_of_toNat_eq e)
    simp [getLsbD_putBit _ _ _ _ d.isLt, ht]

theorem PlainFrame.setActive (h : PlainFrame ds dm true rot x y) {m : Mask} :
    PlainFrame ds dm true rot x { y with strm := { y.strm with active := m } } :=
  ⟨by rw [h.ctx], h.regs, by rw [h.strm], h.masks, (nomatch ·), h.rotb⟩

theorem PlainFrame.setRotb (h : PlainFrame ds dm act true x y) {b : BitVec 6} :
    PlainFrame ds dm act true x { y with strm := { y.strm with rotb := b } } :=
  ⟨by rw [h.ctx], h.regs, by rw [h.strm], h.masks, h.active, (nomatch ·)⟩

theorem PlainFrame.jump (h : PlainFrame ds dm act rot x y) {pc : W64} : PlainFrame ds dm act rot x (y.jump pc) :=
  ⟨by rw [Ctx.jump, h.ctx], h.regs, h.strm, h.masks, h.active, h.rotb⟩

end

/-! ### The words, by the shape of their meaning -/

/-- A meaning goes on with a context of that frame, whose word has retired. -/
def PlainEffect (s : State) (x : Ctx) (ds : List (BitVec 5)) (dm : List (BitVec 4)) (act rot : Bool) (o : Out) : Prop :=
  ∃ y pc, o = .next (s.setMe (y.jump pc)) ∧ PlainFrame ds dm act rot x y

section
variable {s : State} {x : Ctx} {d a b : BitVec 5} {m : BitVec 4} {ms : List (BitVec 4)}

theorem aluRR_plain {f : W64 → W64 → W64} (h : Acts s x [a, b] []) : PlainEffect s x [d] [] false false (aluRR s d a b f) :=
  ⟨_, _, reading_clean _ h.1 h.2.1, (PlainFrame.refl x).wr (by simp)⟩

theorem aluRI_plain {f : W64 → W64} (h : Acts s x [a] []) : PlainEffect s x [d] [] false false (aluRI s d a f) :=
  ⟨_, _, reading_clean _ h.1 h.2.1, (PlainFrame.refl x).wr (by simp)⟩

theorem aluK_plain {f : Ctx → W64} (h : Acts s x [] []) : PlainEffect s x [d] [] false false (aluK s d f) :=
  ⟨_, _, onCtx_some _ h.1, (PlainFrame.refl x).wr (by simp)⟩

theorem execNop_plain (h : Acts s x [] []) : PlainEffect s x [] [] false false (execNop s) :=
  ⟨_, _, onCtx_some _ h.1, PlainFrame.refl x⟩

theorem execJal_plain {o : BitVec 21} (h : Acts s x [] []) : PlainEffect s x [d] [] false false (execJal d o s) :=
  ⟨_, _, onCtx_some _ h.1, (PlainFrame.refl x).wr (by simp)⟩

theorem execJalr_plain {o : BitVec 16} (h : Acts s x [a] []) : PlainEffect s x [d] [] false false (execJalr d a o s) :=
  ⟨_, _, reading_clean _ h.1 h.2.1, (PlainFrame.refl x).wr (by simp)⟩

theorem branch_plain {o : BitVec 16} {c : W64 → W64 → Bool} (h : Acts s x [a, b] []) :
    PlainEffect s x [] [] false false (branch s a b o c) := by
  refine ⟨x, if c (x.rd a) (x.rd b) then x.pc + o.signExtend 64 else x.pc + 1, ?_, PlainFrame.refl x⟩
  rw [branch, reading_clean _ h.1 h.2.1]
  split <;> rfl

theorem execCloop_plain {o : BitVec 16} (h : Acts s x [a] []) : PlainEffect s x [a] [] false true (execCloop a o s) := by
  refine ⟨{ x.wr a (x.rd a - 1) (x.taint a) with strm := { (x.wr a (x.rd a - 1) (x.taint a)).strm with rotb := x.strm.rotb - 1 } },
    if x.rd a - 1 != 0 then x.pc + o.signExtend 64 else x.pc + 1, ?_, ((PlainFrame.refl x).wr (by simp)).setRotb⟩
  rw [execCloop, reading_clean _ h.1 h.2.1]
  split <;> simp_all [Ctx.step1]

theorem execRotb_plain {o : BitVec 16} (h : Acts s x [a] []) : PlainEffect s x [d] [] false true (execRotb d a o s) := by
  refine ⟨{ x.wr d (x.strm.rotb.zeroExtend 64) false with
    strm := { (x.wr d (x.strm.rotb.zeroExtend 64) false).strm with rotb := fld (x.rd a + o.signExtend 64) 0 6 } },
    x.pc + 1, ?_, ((PlainFrame.refl x).wr (by simp)).setRotb⟩
  rw [execRotb, reading_clean _ h.1 h.2.1]
  simp [Ctx.step1]

theorem execBmask_plain {o : BitVec 16} (h : Acts s x [] [m]) : PlainEffect s x [] [] true false (execBmask m o s) := by
  refine ⟨{ x with strm := { x.strm with active := x.strm.active &&& x.mask m } },
    if x.strm.active &&& x.mask m != 0 then x.pc + o.signExtend 64 else x.pc + 1, ?_, (PlainFrame.refl x).setActive⟩
  rw [execBmask, readingM_clean _ h.1 h.2.1 h.2.2]
  split <;> simp_all [Ctx.step1]

theorem maskOp_plain {f : Ctx → Mask} (h : Acts s x [] ms) : PlainEffect s x [] [m] false false (maskOp s m ms f) :=
  ⟨_, _, readingM_clean _ h.1 h.2.1 h.2.2, (PlainFrame.refl x).wrMask (by simp)⟩

theorem maskToS_plain {f : Mask → W64} (h : Acts s x [] [m]) : PlainEffect s x [d] [] false false (maskToS s d m f) :=
  ⟨_, _, readingM_clean _ h.1 h.2.1 h.2.2, (PlainFrame.refl x).wr (by simp)⟩

theorem execMwordW_plain {w : BitVec 5} (h : Acts s x [a] []) : PlainEffect s x [] [m] false false (execMwordW m a w s) :=
  ⟨_, _, reading_clean _ h.1 h.2.1, (PlainFrame.refl x).setMask (by simp) fun _ _ => rfl⟩

end

theorem exec_plain {i : Instr} {s : State} {x : Ctx} {ds : List (BitVec 5)} {dm : List (BitVec 4)} {act rot : Bool}
    (hw : plainWrites i = some (ds, dm, act, rot)) (h : Acts s x (plainReads i x).1 (plainReads i x).2) :
    PlainEffect s x ds dm act rot (exec i s) := by
  cases i
  case add | sub | mul | mulh | div | rem | and | or | xor | shl | shr | sra | slt | min | max =>
    cases hw
    simp only [exec]
    exact aluRR_plain h
  case shlImm | shrImm | sraImm | addi | andi | ori | xori | sltImm =>
    cases hw
    simp only [exec]
    exact aluRI_plain h
  case lui | auipc => cases hw; simp only [exec]; exact aluK_plain h
  case nop => cases hw; simp only [exec]; exact execNop_plain h
  case jal => cases hw; simp only [exec]; exact execJal_plain h
  case jalr => cases hw; simp only [exec]; exact execJalr_plain h
  case beq | bne | blt | bge | bltN | bgeN => cases hw; simp only [exec]; exact branch_plain h
  case cloop => cases hw; simp only [exec]; exact execCloop_plain h
  case rotb => cases hw; simp only [exec]; exact execRotb_plain h
  case bmask => cases hw; simp only [exec]; exact execBmask_plain h
  case mand | mor | mxor | mandn | mnot | mmov => cases hw; simp only [exec]; exact maskOp_plain h
  case mcnt | mfirst | mwordR => cases hw; simp only [exec]; exact maskToS_plain h
  case mwordW => cases hw; simp only [exec]; exact execMwordW_plain h
  all_goals cases hw

theorem sameBytes_setMe (s : State) (y : Ctx) : SameBytes s (s.setMe y) := ⟨readByte_setMe s y, fun c a => by rw [State.scr_setMe]⟩

/-- Settles O5: the meaning of each plain word has one of a few shapes, and each shape writes what `plainWrites` lists. -/
theorem plainControlFrame : Obligations.PlainControlFrame := by
  intro i s t x ds dm act rot hw hA he
  obtain ⟨y, pc, ho, hf⟩ := exec_plain hw hA
  obtain rfl : s.setMe (y.jump pc) = t := by simpa [ho] using he
  have hm : mine (s.setMe (y.jump pc)) = y.jump pc := State.ctx_setMe hA.1 _
  have hj := hf.jump (pc := pc)
  refine ⟨by rw [OnlyMine, hm], sameBytes_setMe s _, ?_⟩
  rw [hm]
  exact ⟨hj.ctx, hj.regs, hj.strm, hj.masks, hj.active, hj.rotb⟩

end Sys2Proof.Claims
end

