-- ==== Sys2Proof/Proofs/Emission.lean ====
section
/-! O12 and O13: EMIT, DIVG, ELSE and RECON, their stalls and their traps (02 R44-R48, 03 R73). -/

namespace Sys2Proof.Claims

open Machine

section
variable {s : State} {x : Ctx}

/-! ### Traps and waits of a control word -/

theorem ctrlTrap_trappable (h : s.me? = some x) (ht : Trappable x) (c : Nat) (async : Bool) (epc fa : W64) (fm : W32) (fi : W64) :
    ctrlTrap s c async epc fa fm fi = s.setMe (triggered x (ctrlTrig c async epc fa fm fi)) := by
  obtain ⟨hm, hn, hv⟩ := ht
  have hx := State.ctx_of_me? h
  rw [ctrlTrap, takeTrap_user _ (hx ▸ hm) (hx ▸ hn) (hx ▸ hv), hx]
  rfl

theorem trapHere_trappable (h : s.me? = some x) (ht : Trappable x) (c : Nat) :
    trapHere s x c = s.setMe (triggered x (ctrlTrig c false x.pc 0 0 0)) :=
  ctrlTrap_trappable h ht c false x.pc 0 0 0

theorem queueFull_iff (x : Ctx) : queueFull x = true ↔ 256 ≤ x.strm.blockQ.length := by simp [queueFull]

theorem queueFull_false_iff (x : Ctx) : queueFull x = false ↔ x.strm.blockQ.length < 256 := by simp [queueFull]

/-! ### EMIT -/

theorem emitDepth_eq (depth : Nat) (push pop peek : Bool) :
    emitDepth depth push pop peek =
      if (pop = true ∧ depth = 0) ∨ (push = true ∧ depth - pop.toNat = 16) ∨ (peek = true ∧ depth - pop.toNat + push.toNat = 0) then none
      else some (depth - pop.toNat + push.toNat) := by
  have h1 : (if pop then depth - 1 else depth) = depth - pop.toNat := by cases pop <;> rfl
  have h2 (n : Nat) : (if push then n + 1 else n) = n + push.toNat := by cases push <;> rfl
  simp only [emitDepth, h1, h2, Bool.and_eq_true, beq_iff_eq]
  split
  · simp [*]
  · split
    · simp [*]
    · split <;> simp_all

theorem fld_zero_eq {n : Nat} (w : BitVec n) (len : Nat) : fld w 0 len = BitVec.ofNat len w.toNat := by
  apply BitVec.eq_of_toNat_eq
  simp [fld]

theorem fld_eq_div {n : Nat} (w : BitVec n) (lo len : Nat) : fld w lo len = BitVec.ofNat len (w.toNat / 2 ^ lo) := by
  apply BitVec.eq_of_toNat_eq
  simp [fld, Nat.shiftRight_eq_div_pow]

/-- Settles O12: with none of its traps met, EMIT reaches its last branch, whose state is `emission`. -/
theorem emitAppendsDescriptor : Obligations.EmitAppendsDescriptor := by
  intro s x a b t m push pop peek ret bar hA hE
  obtain ⟨hq, ha, ht, hr, hpop, hpush, hpeek⟩ := hE
  have hq' : queueFull x = false := (queueFull_false_iff x).mpr hq
  have hf : ¬ ((x.rd a).toNat ≥ 2 ^ 24 ∨ (x.rd t).toNat ≥ 2 ^ 16) := by omega
  have hr' : ¬ (ret = true ∧ 16 ≤ x.strm.returnQ.length) := fun h => absurd (hr h.1) (by omega)
  have hd : ¬ ((pop = true ∧ x.strm.fmtDepth = 0) ∨ (push = true ∧ x.strm.fmtDepth - pop.toNat = 16) ∨
      (peek = true ∧ x.strm.fmtDepth - pop.toNat + push.toNat = 0)) := by
    rintro (⟨h, e⟩ | ⟨h, e⟩ | ⟨h, e⟩)
    · exact absurd (hpop h) (by omega)
    · exact hpush h e
    · exact absurd (hpeek h) (by omega)
  simp only [exec]
  rw [execEmit, readingM_clean _ hA.1 hA.2.1 hA.2.2]
  simp only [hq', Bool.false_eq_true, if_false, Bool.or_eq_true, Bool.and_eq_true, decide_eq_true_eq, hf, hr', emitDepth_eq, hd]
  simp [emission, emitted, blockRelease, releasing, releaseBlock, release, addViews, enqueued, Stream.push, formed, marker, retired,
    Ctx.step1, Ctx.jump, ctxAgent, fld_eq_div]

/-! ### Stalls and traps -/

theorem exec_emit_stalls {a b t : BitVec 5} {m : BitVec 4} {push pop peek ret bar : Bool} (hA : Acts s x [a, b, t] [m])
    (hq : 256 ≤ x.strm.blockQ.length) :
    exec (.emit a b t m push pop peek ret bar) s = .next (s.setMe (waiting x (.emit a b t m push pop peek ret bar))) := by
  simp only [exec]
  rw [execEmit, readingM_clean _ hA.1 hA.2.1 hA.2.2, if_pos ((queueFull_iff x).mpr hq)]
  rfl

/-- EMIT's traps in their order, once there is room for its descriptor (02 R47). -/
theorem exec_emit_traps {a b t : BitVec 5} {m : BitVec 4} {push pop peek ret bar : Bool} {c : Nat} (hA : Acts s x [a, b, t] [m])
    (ht : Trappable x) (hq : x.strm.blockQ.length < 256)
    (hc : (if 2 ^ 24 ≤ (x.rd a).toNat ∨ 2 ^ 16 ≤ (x.rd t).toNat then some cEMITFIELD
      else if ret = true ∧ 16 ≤ x.strm.returnQ.length then some cRETFULL
      else if emitDepth x.strm.fmtDepth push pop peek = none then some cFMTDEPTH else none) = some c) :
    exec (.emit a b t m push pop peek ret bar) s = .next (s.setMe (triggered x (ctrlTrig c false x.pc 0 0 0))) := by
  have hq' : queueFull x = false := (queueFull_false_iff x).mpr hq
  simp only [exec]
  rw [execEmit, readingM_clean _ hA.1 hA.2.1 hA.2.2]
  simp only [hq', Bool.false_eq_true, if_false, Bool.or_eq_true, Bool.and_eq_true, decide_eq_true_eq, ge_iff_le]
  split at hc
  · obtain rfl := Option.some.inj hc
    rw [if_pos ‹_›, trapHere_trappable hA.1 ht]
  · rw [if_neg ‹_›]
    split at hc
    · obtain rfl := Option.some.inj hc
      rw [if_pos ‹_›, trapHere_trappable hA.1 ht]
    · rw [if_neg ‹_›]
      split at hc
      · obtain rfl := Option.some.inj hc
        rename_i hd
        rw [hd, trapHere_trappable hA.1 ht]
      · cases hc

/-- DIVG's traps in their order, once there is room for its marker (03 R73). -/
theorem exec_divg_traps {a : BitVec 4} (hA : Acts s x [] [a]) (hq : x.strm.blockQ.length < 256) (ht : Trappable x) {c : Nat}
    (hc : (if 16 ≤ x.strm.recon.length then some cRECONFULL else if x.strm.fmtDepth = 16 then some cFMTDEPTH else none) = some c) :
    exec (.divg a) s = .next (s.setMe (triggered x (ctrlTrig c false x.pc 0 0 0))) := by
  have hq' : queueFull x = false := (queueFull_false_iff x).mpr hq
  simp only [exec]
  rw [execDivg, readingM_clean _ hA.1 hA.2.1 hA.2.2]
  simp only [hq', Bool.false_eq_true, if_false]
  split at hc
  · obtain rfl := Option.some.inj hc
    rw [if_pos ‹_›, trapHere_trappable hA.1 ht]
  · rw [if_neg ‹_›]
    split at hc
    · obtain rfl := Option.some.inj hc
      rw [if_pos ‹_›, trapHere_trappable hA.1 ht]
    · cases hc

theorem exec_divg_stalls {a : BitVec 4} (hA : Acts s x [] [a]) (hq : 256 ≤ x.strm.blockQ.length) :
    exec (.divg a) s = .next (s.setMe (waiting x (.divg a))) := by
  simp only [exec]
  rw [execDivg, readingM_clean _ hA.1 hA.2.1 hA.2.2]
  simp only [if_pos ((queueFull_iff x).mpr hq)]
  rfl

theorem exec_elseM_stalls (h : s.me? = some x) (hq : 256 ≤ x.strm.blockQ.length) :
    exec .elseM s = .next (s.setMe (waiting x .elseM)) := by
  simp only [exec]
  rw [execElseM, onCtx_some _ h]
  simp only [if_pos ((queueFull_iff x).mpr hq)]
  rfl

theorem exec_recon_stalls (h : s.me? = some x) (hq : 256 ≤ x.strm.blockQ.length) :
    exec .recon s = .next (s.setMe (waiting x .recon)) := by
  simp only [exec]
  rw [execRecon, onCtx_some _ h]
  simp only [if_pos ((queueFull_iff x).mpr hq)]
  rfl

/-- ELSE's traps, by what stands on the reconvergence stack (03 R73, 10 R312). -/
theorem exec_elseM_traps (h : s.me? = some x) (hq : x.strm.blockQ.length < 256) (ht : Trappable x) :
    (x.strm.recon = [] → exec .elseM s = .next (s.setMe (triggered x (ctrlTrig cRECONEMPTY false x.pc 0 0 0)))) ∧
    ∀ tok rest, x.strm.recon = tok :: rest →
      (tok.poison = true → exec .elseM s = .next (s.setMe (triggered x (ctrlTrig cSECTRL true x.pc 0 0 0)))) ∧
      (tok.poison = false → tok.phase = true →
        exec .elseM s = .next (s.setMe (triggered x (ctrlTrig cELSETWICE false x.pc 0 0 0)))) := by
  have hq' : queueFull x = false := (queueFull_false_iff x).mpr hq
  simp only [exec, execElseM, onCtx_some _ h, hq', Bool.false_eq_true, if_false]
  refine ⟨fun hr => by rw [hr, trapHere_trappable h ht], fun tok rest hr => ⟨fun hp => ?_, fun hp hf => ?_⟩⟩
  · simp only [hr, hp, if_true, ctrlTrap_trappable h ht]
  · simp only [hr, hp, hf, Bool.false_eq_true, if_false, if_true, trapHere_trappable h ht]

/-- RECON's traps likewise. -/
theorem exec_recon_traps (h : s.me? = some x) (hq : x.strm.blockQ.length < 256) (ht : Trappable x) :
    (x.strm.recon = [] → exec .recon s = .next (s.setMe (triggered x (ctrlTrig cRECONEMPTY false x.pc 0 0 0)))) ∧
    ∀ tok rest, x.strm.recon = tok :: rest →
      (tok.poison = true → exec .recon s = .next (s.setMe (triggered x (ctrlTrig cSECTRL true x.pc 0 0 0)))) ∧
      (tok.poison = false → x.strm.fmtDepth = 0 →
        exec .recon s = .next (s.setMe (triggered x (ctrlTrig cFMTDEPTH false x.pc 0 0 0)))) := by
  have hq' : queueFull x = false := (queueFull_false_iff x).mpr hq
  simp only [exec, execRecon, onCtx_some _ h, hq', Bool.false_eq_true, if_false]
  refine ⟨fun hr => by rw [hr, trapHere_trappable h ht], fun tok rest hr => ⟨fun hp => ?_, fun hp hd => ?_⟩⟩
  · simp only [hr, hp, if_true, ctrlTrap_trappable h ht]
  · simp only [hr, hp, hd, Bool.false_eq_true, if_false, if_true, trapHere_trappable h ht]

end

/-- Settles O13: each word's stall and each of its traps, in the order its meaning takes them. -/
theorem emissionTraps : Obligations.EmissionTraps := by
  refine ⟨?_, ?_, ?_⟩
  · intro s x a b t m push pop peek ret bar hA
    refine ⟨exec_emit_stalls hA, fun ht hq => ⟨fun hf => ?_, fun hf hr => ?_, fun hf hr hd => ?_⟩⟩
    · exact exec_emit_traps hA ht hq (if_pos hf)
    · exact exec_emit_traps hA ht hq ((if_neg hf).trans (if_pos hr))
    · have hn : emitDepth x.strm.fmtDepth push pop peek = none := (emitDepth_eq ..).trans (if_pos hd)
      exact exec_emit_traps hA ht hq ((if_neg hf).trans ((if_neg hr).trans (if_pos hn)))
  · intro s x hq
    exact ⟨fun a hA => exec_divg_stalls hA hq, fun hA => ⟨exec_elseM_stalls hA.1 hq, exec_recon_stalls hA.1 hq⟩⟩
  · intro s x hq ht
    refine ⟨fun a hA => ⟨fun hl => ?_, fun hl hd => ?_⟩, fun hA hr => ?_, fun tok rest hA hr hp => ?_, ?_⟩
    · exact exec_divg_traps hA hq ht (if_pos hl)
    · exact exec_divg_traps hA hq ht ((if_neg (by omega)).trans (if_pos hd))
    · exact ⟨(exec_elseM_traps hA.1 hq ht).1 hr, (exec_recon_traps hA.1 hq ht).1 hr⟩
    · exact ⟨((exec_elseM_traps hA.1 hq ht).2 tok rest hr).2 hp, ((exec_recon_traps hA.1 hq ht).2 tok rest hr).2 hp⟩
    · rintro tok rest i hA hr hp (rfl | rfl)
      · exact ((exec_elseM_traps hA.1 hq ht).2 tok rest hr).1 hp
      · exact ((exec_recon_traps hA.1 hq ht).2 tok rest hr).1 hp

end Sys2Proof.Claims
end

