-- ==== Sys2Proof/Proofs/OrderFacts.lean ====
section
/-! The order of access events, as the statements speak of it: events ordered further, and what an acquire covers (08 R209, R213,
R219, R220). -/

namespace Sys2Proof.Claims

open Machine

/-! ### Views -/

section
variable {old : List Since} {vs : List View} {a : Agent} {n : Nat}

theorem mem_addViews_of_mem {b : Since} (h : b ∈ old) : b ∈ addViews old vs n := List.mem_append_left _ h

/-- A view that is added, or stood there before, is there. -/
theorem exists_addViews_has {v : View} (hv : v ∈ vs) (ha : v.has a = true) : ∃ b ∈ addViews old vs n, b.view.has a = true := by
  by_cases hold : old.any (fun b => b.view == v) = true
  · obtain ⟨b, hb, he⟩ := List.any_eq_true.mp hold
    exact ⟨b, mem_addViews_of_mem hb, by rw [beq_iff_eq.mp he]; exact ha⟩
  · exact ⟨⟨v, n⟩, List.mem_append_right _ (List.mem_map.mpr ⟨v, List.mem_filter.mpr ⟨hv, by simpa using hold⟩, rfl⟩), ha⟩

end

theorem covered_iff {e : Late} {a : Agent} : e.covered a = true ↔ e.agent = a ∨ ∃ b ∈ e.before, b.view.has a = true := by
  simp [Late.covered]

/-! ### One event ordered further -/

/-- f is the write e, ordered and read further. -/
structure Further (e f : Late) : Prop where
  write : writeOf e = writeOf f
  before : ∀ v ∈ e.before, v ∈ f.before
  read : ∀ v ∈ e.read, v ∈ f.read
  shown : ∀ o ∈ e.shown, o ∈ f.shown

theorem Further.refl (e : Late) : Further e e := ⟨rfl, fun _ h => h, fun _ h => h, fun _ h => h⟩

theorem Further.trans {e f g : Late} (h : Further e f) (k : Further f g) : Further e g :=
  ⟨h.write.trans k.write, fun v hv => k.before v (h.before v hv), fun v hv => k.read v (h.read v hv), fun o ho => k.shown o (h.shown o ho)⟩

theorem Further.toward {e : Late} (vs : List View) (n : Nat) : Further e (e.toward vs n) :=
  ⟨rfl, fun _ hv => mem_addViews_of_mem hv, fun _ h => h, fun _ h => h⟩

theorem Further.readBy {e : Late} (vs : List View) (n : Nat) : Further e { e with read := addViews e.read vs n } :=
  ⟨rfl, fun _ h => h, fun _ hv => mem_addViews_of_mem hv, fun _ h => h⟩

theorem Further.agent {e f : Late} (h : Further e f) : e.agent = f.agent := congrArg (·.1) h.write

theorem Further.cells {e f : Late} (h : Further e f) : e.cells = f.cells := congrArg (·.2.2.2.2) h.write

theorem Further.scratch {e f : Late} (h : Further e f) : e.scratch = f.scratch := congrArg (·.2.2.2.1) h.write

theorem Further.order {e f : Late} (h : Further e f) : e.order = f.order := congrArg (·.2.1) h.write

theorem Further.covered {e f : Late} (h : Further e f) {a : Agent} (hc : e.covered a = true) : f.covered a = true := by
  rcases covered_iff.mp hc with ha | ⟨b, hb, hv⟩
  · exact covered_iff.mpr (.inl (h.agent ▸ ha))
  · exact covered_iff.mpr (.inr ⟨b, h.before b hb, hv⟩)

theorem toward_covered {e : Late} {vs : List View} {n : Nat} {a : Agent} {v : View} (hv : v ∈ vs) (ha : v.has a = true) :
    (e.toward vs n).covered a = true := covered_iff.mpr (.inr (exists_addViews_has hv ha))

/-! ### Lists of events -/

theorem orders_iff_forall₂ {l m : List Late} : Orders l m ↔ List.Forall₂ Further l m := by
  constructor
  · rintro ⟨hw, h⟩
    have hlen : l.length = m.length := by simpa using congrArg List.length hw
    refine List.forall₂_iff_get.mpr ⟨hlen, fun i hi hj => ?_⟩
    have he : l[i]? = some (l.get ⟨i, hi⟩) := List.getElem?_eq_getElem hi
    have hf : m[i]? = some (m.get ⟨i, hj⟩) := List.getElem?_eq_getElem hj
    obtain ⟨hb, hr, hs⟩ := h i _ _ he hf
    have hwi : (l.map writeOf)[i]? = (m.map writeOf)[i]? := by rw [hw]
    rw [List.getElem?_map, List.getElem?_map, he, hf] at hwi
    exact ⟨Option.some.inj hwi, hb, hr, hs⟩
  · intro h
    refine ⟨?_, fun i e f he hf => ?_⟩
    · induction h with
      | nil => rfl
      | cons hd _ ih => rw [List.map_cons, List.map_cons, hd.write, ih]
    · obtain ⟨hi, rfl⟩ := List.getElem?_eq_some_iff.mp he
      obtain ⟨hj, rfl⟩ := List.getElem?_eq_some_iff.mp hf
      have k := (List.forall₂_iff_get.mp h).2 i hi hj
      exact ⟨k.before, k.read, k.shown⟩

theorem Orders.refl (l : List Late) : Orders l l := orders_iff_forall₂.mpr (List.forall₂_same.mpr fun e _ => Further.refl e)

theorem Orders.trans {l m r : List Late} (h : Orders l m) (k : Orders m r) : Orders l r := by
  rw [orders_iff_forall₂] at *
  induction h generalizing r with
  | nil => exact k
  | cons hd _ ih =>
    cases k with
    | cons hk k => exact .cons (hd.trans hk) (ih k)

theorem orders_map {l : List Late} {f : Late → Late} (h : ∀ e, Further e (f e)) : Orders l (l.map f) :=
  orders_iff_forall₂.mpr (List.forall₂_map_right_iff.mpr (List.forall₂_same.mpr fun e _ => h e))

theorem orders_indexed_map {l : List Late} {f : Nat × Late → Late} (h : ∀ p, Further p.2 (f p)) : Orders l ((indexed l).map f) := by
  have hm : Orders ((indexed l).map (·.2)) ((indexed l).map f) :=
    orders_iff_forall₂.mpr (List.forall₂_map_left_iff.mpr (List.forall₂_map_right_iff.mpr (List.forall₂_same.mpr fun p _ => h p)))
  rwa [indexed_map_snd] at hm

theorem Orders.length_eq {l m : List Late} (h : Orders l m) : l.length = m.length := (orders_iff_forall₂.mp h).length_eq

theorem Orders.further {l m : List Late} (h : Orders l m) {i : Nat} {e f : Late} (he : l[i]? = some e) (hf : m[i]? = some f) :
    Further e f := by
  obtain ⟨hi, rfl⟩ := List.getElem?_eq_some_iff.mp he
  obtain ⟨hj, rfl⟩ := List.getElem?_eq_some_iff.mp hf
  exact (List.forall₂_iff_get.mp (orders_iff_forall₂.mp h)).2 i hi hj

/-- The event that stands at a place of the later list stood there before. -/
theorem Orders.exists_left {l m : List Late} (h : Orders l m) {i : Nat} {f : Late} (hf : m[i]? = some f) :
    ∃ e, l[i]? = some e ∧ Further e f := by
  obtain ⟨hj, -⟩ := List.getElem?_eq_some_iff.mp hf
  have hi : i < l.length := h.length_eq ▸ hj
  exact ⟨l[i], List.getElem?_eq_getElem hi, h.further (List.getElem?_eq_getElem hi) hf⟩

theorem Orders.exists_right {l m : List Late} (h : Orders l m) {i : Nat} {e : Late} (he : l[i]? = some e) :
    ∃ f, m[i]? = some f ∧ Further e f := by
  obtain ⟨hj, -⟩ := List.getElem?_eq_some_iff.mp he
  have hi : i < m.length := h.length_eq ▸ hj
  exact ⟨m[i], List.getElem?_eq_getElem hi, h.further he (List.getElem?_eq_getElem hi)⟩

/-! ### States that differ in their orders alone -/

theorem OnlyOrders.refl (s : State) : OnlyOrders s s := ⟨rfl, Orders.refl _⟩

theorem OnlyOrders.trans {s t u : State} (h : OnlyOrders s t) (k : OnlyOrders t u) : OnlyOrders s u := by
  refine ⟨?_, h.2.trans k.2⟩
  rw [k.1, h.1]

section
variable {s t u : State} {a : Agent}

theorem onlyOrders_acquireWhere (s : State) (p : Late → Bool) (vs : List View) : OnlyOrders s (acquireWhere s p vs) := by
  refine ⟨acquireWhere_eq s p vs, ?_⟩
  unfold acquireWhere
  split
  · exact Orders.refl _
  · refine orders_map fun e => ?_
    split
    · exact Further.toward vs _
    · exact Further.refl e

theorem onlyOrders_acquire (s : State) (c : Nat) (p : Release → Bool) (vs : List View) : OnlyOrders s (acquire s c p vs) :=
  onlyOrders_acquireWhere _ _ _

theorem onlyOrders_acquireReads (s : State) (p : Release → Bool) (vs : List View) : OnlyOrders s (acquireReads s p vs) := by
  unfold acquireReads
  split
  · exact OnlyOrders.refl s
  · refine ⟨rfl, orders_map fun e => ?_⟩
    split
    · exact Further.readBy vs _
    · exact Further.refl e

theorem onlyOrders_refresh (s : State) (wide : Bool) (vs : List View) : OnlyOrders s (refresh s wide vs) := by
  unfold refresh
  split
  · exact onlyOrders_acquireWhere _ _ _
  · exact OnlyOrders.refl s

theorem onlyOrders_acquireFence (s : State) (c : Nat) (reach : Reach) (wide : Bool) (rs : List Agent) (vs : List View) :
    OnlyOrders s (acquireFence s c reach wide rs vs) :=
  (onlyOrders_acquire _ _ _ _).trans (onlyOrders_refresh _ _ _)

theorem onlyOrders_noteRead (s : State) (o : Agent) (n : Nat) (sc : Option Nat) (as_ : List Nat) :
    OnlyOrders s (noteRead s o n sc as_) := by
  unfold noteRead
  split
  · exact OnlyOrders.refl s
  · refine ⟨rfl, orders_indexed_map fun p => ?_⟩
    have hb {b : Bool} : Further p.2 (if b then p.2.toward [.one o] n else p.2) := by
      split
      · exact Further.toward _ _
      · exact Further.refl _
    dsimp only
    split
    · exact hb.trans (Further.readBy _ _)
    · exact hb

/-! ### What an acquire covers (08 R219) -/

theorem Covers.mono {p : Late → Prop} (h : Covers s t p a) (k : OnlyOrders t u) : Covers s u p a := by
  intro i e g he hg hp
  obtain ⟨f, hf, hfg⟩ := k.2.exists_left hg
  exact hfg.covered (h i e f he hf hp)

theorem covers_acquireWhere {p : Late → Prop} {q : Late → Bool} {vs : List View} {v : View} (hv : v ∈ vs) (ha : v.has a = true)
    (hq : ∀ e ∈ s.late, p e → q e = true) : Covers s (acquireWhere s q vs) p a := by
  intro i e f he hf hp
  have hm := List.mem_of_getElem? he
  have hne : s.late ≠ [] := List.ne_nil_of_mem hm
  obtain rfl : e.toward vs s.freeCtr = f := by simpa [acquireWhere, hne, List.getElem?_map, he, hq e hm hp] using hf
  exact toward_covered hv ha

theorem covers_acquire {q : Release → Bool} {vs : List View} {v : View} {c : Nat} {l : Link → Prop} (hv : v ∈ vs)
    (ha : v.has a = true) (hq : ∀ r ∈ s.releases, l r.link → q r = true) : Covers s (acquire s c q vs) (Released s l c) a := by
  refine covers_acquireWhere hv ha fun e _ hr => ?_
  obtain ⟨r, hr, hl, hc, he⟩ := hr
  exact List.any_eq_true.mpr ⟨r, List.mem_filter.mpr ⟨hr, by simp [hq r hr hl, hc]⟩, he⟩

end

/-! ### Events added after others -/

/-- m holds the events of l, ordered further, and later ones. -/
def Grows (l m : List Late) : Prop := ∃ n w, m = n ++ w ∧ Orders l n

theorem Grows.refl (l : List Late) : Grows l l := ⟨l, [], by simp, Orders.refl l⟩

theorem Grows.of_orders {l m : List Late} (h : Orders l m) : Grows l m := ⟨m, [], by simp, h⟩

theorem Grows.add (l w : List Late) : Grows l (l ++ w) := ⟨l, w, rfl, Orders.refl l⟩

theorem Orders.split {l w m : List Late} (h : Orders (l ++ w) m) : ∃ n v, m = n ++ v ∧ Orders l n ∧ Orders w v := by
  rw [orders_iff_forall₂] at h
  refine ⟨m.take l.length, m.drop l.length, (List.take_append_drop _ _).symm, orders_iff_forall₂.mpr ?_, orders_iff_forall₂.mpr ?_⟩
  · simpa using List.forall₂_take l.length h
  · simpa using List.forall₂_drop l.length h

theorem Grows.trans {l m r : List Late} (h : Grows l m) (k : Grows m r) : Grows l r := by
  obtain ⟨n, w, rfl, hn⟩ := h
  obtain ⟨n', w', rfl, hn'⟩ := k
  obtain ⟨n1, v, rfl, h1, -⟩ := hn'.split
  exact ⟨n1, v ++ w', by rw [List.append_assoc], hn.trans h1⟩

theorem Grows.exists_right {l m : List Late} (h : Grows l m) {i : Nat} {e : Late} (he : l[i]? = some e) :
    ∃ f, m[i]? = some f ∧ Further e f := by
  obtain ⟨n, w, rfl, hn⟩ := h
  obtain ⟨f, hf, hef⟩ := hn.exists_right he
  exact ⟨f, by rw [List.getElem?_append_left (List.getElem?_eq_some_iff.mp hf).1, hf], hef⟩

theorem Covers.grow {s t u : State} {a : Agent} {p : Late → Prop} (h : Covers s t p a) (hst : Grows s.late t.late)
    (k : Grows t.late u.late) : Covers s u p a := by
  intro i e g he hg hp
  obtain ⟨f, hf, -⟩ := hst.exists_right he
  obtain ⟨g', hg', hfg⟩ := k.exists_right hf
  obtain rfl : g' = g := Option.some.inj (hg'.symm.trans hg)
  exact hfg.covered (h i e f he hf hp)

/-- Events that stood in an earlier state are covered where their later selves are. -/
theorem Covers.of_grows {s t u : State} {a : Agent} {p q : Late → Prop} (hst : Grows s.late t.late) (h : Covers t u q a)
    (hpq : ∀ e f, Further e f → p e → q f) : Covers s u p a := by
  intro i e g he hg hp
  obtain ⟨f, hf, hef⟩ := hst.exists_right he
  exact h i f g hf hg (hpq e f hef hp)

end Sys2Proof.Claims
end

