-- ==== Sys2Proof/Proofs/StoreFacts.lean ====
section
/-! What a write of memory or scratchpad leaves alone, and with it a store that leaves its queue: every context, channel and queue of
a core, the releases, and of a launch all but the marks of what it may have overwritten (04 R119, 03 R98). -/

namespace Sys2Proof.Claims

open Machine

/-- A launch but for the marks that writes leave there: what its code held before, and which spilled records may be overwritten. -/
def unmarked (l : Launch) : Launch :=
  { l with oldCode := [], spilled := l.spilled.map (fun r => { r with overwritten := false }) }

/-- t is s but for bytes, their poison and what is known of writes. -/
structure StoresOnly (s t : State) : Prop where
  state : t = { s with mem := t.mem, host := t.host, poolLines := t.poolLines, poison := t.poison, queue := t.queue, late := t.late,
                       launches := t.launches, wrote := t.wrote, stamp := t.stamp, cores := t.cores }
  count : t.cores.length = s.cores.length
  core : ∀ c, t.core c = { s.core c with scr := (t.core c).scr }
  launches : t.launches.map unmarked = s.launches.map unmarked

section
variable {s t u : State}

theorem StoresOnly.refl (s : State) : StoresOnly s s := ⟨rfl, rfl, fun _ => rfl, rfl⟩

theorem StoresOnly.trans (h : StoresOnly s t) (k : StoresOnly t u) : StoresOnly s u where
  state := by rw [k.state, h.state]
  count := k.count.trans h.count
  core c := by rw [k.core c, h.core c]
  launches := k.launches.trans h.launches

/-- A state that keeps the cores and the launches changes bytes alone. -/
theorem StoresOnly.of_eq
    (h : t = { s with mem := t.mem, host := t.host, poolLines := t.poolLines, poison := t.poison, queue := t.queue,
                      late := t.late, wrote := t.wrote, stamp := t.stamp }) : StoresOnly s t := by
  refine ⟨by rw [h], by rw [h], fun c => ?_, by rw [h]⟩
  have hc : t.core c = s.core c := by rw [h]; rfl
  rw [hc]

theorem OnlyOrders.storesOnly (h : OnlyOrders s t) : StoresOnly s t := .of_eq (by rw [h.1])

theorem StoresOnly.foldl {α : Type} {f : State → α → State} (hf : ∀ s a, StoresOnly s (f s a)) (l : List α) (s : State) :
    StoresOnly s (l.foldl f s) := by
  induction l generalizing s with
  | nil => exact .refl s
  | cons a l ih => exact (hf s a).trans (ih _)

/-! ### What stays -/

variable (h : StoresOnly s t)
include h

theorem StoresOnly.cur : t.cur = s.cur := by rw [h.state]
theorem StoresOnly.freeCtr : t.freeCtr = s.freeCtr := by rw [h.state]
theorem StoresOnly.releases : t.releases = s.releases := by rw [h.state]
theorem StoresOnly.part : t.part = s.part := by rw [h.state]
theorem StoresOnly.parts : t.parts = s.parts := by rw [h.state]
theorem StoresOnly.pages : t.pages = s.pages := by rw [h.state]

theorem StoresOnly.ctxs (c : Nat) : (t.core c).ctxs = (s.core c).ctxs := by rw [h.core c]
theorem StoresOnly.tlb (c : Nat) : (t.core c).tlb = (s.core c).tlb := by rw [h.core c]
theorem StoresOnly.chans (c : Nat) : (t.core c).chans = (s.core c).chans := by rw [h.core c]
theorem StoresOnly.queues (c : Nat) : (t.core c).queues = (s.core c).queues := by rw [h.core c]
theorem StoresOnly.lanesets (c : Nat) : (t.core c).lanesets = (s.core c).lanesets := by rw [h.core c]

theorem StoresOnly.ctx (c k : Nat) : t.ctx c k = s.ctx c k := by rw [State.ctx, h.ctxs, State.ctx]

theorem StoresOnly.group (c k g : Nat) : t.group c k g = s.group c k g := by rw [State.group, h.ctx, State.group]

theorem StoresOnly.me? : t.me? = s.me? := by rw [State.me?, h.cur, h.ctxs, State.me?]

theorem StoresOnly.laneSetAt (c ls : Nat) : t.laneSetAt c ls = s.laneSetAt c ls := by rw [State.laneSetAt, h.lanesets, State.laneSetAt]

theorem StoresOnly.launch? (p : Nat) (id : W32) : (t.launch? p id).map unmarked = (s.launch? p id).map unmarked := by
  have hfind (ls : List Launch) : (ls.find? (isLaunch p id)).map unmarked = (ls.map unmarked).find? (isLaunch p id) := by
    rw [List.find?_map]
    rfl
  rw [State.launch?, State.launch?, hfind, hfind, h.launches]

omit h

/-- What a launch's marks do not touch reads alike. -/
theorem StoresOnly.launch_field (h : StoresOnly s t) {α : Type} (f : Launch → α) (hf : ∀ l, f (unmarked l) = f l) (p : Nat) (id : W32) :
    (t.launch? p id).map f = (s.launch? p id).map f := by
  have hm (o : Option Launch) : o.map f = (o.map unmarked).map f := by cases o <;> simp [hf]
  rw [hm, h.launch?, ← hm]

theorem StoresOnly.asid (h : StoresOnly s t) (x : Ctx) : x.asid t = x.asid s := by
  rw [Ctx.asid, Ctx.asid, Ctx.launch?, Ctx.launch?, h.launch_field (·.asid) (fun _ => rfl)]

theorem StoresOnly.img (h : StoresOnly s t) (x : Ctx) : x.img t = x.img s := by
  rw [Ctx.img, Ctx.img, Ctx.launch?, Ctx.launch?, h.launch_field (·.img) (fun _ => rfl)]

end

/-! ### Writes -/

section
variable (s : State)

theorem storesOnly_writeByte (a : Nat) (b : Byte) : StoresOnly s (writeByte s a b) := by
  unfold writeByte
  split <;> exact .of_eq rfl

theorem storesOnly_writePhys (a : Nat) (bs : List Byte) : StoresOnly s (writePhys s a bs) := by
  induction bs generalizing s a with
  | nil => exact .refl s
  | cons b bs ih => exact (storesOnly_writeByte s a b).trans (ih _ _)

theorem storesOnly_setPoison (sc : Option Nat) (a n : Nat) (p : Option Nat) : StoresOnly s (setPoison s sc a n p) := by
  unfold setPoison
  split
  · split
    · exact .refl s
    · exact .of_eq rfl
  · exact .of_eq rfl

theorem storesOnly_updLaunch (p : Nat) (id : W32) (f : Launch → Launch) (hf : ∀ l, unmarked (f l) = unmarked l) :
    StoresOnly s (s.updLaunch p id f) := by
  refine ⟨rfl, rfl, fun _ => rfl, ?_⟩
  rw [State.updLaunch, List.map_map]
  refine List.map_congr_left fun l _ => ?_
  simp only [Function.comp_apply]
  split
  · exact hf l
  · rfl

theorem storesOnly_markSpill (a n : Nat) : StoresOnly s (markSpill s a n) := by
  refine StoresOnly.foldl (fun s l => storesOnly_updLaunch s _ _ _ fun l => ?_) _ s
  simp only [unmarked, List.map_map]
  congr 1
  refine List.map_congr_left fun r _ => ?_
  simp only [Function.comp_apply]
  split <;> rfl

theorem storesOnly_keepCode (a n : Nat) : StoresOnly s (keepCode s a n) := by
  have hl : StoresOnly s (if s.launches.any (fun l => codeHit s l a n) then
      { s with launches := s.launches.map (fun l => if codeHit s l a n then { l with oldCode := noteOld s a n l.oldCode } else l) }
      else s) := by
    split
    · refine ⟨rfl, rfl, fun _ => rfl, ?_⟩
      rw [List.map_map]
      refine List.map_congr_left fun l _ => ?_
      simp only [Function.comp_apply]
      split <;> rfl
    · exact .refl s
  unfold keepCode
  extract_lets u
  have hu : StoresOnly s u := hl
  split
  · exact hu.trans (.of_eq rfl)
  · exact hu

theorem storesOnly_putBytes (a : Nat) (bs : List Byte) (p : Option Nat) : StoresOnly s (putBytes s a bs p) :=
  (((storesOnly_keepCode s _ _).trans (storesOnly_writePhys _ _ _)).trans (storesOnly_markSpill _ _ _)).trans
    (storesOnly_setPoison _ _ _ _ _)

theorem storesOnly_setScr (c : Nat) (m : Mem) : StoresOnly s (s.updCore c (fun k => { k with scr := m })) := by
  refine ⟨rfl, by simp [State.updCore, State.setCore], fun d => ?_, rfl⟩
  by_cases hd : d = c
  · subst hd
    by_cases hc : d < s.cores.length
    · rw [State.updCore, State.core_setCore_self _ _ _ hc]
    · rw [State.updCore, State.setCore_out _ _ _ hc]
  · rw [State.updCore, State.core_setCore_other _ _ _ _ hd]

theorem storesOnly_writeScr (c : Nat) (cells : List (Nat × Byte)) (p : Option Nat) : StoresOnly s (writeScr s c cells p) :=
  (storesOnly_setScr s c _).trans (StoresOnly.foldl (fun _ _ => storesOnly_setPoison _ _ _ _ _) _ _)

theorem storesOnly_performWrite (a : Agent) (n : Nat) (rmw : Bool) (b : List Since) (sc : Option Nat) (cells : List (Nat × Byte))
    (p : Option Nat) : StoresOnly s (performWrite s a n rmw b sc cells p) := by
  unfold performWrite
  dsimp only
  split
  · split
    · exact storesOnly_writeScr s _ _ _
    · exact storesOnly_putBytes s _ _ _
    · exact .refl s
  · refine StoresOnly.trans ?_ (.of_eq rfl)
    split
    · exact storesOnly_writeScr s _ _ _
    · exact storesOnly_putBytes s _ _ _
    · exact .refl s

theorem storesOnly_leave (q : Store) : StoresOnly s (q.leave s) := storesOnly_performWrite s _ _ _ _ _ _ _

theorem storesOnly_flushWhere (p : Store → Bool) : StoresOnly s (flushWhere s p) := by
  unfold flushWhere
  split
  · exact .refl s
  · exact StoresOnly.trans (t := { s with queue := s.queue.filter (fun q => !p q) }) (.of_eq rfl)
      (StoresOnly.foldl (fun s q => storesOnly_leave s q) _ _)

end

end Sys2Proof.Claims
end

