-- ==== Sys2Proof/Proofs/Returns.lean ====
section
/-! O15: RPOP takes the oldest return entry, and acquires what its words released (02 R54, 08 R220, R225, 18 R430). -/

namespace Sys2Proof.Claims

open Machine

theorem mem_indexed_iff {α : Type} {l : List α} {p : Nat × α} : p ∈ indexed l ↔ l[p.1]? = some p.2 := by
  refine ⟨mem_indexed, fun h => ?_⟩
  obtain ⟨hi, he⟩ := List.getElem?_eq_some_iff.mp h
  rw [indexed, List.mem_iff_getElem]
  exact ⟨p.1, by simpa using hi, by simp [he]⟩

/-! ### The mask of an entry -/

/-- Equal-width elements packed from bit 0 up read back at their places. -/
theorem testBit_packElems {n : Nat} (l : List (BitVec n)) (g : Nat) {i : Nat} (hi : i < n) :
    (packElems n l).testBit (n * g + i) = (l.getD g 0).getLsbD i := by
  induction l generalizing g with
  | nil => simp [packElems]
  | cons e r ih =>
    have he : (packElems n (e :: r)) = 2 ^ n * packElems n r + e.toNat := by rw [packElems, List.foldr_cons, Nat.add_comm]; rfl
    rw [he, Nat.testBit_two_pow_mul_add _ e.isLt]
    cases g with
    | zero => simp [hi, BitVec.testBit_toNat]
    | succ g =>
      have hle : n * (g + 1) + i - n = n * g + i := by rw [Nat.mul_succ]; omega
      have hnlt : ¬ n * (g + 1) + i < n := by rw [Nat.mul_succ]; omega
      simpa [hnlt, hle] using ih g

theorem getLsbD_entryMask (e : RetEntry) {g i : Nat} (hg : g < 32) (hi : i < 32) :
    e.mask.getLsbD (32 * g + i) = ((e.words.getD g none).getD 0).getLsbD i := by
  have hlt : 32 * g + i < 1024 := by omega
  have hw : (e.words.map (fun w => w.getD 0)).getD g 0 = (e.words.getD g none).getD 0 := by
    simp only [List.getD, List.getElem?_map]
    cases e.words[g]? <;> rfl
  rw [RetEntry.mask, BitVec.getLsbD_ofNat, testBit_packElems _ _ hi, hw]
  simp [hlt]

/-! ### The work that the words released -/

section
variable {s : State} {x : Ctx}

theorem returns_iff {g n time : Nat} : returns s s.cur.core s.cur.ctx time g n = true ↔ WordReleased s time g n := by
  simp [returns, WordReleased, groupPath, grpAgent, and_assoc]

theorem returnsDone_iff {time : Nat} : returnsDone s s.cur.core s.cur.ctx x time = true ↔ WordsDone s x time := by
  simp only [returnsDone, List.all_eq_true, Bool.and_eq_true, Bool.not_eq_true', Bool.or_eq_true, ← Bool.not_eq_true, returns_iff]
  exact ⟨fun h i g hg => h (i, g) (mem_indexed_iff.mpr hg), fun h p hp => h p.1 p.2 (mem_indexed_iff.mp hp)⟩

/-- The groups' stores that a word of the descriptor released. -/
theorem released_store_eq (s : State) (time : Nat) (q : Store) :
    (!q.host && q.agent.grp.any (fun g => q.agent == grpAgent s.cur.core s.cur.ctx g .l && returns s s.cur.core s.cur.ctx time g q.order)) =
    (!q.host && q.agent.of s.cur.core s.cur.ctx && q.agent.grp.isSome && q.agent.path == .l &&
      s.releases.any (fun r => r.link == .ret s.cur.core s.cur.ctx time && r.agents.contains q.agent && decide (q.order ≤ r.time))) := by
  obtain ⟨⟨core, ctx, grp, path⟩, n, host, toward, sc, cells, p⟩ := q
  cases grp with
  | none => simp
  | some g =>
    by_cases ha : core = s.cur.core ∧ ctx = s.cur.ctx ∧ path = .l
    · obtain ⟨rfl, rfl, rfl⟩ := ha
      simp [grpAgent, Agent.of, returns]
    · have hne : ¬ (⟨core, ctx, some g, path⟩ : Agent) = grpAgent s.cur.core s.cur.ctx g .l := by
        simp only [grpAgent, Agent.mk.injEq]
        exact fun h => ha ⟨h.1, h.2.1, h.2.2.2⟩
      simp only [Option.any_some, beq_eq_false_iff_ne.mpr hne, Bool.false_and, Bool.and_false, Option.isSome_some, Bool.and_true]
      symm
      simp only [Agent.of, Bool.and_eq_false_iff, beq_eq_false_iff_ne]
      by_cases h1 : core = s.cur.core
      · by_cases h2 : ctx = s.cur.ctx
        · exact .inl (.inr fun h => ha ⟨h1, h2, h⟩)
        · exact .inl (.inl (.inr (.inr h2)))
      · exact .inl (.inl (.inr (.inl h1)))

end

/-! ### The acquire of the words (08 R220) -/

/-- The reads that such releases cover are among what the acquiring agents hold. -/
theorem acquireReads_read {s : State} {q : Release → Bool} {vs : List View} {a : Agent} {v : View} (hv : v ∈ vs) (ha : v.has a = true)
    {i : Nat} {w f : Late} (hw : s.late[i]? = some w) (hf : (acquireReads s q vs).late[i]? = some f) {r : Release}
    (hr : r ∈ s.releases) (hq : q r = true) {b : Since} (hb : b ∈ w.read) (ht : b.time ≤ r.time) {o : Agent} (ho : o ∈ r.agents)
    (hbo : b.view.has o = true) : ∃ b ∈ f.read, b.view.has a = true := by
  have hne : s.late ≠ [] := List.ne_nil_of_mem (List.mem_of_getElem? hw)
  have hc : (s.releases.filter q).any (fun r => w.read.any (fun b => r.agents.any b.view.has && decide (b.time ≤ r.time))) = true :=
    List.any_eq_true.mpr ⟨r, List.mem_filter.mpr ⟨hr, hq⟩, List.any_eq_true.mpr
      ⟨b, hb, by simpa using ⟨⟨o, ho, hbo⟩, ht⟩⟩⟩
  simp only [acquireReads, hne, if_false, List.getElem?_map, hw, Option.map_some, hc, if_true] at hf
  obtain rfl := Option.some.inj hf
  exact exists_addViews_has hv ha

section
variable {s : State} {x : Ctx} {d : BitVec 4} {e : RetEntry} {rest : List RetEntry}

/-- The context after RPOP took its oldest entry. -/
def popped (x : Ctx) (rest : List RetEntry) (d : BitVec 4) (v : Mask) : Ctx :=
  retired ({ x with strm := { x.strm with returnQ := rest } }.wrMask d v) (x.pc + 1)

theorem exec_rpop_delivers (h : s.me? = some x) (hr : x.strm.returnQ = e :: rest) (hw : ∀ w ∈ e.words, w.isSome)
    (hd : WordsDone s x e.time) (hp : ∀ p ∈ e.poison, p = none) :
    exec (.rpop d) s = .next (acquireReturn (s.setMe (popped x rest d e.mask)) s.cur.core s.cur.ctx e.time) := by
  have hall : (e.words.all (·.isSome) && returnsDone s s.cur.core s.cur.ctx x e.time) = true := by
    rw [Bool.and_eq_true]
    exact ⟨List.all_eq_true.mpr hw, returnsDone_iff.mpr hd⟩
  have hclean : e.poison.findSome? id = none := List.findSome?_eq_none_iff.mpr hp
  simp only [exec]
  rw [execRpop, onCtx_some _ h]
  simp only [hr, hall, if_true, hclean]
  rfl

theorem exec_rpop_waits (h : s.me? = some x) (hr : x.strm.returnQ = e :: rest)
    (hw : (∃ w ∈ e.words, w = none) ∨ ¬ WordsDone s x e.time) : exec (.rpop d) s = .next (s.setMe (waiting x (.rpop d))) := by
  have hall : ¬ (e.words.all (·.isSome) && returnsDone s s.cur.core s.cur.ctx x e.time) = true := by
    rw [Bool.and_eq_true, returnsDone_iff]
    rintro ⟨ha, hd⟩
    rcases hw with ⟨w, hm, rfl⟩ | hn
    · exact absurd (List.all_eq_true.mp ha _ hm) (by simp)
    · exact hn hd
  simp only [exec]
  rw [execRpop, onCtx_some _ h]
  simp only [hr, hall]
  rfl

theorem exec_rpop_poisoned (h : s.me? = some x) (ht : Trappable x) (hr : x.strm.returnQ = e :: rest) (hw : ∀ w ∈ e.words, w.isSome)
    (hd : WordsDone s x e.time) {c : Nat} {fi : W64} (hp : e.poison.findSome? id = some (c, fi)) :
    exec (.rpop d) s = .next (s.setMe (triggered x (ctrlTrig c true x.pc 0 0 fi))) := by
  have hall : (e.words.all (·.isSome) && returnsDone s s.cur.core s.cur.ctx x e.time) = true := by
    rw [Bool.and_eq_true]
    exact ⟨List.all_eq_true.mpr hw, returnsDone_iff.mpr hd⟩
  simp only [exec]
  rw [execRpop, onCtx_some _ h]
  simp only [hr, hall, if_true, hp, ctrlTrap_trappable h ht]

theorem exec_rpop_none (h : s.me? = some x) (ht : Trappable x) (hr : x.strm.returnQ = []) :
    exec (.rpop d) s = .next (s.setMe (triggered x (ctrlTrig cRPOPNONE false x.pc 0 0 0))) := by
  simp only [exec]
  rw [execRpop, onCtx_some _ h]
  simp only [hr, trapHere_trappable h ht]

end

/-- Settles O15: the four answers of RPOP; what it acquires is a flush, an acquire and an acquire of reads, in this order. -/
theorem rpopTakesOldestEntry : Obligations.RpopTakesOldestEntry := by
  intro s x d h
  refine ⟨fun e rest hr _ hw hd hp => ?_, fun e rest hr hw => exec_rpop_waits h hr hw,
    fun e rest c fi hr hw hd hp ht => exec_rpop_poisoned h ht hr hw hd hp, fun hr ht => exec_rpop_none h ht hr⟩
  let y := popped x rest d e.mask
  let isWord (r : Release) : Bool := r.link == .ret s.cur.core s.cur.ctx e.time
  let vs : List View := [.one (ctxAgent s.cur.core s.cur.ctx .c), .one (ctxAgent s.cur.core s.cur.ctx .gotL)]
  let u := flushWhere (s.setMe y) (fun q => !q.host && q.agent.of s.cur.core s.cur.ctx && q.agent.grp.isSome && q.agent.path == .l &&
    s.releases.any (fun r => r.link == .ret s.cur.core s.cur.ctx e.time && r.agents.contains q.agent && decide (q.order ≤ r.time)))
  let m := acquire u s.cur.core isWord vs
  let t := acquireReads m isWord [.one (ctxAgent s.cur.core s.cur.ctx .gotL)]
  have hex : exec (.rpop d) s = .next t := by
    rw [exec_rpop_delivers h hr hw hd hp, acquireReturn]
    have hq := funext (released_store_eq (s.setMe y) e.time)
    simp only [State.setMe_cur, State.setMe_releases] at hq
    rw [hq]
  have hum : OnlyOrders u m := onlyOrders_acquire _ _ _ _
  have hmt : OnlyOrders m t := onlyOrders_acquireReads _ _ _
  have hmine : mine t = y := by
    have hst := (storesOnly_flushWhere (s.setMe y) _).trans (hum.trans hmt).storesOnly
    rw [mine, hst.cur, hst.ctx]
    exact State.ctx_setMe h y
  have hcov {a : Agent} {v : View} (hv : v ∈ vs) (ha : v.has a = true) :
      Covers u t (Released u (fun l => l = .ret s.cur.core s.cur.ctx e.time) s.cur.core) a :=
    (covers_acquire hv ha fun r _ hl => by simp [isWord, hl]).mono hmt
  refine ⟨e.mask, u, t, fun g i hg hi => getLsbD_entryMask e hg hi, hex, rfl, hmine, hum.trans hmt, ?_, ?_, ?_⟩
  · exact hcov (List.mem_cons_self) (by simp [View.has, ctxAgent, myPath])
  · exact hcov (List.mem_cons_of_mem _ List.mem_cons_self) (by simp [View.has, ctxAgent, myPath])
  · rintro i w f r hw hf hr hl ⟨b, hb, ht, o, ho, hbo⟩
    obtain ⟨w', hw', hfur⟩ := hum.2.exists_right hw
    have hr' : r ∈ m.releases := by rw [hum.1]; exact hr
    exact acquireReads_read (List.mem_singleton_self _) (by simp [View.has, ctxAgent, myPath]) hw' hf hr' (by simp [isWord, hl])
      (hfur.read b hb) ht ho hbo

end Sys2Proof.Claims
end

