-- ==== Sys2Proof/Proofs/ContextFacts.lean ====
section
/-! What the shared operations leave of the contexts: which keep every context, and which keep their number alone. -/

namespace Sys2Proof.Claims

open Machine

/-! ### Every context stays -/

/-- The contexts of every core, and the acting agent, are those of s. -/
structure SameCtxs (s t : State) : Prop where
  cur : t.cur = s.cur
  ctxs : ∀ c, (t.core c).ctxs = (s.core c).ctxs

section
variable {s t u : State} {x : Ctx}

theorem SameCtxs.refl (s : State) : SameCtxs s s := ⟨rfl, fun _ => rfl⟩

theorem SameCtxs.trans (h : SameCtxs s t) (k : SameCtxs t u) : SameCtxs s u :=
  ⟨k.cur.trans h.cur, fun c => (k.ctxs c).trans (h.ctxs c)⟩

theorem SameCtxs.foldl {α : Type} {f : State → α → State} (hf : ∀ s a, SameCtxs s (f s a)) (l : List α) (s : State) :
    SameCtxs s (l.foldl f s) := by
  induction l generalizing s with
  | nil => exact .refl s
  | cons a l ih => exact (hf s a).trans (ih _)

theorem SameCtxs.ctx (h : SameCtxs s t) (c k : Nat) : t.ctx c k = s.ctx c k := by rw [State.ctx, h.ctxs, State.ctx]

theorem SameCtxs.group (h : SameCtxs s t) (c k g : Nat) : t.group c k g = s.group c k g := by rw [State.group, h.ctx, State.group]

theorem SameCtxs.me? (h : SameCtxs s t) : t.me? = s.me? := by rw [State.me?, h.cur, h.ctxs, State.me?]

/-- A write of the acting context after steps that kept the contexts. -/
theorem SameCtxs.ctx_setMe (h : SameCtxs s t) (hx : s.me? = some x) (y : Ctx) : (t.setMe y).ctx s.cur.core s.cur.ctx = y := by
  rw [← h.cur]
  exact State.ctx_setMe (h.me?.trans hx) y

theorem SameCtxs.of_cores (h : t.cur = s.cur) (hc : t.cores = s.cores) : SameCtxs s t := ⟨h, fun c => by rw [State.core, hc, State.core]⟩

theorem StoresOnly.sameCtxs (h : StoresOnly s t) : SameCtxs s t := ⟨h.cur, h.ctxs⟩

theorem OnlyOrders.sameCtxs (h : OnlyOrders s t) : SameCtxs s t := h.storesOnly.sameCtxs

theorem core_updCore (s : State) (c d : Nat) (f : Core → Core) :
    (s.updCore c f).core d = if d = c ∧ c < s.cores.length then f (s.core c) else s.core d := by
  by_cases hd : d = c
  · subst hd
    by_cases hc : d < s.cores.length
    · rw [if_pos ⟨rfl, hc⟩, State.updCore, State.core_setCore_self _ _ _ hc]
    · rw [if_neg (fun h => hc h.2), State.updCore, State.setCore_out _ _ _ hc]
  · rw [if_neg (fun h => hd h.1), State.updCore, State.core_setCore_other _ _ _ _ hd]

theorem sameCtxs_updCore (s : State) (c : Nat) {f : Core → Core} (hf : (f (s.core c)).ctxs = (s.core c).ctxs) :
    SameCtxs s (s.updCore c f) := by
  refine ⟨rfl, fun d => ?_⟩
  rw [core_updCore]
  split
  · rename_i h
    rw [hf, h.1]
  · rfl

theorem sameCtxs_updLaunch (s : State) (p : Nat) (id : W32) (f : Launch → Launch) : SameCtxs s (s.updLaunch p id f) := .of_cores rfl rfl

theorem sameCtxs_release (s : State) (l : Link) (ags : List Agent) (after : List View) (reach : Reach) :
    SameCtxs s (release s l ags after reach) := .of_cores rfl rfl

theorem sameCtxs_checkInAll (s : State) : SameCtxs s (checkInAll s) := .of_cores rfl rfl

theorem sameCtxs_poolRelease (s : State) (scope : BitVec 3) : SameCtxs s (poolRelease s scope) := by
  unfold poolRelease
  split
  · exact sameCtxs_checkInAll s
  · exact .refl s

theorem sameCtxs_flushWhere (s : State) (p : Store → Bool) : SameCtxs s (flushWhere s p) := (storesOnly_flushWhere s p).sameCtxs

theorem sameCtxs_releaseFence (s : State) (l : Link) (reach : Reach) (ags : List Agent) (after later : List View) :
    SameCtxs s (releaseFence s l reach ags after later) :=
  (sameCtxs_release s l ags after reach).trans (onlyOrders_acquireWhere _ _ _).sameCtxs

theorem sameCtxs_acquireFence (s : State) (c : Nat) (reach : Reach) (wide : Bool) (rs : List Agent) (vs : List View) :
    SameCtxs s (acquireFence s c reach wide rs vs) := (onlyOrders_acquireFence s c reach wide rs vs).sameCtxs

theorem sameCtxs_orderPaths (s : State) (c : Nat) (reach : Reach) (wide same : Bool) (ags : List Agent) (vs : List View) :
    SameCtxs s (orderPaths s c reach wide same ags vs) := by
  unfold orderPaths
  split
  · exact (sameCtxs_acquireFence _ _ _ _ _ _).trans (sameCtxs_releaseFence _ _ _ _ _ _)
  · exact sameCtxs_releaseFence _ _ _ _ _ _

theorem sameCtxs_freeCluster (s : State) (l : Launch) (ci : Nat) : SameCtxs s (freeCluster s l ci) := by
  unfold freeCluster
  split
  · exact .refl s
  · exact SameCtxs.foldl (fun s (cc : Nat × Nat × Nat) => sameCtxs_updCore s cc.1 rfl) _ s

theorem sameCtxs_markExited (s : State) (x : Ctx) : SameCtxs s (markExited s x) := by
  unfold markExited
  extract_lets u
  have hu : SameCtxs s u := sameCtxs_updLaunch _ _ _ _
  split
  · exact hu
  · split
    · exact hu.trans ((sameCtxs_freeCluster _ _ _).trans (sameCtxs_updLaunch _ _ _ _))
    · exact hu

theorem sameCtxs_setCore (s : State) (c : Nat) {k : Core} (hk : k.ctxs = (s.core c).ctxs) : SameCtxs s (s.setCore c k) :=
  sameCtxs_updCore (f := fun _ => k) s c hk

theorem sameCtxs_releaseReservation (s : State) (c : Nat) : SameCtxs s (releaseReservation s c) := by
  unfold releaseReservation
  dsimp only
  split <;> exact sameCtxs_setCore s c rfl

/-! ### Their number stays -/

/-- As many cores as in s, and as many contexts on each. -/
structure SameShape (s t : State) : Prop where
  cores : t.cores.length = s.cores.length
  ctxs : ∀ c, (t.core c).ctxs.length = (s.core c).ctxs.length

theorem SameShape.refl (s : State) : SameShape s s := ⟨rfl, fun _ => rfl⟩

theorem SameShape.trans (h : SameShape s t) (k : SameShape t u) : SameShape s u :=
  ⟨k.cores.trans h.cores, fun c => (k.ctxs c).trans (h.ctxs c)⟩

theorem SameShape.foldl {α : Type} {f : State → α → State} (hf : ∀ s a, SameShape s (f s a)) (l : List α) (s : State) :
    SameShape s (l.foldl f s) := by
  induction l generalizing s with
  | nil => exact .refl s
  | cons a l ih => exact (hf s a).trans (ih _)

theorem SameShape.of_cores (h : t.cores = s.cores) : SameShape s t := ⟨by rw [h], fun c => by rw [State.core, h, State.core]⟩

theorem StoresOnly.sameShape (h : StoresOnly s t) : SameShape s t := ⟨h.count, fun c => by rw [h.ctxs]⟩

theorem sameShape_updCore (s : State) (c : Nat) {f : Core → Core} (hf : (f (s.core c)).ctxs.length = (s.core c).ctxs.length) :
    SameShape s (s.updCore c f) := by
  refine ⟨by simp [State.updCore, State.setCore], fun d => ?_⟩
  rw [core_updCore]
  split
  · rename_i h
    rw [hf, h.1]
  · rfl

theorem sameShape_setCtx (s : State) (c k : Nat) (x : Ctx) : SameShape s (s.setCtx c k x) := sameShape_updCore s c (by simp)

theorem sameShape_updCtx (s : State) (c k : Nat) (f : Ctx → Ctx) : SameShape s (s.updCtx c k f) := sameShape_setCtx s c k _

theorem sameShape_updGroup (s : State) (c k g : Nat) (f : Machine.Group → Machine.Group) : SameShape s (s.updGroup c k g f) :=
  sameShape_setCtx s c k _

theorem sameShape_makeEligible (s : State) (c k g : Nat) : SameShape s (makeEligible s c k g) := by
  have h := sameShape_updGroup s c k g (fun r => { r with pos := { r.pos with status := .eligible }, stamp := s.stamp, pass := 0 })
  exact ⟨h.cores, h.ctxs⟩

theorem sameShape_updLaneSet (s : State) (c ls : Nat) (f : LaneSet → LaneSet) : SameShape s (s.updLaneSet c ls f) :=
  sameShape_updCore s c rfl

theorem sameShape_updLaunch (s : State) (p : Nat) (id : W32) (f : Launch → Launch) : SameShape s (s.updLaunch p id f) := .of_cores rfl

theorem sameShape_leaveTruss (s : State) (c ls : Nat) : SameShape s (leaveTruss s c ls) := by
  unfold leaveTruss
  split
  · exact sameShape_updLaneSet _ _ _ _
  · rename_i k g rest _
    extract_lets s1 s2 p s3
    have h3 : SameShape s s3 :=
      ((sameShape_updLaneSet s c ls _).trans (sameShape_updCtx s1 c k _)).trans (sameShape_updGroup s2 c k g _)
    split
    · exact h3.trans (sameShape_makeEligible _ _ _ _)
    · exact h3

theorem sameShape_leaveLaneSets (s : State) (c k : Nat) : SameShape s (leaveLaneSets s c k) := by
  refine SameShape.foldl (fun s ls => ?_) _ s
  dsimp only
  split
  · exact (sameShape_updLaneSet _ _ _ _).trans (sameShape_leaveTruss _ _ _)
  · exact sameShape_updLaneSet _ _ _ _

theorem sameShape_renameTeam (s : State) (c k n : Nat) : SameShape s (renameTeam s c k n) := by
  unfold renameTeam
  extract_lets f chan
  have h : SameShape s (s.updCore c (fun co => { co with chans := co.chans.map chan })) := sameShape_updCore s c rfl
  exact ⟨h.cores, h.ctxs⟩

theorem sameShape_endOrder (s : State) (c k : Nat) : SameShape s (endOrder s c k) :=
  (storesOnly_flushWhere s _).sameShape.trans (sameShape_renameTeam _ _ _ _)

theorem sameShape_joinDec (a : Agent) (p : Nat) (id : W32) (s : State) (va : W64) : SameShape s (joinDec a p id s va) := by
  unfold joinDec
  dsimp only
  split
  · exact (storesOnly_performWrite s _ _ _ _ _ _ _).sameShape
  · exact (sameShape_updLaunch _ _ _ _).trans (sameShape_updLaunch _ _ _ _)

theorem sameShape_joinDecs (s : State) (a : Agent) (ags : List Agent) (p : Nat) (id : W32) (vas : List W64) :
    SameShape s (joinDecs s a ags p id vas) :=
  SameShape.trans (t := release s (.join p id) (a :: ags) [] .all) (.of_cores rfl)
    (SameShape.foldl (fun s va => sameShape_joinDec a p id s va) _ _)

theorem formPartials_ctxs (co : Core) (p : SpawnRec → Bool) : (formPartials co p).ctxs = co.ctxs := by
  unfold formPartials
  generalize co.gather = l
  induction l generalizing co with
  | nil => rfl
  | cons r l ih =>
    rw [List.foldl_cons, ih]
    split <;> rfl

theorem sameShape_orphanRecords (s : State) (c k : Nat) (x : Ctx) : SameShape s (orphanRecords s c k x) := by
  unfold orphanRecords
  split
  · exact .refl s
  · extract_lets u
    have h : SameShape s u := sameShape_updCore s c rfl
    exact ⟨h.cores, h.ctxs⟩

theorem sameShape_dropPops (s : State) (c k : Nat) : SameShape s (s.updCore c (fun co => { co with
    queues := co.queues.map (fun q => { q with pops := q.pops.filter (fun p => p.1 != k) }) })) := sameShape_updCore s c rfl

/-- A context that is freed holds no team. -/
theorem ctx_freeContext (s : State) (c k : Nat) (hc : c < s.cores.length) (hk : k < (s.core c).ctxs.length) :
    (freeContext s c k).ctx c k = Ctx.free := by
  unfold freeContext
  extract_lets s1 s2
  have h1 : SameShape s s1 := (sameShape_leaveLaneSets s c k).trans (sameShape_endOrder _ _ _)
  have h2 : SameShape s s2 := h1.trans (sameShape_dropPops s1 c k)
  have hc2 : c < s2.cores.length := by rw [h2.cores]; exact hc
  have hk2 : k < (s2.core c).ctxs.length := by rw [h2.ctxs]; exact hk
  rw [(sameCtxs_releaseReservation _ _).ctx, State.ctx_setCtx_self _ _ _ _ hc2 hk2]

/-- The context of a team that exits is free afterwards. -/
theorem ctx_exitTeam (s : State) (c k : Nat) (x : Ctx) (hc : c < s.cores.length) (hk : k < (s.core c).ctxs.length) :
    (exitTeam s c k x).ctx c k = Ctx.free := by
  unfold exitTeam
  extract_lets s1 s2 s3 s4
  have h2 : SameShape s s2 := by
    refine SameShape.trans (t := s1) (storesOnly_flushWhere s _).sameShape ?_
    unfold s2
    split
    · exact sameShape_joinDecs _ _ _ _ _ _
    · exact .of_cores rfl
  have h3 : SameShape s s3 := h2.trans (sameShape_updCore s2 c (by rw [formPartials_ctxs]))
  have h5 : SameShape s (orphanRecords s3 c k x) := h3.trans (sameShape_orphanRecords _ _ _ _)
  have hfree : s4.ctx c k = Ctx.free := ctx_freeContext _ c k (by rw [h5.cores]; exact hc) (by rw [h5.ctxs]; exact hk)
  split
  · exact hfree
  · rw [(sameCtxs_markExited _ _).ctx, hfree]

end

end Sys2Proof.Claims
end

