-- ==== Sys2Proof/Proofs/ControlWaits.lean ====
section
/-! O46: a waiting control word executes again at its event, and a walk fills the TLB (02 R48, R54, R65, 04 R116, 08 R225, R226, R229,
10 R305, 12 R351). -/

namespace Sys2Proof.Claims

open Machine

/-! ### The events of waiting words -/

section
variable {s : State} {c k : Nat} {x : Ctx}

theorem issuing_of_Issuing {p : Nat} (h : Issuing s p) : Machine.issuing s p = true := by
  obtain ⟨hs, hh⟩ := h
  simp only [Machine.issuing, issueStopped, powerStopped, Bool.not_eq_true', Bool.or_eq_false_iff, Bool.and_eq_false_iff,
    Bool.not_eq_false', Option.any_eq_true, Option.any_eq_false]
  refine ⟨?_, fun p hp => by simp [hh p hp]⟩
  cases hst : s.stopped with
  | false => exact .inl rfl
  | true => exact .inr (hs hst)

theorem Live.live (h : Live s c k x) : live s c k = true := by
  obtain ⟨hx, hr, ht, hi⟩ := h
  simp [Machine.live, hx, hr, ht, issuing_of_Issuing hi]

theorem getElem?_of_ctx (hx : s.ctx c k = x) (hr : x.resident = true) : (s.core c).ctxs[k]? = some x := by
  rw [State.ctx, List.getD] at hx
  cases hk : (s.core c).ctxs[k]? with
  | none =>
    rw [hk] at hx
    obtain rfl : Ctx.free = x := hx
    cases hr
  | some y =>
    rw [hk] at hx
    exact congrArg some hx

theorem actingAt_me? (hx : s.ctx c k = x) (hr : x.resident = true) : (actingAt s c k).me? = some x := by
  have hk : ((actingAt s c k).core c).ctxs[k]? = some x := getElem?_of_ctx hx hr
  simp only [State.me?]
  rw [show (actingAt s c k).cur.core = c from rfl, show (actingAt s c k).cur.ctx = k from rfl, hk]
  simp [hr]

theorem Live.me? (h : Live s c k x) : (actingAt s c k).me? = some x := actingAt_me? h.1 h.2.1

theorem Live.retry (h : Live s c k x) {f : Instr → Option (State → Out)} {i : Instr} {g : State → Out} (hw : x.wait = some i)
    (hf : f i = some g) : retry s c k f = g (actingAt s c k) := by
  simp [Machine.retry, h.1, hw, hf, h.live, actingAt]

/-- A context that waits in no word the event knows stays as it is. -/
theorem retry_none {f : Instr → Option (State → Out)} (h : ∀ i, (s.ctx c k).wait = some i → f i = none) :
    Machine.retry s c k f = .next s := by
  have hn : (s.ctx c k).wait.bind f = none := by
    rw [Option.bind_eq_none_iff]
    exact h
  rw [Machine.retry, hn]

theorem resident_in_range (hx : s.ctx c k = x) (hr : x.resident = true) : c < s.cores.length ∧ k < (s.core c).ctxs.length := by
  obtain ⟨hc, hk, -⟩ := State.me?_some (actingAt_me? hx hr)
  exact ⟨hc, (List.getElem?_eq_some_iff.mp hk).1⟩

/-- Each waiting word executes again at its event. -/
theorem Live.exec_retries (h : Live s c k x) {ev i : Instr} (hw : x.wait = some i) (hr : Retries c k ev i) :
    exec ev s = exec i (actingAt s c k) := by
  cases i
  case emit | divg | elseM | recon | regroup => cases hr; simp only [exec]; exact h.retry hw rfl
  case rpop => cases hr; simp only [exec]; exact h.retry hw rfl
  case ifence => cases hr; simp only [exec]; exact h.retry hw rfl
  case ktrig => cases hr; simp only [exec]; exact h.retry hw rfl
  case kwait => cases hr; simp only [exec]; exact h.retry hw rfl
  case jwait => cases hr; simp only [exec]; exact h.retry hw rfl
  case exit => cases hr; simp only [exec]; exact h.retry hw rfl
  case fence | xfence => cases hr; simp only [exec]; exact h.retry hw rfl
  all_goals cases hr

end

/-! ### The words once their wait is over -/

section
variable {s : State} {x : Ctx}

theorem exec_divg_places {a : BitVec 4} (hA : Acts s x [] [a]) (hq : x.strm.blockQ.length < 256) (hl : x.strm.recon.length < 16)
    (hd : x.strm.fmtDepth ≠ 16) : exec (.divg a) s = .next (s.setMe (diverged s.freeCtr x a)) := by
  have hq' : queueFull x = false := (queueFull_false_iff x).mpr hq
  simp only [exec]
  rw [execDivg, readingM_clean _ hA.1 hA.2.1 hA.2.2]
  simp only [hq', Bool.false_eq_true, if_false, Nat.not_le.mpr hl, hd]
  rfl

theorem exec_elseM_places (h : s.me? = some x) (hq : x.strm.blockQ.length < 256) {tok : Token} {rest : List Token}
    (hr : x.strm.recon = tok :: rest) (hp : tok.poison = false) (hf : tok.phase = false) :
    exec .elseM s = .next (s.setMe (turnedElse s.freeCtr x tok rest)) := by
  have hq' : queueFull x = false := (queueFull_false_iff x).mpr hq
  simp only [exec]
  rw [execElseM, onCtx_some _ h]
  simp only [hq', hr, Bool.false_eq_true, if_false]
  rw [if_neg (by simp [hp]), if_neg (by simp [hf])]
  rfl

theorem exec_recon_places (h : s.me? = some x) (hq : x.strm.blockQ.length < 256) {tok : Token} {rest : List Token}
    (hr : x.strm.recon = tok :: rest) (hp : tok.poison = false) (hd : x.strm.fmtDepth ≠ 0) :
    exec .recon s = .next (s.setMe (reconverged s.freeCtr x tok rest)) := by
  have hq' : queueFull x = false := (queueFull_false_iff x).mpr hq
  simp only [exec]
  rw [execRecon, onCtx_some _ h]
  simp only [hq', hr, hp, hd, Bool.false_eq_true, if_false]
  rfl

theorem exec_regroup_places {m : BitVec 4} {n : BitVec 8} (hA : Acts s x [] [m]) (hm : x.mode = .user)
    (hn : n.toNat + 1 ≤ x.n) (hr : x.strm.recon = []) (hq : x.strm.blockQ.length < 256) :
    exec (.regroup m n) s = .next (s.setMe (regrouping s.freeCtr x m n)) := by
  have hq' : queueFull x = false := (queueFull_false_iff x).mpr hq
  have hpriv : x.priv = false := by simp [Ctx.priv, hm]
  simp only [exec]
  rw [execRegroup, readingM_clean _ hA.1 hA.2.1 hA.2.2]
  simp only [hpriv, hq', hr, Nat.not_lt.mpr hn, List.isEmpty_nil, Bool.not_true, Bool.false_eq_true, if_false]
  rfl

theorem ctx_acquireReturn (hx : s.me? = some x) (y : Ctx) (n : Nat) :
    (acquireReturn (s.setMe y) s.cur.core s.cur.ctx n).ctx s.cur.core s.cur.ctx = y := by
  have h : SameCtxs (s.setMe y) (acquireReturn (s.setMe y) s.cur.core s.cur.ctx n) :=
    ((sameCtxs_flushWhere _ _).trans (onlyOrders_acquire _ _ _ _).sameCtxs).trans (onlyOrders_acquireReads _ _ _).sameCtxs
  rw [h.ctx, State.ctx_setMe hx]

theorem readsDone_iff : readsDone x = true ↔ ReadsDone x := by simp [readsDone, ReadsDone]

theorem storesDone_iff : storesDone x = true ↔ StoresAcked x := by simp [storesDone, StoresAcked]

theorem accessesDone_iff : accessesDone x = true ↔ AccessesDone x := by
  simp only [accessesDone, AccessesDone, Bool.and_eq_true, readsDone_iff, List.all_eq_true]

theorem exec_ifence_retires (h : s.me? = some x) (hq : x.strm.blockQ = []) (hd : AccessesDone x) :
    ∃ t, exec .ifence s = .next t ∧ t.ctx s.cur.core s.cur.ctx = retired x (x.pc + 1) := by
  have hif : (x.strm.blockQ.isEmpty && accessesDone x) = true := by simp [hq, accessesDone_iff.mpr hd]
  have hex : exec .ifence s = .next (((flushTeam s s.cur.core s.cur.ctx).updLaunch x.part x.launch
      (fenceCode (flushTeam s s.cur.core s.cur.ctx) s.cur.core s.cur.ctx)).setMe (retired x (x.pc + 1))) := by
    simp only [exec]
    rw [execIfence, onCtx_some _ h]
    simp only [hif, if_true]
    rfl
  exact ⟨_, hex, ((sameCtxs_flushWhere s _).trans (sameCtxs_updLaunch _ _ _ _)).ctx_setMe h _⟩

theorem exec_ktrig_retires (h : s.me? = some x) (hm : x.mode = .user) (hq : x.strm.blockQ = []) (hs : StoresAcked x)
    (hr : ReadsDone x) : ∃ t, exec .ktrig s = .next t ∧
      t.ctx s.cur.core s.cur.ctx = { retired x (x.pc + 1) with trigger := x.trigger || x.child.isNone } := by
  have hpriv : x.priv = false := by simp [Ctx.priv, hm]
  have hif : (x.strm.blockQ.isEmpty && storesDone x && readsDone x) = true := by
    simp [hq, storesDone_iff.mpr hs, readsDone_iff.mpr hr]
  simp only [exec]
  rw [execKtrig, onCtx_some _ h]
  simp only [hpriv, hif, Bool.false_eq_true, if_false, if_true]
  refine ⟨_, rfl, ?_⟩
  split
  · rename_i hc
    rw [State.ctx_setMe h]
    have ht : (x.trigger || x.child.isNone) = x.trigger := by
      rcases Bool.or_eq_true_iff.mp hc with hc | hc
      · rw [Option.isNone_eq_false_iff.mpr hc, Bool.or_false]
      · rw [hc, Bool.true_or]
    rw [ht]
    rfl
  · rename_i hc
    obtain ⟨hc, ht⟩ := Bool.or_eq_false_iff.mp (Bool.not_eq_true _ ▸ hc)
    have hk : SameCtxs s (releaseTrigger s x s.cur.core s.cur.ctx) := (sameCtxs_flushWhere s _).trans (sameCtxs_release _ _ _ _ _)
    rw [(hk.trans (sameCtxs_updLaunch _ _ _ _)).ctx_setMe h, ht, Bool.false_or]
    have hn : x.child.isNone = true := by rw [← Option.not_isSome, hc]; rfl
    rw [hn]
    rfl

theorem exec_kwait_retires (h : s.me? = some x) (hm : x.mode = .user)
    (hp : ∀ l, s.launch? x.part x.launch = some l → ∀ p ∈ l.producers, p = 0 ∨ producerReady s x.part p = true) :
    ∃ t, exec .kwait s = .next t ∧ t.ctx s.cur.core s.cur.ctx = retired x (x.pc + 1) := by
  have hpriv : x.priv = false := by simp [Ctx.priv, hm]
  have hall : (((x.launch? s).map (·.producers)).getD []).all (fun p => p == 0 || producerReady s x.part p) = true := by
    rw [List.all_eq_true]
    intro p hmem
    rw [Ctx.launch?] at hmem
    cases hl : s.launch? x.part x.launch with
    | none => simp [hl] at hmem
    | some l => simpa using hp l hl p (by simpa [hl] using hmem)
  simp only [exec]
  rw [execKwait, onCtx_some _ h]
  simp only [hpriv, hall, Bool.false_eq_true, if_false, if_true]
  refine ⟨_, rfl, ?_⟩
  rw [((onlyOrders_acquire _ _ _ _).trans (onlyOrders_refresh _ _ _)).sameCtxs.ctx, State.ctx_setMe h]
  rfl

theorem natOf_eq_zero {l : List Byte} (h : ∀ b ∈ l, b.toNat = 0) : natOf l = 0 := by
  induction l with
  | nil => rfl
  | cons b l ih =>
    have hl : natOf l = 0 := ih fun c hc => h c (List.mem_cons_of_mem _ hc)
    rw [natOf, hl, h b List.mem_cons_self]

/-- A number that an agent sees as zero is made of bytes that are zero. -/
theorem natOf_loadBytes_eq_zero {o : Agent} {pa n : Nat} (hs : spillHit s pa n = []) (hv : seenValue s o pa n = 0) :
    natOf (loadBytes s o pa n) = 0 := by
  simp only [loadBytes, hs, List.isEmpty_nil, Bool.not_true, Bool.false_eq_true, if_false]
  refine natOf_eq_zero fun b hb => ?_
  obtain ⟨i, hi, rfl⟩ := List.mem_map.mp hb
  have hz := (List.sum_eq_zero_iff.mp hv) _ (List.mem_map.mpr ⟨i, hi, rfl⟩)
  exact (Nat.mul_eq_zero.mp hz).resolve_right (Nat.pow_pos (by decide)).ne'

theorem joinCause_eq_none {va : W64}
    (hl : ∀ l, s.launch? x.part x.launch = some l → l.refillCause = none ∧ ∀ f ∈ l.joinFails, f.1 ≠ va) : joinCause s x va = none := by
  rw [joinCause, Ctx.launch?]
  cases h : s.launch? x.part x.launch with
  | none => rfl
  | some l =>
    obtain ⟨hr, hf⟩ := hl l h
    have hn : l.joinFails.find? (fun f => f.1 == va) = none := List.find?_eq_none.mpr fun f hm => by simpa using hf f hm
    simp only [hn, hr]

theorem exec_jwait_retires {a : BitVec 5} {o : BitVec 16} {pa : Nat} (h : s.me? = some x) (hc : x.child = none)
    (hp : x.poison a = none) (hok : checkAccess s x.part (x.asid s) .sp pathS (x.rd a + o.signExtend 64) 4 false = .ok pa)
    (ht : tlbMisses s s.cur.core (x.asid s) [x.rd a + o.signExtend 64] = []) (hlp : loadPoison s (myPath s .s) pa 4 = none)
    (hs : spillHit s pa 4 = []) (hv : seenValue s (myPath s .s) pa 4 = 0)
    (hl : ∀ l, s.launch? x.part x.launch = some l →
      l.refillCause = none ∧ ∀ f ∈ l.joinFails, f.1 ≠ x.rd a + o.signExtend 64) :
    ∃ t, exec (.jwait a o) s = .next t ∧ t.ctx s.cur.core s.cur.ctx = retired x (x.pc + 1) := by
  have hlp' : loadPoison s (ctxAgent s.cur.core s.cur.ctx .s) pa 4 = none := hlp
  have hz : natOf (loadBytes s (ctxAgent s.cur.core s.cur.ctx .s) pa 4) = 0 := natOf_loadBytes_eq_zero hs hv
  simp only [exec]
  rw [execJwait, reading_clean _ h (by simpa using hp)]
  simp only [hc, Option.isSome_none, Bool.false_eq_true, if_false, hok, joinCause_eq_none hl, ht, hlp', hz, if_true]
  refine ⟨_, rfl, ?_⟩
  have ho : OnlyOrders (s.setMe x.step1) (acquireJoins (s.setMe x.step1) s.cur.core s.cur.ctx pa) :=
    ((onlyOrders_noteRead _ _ _ _ _).trans (onlyOrders_acquire _ _ _ _)).trans (onlyOrders_refresh _ _ _)
  rw [ho.sameCtxs.ctx, State.ctx_setMe h]
  rfl

/-- A team with no transfer on its core's channels has no halted one to skip. -/
theorem skipHalted_none {c k : Nat} {b : Bool} (hn : ∀ ch ∈ (s.core c).chans, ∀ tr, ch.active = some tr → tr.by x k = false) :
    skipHalted s c k x b = s := by
  have hch (ch : Nat) : ((s.chan c ch).halted && (s.chan c ch).active.any (fun t => t.by x k)) = false := by
    rw [Bool.and_eq_false_iff]
    rw [State.chan, List.getD]
    cases hg : (s.core c).chans[ch]? with
    | none => exact .inl rfl
    | some y =>
      refine .inr ?_
      rw [Option.getD_some, Option.any_eq_false]
      intro tr htr
      simp [hn y (List.mem_of_getElem? hg) tr htr]
  unfold skipHalted
  generalize List.range 8 = l
  induction l with
  | nil => rfl
  | cons ch l ih => rw [List.foldl_cons, if_neg (by simp [hch ch]), ih]

theorem exec_exit_frees (h : s.me? = some x) (hm : x.mode = .user) (hd : groupsDone x = true)
    (hn : ∀ ch ∈ (s.core s.cur.core).chans, (∀ tr, ch.queued = some tr → tr.by x s.cur.ctx = false) ∧
      ∀ tr, ch.active = some tr → tr.by x s.cur.ctx = false) :
    ∃ t, exec .exit s = .next t ∧ t.ctx s.cur.core s.cur.ctx = Ctx.free := by
  have hleft : transfersLeft s s.cur.core s.cur.ctx x = false := by
    rw [transfersLeft, List.any_eq_false]
    intro y hy
    obtain ⟨hq, ha⟩ := hn y hy
    rw [Bool.not_eq_true, Bool.or_eq_false_iff, Option.any_eq_false, Option.any_eq_false]
    exact ⟨fun tr ht => by simp [hq tr ht], fun tr ht => by simp [ha tr ht]⟩
  obtain ⟨hc, hk, -⟩ := State.me?_some h
  simp only [exec]
  rw [execExit, onCtx_some _ h]
  simp only [hm, hd, if_true, skipHalted_none fun ch hch => (hn ch hch).2, hleft, Bool.false_eq_true, if_false]
  exact ⟨_, rfl, ctx_exitTeam s _ _ x hc (List.getElem?_eq_some_iff.mp hk).1⟩

theorem exec_fence_retires {sc : BitVec 3} {o : BitVec 2} (h : s.me? = some x)
    (hs : o.getLsbD 1 = true → StoresAcked x ∨ sc.toNat < 2) :
    ∃ t, exec (.fence sc o) s = .next t ∧ t.ctx s.cur.core s.cur.ctx = retired x (x.pc + 1) := by
  have hif : ¬ (orderRel o && decide (2 ≤ sc.toNat) && !storesDone x) = true := by
    simp only [Bool.and_eq_true, decide_eq_true_eq, Bool.not_eq_true', ← Bool.not_eq_true, storesDone_iff]
    rintro ⟨⟨hr, h2⟩, hn⟩
    rcases hs hr with ha | hlt
    · exact hn ha
    · omega
  simp only [exec]
  rw [execFence, onCtx_some _ h]
  simp only [hif]
  refine ⟨_, rfl, SameCtxs.ctx_setMe (s := s) ?_ h _⟩
  have hf := sameCtxs_flushWhere s (fun q => if q.host then sc == 6 && q.agent.of s.cur.core s.cur.ctx
    else orderRel o && q.agent == ctxAgent s.cur.core s.cur.ctx .c)
  have ha {t : State} (ht : SameCtxs s t) {reach : Reach} {wide : Bool} {rs : List Agent} {vs : List View} :
      SameCtxs s (if orderAcq o then acquireFence t s.cur.core reach wide rs vs else t) := by
    split
    · exact ht.trans (sameCtxs_acquireFence _ _ _ _ _ _)
    · exact ht
  have hr {t : State} (ht : SameCtxs s t) {reach : Reach} {as_ : List Agent} {vs ws : List View} :
      SameCtxs s (if orderRel o then poolRelease (releaseFence t .fence reach as_ vs ws) sc else t) := by
    split
    · exact ht.trans ((sameCtxs_releaseFence _ _ _ _ _ _).trans (sameCtxs_poolRelease _ _))
    · exact ht
  exact hr (ha hf)

theorem acquiredLoopsDone_iff : acquiredLoopsDone s s.cur.core s.cur.ctx x = true ↔ AcquiredLoops s x := by
  simp only [acquiredLoopsDone, AcquiredLoops, acquiredAfter, List.all_eq_true, Bool.or_eq_true, Bool.not_eq_true',
    List.any_eq_false, Bool.and_eq_true, beq_iff_eq, decide_eq_true_eq, not_and, Bool.not_eq_true, and_imp]
  exact ⟨fun h i g hg => h (i, g) (mem_indexed_iff.mpr hg), fun h p hp => h p.1 p.2 (mem_indexed_iff.mp hp)⟩

theorem earlierDone_iff {sc p : BitVec 3} : earlierDone s s.cur.core s.cur.ctx x sc p = true ↔ EarlierDone s x sc p := by
  simp only [earlierDone, EarlierDone, Bool.and_eq_true, Bool.or_eq_true, decide_eq_true_eq, storesDone_iff, acquiredLoopsDone_iff,
    bne_iff_ne, ne_eq]
  exact and_congr_left fun _ => Decidable.imp_iff_not_or.symm

theorem exec_xfence_retires {sc p q : BitVec 3} (h : s.me? = some x) (hd : EarlierDone s x sc p) :
    ∃ t, exec (.xfence sc p q) s = .next t ∧ t.ctx s.cur.core s.cur.ctx = retired x (x.pc + 1) := by
  simp only [exec]
  rw [execXfence, onCtx_some _ h]
  simp only [earlierDone_iff.mpr hd, Bool.not_true, Bool.false_eq_true, if_false]
  exact ⟨_, rfl, (((sameCtxs_flushWhere s _).trans (sameCtxs_orderPaths _ _ _ _ _ _ _)).trans
    (sameCtxs_poolRelease _ _)).ctx_setMe h _⟩

end

/-! ### Walks (10 R305) -/

section
variable {s : State} {c k : Nat} {x : Ctx}

theorem tlbHit_congr {t : State} (h : t.parts = s.parts) (co : Core) (asid va : Nat) : tlbHit t co asid va = tlbHit s co asid va := by
  unfold tlbHit TlbEntry.serves State.partition
  rw [h]

/-- A walk whose page has a translation leaves it in the core's TLBs, and every context as it was. -/
theorem installPage_hit {asid page pa : Nat} {e : W64} (hc : c < s.cores.length) (ht : translate s asid (page * 4096) = some (pa, e)) :
    SameCtxs s (installPage s c asid page) ∧ SameShape s (installPage s c asid page) ∧
      tlbHit s ((installPage s c asid page).core c) asid (page * 4096) = true ∧ (installPage s c asid page).parts = s.parts := by
  have hp : page * 4096 / 4096 = page := Nat.mul_div_cancel _ (by decide)
  simp only [installPage, ht]
  refine ⟨sameCtxs_updCore s c (by split <;> rfl), sameShape_updCore s c (by split <;> rfl), ?_, rfl⟩
  rw [core_updCore, if_pos ⟨rfl, hc⟩]
  split
  · assumption
  · rw [tlbHit, List.any_append]
    simp [TlbEntry.serves, hp]

theorem tlbHit_setCtx (hc : c < s.cores.length) (y : Ctx) (asid va : Nat) :
    tlbHit (s.setCtx c k y) ((s.setCtx c k y).core c) asid va = tlbHit s (s.core c) asid va := by
  rw [tlbHit_congr (s := s) rfl, State.setCtx, core_updCore, if_pos ⟨rfl, hc⟩]
  rfl

theorem exec_tlbWalk_ctx {page pa : Nat} {e : W64} (hx : s.ctx c k = x) (hr : x.resident = true) (hw : x.tlbWait = [page])
    (ht : translate s (x.asid s) (page * 4096) = some (pa, e)) :
    ∃ t, exec (.tlbWalkComplete c k none) s = .next t ∧ tlbHit t (t.core c) (x.asid s) (page * 4096) = true ∧
      t.ctx c k = { x with tlbWait := [] } := by
  obtain ⟨hc, hk⟩ := resident_in_range hx hr
  obtain ⟨hs, hsh, hhit, hparts⟩ := installPage_hit hc ht
  have hc' : c < (installPage s c (x.asid s) page).cores.length := hsh.cores.symm ▸ hc
  have hk' : k < ((installPage s c (x.asid s) page).core c).ctxs.length := (hsh.ctxs c).symm ▸ hk
  have hex : exec (.tlbWalkComplete c k none) s =
      .next ((installPage s c (x.asid s) page).updCtx c k (fun x => { x with tlbWait := [] })) := by
    simp only [exec, execTlbWalkComplete, hx, hr, hw, Bool.not_true, Bool.false_eq_true, if_false, List.foldl_cons, List.foldl_nil]
  refine ⟨_, hex, ?_, ?_⟩
  · rw [State.updCtx, tlbHit_setCtx hc', tlbHit_congr hparts, hhit]
  · rw [State.updCtx, State.ctx_setCtx_self _ _ _ _ hc' hk', hs.ctx, hx]

theorem group_setGroup_self {g : Nat} {r q : Machine.Group} (hc : c < s.cores.length) (hk : k < (s.core c).ctxs.length)
    (hg : (s.ctx c k).groups[g]? = some r) : (s.setGroup c k g q).group c k g = q := by
  have hlt := (List.getElem?_eq_some_iff.mp hg).1
  rw [State.group, State.setGroup, State.ctx_setCtx_self _ _ _ _ hc hk]
  simp [Ctx.group, Ctx.setGroup, List.getD, hlt]

/-- A group put in Eligible, with a fresh wait and pass count (04 R121). -/
def awake (r : Machine.Group) (stamp : Nat) : Machine.Group := { r with pos := { r.pos with status := .eligible }, stamp := stamp, pass := 0 }

theorem group_makeEligible {g : Nat} {r : Machine.Group} (hc : c < s.cores.length) (hk : k < (s.core c).ctxs.length)
    (hg : (s.ctx c k).groups[g]? = some r) : (makeEligible s c k g).group c k g = awake (s.group c k g) s.stamp :=
  group_setGroup_self (q := awake (s.group c k g) s.stamp) hc hk hg

theorem exec_tlbWalk_group {g page pa : Nat} {e : W64} {r : Machine.Group} (hx : s.ctx c k = x) (hr : x.resident = true)
    (hg : x.groups[g]? = some r) (hw : r.pos.status = .suspended (.tlb [page]))
    (ht : translate s (x.asid s) (page * 4096) = some (pa, e)) :
    ∃ t, exec (.tlbWalkComplete c k (some g)) s = .next t ∧ tlbHit t (t.core c) (x.asid s) (page * 4096) = true ∧
      (t.group c k g).pos = { r.pos with status := .eligible } ∧ (t.group c k g).vregs = r.vregs := by
  obtain ⟨hc, hk⟩ := resident_in_range hx hr
  obtain ⟨hs, hsh, hhit, hparts⟩ := installPage_hit hc ht
  have hc' : c < (installPage s c (x.asid s) page).cores.length := hsh.cores.symm ▸ hc
  have hk' : k < ((installPage s c (x.asid s) page).core c).ctxs.length := (hsh.ctxs c).symm ▸ hk
  have hgrp : (installPage s c (x.asid s) page).group c k g = r := by
    rw [hs.group, State.group, hx, Ctx.group, List.getD, hg]
    rfl
  have hg' : ((installPage s c (x.asid s) page).ctx c k).groups[g]? = some r := by rw [hs.ctx, hx, hg]
  have hex : exec (.tlbWalkComplete c k (some g)) s = .next (makeEligible (installPage s c (x.asid s) page) c k g) := by
    simp only [exec, execTlbWalkComplete, hx, hr, hg, Option.map_some, hw, Bool.not_true, Bool.false_eq_true, if_false,
      List.foldl_cons, List.foldl_nil]
  have hnew := (group_makeEligible hc' hk' hg').trans (congrArg (awake · _) hgrp)
  refine ⟨_, hex, ?_, by rw [hnew]; rfl, by rw [hnew]; rfl⟩
  exact (tlbHit_setCtx hc' _ _ _).trans ((tlbHit_congr hparts _ _ _).trans hhit)

end

/-- Settles O46: at its event a waiting word executes again, and each word retires as it does when it need not wait. -/
theorem controlWaitsEnd : Obligations.ControlWaitsEnd := by
  intro s c k x hL
  have hme := hL.me?
  have hrun {ev i : Instr} (hw : x.wait = some i) (hr : Retries c k ev i) : exec ev s = exec i (actingAt s c k) :=
    hL.exec_retries hw hr
  refine ⟨fun ev i => hrun, ?_, ?_, ?_, ?_, ?_, ?_, ?_, ?_, ?_, ?_, ?_, ?_⟩
  · intro a b t m push pop peek ret bar hw hA hE
    rw [hrun hw rfl]
    exact emitAppendsDescriptor _ x a b t m push pop peek ret bar hA hE
  · intro hq
    refine ⟨fun a hw hA hl hd => ?_, fun tok rest hr hp => ⟨fun hw hf => ?_, fun hw hd => ?_⟩, fun m n hw hA hm hn hr => ?_⟩
    · rw [hrun hw rfl]
      exact exec_divg_places hA hq hl hd
    · rw [hrun hw rfl]
      exact exec_elseM_places hme hq hr hp hf
    · rw [hrun hw rfl]
      exact exec_recon_places hme hq hr hp hd
    · rw [hrun hw rfl]
      exact exec_regroup_places hA hm hn hr hq
  · intro d e rest hw hr _ hall hd hp
    refine ⟨e.mask, _, fun g i hg hi => getLsbD_entryMask e hg hi, ?_, ctx_acquireReturn hme _ e.time⟩
    rw [hrun hw rfl]
    exact exec_rpop_delivers hme hr hall hd hp
  · intro hw hq hd
    rw [hrun hw rfl]
    exact exec_ifence_retires hme hq hd
  · intro hw hm hq hs hr
    rw [hrun hw rfl]
    exact exec_ktrig_retires hme hm hq hs hr
  · intro hw hm hp
    rw [hrun hw rfl]
    exact exec_kwait_retires hme hm hp
  · intro a o pa hw hc hp hok ht hlp hs hv hl
    rw [hrun hw rfl]
    exact exec_jwait_retires hme hc hp hok ht hlp hs hv hl
  · intro hw hm hd hn
    rw [hrun hw rfl]
    exact exec_exit_frees hme hm hd hn
  · intro sc o hw hs
    rw [hrun hw rfl]
    exact exec_fence_retires hme hs
  · intro sc p q hw hd
    rw [hrun hw rfl]
    exact exec_xfence_retires hme hd
  · intro hn
    simp only [exec]
    exact retry_none fun i hi => by rw [hn i (hL.1 ▸ hi)]
  · rintro page ⟨pa, e, ht⟩
    exact ⟨fun hw => exec_tlbWalk_ctx hL.1 hL.2.1 hw ht, fun g r hg hw => exec_tlbWalk_group hL.1 hL.2.1 hg hw ht⟩

end Sys2Proof.Claims
end

