-- ==== Sys2Proof/Proofs/QueueFacts.lean ====
section
/-! A store that leaves its queue: the queue that stays, the event it adds, and that what it does to memory and events looks at no core
but for its scratchpad (08 R213, R216). -/

namespace Sys2Proof.Claims

open Machine

/-- t is s but for its cores, which hold the same scratchpads. -/
structure CoresApart (s t : State) : Prop where
  state : t = { s with cores := t.cores }
  count : t.cores.length = s.cores.length
  scr : ∀ c, (t.core c).scr = (s.core c).scr

section
variable {s t u : State}

theorem CoresApart.late (h : CoresApart s t) : t.late = s.late := by rw [h.state]

theorem CoresApart.queue (h : CoresApart s t) : t.queue = s.queue := by rw [h.state]

theorem CoresApart.map {f : State → State} (hf : ∀ (s : State) (cs : List Core), f { s with cores := cs } = { f s with cores := cs })
    (hc : ∀ s : State, (f s).cores = s.cores) (h : CoresApart s t) : CoresApart (f s) (f t) := by
  have ht : f t = { f s with cores := t.cores } := by rw [← hf, ← h.state]
  have hcore : ∀ (u : State) c, (f u).core c = u.core c := fun u c => by rw [State.core, hc, State.core]
  refine ⟨by rw [ht], by rw [hc, hc, h.count], fun c => by rw [hcore, hcore, h.scr]⟩

theorem CoresApart.foldl {α : Type} {f : State → α → State} (hf : ∀ s t a, CoresApart s t → CoresApart (f s a) (f t a)) (l : List α)
    (h : CoresApart s t) : CoresApart (l.foldl f s) (l.foldl f t) := by
  induction l generalizing s t with
  | nil => exact h
  | cons a l ih => exact ih (hf s t a h)

theorem coresApart_setCtx (s : State) (c k : Nat) (x : Ctx) : CoresApart s (s.setCtx c k x) := by
  refine ⟨rfl, by simp [State.setCtx, State.updCore, State.setCore], fun d => ?_⟩
  rw [State.setCtx, core_updCore]
  split <;> simp_all
end

section
variable (s : State) (cs : List Core)

theorem writeByte_cores (a : Nat) (b : Byte) : writeByte { s with cores := cs } a b = { writeByte s a b with cores := cs } := by
  have ht : tierOf { s with cores := cs } a = tierOf s a := rfl
  unfold writeByte
  rw [ht]
  split <;> rfl

theorem writePhys_cores (a : Nat) (bs : List Byte) : writePhys { s with cores := cs } a bs = { writePhys s a bs with cores := cs } := by
  induction bs generalizing s a with
  | nil => rfl
  | cons b bs ih => rw [writePhys, writePhys, writeByte_cores, ih]

theorem setPoison_cores (sc : Option Nat) (a n : Nat) (p : Option Nat) :
    setPoison { s with cores := cs } sc a n p = { setPoison s sc a n p with cores := cs } := by
  unfold setPoison
  split
  · split <;> rfl
  · rfl

theorem markSpill_cores (a n : Nat) : markSpill { s with cores := cs } a n = { markSpill s a n with cores := cs } := by
  have hs : spillHit { s with cores := cs } a n = spillHit s a n := rfl
  unfold markSpill
  rw [hs]
  clear hs
  generalize spillHit s a n = l
  induction l generalizing s with
  | nil => rfl
  | cons b l ih => exact ih (s.updLaunch b.part b.id _)

theorem keepCode_cores (a n : Nat) : keepCode { s with cores := cs } a n = { keepCode s a n with cores := cs } := by
  have hh (l : Launch) : codeHit { s with cores := cs } l a n = codeHit s l a n := rfl
  have hn (l : List OldByte) : noteOld { s with cores := cs } a n l = noteOld s a n l := rfl
  unfold keepCode
  simp only [hh, hn]
  by_cases h : s.launches.any (fun l => codeHit s l a n) = true
  all_goals by_cases hp : s.pages.any (fun p => p.subs.any (fun r => r.announced != r.consumer)) = true
  all_goals simp only [h, hp, if_true, if_false, Bool.false_eq_true]
  all_goals rfl

theorem putBytes_cores (a : Nat) (bs : List Byte) (p : Option Nat) :
    putBytes { s with cores := cs } a bs p = { putBytes s a bs p with cores := cs } := by
  rw [putBytes, keepCode_cores, writePhys_cores, markSpill_cores, setPoison_cores, putBytes]

theorem putBytes_keeps_cores (a : Nat) (bs : List Byte) (p : Option Nat) : (putBytes s a bs p).cores = s.cores := by
  have h := putBytes_cores s s.cores a bs p
  rw [show { s with cores := s.cores } = s from rfl] at h
  rw [h]

end

section
variable {s t : State}

theorem CoresApart.setPoison (h : CoresApart s t) (sc : Option Nat) (a n : Nat) (p : Option Nat) :
    CoresApart (setPoison s sc a n p) (setPoison t sc a n p) := by
  refine h.map (f := fun s => Machine.setPoison s sc a n p) (fun s cs => setPoison_cores s cs sc a n p) (fun s => ?_)
  have h := setPoison_cores s s.cores sc a n p
  rw [show { s with cores := s.cores } = s from rfl] at h
  rw [h]

theorem CoresApart.putBytes (h : CoresApart s t) (a : Nat) (bs : List Byte) (p : Option Nat) :
    CoresApart (putBytes s a bs p) (putBytes t a bs p) :=
  h.map (f := fun s => Machine.putBytes s a bs p) (fun s cs => putBytes_cores s cs a bs p) (fun s => putBytes_keeps_cores s a bs p)

theorem CoresApart.setScr (h : CoresApart s t) (c : Nat) (f : Mem → Mem) :
    CoresApart (s.updCore c (fun k => { k with scr := f k.scr })) (t.updCore c (fun k => { k with scr := f k.scr })) := by
  refine ⟨by rw [h.state]; rfl, by simp [State.updCore, State.setCore, h.count], fun d => ?_⟩
  rw [core_updCore, core_updCore, h.count]
  split
  · simp [h.scr]
  · exact h.scr d

theorem CoresApart.writeScr (h : CoresApart s t) (c : Nat) (cells : List (Nat × Byte)) (p : Option Nat) :
    CoresApart (writeScr s c cells p) (writeScr t c cells p) :=
  CoresApart.foldl (fun _ _ a k => k.setPoison _ a.1 1 p) cells (h.setScr c (·.writeCells cells))

theorem CoresApart.newLate (h : CoresApart s t) (a : Agent) (n : Nat) (rmw : Bool) (b : List Since) (sc : Option Nat) (l : List Nat) :
    newLate t a n rmw b sc l = newLate s a n rmw b sc l := by
  have hb (p : Nat) : Machine.byteAt t sc p = Machine.byteAt s sc p := by
    cases sc with
    | none => rw [Machine.byteAt, h.state]; rfl
    | some c => exact congrArg (·.get p) (h.scr c)
  have hp (p : Nat) : poisonOf t sc p 1 = poisonOf s sc p 1 := by rw [h.state]; rfl
  simp only [Machine.newLate, hb, hp]

theorem CoresApart.addLate (h : CoresApart s t) (e : Late) :
    CoresApart { s with late := s.late ++ [e] } { t with late := t.late ++ [e] } := ⟨by rw [h.state], h.count, h.scr⟩

theorem CoresApart.performWrite (h : CoresApart s t) (a : Agent) (n : Nat) (rmw : Bool) (b : List Since) (sc : Option Nat)
    (cells : List (Nat × Byte)) (p : Option Nat) : CoresApart (performWrite s a n rmw b sc cells p) (performWrite t a n rmw b sc cells p) := by
  have hi (n : Nat) : inHost t n = inHost s n := by rw [h.state]; rfl
  unfold Machine.performWrite
  simp only [h.newLate, hi]
  have hw : CoresApart
      (match sc, cells with
        | some c, _ => Machine.writeScr s c cells p
        | none, (pa, _) :: _ => Machine.putBytes s pa (cells.map (·.2)) p
        | none, [] => s)
      (match sc, cells with
        | some c, _ => Machine.writeScr t c cells p
        | none, (pa, _) :: _ => Machine.putBytes t pa (cells.map (·.2)) p
        | none, [] => t) := by
    split
    · exact h.writeScr _ _ _
    · exact h.putBytes _ _ _
    · exact h
  split
  · exact hw
  · exact hw.addLate _

theorem CoresApart.leave (h : CoresApart s t) (q : Store) : CoresApart (q.leave s) (q.leave t) := by
  have hf : t.freeCtr = s.freeCtr := by rw [h.state]
  rw [Store.leave, Store.leave, hf]
  exact h.performWrite _ _ _ _ _ _ _

theorem CoresApart.flushWhere (h : CoresApart s t) (p : Store → Bool) : CoresApart (flushWhere s p) (flushWhere t p) := by
  unfold Machine.flushWhere
  rw [h.queue]
  split
  · exact h
  · exact CoresApart.foldl (fun _ _ q k => k.leave q) _ ⟨by rw [h.state], h.count, h.scr⟩

end

/-! ### Events and the queue -/

/-- t holds the events and the queue of s. -/
structure SameEvents (s t : State) : Prop where
  late : t.late = s.late
  queue : t.queue = s.queue

section
variable {s t u : State}

theorem SameEvents.refl (s : State) : SameEvents s s := ⟨rfl, rfl⟩

theorem SameEvents.trans (h : SameEvents s t) (k : SameEvents t u) : SameEvents s u :=
  ⟨k.late.trans h.late, k.queue.trans h.queue⟩

theorem SameEvents.foldl {α : Type} {f : State → α → State} (hf : ∀ s a, SameEvents s (f s a)) (l : List α) (s : State) :
    SameEvents s (l.foldl f s) := by
  induction l generalizing s with
  | nil => exact .refl s
  | cons a l ih => exact (hf s a).trans (ih _)

end

section
variable (s : State)

theorem sameEvents_writePhys (a : Nat) (bs : List Byte) : SameEvents s (writePhys s a bs) := by
  induction bs generalizing s a with
  | nil => exact .refl s
  | cons b bs ih =>
    refine SameEvents.trans (t := writeByte s a b) ?_ (ih _ _)
    unfold writeByte
    split <;> exact ⟨rfl, rfl⟩

theorem sameEvents_setPoison (sc : Option Nat) (a n : Nat) (p : Option Nat) : SameEvents s (setPoison s sc a n p) := by
  unfold setPoison
  split
  · split <;> exact ⟨rfl, rfl⟩
  · exact ⟨rfl, rfl⟩

theorem sameEvents_markSpill (a n : Nat) : SameEvents s (markSpill s a n) := by
  unfold markSpill
  refine SameEvents.foldl (fun _ _ => ?_) _ s
  exact ⟨rfl, rfl⟩

theorem sameEvents_keepCode (a n : Nat) : SameEvents s (keepCode s a n) := by
  have hu : SameEvents s (if s.launches.any (fun l => codeHit s l a n) then
      { s with launches := s.launches.map (fun l => if codeHit s l a n then { l with oldCode := noteOld s a n l.oldCode } else l) }
      else s) := by
    split <;> exact ⟨rfl, rfl⟩
  unfold keepCode
  extract_lets u
  split
  · exact SameEvents.trans hu ⟨rfl, rfl⟩
  · exact hu

theorem sameEvents_putBytes (a : Nat) (bs : List Byte) (p : Option Nat) : SameEvents s (putBytes s a bs p) :=
  (((sameEvents_keepCode s _ _).trans (sameEvents_writePhys _ _ _)).trans (sameEvents_markSpill _ _ _)).trans
    (sameEvents_setPoison _ _ _ _ _)

theorem sameEvents_writeScr (c : Nat) (cells : List (Nat × Byte)) (p : Option Nat) : SameEvents s (writeScr s c cells p) :=
  SameEvents.trans (t := s.updCore c (fun k => { k with scr := k.scr.writeCells cells })) ⟨rfl, rfl⟩
    (SameEvents.foldl (fun _ _ => sameEvents_setPoison _ _ _ _ _) _ _)

/-- A write adds one event at most, the last, and leaves the queue alone. -/
theorem performWrite_events (a : Agent) (n : Nat) (rmw : Bool) (b : List Since) (sc : Option Nat) (cells : List (Nat × Byte))
    (p : Option Nat) :
    (performWrite s a n rmw b sc cells p).late =
      s.late ++ (if sc.isNone && cells.any (fun c => inHost s c.1) then [] else [newLate s a n rmw b sc (cells.map (·.1))]) ∧
    (performWrite s a n rmw b sc cells p).queue = s.queue := by
  have hw : SameEvents s (match sc, cells with
      | some c, _ => writeScr s c cells p
      | none, (pa, _) :: _ => putBytes s pa (cells.map (·.2)) p
      | none, [] => s) := by
    split
    · exact sameEvents_writeScr s _ _ _
    · exact sameEvents_putBytes s _ _ _
    · exact .refl s
  unfold performWrite
  dsimp only
  by_cases h : (sc.isNone && cells.any (fun c => inHost s c.1)) = true
  · rw [if_pos h, if_pos h, List.append_nil]
    exact ⟨hw.late, hw.queue⟩
  · rw [if_neg h, if_neg h]
    exact ⟨congrArg (· ++ _) hw.late, hw.queue⟩

theorem flushWhere_queue (p : Store → Bool) : (flushWhere s p).queue = s.queue.filter (fun q => !p q) := by
  have hl (l : List Store) (s : State) : (l.foldl (fun s q => q.leave s) s).queue = s.queue := by
    induction l generalizing s with
    | nil => rfl
    | cons q l ih => exact (ih _).trans (performWrite_events _ _ _ _ _ _ _ _).2
  unfold flushWhere
  split
  case isTrue h => simp [h]
  case isFalse => exact hl _ _

theorem grows_flushWhere (p : Store → Bool) : Grows s.late (flushWhere s p).late := by
  have hl (l : List Store) (s : State) : Grows s.late (l.foldl (fun s q => q.leave s) s).late := by
    induction l generalizing s with
    | nil => exact .refl _
    | cons q l ih =>
      refine Grows.trans ?_ (ih _)
      show Grows s.late (q.leave s).late
      rw [Store.leave, (performWrite_events _ _ _ _ _ _ _ _).1]
      exact .add _ _
  unfold flushWhere
  split
  · exact .refl _
  · exact hl _ _

end

end Sys2Proof.Claims
end

