-- ==== Sys2Proof/Proofs/DescriptorStart.lean ====
section
/-! The start of a descriptor by a group (02 R49): what it acquires (08 R220), and where the group then stands. -/

namespace Sys2Proof.Claims

open Machine

/-! ### What a release covers (08 R219) -/

theorem Further.precedes {e f : Late} (h : Further e f) {a : Agent} {t : Nat} (hp : e.precedes a t = true) : f.precedes a t = true := by
  simp only [Late.precedes, Bool.or_eq_true, Bool.and_eq_true, beq_iff_eq, decide_eq_true_eq, List.any_eq_true] at hp ⊢
  rcases hp with hp | ⟨b, hb, hv⟩
  · exact .inl (by obtain ⟨ha, ho⟩ := hp; exact ⟨h.agent.symm.trans ha, h.order.symm.trans_le ho⟩)
  · exact .inr ⟨b, h.before b hb, hv⟩

/-- A release that covers what q does, and each of its events as it stands further. -/
theorem Release.covers_further {q r : Release} {e f : Late} (ha : r.agents = q.agents) (ht : r.time = q.time) (h : Further e f)
    (hc : q.covers e = true) : r.covers f = true := by
  rw [Release.covers, List.any_eq_true] at hc ⊢
  obtain ⟨a, hm, hp⟩ := hc
  exact ⟨a, ha ▸ hm, ht ▸ h.precedes hp⟩

/-! ### What the start acquires -/

/-- The stores whose leaving the start of a descriptor awaits: the context's before the EMIT (08 R220). -/
def earlier (c k time : Nat) (q : Store) : Bool := !q.host && q.agent == ctxAgent c k .c && decide (q.order ≤ time)

section
variable {s : State} {c k g : Nat} {d : Desc}

theorem followFences_covers {q : Release} (hq : q ∈ s.releases) : ∃ r ∈ (followFences s c k g d).releases,
    r.link = q.link ∧ r.agents = q.agents ∧ r.time = q.time := by
  refine ⟨_, List.mem_map_of_mem hq, ?_⟩
  split <;> exact ⟨rfl, rfl, rfl⟩

theorem sameCtxs_followFences (s : State) (c k g : Nat) (d : Desc) : SameCtxs s (followFences s c k g d) := .of_cores rfl rfl

theorem mem_followFences {r : Release} (hr : r ∈ (followFences s c k g d).releases) : ∃ q ∈ s.releases,
    r.link = q.link ∧ r.agents = q.agents ∧ r.time = q.time := by
  obtain ⟨q, hq, rfl⟩ := List.mem_map.mp hr
  refine ⟨q, hq, ?_⟩
  split <;> exact ⟨rfl, rfl, rfl⟩

theorem sameCtxs_releaseBarrier (s : State) (c k : Nat) (d : Desc) : SameCtxs s (releaseBarrier s c k d) := by
  unfold releaseBarrier
  split
  · exact .refl s
  · exact (sameCtxs_flushWhere s _).trans (sameCtxs_release _ _ _ _ _)

theorem grows_releaseBarrier (s : State) (c k : Nat) (d : Desc) : Grows s.late (releaseBarrier s c k d).late := by
  unfold releaseBarrier
  split
  · exact .refl _
  · exact grows_flushWhere s _

/-- The state in which the start of a descriptor acquires: stores have left, a barrier's release is performed. -/
def beforeStart (s : State) (c k g : Nat) (d : Desc) : State :=
  followFences (releaseBarrier (flushWhere s (earlier c k d.time)) c k d) c k g d

/-- What the start of a descriptor acquires. -/
def acquired (s : State) (c k : Nat) (d : Desc) (e : Late) : Bool :=
  (s.releases.filter (fun r => r.link == .block c k d.time || (d.bar && r.link == .barrier c k d.time))).any (·.covers e)

theorem acquireStart_steps (s : State) (c k g : Nat) (d : Desc) : ∃ p q r : Late → Bool, acquireStart s c k g d =
    acquireWhere (acquireWhere (acquireWhere (acquireWhere (beforeStart s c k g d) (acquired (beforeStart s c k g d) c k d)
      [.one (grpAgent c k g .l)]) p [.one (grpAgent c k g .c)]) q [.one (grpAgent c k g .gotX)]) r [.one (grpAgent c k g .u)] :=
  ⟨_, _, _, rfl⟩

theorem onlyOrders_acquireStart (s : State) (c k g : Nat) (d : Desc) : OnlyOrders (beforeStart s c k g d) (acquireStart s c k g d) := by
  obtain ⟨p, q, r, h⟩ := acquireStart_steps s c k g d
  rw [h]
  exact (((onlyOrders_acquireWhere _ _ _).trans (onlyOrders_acquireWhere _ _ _)).trans (onlyOrders_acquireWhere _ _ _)).trans
    (onlyOrders_acquireWhere _ _ _)

theorem grows_flushed_acquireStart (s : State) (c k g : Nat) (d : Desc) :
    Grows (flushWhere s (earlier c k d.time)).late (acquireStart s c k g d).late :=
  (grows_releaseBarrier (flushWhere s (earlier c k d.time)) c k d).trans (.of_orders (onlyOrders_acquireStart s c k g d).2)

theorem grows_acquireStart (s : State) (c k g : Nat) (d : Desc) : Grows s.late (acquireStart s c k g d).late :=
  (grows_flushWhere s _).trans (grows_flushed_acquireStart s c k g d)

theorem sameCtxs_acquireStart (s : State) (c k g : Nat) (d : Desc) : SameCtxs s (acquireStart s c k g d) :=
  (((sameCtxs_flushWhere s _).trans (sameCtxs_releaseBarrier _ c k d)).trans (sameCtxs_followFences _ c k g d)).trans
    (onlyOrders_acquireStart s c k g d).sameCtxs

/-- The releases of a barrier hold its groups' L events up to a time. -/
def BarrierHolds (s : State) (c k time n now : Nat) : Prop :=
  ∀ r ∈ s.releases, r.link = .barrier c k time → (∀ h < n, grpAgent c k h .l ∈ r.agents) ∧ r.time = now

theorem BarrierHolds.of_subset {t : State} {time n now : Nat} (h : BarrierHolds s c k time n now)
    (hs : ∀ r ∈ t.releases, r.link = .barrier c k time → ∃ q ∈ s.releases, r.link = q.link ∧ r.agents = q.agents ∧ r.time = q.time) :
    BarrierHolds t c k time n now := by
  intro r hr hl
  obtain ⟨q, hq, hlq, ha, ht⟩ := hs r hr hl
  rw [ha, ht]
  exact h q hq (hlq ▸ hl)

theorem releaseBarrier_keeps {q : Release} (hq : q ∈ s.releases) : q ∈ (releaseBarrier s c k d).releases := by
  have hf := (storesOnly_flushWhere s (fun q => !q.host &&
    ((List.range (s.ctx c k).groups.length).map (fun g => grpAgent c k g .l)).contains q.agent)).releases
  unfold releaseBarrier
  split
  · exact hq
  · exact List.mem_append_left _ (hf ▸ hq)

theorem releaseBarrier_holds (h : BarrierHolds s c k d.time (s.ctx c k).groups.length s.freeCtr) :
    BarrierHolds (releaseBarrier s c k d) c k d.time (s.ctx c k).groups.length s.freeCtr := by
  unfold releaseBarrier
  split
  · exact h
  · intro r hr hl
    rw [release, (storesOnly_flushWhere s _).releases, (storesOnly_flushWhere s _).freeCtr] at hr
    rcases List.mem_append.mp hr with hr | hr
    · exact h r hr hl
    · obtain rfl := List.mem_singleton.mp hr
      exact ⟨fun i hi => List.mem_map_of_mem (List.mem_range.mpr hi), rfl⟩

theorem releaseBarrier_exists (hb : d.bar = true) : ∃ r ∈ (releaseBarrier s c k d).releases, r.link = .barrier c k d.time := by
  unfold releaseBarrier
  split
  case isTrue h =>
    simp only [hb, Bool.not_true, Bool.false_or, List.any_eq_true, beq_iff_eq] at h
    exact h
  case isFalse => exact ⟨_, List.mem_append_right _ (List.mem_singleton.mpr rfl), rfl⟩

theorem releaseBarrier_freeCtr (s : State) (c k : Nat) (d : Desc) : (releaseBarrier s c k d).freeCtr = s.freeCtr := by
  unfold releaseBarrier
  split
  · rfl
  · exact (storesOnly_flushWhere s _).freeCtr

theorem acquireStart_freeCtr (s : State) (c k g : Nat) (d : Desc) : (acquireStart s c k g d).freeCtr = s.freeCtr :=
  ((onlyOrders_acquireStart s c k g d).storesOnly.freeCtr.trans (releaseBarrier_freeCtr _ c k d)).trans (storesOnly_flushWhere s _).freeCtr

theorem acquireStart_holds (h : BarrierHolds s c k d.time (s.ctx c k).groups.length s.freeCtr) :
    BarrierHolds (acquireStart s c k g d) c k d.time (s.ctx c k).groups.length s.freeCtr := by
  have hs := storesOnly_flushWhere s (earlier c k d.time)
  have hf : BarrierHolds (flushWhere s (earlier c k d.time)) c k d.time (s.ctx c k).groups.length s.freeCtr := by
    rwa [BarrierHolds, hs.releases]
  have hr := releaseBarrier_holds (s := flushWhere s (earlier c k d.time)) (by rwa [hs.ctx, hs.freeCtr])
  rw [hs.ctx, hs.freeCtr] at hr
  have hb : BarrierHolds (beforeStart s c k g d) c k d.time (s.ctx c k).groups.length s.freeCtr :=
    hr.of_subset fun r hm _ => mem_followFences hm
  rwa [BarrierHolds, (onlyOrders_acquireStart s c k g d).storesOnly.releases]

theorem covers_acquireStart :
    Covers (beforeStart s c k g d) (acquireStart s c k g d) (fun e => acquired (beforeStart s c k g d) c k d e = true) (grpAgent c k g .l) := by
  obtain ⟨p, q, r, h⟩ := acquireStart_steps s c k g d
  have hc := covers_acquireWhere (s := beforeStart s c k g d) (q := acquired (beforeStart s c k g d) c k d) (a := grpAgent c k g .l)
    (v := .one (grpAgent c k g .l)) (p := fun e => acquired (beforeStart s c k g d) c k d e = true) (List.mem_singleton.mpr rfl) (by simp [View.has]) fun _ _ h => h
  rw [h]
  exact hc.mono (((onlyOrders_acquireWhere _ _ _).trans (onlyOrders_acquireWhere _ _ _)).trans (onlyOrders_acquireWhere _ _ _))

/-- The start acquires what the descriptor's EMIT released. -/
theorem acquireStart_covers_block : Covers (flushWhere s (earlier c k d.time)) (acquireStart s c k g d)
    (fun e => ∃ r ∈ s.releases, r.link = .block c k d.time ∧ r.covers e = true) (grpAgent c k g .l) := by
  refine Covers.of_grows (grows_releaseBarrier _ c k d) covers_acquireStart fun e f hef he => ?_
  obtain ⟨q, hq, hl, hc⟩ := he
  rw [← (storesOnly_flushWhere s (earlier c k d.time)).releases] at hq
  obtain ⟨r, hr, hlr, ha, ht⟩ := followFences_covers (g := g) (d := d) (releaseBarrier_keeps (c := c) (k := k) (d := d) hq)
  exact List.any_eq_true.mpr ⟨r, List.mem_filter.mpr ⟨hr, by simp [hlr, hl]⟩, Release.covers_further ha ht hef hc⟩

/-- The start of a barrier acquires what its groups did before. -/
theorem acquireStart_covers_barrier (hb : d.bar = true) (h : BarrierHolds s c k d.time (s.ctx c k).groups.length s.freeCtr) {i : Nat}
    (hi : i < (s.ctx c k).groups.length) : Covers s (acquireStart s c k g d)
      (fun e => e.agent = grpAgent c k i .l ∧ e.order ≤ s.freeCtr) (grpAgent c k g .l) := by
  refine Covers.of_grows ((grows_flushWhere s (earlier c k d.time)).trans (grows_releaseBarrier _ c k d)) covers_acquireStart
    fun e f hef he => ?_
  obtain ⟨q, hq, hl⟩ := releaseBarrier_exists (s := flushWhere s (earlier c k d.time)) (c := c) (k := k) hb
  obtain ⟨r, hr, hlr, -, -⟩ := followFences_covers (c := c) (k := k) (g := g) (d := d) hq
  have hlr' := hlr.trans hl
  obtain ⟨hag, htm⟩ := acquireStart_holds (g := g) h r (by rwa [(onlyOrders_acquireStart s c k g d).storesOnly.releases]) hlr'
  refine List.any_eq_true.mpr ⟨r, List.mem_filter.mpr ⟨hr, by simp [hlr', hb]⟩, List.any_eq_true.mpr ⟨_, hag i hi, ?_⟩⟩
  obtain ⟨ha, ho⟩ := he
  refine hef.precedes ?_
  simp [Late.precedes, ha, htm, ho]

theorem acquireStart_queue {q : Store} (hq : q ∈ (acquireStart s c k g d).queue) (ha : q.agent = ctxAgent c k .c) :
    q.host = true ∨ d.time < q.order := by
  have hb : (releaseBarrier (flushWhere s (earlier c k d.time)) c k d).queue ⊆ (flushWhere s (earlier c k d.time)).queue := by
    unfold releaseBarrier
    split
    · exact List.Subset.refl _
    · rw [release, flushWhere_queue]
      exact List.filter_subset_self _
  have ho : (acquireStart s c k g d).queue = (beforeStart s c k g d).queue := by rw [(onlyOrders_acquireStart s c k g d).1]
  rw [ho] at hq
  have hm := hb hq
  rw [flushWhere_queue] at hm
  have hn := (List.mem_filter.mp hm).2
  simp only [earlier, ha, beq_self_eq_true, Bool.and_true, Bool.not_eq_true', Bool.and_eq_false_iff, decide_eq_false_iff_not,
    Nat.not_le] at hn
  exact hn.imp_left (by simp)

end

/-! ### Where the group then stands (02 R49) -/

/-- A group that has entered a descriptor: FMT and its stack as the flags leave them, the lanes of its word active. -/
def entered (r : Machine.Group) (g : Nat) (d : Desc) : Machine.Group :=
  { r.fmtFlags d with pos := { (r.fmtFlags d).pos with seq := d.seq, activity := maskWord d.activity g, delivered := false } }

/-- A group that has nothing to do in a descriptor. -/
def passedBy (r : Machine.Group) (g : Nat) (d : Desc) : Machine.Group :=
  { entered r g d with pos := { (entered r g d).pos with st := .done, status := .waiting } }

section
variable {r : Machine.Group} {g n : Nat} {d : Desc}

theorem fmtFlags_others (r : Machine.Group) (d : Desc) : (r.fmtFlags d).outs = r.outs ∧ (r.fmtFlags d).rstores = r.rstores := by
  unfold Machine.Group.fmtFlags
  dsimp only
  split <;> split <;> split <;> exact ⟨rfl, rfl⟩

theorem fmtFlags_flagged (r : Machine.Group) (d : Desc) : FmtFlagged d r (r.fmtFlags d) := by
  unfold FmtFlagged Machine.Group.fmtFlags
  cases d.pop <;> cases d.push <;> cases d.peek <;> exact ⟨rfl, rfl⟩

theorem getLsbD_maskWord (m : Mask) (g : Nat) {i : Nat} (hi : i < 32) : (maskWord m g).getLsbD i = m.getLsbD (32 * g + i) :=
  (fld_bit _ _ _ _).trans (by simp [hi, bit])

theorem started_entered (r : Machine.Group) (g : Nat) (d : Desc) (n : Nat) :
    Started (awake ((entered r g d).startTrip d 0) n) g d ∧ FmtFlagged d r (awake ((entered r g d).startTrip d 0) n) := by
  refine ⟨⟨rfl, rfl, rfl, rfl, rfl, rfl, rfl, rfl, rfl, rfl, fun i hi => ?_⟩, fmtFlags_flagged r d⟩
  exact getLsbD_maskWord _ _ hi

theorem hasWork_iff (d : Desc) (g : Nat) : HasWork d g ↔ ¬ (maskWord d.activity g = 0 ∨ d.trip = 0) := by
  have hz : maskWord d.activity g = 0 ↔ ¬ ∃ i, i < 32 ∧ d.activity.getLsbD (32 * g + i) = true := by
    constructor
    · rintro h ⟨i, hi, hb⟩
      rw [← getLsbD_maskWord _ _ hi, h] at hb
      simp at hb
    · intro h
      refine BitVec.eq_of_getLsbD_eq fun i hi => ?_
      simpa [getLsbD_maskWord _ _ hi] using fun hb => h ⟨i, hi, hb⟩
  rw [HasWork, not_or, hz, not_not, and_comm]

/-- The context once group g has started d: Eligible, or past it with its zero word delivered. -/
def startedCtx (x : Ctx) (r : Machine.Group) (g : Nat) (d : Desc) (stamp : Nat) : Ctx :=
  if maskWord d.activity g = 0 ∨ d.trip = 0 then
    ((if d.ret then x.deliver d.seq g (maskWord d.activity g) none else x).setGroup g (passedBy r g d)).retire
  else x.setGroup g (awake ((entered r g d).startTrip d 0) stamp)

variable {s : State} {c k : Nat} {x : Ctx}

theorem group_of_getElem? (h : x.groups[g]? = some r) : x.group g = r := by rw [Ctx.group, List.getD, h]; rfl

theorem setGroup_setGroup (x : Ctx) (g : Nat) (a b : Machine.Group) : (x.setGroup g a).setGroup g b = x.setGroup g b := by
  simp [Ctx.setGroup]

theorem sameCtxs_releaseReturn (s : State) (c k g : Nat) (n : W32) : SameCtxs s (releaseReturn s c k g n) := by
  unfold releaseReturn
  split
  · exact .refl s
  · split
    · exact .refl s
    · exact sameCtxs_release _ _ _ _ _

theorem startDesc_eq (hr : (s.ctx c k).group g = r) : startDesc s c k g d =
    if maskWord d.activity g = 0 ∨ d.trip = 0 then
      (if d.ret then deliverWord (acquireStart s c k g d) c k g d.seq (maskWord d.activity g) none else acquireStart s c k g d).updCtx c k
        (fun x => (x.setGroup g (passedBy r g d)).retire)
    else makeEligible ((acquireStart s c k g d).setCtx c k ((s.ctx c k).setGroup g ((entered r g d).startTrip d 0))) c k g := by
  have hu := (sameCtxs_acquireStart s c k g d).ctx c k
  rw [← hr, ← hu]
  split
  case isTrue h => exact if_pos (by simpa using h)
  case isFalse h => exact if_neg (by simpa using h)

theorem sameShape_acquireStart (s : State) (c k g : Nat) (d : Desc) : SameShape s (acquireStart s c k g d) := by
  have hb : SameShape (flushWhere s (earlier c k d.time)) (releaseBarrier (flushWhere s (earlier c k d.time)) c k d) := by
    unfold releaseBarrier
    split
    · exact .refl _
    · have h := (storesOnly_flushWhere (flushWhere s (earlier c k d.time)) (fun q => !q.host && ((List.range
        ((flushWhere s (earlier c k d.time)).ctx c k).groups.length).map (fun g => grpAgent c k g .l)).contains q.agent)).sameShape
      exact ⟨h.cores, h.ctxs⟩
  have hf : SameShape (releaseBarrier (flushWhere s (earlier c k d.time)) c k d) (beforeStart s c k g d) := .of_cores rfl
  exact (((storesOnly_flushWhere s _).sameShape.trans hb).trans hf).trans (onlyOrders_acquireStart s c k g d).storesOnly.sameShape

theorem sameShape_releaseReturn (s : State) (c k g : Nat) (n : W32) : SameShape s (releaseReturn s c k g n) := by
  unfold releaseReturn
  split
  · exact .refl s
  · split
    · exact .refl s
    · exact .of_cores rfl

theorem sameShape_startDesc (s : State) (c k g : Nat) (d : Desc) : SameShape s (startDesc s c k g d) := by
  have hu := sameShape_acquireStart s c k g d
  rw [startDesc_eq rfl]
  split
  · split
    · exact ((hu.trans (sameShape_releaseReturn _ c k g d.seq)).trans (sameShape_updCtx _ c k _)).trans (sameShape_updCtx _ c k _)
    · exact hu.trans (sameShape_updCtx _ c k _)
  · exact (hu.trans (sameShape_setCtx _ c k _)).trans (sameShape_makeEligible _ c k g)

/-- Context k of core c is there. -/
structure InRange (s : State) (c k : Nat) : Prop where
  core : c < s.cores.length
  ctx : k < (s.core c).ctxs.length

theorem InRange.of_shape {t : State} (h : InRange s c k) (hs : SameShape s t) : InRange t c k :=
  ⟨hs.cores.symm ▸ h.core, hs.ctxs c ▸ h.ctx⟩

theorem InRange.ctx_setCtx (h : InRange s c k) (y : Ctx) : (s.setCtx c k y).ctx c k = y := State.ctx_setCtx_self _ _ _ _ h.core h.ctx

theorem InRange.ctx_updCtx (h : InRange s c k) (f : Ctx → Ctx) : (s.updCtx c k f).ctx c k = f (s.ctx c k) := h.ctx_setCtx _

theorem InRange.ctx_deliverWord (h : InRange s c k) (g : Nat) (n w : W32) (p : Option (Nat × W64)) :
    (deliverWord s c k g n w p).ctx c k = (s.ctx c k).deliver n g w p := by
  rw [deliverWord, (h.of_shape (sameShape_releaseReturn s c k g n)).ctx_updCtx, (sameCtxs_releaseReturn s c k g n).ctx]

theorem sameShape_deliverWord (s : State) (c k g : Nat) (n w : W32) (p : Option (Nat × W64)) : SameShape s (deliverWord s c k g n w p) :=
  (sameShape_releaseReturn s c k g n).trans (sameShape_updCtx _ c k _)

theorem startDesc_ctx (h : InRange s c k) (hx : s.ctx c k = x) (hg : x.groups[g]? = some r) :
    (startDesc s c k g d).ctx c k = startedCtx x r g d (acquireStart s c k g d).stamp := by
  have hu := (sameCtxs_acquireStart s c k g d).ctx c k
  have hr := h.of_shape (sameShape_acquireStart s c k g d)
  have hlt := (List.getElem?_eq_some_iff.mp hg).1
  rw [startDesc_eq (hx ▸ group_of_getElem? hg), startedCtx]
  split
  · split
    · rw [(hr.of_shape (sameShape_deliverWord _ _ _ _ _ _ _)).ctx_updCtx, hr.ctx_deliverWord, hu, hx]
    · rw [hr.ctx_updCtx, hu, hx]
  · have hy := hr.ctx_setCtx ((s.ctx c k).setGroup g ((entered r g d).startTrip d 0))
    refine ((hr.of_shape (sameShape_setCtx _ c k _)).ctx_setCtx _).trans ?_
    rw [State.group, hy, hx, setGroup_setGroup]
    simp [Ctx.group, Ctx.setGroup, List.getD, hlt, awake]

/-- t holds the events, the queue and the time of s, and no releases besides but of return words. -/
structure Returns (s t : State) (c k : Nat) : Prop where
  events : SameEvents s t
  freeCtr : t.freeCtr = s.freeCtr
  releases : ∀ q ∈ t.releases, q ∈ s.releases ∨ ∃ n, q.link = .ret c k n

theorem Returns.of_eq {t : State} (h : SameEvents s t) (hf : t.freeCtr = s.freeCtr) (hr : t.releases = s.releases) : Returns s t c k :=
  ⟨h, hf, fun _ hq => .inl (hr ▸ hq)⟩

theorem returns_deliverWord (s : State) (c k g : Nat) (n w : W32) (p : Option (Nat × W64)) : Returns s (deliverWord s c k g n w p) c k := by
  have hr : Returns s (releaseReturn s c k g n) c k := by
    unfold releaseReturn
    split
    · exact .of_eq ⟨rfl, rfl⟩ rfl rfl
    case h_2 e _ =>
      split
      · exact .of_eq ⟨rfl, rfl⟩ rfl rfl
      · refine ⟨⟨rfl, rfl⟩, rfl, fun q hq => ?_⟩
        rcases List.mem_append.mp hq with hq | hq
        · exact .inl hq
        · exact .inr ⟨e.time, by rw [List.mem_singleton.mp hq]⟩
  exact ⟨⟨hr.events.late, hr.events.queue⟩, hr.freeCtr, hr.releases⟩

/-- After the start's acquires only a word may be delivered, and with it a release of the group's. -/
theorem startDesc_returns (s : State) (c k g : Nat) (d : Desc) : Returns (acquireStart s c k g d) (startDesc s c k g d) c k := by
  rw [startDesc_eq rfl]
  generalize acquireStart s c k g d = u
  split
  · split
    · have h := returns_deliverWord u c k g d.seq (maskWord d.activity g) none
      exact ⟨⟨h.events.late, h.events.queue⟩, h.freeCtr, h.releases⟩
    · exact .of_eq ⟨rfl, rfl⟩ rfl rfl
  · exact .of_eq ⟨rfl, rfl⟩ rfl rfl

end

end Sys2Proof.Claims
end

