-- ==== Sys2Proof/Proofs/DescriptorsStart.lean ====
section
/-! A descriptor that becomes visible, and a barrier's release (02 R50, R69). -/

namespace Sys2Proof.Claims

open Machine

section
variable {s : State} {c k g : Nat} {x : Ctx} {r : Machine.Group} {d : Desc}

theorem nextSeq_eq (r : Machine.Group) : r.nextSeq = nextNumber r := by simp [Machine.Group.nextSeq, nextNumber]

theorem descOf_nextSeq (h : NextIs x r d) : x.descOf r.nextSeq = some d ∧ d.seq = nextNumber r := by
  have hf : x.descOf (nextNumber r) = some d := h
  rw [nextSeq_eq]
  exact ⟨hf, by simpa using List.find?_some hf⟩

/-! ### What a group may start -/

/-- The number's descriptor once the oldest unseen one is shown to the group. -/
theorem find_showNext {n : W32} {p q : List Desc} (hg : g < 32) (hp : ∀ e ∈ p, e.seen.getLsbD g = true)
    (h : (p ++ d :: q).find? (fun e => e.seq == n) = some d) :
    ∃ v : Lanes, v.getLsbD g = true ∧ (showNext g (p ++ d :: q)).find? (fun e => e.seq == n) = some { d with seen := v } := by
  have hn := List.find?_some h
  induction p with
  | nil =>
    rw [List.nil_append, showNext]
    split
    case isTrue hs => exact ⟨d.seen, hs, List.find?_cons_of_pos hn⟩
    case isFalse => exact ⟨_, by simp [getLsbD_putBit _ _ _ _ hg], List.find?_cons_of_pos hn⟩
  | cons e p ih =>
    have he := hp e List.mem_cons_self
    rw [List.cons_append, showNext, if_pos he]
    rw [List.cons_append] at h
    cases hen : e.seq == n with
    | true =>
      rw [List.find?_cons, hen] at h
      obtain rfl := Option.some.inj h
      exact ⟨e.seen, he, by rw [List.find?_cons, hen]⟩
    | false =>
      simp only [List.find?_cons, hen] at h ⊢
      exact ih (fun a ha => hp a (List.mem_cons_of_mem _ ha)) h

theorem head_showNext (g : Nat) (l : List Desc) : (showNext g l).head?.map (·.seq) = l.head?.map (·.seq) := by
  cases l with
  | nil => rfl
  | cons e l => rw [showNext]; split <;> rfl

/-- Every group that has not started a barrier has its remote accesses performed (08 R222). -/
def Quiet (x : Ctx) (n : W32) : Prop :=
  ∀ o ∈ x.groups, nextNumber o = n → (∀ v ∈ o.outs, v.remote = []) ∧ ∀ st ∈ o.rstores, st.performed = true

theorem barrierDone_iff : x.barrierDone d = true ↔ Quiet x d.seq := by
  simp [Ctx.barrierDone, Quiet, nextSeq_eq, Decidable.imp_iff_not_or]

theorem startable_eq_some {y : Ctx} {e : Desc} : y.startable g = some e ↔ y.descOf (y.group g).nextSeq = some e ∧ e.regroup = none ∧
    (y.group g).pos.status = .waiting ∧ y.trig = none ∧ e.seen.getLsbD g = true ∧
    (e.bar = true → y.strm.blockQ.head?.map (·.seq) = some e.seq ∧ Quiet y e.seq) := by
  unfold Ctx.startable
  dsimp only
  split
  case h_1 h => simp [h]
  case h_2 b h =>
    rw [h, Option.some.injEq]
    by_cases hbe : b = e
    · subst hbe
      have hhead : (y.strm.blockQ.head?.any fun f => f.seq == b.seq) = true ↔ y.strm.blockQ.head?.map (·.seq) = some b.seq := by
        cases y.strm.blockQ.head? <;> simp
      rw [← hhead, ← barrierDone_iff]
      cases b.bar <;> cases b.regroup <;> simp [and_assoc]
    · have hn : ∀ p q : Bool, (if p then none else if q then none else some b) ≠ some e := by
        intro p q
        cases p <;> cases q <;> simp [hbe]
      exact iff_of_false (hn _ _) fun k => hbe k.1

theorem exec_descriptorVisible (h : Live s c k x) (hr : x.groups[g]? = some r) (hw : r.pos.status = .waiting) (hn : NextIs x r d)
    (hm : d.regroup = none) (hb : d.bar = true → x.strm.blockQ.head?.map (·.seq) = some d.seq ∧ Quiet x d.seq) (hg : g < 32)
    {p q : List Desc} (hq : x.strm.blockQ = p ++ d :: q) (hp : ∀ e ∈ p, e.seen.getLsbD g = true) :
    ∃ v : Lanes, exec (.descriptorVisible c k g) s = .next (startDesc (s.setCtx c k (x.showNext g)) c k g { d with seen := v }) := by
  have hf := (descOf_nextSeq hn).1
  rw [Ctx.descOf, hq] at hf
  obtain ⟨v, hv, hd⟩ := find_showNext hg hp hf
  have hs : (x.showNext g).startable g = some { d with seen := v } := by
    rw [startable_eq_some, show (x.showNext g).group g = r from group_of_getElem? hr]
    exact ⟨by rw [Ctx.descOf, ← hd, ← hq]; rfl, hm, hw, h.2.2.1, hv, fun e => ⟨(head_showNext _ _).trans (hb e).1, (hb e).2⟩⟩
  refine ⟨v, ?_⟩
  have hl := h.live
  simp only [exec, execDescriptorVisible, onLive, hl, if_true, h.1, hs]
  rw [show (x.showNext g).groups[g]? = some r from hr]

theorem startedCtx_group {n : Nat} (hg : g < x.groups.length) : (startedCtx x r g d n).group g =
    if maskWord d.activity g = 0 ∨ d.trip = 0 then passedBy r g d else awake ((entered r g d).startTrip d 0) n := by
  unfold startedCtx
  split
  · split <;> simp [Ctx.retire, Ctx.group, Ctx.setGroup, Ctx.deliver, List.getD, hg]
  · simp [Ctx.group, Ctx.setGroup, List.getD, hg]

/-- What the start of a descriptor leaves of the context: its queue while a group stands before or in the descriptor. -/
theorem startedCtx_keeps {n : Nat} {rest : List Desc} (hr : x.groups[g]? = some r) (hq : x.strm.blockQ = d :: rest)
    (hs : nextNumber r = d.seq) {h : Nat} (o : Machine.Group)
    (hw : h = g → HasWork d g) :
    (startedCtx x o h d n).strm.blockQ = d :: rest ∧ (startedCtx x o h d n).trig = x.trig ∧
      ∃ q : Machine.Group, (startedCtx x o h d n).groups = x.groups.set h q ∧ q.outs = o.outs ∧ q.rstores = o.rstores ∧
        (h = g → nextNumber q = d.seq) := by
  unfold startedCtx
  split
  case isTrue hz =>
    have hne : h ≠ g := fun e => (hasWork_iff d g).mp (hw e) (e ▸ hz)
    have hg : (x.groups.set h (passedBy o h d))[g]? = some r := by rw [List.getElem?_set_ne hne, hr]
    have hdrop : dropDone (x.groups.set h (passedBy o h d)) (d :: rest) = d :: rest := by
      refine if_neg fun hall => ?_
      have := List.all_eq_true.mp hall r (List.mem_of_getElem? hg)
      simp [nextSeq_eq, hs] at this
    obtain ⟨houts, hrst⟩ := fmtFlags_others o d
    have hy : ∀ y : Ctx, y.strm.blockQ = x.strm.blockQ → y.groups = x.groups → y.trig = x.trig →
        (y.setGroup h (passedBy o h d)).retire.strm.blockQ = d :: rest ∧ (y.setGroup h (passedBy o h d)).retire.trig = x.trig ∧
          (y.setGroup h (passedBy o h d)).retire.groups = x.groups.set h (passedBy o h d) := by
      intro y hyq hyg hyt
      refine ⟨?_, hyt, by rw [← hyg]; rfl⟩
      rw [← hdrop, ← hq, ← hyq, ← hyg]
      rfl
    have hd := hy (if d.ret then x.deliver d.seq h (maskWord d.activity h) none else x) (by split <;> rfl) (by split <;> rfl) (by split <;> rfl)
    exact ⟨hd.1, hd.2.1, _, hd.2.2, houts, hrst, fun e => absurd e hne⟩
  case isFalse hz =>
    obtain ⟨houts, hrst⟩ := fmtFlags_others o d
    exact ⟨hq, rfl, _, rfl, houts, hrst, fun _ => rfl⟩

/-! ### A barrier's release (02 R50) -/

/-- A barrier d stands first in the queue of a team of n groups; group g has not completed it. -/
structure AtBarrier (s : State) (c k g n now : Nat) (d : Desc) : Prop where
  there : InRange s c k
  first : ∃ rest, (s.ctx c k).strm.blockQ = d :: rest
  idle : (s.ctx c k).trig = none
  count : (s.ctx c k).groups.length = n
  mine : ∃ r, (s.ctx c k).groups[g]? = some r ∧ nextNumber r = d.seq
  quiet : Quiet (s.ctx c k) d.seq
  now : s.freeCtr = now

/-- One group starts the barrier descriptor that it may start. -/
def startBarrier (c k : Nat) (s : State) (g : Nat) : State :=
  match (s.ctx c k).startable g with
  | some d => if d.bar then startDesc s c k g d else s
  | none => s

theorem exec_barrierRelease (h : Live s c k x) :
    exec (.barrierRelease c k) s = .next ((List.range x.groups.length).foldl (startBarrier c k) s) := by
  have hl := h.live
  simp only [exec, execBarrierRelease, onLive, hl, if_true, h.1]
  rfl

/-- t is s but for groups other than g that have started the barrier. -/
structure Others (s t : State) (c k g n now : Nat) (d : Desc) : Prop where
  grows : Grows s.late t.late
  group : t.group c k g = s.group c k g
  holds : BarrierHolds s c k d.time n now → BarrierHolds t c k d.time n now

variable {n now : Nat}

theorem AtBarrier.starts (hs : AtBarrier s c k g n now d) {h : Nat} (hh : h < n) (ho : nextNumber ((s.ctx c k).group h) = d.seq)
    (hw : h = g → HasWork d g) : AtBarrier (startDesc s c k h d) c k g n now d ∧
      (h ≠ g → (startDesc s c k h d).group c k g = s.group c k g) := by
  obtain ⟨rest, hq⟩ := hs.first
  obtain ⟨r, hr, hrn⟩ := hs.mine
  have hlt : h < (s.ctx c k).groups.length := hs.count.symm ▸ hh
  obtain ⟨o, hgo⟩ : ∃ o, (s.ctx c k).groups[h]? = some o := ⟨_, List.getElem?_eq_getElem hlt⟩
  rw [group_of_getElem? hgo] at ho
  have hctx := startDesc_ctx (d := d) hs.there rfl hgo
  obtain ⟨hqueue, htrig, q, hgroups, houts, hrst, hqn⟩ := startedCtx_keeps (n := (acquireStart s c k h d).stamp) hr hq hrn o hw
  rw [← hctx] at hqueue htrig hgroups
  have hquiet : Quiet ((startDesc s c k h d).ctx c k) d.seq := by
    intro o' ho' hn'
    rw [hgroups] at ho'
    rcases List.mem_or_eq_of_mem_set ho' with hm | rfl
    · exact hs.quiet o' hm hn'
    · rw [houts, hrst]
      exact hs.quiet o (List.mem_of_getElem? hgo) ho
  refine ⟨⟨hs.there.of_shape (sameShape_startDesc s c k h d), ⟨rest, hqueue⟩, htrig.trans hs.idle, by rw [hgroups, List.length_set, hs.count],
    ?_, hquiet, (startDesc_returns s c k h d).freeCtr.trans ((acquireStart_freeCtr s c k h d).trans hs.now)⟩, fun hne => ?_⟩
  · rw [hgroups]
    by_cases hhg : h = g
    · exact ⟨q, by rw [← hhg, List.getElem?_set_self hlt], hqn hhg⟩
    · exact ⟨r, by rw [List.getElem?_set_ne hhg, hr], hrn⟩
  · rw [State.group, State.group, Ctx.group, Ctx.group, hgroups, List.getD, List.getD, List.getElem?_set_ne hne]

theorem startDesc_holds (hs : AtBarrier s c k g n now d) (h : Nat) (hb : BarrierHolds s c k d.time n now) :
    BarrierHolds (startDesc s c k h d) c k d.time n now := by
  have ha := acquireStart_holds (g := h) (hs.count.symm ▸ hs.now.symm ▸ hb)
  rw [hs.count, hs.now] at ha
  intro q hq hl
  rcases (startDesc_returns s c k h d).releases q hq with hq | ⟨_, hr⟩
  · exact ha q hq hl
  · rw [hr] at hl
    cases hl

theorem startDesc_grows (s : State) (c k g : Nat) (d : Desc) : Grows s.late (startDesc s c k g d).late :=
  (startDesc_returns s c k g d).events.late ▸ grows_acquireStart s c k g d

theorem AtBarrier.startable (hs : AtBarrier s c k g n now d) {h : Nat} {e : Desc} (he : (s.ctx c k).startable h = some e) (hb : e.bar = true) :
    e = d ∧ nextNumber ((s.ctx c k).group h) = d.seq := by
  obtain ⟨rest, hq⟩ := hs.first
  obtain ⟨hd, -, -, -, -, hbar⟩ := startable_eq_some.mp he
  have hseq : d.seq = e.seq := by simpa [hq] using (hbar hb).1
  have hn : e.seq = nextNumber ((s.ctx c k).group h) := by rw [← nextSeq_eq]; simpa using List.find?_some hd
  rw [nextSeq_eq, ← hn, ← hseq, Ctx.descOf, hq, List.find?_cons, beq_self_eq_true] at hd
  exact ⟨(Option.some.inj hd).symm, hn.symm.trans hseq.symm⟩

theorem AtBarrier.others (hs : AtBarrier s c k g n now d) {h : Nat} (hh : h < n) (hne : h ≠ g) :
    AtBarrier (startBarrier c k s h) c k g n now d ∧ Others s (startBarrier c k s h) c k g n now d := by
  unfold startBarrier
  split
  case h_2 => exact ⟨hs, .refl _, rfl, id⟩
  case h_1 e he =>
    split
    case isFalse => exact ⟨hs, .refl _, rfl, id⟩
    case isTrue hb =>
      obtain ⟨rfl, ho⟩ := hs.startable he hb
      obtain ⟨hb', hg⟩ := hs.starts hh ho fun e => absurd e hne
      exact ⟨hb', startDesc_grows s c k h e, hg hne, startDesc_holds hs h⟩

theorem AtBarrier.foldl_others {l : List Nat} (hs : AtBarrier s c k g n now d) (hl : ∀ h ∈ l, h < n ∧ h ≠ g) :
    AtBarrier (l.foldl (startBarrier c k) s) c k g n now d ∧ Others s (l.foldl (startBarrier c k) s) c k g n now d := by
  induction l generalizing s with
  | nil => exact ⟨hs, .refl _, rfl, id⟩
  | cons h l ih =>
    obtain ⟨hlt, hne⟩ := hl h List.mem_cons_self
    obtain ⟨h1, k1⟩ := hs.others hlt hne
    obtain ⟨h2, k2⟩ := ih h1 fun a ha => hl a (List.mem_cons_of_mem _ ha)
    exact ⟨h2, k1.grows.trans k2.grows, k2.group.trans k1.group, fun hb => k2.holds (k1.holds hb)⟩

theorem range_split {g n : Nat} (h : g < n) : ∃ l m, List.range n = l ++ g :: m ∧ (∀ a ∈ l, a < n ∧ a ≠ g) ∧ ∀ a ∈ m, a < n ∧ a ≠ g := by
  obtain ⟨l, m, he⟩ := List.append_of_mem (List.mem_range.mpr h)
  have hlt : ∀ a ∈ l ++ g :: m, a < n := fun a ha => List.mem_range.mp (he ▸ ha)
  have hnd : (l ++ g :: m).Nodup := he ▸ List.nodup_range
  obtain ⟨-, hm, hd⟩ := List.nodup_append.mp hnd
  exact ⟨l, m, he, fun a ha => ⟨hlt a (by simp [ha]), hd a ha g List.mem_cons_self⟩,
    fun a ha => ⟨hlt a (by simp [ha]), fun e => (List.nodup_cons.mp hm).1 (e ▸ ha)⟩⟩

/-- The release of a barrier: group g starts, and what the groups did before happens before its next events. -/
theorem AtBarrier.released (hs : AtBarrier s c k g n now d) (hr : s.group c k g = r) (hn : nextNumber r = d.seq) (hg : g < n)
    (hw : HasWork d g) (hm : d.regroup = none) (hst : r.pos.status = .waiting) (hv : d.seen.getLsbD g = true) (hb : d.bar = true) :
    Started (((List.range n).foldl (startBarrier c k) s).group c k g) g d ∧
    FmtFlagged d r (((List.range n).foldl (startBarrier c k) s).group c k g) ∧
    (BarrierHolds s c k d.time n now → ∀ h, h < n → Covers s ((List.range n).foldl (startBarrier c k) s)
      (fun e => e.agent = groupPath c k h .l ∧ e.order ≤ now) (groupPath c k g .l)) := by
  obtain ⟨l, m, he, hl, hm'⟩ := range_split hg
  rw [he, List.foldl_append, List.foldl_cons]
  obtain ⟨h1, k1⟩ := hs.foldl_others hl
  generalize l.foldl (startBarrier c k) s = t1 at h1 k1 ⊢
  have hr1 : (t1.ctx c k).group g = r := k1.group.trans hr
  obtain ⟨rest, hq⟩ := h1.first
  have hstart : startBarrier c k t1 g = startDesc t1 c k g d := by
    have hd : (t1.ctx c k).startable g = some d := by
      rw [startable_eq_some, hr1, nextSeq_eq, hn, Ctx.descOf, hq]
      exact ⟨by simp, hm, hst, h1.idle, hv, fun _ => ⟨rfl, h1.quiet⟩⟩
    rw [startBarrier, hd]
    exact if_pos hb
  rw [hstart]
  obtain ⟨h2, k2⟩ := (h1.starts hg (by rw [hr1, hn]) fun _ => hw).1.foldl_others hm'
  have hlt : g < (t1.ctx c k).groups.length := h1.count.symm ▸ hg
  have hgr : (t1.ctx c k).groups[g]? = some r := by
    rw [← hr1, List.getElem?_eq_getElem hlt, Ctx.group, List.getD, List.getElem?_eq_getElem hlt]
    rfl
  have hgroup : (startDesc t1 c k g d).group c k g = awake ((entered r g d).startTrip d 0) (acquireStart t1 c k g d).stamp := by
    rw [State.group, startDesc_ctx h1.there rfl hgr, startedCtx_group hlt, if_neg ((hasWork_iff d g).mp hw)]
  rw [k2.group, hgroup]
  refine ⟨(started_entered _ _ _ _).1, (started_entered _ _ _ _).2, fun hb0 h hh => ?_⟩
  have hc := acquireStart_covers_barrier (g := g) hb (h1.count.symm ▸ h1.now.symm ▸ k1.holds hb0) (h1.count.symm ▸ hh)
  have hlate := (startDesc_returns t1 c k g d).events.late
  have hc' : Covers t1 (startDesc t1 c k g d) (fun e => e.agent = groupPath c k h .l ∧ e.order ≤ now) (groupPath c k g .l) := by
    rw [Covers, hlate, ← h1.now]
    exact hc
  refine Covers.of_grows k1.grows (hc'.grow (startDesc_grows t1 c k g d) k2.grows) fun e f hef hp => ?_
  exact ⟨hef.agent.symm.trans hp.1, hef.order.symm.trans_le hp.2⟩

end

/-- Settles O41: what a waiting group starts when a descriptor becomes visible or a barrier is released, and what the start acquires. -/
theorem descriptorsStart : Obligations.DescriptorsStart := by
  intro s c k g x r d hL hr hw hn hm hbar hg
  have hin : InRange s c k := by
    obtain ⟨hc, hk⟩ := resident_in_range hL.1 hL.2.1
    exact ⟨hc, hk⟩
  have hhead (hb : d.bar = true) : x.strm.blockQ.head?.map (·.seq) = some d.seq ∧ Quiet x d.seq := by
    obtain ⟨⟨e, he, hes⟩, hq⟩ := hbar hb
    exact ⟨by rw [he, Option.map_some, hes], hq⟩
  have hlt := (List.getElem?_eq_some_iff.mp hr).1
  have hin' := hin.of_shape (sameShape_setCtx s c k (x.showNext g))
  have hshown (v : Lanes) : ((startDesc (s.setCtx c k (x.showNext g)) c k g { d with seen := v }).group c k g) =
      if maskWord d.activity g = 0 ∨ d.trip = 0 then passedBy r g d
      else awake ((entered r g d).startTrip d 0) (acquireStart (s.setCtx c k (x.showNext g)) c k g { d with seen := v }).stamp := by
    rw [State.group, startDesc_ctx hin' (hin.ctx_setCtx _) hr]
    exact startedCtx_group hlt
  refine ⟨fun p q hq hp => ?_, fun hb hv hwork => ?_, fun hb p q hq hp => ?_⟩
  · obtain ⟨v, hex⟩ := exec_descriptorVisible hL hr hw hn hm hhead hg hq hp
    refine ⟨fun hwork => ⟨_, hex, ?_⟩, fun hwork => ⟨_, hex, ?_⟩⟩
    · rw [hshown, if_neg ((hasWork_iff d g).mp hwork)]
      exact started_entered r g d _
    · rw [hshown, if_pos (not_not.mp fun h => hwork ((hasWork_iff d g).mpr h))]
      exact ⟨rfl, rfl, rfl, fmtFlags_flagged r d⟩
  · have hat : AtBarrier s c k g x.groups.length s.freeCtr d := by
      obtain ⟨⟨e, he, hes⟩, hq⟩ := hbar hb
      obtain ⟨hd, hseq⟩ := descOf_nextSeq hn
      obtain ⟨rest, hqe⟩ := List.head?_eq_some_iff.mp he
      have hed : e = d := by
        rw [Ctx.descOf, hqe, nextSeq_eq, ← hseq, List.find?_cons, hes, beq_self_eq_true] at hd
        exact Option.some.inj hd
      exact ⟨hin, ⟨rest, by rw [hL.1, hqe, hed]⟩, by rw [hL.1, hL.2.2.1], by rw [hL.1], ⟨r, by rw [hL.1, hr], hseq.symm⟩,
        by rw [hL.1]; exact hq, rfl⟩
    have h := hat.released (r := r) (by rw [State.group, hL.1, group_of_getElem? hr]) (descOf_nextSeq hn).2.symm hlt hwork hm hw hv hb
    obtain ⟨h1, h2, h3⟩ := h
    exact ⟨_, exec_barrierRelease hL, h1, h2, fun hnone => h3 fun q hq hl => absurd hl (hnone q hq)⟩
  · obtain ⟨v, hex⟩ := exec_descriptorVisible hL hr hw hn hm hhead hg hq hp
    refine ⟨_, hex, fun st hst ha => ?_, ?_⟩
    · rw [(startDesc_returns _ c k g _).events.queue] at hst
      exact acquireStart_queue hst ha
    · have hc := acquireStart_covers_block (s := s.setCtx c k (x.showNext g)) (c := c) (k := k) (g := g) (d := { d with seen := v })
      rw [Covers, ((coresApart_setCtx s c k (x.showNext g)).flushWhere _).late] at hc
      rw [Covers, (startDesc_returns _ c k g _).events.late]
      exact hc

end Sys2Proof.Claims
end

