-- ==== Sys2Proof/Proofs/SlotWrites.lean ====
section
/-! A slot passes: the writes that become visible, and what they leave alone (02 R60, R61, 10 R281). -/

namespace Sys2Proof.Claims

open Machine

/-! ### The order of a word's entries (10 R281) -/

section
variable {key : Pend → Nat} {p : Pend}

theorem insertPend_perm (key : Pend → Nat) (p : Pend) (l : List Pend) : (insertPend key p l).Perm (p :: l) := by
  induction l with
  | nil => exact .refl _
  | cons q l ih =>
    rw [insertPend]
    split
    · exact .refl _
    · exact (ih.cons q).trans (.swap p q l)

theorem insertPend_sorted {l : List Pend} (h : l.Pairwise (fun a b => key a ≤ key b)) :
    (insertPend key p l).Pairwise (fun a b => key a ≤ key b) := by
  induction l with
  | nil => simp [insertPend]
  | cons q l ih =>
    rw [insertPend]
    obtain ⟨hq, hl⟩ := List.pairwise_cons.mp h
    split
    case isTrue hlt =>
      refine List.pairwise_cons.mpr ⟨fun a ha => ?_, h⟩
      rcases List.mem_cons.mp ha with rfl | ha
      · exact hlt.le
      · exact hlt.le.trans (hq a ha)
    case isFalse hlt =>
      refine List.pairwise_cons.mpr ⟨fun a ha => ?_, ih hl⟩
      rcases List.mem_cons.mp ((insertPend_perm key p l).mem_iff.mp ha) with rfl | ha
      · exact Nat.not_lt.mp hlt
      · exact hq a ha

end

/-- The place of a write among those of its word: its register, a flag update last. -/
def writeKey (p : Pend) : Nat := if p.kind == .flag then 65536 else p.reg

theorem foldl_insertPend (wr acc : List Pend) (h : acc.Pairwise (fun a b => writeKey a ≤ writeKey b)) :
    (wr.foldl (fun acc p => insertPend writeKey p acc) acc).Perm (wr ++ acc) ∧
    (wr.foldl (fun acc p => insertPend writeKey p acc) acc).Pairwise (fun a b => writeKey a ≤ writeKey b) := by
  induction wr generalizing acc with
  | nil => exact ⟨.refl _, h⟩
  | cons p wr ih =>
    obtain ⟨h1, h2⟩ := ih _ (insertPend_sorted (p := p) h)
    exact ⟨h1.trans (((insertPend_perm writeKey p acc).append_left wr).trans List.perm_middle), h2⟩

theorem orderPend_ordered {wr : List Pend} (h : ∀ p ∈ wr, p.reg < 65536) : Ordered wr (orderPend wr) := by
  obtain ⟨hp, hs⟩ := foldl_insertPend wr [] .nil
  rw [List.append_nil] at hp
  refine ⟨hp, hs.imp_of_mem fun {a b} ha hb hab => ?_⟩
  have hb' := h b (hp.mem_iff.mp hb)
  unfold writeKey at hab
  refine ⟨fun hf => ?_, fun ha hb => by simpa [ha, hb] using hab⟩
  by_contra hbf
  simp only [hf, hbf, beq_self_eq_true, beq_iff_eq, if_true, if_false] at hab
  omega

/-! ### What a write leaves alone -/

/-- q is r but for what pending writes write. -/
def OnlyWrites (r q : Machine.Group) : Prop :=
  q = { r with vregs := q.vregs, vtaint := q.vtaint, vpoison := q.vpoison, gregs := q.gregs, gtaint := q.gtaint, gpoison := q.gpoison,
               fmt := q.fmt, shape := q.shape, xpats := q.xpats, gstat := q.gstat, spoison := q.spoison,
               pos := { r.pos with exmask := q.pos.exmask, g1 := q.pos.g1, g2 := q.pos.g2, g3 := q.pos.g3, g123taint := q.pos.g123taint } }

theorem OnlyWrites.refl (r : Machine.Group) : OnlyWrites r r := rfl

theorem OnlyWrites.trans {r q u : Machine.Group} (h : OnlyWrites r q) (k : OnlyWrites q u) : OnlyWrites r u := by
  unfold OnlyWrites at *
  rw [k, h]

theorem onlyWrites_writeG (r : Machine.Group) (n : Nat) (v : W32) (t : Bool) (p : Poison) : OnlyWrites r (r.writeG n v t p) := by
  unfold Machine.Group.writeG
  dsimp only
  split <;> exact rfl

theorem onlyWrites_writeSpecial (r : Machine.Group) (n : Nat) (v : W64) : OnlyWrites r (r.writeSpecial n v) := by
  unfold Machine.Group.writeSpecial
  split <;> exact rfl

theorem onlyWrites_apply (r : Machine.Group) (p : Pend) : OnlyWrites r (r.apply p) := by
  unfold Machine.Group.apply
  split
  · exact rfl
  · exact onlyWrites_writeG r _ _ _ _
  · exact (onlyWrites_writeSpecial r _ _).trans rfl
  · exact rfl

theorem onlyWrites_foldl (l : List Pend) (r : Machine.Group) : OnlyWrites r (l.foldl Machine.Group.apply r) := by
  induction l generalizing r with
  | nil => exact .refl r
  | cons p l ih => exact (onlyWrites_apply r p).trans (ih _)

/-! ### Registers that a write does not name -/

section
variable {r : Machine.Group} {k : Nat}

theorem vregs_apply (r : Machine.Group) (p : Pend) : (r.apply p).vregs =
    if p.kind = .vec then r.vregs.set p.reg (mergeLanes (r.vregs.getD p.reg VReg.zero) p.vals p.lanes) else r.vregs := by
  have hg (n : Nat) (v : W32) (t : Bool) (q : Poison) : (r.writeG n v t q).vregs = r.vregs := by
    unfold Machine.Group.writeG
    dsimp only
    split <;> rfl
  have hs (n : Nat) (v : W64) : (r.writeSpecial n v).vregs = r.vregs := by
    unfold Machine.Group.writeSpecial
    split <;> rfl
  unfold Machine.Group.apply
  cases p.kind with
  | vec => rfl
  | gs => exact hg _ _ _ _
  | spec => exact hs _ _
  | flag => rfl

theorem gregs_apply_other {p : Pend} (h : p.kind = .gs → p.reg ≠ k) : (r.apply p).gregs[k]? = r.gregs[k]? := by
  unfold Machine.Group.apply
  cases hk : p.kind with
  | vec => rfl
  | gs =>
    show (r.writeG p.reg _ _ _).gregs[k]? = _
    unfold Machine.Group.writeG
    dsimp only
    split
    case h_5 => exact List.getElem?_set_ne (h hk)
    all_goals rfl
  | spec =>
    show (r.writeSpecial p.reg p.word).gregs[k]? = _
    unfold Machine.Group.writeSpecial
    split <;> rfl
  | flag => rfl

theorem exmask_apply_other {p : Pend} (h : p.kind = .spec → p.reg ≠ 8) : (r.apply p).pos.exmask = r.pos.exmask := by
  unfold Machine.Group.apply
  cases hk : p.kind with
  | vec => rfl
  | gs =>
    show (r.writeG p.reg _ _ _).pos.exmask = _
    unfold Machine.Group.writeG
    dsimp only
    split <;> rfl
  | spec =>
    show (r.writeSpecial p.reg p.word).pos.exmask = _
    unfold Machine.Group.writeSpecial
    split
    case h_4 h8 => exact absurd h8 (h hk)
    all_goals rfl
  | flag => rfl

/-- What no write of a list changes, the list leaves alone. -/
theorem foldl_apply_keeps {α : Type} (f : Machine.Group → α) {l : List Pend} (h : ∀ p ∈ l, ∀ r : Machine.Group, f (r.apply p) = f r)
    (r : Machine.Group) : f (l.foldl Machine.Group.apply r) = f r := by
  induction l generalizing r with
  | nil => rfl
  | cons p l ih => exact (ih (fun q hq => h q (List.mem_cons_of_mem _ hq)) _).trans (h p List.mem_cons_self r)

theorem vregs_apply_other {p : Pend} (h : p.kind = .vec → p.reg ≠ k) : (r.apply p).vregs[k]? = r.vregs[k]? := by
  rw [vregs_apply]
  split
  case isTrue hv => exact List.getElem?_set_ne (h hv)
  case isFalse => rfl

end

/-! ### A slot -/

/-- The writes that become visible with the slot, as they do: flag updates last. -/
def dueNow (l : List Pend) : List Pend :=
  (l.filter (fun p => p.left ≤ 1)).filter (fun p => p.kind != .flag) ++ (l.filter (fun p => p.left ≤ 1)).filter (fun p => p.kind == .flag)

/-- The writes that stand one slot nearer. -/
def nearer (l : List Pend) : List Pend := (l.filter (fun p => 1 < p.left)).map (fun p => { p with left := p.left - 1 })

theorem mem_dueNow {l : List Pend} {p : Pend} : p ∈ dueNow l ↔ p ∈ l ∧ p.left ≤ 1 := by
  simp only [dueNow, List.mem_append, List.mem_filter, decide_eq_true_eq, bne_iff_ne, beq_iff_eq]
  by_cases h : p.kind = .flag <;> simp [h]

/-- Before its writes become visible, the slot moves the others on. -/
def movedOn (r : Machine.Group) : Machine.Group :=
  { r with pos := { r.pos with
    pend := nearer r.pos.pend
    ownStores := (r.pos.ownStores.map (fun o => { o with left := o.left - 1 })).filter (fun o => 0 < o.left)
    landed := ((r.pos.pend.filter (fun p => p.left ≤ 1)).filter (fun p => p.kind == .vec)).map (·.reg) } }

theorem slot_eq (r : Machine.Group) : r.slot = (dueNow r.pos.pend).foldl Machine.Group.apply (movedOn r) := by
  rw [dueNow, List.foldl_append]
  rfl

theorem onlyWrites_slot (r : Machine.Group) : OnlyWrites (movedOn r) r.slot := slot_eq r ▸ onlyWrites_foldl _ _

section
variable {r : Machine.Group} {k : Nat}

theorem vregs_slot_other (h : ∀ p, DueWrite r.pos.pend p → p.reg ≠ k) : r.slot.vregs[k]? = r.vregs[k]? := by
  rw [slot_eq, foldl_apply_keeps (fun q => q.vregs[k]?)]
  · rfl
  · intro p hp q
    obtain ⟨hm, hl⟩ := mem_dueNow.mp hp
    exact vregs_apply_other fun hv => h p ⟨hm, hl, hv⟩

theorem gregs_slot_other (h : ∀ p ∈ r.pos.pend, p.left ≤ 1 → p.kind = .gs → p.reg ≠ k) : r.slot.gregs[k]? = r.gregs[k]? := by
  rw [slot_eq, foldl_apply_keeps (fun q => q.gregs[k]?)]
  · rfl
  · intro p hp q
    obtain ⟨hm, hl⟩ := mem_dueNow.mp hp
    exact gregs_apply_other (h p hm hl)

theorem exmask_slot_other (h : ∀ p ∈ r.pos.pend, p.left ≤ 1 → p.kind = .spec → p.reg ≠ 8) : r.slot.pos.exmask = r.pos.exmask := by
  rw [slot_eq, foldl_apply_keeps (fun q => q.pos.exmask)]
  · rfl
  · intro p hp q
    obtain ⟨hm, hl⟩ := mem_dueNow.mp hp
    exact exmask_apply_other (h p hm hl)

/-- The only due write of a register is visible there, in its lanes. -/
theorem vregs_slot_same {p : Pend} {old : VReg} (hp : DueWrite r.pos.pend p)
    (hu : ∀ q, DueWrite r.pos.pend q → q.reg = p.reg → q = p) (hone : (r.pos.pend.filter (fun q => q == p)).length = 1)
    (ho : r.vregs[p.reg]? = some old) : r.slot.vregs[p.reg]? = some (mergeLanes old p.vals p.lanes) := by
  obtain ⟨l, m, he⟩ := List.append_of_mem (mem_dueNow.mpr ⟨hp.1, hp.2.1⟩)
  have hc : (dueNow r.pos.pend).count p = 1 := by
    have hcount : r.pos.pend.count p = 1 := by rw [List.count, List.countP_eq_length_filter, hone]
    have hf : ((r.pos.pend.filter (fun p => p.left ≤ 1)).filter (fun p => p.kind == .flag)).count p = 0 :=
      List.count_eq_zero.mpr fun hm => by simp [hp.2.2] at hm
    rw [dueNow, List.count_append, hf, List.count_filter (by simp [hp.2.2]), List.count_filter (by simp [hp.2.1]), hcount]
  have hnot : ∀ q, q ∈ l ∨ q ∈ m → q.kind = .vec → q.reg ≠ p.reg := by
    intro q hq hv hreg
    obtain ⟨hm, hl⟩ := mem_dueNow.mp (he ▸ by simpa using hq.imp_right .inr : q ∈ dueNow r.pos.pend)
    obtain rfl := hu q ⟨hm, hl, hv⟩ hreg
    rw [he, List.count_append, List.count_cons_self] at hc
    rcases hq with hq | hq
    · have := List.count_pos_iff.mpr hq
      omega
    · have := List.count_pos_iff.mpr hq
      omega
  have hset (q : Machine.Group) (h : q.vregs[p.reg]? = some old) : (q.apply p).vregs[p.reg]? = some (mergeLanes old p.vals p.lanes) := by
    have hlt := (List.getElem?_eq_some_iff.mp h).1
    rw [vregs_apply, if_pos hp.2.2, List.getElem?_set_self hlt, List.getD, h, Option.getD_some]
  rw [slot_eq, he, List.foldl_append, List.foldl_cons,
    foldl_apply_keeps (fun q => q.vregs[p.reg]?) fun q hq u => vregs_apply_other (hnot q (.inr hq))]
  refine hset _ ?_
  rw [foldl_apply_keeps (fun q => q.vregs[p.reg]?) fun q hq u => vregs_apply_other (hnot q (.inl hq))]
  exact ho

end

/-- q is r but for its pending writes, its own stores and what pending writes write. -/
def Passed (r q : Machine.Group) : Prop :=
  q = { r with vregs := q.vregs, vtaint := q.vtaint, vpoison := q.vpoison, gregs := q.gregs, gtaint := q.gtaint, gpoison := q.gpoison,
               fmt := q.fmt, shape := q.shape, xpats := q.xpats, gstat := q.gstat, spoison := q.spoison,
               pos := { r.pos with pend := q.pos.pend, ownStores := q.pos.ownStores, landed := q.pos.landed, exmask := q.pos.exmask,
                                   g1 := q.pos.g1, g2 := q.pos.g2, g3 := q.pos.g3, g123taint := q.pos.g123taint } }

theorem passed_slot (r : Machine.Group) : Passed r r.slot := by
  unfold Passed
  rw [onlyWrites_slot r]
  rfl

theorem Passed.trans {r q u : Machine.Group} (h : Passed r q) (k : Passed q u) : Passed r u := by
  unfold Passed at *
  rw [k, h]

theorem passed_slots (n : Nat) (r : Machine.Group) : Passed r (r.slots n) := by
  induction n generalizing r with
  | zero => exact rfl
  | succ n ih => exact (passed_slot r).trans (ih _)

theorem passed_drain (r : Machine.Group) : Passed r r.drain := by
  have h := passed_slots 12 r
  unfold Machine.Group.drain
  generalize r.slots 12 = q at h ⊢
  exact h.trans rfl

theorem pend_slot (r : Machine.Group) : r.slot.pos.pend = nearer r.pos.pend :=
  congrArg (fun q => q.pos.pend) (onlyWrites_slot r)

/-! ### The slot of an issued word -/

theorem getElem?_indexed {α : Type} (l : List α) (i : Nat) : (indexed l)[i]? = l[i]?.map (fun v => (i, v)) := by
  by_cases h : i < l.length
  · simp [indexed, List.zip, h]
  · simp [indexed, List.zip, h]

theorem getElem?_mergeLanes (old new : VReg) (m : Lanes) (i : Nat) :
    (mergeLanes old new m)[i]? = old[i]?.map (fun v => if m.getLsbD i then new.getD i 0 else v) := by
  rw [mergeLanes, List.getElem?_map, getElem?_indexed, Option.map_map]
  rfl

theorem length_mergeLanes (old new : VReg) (m : Lanes) : (mergeLanes old new m).length = old.length := by simp [mergeLanes]

section
variable {s : State} {x : Ctx} {g : Machine.Group}

/-- The group with a word's writes pending, in their order, as the word passes. -/
def withWrites (g : Machine.Group) (n : Nat) (wr : List Pend) : Machine.Group :=
  { g with pos := { g.pos with pend := g.pos.pend ++ orderPend wr, st := .mid, word := g.pos.word + n, slot := g.pos.slot + n } }

theorem issued_eq (s : State) (x : Ctx) (g : Machine.Group) (h : Hdr) (n : Nat) (m : Truss) (s' : State) (g' : Machine.Group)
    (wr : List Pend) (hc : s'.cur = s.cur) : issued s x g h n m s' g' wr =
      if h.fin || h.bnd then endRun (s'.setGrp ((withWrites g' n wr).slots n)) s.cur.core s.cur.ctx s.cur.group h m
      else s'.setGrp ((withWrites g' n wr).slots n) := by
  rw [State.setGrp, hc]
  rfl

theorem me?_of_grp? (h : s.grp? = some (x, g)) : s.me? = some x ∧ x.groups[s.cur.group]? = some g := by
  rw [State.grp?, Option.bind_eq_some_iff] at h
  obtain ⟨y, hy, hg⟩ := h
  rw [Option.map_eq_some_iff] at hg
  obtain ⟨q, hq, he⟩ := hg
  obtain ⟨rfl, rfl⟩ := Prod.mk.inj he
  exact ⟨hy, hq⟩

theorem myGroup_setGrp (h : s.grp? = some (x, g)) (q : Machine.Group) : myGroup (s.setGrp q) = q := by
  obtain ⟨hx, hg⟩ := me?_of_grp? h
  obtain ⟨hc, hk, -⟩ := State.me?_some hx
  exact group_setGroup_self hc (List.getElem?_eq_some_iff.mp hk).1 ((State.ctx_of_me? hx).symm ▸ hg)

theorem slot_passes {h : Hdr} (m : Truss) (wr : List Pend) (hh : noEnd h) :
    issued s x g h 1 m s g wr = s.setGrp (withWrites g 1 wr).slot := by
  obtain ⟨hf, hb⟩ := hh
  rw [issued_eq _ _ _ _ _ _ _ _ _ rfl, hf, hb]
  rfl

end

end Sys2Proof.Claims
end

