-- ==== Sys2Proof/Proofs/SlotsAndRunsEnd.lean ====
section
/-! The end of a run, a trip or a descriptor (02 R49, R53, R63, R68). -/

namespace Sys2Proof.Claims

open Machine

/-! ### What a step of a group leaves of lane sets and memory -/

/-- Every core's lane sets stay, and, where no store waits in a queue, so do memory and the launches. -/
structure Around (s t : State) : Prop where
  cur : t.cur = s.cur
  lanesets : ∀ c, (t.core c).lanesets = (s.core c).lanesets
  shape : SameShape s t
  queue : s.queue = [] → t.queue = []
  mem : s.queue = [] → t.mem = s.mem ∧ t.host = s.host ∧ t.poolLines = s.poolLines ∧ t.launches = s.launches

section
variable {s t u : State} {c k g : Nat}

theorem Around.refl (s : State) : Around s s := ⟨rfl, fun _ => rfl, .refl s, id, fun _ => ⟨rfl, rfl, rfl, rfl⟩⟩

theorem Around.trans (h : Around s t) (j : Around t u) : Around s u where
  cur := j.cur.trans h.cur
  lanesets c := (j.lanesets c).trans (h.lanesets c)
  shape := h.shape.trans j.shape
  queue hq := j.queue (h.queue hq)
  mem hq := by
    obtain ⟨h1, h2, h3, h4⟩ := h.mem hq
    obtain ⟨j1, j2, j3, j4⟩ := j.mem (h.queue hq)
    exact ⟨j1.trans h1, j2.trans h2, j3.trans h3, j4.trans h4⟩

/-- A state that keeps the cores, the stores and the launches. -/
theorem Around.of_eq (h : t = { s with late := t.late, releases := t.releases, stamp := t.stamp }) : Around s t := by
  rw [h]
  exact ⟨rfl, fun _ => rfl, .of_cores rfl, id, fun _ => ⟨rfl, rfl, rfl, rfl⟩⟩

theorem around_setCtx (s : State) (c k : Nat) (x : Ctx) : Around s (s.setCtx c k x) := by
  refine ⟨rfl, fun d => ?_, sameShape_setCtx s c k x, id, fun _ => ⟨rfl, rfl, rfl, rfl⟩⟩
  rw [State.setCtx, core_updCore]
  split <;> simp_all

theorem around_flushWhere (s : State) (p : Store → Bool) : Around s (flushWhere s p) := by
  refine ⟨(storesOnly_flushWhere s p).cur, (storesOnly_flushWhere s p).lanesets, (storesOnly_flushWhere s p).sameShape, fun h => ?_, fun h => ?_⟩
  · rw [flushWhere_nil p h, h]
  · rw [flushWhere_nil p h]
    exact ⟨rfl, rfl, rfl, rfl⟩

theorem around_release (s : State) (l : Link) (ags : List Agent) (after : List View) (reach : Reach) : Around s (release s l ags after reach) :=
  .of_eq rfl

theorem around_releaseBarrier (s : State) (c k : Nat) (d : Desc) : Around s (releaseBarrier s c k d) := by
  unfold releaseBarrier
  split
  · exact .refl s
  · exact (around_flushWhere s _).trans (around_release _ _ _ _ _)

theorem around_acquireStart (s : State) (c k g : Nat) (d : Desc) : Around s (acquireStart s c k g d) := by
  have hf (s : State) : Around s (followFences s c k g d) := .of_eq rfl
  have ho : Around (beforeStart s c k g d) (acquireStart s c k g d) := .of_eq (by rw [(onlyOrders_acquireStart s c k g d).1])
  exact (((around_flushWhere s _).trans (around_releaseBarrier _ c k d)).trans (hf _)).trans ho

theorem around_makeEligible (s : State) (c k g : Nat) : Around s (makeEligible s c k g) := by
  have h := around_setCtx s c k ((s.ctx c k).setGroup g (awake (s.group c k g) s.stamp))
  exact ⟨h.cur, h.lanesets, sameShape_makeEligible s c k g, h.queue, h.mem⟩

theorem around_deliverWord (s : State) (c k g : Nat) (n w : W32) (p : Option (Nat × W64)) : Around s (deliverWord s c k g n w p) := by
  have hr : Around s (releaseReturn s c k g n) := by
    unfold releaseReturn
    split
    · exact .refl s
    · split
      · exact .refl s
      · exact around_release _ _ _ _ _
  exact hr.trans (around_setCtx _ _ _ _)

theorem around_startDesc (s : State) (c k g : Nat) (d : Desc) : Around s (startDesc s c k g d) := by
  have hu := around_acquireStart s c k g d
  rw [startDesc_eq rfl]
  generalize acquireStart s c k g d = u at hu
  split
  · split
    · exact (hu.trans (around_deliverWord _ _ _ _ _ _ _)).trans (around_setCtx _ _ _ _)
    · exact hu.trans (around_setCtx _ _ _ _)
  · exact (hu.trans (around_setCtx _ _ _ _)).trans (around_makeEligible _ _ _ _)

theorem around_startVisible (n : Nat) (s : State) (c k g : Nat) : Around s (startVisible s c k g n) := by
  induction n generalizing s with
  | zero => exact .refl s
  | succ n ih =>
    rw [startVisible]
    split
    · exact (around_startDesc s c k g _).trans (ih _)
    · exact .refl s

/-! ### The end of a run with no marker and no wait -/

/-- Nothing parks the group when its run ends (02 R63, R68). -/
structure Unparked (r : Machine.Group) : Prop where
  marked : r.pos.marked = false
  fence : r.pos.parkFence = none
  pushes : r.pos.pushes = []
  mode : r.pos.parkMmodeV = false
  truss : r.pos.trussReq = false
  poison : r.pos.poisonRun = none

theorem Unparked.of_passed {r q : Machine.Group} (h : Unparked r) (hp : Passed r q) : Unparked q := by
  obtain ⟨h1, h2, h3, h4, h5, h6⟩ := h
  rw [hp]
  exact ⟨h1, h2, h3, h4, h5, h6⟩

/-- The group before its next run. -/
def betweenRuns (r : Machine.Group) : Machine.Group :=
  { r with pos := { r.pos with
    run := r.pos.run + 1, slot := 0, st := .between, marked := false, poisonRun := none, parkMarker := false } }

/-- The group waits for its next descriptor. -/
def waitsNext (r : Machine.Group) : Machine.Group :=
  { r with pos := { r.pos with parkMarker := false, poisonRun := none, status := .waiting } }

theorem settle_unparked (h : Unparked (s.group c k g)) (hm : (s.group c k g).pos.parkMarker = false) : settle s c k g =
    if (s.group c k g).pos.st != .done then makeEligible (s.setGroup c k g (waitsNext (s.group c k g))) c k g
    else startVisible (s.setGroup c k g (waitsNext (s.group c k g))) c k g
      ((s.setGroup c k g (waitsNext (s.group c k g))).ctx c k).strm.blockQ.length := by
  obtain ⟨-, h2, h3, h4, h5, h6⟩ := h
  unfold settle
  simp only [waitsNext, Machine.Group.ready, hm, h2, h3, h4, h5, h6, Bool.not_false, Bool.true_or, List.isEmpty_nil,
    Option.isNone_none, Bool.and_self, Bool.not_true, Bool.false_eq_true, if_false, List.foldl_nil]
  rfl

/-- The position once a run is over: before the next run or trip, or past the descriptor (02 R49, R63). -/
def movedPast (s : State) (c k g : Nat) (fin : Bool) (b : Machine.Group) : State :=
  if !fin then s.setGroup c k g b
  else match (s.ctx c k).descOf b.pos.seq with
    | some d =>
      if b.pos.trip + 1 < d.trip.toNat then (s.setGroup c k g b).setGroup c k g (b.startTrip d (b.pos.trip + 1))
      else completeDesc (s.setGroup c k g b) c k g d
    | none => s.setGroup c k g b

/-- The group leaves its lane set. -/
def freed (c k g : Nat) (s : State) (ls : Nat) : State :=
  s.updLaneSet c ls (fun l => { l with running := l.running.filter (fun r => r != (k, g)) })

theorem endRun_unparked {h : Hdr} (hs : h.sw = false) (hu : Unparked (s.group c k g)) : endRun s c k g h .none =
    settle (freed c k g (movedPast s c k g h.fin (betweenRuns (s.group c k g).drain)) ((s.ctx c k).laneSet g)) c k g := by
  obtain ⟨h1, h2, -, -, -, h6⟩ := hu.of_passed (passed_drain _)
  generalize hb : (s.group c k g).drain = b at h1 h2 h6 ⊢
  have hb' : ((s.ctx c k).group g).drain = b := hb
  simp only [endRun, movedPast, betweenRuns, hb', hs, h1, h2, h6, Option.isSome_none, Bool.or_false]
  rfl

/-! ### What a step of a group leaves of memory in any case -/

/-- Memory, the launches and the queue of stores stay. -/
structure StoreStays (s t : State) : Prop where
  mem : t.mem = s.mem
  host : t.host = s.host
  lines : t.poolLines = s.poolLines
  launches : t.launches = s.launches
  queue : t.queue = s.queue

theorem StoreStays.refl (s : State) : StoreStays s s := ⟨rfl, rfl, rfl, rfl, rfl⟩

theorem StoreStays.trans (h : StoreStays s t) (j : StoreStays t u) : StoreStays s u :=
  ⟨j.mem.trans h.mem, j.host.trans h.host, j.lines.trans h.lines, j.launches.trans h.launches, j.queue.trans h.queue⟩

theorem storeStays_deliverWord (s : State) (c k g : Nat) (n w : W32) (p : Option (Nat × W64)) : StoreStays s (deliverWord s c k g n w p) := by
  have hr : StoreStays s (releaseReturn s c k g n) := by
    unfold releaseReturn
    split
    · exact .refl s
    · split
      · exact .refl s
      · exact ⟨rfl, rfl, rfl, rfl, rfl⟩
  exact hr.trans ⟨rfl, rfl, rfl, rfl, rfl⟩

theorem storeStays_movedPast (s : State) (c k g : Nat) (fin : Bool) (b : Machine.Group) : StoreStays s (movedPast s c k g fin b) := by
  have hb : StoreStays s (s.setGroup c k g b) := ⟨rfl, rfl, rfl, rfl, rfl⟩
  unfold movedPast
  split
  · exact hb
  · split
    case h_2 => exact hb
    case h_1 d _ =>
      split
      · exact ⟨rfl, rfl, rfl, rfl, rfl⟩
      · unfold completeDesc
        split
        · exact (hb.trans (storeStays_deliverWord _ c k g d.seq 0 none)).trans ⟨rfl, rfl, rfl, rfl, rfl⟩
        · exact ⟨rfl, rfl, rfl, rfl, rfl⟩

/-! ### The return words and the queue of a context -/

/-- Group g's word of descriptor n stands in every return entry of n that has a place for it. -/
def Given (x : Ctx) (g : Nat) (n : W32) : Prop :=
  ∀ e ∈ x.strm.returnQ, e.seq = n → g < e.words.length → e.words.getD g none ≠ none

theorem given_deliver (x : Ctx) (g : Nat) (n w : W32) (p : Option (Nat × W64)) : Given (x.deliver n g w p) g n := by
  intro e he hs hl
  obtain ⟨o, ho, rfl⟩ := List.mem_map.mp he
  by_cases h : (o.seq == n && (o.words.getD g none).isNone) = true
  · simp only [h, if_true, List.length_set] at hl ⊢
    simp [List.getD, hl]
  · simp only [h, if_false, Bool.false_eq_true] at hs ⊢
    exact fun hn => h (by rw [hs, hn]; simp)

theorem Given.deliver {x : Ctx} {n : W32} (h : Given x g n) (i : Nat) (m w : W32) (p : Option (Nat × W64)) : Given (x.deliver m i w p) g n := by
  intro e he hs hl
  obtain ⟨o, ho, rfl⟩ := List.mem_map.mp he
  by_cases hc : (o.seq == m && (o.words.getD i none).isNone) = true
  · simp only [hc, if_true, List.length_set] at hs hl ⊢
    have ho' := h o ho hs hl
    by_cases hi : i = g
    · subst hi
      simp [List.getD, hl]
    · simpa [List.getD, List.getElem?_set_ne hi] using ho'
  · simp only [hc, if_false, Bool.false_eq_true] at hs hl ⊢
    exact h o ho hs hl

theorem find_dropDone {groups : List Machine.Group} {n : W32} (h : ∃ o ∈ groups, nextNumber o = n) (l : List Desc) :
    (dropDone groups l).find? (fun d => d.seq == n) = l.find? (fun d => d.seq == n) := by
  induction l with
  | nil => rfl
  | cons d l ih =>
    rw [dropDone]
    split
    case isFalse => rfl
    case isTrue ha =>
      obtain ⟨o, ho, hn⟩ := h
      have hne : d.seq ≠ n := by
        have := List.all_eq_true.mp ha o ho
        rw [nextSeq_eq, hn] at this
        exact fun e => by simp [e] at this
      rw [ih, List.find?_cons, beq_eq_false_iff_ne.mpr hne]

/-! ### A waiting group starts what it sees -/

/-- The group stands at the start of a run or before it, with no write pending. -/
structure AtStart (x : Ctx) (g : Nat) : Prop where
  there : ∃ r, x.groups[g]? = some r ∧ r.pos.pend = [] ∧ r.pos.slot = 0

theorem fmtFlags_pos (r : Machine.Group) (d : Desc) : (r.fmtFlags d).pos.pend = r.pos.pend ∧ (r.fmtFlags d).pos.slot = r.pos.slot := by
  unfold Machine.Group.fmtFlags
  dsimp only
  split <;> split <;> split <;> exact ⟨rfl, rfl⟩

theorem startedCtx_atStart {x : Ctx} {r : Machine.Group} (hr : x.groups[g]? = some r) (hp : r.pos.pend = []) (hs : r.pos.slot = 0) (d : Desc)
    (n : Nat) : AtStart (startedCtx x r g d n) g := by
  have hlt := (List.getElem?_eq_some_iff.mp hr).1
  obtain ⟨h1, h2⟩ := fmtFlags_pos r d
  unfold startedCtx
  split
  · have hy (y : Ctx) (h : y.groups = x.groups) : AtStart (y.setGroup g (passedBy r g d)).retire g :=
      ⟨passedBy r g d, by show (y.groups.set g _)[g]? = _; rw [h, List.getElem?_set_self hlt], h1.trans hp, h2.trans hs⟩
    split
    · exact hy _ rfl
    · exact hy _ rfl
  · exact ⟨_, List.getElem?_set_self hlt, h1.trans hp, rfl⟩

theorem startedCtx_given {x : Ctx} {n : W32} (h : Given x g n) (r : Machine.Group) (i : Nat) (d : Desc) (m : Nat) :
    Given (startedCtx x r i d m) g n := by
  unfold startedCtx
  split
  · split
    · exact h.deliver i _ _ _
    · exact h
  · exact h

theorem startVisible_facts {n : W32} (m : Nat) (hi : InRange s c k) (ha : AtStart (s.ctx c k) g) :
    AtStart ((startVisible s c k g m).ctx c k) g ∧ (Given (s.ctx c k) g n → Given ((startVisible s c k g m).ctx c k) g n) := by
  induction m generalizing s with
  | zero => exact ⟨ha, id⟩
  | succ m ih =>
    rw [startVisible]
    split
    case h_2 => exact ⟨ha, id⟩
    case h_1 d _ =>
      obtain ⟨r, hr, hp, hs⟩ := ha.there
      have hctx := startDesc_ctx (d := d) hi rfl hr
      obtain ⟨h1, h2⟩ := ih (hi.of_shape (sameShape_startDesc s c k g d)) (hctx ▸ startedCtx_atStart hr hp hs d _)
      exact ⟨h1, fun hg => h2 (hctx ▸ startedCtx_given hg r g d _)⟩

/-- A group that sees the next descriptor starts it, and there stands. -/
theorem startVisible_starts {d : Desc} {r : Machine.Group} (hi : InRange s c k) (hr : (s.ctx c k).groups[g]? = some r)
    (hd : (s.ctx c k).startable g = some d) (hw : HasWork d g) (m : Nat) : Started ((startVisible s c k g (m + 1)).group c k g) g d := by
  have hlt := (List.getElem?_eq_some_iff.mp hr).1
  have hgroup : (startDesc s c k g d).group c k g = awake ((entered r g d).startTrip d 0) (acquireStart s c k g d).stamp := by
    rw [State.group, startDesc_ctx hi rfl hr, startedCtx_group hlt, if_neg ((hasWork_iff d g).mp hw)]
  have hstop : startVisible (startDesc s c k g d) c k g m = startDesc s c k g d := by
    cases m with
    | zero => rfl
    | succ m =>
      rw [startVisible]
      split
      case h_2 => rfl
      case h_1 e he =>
        obtain ⟨-, -, hst, -⟩ := startable_eq_some.mp he
        rw [show ((startDesc s c k g d).ctx c k).group g = _ from hgroup] at hst
        cases hst
  rw [startVisible, hd]
  dsimp only
  rw [hstop, hgroup]
  exact (started_entered r g d _).1

theorem startVisible_none (h : (s.ctx c k).startable g = none) (m : Nat) : startVisible s c k g m = s := by
  cases m with
  | zero => rfl
  | succ m => rw [startVisible, h]

/-! ### Where the group stands after its run -/

theorem InRange.group_setGroup {r : Machine.Group} (hi : InRange s c k) (hr : (s.ctx c k).groups[g]? = some r) (q : Machine.Group) :
    ((s.setGroup c k g q).ctx c k).groups[g]? = some q := by
  rw [State.setGroup, hi.ctx_setCtx]
  exact List.getElem?_set_self (List.getElem?_eq_some_iff.mp hr).1

theorem group_eq {r : Machine.Group} (hr : (s.ctx c k).groups[g]? = some r) : s.group c k g = r := group_of_getElem? hr

/-- A group at a run boundary with no wait left, before a run: Eligible. -/
theorem settle_eligible {r : Machine.Group} (hi : InRange s c k) (hr : (s.ctx c k).groups[g]? = some r) (hu : Unparked r)
    (hm : r.pos.parkMarker = false) (hst : r.pos.st ≠ .done) : StoreStays s (settle s c k g) ∧ Around s (settle s c k g) ∧
      ((settle s c k g).ctx c k).groups[g]? = some (awake (waitsNext r) s.stamp) := by
  rw [settle_unparked (group_eq hr ▸ hu) (group_eq hr ▸ hm), group_eq hr, if_pos (by simpa using hst)]
  have hr' := hi.group_setGroup hr (waitsNext r)
  have hi' := hi.of_shape (sameShape_setCtx s c k ((s.ctx c k).setGroup g (waitsNext r)))
  refine ⟨⟨rfl, rfl, rfl, rfl, rfl⟩, (around_setCtx _ _ _ _).trans (around_makeEligible _ _ _ _), ?_⟩
  have hw := InRange.group_setGroup hi' hr' (awake ((s.setGroup c k g (waitsNext r)).group c k g) s.stamp)
  rw [group_eq hr'] at hw
  exact (congrArg (fun q => ((State.setGroup _ c k g (awake q s.stamp)).ctx c k).groups[g]?) (group_eq hr')).trans hw

/-- A group at a run boundary with no wait left, past its descriptor: it starts what it sees. -/
theorem settle_done {r : Machine.Group} (hr : (s.ctx c k).groups[g]? = some r) (hu : Unparked r)
    (hm : r.pos.parkMarker = false) (hst : r.pos.st = .done) : settle s c k g =
      startVisible (s.setGroup c k g (waitsNext r)) c k g ((s.setGroup c k g (waitsNext r)).ctx c k).strm.blockQ.length := by
  rw [settle_unparked (group_eq hr ▸ hu) (group_eq hr ▸ hm), group_eq hr, if_neg (by simp [hst])]

/-- The group past its descriptor. -/
def pastDesc (r : Machine.Group) : Machine.Group := { r with pos := { r.pos with st := .done } }

theorem movedPast_ctx {x : Ctx} {b r : Machine.Group} (hi : InRange s c k) (hx : s.ctx c k = x) (hr : x.groups[g]? = some r) (fin : Bool) :
    (movedPast s c k g fin b).ctx c k =
      if !fin then x.setGroup g b
      else match x.descOf b.pos.seq with
        | some d =>
          if b.pos.trip + 1 < d.trip.toNat then x.setGroup g (b.startTrip d (b.pos.trip + 1))
          else ((if d.ret then x.deliver d.seq g 0 none else x).setGroup g (pastDesc b)).retire
        | none => x.setGroup g b := by
  have hb : (s.setGroup c k g b).ctx c k = x.setGroup g b := by rw [State.setGroup, hi.ctx_setCtx, hx]
  have hi' : InRange (s.setGroup c k g b) c k := hi.of_shape (sameShape_setCtx s c k _)
  have hlt := (List.getElem?_eq_some_iff.mp hr).1
  have hy (y : Ctx) (hyg : y.groups = x.groups) : (y.setGroup g b).complete g = (y.setGroup g (pastDesc b)).retire := by
    simp [Ctx.complete, Ctx.group, Ctx.setGroup, List.getD, hyg, hlt, pastDesc]
  unfold movedPast
  rw [hx]
  split
  · exact hb
  · split
    case h_2 => exact hb
    case h_1 d _ =>
      split
      · rw [State.setGroup, InRange.ctx_setCtx hi', hb, setGroup_setGroup]
      · unfold completeDesc
        split
        · rw [InRange.ctx_updCtx (InRange.of_shape hi' (sameShape_deliverWord _ _ _ _ _ _ _)), InRange.ctx_deliverWord hi', hb]
          exact hy (x.deliver d.seq g 0 none) rfl
        · rw [InRange.ctx_updCtx hi', hb]
          exact hy _ rfl

/-- The group past a run in which a word with the given writes was the last. -/
def runEnded (r : Machine.Group) (wr : List Pend) : Machine.Group := betweenRuns ((withWrites r 1 wr).slots 1).drain

theorem runEnded_pos (r : Machine.Group) (wr : List Pend) : (runEnded r wr).pos.seq = r.pos.seq ∧ (runEnded r wr).pos.trip = r.pos.trip ∧
    (runEnded r wr).pos.run = r.pos.run + 1 ∧ (runEnded r wr).pos.activity = r.pos.activity ∧ (runEnded r wr).pos.pend = [] ∧
    (runEnded r wr).pos.slot = 0 ∧ (runEnded r wr).pos.st = .between ∧ (runEnded r wr).pos.parkMarker = false := by
  have h := (passed_slots 1 (withWrites r 1 wr)).trans (passed_drain _)
  have hp : ((withWrites r 1 wr).slots 1).drain.pos.pend = [] := rfl
  unfold runEnded
  generalize ((withWrites r 1 wr).slots 1).drain = q at h hp ⊢
  rw [h]
  exact ⟨rfl, rfl, rfl, rfl, hp, rfl, rfl, rfl⟩

theorem runEnded_unparked {r : Machine.Group} (h : Unparked r) (wr : List Pend) : Unparked (runEnded r wr) := by
  have hw : Unparked (withWrites r 1 wr) := ⟨h.marked, h.fence, h.pushes, h.mode, h.truss, h.poison⟩
  obtain ⟨-, h2, h3, h4, h5, -⟩ := hw.of_passed ((passed_slots 1 (withWrites r 1 wr)).trans (passed_drain _))
  unfold runEnded
  generalize ((withWrites r 1 wr).slots 1).drain = q at h2 h3 h4 h5 ⊢
  exact ⟨rfl, h2, h3, h4, h5, rfl⟩

theorem getElem?_modifyAt {α : Type} (l : List α) (i j : Nat) (f : α → α) :
    (modifyAt l i f)[j]? = if j = i then l[j]?.map f else l[j]? := by
  induction l generalizing i j with
  | nil => simp [modifyAt]
  | cons a l ih =>
    cases i <;> cases j <;> simp [modifyAt, ih]

theorem freed_running (hc : c < s.cores.length) (k g : Nat) {ls : Nat} (hls : ls < (s.core c).lanesets.length) :
    ((freed c k g s ls).laneSetAt c ls).running ≠ some (k, g) := by
  rw [State.laneSetAt, freed, State.updLaneSet, core_updCore, if_pos ⟨rfl, hc⟩]
  simp only [List.getD, getElem?_modifyAt, if_true, List.getElem?_eq_getElem hls, Option.map_some, Option.getD_some]
  intro h
  simpa using (Option.filter_eq_some_iff.mp h).2

theorem freed_stays (s : State) (c k g ls : Nat) : SameCtxs s (freed c k g s ls) ∧ SameShape s (freed c k g s ls) ∧
    StoreStays s (freed c k g s ls) :=
  ⟨sameCtxs_updCore s c (f := fun co => { co with lanesets := modifyAt co.lanesets ls _ }) rfl, sameShape_updLaneSet s c ls _, ⟨rfl, rfl, rfl, rfl, rfl⟩⟩

theorem around_movedPast (s : State) (c k g : Nat) (fin : Bool) (b : Machine.Group) : Around s (movedPast s c k g fin b) := by
  have hb : Around s (s.setGroup c k g b) := around_setCtx _ _ _ _
  unfold movedPast
  split
  · exact hb
  · split
    case h_2 => exact hb
    case h_1 d _ =>
      split
      · exact hb.trans (around_setCtx _ _ _ _)
      · unfold completeDesc
        split
        · exact (hb.trans (around_deliverWord _ c k g d.seq 0 none)).trans (around_setCtx _ _ _ _)
        · exact hb.trans (around_setCtx _ _ _ _)

end

section
variable {s : State} {x : Ctx} {g : Machine.Group} {h : Hdr} {wr : List Pend}

/-- The state once the run is over, the group's lane set free, before the group goes on. -/
def runOver (s : State) (x : Ctx) (g : Machine.Group) (h : Hdr) (wr : List Pend) : State :=
  freed s.cur.core s.cur.ctx s.cur.group (movedPast (s.setGrp ((withWrites g 1 wr).slots 1)) s.cur.core s.cur.ctx s.cur.group h.fin (runEnded g wr))
    ((x.base + s.cur.group) % 4)

theorem issued_ends (hg : s.grp? = some (x, g)) (hh : h.fin = true ∨ h.bnd = true) (hs : h.sw = false) (hu : Unparked g) :
    issued s x g h 1 .none s g wr = settle (runOver s x g h wr) s.cur.core s.cur.ctx s.cur.group := by
  obtain ⟨hx, hr⟩ := me?_of_grp? hg
  obtain ⟨hc, hk, -⟩ := State.me?_some hx
  have hi : InRange s s.cur.core s.cur.ctx := ⟨hc, (List.getElem?_eq_some_iff.mp hk).1⟩
  have hq : (s.setGrp ((withWrites g 1 wr).slots 1)).group s.cur.core s.cur.ctx s.cur.group = (withWrites g 1 wr).slots 1 :=
    myGroup_setGrp hg _
  have hw : Unparked (withWrites g 1 wr) := ⟨hu.marked, hu.fence, hu.pushes, hu.mode, hu.truss, hu.poison⟩
  have hctx : (s.setGrp ((withWrites g 1 wr).slots 1)).ctx s.cur.core s.cur.ctx = x.setGroup s.cur.group ((withWrites g 1 wr).slots 1) := by
    rw [State.setGrp, State.setGroup, hi.ctx_setCtx, State.ctx_of_me? hx]
  have huq := hw.of_passed (passed_slots 1 _)
  rw [← hq] at huq
  rw [issued_eq _ _ _ _ _ _ _ _ _ rfl, if_pos (by simpa using hh), endRun_unparked hs huq, hq, hctx]
  rfl

theorem inRange_runOver (hg : s.grp? = some (x, g)) : InRange s s.cur.core s.cur.ctx ∧ InRange (runOver s x g h wr) s.cur.core s.cur.ctx := by
  obtain ⟨hc, hk, -⟩ := State.me?_some (me?_of_grp? hg).1
  have hi : InRange s s.cur.core s.cur.ctx := ⟨hc, (List.getElem?_eq_some_iff.mp hk).1⟩
  have h1 : InRange (s.setGrp ((withWrites g 1 wr).slots 1)) s.cur.core s.cur.ctx := hi.of_shape (sameShape_setCtx _ _ _ _)
  exact ⟨hi, (h1.of_shape (around_movedPast _ _ _ s.cur.group h.fin (runEnded g wr)).shape).of_shape (freed_stays _ _ _ _ _).2.1⟩

/-- The context once the run is over. -/
theorem ctx_runOver (hg : s.grp? = some (x, g)) : (runOver s x g h wr).ctx s.cur.core s.cur.ctx =
    if !h.fin then x.setGroup s.cur.group (runEnded g wr)
    else match x.descOf g.pos.seq with
      | some d =>
        if g.pos.trip + 1 < d.trip.toNat then x.setGroup s.cur.group ((runEnded g wr).startTrip d (g.pos.trip + 1))
        else ((if d.ret then x.deliver d.seq s.cur.group 0 none else x).setGroup s.cur.group (pastDesc (runEnded g wr))).retire
      | none => x.setGroup s.cur.group (runEnded g wr) := by
  obtain ⟨hx, hr⟩ := me?_of_grp? hg
  obtain ⟨hi, -⟩ := inRange_runOver (h := h) (wr := wr) hg
  have hctx : (s.setGrp ((withWrites g 1 wr).slots 1)).ctx s.cur.core s.cur.ctx = x.setGroup s.cur.group ((withWrites g 1 wr).slots 1) := by
    rw [State.setGrp, State.setGroup, hi.ctx_setCtx, State.ctx_of_me? hx]
  have h1 : InRange (s.setGrp ((withWrites g 1 wr).slots 1)) s.cur.core s.cur.ctx := hi.of_shape (sameShape_setCtx _ _ _ _)
  have hr1 : (x.setGroup s.cur.group ((withWrites g 1 wr).slots 1)).groups[s.cur.group]? = some ((withWrites g 1 wr).slots 1) :=
    List.getElem?_set_self (List.getElem?_eq_some_iff.mp hr).1
  obtain ⟨hseq, htrip, -⟩ := runEnded_pos g wr
  rw [runOver, (freed_stays _ _ _ _ _).1.ctx, movedPast_ctx h1 hctx hr1, hseq, htrip]
  rw [show (x.setGroup s.cur.group ((withWrites g 1 wr).slots 1)).descOf g.pos.seq = x.descOf g.pos.seq from rfl]
  simp only [setGroup_setGroup]
  cases x.descOf g.pos.seq with
  | none => rfl
  | some d =>
    have hd : (if d.ret = true then (x.setGroup s.cur.group ((withWrites g 1 wr).slots 1)).deliver d.seq s.cur.group 0 none
          else x.setGroup s.cur.group ((withWrites g 1 wr).slots 1)).setGroup s.cur.group (pastDesc (runEnded g wr)) =
        (if d.ret = true then x.deliver d.seq s.cur.group 0 none else x).setGroup s.cur.group (pastDesc (runEnded g wr)) := by
      split
      · exact setGroup_setGroup (x.deliver d.seq s.cur.group 0 none) _ _ _
      · exact setGroup_setGroup x _ _ _
    simp only [hd]

theorem runOver_stays (s : State) (x : Ctx) (g : Machine.Group) (h : Hdr) (wr : List Pend) : StoreStays s (runOver s x g h wr) := by
  have hq : StoreStays s (s.setGrp ((withWrites g 1 wr).slots 1)) := ⟨rfl, rfl, rfl, rfl, rfl⟩
  exact (hq.trans (storeStays_movedPast _ _ _ _ _ _)).trans (freed_stays _ _ _ _ _).2.2

theorem runOver_running (hg : s.grp? = some (x, g)) (hl : (x.base + s.cur.group) % 4 < (s.core s.cur.core).lanesets.length) :
    ((runOver s x g h wr).laneSetAt s.cur.core ((x.base + s.cur.group) % 4)).running ≠ some (s.cur.ctx, s.cur.group) := by
  have ha : Around s (movedPast (s.setGrp ((withWrites g 1 wr).slots 1)) s.cur.core s.cur.ctx s.cur.group h.fin (runEnded g wr)) :=
    (around_setCtx _ _ _ _).trans (around_movedPast _ _ _ _ _ _)
  obtain ⟨hi, -⟩ := inRange_runOver (h := h) (wr := wr) hg
  exact freed_running (ha.shape.cores.symm ▸ hi.core) _ _ (ha.lanesets _ ▸ hl)

end

/-! ### After a run before a run, and after the last -/

section
variable {s : State} {x : Ctx} {g : Machine.Group} {h : Hdr} {wr : List Pend}

/-- A group that goes on in its descriptor: what its position then is. -/
theorem ends_eligible {r : Machine.Group} (hg : s.grp? = some (x, g)) (hh : h.fin = true ∨ h.bnd = true) (hs : h.sw = false)
    (hu : Unparked g) (hr : ((runOver s x g h wr).ctx s.cur.core s.cur.ctx).groups[s.cur.group]? = some r) (hur : Unparked r)
    (hm : r.pos.parkMarker = false) (hst : r.pos.st ≠ .done) :
    StoreStays s (issued s x g h 1 .none s g wr) ∧ Around (runOver s x g h wr) (issued s x g h 1 .none s g wr) ∧
      ∃ n, ((issued s x g h 1 .none s g wr).ctx s.cur.core s.cur.ctx).groups[s.cur.group]? = some (awake (waitsNext r) n) := by
  rw [issued_ends hg hh hs hu]
  obtain ⟨h1, h2, h3⟩ := settle_eligible (inRange_runOver hg).2 hr hur hm hst
  exact ⟨(runOver_stays s x g h wr).trans h1, h2, _, h3⟩

theorem startTrip_boundary (r : Machine.Group) (d : Desc) (n : Nat) : (r.startTrip d (n + 1)).pos.parkMarker = r.pos.parkMarker ∧
    (r.startTrip d (n + 1)).pos.st = .between ∧ (r.startTrip d (n + 1)).pos.pend = r.pos.pend ∧ (r.startTrip d (n + 1)).pos.slot = 0 :=
  ⟨rfl, rfl, rfl, rfl⟩

theorem startTrip_unparked {r : Machine.Group} (hu : Unparked r) (d : Desc) (n : Nat) : Unparked (r.startTrip d n) :=
  ⟨hu.marked, hu.fence, hu.pushes, hu.mode, hu.truss, hu.poison⟩

theorem pastDesc_pos (r : Machine.Group) : nextNumber (pastDesc r) = r.pos.seq + 1 ∧ (pastDesc r).pos.parkMarker = r.pos.parkMarker ∧
    (pastDesc r).pos.st = .done := ⟨rfl, rfl, rfl⟩

theorem pastDesc_unparked {r : Machine.Group} (hu : Unparked r) : Unparked (pastDesc r) :=
  ⟨hu.marked, hu.fence, hu.pushes, hu.mode, hu.truss, hu.poison⟩

/-- The context past a descriptor. -/
def pastCtx (x : Ctx) (i : Nat) (d : Desc) (r : Machine.Group) : Ctx :=
  ((if d.ret then x.deliver d.seq i 0 none else x).setGroup i r).retire

theorem pastCtx_fields (x : Ctx) (i : Nat) (d : Desc) (r : Machine.Group) : (pastCtx x i d r).groups = x.groups.set i r ∧
    (pastCtx x i d r).trig = x.trig ∧ (pastCtx x i d r).strm.blockQ = dropDone (x.groups.set i r) x.strm.blockQ ∧
    (d.ret = true → Given (pastCtx x i d r) i d.seq) := by
  unfold pastCtx
  by_cases hr : d.ret = true
  · rw [if_pos hr]
    exact ⟨rfl, rfl, rfl, fun _ => given_deliver x i d.seq 0 none⟩
  · rw [if_neg hr]
    exact ⟨rfl, rfl, rfl, fun h => absurd h hr⟩

theorem waitsNext_pastDesc (r : Machine.Group) : (waitsNext (pastDesc r)).pos.pend = r.pos.pend ∧
    (waitsNext (pastDesc r)).pos.slot = r.pos.slot ∧ (waitsNext (pastDesc r)).pos.st = .done ∧
    (waitsNext (pastDesc r)).pos.status = .waiting := ⟨rfl, rfl, rfl, rfl⟩

/-- Group g of a team has completed a descriptor and waits; no store and no lane set has changed. -/
structure PastEnd (s : State) (x : Ctx) (g : Machine.Group) (h : Hdr) (wr : List Pend) (d : Desc) (w : State) : Prop where
  there : InRange w s.cur.core s.cur.ctx
  stays : StoreStays s w
  around : Around (runOver s x g h wr) w
  group : (w.ctx s.cur.core s.cur.ctx).groups[s.cur.group]? = some (waitsNext (pastDesc (runEnded g wr)))
  trig : (w.ctx s.cur.core s.cur.ctx).trig = x.trig
  next : (w.ctx s.cur.core s.cur.ctx).descOf (g.pos.seq + 1) = x.descOf (g.pos.seq + 1)
  given : d.ret = true → Given (w.ctx s.cur.core s.cur.ctx) s.cur.group d.seq

theorem ends_complete {d : Desc} (hg : s.grp? = some (x, g)) (hf : h.fin = true) (hs : h.sw = false) (hu : Unparked g)
    (hd : x.descOf g.pos.seq = some d) (ht : ¬ g.pos.trip + 1 < d.trip.toNat) : ∃ w, PastEnd s x g h wr d w ∧
      issued s x g h 1 .none s g wr =
        startVisible w s.cur.core s.cur.ctx s.cur.group (w.ctx s.cur.core s.cur.ctx).strm.blockQ.length := by
  obtain ⟨hx, hr⟩ := me?_of_grp? hg
  obtain ⟨-, hi⟩ := inRange_runOver (h := h) (wr := wr) hg
  have hlt := (List.getElem?_eq_some_iff.mp hr).1
  obtain ⟨hseq, -, -, -, -, -, -, hm⟩ := runEnded_pos g wr
  obtain ⟨hn, hpm, hst⟩ := pastDesc_pos (runEnded g wr)
  have hctx : (runOver s x g h wr).ctx s.cur.core s.cur.ctx = pastCtx x s.cur.group d (pastDesc (runEnded g wr)) := by
    rw [ctx_runOver hg, hf, hd]
    exact if_neg ht
  obtain ⟨hgs, htr, hq, hgv⟩ := pastCtx_fields x s.cur.group d (pastDesc (runEnded g wr))
  have hgr : ((runOver s x g h wr).ctx s.cur.core s.cur.ctx).groups[s.cur.group]? = some (pastDesc (runEnded g wr)) := by
    rw [hctx, hgs, List.getElem?_set_self hlt]
  have hw : ((runOver s x g h wr).setGroup s.cur.core s.cur.ctx s.cur.group (waitsNext (pastDesc (runEnded g wr)))).ctx s.cur.core s.cur.ctx =
      (pastCtx x s.cur.group d (pastDesc (runEnded g wr))).setGroup s.cur.group (waitsNext (pastDesc (runEnded g wr))) := by
    rw [State.setGroup, hi.ctx_setCtx, hctx]
  refine ⟨(runOver s x g h wr).setGroup s.cur.core s.cur.ctx s.cur.group (waitsNext (pastDesc (runEnded g wr))), ?_, ?_⟩
  · refine ⟨hi.of_shape (sameShape_setCtx _ _ _ _), (runOver_stays s x g h wr).trans ⟨rfl, rfl, rfl, rfl, rfl⟩, around_setCtx _ _ _ _,
      hi.group_setGroup hgr _, ?_, ?_, fun hret => ?_⟩
    · rw [hw]
      exact htr
    · rw [hw, Ctx.descOf]
      rw [show ((pastCtx x s.cur.group d (pastDesc (runEnded g wr))).setGroup s.cur.group
        (waitsNext (pastDesc (runEnded g wr)))).strm.blockQ = _ from hq]
      exact find_dropDone ⟨_, List.mem_set hlt _, by rw [hn, hseq]⟩ _
    · rw [hw]
      exact hgv hret
  · rw [issued_ends hg (.inl hf) hs hu, settle_done hgr (pastDesc_unparked (runEnded_unparked hu wr)) (hpm.trans hm) hst]

/-- The lane set of the group is free, and the group stands at a start with no write pending. -/
theorem boundary_of {t : State} (hg : s.grp? = some (x, g)) (hl : (x.base + s.cur.group) % 4 < (s.core s.cur.core).lanesets.length)
    (ha : Around (runOver s x g h wr) t) (hs : AtStart (t.ctx s.cur.core s.cur.ctx) s.cur.group) :
    myGroup t = t.group s.cur.core s.cur.ctx s.cur.group ∧
    (t.laneSetAt s.cur.core ((x.base + s.cur.group) % 4)).running ≠ some (s.cur.ctx, s.cur.group) ∧
    (myGroup t).pos.pend = [] ∧ (myGroup t).pos.slot = 0 := by
  have hb : Around s (movedPast (s.setGrp ((withWrites g 1 wr).slots 1)) s.cur.core s.cur.ctx s.cur.group h.fin (runEnded g wr)) :=
    (around_setCtx _ _ _ _).trans (around_movedPast _ _ _ _ _ _)
  have hcur : t.cur = s.cur := ha.cur.trans hb.cur
  have hm : myGroup t = t.group s.cur.core s.cur.ctx s.cur.group := by rw [myGroup, hcur]
  obtain ⟨r, hr, hp, hz⟩ := hs.there
  refine ⟨hm, ?_, ?_, ?_⟩
  · rw [State.laneSetAt, ha.lanesets]
    exact runOver_running hg hl
  · rw [hm, group_eq hr, hp]
  · rw [hm, group_eq hr, hz]

/-- A group that goes on in its descriptor from a start with no write pending. -/
theorem eligible_boundary {r : Machine.Group} (hg : s.grp? = some (x, g)) (hh : h.fin = true ∨ h.bnd = true) (hs : h.sw = false)
    (hu : Unparked g) (hl : (x.base + s.cur.group) % 4 < (s.core s.cur.core).lanesets.length)
    (hr : ((runOver s x g h wr).ctx s.cur.core s.cur.ctx).groups[s.cur.group]? = some r) (hur : Unparked r)
    (hm : r.pos.parkMarker = false) (hst : r.pos.st ≠ .done) (hp : r.pos.pend = []) (hz : r.pos.slot = 0) :
    let t := issued s x g h 1 .none s g wr
    StoreStays s t ∧ ((t.laneSetAt s.cur.core ((x.base + s.cur.group) % 4)).running ≠ some (s.cur.ctx, s.cur.group) ∧
      (myGroup t).pos.pend = [] ∧ (myGroup t).pos.slot = 0) ∧ ∃ n, myGroup t = awake (waitsNext r) n := by
  obtain ⟨h1, h2, n, h3⟩ := ends_eligible hg hh hs hu hr hur hm hst
  obtain ⟨hmy, hb⟩ := boundary_of hg hl h2 ⟨_, h3, hp, hz⟩
  exact ⟨h1, hb, n, hmy.trans (group_eq h3)⟩

/-- Past its descriptor, a group that cannot see the next one starts none. -/
theorem waitsNext_number (r : Machine.Group) : nextNumber (waitsNext r) = nextNumber r := rfl

theorem PastEnd.nextNumber {d : Desc} {w : State} (_ : PastEnd s x g h wr d w) :
    nextNumber (waitsNext (pastDesc (runEnded g wr))) = g.pos.seq + 1 := by
  rw [waitsNext_number, (pastDesc_pos _).1, (runEnded_pos g wr).1]

theorem PastEnd.startable_none {d : Desc} {w : State} (hw : PastEnd s x g h wr d w)
    (hn : ∀ d', x.descOf (g.pos.seq + 1) = some d' → d'.seen.getLsbD s.cur.group = false) :
    (w.ctx s.cur.core s.cur.ctx).startable s.cur.group = none := by
  rw [Option.eq_none_iff_forall_ne_some]
  intro e he
  obtain ⟨hd, -, -, -, hseen, -⟩ := startable_eq_some.mp he
  rw [group_of_getElem? hw.group, nextSeq_eq, hw.nextNumber, hw.next] at hd
  rw [hn e hd] at hseen
  cases hseen

end

/-- Settles O40: the writes of a slot, and where the end of a run leaves the group. -/
theorem slotsAndRunsEnd : Obligations.SlotsAndRunsEnd := by
  refine ⟨fun s x g h m wr hg hh hwr => ?_, fun s x g h wr hg hh hsw hmk hpm hpf hpu hmm htr hpo hlt hls => ?_⟩
  · rw [slot_passes m wr hh]
    dsimp only
    rw [myGroup_setGrp hg]
    have hw := onlyWrites_slot (withWrites g 1 wr)
    refine ⟨orderPend wr, orderPend_ordered hwr, rfl, congrArg (·.pos.slot) hw, congrArg (·.pos.word) hw, congrArg (·.pos.run) hw,
      congrArg (·.pos.trip) hw, congrArg (·.pos.status) hw, congrArg (·.outs) hw, congrArg (·.loops) hw, pend_slot _,
      fun k hk => vregs_slot_other hk, fun k _ hk => gregs_slot_other hk, fun hk => exmask_slot_other hk, ?_⟩
    intro p hp hu hone old ho hold
    refine ⟨_, vregs_slot_same hp hu hone ho, (length_mergeLanes _ _ _).trans hold, fun i hi => ?_⟩
    rw [getElem?_mergeLanes, List.getElem?_eq_getElem (by omega)]
    exact ⟨fun hb => by simp [hb], fun hb => by simp [hb]⟩
  · have hu : Unparked g := ⟨hmk, hpf, hpu, hmm, htr, hpo⟩
    obtain ⟨hx, hr⟩ := me?_of_grp? hg
    obtain ⟨hseq, htrip, hrun, hact, hpend, hslot, hst, hm⟩ := runEnded_pos g wr
    have hur := runEnded_unparked hu wr
    have hset (r : Machine.Group) : (x.setGroup s.cur.group r).groups[s.cur.group]? = some r := List.getElem?_set_self hlt
    have hctx := ctx_runOver (h := h) (wr := wr) hg
    dsimp only
    have hne : (runEnded g wr).pos.st ≠ .done := by
      rw [hst]
      exact nofun
    cases hf : h.fin with
    | false =>
      have hgr : ((runOver s x g h wr).ctx s.cur.core s.cur.ctx).groups[s.cur.group]? = some (runEnded g wr) := by
        rw [hctx, hf]
        exact hset _
      obtain ⟨h1, h2, n, h3⟩ := eligible_boundary hg hh hsw hu hls hgr hur hm hne hpend hslot
      refine ⟨fun _ => ⟨h1.mem, h1.host, h1.lines, h1.launches⟩, h2.1, h2.2.1, h2.2.2, fun d hd => ⟨fun _ => ?_, nofun, nofun⟩⟩
      rw [h3]
      generalize runEnded g wr = b at hrun htrip hst
      exact ⟨hrun, htrip, hst, rfl⟩
    | true =>
      rw [hf] at hctx
      cases hd : x.descOf g.pos.seq with
      | none =>
        have hgr : ((runOver s x g h wr).ctx s.cur.core s.cur.ctx).groups[s.cur.group]? = some (runEnded g wr) := by
          rw [hctx, hd]
          exact hset _
        obtain ⟨h1, h2, -⟩ := eligible_boundary hg hh hsw hu hls hgr hur hm hne hpend hslot
        exact ⟨fun _ => ⟨h1.mem, h1.host, h1.lines, h1.launches⟩, h2.1, h2.2.1, h2.2.2, fun _ hn => (Option.some_ne_none _ hn.symm).elim⟩
      | some d =>
        by_cases ht : g.pos.trip + 1 < d.trip.toNat
        · have hgr : ((runOver s x g h wr).ctx s.cur.core s.cur.ctx).groups[s.cur.group]? =
              some ((runEnded g wr).startTrip d (g.pos.trip + 1)) := by
            rw [hctx, hd]
            dsimp only
            rw [if_pos ht]
            exact hset _
          obtain ⟨hbm, hbs, hbp, hbz⟩ := startTrip_boundary (runEnded g wr) d g.pos.trip
          obtain ⟨h1, h2, n, h3⟩ := eligible_boundary hg hh hsw hu hls hgr (startTrip_unparked hur d _) (hbm.trans hm)
            (by rw [hbs]; exact nofun) (hbp.trans hpend) hbz
          refine ⟨fun _ => ⟨h1.mem, h1.host, h1.lines, h1.launches⟩, h2.1, h2.2.1, h2.2.2, fun d' hd' => ?_⟩
          obtain rfl := Option.some.inj hd'
          refine ⟨nofun, fun _ _ => ?_, fun _ hn => absurd ht (Nat.not_lt.mpr hn)⟩
          rw [h3]
          generalize runEnded g wr = b at hact
          exact ⟨rfl, rfl, rfl, rfl, rfl, rfl, hact, rfl⟩
        · obtain ⟨w, hw, hex⟩ := ends_complete (wr := wr) hg hf hsw hu hd ht
          obtain ⟨hwp, hws, hwd, hww⟩ := waitsNext_pastDesc (runEnded g wr)
          have hav := around_startVisible (w.ctx s.cur.core s.cur.ctx).strm.blockQ.length w s.cur.core s.cur.ctx s.cur.group
          have hfacts := startVisible_facts (n := d.seq) (w.ctx s.cur.core s.cur.ctx).strm.blockQ.length hw.there
            ⟨_, hw.group, hwp.trans hpend, hws.trans hslot⟩
          obtain ⟨hstart, hgiven⟩ := hfacts
          have hb := boundary_of hg hls (hw.around.trans hav) hstart
          rw [hex]
          obtain ⟨hmy, hfree⟩ := hb
          refine ⟨fun hq => ?_, hfree.1, hfree.2.1, hfree.2.2, fun d' hd' => ?_⟩
          · rcases hq with hq | hq | hq
            · obtain ⟨m1, m2, m3, m4⟩ := hav.mem (hw.stays.queue.trans hq)
              exact ⟨m1.trans hw.stays.mem, m2.trans hw.stays.host, m3.trans hw.stays.lines, m4.trans hw.stays.launches⟩
            · cases hq
            · rw [startVisible_none (hw.startable_none fun d' hd' => hq rfl d' hd')]
              exact ⟨hw.stays.mem, hw.stays.host, hw.stays.lines, hw.stays.launches⟩
          · obtain rfl := Option.some.inj hd'
            refine ⟨nofun, fun _ hn => absurd hn ht, fun _ _ => ⟨fun hn => ?_, fun d' hd' hseen hreg hbar hwork htrig => ?_, ?_⟩⟩
            · rw [hmy, startVisible_none (hw.startable_none hn), group_eq hw.group]
              exact ⟨hwd, hww⟩
            · have hstart : (w.ctx s.cur.core s.cur.ctx).startable s.cur.group = some d' := by
                rw [startable_eq_some, group_of_getElem? hw.group, nextSeq_eq, hw.nextNumber, hw.next]
                exact ⟨hd', hreg, hww, hw.trig.trans htrig, hseen, fun hb => absurd hb (by simp [hbar])⟩
              have hpos : 0 < (w.ctx s.cur.core s.cur.ctx).strm.blockQ.length := by
                rw [← hw.next, Ctx.descOf] at hd'
                exact List.length_pos_of_mem (List.mem_of_find?_eq_some hd')
              rw [hmy, ← Nat.sub_add_cancel hpos]
              exact startVisible_starts hw.there hw.group hstart hwork _
            · exact fun e he hes hret hel => hgiven (hw.given hret) e he hes hel

end Sys2Proof.Claims
end

