-- ==== Sys2Proof/Proofs/LaneIssue.lean ====
section
/-! How a lane word issues, traps or suspends once its shared checks pass (09 R251), from the uses and operands that the statements
name. -/

namespace Sys2Proof.Claims

open Machine

section
variable {s : State} {x : Ctx} {g : Machine.Group} {w : LaneWord} {u : Uses} {ops : List Opd} {e : Env} {en : Entry}

/-! ### Step 4 to 6 -/

/-- The form of a word that is no tile word, from its uses. -/
def formOf (u : Uses) : Form :=
  { d := u.d, a := u.a, b := u.b, c := u.c, ty := u.ty, md := u.md, tile := false, sa := false, sb := false, sc := false, x := u.x,
    lit := u.lit, values := true, pair := true }

theorem formOf_clean (ht : u.tile = false) (h : u.clean w) : (formOf u).clean w = true := by
  obtain ⟨hd, ha, hb, hc, hl, hx, hty, hmd, htl, hsa, hsb, hsc⟩ := h
  have htl' : w.tl = false := by
    cases hw : w.tl with
    | false => rfl
    | true => rw [htl hw] at ht; cases ht
  simp only [htl', Bool.false_eq_true, false_and, not_false_eq_true, forall_const] at hsa hsb hsc
  have or_of {b : Bool} {v : BitVec 8} (h : b = false → v = 0) : (b || v == 0) = true := by
    cases b with
    | true => rfl
    | false => simp [h rfl]
  have hlb : (if w.lit then u.lit && w.b == 0 else u.b || w.b == 0) = true := by
    split
    case isTrue hw => simp [hl hw]
    case isFalse => exact or_of hb
  have hxx : (w.lit || w.x &&& ~~~u.x == 0) = true := by
    cases hw : w.lit with
    | true => rfl
    | false => simpa using hx hw
  have htt : (!u.ty.isEmpty || w.ty == 0) = true := by
    cases hu : u.ty with
    | nil => simp [hty hu]
    | cons => rfl
  have hmm : u.md.contains w.md.toNat = true := by simpa using hmd
  simp only [Form.clean, formOf, htl', hsa, hsb, hsc, or_of hd, or_of ha, or_of hc, hlb, hxx, htt, hmm]
  rfl

theorem formOf_typed (h : u.typed w) : (formOf u).typed w = true := by
  obtain ⟨hty, hwide⟩ := h
  have htt : (u.ty.isEmpty || u.ty.contains w.ty.toNat) = true := by
    cases hu : u.ty with
    | nil => rfl
    | cons a l => simpa [hu] using hty (by simp [hu])
  have hww : (w.tl && tyWide w.ty.toNat) = false := by
    cases hw : w.tl with
    | false => rfl
    | true => simpa [tyWide] using hwide hw
  simp only [Form.typed, formOf, htt, hww]
  rfl

theorem regCheck_none {n q : Nat} (h : ∀ o ∈ ops, (o.pair = true → o.num % 2 = 0) ∧ ∀ k ∈ o.names, k < if o.vec then n else q) :
    regCheck n q ops = none := by
  unfold regCheck
  rw [if_neg, if_neg, if_neg]
  all_goals
    intro hany
    obtain ⟨o, ho, hp⟩ := List.any_eq_true.mp hany
    obtain ⟨h1, h2⟩ := h o ho
    simp only [Bool.and_eq_true, decide_eq_true_eq, Bool.not_eq_true', List.any_eq_true] at hp
  · obtain ⟨hv, k, hk, hle⟩ := hp
    have := h2 k hk
    simp only [hv, Bool.false_eq_true, if_false] at this
    omega
  · obtain ⟨hv, k, hk, hle⟩ := hp
    have := h2 k hk
    simp only [hv, if_true] at this
    omega
  · have := h1 hp.1
    omega

/-! ### The issue of a word whose operands are quiet -/

theorem quiet_of (h : OperandsReady e en.ops) (hr : en.reads = none) : e.Quiet en := by
  obtain ⟨-, hp, hu, ho, hs⟩ := h
  exact ⟨hu, ho, hp, hs, fun f hf => by rw [hr] at hf; cases hf⟩

/-- A word whose checks pass does what its entry does, where that is no issue. -/
theorem decide4to7_stops (hj : e.junk = false) (hd : e.x.debug = false) (hc : en.form.clean w = true) (ht : en.form.typed w = true)
    (hr : regCheck e.x.n e.x.q en.ops = none) (hq : e.Quiet en) (hn : ∀ s g wr, en.effect e ≠ .go s g wr) :
    decide4to7 e w en = en.effect e := by
  have hjunk : ({ e with junk := en.acts e w && (e.uncovered en.ops (·.rd) || e.owns en.ops (·.rd)) } : Env) = e := by
    rw [Env.uncovered_false _ hq.outs, Env.owns_false _ hq.loops, Bool.or_false, Bool.and_false, ← hj]
  have hdb : debugCause e w en = none := by simp [debugCause, hd]
  have hp : readPoison e w en = none := by
    have hl : ((en.reads.map (· e)).getD (e.poisons (en.ops.filter (·.rd)))).lanes = 0 := by
      cases hf : en.reads with
      | none => exact Env.poisons_lanes_zero e _ fun o ho => hq.poison o (List.mem_filter.mp ho).1 (List.mem_filter.mp ho).2
      | some f => exact hq.cross f hf
    simp [readPoison, hl, specialPoison_quiet w hq]
  unfold decide4to7
  simp only [hc, ht, hr, Bool.not_true, Bool.false_eq_true, if_false, hjunk, hdb, hp]
  cases hef : en.effect e with
  | go s g wr => exact absurd hef (hn s g wr)
  | hold s g why =>
    have hg : (if g.pos.poisonRun.isNone then { g with pos := { g.pos with poisonRun := none } } else g) = g := by
      split
      case isTrue h =>
        have hz : g.pos.poisonRun = none := Option.isNone_iff_eq_none.mp h
        rw [← hz]
      case isFalse => rfl
    simp only [hg]
  | trap => rfl
  | suspend => rfl

theorem structure1_none {h : Hdr} {b : Bool} (hp : Placed g h b) : structure1 g h b = none := by
  obtain ⟨hslot, hsw, hme⟩ := hp
  have he (q : h.fin = true ∨ h.bnd = true) : (h.fin || h.bnd) = true := by simpa using q
  unfold structure1
  dsimp only
  rw [if_neg, if_neg, if_neg (Nat.not_le.mpr hslot)]
  · intro hn
    simp only [Bool.and_eq_true] at hn
    rw [he (hsw hn.1)] at hn
    simp at hn
  · intro hn
    simp only [Bool.and_eq_true] at hn
    rw [he (hme hn.1)] at hn
    simp at hn

/-- A word that may issue. -/
structure Checked (s : State) (x : Ctx) (g : Machine.Group) (w : LaneWord) (en : Entry) : Prop where
  debug : x.debug = false
  clean : en.form.clean w = true
  typed : en.form.typed w = true
  regs : regCheck x.n x.q en.ops = none
  quiet : (Env.of s x g).Quiet en

theorem checked_of (hu : u.ok w) (ht : u.tile = false) (ho : OperandsReady (Env.of s x g) ops) (hd : x.debug = false)
    (hf : en.form = formOf u) (hops : en.ops = ops) (hr : en.reads = none) : Checked s x g w en := by
  subst hops
  exact ⟨hd, hf ▸ formOf_clean ht hu.1, hf ▸ formOf_typed hu.2, regCheck_none ho.1, quiet_of ho hr⟩

theorem laneWord_issues {m : Truss} {b : Bool} {f : Env → Entry} {s' : State} {g' : Machine.Group} {wr : List Pend}
    (h : LaneActs s x g w.hdr b) (hc : Checked s x g w (f (Env.of s x g)))
    (hef : (f (Env.of s x g)).effect (Env.of s x g) = .go s' g' wr) (ht : Tidy (Env.of s x g) (f (Env.of s x g)) g' wr) :
    laneWord s w b m f = .next (issued s x g w.hdr 1 m s' g' wr) := by
  obtain ⟨hg, -, hp⟩ := h
  exact laneWord_go hg (structure1_none hp) (decide4to7_go rfl hc.debug hc.clean hc.typed hc.regs hc.quiet hef ht)

theorem laneWord_stops {m : Truss} {b : Bool} {f : Env → Entry} {i : Issue} (h : LaneActs s x g w.hdr b)
    (hc : Checked s x g w (f (Env.of s x g))) (hef : (f (Env.of s x g)).effect (Env.of s x g) = i) (hn : ∀ s' g' wr, i ≠ .go s' g' wr) :
    laneWord s w b m f = .next (finishWord (Env.of s x g) w.hdr 1 m i) := by
  obtain ⟨hg, -, hp⟩ := h
  rw [laneWord, onGroup_some _ hg]
  rw [show (Env.of s x g).g = g from rfl, structure1_none hp]
  dsimp only
  rw [decide4to7_stops rfl hc.debug hc.clean hc.typed hc.regs hc.quiet (fun a b c => hef ▸ hn a b c), hef]

/-- A word that its entry traps as a whole: FMASK is the execute mask. -/
theorem laneWord_traps {m : Truss} {b : Bool} {f : Env → Entry} {c : Nat} (h : LaneActs s x g w.hdr b)
    (hc : Checked s x g w (f (Env.of s x g))) (hef : (f (Env.of s x g)).effect (Env.of s x g) = trapWord (Env.of s x g) c) :
    laneWord s w b m f = .next (laneTrap s s.cur.core s.cur.ctx s.cur.group c false true 0 g.pos.exmask 0) := by
  have hn : ∀ s' g' wr, Issue.trap c false 0 (Env.of s x g).mask 0 ≠ .go s' g' wr := by
    intro s' g' wr h
    cases h
  rw [laneWord_stops (i := .trap c false 0 (Env.of s x g).mask 0) h hc hef hn]
  rfl

end

end Sys2Proof.Claims
end

