-- ==== Sys2Proof/Proofs/FenceQueueSpawn.lean ====
section
/-! Fences, queue words and SPAWN (03 R88-R93, R104-R106, 08 R227). -/

namespace Sys2Proof.Claims

open Machine

section
variable {s : State} {x : Ctx} {g : Machine.Group} {w : LaneWord}

/-! ### Fences: whatever the execute mask holds, with no operand (08 R227) -/

theorem varRes_hits_nil (v : VarRes) : v.hits [] [] = false := by
  unfold VarRes.hits
  cases v.gs <;> simp

theorem loop_hits_nil (l : Loop) : l.hits [] = false := by simp [Loop.hits]

theorem uncovered_nil (e : Env) (sel : Opd → Bool) : e.uncovered [] sel = false :=
  List.any_eq_false.mpr fun v _ => Bool.eq_false_iff.mp (varRes_hits_nil v)

theorem owns_nil (e : Env) (sel : Opd → Bool) : e.owns [] sel = false :=
  List.any_eq_false.mpr fun l _ => Bool.eq_false_iff.mp (loop_hits_nil l)

/-- A word that names no register meets no hazard. -/
theorem applyHazards_blank {e : Env} {en : Entry} (w : LaneWord) (s : State) (g : Machine.Group) (hj : e.junk = false) (ho : en.ops = []) :
    applyHazards e w en s g [] = (s, g, []) := by
  have hv (b : Bool) (sel : Opd → Bool) : e.stored en.ops b sel = [] := by rw [ho]; rfl
  have hm : markConflicts e w en g = g := by
    unfold markConflicts
    dsimp only
    rw [indexed_map_id]
    intro p _
    simp [hv, varRes_hits_nil]
  unfold applyHazards
  split
  · rfl
  · simp only [hj, Bool.false_eq_true, if_false, hm, List.filter_nil]
    rw [indexed_map_id]
    intro p _
    simp [hv, loop_hits_nil]

/-- A word without operands that acts under any mask issues with its effect. -/
theorem decide4to7_blank {e : Env} {en : Entry} {s' : State} {g' : Machine.Group} (hj : e.junk = false) (hd : e.x.debug = false)
    (hc : en.form.clean w = true) (ht : en.form.typed w = true) (ho : en.ops = []) (ha : en.always = true) (hs : en.specs = [])
    (hr : en.reads = none) (htl : w.tl = false) (hef : en.effect e = .go s' g' []) : decide4to7 e w en = .go s' g' [] := by
  have hregs : regCheck e.x.n e.x.q en.ops = none := by rw [ho]; rfl
  have hjunk : ({ e with junk := en.acts e w && (e.uncovered en.ops (·.rd) || e.owns en.ops (·.rd)) } : Env) = e := by
    rw [ho, uncovered_nil, owns_nil, Bool.or_false, Bool.and_false, ← hj]
  have hsp : specialPoison e w en = none := by simp [specialPoison, ha, hs, htl]
  have hp : readPoison e w en = none := by
    have hl : ((en.reads.map (· e)).getD (e.poisons (en.ops.filter (·.rd)))).lanes = 0 := by rw [hr, ho]; rfl
    simp [readPoison, hl, hsp]
  have hg : (if g'.pos.poisonRun.isNone then { g' with pos := { g'.pos with poisonRun := none } } else g') = g' := by
    split
    case isTrue h => rw [← Option.isNone_iff_eq_none.mp h]
    case isFalse => rfl
  unfold decide4to7
  simp only [hc, ht, hregs, Bool.not_true, Bool.false_eq_true, if_false, hjunk, hef, debugCause, hd, Bool.not_false, if_true, hp,
    applyHazards_blank w s' g' hj ho, spreadSpecial, hsp, hg]

theorem fld_eq_ofNat {n : Nat} (v : BitVec n) (lo len : Nat) : fld v lo len = BitVec.ofNat len (v.toNat / 2 ^ lo % 2 ^ len) := by
  rw [fld_eq_div]
  exact BitVec.eq_of_toNat_eq (by simp)

/-- A fence that may stand where it does issues, and its group waits for it. -/
theorem fence_issues {u : Uses} (f : FenceReq) (h : LaneActs s x g w.hdr true) (hu : u.ok w) (ht : u.tile = false) :
    laneWord s w true .none (fun _ => { form := formOf u, ops := [], always := true, effect := fun e => e.park f }) =
      .next (issued s x g w.hdr 1 .none s (fenced g f) []) := by
  obtain ⟨hg, hd, hp⟩ := h
  have htl : w.tl = false := by
    cases hw : w.tl with
    | false => rfl
    | true =>
      obtain ⟨-, -, -, -, -, -, -, -, htile, -⟩ := hu.1
      rw [htile hw] at ht
      cases ht
  exact laneWord_go hg (structure1_none hp)
    (decide4to7_blank rfl hd (formOf_clean ht hu.1) (formOf_typed hu.2) rfl rfl rfl rfl htl rfl)

theorem exec_vfence (h : LaneActs s x g w.hdr true) (hu : Uses.ok { noUses with x := 0x1F0 } w) (hs : w.x.toNat / 64 % 8 ≠ 7)
    (ho : w.x.toNat / 16 % 4 ≠ 0) : Issues s x g (.vfence w) w.hdr s
      (fenced g (.fence (BitVec.ofNat 3 (w.x.toNat / 64 % 8)) (BitVec.ofNat 2 (w.x.toNat / 16)))) (fun wr => wr = []) := by
  have h1 : fld w.x 6 3 = BitVec.ofNat 3 (w.x.toNat / 64 % 8) := fld_eq_ofNat w.x 6 3
  have h2 : fld w.x 4 2 = BitVec.ofNat 2 (w.x.toNat / 16) := fld_eq_div w.x 4 2
  have hv : (decide (fld w.x 6 3 ≠ 7) && fld w.x 4 2 != 0) = true := by
    have n1 : fld w.x 6 3 ≠ 7 := fun e => hs (by simpa [h1] using congrArg BitVec.toNat e)
    have n2 : fld w.x 4 2 ≠ 0 := fun e => ho (by simpa [h2] using congrArg BitVec.toNat e)
    rw [decide_eq_true n1, bne_iff_ne.mpr n2]
    rfl
  refine ⟨[], ?_, rfl⟩
  rw [← h1, ← h2]
  simp only [exec, execVfence, hv]
  exact fence_issues (u := { noUses with x := 0x1F0 }) _ h hu rfl

theorem exec_vxfence (h : LaneActs s x g w.hdr true) (hu : Uses.ok { noUses with x := 0x1FF } w) (hs : w.x.toNat / 64 % 8 ≠ 7)
    (hf : w.x.toNat / 8 % 8 ≤ 4) (ht : w.x.toNat % 8 ≤ 4) : Issues s x g (.vxfence w) w.hdr s
      (fenced g (.cross (BitVec.ofNat 3 (w.x.toNat / 64 % 8)) (BitVec.ofNat 3 (w.x.toNat / 8 % 8)) (BitVec.ofNat 3 (w.x.toNat % 8))))
      (fun wr => wr = []) := by
  have h1 : fld w.x 6 3 = BitVec.ofNat 3 (w.x.toNat / 64 % 8) := fld_eq_ofNat w.x 6 3
  have h2 : fld w.x 3 3 = BitVec.ofNat 3 (w.x.toNat / 8 % 8) := fld_eq_ofNat w.x 3 3
  have h3 : fld w.x 0 3 = BitVec.ofNat 3 (w.x.toNat % 8) := by simpa using fld_eq_ofNat w.x 0 3
  have hv : (decide (fld w.x 6 3 ≠ 7) && pathOk (fld w.x 3 3) && pathOk (fld w.x 0 3)) = true := by
    have n1 : fld w.x 6 3 ≠ 7 := fun e => hs (by simpa [h1] using congrArg BitVec.toNat e)
    have n2 : pathOk (fld w.x 3 3) = true := by simpa [pathOk, h2] using hf
    have n3 : pathOk (fld w.x 0 3) = true := by simpa [pathOk, h3] using ht
    rw [decide_eq_true n1, n2, n3]
    rfl
  refine ⟨[], ?_, rfl⟩
  rw [← h1, ← h2, ← h3]
  simp only [exec, execVxfence, hv]
  exact fence_issues (u := { noUses with x := 0x1FF }) _ h hu rfl

/-! ### Queue words (03 R104-R106) -/

theorem wild_false (s : State) (x : Ctx) (g : Machine.Group) (os : List Opd) : (Env.of s x g).wild os = false := rfl

/-- A word's entry that issues with no new result and no write. -/
theorem tidy_same {e : Env} {en : Entry} {g' : Machine.Group} (ho : g'.outs = e.g.outs) (hl : g'.loops = e.g.loops) : Tidy e en g' [] :=
  ⟨⟨[], by rw [ho, List.append_nil]⟩, hl, fun _ hp => absurd hp List.not_mem_nil⟩

theorem fld_low_eq_mod {n : Nat} (v : BitVec n) (len : Nat) : (fld v 0 len).toNat = v.toNat % 2 ^ len := by
  rw [fld_zero_eq, BitVec.toNat_ofNat]

theorem exec_qpop_awaits (h : MayIssue s x g w { noUses with d := true, a := true } [Opd.vw w.d false, Opd.gr w.a false])
    (hq : queueCore (Env.of s x g) ((Env.of s x g).gval w.a) = some s.cur.core) (hm : (Env.of s x g).mask ≠ 0) :
    Awaits s x g (.qpop w) w.hdr (queueWith s (((Env.of s x g).gval w.a).toNat % 16) (fun r => { r with pops := r.pops ++ [(s.cur.ctx, s.cur.group)] }))
      g (fun v => v.gs = false ∧ v.regs = [(Env.of s x g).vmap w.d.toNat] ∧ v.lanes = (Env.of s x g).mask ∧
        v.popQueue = some (((Env.of s x g).gval w.a).toNat % 16) ∧ v.remote = []) := by
  obtain ⟨ha, hu, ho⟩ := h
  have hsel : (fld ((Env.of s x g).gval w.a) 0 4).toNat = ((Env.of s x g).gval w.a).toNat % 16 := fld_low_eq_mod _ 4
  rw [← hsel]
  refine ⟨{ (Env.of s x g).outstanding false [(Env.of s x g).vmap w.d.toNat] (Env.of s x g).mask [List.replicate 32 0] false
      ((Env.of s x g).poisonOf (Opd.gr w.a false)) with popQueue := some (fld ((Env.of s x g).gval w.a) 0 4).toNat },
    ?_, ⟨rfl, rfl, rfl, rfl, rfl⟩, rfl⟩
  simp only [exec, execQpop, word]
  refine laneWord_issues ha (checked_of (u := { noUses with d := true, a := true }) hu rfl ho ha.2.1 rfl rfl rfl) ?_
    ⟨⟨_, rfl⟩, rfl, fun _ hp => absurd hp List.not_mem_nil⟩
  have hcore : queueCore (Env.of s x g) ((Env.of s x g).gval w.a) = some (Env.of s x g).core := hq
  simp only [wild_false, hcore, hm, ne_eq, not_true_eq_false, decide_false, Bool.and_false, Bool.false_eq_true, if_false]
  rfl

theorem exec_qpop_idle (h : MayIssue s x g w { noUses with d := true, a := true } [Opd.vw w.d false, Opd.gr w.a false])
    (hq : queueCore (Env.of s x g) ((Env.of s x g).gval w.a) = some s.cur.core) (hm : (Env.of s x g).mask = 0) :
    Issues s x g (.qpop w) w.hdr s g (fun wr => wr = []) := by
  obtain ⟨ha, hu, ho⟩ := h
  refine ⟨[], ?_, rfl⟩
  simp only [exec, execQpop, word]
  refine laneWord_issues ha (checked_of (u := { noUses with d := true, a := true }) hu rfl ho ha.2.1 rfl rfl rfl) ?_ (tidy_same rfl rfl)
  have hcore : queueCore (Env.of s x g) ((Env.of s x g).gval w.a) = some (Env.of s x g).core := hq
  simp only [wild_false, hcore, hm, ne_eq, not_true_eq_false, decide_false, Bool.and_false, Bool.false_eq_true, if_false, if_true]
  rfl

theorem exec_qpop_traps (h : MayIssue s x g w { noUses with d := true, a := true } [Opd.vw w.d false, Opd.gr w.a false])
    (hq : queueCore (Env.of s x g) ((Env.of s x g).gval w.a) ≠ some s.cur.core) : WordTraps s g (.qpop w) 0x145 := by
  obtain ⟨ha, hu, ho⟩ := h
  have hcore : queueCore (Env.of s x g) ((Env.of s x g).gval w.a) ≠ some (Env.of s x g).core := hq
  unfold WordTraps
  simp only [exec, execQpop, word]
  refine laneWord_traps (c := cQSELECT) ha (checked_of (u := { noUses with d := true, a := true }) hu rfl ho ha.2.1 rfl rfl rfl) ?_
  simp only [wild_false]
  exact if_pos (by simpa using hcore)

theorem poison_lanes {os : List Opd} (ho : OperandsReady (Env.of s x g) os) {o : Opd} (hm : o ∈ os) (hr : o.rd = true) :
    ((Env.of s x g).poisonOf o).lanes = 0 := ho.2.1 o hm hr

theorem mark_clean {p : Poison} (h : p.lanes = 0) (i : Nat) : p.mark i = none := by
  unfold Poison.mark Poison.at
  simp [h]

/-- What a QPUSH asks for: its elements wait for room. -/
def pushOf (e : Env) (w : LaneWord) : Push :=
  { lanes := e.mask, sel := e.gval w.a, elems := (activeLanes e).map (fun i => BitVec.ofNat 32 (e.val w.b.toNat i false)),
    poison := (activeLanes e).map (fun _ => none) }

theorem exec_qpush_issues (h : MayIssue s x g w { noUses with a := true, b := true } [Opd.gr w.a false, Opd.vr w.b false])
    (hq : queueCore (Env.of s x g) ((Env.of s x g).gval w.a) ≠ none) :
    Issues s x g (.qpush w) w.hdr s { g with pos := { g.pos with
      marked := true, pushes := g.pos.pushes ++ if (Env.of s x g).mask = 0 then [] else [pushOf (Env.of s x g) w] } } (fun wr => wr = []) := by
  obtain ⟨ha, hu, ho⟩ := h
  refine ⟨[], ?_, rfl⟩
  simp only [exec, execQpush, word]
  refine laneWord_issues ha (checked_of (u := { noUses with a := true, b := true }) hu rfl ho ha.2.1 rfl rfl rfl) ?_ (tidy_same rfl rfl)
  have hp : ((Env.of s x g).poisons [Opd.vr w.b false, Opd.gr w.a false]).lanes = 0 := by
    refine Env.poisons_lanes_zero _ _ fun o hm => ?_
    have hm' : o ∈ [Opd.gr w.a false, Opd.vr w.b false] := (List.mem_reverse (as := [Opd.gr w.a false, Opd.vr w.b false])).mp hm
    refine poison_lanes ho hm' ?_
    rcases List.mem_cons.mp hm' with rfl | hm'
    · rfl
    · rw [List.mem_singleton.mp hm']
      rfl
  have hmk : ((Env.of s x g).poisons [Opd.vr w.b false, Opd.gr w.a false]).mark = fun _ => none := funext (mark_clean hp)
  simp only [hq, if_false, hmk]
  rfl

theorem exec_qpush_traps (h : MayIssue s x g w { noUses with a := true, b := true } [Opd.gr w.a false, Opd.vr w.b false])
    (hq : queueCore (Env.of s x g) ((Env.of s x g).gval w.a) = none) : WordTraps s g (.qpush w) 0x145 := by
  obtain ⟨ha, hu, ho⟩ := h
  unfold WordTraps
  simp only [exec, execQpush, word]
  refine laneWord_traps (c := cQSELECT) ha (checked_of (u := { noUses with a := true, b := true }) hu rfl ho ha.2.1 rfl rfl rfl) ?_
  exact if_pos hq

/-! ### SPFLUSH (03 R92, R93) -/

theorem exec_spflush_idle (h : MayIssue s x g w noUses []) (hm : (Env.of s x g).mask = 0) :
    Issues s x g (.spflush w) w.hdr s g (fun wr => wr = []) := by
  obtain ⟨ha, hu, ho⟩ := h
  refine ⟨[], ?_, rfl⟩
  simp only [exec, execSpflush, word]
  refine laneWord_issues ha (checked_of (u := noUses) hu rfl ho ha.2.1 rfl rfl rfl) ?_ (tidy_same rfl rfl)
  exact if_pos hm

theorem exec_spflush_forms (h : MayIssue s x g w noUses []) (hm : (Env.of s x g).mask ≠ 0) :
    Issues s x g (.spflush w) w.hdr
      (s.updCore s.cur.core (fun co => formPartials co (fun r => r.part == x.part && r.launch == x.launch))) g (fun wr => wr = []) := by
  obtain ⟨ha, hu, ho⟩ := h
  refine ⟨[], ?_, rfl⟩
  simp only [exec, execSpflush, word]
  refine laneWord_issues ha (checked_of (u := noUses) hu rfl ho ha.2.1 rfl rfl rfl) ?_ (tidy_same rfl rfl)
  exact if_neg hm

end

end Sys2Proof.Claims
end

