-- ==== Sys2Proof/Proofs/SpawnWord.lean ====
section
/-! SPAWN: its checks in their order, its records, and where they go (03 R88-R93, R97). -/

namespace Sys2Proof.Claims

open Machine

section
variable {s : State} {x : Ctx} {g : Machine.Group} {w : LaneWord}

/-! ### The records of a SPAWN word -/

theorem foldl_join_lanes {f : Nat → Poison} {l : List Nat} {p : Poison} (h : (l.foldl (fun p k => p.join (f k)) p).lanes = 0) :
    p.lanes = 0 ∧ ∀ k ∈ l, (f k).lanes = 0 := by
  induction l generalizing p with
  | nil => exact ⟨h, fun k hk => absurd hk List.not_mem_nil⟩
  | cons a l ih =>
    obtain ⟨hp, hl⟩ := ih h
    rw [Poison.join_lanes] at hp
    obtain ⟨h1, h2⟩ : p.lanes = 0 ∧ (f a).lanes = 0 := by simpa [BitVec.or_eq_zero_iff] using hp
    exact ⟨h1, fun k hk => (List.mem_cons.mp hk).elim (fun e => e ▸ h2) (hl k)⟩

/-- A row of a clean vector operand is clean. -/
theorem row_clean {e : Env} {b : BitVec 8} {n j : Nat} (h : (e.poisonOf { Opd.vr b false with rows := n }).lanes = 0) (hj : j < n) :
    (e.poisonOf { Opd.vr b false with num := b.toNat + j }).lanes = 0 := by
  have hm : b.toNat + j ∈ ({ Opd.vr b false with rows := n } : Opd).names := by simpa [Opd.names, Opd.vr] using hj
  have hc : (e.g.vpoison.getD (e.vmap (b.toNat + j)) Poison.none).lanes = 0 :=
    (foldl_join_lanes (f := fun k => e.g.vpoison.getD (e.vmap k) Poison.none) h).2 _ hm
  simpa [Env.poisonOf, Opd.names, Opd.vr, Poison.join_lanes, Poison.none] using hc

theorem gpair_eq {e : Env} {k : BitVec 8} (h : k.toNat % 2 = 0) : e.gpair k = pairBase e k := by
  have hk : (k + 1).toNat = k.toNat + 1 := by
    rw [BitVec.toNat_add]
    have := k.isLt
    simp
    omega
  refine BitVec.eq_of_toNat_eq ?_
  have h1 := (e.g.gread (e.gmap k.toNat)).isLt
  have h2 := (e.g.gread (e.gmap (k.toNat + 1))).isLt
  simp only [Env.gpair, pairBase, Env.gval, hk, BitVec.toNat_append, BitVec.toNat_ofNat]
  rw [← Nat.shiftLeft_add_eq_or_of_lt h1, Nat.shiftLeft_eq]
  omega

theorem spawnRecords_eq (ho : OperandsReady (Env.of s x g) (spawnOps w)) (pa : Nat) :
    spawnRecords (Env.of s x g) w (w.x.toNat % 8) pa = (activeLanes (Env.of s x g)).map (recordOf (Env.of s x g) w pa) := by
  have hc : w.c.toNat % 2 = 0 := (ho.1 (Opd.gr w.c true) (by simp [spawnOps])).1 rfl
  have hp : ∀ j < w.x.toNat % 8, ∀ i, ((Env.of s x g).poisonOf { Opd.vr w.b false with num := w.b.toNat + j }).mark i = none := by
    intro j hj i
    refine mark_clean (row_clean (n := w.x.toNat % 8) ?_ hj) i
    refine ho.2.1 _ ?_ rfl
    rw [spawnOps, if_neg (by omega)]
    simp
  refine List.map_congr_left fun i _ => ?_
  have hpoison : (List.range (w.x.toNat % 8)).map (fun j =>
      ((Env.of s x g).poisonOf { Opd.vr w.b false with num := w.b.toNat + j }).mark i) = List.replicate (w.x.toNat % 8) none := by
    rw [List.map_congr_left (g := fun _ => none) fun j hj => hp j (List.mem_range.mp hj) i]
    simp
  have hdepth : ((Env.of s x g).x.child.map (·.depth)).getD 0 = match (Env.of s x g).x.child with | some ch => ch.depth | none => 0 := by
    cases (Env.of s x g).x.child <;> rfl
  simp only [recordOf, hpoison, hdepth, gpair_eq hc]
  rfl

/-! ### The checks of SPAWN in their order (03 R88) -/

/-- The nesting depth of a team. -/
def depthOf (x : Ctx) : Nat := match x.child with | some ch => ch.depth | none => 0

/-- The active lanes whose entry is none of the image's. -/
def badLanes (e : Env) (w : LaneWord) : List Nat := e.act.filter (fun i => !(e.x.img e.s).entries.contains (e.val w.a.toNat i false))

/-- What SPAWN does once the shared checks pass. -/
def spawnDoes (e : Env) (w : LaneWord) : Issue :=
  if (e.x.img e.s).spill = 0 then trapWord e cSPAWNOFF
  else if depthOf e.x = 15 then trapWord e cSPAWNDEPTH
  else if e.mask = 0 then .go e.s e.g []
  else if !(badLanes e w).isEmpty then .trap cSPAWNENTRY false 0 ((badLanes e w).foldl (fun (m : Lanes) i => putBit m i true) 0) 0
  else match checkAccess e.s e.x.part (e.x.asid e.s) .sp pathS (pairBase e w.c) 4 true with
    | .error f => .trap f.cause false (pairBase e w.c) e.mask f.finfo
    | .ok pa =>
      match tlbMisses e.s e.core (e.x.asid e.s) [pairBase e w.c] with
      | p :: ps => .suspend (.tlb (p :: ps))
      | [] => spawnPlace e ((activeLanes e).map (recordOf e w pa))

/-- SPAWN's entry is its form with what it does. -/
theorem exec_spawn_eq (h : MayIssue s x g w (spawnUses w) (spawnOps w)) (hk : w.x.toNat % 8 ≤ 4) : ∃ f : Env → Entry,
    exec (.spawn w) s = laneWord s w false .none f ∧ Checked s x g w (f (Env.of s x g)) ∧
      (f (Env.of s x g)).effect (Env.of s x g) = spawnDoes (Env.of s x g) w := by
  obtain ⟨ha, hu, ho⟩ := h
  have hc : w.c.toNat % 2 = 0 := (ho.1 (Opd.gr w.c true) (by simp [spawnOps])).1 rfl
  have hodd : decide (w.c.toNat % 2 = 1) = false := by simp [hc]
  have hfld : (fld w.x 0 3).toNat = w.x.toNat % 8 := fld_low_eq_mod w.x 3
  simp only [exec, execSpawn, word, hfld, hodd, hk, decide_true, Bool.not_false]
  refine ⟨_, rfl, checked_of (u := spawnUses w) hu rfl ho ha.2.1 rfl rfl rfl, ?_⟩
  have hdepth : ((Env.of s x g).x.child.map (·.depth)).getD 0 = depthOf (Env.of s x g).x := by
    unfold depthOf
    cases (Env.of s x g).x.child <;> rfl
  simp only [wild_false, hdepth, Bool.false_eq_true, if_false, gpair_eq hc, spawnRecords_eq ho]
  rfl

theorem exec_spawn_issues (h : MayIssue s x g w (spawnUses w) (spawnOps w)) (hk : w.x.toNat % 8 ≤ 4) {s' : State} {g' : Machine.Group}
    (hd : spawnDoes (Env.of s x g) w = .go s' g' []) (ho : g'.outs = g.outs) (hl : g'.loops = g.loops) :
    Issues s x g (.spawn w) w.hdr s' g' (fun wr => wr = []) := by
  obtain ⟨f, hex, hc, hef⟩ := exec_spawn_eq h hk
  exact ⟨[], hex.trans (laneWord_issues h.1 hc (hef.trans hd) (tidy_same ho hl)), rfl⟩

theorem exec_spawn_traps (h : MayIssue s x g w (spawnUses w) (spawnOps w)) (hk : w.x.toNat % 8 ≤ 4) {c : Nat}
    (hd : spawnDoes (Env.of s x g) w = trapWord (Env.of s x g) c) : WordTraps s g (.spawn w) c := by
  obtain ⟨f, hex, hc, hef⟩ := exec_spawn_eq h hk
  exact hex.trans (laneWord_traps h.1 hc (hef.trans hd))

theorem exec_spawn_stops (h : MayIssue s x g w (spawnUses w) (spawnOps w)) (hk : w.x.toNat % 8 ≤ 4) {i : Issue}
    (hd : spawnDoes (Env.of s x g) w = i) (hn : ∀ s' g' wr, i ≠ .go s' g' wr) :
    exec (.spawn w) s = .next (finishWord (Env.of s x g) w.hdr 1 .none i) := by
  obtain ⟨f, hex, hc, hef⟩ := exec_spawn_eq h hk
  exact hex.trans (laneWord_stops h.1 hc (hef.trans hd) hn)

theorem mem_act {e : Env} {i : Nat} : i ∈ e.act ↔ Active e i := by simp [Env.act, lanesOf, Active]

theorem mem_badLanes {e : Env} {i : Nat} : i ∈ badLanes e w ↔ Active e i ∧ e.val w.a.toNat i false ∉ (e.x.img e.s).entries := by
  simp [badLanes, mem_act]

theorem getLsbD_foldl_putBit {l : List Nat} (hl : ∀ i ∈ l, i < 32) (m : Lanes) (j : Nat) :
    (l.foldl (fun (m : Lanes) i => putBit m i true) m).getLsbD j = (m.getLsbD j || decide (j ∈ l)) := by
  induction l generalizing m with
  | nil => simp
  | cons a l ih =>
    rw [List.foldl_cons, ih (fun i hi => hl i (List.mem_cons_of_mem _ hi)), getLsbD_putBit _ _ _ _ (hl a List.mem_cons_self)]
    by_cases h : j = a <;> simp [h]

section
variable {e : Env}

theorem spawnDoes_off (hs : (e.x.img e.s).spill = 0) : spawnDoes e w = trapWord e cSPAWNOFF := if_pos hs

theorem spawnDoes_deep (hs : (e.x.img e.s).spill ≠ 0) (hd : depthOf e.x = 15) : spawnDoes e w = trapWord e cSPAWNDEPTH := by
  rw [spawnDoes, if_neg hs, if_pos hd]

theorem spawnDoes_idle (hs : (e.x.img e.s).spill ≠ 0) (hd : depthOf e.x ≠ 15) (hm : e.mask = 0) : spawnDoes e w = .go e.s e.g [] := by
  rw [spawnDoes, if_neg hs, if_neg hd, if_pos hm]

/-- The lanes whose entry is none of the image's, as FMASK. -/
def badMask (e : Env) (w : LaneWord) : Lanes := (badLanes e w).foldl (fun (m : Lanes) i => putBit m i true) 0

theorem getLsbD_badMask (i : Nat) : (badMask e w).getLsbD i = true ↔ Active e i ∧ e.val w.a.toNat i false ∉ (e.x.img e.s).entries := by
  rw [badMask, getLsbD_foldl_putBit fun i hi => (mem_badLanes.mp hi).1.1]
  simpa using mem_badLanes

theorem spawnDoes_entry (hs : (e.x.img e.s).spill ≠ 0) (hd : depthOf e.x ≠ 15)
    (hb : ∃ i, Active e i ∧ e.val w.a.toNat i false ∉ (e.x.img e.s).entries) :
    spawnDoes e w = .trap cSPAWNENTRY false 0 (badMask e w) 0 := by
  obtain ⟨j, hj⟩ := hb
  have hmem : j ∈ badLanes e w := mem_badLanes.mpr hj
  have hm : e.mask ≠ 0 := by
    intro hz
    have := hj.1.2
    rw [hz] at this
    simp at this
  have hne : (badLanes e w).isEmpty = false := by
    cases hl : badLanes e w with
    | nil => rw [hl] at hmem; cases hmem
    | cons => rfl
  rw [spawnDoes, if_neg hs, if_neg hd, if_neg hm, hne]
  rfl

/-- Once an image spawns, the depth allows it and every active lane names an entry, SPAWN looks at its join counter. -/
structure SpawnReady (e : Env) (w : LaneWord) : Prop where
  spill : (e.x.img e.s).spill ≠ 0
  depth : depthOf e.x ≠ 15
  mask : e.mask ≠ 0
  entries : ∀ i, Active e i → ¬ e.val w.a.toNat i false ∉ (e.x.img e.s).entries

theorem SpawnReady.checks (h : SpawnReady e w) : spawnDoes e w =
      match checkAccess e.s e.x.part (e.x.asid e.s) .sp pathS (pairBase e w.c) 4 true with
      | .error f => .trap f.cause false (pairBase e w.c) e.mask f.finfo
      | .ok pa =>
        match tlbMisses e.s e.core (e.x.asid e.s) [pairBase e w.c] with
        | p :: ps => .suspend (.tlb (p :: ps))
        | [] => spawnPlace e ((activeLanes e).map (recordOf e w pa)) := by
  have hbad : badLanes e w = [] :=
    List.eq_nil_iff_forall_not_mem.mpr fun i hi => h.entries i (mem_badLanes.mp hi).1 (mem_badLanes.mp hi).2
  rw [spawnDoes, if_neg h.spill, if_neg h.depth, if_neg h.mask, hbad]
  rfl

theorem SpawnReady.faults (h : SpawnReady e w) {f : AFault}
    (hf : checkAccess e.s e.x.part (e.x.asid e.s) .sp pathS (pairBase e w.c) 4 true = .error f) :
    spawnDoes e w = .trap f.cause false (pairBase e w.c) e.mask f.finfo := by rw [h.checks, hf]

theorem SpawnReady.walks (h : SpawnReady e w) {pa : Nat}
    (hf : checkAccess e.s e.x.part (e.x.asid e.s) .sp pathS (pairBase e w.c) 4 true = .ok pa)
    (ht : tlbMisses e.s e.core (e.x.asid e.s) [pairBase e w.c] ≠ []) :
    spawnDoes e w = .suspend (.tlb (tlbMisses e.s e.core (e.x.asid e.s) [pairBase e w.c])) := by
  rw [h.checks, hf]
  dsimp only
  split
  case h_1 hm => rw [hm]
  case h_2 hm => exact absurd hm ht

theorem SpawnReady.places (h : SpawnReady e w) {pa : Nat}
    (hf : checkAccess e.s e.x.part (e.x.asid e.s) .sp pathS (pairBase e w.c) 4 true = .ok pa)
    (ht : tlbMisses e.s e.core (e.x.asid e.s) [pairBase e w.c] = []) :
    spawnDoes e w = spawnPlace e ((activeLanes e).map (recordOf e w pa)) := by
  rw [h.checks, hf]
  dsimp only
  rw [ht]

/-! ### Where the records go (03 R91, R97) -/

variable {rs : List SpawnRec} {l : Launch}

theorem spawnPlace_gathers (hs : (e.s.core e.core).spilling = false) (hg : gatherLoad e.s e.core + rs.length ≤ 4096) :
    spawnPlace e rs = .go { e.s with stamp := e.s.stamp + 1 } { e.g with spawnPend := e.g.spawnPend ++ [rs] } [] := by
  simp only [spawnPlace, hs, hg, decide_true, Bool.not_false, Bool.and_self, if_true]

/-- The gatherer takes no more records until it has spilled. -/
def GathererFull (e : Env) (n : Nat) : Prop := (e.s.core e.core).spilling = true ∨ 4096 < gatherLoad e.s e.core + n

theorem GathererFull.cond {n : Nat} (h : GathererFull e n) :
    (!(e.s.core e.core).spilling && decide (gatherLoad e.s e.core + n ≤ 4096)) = false := by
  rcases h with h | h
  · simp [h]
  · simp [Nat.not_le.mpr h]

theorem spawnPlace_full (hl : e.x.launch? e.s = some l) (h : GathererFull e rs.length)
    (hf : l.img.spill / 32 < spillLoad e.s l + rs.length) : spawnPlace e rs = trapWord e cSPAWNFULL := by
  simp only [spawnPlace, h.cond, hl, Bool.false_eq_true, if_false, hf, if_true]

theorem spawnPlace_faults (hl : e.x.launch? e.s = some l) (h : GathererFull e rs.length)
    (hf : ¬ l.img.spill / 32 < spillLoad e.s l + rs.length) {f : AFault} {va : W64}
    (hs : spillFault e.s l (freeSlots l (spillLoad e.s l - l.spilled.length) rs.length) = some (f, va)) :
    spawnPlace e rs = .trap f.cause false va e.mask f.finfo := by
  simp only [spawnPlace, h.cond, hl, Bool.false_eq_true, if_false, hf, hs]

theorem spawnPlace_spills (hl : e.x.launch? e.s = some l) (h : GathererFull e rs.length)
    (hf : ¬ l.img.spill / 32 < spillLoad e.s l + rs.length)
    (hs : spillFault e.s l (freeSlots l (spillLoad e.s l - l.spilled.length) rs.length) = none) :
    spawnPlace e rs = .hold ({ e.s with stamp := e.s.stamp + 1 }.updCore e.core (fun co => { co with spilling := true }))
      { e.g with spawnPend := e.g.spawnPend ++ [rs] } .spill := by
  simp only [spawnPlace, h.cond, hl, Bool.false_eq_true, if_false, hf, hs]

theorem img_of_launch (hl : e.x.launch? e.s = some l) : e.x.img e.s = l.img := by rw [Ctx.img, hl]; rfl

end

end

/-- Settles O37: what each of the words makes the group, its queue or its gatherer wait for, and their traps in their order. -/
theorem fenceQueueSpawnWords : Obligations.FenceQueueSpawnWords := by
  intro w s x g e scope from_ to_ path
  refine ⟨fun h hu hs ho => exec_vfence h hu hs ho, fun h hu hs hf ht => exec_vxfence h hu hs hf ht,
    fun h => ⟨fun hq hm => exec_qpop_awaits h hq hm, fun hq hm => exec_qpop_idle h hq hm, fun hq => exec_qpop_traps h hq⟩,
    fun h => ⟨fun hq hm => ?_, fun hq hm => ?_, fun hq => exec_qpush_traps h hq⟩, fun h hk => ?_,
    fun h hm => exec_spflush_idle h hm, fun h hm => exec_spflush_forms h hm⟩
  · have hp := exec_qpush_issues h hq
    rw [if_neg hm] at hp
    exact hp
  · have hp := exec_qpush_issues h hq
    rw [if_pos hm, List.append_nil] at hp
    exact hp
  · intro depth unknown
    have hn {c : Nat} {b : Bool} {va : W64} {m : Lanes} {v : W64} : ∀ s' g' wr, Issue.trap c b va m v ≠ .go s' g' wr := by
      intro _ _ _ he
      cases he
    refine ⟨fun h1 => exec_spawn_traps h hk (spawnDoes_off (e := Env.of s x g) h1),
      fun h1 h2 => exec_spawn_traps h hk (spawnDoes_deep (e := Env.of s x g) h1 h2),
      fun h1 h2 h3 => exec_spawn_issues h hk (spawnDoes_idle (e := Env.of s x g) h1 h2 h3) rfl rfl,
      fun h1 h2 h3 => ⟨badMask e w, fun i _ => getLsbD_badMask i,
        exec_spawn_stops h hk (spawnDoes_entry (e := Env.of s x g) h1 h2 h3) hn⟩, fun h1 h2 h3 h4 => ?_⟩
    have hr : SpawnReady (Env.of s x g) w := ⟨h1, h2, h3, h4⟩
    intro join
    refine ⟨fun f hf => exec_spawn_stops h hk (hr.faults hf) hn, fun pa hpa => ⟨fun ht => ?_, fun ht => ?_⟩⟩
    · refine exec_spawn_stops h hk (hr.walks hpa ht) ?_
      intro _ _ _ he
      cases he
    · have hd := hr.places hpa ht
      refine ⟨fun hs hg => exec_spawn_issues h hk (hd.trans (spawnPlace_gathers hs hg)) rfl rfl, fun l hl hfull => ?_⟩
      have hi := img_of_launch (e := Env.of s x g) hl
      have hfull : GathererFull (Env.of s x g) ((activeLanes (Env.of s x g)).map (recordOf (Env.of s x g) w pa)).length := hfull
      refine ⟨fun hf => exec_spawn_traps h hk (hd.trans (spawnPlace_full hl hfull (hi ▸ hf))), fun hf => ⟨fun f va hs => ?_, fun hs => ?_⟩⟩
      · exact exec_spawn_stops h hk (hd.trans (spawnPlace_faults hl hfull (hi ▸ Nat.not_lt.mpr hf) hs)) hn
      · refine exec_spawn_stops h hk (hd.trans (spawnPlace_spills hl hfull (hi ▸ Nat.not_lt.mpr hf) hs)) ?_
        intro _ _ _ he
        cases he

end Sys2Proof.Claims
end

