-- ==== Sys2Proof/Proofs/TileHazard.lean ====
section
/-! The debug schedule mode and a tile word whose shape covers no active lane: the mode's traps on a word's registers stand where the word
acts on some lane of its tile (02 R64, 06 R163, R172), and the execute mask alone does not say that. -/

namespace Sys2Proof.Claims

open Machine

/-- VADD as a tile word over v0. -/
def tileAdd : LaneWord := { bareWord 0 0 0 with tl := true }

/-- A result still outstanding in v0. -/
def outstandingV0 : VarRes :=
  { gs := false, regs := [0], lanes := 2, vals := [VReg.zero], taint := false, poison := Poison.none, written := false,
    remote := [], popQueue := none, conflict := 0, junk := [], pool := [] }

/-- A group of SHAPE 0, one row of one column, whose only active lane is lane 1, outside that column. -/
def beyondTile : Machine.Group :=
  let g := Group.fresh 32 16 0
  { g with shape := 0, outs := [outstandingV0], pos := { g.pos with exmask := 2 } }

def debugTeam : Ctx := { Ctx.free with resident := true, debug := true, n := 32, q := 16, groups := [beyondTile] }

def debugWorld : State := { State.reset with cores := [{ Core.idle with ctxs := [debugTeam] }] }

theorem grp?_debugWorld : debugWorld.grp? = some (debugTeam, beyondTile) := rfl

theorem placed_tileAdd : Placed beyondTile tileAdd.hdr false := by
  unfold Placed
  decide

/-- The operands of the word: v0, as destination and as both sources. -/
theorem names_tileAdd {l : IntLane} (hl : intLane (.vadd tileAdd) = some l) :
    ∀ o ∈ l.ops (Env.of debugWorld debugTeam beyondTile), o.pair = false ∧ o.vec = true ∧ o.names = [0] := by
  cases hl
  decide

theorem uncovered_tileAdd {l : IntLane} (hl : intLane (.vadd tileAdd) = some l) :
    (Env.of debugWorld debugTeam beyondTile).uncovered (l.ops (Env.of debugWorld debugTeam beyondTile)) (fun _ => true) = true := by
  cases hl
  decide

/-- The slot of the acting group after an instruction. -/
def slotAfter (o : Host.Outcome State Fault Refusal) : Option Nat :=
  match o with
  | .next t => some (myGroup t).pos.slot
  | _ => none

/-- The word issues: its slot passes. -/
theorem slotAfter_tileAdd : slotAfter (exec (.vadd tileAdd) debugWorld) = some 1 := by decide +kernel

theorem slotAfter_laneTrap (c : Nat) :
    slotAfter (.next (laneTrap debugWorld 0 0 0 c false true 0 2 0)) = some 0 := rfl

theorem tileAdd_ok {l : IntLane} (hl : intLane (.vadd tileAdd) = some l) : l.uses.ok l.w := by
  cases hl
  unfold Uses.ok Uses.clean Uses.typed
  decide

/-- Refutes O34: in debug schedule mode a tile word whose shape covers no active lane issues, though the execute mask is not zero and a
result is outstanding in its registers; the statement asks for the trap wherever the execute mask is not zero. -/
theorem not_laneTraps : ¬ Obligations.LaneTraps := by
  unfold Obligations.LaneTraps
  intro h
  obtain ⟨-, -, -, -, -, -, -, -, hazards⟩ := h tileAdd debugWorld debugTeam beyondTile grp?_debugWorld
  obtain ⟨l, hl⟩ : ∃ l, intLane (.vadd tileAdd) = some l := ⟨_, rfl⟩
  have hw : l.w = tileAdd := by cases hl; rfl
  have hnames := names_tileAdd hl
  obtain ⟨-, htrap⟩ := hazards (.vadd tileAdd) l hl (hw ▸ placed_tileAdd) (tileAdd_ok hl)
    (fun o ho => by
      obtain ⟨hp, hv, hn⟩ := hnames o ho
      simp [hp, hv, hn, debugTeam])
    rfl (by decide)
  have hexec : exec (.vadd tileAdd) debugWorld = .next (laneTrap debugWorld 0 0 0 0x01B false true 0 2 0) :=
    htrap rfl (uncovered_tileAdd hl)
  have := slotAfter_tileAdd.symm.trans ((congrArg slotAfter hexec).trans (slotAfter_laneTrap 0x01B))
  cases this

end Sys2Proof.Claims
end

