-- ==== Sys2Proof/Proofs/WaitingPlaced.lean ====
section
/-! A waiting launch that still holds the places of an earlier placement and has no saved team resumes and brings no team back (04 R114):
no saved team does not yet mean that a launch starts anew. -/

namespace Sys2Proof.Claims

open Machine

/-- A launch of one team that waits for the place it held on core 0, with no saved team. -/
def placedBefore : Launch := { placeLaunchRec with status := .waiting }

/-- One idle core and that launch. -/
def waitingWorld : State :=
  { State.reset with parts := [placePart], launches := [placedBefore], cores := [Core.idle] }

/-- Whether context 0 of core 0 holds a team after an instruction. -/
def firstResident (o : Host.Outcome State Fault Refusal) : Option Bool :=
  match o with
  | .next t => (t.core 0).ctxs[0]?.map (·.resident)
  | _ => none

/-- The launch resumes, and core 0 gets no team. -/
theorem firstResident_launchPlace : firstResident (exec (.launchPlace 0) waitingWorld) = some false := by decide +kernel

theorem oneEach_waitingWorld : OneEach waitingWorld :=
  ⟨List.pairwise_singleton _ _, List.pairwise_singleton _ _⟩

theorem channels_waitingWorld : ∀ co ∈ waitingWorld.cores, ∀ y ∈ co.chans, y.queued = none ∧ y.active = none := by
  intro co hco y hy
  obtain rfl := List.mem_singleton.mp hco
  obtain rfl := List.eq_of_mem_replicate (n := 8) (a := Chan.reset) hy
  exact ⟨rfl, rfl⟩

/-- Refutes O54: its clause on placement asks that a waiting launch with no saved team be placed anew, and says nothing of the places
it holds; one that holds places resumes there instead, with no team. -/
theorem not_launchCommands : ¬ Obligations.LaunchCommands := by
  unfold Obligations.LaunchCommands
  intro h
  obtain ⟨-, -, placement, -⟩ := h waitingWorld placePart
  have others : ∀ m ∈ waitingWorld.launches, m.part = placePart.id → m ≠ placedBefore → m.status = .placed ∨ m.status = .completed :=
    fun m hm _ hne => (hne (List.mem_singleton.mp hm)).elim
  have hpart : waitingWorld.partition placePart.id = some placePart := by decide +kernel
  have hlimits : imageLimits placedBefore.img = true := by decide +kernel
  have hcore : coreOk waitingWorld placePart 0 = true := by decide +kernel
  have hdeclared : declared waitingWorld 0 = 0 := by decide +kernel
  have hproducers : ∀ q ∈ placedBefore.producers, q = 0 := List.forall_mem_nil _
  replace placement := placement placedBefore 0 hpart rfl oneEach_waitingWorld rfl rfl others
  replace placement := placement (List.mem_singleton_self _) rfl rfl rfl hproducers hlimits rfl rfl rfl rfl
  replace placement := placement (by decide) hcore (fun d hd => absurd hd (Nat.not_lt_zero d)) rfl hdeclared channels_waitingWorld
  obtain ⟨t, x, hexec, hx, hres, -⟩ := placement
  have hnone := firstResident_launchPlace
  rw [show exec (.launchPlace 0) waitingWorld = .next t from hexec] at hnone
  simp [firstResident, hx, hres] at hnone

end Sys2Proof.Claims
end

