-- ==== Sys2Proof/Proofs/UnpredictablePop.lean ====
section
/-! A QPOP whose destination holds an unpredictable value, its own word having read one (02 R64), does not take the values of its queue's
elements: the register keeps the value that nothing specifies. -/

namespace Sys2Proof.Claims

open Machine

/-- A QPOP of queue 0 into v4, in lane 0, that read an unpredictable value at its slot. -/
def unpredictablePop : VarRes :=
  { gs := false, regs := [4], lanes := 1, vals := [VReg.zero], taint := false, poison := Poison.none, written := false,
    remote := [], popQueue := some 0, conflict := 0, junk := [4], pool := [] }

/-- The group that waits for it. -/
def poppingGroup : Machine.Group := { Group.fresh 32 16 0 with outs := [unpredictablePop] }

def poppingTeam : Ctx := { Ctx.free with resident := true, n := 32, q := 16, groups := [poppingGroup] }

/-- Queue 0 holds the element 5, and the QPOP waits first. -/
def oneElement : RQueue := { elems := [5], poison := [none], times := [0], pops := [(0, 0)] }

def poppingWorld : State := { State.reset with cores := [{ Core.idle with ctxs := [poppingTeam], queues := [oneElement] }] }

theorem issuing_poppingWorld : Issuing poppingWorld poppingTeam.part :=
  ⟨fun hs => (Bool.false_ne_true hs).elim, fun _ hp => (Option.some_ne_none _ hp.symm).elim⟩

theorem moves_poppingWorld : Moves poppingWorld 0 0 0 poppingTeam poppingGroup :=
  ⟨⟨rfl, rfl, rfl⟩, issuing_poppingWorld⟩

/-- Lane 0 of each register of the first outstanding result of group 0 after an instruction. -/
def firstOut (o : Host.Outcome State Fault Refusal) : Option (List (Option Elem)) :=
  match o with
  | .next t => (t.group 0 0 0).outs[0]?.map (fun v => v.vals.map (·[0]?))
  | _ => none

/-- The register keeps its value. -/
theorem firstOut_qpopTake : firstOut (exec (.qpopTake 0 0) poppingWorld) = some [some 0] := by decide +kernel

/-- Refutes O42: its clause on QPOP asks for the elements in the result's register whatever the register holds; one that is unpredictable,
as the QPOP read an unpredictable value, keeps its own. -/
theorem not_groupWaitsEnd : ¬ Obligations.GroupWaitsEnd := by
  unfold Obligations.GroupWaitsEnd
  intro h
  obtain ⟨-, qpop, -⟩ := h.1 poppingWorld 0 0 0 poppingTeam poppingGroup moves_poppingWorld
  have first : ∀ (j : Nat) (u : VarRes), j < 0 → poppingGroup.outs[j]? = some u → u.popQueue = some 0 → u.written = true :=
    fun j _ hj => absurd hj (Nat.not_lt_zero j)
  have hlanes : (List.range 32).filter (fun i => unpredictablePop.lanes.getLsbD i) = [0] := by decide
  replace qpop := qpop 0 0 unpredictablePop [5] [none] [0] [] rfl rfl rfl rfl first
  simp only [hlanes] at qpop
  obtain ⟨t, hexec, -, -, -, u, hu, -, -, -, hvals⟩ := qpop (Nat.le_refl 1)
  obtain ⟨vals, huv, hval⟩ := hvals 0 0 rfl
  have hkept := firstOut_qpopTake
  rw [hexec] at hkept
  simp [firstOut, hu, huv, hval] at hkept

end Sys2Proof.Claims
end

