-- ==== Sys2Proof/Proofs/DivergenceRegroup.lean ====
section
/-! O14 and O16: the markers of DIVG, ELSE, RECON and REGROUP, and REGROUP's stall and traps (03 R73, R83, R84, 10 R273, R285). -/

namespace Sys2Proof.Claims

open Machine

/-- Settles O14: with room for its marker and no trap met, each of the three words places it. -/
theorem divergenceMarkers : Obligations.DivergenceMarkers := by
  intro s x hq
  exact ⟨fun a hA hl hd => exec_divg_places hA hq hl hd, fun tok rest hA hr hp hf => exec_elseM_places hA.1 hq hr hp hf,
    fun tok rest hA hr hp hd => exec_recon_places hA.1 hq hr hp hd⟩

/-! ### REGROUP's checks, in their order (03 R83, log entry 48) -/

/-- A cause that meets a routine ends its team with DOUBLETRAP of that cause (10 R285). -/
theorem takeTrap_routine {s : State} {c k : Nat} (t : Trig) (hm : (s.ctx c k).mode ≠ .user) :
    takeTrap s c k t = terminate s c k cDOUBLETRAP (BitVec.ofNat 64 t.cause) := by
  simp [takeTrap, Ctx.priv, hm]

section
variable {s : State} {x : Ctx} {k : BitVec 4} {n : BitVec 8}

/-- REGROUP in a routine. -/
theorem exec_regroup_routine (hA : Acts s x [] [k]) (hm : x.mode ≠ .user) :
    exec (.regroup k n) s = .next (terminate s s.cur.core s.cur.ctx 0x025 0x026) := by
  have hpriv : x.priv = true := by simp [Ctx.priv, hm]
  simp only [exec]
  rw [execRegroup, readingM_clean _ hA.1 hA.2.1 hA.2.2, if_pos hpriv, trapHere, ctrlTrap,
    takeTrap_routine _ ((State.ctx_of_me? hA.1).symm ▸ hm)]
  rfl

/-- REGROUP's traps in user mode, which come before its stall. -/
theorem exec_regroup_traps {c : Nat} (hA : Acts s x [] [k]) (ht : Trappable x)
    (hc : (if x.n < n.toNat + 1 then some cREGROUPN else if x.strm.recon ≠ [] then some cREGROUPNEST else none) = some c) :
    exec (.regroup k n) s = .next (s.setMe (triggered x (ctrlTrig c false x.pc 0 0 0))) := by
  have hpriv : ¬ x.priv = true := by simp [Ctx.priv, ht.1]
  simp only [exec]
  rw [execRegroup, readingM_clean _ hA.1 hA.2.1 hA.2.2, if_neg hpriv]
  split at hc
  case isTrue hn =>
    obtain rfl := Option.some.inj hc
    rw [if_pos hn, trapHere_trappable hA.1 ht]
  case isFalse hn =>
    rw [if_neg hn]
    split at hc
    case isTrue hr =>
      obtain rfl := Option.some.inj hc
      rw [if_pos (by simpa using hr), trapHere_trappable hA.1 ht]
    case isFalse => cases hc

/-- REGROUP that meets no trap stalls on a full block queue. -/
theorem exec_regroup_stalls (hA : Acts s x [] [k]) (hm : x.mode = .user) (hn : n.toNat + 1 ≤ x.n) (hr : x.strm.recon = [])
    (hq : 256 ≤ x.strm.blockQ.length) : exec (.regroup k n) s = .next (s.setMe (waiting x (.regroup k n))) := by
  have hpriv : ¬ x.priv = true := by simp [Ctx.priv, hm]
  simp only [exec]
  rw [execRegroup, readingM_clean _ hA.1 hA.2.1 hA.2.2, if_neg hpriv, if_neg (Nat.not_lt.mpr hn), if_neg (by simp [hr]),
    if_pos ((queueFull_iff x).mpr hq)]
  rfl

end

/-- Settles O16: REGROUP's answers in the order its meaning takes them. -/
theorem regroupPlacesMarker : Obligations.RegroupPlacesMarker := by
  intro s x k n hA
  refine ⟨fun hm hn hr hq => exec_regroup_places hA hm hn hr hq, fun hm hn hr hq => exec_regroup_stalls hA hm hn hr hq,
    fun ht => ⟨fun hn => ?_, fun hn hr => ?_⟩, fun hm => exec_regroup_routine hA hm⟩
  · exact exec_regroup_traps hA ht (if_pos hn)
  · exact exec_regroup_traps hA ht ((if_neg (Nat.not_lt.mpr hn)).trans (if_pos hr))

end Sys2Proof.Claims
end

