-- ==== Sys2Proof/Proofs/Migration.lean ====
section
/-! O43: REGROUP's migration (03 R84-R86, 06 R168). First what one group is made of, then the step. -/

namespace Sys2Proof.Claims

open Machine

/-! ### Lists and masks -/

section
variable {α : Type}

/-- A place of a list whose first n elements come from another list of its length. -/
theorem getElem?_take_append_drop {l m : List α} (h : l.length = m.length) (n q : Nat) :
    (l.take n ++ m.drop n)[q]? = if q < n then l[q]? else m[q]? := by
  rw [List.getElem?_append, List.length_take, List.getElem?_drop]
  split
  case isTrue hq => rw [List.getElem?_take, if_pos (by omega), if_pos (by omega)]
  case isFalse hq =>
    split
    case isTrue hn => rw [List.getElem?_eq_none (by omega), List.getElem?_eq_none (by omega)]
    case isFalse hn =>
      by_cases hl : n ≤ l.length
      · congr 1
        omega
      · rw [List.getElem?_eq_none (by omega), List.getElem?_eq_none (by omega)]

theorem foldl_min_eq {l : List Nat} {a b : Nat} (hb : a ≤ b) (hl : ∀ c ∈ l, a ≤ c) (hm : a = b ∨ a ∈ l) : l.foldl min b = a := by
  induction l generalizing b with
  | nil => simpa [eq_comm] using hm
  | cons c l ih =>
    have hc := hl c List.mem_cons_self
    refine ih (Nat.le_min.mpr ⟨hb, hc⟩) (fun e he => hl e (List.mem_cons_of_mem _ he)) ?_
    rcases hm with rfl | hm
    · exact .inl (Nat.min_eq_left hc).symm
    · rcases List.mem_cons.mp hm with rfl | hm
      · exact .inl (Nat.min_eq_right hb).symm
      · exact .inr hm

end

theorem getLsbD_lowMask {n k i : Nat} (hi : i < n) : (lowMask n k).getLsbD i = decide (i < k) := by
  rw [lowMask, BitVec.getLsbD_ofNat, Nat.testBit_two_pow_sub_one]
  simp [hi]

/-! ### One group of the regrouped team (03 R84, R85) -/

/-- The group past the regroup marker. -/
def pastMarker (d : Desc) (r : Machine.Group) : Machine.Group := { r with pos := { r.pos with seq := d.seq, st := .done } }

/-- The registers below the count. -/
def belowCount (n : Nat) (r : Machine.Group) : Machine.Group := { r with vregs := r.vregs.take n }

/-- The group after the migration in registers below the count, before it from there on. -/
def upToCount (n : Nat) (old new : Machine.Group) : Machine.Group :=
  { new with vregs := new.vregs.take n ++ old.vregs.drop n, vtaint := new.vtaint.take n ++ old.vtaint.drop n,
             vpoison := new.vpoison.take n ++ old.vpoison.drop n }

/-- The positions whose lanes group h receives. -/
def received (dest : List Nat) (h : Nat) : List Nat := (dest.drop (32 * h)).take 32

section
variable {dest : List Nat} {h j p : Nat}

theorem getElem?_received (dest : List Nat) (h i : Nat) : (received dest h)[i]? = if i < 32 then dest[32 * h + i]? else none := by
  rw [received, List.getElem?_take, List.getElem?_drop]

theorem mem_received : p ∈ received dest h ↔ ∃ j, j / 32 = h ∧ dest[j]? = some p := by
  rw [List.mem_iff_getElem?]
  simp only [getElem?_received]
  constructor
  · rintro ⟨i, hi⟩
    split at hi
    case isTrue hlt => exact ⟨32 * h + i, by omega, hi⟩
    case isFalse => cases hi
  · rintro ⟨j, hj, hp⟩
    refine ⟨j % 32, ?_⟩
    rw [if_pos (Nat.mod_lt _ (by decide)), ← hj, Nat.div_add_mod, hp]

theorem received_eq_nil (hd : dest.length ≤ 32 * h) : received dest h = [] := by
  rw [received, List.drop_eq_nil_of_le hd, List.take_nil]

/-- The lowest-numbered group that lanes come from. -/
theorem received_lowest {p0 : Nat} (hp : p ∈ received dest h) (hmin : ∀ q ∈ received dest h, p / 32 ≤ q / 32)
    (hd : (received dest h).head? = some p0) : ((received dest h).map (· / 32)).foldl min (p0 / 32) = p / 32 := by
  refine foldl_min_eq (hmin p0 (List.mem_of_mem_head? hd)) (fun c hc => ?_) (.inr (List.mem_map_of_mem hp))
  obtain ⟨q, hq, rfl⟩ := List.mem_map.mp hc
  exact hmin q hq

end

section
variable {old : List Machine.Group} {dest : List Nat} {h n : Nat} {r o : Machine.Group}

/-- A group that receives no lane stays. -/
theorem migrateGroup_stays (hd : dest.length ≤ 32 * h) (r : Machine.Group) : migrateGroup old dest h r = r := by
  have hn : (dest.drop (32 * h)).take 32 = [] := received_eq_nil hd
  simp only [migrateGroup, hn]

/-- The lanes of a group that receives some: its registers and their origins. -/
theorem migrateGroup_lanes {p : Nat} (hp : p ∈ received dest h) (r : Machine.Group) :
    (migrateGroup old dest h r).vregs = (indexed r.vregs).map (fun v => migratedReg old dest h v.1 v.2) ∧
    ∀ j : Nat, (migrateGroup old dest h r).origin[j]? = r.origin[j]?.map (fun e => match dest[32 * h + j]? with
      | some p => (old.getD (p / 32) r).origin.getD (p % 32) 0
      | none => e) := by
  cases hm : received dest h with
  | nil => rw [hm] at hp; cases hp
  | cons p0 l =>
    have hm' : (dest.drop (32 * h)).take 32 = p0 :: l := hm
    simp only [migrateGroup, hm']
    refine ⟨trivial, fun j => ?_⟩
    rw [List.getElem?_map, getElem?_indexed, Option.map_map]
    rfl

/-- What a group that receives lanes has of another one, o, and what it keeps (03 R85). -/
structure TakesScalars (r o r' : Machine.Group) : Prop where
  scalars : r'.gregs = o.gregs ∧ r'.pos.g1 = o.pos.g1 ∧ r'.pos.g2 = o.pos.g2 ∧ r'.pos.g3 = o.pos.g3
  special : r'.fmt = o.fmt ∧ r'.pos.fmtStack = o.pos.fmtStack ∧ r'.shape = o.shape ∧ r'.xpats = o.xpats ∧ r'.gstat = o.gstat ∧ r'.unf = o.unf
  kept : r'.loops = r.loops ∧ r'.pos.exmask = r.pos.exmask

/-- It is the lowest-numbered group that its lanes come from. -/
theorem migrateGroup_scalars {p : Nat} (hp : p ∈ received dest h) (hmin : ∀ q ∈ received dest h, p / 32 ≤ q / 32)
    (ho : old[p / 32]? = some o) (r : Machine.Group) : TakesScalars r o (migrateGroup old dest h r) := by
  cases hm : received dest h with
  | nil => rw [hm] at hp; cases hp
  | cons p0 l =>
    have hsrc := received_lowest hp hmin (p0 := p0) (by rw [hm]; rfl)
    have hget : old.getD (((p0 :: l).map (· / 32)).foldl min (p0 / 32)) r = o := by
      rw [← hm, hsrc, List.getD, ho]
      rfl
    have hm' : (dest.drop (32 * h)).take 32 = p0 :: l := hm
    simp only [migrateGroup, hm', hget]
    exact ⟨⟨rfl, rfl, rfl, rfl⟩, ⟨rfl, rfl, rfl, rfl, rfl, rfl⟩, rfl, rfl⟩

theorem migrateGroup_lengths (old : List Machine.Group) (dest : List Nat) (h : Nat) (r : Machine.Group) :
    (migrateGroup old dest h r).vregs.length = r.vregs.length ∧ (migrateGroup old dest h r).pos.seq = r.pos.seq ∧
      (migrateGroup old dest h r).pos.st = r.pos.st := by
  unfold migrateGroup
  dsimp only
  split
  · exact ⟨rfl, rfl, rfl⟩
  · exact ⟨by simp, rfl, rfl⟩

/-- A lane of a migrated register. -/
theorem getElem?_migratedReg (old : List Machine.Group) (dest : List Nat) (h q : Nat) (keep : VReg) (j : Nat) :
    (migratedReg old dest h q keep)[j]? = keep[j]?.map (fun e => match dest[32 * h + j]? with
      | some p => (((old.getD (p / 32) (Group.fresh 0 0 0)).vregs.getD q VReg.zero).getD (p % 32) 0) &&& 0xFFFFFFFF
      | none => e) := by
  rw [migratedReg, List.getElem?_map, getElem?_indexed, Option.map_map]
  rfl

end

/-! ### The regrouped team -/

/-- Group h of a team that migrates its lanes at `dest`, up to a count of registers. -/
def regrouped (x : Ctx) (d : Desc) (n : Nat) (dest : List Nat) (h : Nat) (r : Machine.Group) : Machine.Group :=
  upToCount n (pastMarker d r) (migrateGroup ((x.groups.map (pastMarker d)).map (belowCount n)) dest h (pastMarker d r))

/-- The team after its migration. -/
def migrated (x : Ctx) (d : Desc) (m n : Nat) : Ctx :=
  let dest := placesOf (x.mask (BitVec.ofNat 4 m) &&& x.strm.active)
  let y := completeMarker x d
  { y with groups := (indexed x.groups).map (fun (g : Nat × Machine.Group) => regrouped x d n dest g.1 g.2),
           strm := { y.strm with active := lowMask 1024 dest.length } }.wrMask (BitVec.ofNat 4 m) (lowMask 1024 dest.length)

section
variable {s : State} {c k : Nat} {x : Ctx} {d : Desc} {rest : List Desc} {m n : Nat}

theorem onlyOrders_orderTeam (s : State) (c k : Nat) : OnlyOrders (flushWhere s (fun q => q.agent.of c k && !q.host)) (orderTeam s c k) :=
  onlyOrders_acquireWhere _ _ _

theorem storesOnly_orderTeam (s : State) (c k : Nat) : StoresOnly s (orderTeam s c k) :=
  (storesOnly_flushWhere s _).trans (onlyOrders_orderTeam s c k).storesOnly

theorem StoresOnly.isTruss {t : State} (h : StoresOnly s t) (c k g : Nat) : Machine.isTruss t c k g = Machine.isTruss s c k g := by
  rw [Machine.isTruss, Machine.isTruss, h.ctx, h.laneSetAt]

/-- Every write of the team happens before what any of its agents does next (03 R86). -/
theorem covers_orderTeam {a : Agent} (ha : a.of c k = true) :
    Covers (flushWhere s (fun q => q.agent.of c k && !q.host)) (orderTeam s c k) (fun e => e.agent.of c k = true) a :=
  covers_acquireWhere (List.mem_singleton_self _) (by simpa [View.has] using ha) fun e _ he => by simp [he]

/-- Each group stands at its marker with nothing of its earlier work left (03 R84, R86). -/
def AtMarker (x : Ctx) : Prop :=
  ∀ r ∈ x.groups, r.pos.status = .waiting ∧ (∀ v ∈ r.outs, v.written = true) ∧ r.pos.pushes = [] ∧ r.spawnPend = [] ∧
    (∀ st ∈ r.rstores, st.performed = true) ∧ ∀ v ∈ r.vregs, v.length = 32

theorem AtMarker.ready (h : AtMarker x) : regroupReady x = true := by
  refine List.all_eq_true.mpr fun r hr => ?_
  obtain ⟨h1, h2, h3, h4, h5, -⟩ := h r hr
  simpa [h1, h3, h4] using ⟨h2, h5⟩

/-- The state in which the migration takes effect or traps: the marker is complete for every group. -/
def pastMarkers (s : State) (c k : Nat) (x : Ctx) (d : Desc) : State :=
  { (orderTeam s c k).setCtx c k (completeMarker x d) with cur := { core := c, ctx := k, group := 0 } }

theorem zip_regrouped (x : Ctx) (d : Desc) (n : Nat) (dest : List Nat) :
    (((completeMarker x d).groups.zip ((indexed (completeMarker x d).groups).map (fun g =>
      migrateGroup ((completeMarker x d).groups.map (fun o => { o with vregs := o.vregs.take n })) dest g.1 g.2))).map (fun p =>
        { p.2 with vregs := p.2.vregs.take n ++ p.1.vregs.drop n, vtaint := p.2.vtaint.take n ++ p.1.vtaint.drop n,
                   vpoison := p.2.vpoison.take n ++ p.1.vpoison.drop n })) =
      (indexed x.groups).map (fun g => regrouped x d n dest g.1 g.2) := by
  refine List.ext_getElem? fun i => ?_
  rw [show (completeMarker x d).groups = x.groups.map (pastMarker d) from rfl]
  simp only [List.getElem?_map, List.zip, List.getElem?_zipWith, getElem?_indexed]
  cases x.groups[i]? <;> rfl

theorem exec_regroupMigration (hL : Live s c k x) (hq : x.strm.blockQ = d :: rest) (hd : d.regroup = some (m, n)) (hm : AtMarker x) :
    exec (.regroupMigration c k) s = .next (if (List.range x.groups.length).any (fun g => isTruss s c k g)
      then ctrlTrap (pastMarkers s c k x d) cREGROUPTRUSS false x.pc 0 0 0
      else (pastMarkers s c k x d).setCtx c k (migrated x d m n)) := by
  have ht (g : Nat) := (storesOnly_orderTeam s c k).isTruss c k g
  simp only [exec, execRegroupMigration, onLive, hL.live, if_true, hL.1, hq, hd, hm.ready, Bool.not_true, Bool.false_eq_true, if_false, ht,
    zip_regrouped]
  rfl

theorem pastMarkers_there (h : InRange s c k) (x : Ctx) (d : Desc) : InRange (pastMarkers s c k x d) c k := by
  have hs := (h.of_shape (storesOnly_orderTeam s c k).sameShape).of_shape (sameShape_setCtx _ c k (completeMarker x d))
  exact ⟨hs.core, hs.ctx⟩

/-! ### Its groups -/

theorem group_migrated {h : Nat} {r : Machine.Group} (hr : x.groups[h]? = some r) : (migrated x d m n).group h =
    regrouped x d n (placesOf (x.mask (BitVec.ofNat 4 m) &&& x.strm.active)) h r := by
  refine group_of_getElem? ?_
  rw [show (migrated x d m n).groups = (indexed x.groups).map (fun g => regrouped x d n
    (placesOf (x.mask (BitVec.ofNat 4 m) &&& x.strm.active)) g.1 g.2) from rfl, List.getElem?_map, getElem?_indexed, hr]
  rfl

theorem regrouped_stays {dest : List Nat} {h : Nat} (hd : dest.length ≤ 32 * h) (r : Machine.Group) :
    regrouped x d n dest h r = pastMarker d r := by
  rw [regrouped, migrateGroup_stays hd, upToCount, List.take_append_drop, List.take_append_drop, List.take_append_drop]

/-- Register q of a regrouped group: it migrates below the count, and stays from there on. -/
theorem regrouped_vregs {dest : List Nat} {h p : Nat} (hp : p ∈ received dest h) (r : Machine.Group) (q : Nat) :
    (regrouped x d n dest h r).vregs[q]? = if q < n
      then r.vregs[q]?.map (migratedReg ((x.groups.map (pastMarker d)).map (belowCount n)) dest h q) else r.vregs[q]? := by
  rw [regrouped, upToCount, getElem?_take_append_drop (migrateGroup_lengths _ dest h (pastMarker d r)).1, (migrateGroup_lanes hp _).1,
    List.getElem?_map, getElem?_indexed, Option.map_map]
  rfl

theorem regrouped_origin {dest : List Nat} {h p : Nat} (hp : p ∈ received dest h) (r : Machine.Group) (j : Nat) :
    (regrouped x d n dest h r).origin[j]? = r.origin[j]?.map (fun e => match dest[32 * h + j]? with
      | some p => (((x.groups.map (pastMarker d)).map (belowCount n)).getD (p / 32) (pastMarker d r)).origin.getD (p % 32) 0
      | none => e) := (migrateGroup_lanes hp (pastMarker d r)).2 j

theorem regrouped_scalars {dest : List Nat} {h p : Nat} {o : Machine.Group} (hp : p ∈ received dest h)
    (hmin : ∀ q ∈ received dest h, p / 32 ≤ q / 32) (ho : x.groups[p / 32]? = some o) (r : Machine.Group) :
    TakesScalars r o (regrouped x d n dest h r) := by
  have ho' : ((x.groups.map (pastMarker d)).map (belowCount n))[p / 32]? = some (belowCount n (pastMarker d o)) := by simp [ho]
  obtain ⟨h1, h2, h3⟩ := migrateGroup_scalars hp hmin ho' (pastMarker d r)
  exact ⟨h1, h2, h3⟩

/-- Lane j of register q below the count: what stood at position p, the j-th that migrates (03 R84). -/
theorem regrouped_lane {dest : List Nat} {j p q : Nat} {r o : Machine.Group} {v w : VReg} {e : Elem} (hj : dest[j]? = some p) (hq : q < n)
    (ho : x.groups[p / 32]? = some o) (hv : o.vregs[q]? = some v) (he : v[p % 32]? = some e) (hw : r.vregs[q]? = some w)
    (hl : w.length = 32) : ∃ u, (regrouped x d n dest (j / 32) r).vregs[q]? = some u ∧ u[j % 32]? = some (e &&& 0xFFFFFFFF) := by
  refine ⟨_, by rw [regrouped_vregs (mem_received.mpr ⟨j, rfl, hj⟩), if_pos hq, hw]; rfl, ?_⟩
  have hlt : j % 32 < w.length := by omega
  rw [getElem?_migratedReg, Nat.div_add_mod, hj, List.getElem?_eq_getElem hlt]
  simp [List.getD, ho, belowCount, pastMarker, hq, hv, he]

theorem regrouped_lane_origin {dest : List Nat} {j p : Nat} {r o : Machine.Group} {z : BitVec 10} (hj : dest[j]? = some p)
    (ho : x.groups[p / 32]? = some o) (hz : o.origin[p % 32]? = some z) (hl : j % 32 < r.origin.length) :
    (regrouped x d n dest (j / 32) r).origin[j % 32]? = some z := by
  rw [regrouped_origin (mem_received.mpr ⟨j, rfl, hj⟩), Nat.div_add_mod, hj, List.getElem?_eq_getElem hl]
  simp [List.getD, ho, belowCount, pastMarker, hz]

/-- A lane that receives none keeps what it held. -/
theorem regrouped_lane_stays {dest : List Nat} {h p j q : Nat} {r : Machine.Group} {v : VReg} (hp : p ∈ received dest h)
    (hd : dest.length ≤ 32 * h + j) (hv : r.vregs[q]? = some v) :
    (∃ w, (regrouped x d n dest h r).vregs[q]? = some w ∧ w[j]? = v[j]?) ∧ (regrouped x d n dest h r).origin[j]? = r.origin[j]? := by
  have hnone : dest[32 * h + j]? = none := List.getElem?_eq_none hd
  refine ⟨?_, by rw [regrouped_origin hp, hnone]; exact Option.map_id' ..⟩
  rw [regrouped_vregs hp, hv]
  split
  · refine ⟨_, rfl, ?_⟩
    rw [getElem?_migratedReg, hnone]
    exact Option.map_id' ..
  · exact ⟨v, rfl, rfl⟩

theorem regrouped_pos (x : Ctx) (d : Desc) (n : Nat) (dest : List Nat) (h : Nat) (r : Machine.Group) :
    (regrouped x d n dest h r).pos.st = .done ∧ (regrouped x d n dest h r).pos.seq = d.seq := by
  obtain ⟨-, hs, ht⟩ := migrateGroup_lengths ((x.groups.map (pastMarker d)).map (belowCount n)) dest h (pastMarker d r)
  exact ⟨ht, hs⟩

/-! ### Its masks -/

theorem migrated_active {i : Nat} (hi : i < 1024) : (migrated x d m n).strm.active.getLsbD i =
    decide (i < (placesOf (x.mask (BitVec.ofNat 4 m) &&& x.strm.active)).length) := getLsbD_lowMask hi

theorem migrated_mask (hl : x.strm.masks.length = 16) :
    (migrated x d m n).mask (BitVec.ofNat 4 m) = (migrated x d m n).strm.active := by
  have hlt : (BitVec.ofNat 4 m).toNat < x.strm.masks.length := by rw [hl]; exact (BitVec.ofNat 4 m).isLt
  exact (List.getD_eq_getElem?_getD ..).trans (by rw [show (migrated x d m n).strm.masks = x.strm.masks.set (BitVec.ofNat 4 m).toNat
    (migrated x d m n).strm.active from rfl, List.getElem?_set_self hlt]; rfl)

end

/-! ### REGROUP in truss mode (06 R168) -/

theorem pastMarkers_me? {s : State} {c k : Nat} {x : Ctx} (h : Live s c k x) (d : Desc) :
    (pastMarkers s c k x d).me? = some (completeMarker x d) := by
  obtain ⟨hc, hk⟩ := resident_in_range h.1 h.2.1
  exact actingAt_me? (((InRange.mk hc hk).of_shape (storesOnly_orderTeam s c k).sameShape).ctx_setCtx _) h.2.1

/-- Settles O43: the migration group by group, the masks, the order of the team's writes, and the trap of a group in truss mode. -/
theorem regroupMigrates : Obligations.RegroupMigrates := by
  intro s c k x d rest m n hL _ hq hd _ hmasks hat
  extract_lets places
  have hin : InRange s c k := by
    obtain ⟨hc, hk⟩ := resident_in_range hL.1 hL.2.1
    exact ⟨hc, hk⟩
  have hex := exec_regroupMigration hL hq hd hat
  refine ⟨fun htruss => ?_, fun ⟨g, hg, htruss⟩ ht => ?_⟩
  · rw [if_neg (by simpa [List.any_eq_true] using htruss)] at hex
    have hctx : ((pastMarkers s c k x d).setCtx c k (migrated x d m n)).ctx c k = migrated x d m n :=
      (pastMarkers_there hin x d).ctx_setCtx _
    have hgroup {h : Nat} {r : Machine.Group} (hr : x.groups[h]? = some r) :
        ((pastMarkers s c k x d).setCtx c k (migrated x d m n)).group c k h = regrouped x d n places h r := by
      rw [State.group, hctx, group_migrated hr]
    refine ⟨_, hex, fun a ha => covers_orderTeam ha, ?_, ?_, ?_, ?_, ?_, ?_⟩
    · rw [hctx]
      exact fun i hi => migrated_active hi
    · rw [hctx]
      exact migrated_mask hmasks
    · rw [hctx]
      intro r hr
      obtain ⟨g, -, rfl⟩ := List.mem_map.mp hr
      exact regrouped_pos x d n _ g.1 g.2
    · intro j q p r o v e hj hqn hr ho hqr hv he
      rw [hgroup hr]
      obtain ⟨-, -, -, -, -, hlen⟩ := hat r (List.mem_of_getElem? hr)
      exact ⟨regrouped_lane hj hqn ho hv he (List.getElem?_eq_getElem hqr) (hlen _ (List.getElem_mem hqr)),
        fun z hz hl => regrouped_lane_origin hj ho hz hl⟩
    · intro h r hr hp
      rw [hgroup hr]
      exact regrouped_stays hp r
    · intro h r o j0 p0 hr hj0 hp0 hmin ho r'
      rw [show r' = regrouped x d n places h r from hgroup hr]
      have hp : p0 ∈ received places h := mem_received.mpr ⟨j0, hj0, hp0⟩
      have hlow : ∀ q ∈ received places h, p0 / 32 ≤ q / 32 := fun q hq => by
        obtain ⟨j, hj, hjq⟩ := mem_received.mp hq
        exact hmin j q hj hjq
      obtain ⟨⟨h1, h2, h3, h4⟩, ⟨h5, h6, h7, h8, h9, h10⟩, h11, h12⟩ := regrouped_scalars (d := d) (n := n) hp hlow ho r
      refine ⟨h1, h2, h3, h4, h5, h6, h7, h8, h9, h10, h11, h12, fun q hq => ?_, fun q j v hv _ hd => regrouped_lane_stays hp hd hv⟩
      rw [regrouped_vregs hp, if_neg (Nat.not_lt.mpr hq)]
  · rw [if_pos (List.any_eq_true.mpr ⟨g, List.mem_range.mpr hg, htruss⟩), ctrlTrap_trappable (pastMarkers_me? hL d) ht] at hex
    have hctx := (pastMarkers_there hin x d).ctx_setCtx (triggered (completeMarker x d) (ctrlTrig cREGROUPTRUSS false x.pc 0 0 0))
    refine ⟨_, hex, congrArg (·.trig) hctx, fun g r hr => ?_⟩
    have hg' : (completeMarker x d).groups[g]? = some (pastMarker d r) := by
      rw [show (completeMarker x d).groups = x.groups.map (pastMarker d) from rfl, List.getElem?_map, hr]
      rfl
    rw [State.group]
    refine (congrArg (fun y : Ctx => (y.group g).vregs) hctx).trans ?_
    exact congrArg (·.vregs) (group_of_getElem? hg')

end Sys2Proof.Claims
end

