-- ==== Sys2Proof/Proofs/ByteFacts.lean ====
section
/-! Bytes of memory after a write (08 R209, R212): what a write leaves at each place, and a join counter's increment (03 R89). -/

namespace Sys2Proof.Claims

open Machine

/-! ### One byte -/

section
variable {s : State} {a : Nat} {b : Byte}

theorem tierOf_writeByte (s : State) (a : Nat) (b : Byte) (c : Nat) : tierOf (writeByte s a b) c = tierOf s c := by
  unfold tierOf stierBytes
  rw [(storesOnly_writeByte s a b).part]

theorem poolOpen_line (s : State) (n : Nat) : (poolOpen s n).line = n := by
  unfold poolOpen
  split
  case h_1 l h => simpa using List.find?_some h
  case h_2 => rfl

theorem poolOpen_length (h : MemoryOk s) (n : Nat) : (poolOpen s n).work.length = 128 := by
  unfold poolOpen
  split
  case h_1 l hl => exact h.2 l (List.mem_of_find?_eq_some hl)
  case h_2 => simp [Mem.readBytes]

/-- The line of a byte, opened for a write, holds what the byte reads. -/
theorem poolOpen_getD (s : State) (a : Nat) : (poolOpen s (poolLineOf a)).work.getD (a % 128) 0 = poolReadByte s a := by
  unfold poolOpen poolReadByte
  split
  case h_1 => rfl
  case h_2 =>
    have hlt : a % 128 < 128 := Nat.mod_lt _ (by decide)
    simp [Mem.readBytes, List.getD, hlt, poolLineOf, Nat.div_add_mod]

/-- The line after a write of one of its bytes. -/
def poolWritten (s : State) (a : Nat) (b : Byte) : PoolLine :=
  { poolOpen s (poolLineOf a) with work := (poolOpen s (poolLineOf a)).work.set (a % 128) b }

theorem poolLine_poolWriteByte (s : State) (a : Nat) (b : Byte) (n : Nat) : (poolWriteByte s a b).poolLine n =
    if n = poolLineOf a then some (poolWritten s a b) else s.poolLine n := by
  have hline : (poolWritten s a b).line = poolLineOf a := poolOpen_line s _
  have hlines : (poolWriteByte s a b).poolLines = if s.poolLines.any (fun x => x.line == poolLineOf a)
      then s.poolLines.map (fun x => if x.line == poolLineOf a then poolWritten s a b else x) else s.poolLines ++ [poolWritten s a b] := by
    rw [← poolOpen_line s (poolLineOf a)]
    rfl
  rw [State.poolLine, hlines, State.poolLine]
  by_cases hany : s.poolLines.any (fun x => x.line == poolLineOf a) = true
  · have hp : (fun l => l.line == n) ∘ (fun x => if x.line == poolLineOf a then poolWritten s a b else x) = fun x : PoolLine => x.line == n := by
      funext x
      by_cases hx : x.line = poolLineOf a <;> simp [hx, hline]
    rw [if_pos hany, List.find?_map, hp]
    cases hf : s.poolLines.find? (fun x => x.line == n) with
    | none =>
      have hne : n ≠ poolLineOf a := by
        rintro rfl
        obtain ⟨x, hx, he⟩ := List.any_eq_true.mp hany
        exact List.find?_eq_none.mp hf x hx he
      rw [if_neg hne]
      rfl
    | some x =>
      obtain rfl : x.line = n := by simpa using List.find?_some hf
      by_cases hx : x.line = poolLineOf a <;> simp [hx]
  · have hnone : s.poolLines.find? (fun x => x.line == poolLineOf a) = none := List.find?_eq_none.mpr (by simpa using hany)
    rw [if_neg hany, List.find?_append]
    by_cases hn : n = poolLineOf a
    · subst hn
      simp [hnone, hline]
    · have hne : poolLineOf a ≠ n := fun e => hn e.symm
      simp [hn, hline, hne]

theorem poolReadByte_poolWriteByte (h : MemoryOk s) (a : Nat) (b : Byte) (c : Nat) :
    poolReadByte (poolWriteByte s a b) c = if c = a then b else poolReadByte s c := by
  have hdev : (poolWriteByte s a b).poolDev = s.poolDev := rfl
  have hlen := poolOpen_length h (poolLineOf a)
  rw [poolReadByte, poolLine_poolWriteByte]
  by_cases hl : poolLineOf c = poolLineOf a
  · have hlt : c % 128 < (poolOpen s (poolLineOf a)).work.length := by omega
    rw [if_pos hl]
    simp only [poolWritten, List.getD, List.getElem?_set]
    by_cases hca : c = a
    · subst hca
      simp [hlt]
    · have hne : a % 128 ≠ c % 128 := by
        unfold poolLineOf at hl
        omega
      rw [if_neg hne, if_neg hca, ← poolOpen_getD, hl]
      rfl
  · have hca : c ≠ a := fun e => hl (e ▸ rfl)
    rw [if_neg hl, if_neg hca, poolReadByte, hdev]

theorem tierOf_hostw {n : Nat} (h : tierOf s a = .hostw n) : hostBase ≤ a ∧ n = a - hostBase := by
  unfold tierOf at h
  split at h
  · split at h <;> simp at h
  · split at h
    · simp at h
    · split at h
      · simp at h
      · split at h
        case isTrue hb => exact ⟨hb.1, (Tier.hostw.inj h).symm⟩
        case isFalse => simp at h

/-- A byte written reads back, but in a hole. -/
theorem readByte_writeByte_same (h : MemoryOk s) (b : Byte) (ha : tierOf s a ≠ .hole) : readByte (writeByte s a b) a = b := by
  obtain ⟨hm, hh, -, -⟩ := (Memory.wf_iff s).mp h.1
  rw [readByte, tierOf_writeByte]
  unfold writeByte
  cases ht : tierOf s a with
  | dram => exact Mem.get_set_same _ _ hm
  | stier => exact Mem.get_set_same _ _ hm
  | pool => exact (poolReadByte_poolWriteByte h a b a).trans (if_pos rfl)
  | hostw => exact Mem.get_set_same _ _ hh
  | hole => exact absurd ht ha

/-- No other byte changes. -/
theorem readByte_writeByte_other (h : MemoryOk s) (b : Byte) {c : Nat} (hc : c ≠ a) : readByte (writeByte s a b) c = readByte s c := by
  rw [readByte, tierOf_writeByte, readByte]
  unfold writeByte
  cases ht : tierOf s a with
  | dram | stier =>
    cases tierOf s c with
    | dram | stier => exact Mem.get_set_other _ hc
    | _ => rfl
  | pool =>
    cases tierOf s c with
    | pool => exact (poolReadByte_poolWriteByte h a b c).trans (if_neg hc)
    | _ => rfl
  | hostw n =>
    cases hu : tierOf s c with
    | hostw m =>
      obtain ⟨ha, hn⟩ := tierOf_hostw ht
      obtain ⟨hb, hm⟩ := tierOf_hostw hu
      exact Mem.get_set_other _ (by omega)
    | _ => rfl
  | hole => rfl

theorem memoryOk_writeByte (h : MemoryOk s) (a : Nat) (b : Byte) : MemoryOk (writeByte s a b) := by
  refine ⟨Memory.wf_writeByte a b h.1, ?_⟩
  have hw : (poolWritten s a b).work.length = 128 := (List.length_set ..).trans (poolOpen_length h _)
  unfold writeByte
  split
  case h_3 =>
    intro l hl
    simp only [poolWriteByte] at hl
    split at hl
    · obtain ⟨x, hx, rfl⟩ := List.mem_map.mp hl
      split
      · exact hw
      · exact h.2 x hx
    · rcases List.mem_append.mp hl with hl | hl
      · exact h.2 l hl
      · exact List.mem_singleton.mp hl ▸ hw
  all_goals exact h.2

end

/-! ### Bytes at consecutive addresses -/

section
variable {s t u : State}

theorem readByte_writePhys_outside (h : MemoryOk s) (bs : List Byte) {pa a : Nat} (ha : a < pa ∨ pa + bs.length ≤ a) :
    readByte (writePhys s pa bs) a = readByte s a := by
  induction bs generalizing s pa with
  | nil => rfl
  | cons b bs ih =>
    rw [List.length_cons] at ha
    exact (ih (memoryOk_writeByte h pa b) (by omega)).trans (readByte_writeByte_other h b (by omega))

theorem readByte_writePhys_inside (h : MemoryOk s) (bs : List Byte) {pa i : Nat} {b : Byte} (hb : bs[i]? = some b)
    (ht : tierOf s (pa + i) ≠ .hole) : readByte (writePhys s pa bs) (pa + i) = b := by
  induction bs generalizing s pa i with
  | nil => cases hb
  | cons d bs ih =>
    cases i with
    | zero =>
      obtain rfl := Option.some.inj hb
      exact (readByte_writePhys_outside (memoryOk_writeByte h pa d) bs (by omega)).trans (readByte_writeByte_same h d ht)
    | succ i =>
      have hpa : pa + (i + 1) = pa + 1 + i := by omega
      rw [hpa] at ht ⊢
      exact ih (memoryOk_writeByte h pa d) hb (by rwa [tierOf_writeByte])

/-! ### What is known of writes, and poison, touch no byte -/

/-- t holds the bytes of s. -/
structure SameMemory (s t : State) : Prop where
  part : t.part = s.part
  mem : t.mem = s.mem
  host : t.host = s.host
  dev : t.poolDev = s.poolDev
  lines : t.poolLines = s.poolLines
  cores : t.cores = s.cores

theorem SameMemory.refl (s : State) : SameMemory s s := ⟨rfl, rfl, rfl, rfl, rfl, rfl⟩

theorem SameMemory.trans (h : SameMemory s t) (k : SameMemory t u) : SameMemory s u :=
  ⟨k.part.trans h.part, k.mem.trans h.mem, k.host.trans h.host, k.dev.trans h.dev, k.lines.trans h.lines, k.cores.trans h.cores⟩

theorem SameMemory.foldl {α : Type} {f : State → α → State} (hf : ∀ s a, SameMemory s (f s a)) (l : List α) (s : State) :
    SameMemory s (l.foldl f s) := by
  induction l generalizing s with
  | nil => exact .refl s
  | cons a l ih => exact (hf s a).trans (ih _)

theorem SameMemory.readByte (h : SameMemory s t) (a : Nat) : readByte t a = readByte s a :=
  readByte_congr a h.part h.mem h.host h.dev h.lines

theorem SameMemory.tierOf (h : SameMemory s t) (a : Nat) : tierOf t a = tierOf s a := by
  unfold Machine.tierOf stierBytes
  rw [h.part]

theorem SameMemory.memoryOk (h : SameMemory s t) (k : MemoryOk s) : MemoryOk t := by
  refine ⟨?_, fun l hl => k.2 l (h.lines ▸ hl)⟩
  have hw := (Memory.wf_iff s).mp k.1
  rw [Memory.wf_iff, h.mem, h.host, h.dev, h.cores]
  exact hw

theorem sameMemory_keepCode (s : State) (pa n : Nat) : SameMemory s (keepCode s pa n) := by
  unfold keepCode
  dsimp only
  split <;> split <;> exact ⟨rfl, rfl, rfl, rfl, rfl, rfl⟩

theorem sameMemory_markSpill (s : State) (pa n : Nat) : SameMemory s (markSpill s pa n) := by
  unfold markSpill
  refine SameMemory.foldl (fun _ _ => ?_) _ s
  exact ⟨rfl, rfl, rfl, rfl, rfl, rfl⟩

theorem sameMemory_setPoison (s : State) (sc : Option Nat) (a n : Nat) (p : Option Nat) : SameMemory s (setPoison s sc a n p) := by
  unfold setPoison
  split
  · split <;> exact ⟨rfl, rfl, rfl, rfl, rfl, rfl⟩
  · exact ⟨rfl, rfl, rfl, rfl, rfl, rfl⟩

/-! ### A program's write -/

theorem stored_putBytes (h : MemoryOk s) {bs : List Byte} {v : Nat} (pa : Nat) (p : Option Nat)
    (hb : ∀ i, i < bs.length → bs[i]? = some (leByte v i)) : Stored s (putBytes s pa bs p) pa bs.length v := by
  have hk := sameMemory_keepCode s pa bs.length
  have hok := hk.memoryOk h
  have hafter : SameMemory (writePhys (keepCode s pa bs.length) pa bs) (putBytes s pa bs p) :=
    (sameMemory_markSpill _ _ _).trans (sameMemory_setPoison _ _ _ _ _)
  refine ⟨fun i hi ht => ?_, fun a ha => ?_, fun c a => ?_⟩
  · rw [hafter.readByte]
    exact readByte_writePhys_inside hok bs (hb i hi) (by rwa [hk.tierOf])
  · rw [hafter.readByte, readByte_writePhys_outside hok bs ha, hk.readByte]
  · rw [State.core, putBytes_keeps_cores, State.core]

theorem cellsAt_snd (pa : Nat) (bs : List Byte) : (cellsAt pa bs).map (·.2) = bs := by
  rw [cellsAt, List.map_map]
  exact indexed_map_snd bs

theorem mem_cellsAt {pa : Nat} {bs : List Byte} {c : Nat × Byte} (hc : c ∈ cellsAt pa bs) : pa ≤ c.1 ∧ c.1 < pa + bs.length := by
  obtain ⟨b, hb, rfl⟩ := List.mem_map.mp hc
  have hlt := (List.getElem?_eq_some_iff.mp (mem_indexed hb)).1
  exact ⟨Nat.le_add_right _ _, Nat.add_lt_add_left hlt _⟩

theorem Stored.of_late {pa n v : Nat} (h : Stored s t pa n v) (l : List Late) : Stored s { t with late := l } pa n v := h

theorem performWrite_eq_putBytes (s : State) (a : Agent) (n : Nat) (rmw : Bool) (before : List Since) (pa : Nat) (b : Byte)
    (r : List (Nat × Byte)) (p : Option Nat) : ∃ l, performWrite s a n rmw before none ((pa, b) :: r) p =
      { putBytes s pa (((pa, b) :: r).map (·.2)) p with late := l } := by
  unfold performWrite
  dsimp only
  split
  · exact ⟨_, rfl⟩
  · exact ⟨_, rfl⟩

theorem cellsAt_cons (pa : Nat) (b : Byte) (bs : List Byte) : ∃ r, cellsAt pa (b :: bs) = (pa, b) :: r := by
  rw [cellsAt, indexed, List.length_cons, List.range_succ_eq_map]
  exact ⟨_, rfl⟩

theorem stored_performWrite (h : MemoryOk s) {b : Byte} {bs : List Byte} {v : Nat} (a : Agent) (n : Nat) (rmw : Bool) (before : List Since)
    (pa : Nat) (p : Option Nat) (hb : ∀ i, i < (b :: bs).length → (b :: bs)[i]? = some (leByte v i)) :
    Stored s (performWrite s a n rmw before none (cellsAt pa (b :: bs)) p) pa (b :: bs).length v := by
  obtain ⟨r, hr⟩ := cellsAt_cons pa b bs
  obtain ⟨l, hl⟩ := performWrite_eq_putBytes s a n rmw before pa b r p
  rw [hr, hl, ← hr, cellsAt_snd]
  exact (stored_putBytes h pa p hb).of_late l

/-- The one event of a write holds its places. -/
theorem writesGrow_performWrite (s : State) (bs : List Byte) (a : Agent) (n : Nat) (rmw : Bool) (before : List Since) (pa : Nat) (p : Option Nat) :
    WritesGrow s (performWrite s a n rmw before none (cellsAt pa bs) p) a (fun c => pa ≤ c ∧ c < pa + bs.length) := by
  refine ⟨s.late, _, (performWrite_events s a n rmw before none (cellsAt pa bs) p).1, .refl _, fun e he => ?_⟩
  split at he
  · cases he
  · obtain rfl := List.mem_singleton.mp he
    refine ⟨rfl, fun c hc => ?_⟩
    obtain ⟨q, hq, rfl⟩ := List.mem_map.mp hc
    obtain ⟨b, hb, rfl⟩ := List.mem_map.mp hq
    exact mem_cellsAt hb

/-! ### Little-endian numbers -/

theorem getElem?_bytesOf (n v i : Nat) : (bytesOf n v)[i]? = if i < n then some (leByte v i) else none := by
  induction n generalizing v i with
  | zero => rfl
  | succ n ih =>
    cases i with
    | zero => simp [bytesOf, leByte]
    | succ i =>
      rw [bytesOf, List.getElem?_cons_succ, ih]
      simp [leByte, Nat.pow_succ', Nat.div_div_eq_div_mul]

theorem bytesOf_length (n v : Nat) : (bytesOf n v).length = n := by
  induction n generalizing v with
  | zero => rfl
  | succ n ih => rw [bytesOf, List.length_cons, ih]

theorem natOf_map_range (n : Nat) (f : Nat → Byte) :
    natOf ((List.range n).map f) = ((List.range n).map (fun i => (f i).toNat * 256 ^ i)).sum := by
  induction n generalizing f with
  | zero => rfl
  | succ n ih =>
    rw [List.range_succ_eq_map, List.map_cons, List.map_map, natOf, ih, List.map_cons, List.map_map, List.sum_cons, ← List.sum_map_mul_left]
    congr 1
    · simp
    · congr 1
      refine List.map_congr_left fun i _ => ?_
      simp only [Function.comp_apply, Nat.succ_eq_add_one, Nat.pow_succ]
      ring

theorem readNat_eq (s : State) (pa n : Nat) : readNat s pa n = leValue s pa n := natOf_map_range n _

/-! ### A join counter (03 R89, R95) -/

theorem stored_joinWrite (h : MemoryOk s) (a : Agent) (pa add : Nat) : Stored s (joinWrite s a pa add) pa 4 (leValue s pa 4 + add) := by
  obtain ⟨b, bs, hbs⟩ : ∃ b bs, bytesOf 4 (readNat s pa 4 + add) = b :: bs := ⟨_, _, rfl⟩
  have hlen : (b :: bs).length = 4 := hbs ▸ bytesOf_length 4 _
  have hw := stored_performWrite h (b := b) (bs := bs) a s.freeCtr true [] pa ((poisonOf s none pa 4).map (·.1)) fun i hi => by
    rw [← hbs, getElem?_bytesOf, if_pos (by rwa [hlen] at hi)]
  rw [← hbs, bytesOf_length] at hw
  rw [← readNat_eq]
  exact hw

theorem writesGrow_joinWrite (s : State) (a : Agent) (pa add : Nat) :
    WritesGrow s (joinWrite s a pa add) a (fun c => pa ≤ c ∧ c < pa + 4) := by
  have hw := writesGrow_performWrite s (bytesOf 4 (readNat s pa 4 + add)) a s.freeCtr true [] pa ((poisonOf s none pa 4).map (·.1))
  rwa [bytesOf_length] at hw

theorem storesOnly_joinWrite (s : State) (a : Agent) (pa add : Nat) : StoresOnly s (joinWrite s a pa add) :=
  storesOnly_performWrite s _ _ _ _ _ _ _

end

end Sys2Proof.Claims
end

