-- ==== Sys2Proof/Proofs/GroupGoesOn.lean ====
section
/-! What a group's going on leaves alone: spawn records, the launches, and of the group its pending SPAWN words (02 R49, R63, R68). -/

namespace Sys2Proof.Claims

open Machine

/-! ### The group -/

/-- q is r further on: with its SPAWN words still pending, not suspended on a spill unless it was, and calm if it was. -/
structure FurtherOn (r q : Machine.Group) : Prop where
  pend : q.spawnPend = r.spawnPend
  awake : r.pos.status ≠ .suspended .spill → q.pos.status ≠ .suspended .spill
  calm : Calm r → Calm q

section
variable {r q u : Machine.Group}

theorem FurtherOn.refl (r : Machine.Group) : FurtherOn r r := ⟨rfl, id, id⟩

theorem FurtherOn.trans (h : FurtherOn r q) (k : FurtherOn q u) : FurtherOn r u :=
  ⟨k.pend.trans h.pend, k.awake ∘ h.awake, k.calm ∘ h.calm⟩

theorem Passed.furtherOn (h : Passed r q) : FurtherOn r q := by
  rw [h]
  exact ⟨rfl, id, id⟩

theorem furtherOn_startTrip (r : Machine.Group) (d : Desc) (n : Nat) : FurtherOn r (r.startTrip d n) := ⟨rfl, id, id⟩

theorem furtherOn_fmtFlags (r : Machine.Group) (d : Desc) : FurtherOn r (r.fmtFlags d) := by
  unfold Machine.Group.fmtFlags
  dsimp only
  split <;> split <;> split <;> exact ⟨rfl, id, id⟩

theorem furtherOn_entered (r : Machine.Group) (g : Nat) (d : Desc) : FurtherOn r (entered r g d) :=
  (furtherOn_fmtFlags r d).trans ⟨rfl, id, id⟩

theorem furtherOn_passedBy (r : Machine.Group) (g : Nat) (d : Desc) : FurtherOn r (passedBy r g d) :=
  (furtherOn_entered r g d).trans ⟨rfl, fun _ => by simp [passedBy], id⟩

theorem furtherOn_awake (r : Machine.Group) (n : Nat) : FurtherOn r (awake r n) := ⟨rfl, fun _ => by simp [awake], id⟩

theorem passed_writeG (r : Machine.Group) (n : Nat) (v : W32) (t : Bool) (p : Poison) : Passed r (r.writeG n v t p) := by
  unfold Machine.Group.writeG Passed
  dsimp only
  split <;> rfl

theorem passed_land (r : Machine.Group) (v : VarRes) (m : Lanes) (b : Bool) : Passed r (r.land v m b) := by
  unfold Machine.Group.land
  generalize indexed v.regs = l
  induction l generalizing r with
  | nil => exact rfl
  | cons a l ih =>
    refine Passed.trans ?_ (ih _)
    dsimp only
    split
    · split
      · exact rfl
      · split
        · exact passed_writeG r _ _ _ _
        · exact rfl
    · split
      · exact rfl
      · exact rfl

/-- A covering marker writes results, and the group holds none afterwards (02 R64). -/
theorem passed_cover (s : State) (r : Machine.Group) : Passed { r with outs := [] } (r.cover s) := by
  have hl (l : List (Nat × VarRes)) (r : Machine.Group) : Passed r (l.foldl (fun r v =>
      let pick := (lanesOf v.2.conflict).foldl (fun (m : Lanes) i => if s.choice 3 (32 * v.1 + i) then putBit m i true else m) 0
      r.land v.2 (v.2.lanes &&& pick) true) r) := by
    induction l generalizing r with
    | nil => exact rfl
    | cons v l ih => exact (passed_land r _ _ _).trans (ih _)
  have h := hl (indexed r.outs) r
  unfold Machine.Group.cover
  dsimp only at h ⊢
  generalize (indexed r.outs).foldl _ r = q at h ⊢
  unfold Passed at h ⊢
  rw [h]

/-- The group at a run boundary, what its marker covers written. -/
def markerPassed (s : State) (r : Machine.Group) : Machine.Group := if r.pos.parkMarker then { r.cover s with async := [] } else r

/-- The group as it leaves a run boundary, Waiting or Truss-waiting. -/
def leavesBoundary (s : State) (r : Machine.Group) : Machine.Group :=
  { markerPassed s r with pos := { (markerPassed s r).pos with
    parkMarker := false, poisonRun := none, status := if (markerPassed s r).pos.trussReq then .trussWaiting else .waiting } }

theorem leavesBoundary_keeps (s : State) (r : Machine.Group) : (leavesBoundary s r).spawnPend = r.spawnPend ∧
    (leavesBoundary s r).pos.st = r.pos.st ∧ (leavesBoundary s r).pos.seq = r.pos.seq ∧ (Calm r → Calm (leavesBoundary s r)) := by
  have h : (markerPassed s r).spawnPend = r.spawnPend ∧ (markerPassed s r).pos.st = r.pos.st ∧ (markerPassed s r).pos.seq = r.pos.seq ∧
      (r.async = [] → (markerPassed s r).async = []) := by
    unfold markerPassed
    split
    · rw [passed_cover s r]
      exact ⟨rfl, rfl, rfl, fun _ => rfl⟩
    · exact ⟨rfl, rfl, rfl, id⟩
  obtain ⟨h1, h2, h3, h4⟩ := h
  exact ⟨h1, h2, h3, fun hc => ⟨h4 hc.1, rfl⟩⟩

theorem furtherOn_leavesBoundary (s : State) (r : Machine.Group) : FurtherOn r (leavesBoundary s r) := by
  obtain ⟨h1, -, -, h4⟩ := leavesBoundary_keeps s r
  refine ⟨h1, fun _ => ?_, h4⟩
  simp only [leavesBoundary]
  split <;> simp

end

/-! ### The state -/

/-- t has the spawn records of s, its launches but for the marks of writes, and group g further on. -/
structure GoesOn (s t : State) (c k g : Nat) : Prop where
  shape : SameShape s t
  gather : ∀ d, (t.core d).gather = (s.core d).gather
  formed : ∀ d, (t.core d).formed = (s.core d).formed
  launches : t.launches.map unmarked = s.launches.map unmarked
  group : FurtherOn (s.group c k g) (t.group c k g)

section
variable {s t u : State} {c k g : Nat}

theorem GoesOn.refl (s : State) (c k g : Nat) : GoesOn s s c k g := ⟨.refl s, fun _ => rfl, fun _ => rfl, rfl, .refl _⟩

theorem GoesOn.trans (h : GoesOn s t c k g) (j : GoesOn t u c k g) : GoesOn s u c k g :=
  ⟨h.shape.trans j.shape, fun d => (j.gather d).trans (h.gather d), fun d => (j.formed d).trans (h.formed d),
    j.launches.trans h.launches, h.group.trans j.group⟩

theorem GoesOn.of_cores (hc : t.cores = s.cores) (hl : t.launches = s.launches) : GoesOn s t c k g := by
  have h (d : Nat) : t.core d = s.core d := by rw [State.core, hc, State.core]
  refine ⟨.of_cores hc, fun d => by rw [h], fun d => by rw [h], by rw [hl], ?_⟩
  have hx : t.ctx c k = s.ctx c k := by rw [State.ctx, h, State.ctx]
  rw [State.group, State.group, hx]
  exact .refl _

theorem StoresOnly.goesOn (h : StoresOnly s t) : GoesOn s t c k g :=
  ⟨h.sameShape, fun d => by rw [h.core d], fun d => by rw [h.core d], h.launches, by rw [h.group]; exact .refl _⟩

theorem goesOn_updCore (s : State) (d : Nat) {f : Core → Core} (hx : (f (s.core d)).ctxs = (s.core d).ctxs)
    (hg : (f (s.core d)).gather = (s.core d).gather) (hf : (f (s.core d)).formed = (s.core d).formed) :
    GoesOn s (s.updCore d f) c k g := by
  refine ⟨sameShape_updCore s d (by rw [hx]), fun e => ?_, fun e => ?_, rfl, ?_⟩
  · rw [core_updCore]
    split
    case isTrue h => rw [hg, h.1]
    case isFalse => rfl
  · rw [core_updCore]
    split
    case isTrue h => rw [hf, h.1]
    case isFalse => rfl
  · rw [(sameCtxs_updCore s d hx).group]
    exact .refl _

/-- A write of a context reads back, where there is one. -/
theorem ctx_setCtx_or (s : State) (c k : Nat) (y : Ctx) : (s.setCtx c k y).ctx c k = y ∨ (s.setCtx c k y).ctx c k = s.ctx c k := by
  by_cases hi : InRange s c k
  · exact .inl (hi.ctx_setCtx y)
  · refine .inr ?_
    by_cases hc : c < s.cores.length
    · have hk : (s.core c).ctxs.length ≤ k := Nat.not_lt.mp fun hk => hi ⟨hc, hk⟩
      rw [State.ctx, State.setCtx, core_updCore, if_pos ⟨rfl, hc⟩, List.set_eq_of_length_le hk, State.ctx]
    · rw [State.setCtx, State.updCore, State.setCore_out _ _ _ hc]

theorem goesOn_setCtx (s : State) {y : Ctx} (h : FurtherOn (s.group c k g) (y.group g)) : GoesOn s (s.setCtx c k y) c k g := by
  refine ⟨sameShape_setCtx s c k y, fun d => ?_, fun d => ?_, rfl, ?_⟩
  · rw [State.setCtx, core_updCore]
    split <;> simp_all
  · rw [State.setCtx, core_updCore]
    split <;> simp_all
  · show FurtherOn (s.group c k g) (((s.setCtx c k y).ctx c k).group g)
    rcases ctx_setCtx_or s c k y with he | he
    · rwa [he]
    · rw [he]
      exact .refl _

theorem group_setGroup_or (x : Ctx) (g : Nat) (r : Machine.Group) : (x.setGroup g r).group g = r ∨ (x.setGroup g r).group g = x.group g := by
  by_cases hg : g < x.groups.length
  · exact .inl (by simp [Ctx.group, Ctx.setGroup, List.getD, hg])
  · exact .inr (by rw [Ctx.setGroup, List.set_eq_of_length_le (Nat.not_lt.mp hg)])

theorem goesOn_setGroup (s : State) {r : Machine.Group} (h : FurtherOn (s.group c k g) r) : GoesOn s (s.setGroup c k g r) c k g := by
  refine goesOn_setCtx s ?_
  rcases group_setGroup_or (s.ctx c k) g r with he | he
  · rwa [he]
  · rw [he]
    exact .refl _

theorem goesOn_updCtx (s : State) {f : Ctx → Ctx} (h : FurtherOn (s.group c k g) ((f (s.ctx c k)).group g)) :
    GoesOn s (s.updCtx c k f) c k g := goesOn_setCtx s h

/-! ### Descriptors -/

theorem goesOn_makeEligible (s : State) (c k g : Nat) : GoesOn s (makeEligible s c k g) c k g :=
  (goesOn_setGroup s (furtherOn_awake (s.group c k g) s.stamp)).trans (.of_cores rfl rfl)

theorem goesOn_releaseReturn (s : State) (c k g : Nat) (n : W32) : GoesOn s (releaseReturn s c k g n) c k g := by
  unfold releaseReturn
  split
  · exact .refl s c k g
  · split
    · exact .refl s c k g
    · exact .of_cores rfl rfl

theorem goesOn_deliverWord (s : State) (c k g : Nat) (n w : W32) (p : Option (Nat × W64)) : GoesOn s (deliverWord s c k g n w p) c k g :=
  (goesOn_releaseReturn s c k g n).trans (goesOn_updCtx _ (.refl _))

theorem group_deliverWord (s : State) (c k g : Nat) (n w : W32) (p : Option (Nat × W64)) (h : Nat) :
    (deliverWord s c k g n w p).group c k h = s.group c k h := by
  have hr := (sameCtxs_releaseReturn s c k g n).ctx c k
  rw [deliverWord, State.updCtx, State.group, State.group, hr]
  rcases ctx_setCtx_or (releaseReturn s c k g n) c k ((s.ctx c k).deliver n g w p) with he | he
  · rw [he]
    rfl
  · rw [he, hr]

theorem goesOn_acquireStart (s : State) (c k g : Nat) (d : Desc) : GoesOn s (acquireStart s c k g d) c k g := by
  have hb (s : State) : GoesOn s (releaseBarrier s c k d) c k g := by
    unfold releaseBarrier
    split
    · exact .refl s c k g
    · exact (storesOnly_flushWhere s _).goesOn.trans (.of_cores rfl rfl)
  have hf (s : State) : GoesOn s (followFences s c k g d) c k g := .of_cores rfl rfl
  exact (((storesOnly_flushWhere s _).goesOn.trans (hb _)).trans (hf _)).trans (onlyOrders_acquireStart s c k g d).storesOnly.goesOn

theorem setGroup_furtherOn {x : Ctx} {q : Machine.Group} (h : FurtherOn (x.group g) q) : FurtherOn (x.group g) ((x.setGroup g q).group g) := by
  rcases group_setGroup_or x g q with he | he
  · rwa [he]
  · rw [he]
    exact .refl _

theorem goesOn_passedBy {t : State} {r : Machine.Group} (ht : t.group c k g = r) (d : Desc) :
    GoesOn t (t.updCtx c k (fun x => (x.setGroup g (passedBy r g d)).retire)) c k g :=
  goesOn_updCtx t (setGroup_furtherOn (x := t.ctx c k) (ht ▸ furtherOn_passedBy _ g d))

theorem goesOn_startDesc (s : State) (c k g : Nat) (d : Desc) : GoesOn s (startDesc s c k g d) c k g := by
  have hu := goesOn_acquireStart s c k g d
  have hctx := (sameCtxs_acquireStart s c k g d).ctx c k
  have hgroup : (acquireStart s c k g d).group c k g = s.group c k g := by rw [State.group, hctx, State.group]
  rw [startDesc_eq (r := s.group c k g) rfl]
  generalize acquireStart s c k g d = u at hu hctx hgroup
  split
  · split
    · exact (hu.trans (goesOn_deliverWord u c k g d.seq _ none)).trans (goesOn_passedBy ((group_deliverWord ..).trans hgroup) d)
    · exact hu.trans (goesOn_passedBy hgroup d)
  · rw [← hctx]
    refine (hu.trans (goesOn_setCtx u (setGroup_furtherOn ?_))).trans (goesOn_makeEligible _ c k g)
    exact hgroup ▸ (furtherOn_entered _ g d).trans (furtherOn_startTrip _ d 0)

theorem goesOn_startVisible (n : Nat) (s : State) (c k g : Nat) : GoesOn s (startVisible s c k g n) c k g := by
  induction n generalizing s with
  | zero => exact .refl s c k g
  | succ n ih =>
    rw [startVisible]
    split
    · exact (goesOn_startDesc s c k g _).trans (ih _)
    · exact .refl s c k g

/-! ### Run boundaries -/

theorem onlyOrders_coverSpawns (s : State) (c k g : Nat) : OnlyOrders s (coverSpawns s c k g) := onlyOrders_acquireWhere _ _ _

/-- The state once a passed marker covers the group's spawn records. -/
def spawnsCovered (s : State) (c k g : Nat) : State := if (s.group c k g).pos.parkMarker then coverSpawns s c k g else s

/-- The group as it leaves its run boundary. -/
def onward (s : State) (c k g : Nat) : Machine.Group := leavesBoundary (spawnsCovered s c k g) (s.group c k g)

/-- The state once a run boundary with no wait is passed. -/
def pastBoundary (s : State) (c k g : Nat) : State := (spawnsCovered s c k g).setGroup c k g (onward s c k g)

/-- A calm group at a run boundary raises nothing there. -/
theorem settle_calm (h : Calm (s.group c k g)) : settle s c k g =
    if (s.group c k g).ready then
      (if (onward s c k g).pos.trussReq then pastBoundary s c k g
      else if (onward s c k g).pos.st ≠ .done then makeEligible (pastBoundary s c k g) c k g
      else startVisible (pastBoundary s c k g) c k g ((pastBoundary s c k g).ctx c k).strm.blockQ.length)
    else s.updGroup c k g (fun r => { r with pos := { r.pos with status := .parked } }) := by
  obtain ⟨ha, hp⟩ := h
  unfold settle pastBoundary onward leavesBoundary markerPassed spawnsCovered
  by_cases hr : (s.group c k g).ready = true
  · by_cases hm : (s.group c k g).pos.parkMarker = true
    · simp [hr, hm, ha, hp, raisePoison]
    · simp [hr, hm, hp, raisePoison]
  · simp [hr]

theorem onlyOrders_spawnsCovered (s : State) (c k g : Nat) : OnlyOrders s (spawnsCovered s c k g) := by
  unfold spawnsCovered
  split
  · exact onlyOrders_coverSpawns s c k g
  · exact .refl s

theorem goesOn_pastBoundary (s : State) (c k g : Nat) : GoesOn s (pastBoundary s c k g) c k g := by
  have ho := (onlyOrders_spawnsCovered s c k g).storesOnly
  refine ho.goesOn.trans (goesOn_setGroup _ ?_)
  rw [ho.group]
  exact furtherOn_leavesBoundary _ _

theorem goesOn_settle (h : Calm (s.group c k g)) : GoesOn s (settle s c k g) c k g := by
  have hp := goesOn_pastBoundary s c k g
  rw [settle_calm h]
  split
  · split
    · exact hp
    · split
      · exact hp.trans (goesOn_makeEligible _ c k g)
      · exact hp.trans (goesOn_startVisible _ _ c k g)
  · exact goesOn_setGroup s ⟨rfl, fun _ => by simp, id⟩

theorem goesOn_unpark (h : Calm (s.group c k g)) : GoesOn s (unpark s c k g) c k g := by
  unfold unpark
  split
  · exact goesOn_settle h
  · exact .refl s c k g

/-! ### A word passed over -/

theorem goesOn_updLaneSet (s : State) (d ls : Nat) (f : LaneSet → LaneSet) : GoesOn s (s.updLaneSet d ls f) c k g :=
  goesOn_updCore s d rfl rfl rfl

theorem goesOn_completeDesc (s : State) (c k g : Nat) (d : Desc) : GoesOn s (completeDesc s c k g d) c k g := by
  have hc (s : State) : GoesOn s (s.updCtx c k (fun x => x.complete g)) c k g :=
    goesOn_updCtx s (setGroup_furtherOn (x := s.ctx c k) ⟨rfl, id, id⟩)
  unfold completeDesc
  split
  · exact (goesOn_deliverWord s c k g d.seq 0 none).trans (hc _)
  · exact hc s

/-- The group before its next run, with the marker the ended run leaves (02 R63). -/
def atRunEnd (hd : Hdr) (b : Machine.Group) : Machine.Group :=
  { betweenRuns b with pos := { (betweenRuns b).pos with parkMarker := hd.sw || b.pos.marked || b.pos.parkFence.isSome } }

theorem furtherOn_atRunEnd (hd : Hdr) (b : Machine.Group) : FurtherOn b (atRunEnd hd b) := ⟨rfl, id, fun h => ⟨h.1, rfl⟩⟩

theorem furtherOn_withWrites (r : Machine.Group) (n : Nat) (wr : List Pend) : FurtherOn r (withWrites r n wr) := ⟨rfl, id, id⟩

theorem endRun_calm (hd : Hdr) (h : Calm (s.group c k g)) : endRun s c k g hd .none =
    settle (freed c k g (movedPast s c k g hd.fin (atRunEnd hd (s.group c k g).drain)) ((s.ctx c k).laneSet g)) c k g := by
  have hp : (s.group c k g).drain.pos.poisonRun = none := ((passed_drain _).furtherOn.calm h).2
  generalize hb : (s.group c k g).drain = b at hp ⊢
  have hb' : ((s.ctx c k).group g).drain = b := hb
  simp only [endRun, movedPast, atRunEnd, betweenRuns, hb', hp]
  rfl

theorem goesOn_movedPast (fin : Bool) {b : Machine.Group} (h : FurtherOn (s.group c k g) b) : GoesOn s (movedPast s c k g fin b) c k g := by
  have hb := goesOn_setGroup s h
  unfold movedPast
  split
  · exact hb
  · split
    case h_1 d _ =>
      split
      · refine hb.trans (goesOn_setGroup _ ?_)
        rcases ctx_setCtx_or s c k ((s.ctx c k).setGroup g b) with he | he
        · rw [State.group, State.setGroup, he]
          rcases group_setGroup_or (s.ctx c k) g b with hg | hg
          · rw [hg]
            exact furtherOn_startTrip _ _ _
          · rw [hg]
            exact h.trans (furtherOn_startTrip _ _ _)
        · rw [State.group, State.setGroup, he]
          exact h.trans (furtherOn_startTrip _ _ _)
      · exact hb.trans (goesOn_completeDesc _ _ _ _ _)
    case h_2 => exact hb

theorem goesOn_endRun (hd : Hdr) (h : Calm (s.group c k g)) : GoesOn s (endRun s c k g hd .none) c k g := by
  have hb : FurtherOn (s.group c k g) (atRunEnd hd (s.group c k g).drain) :=
    (passed_drain _).furtherOn.trans (furtherOn_atRunEnd hd _)
  have hf : GoesOn s (freed c k g (movedPast s c k g hd.fin (atRunEnd hd (s.group c k g).drain)) ((s.ctx c k).laneSet g)) c k g :=
    (goesOn_movedPast hd.fin hb).trans (goesOn_updLaneSet _ _ _ _)
  rw [endRun_calm hd h]
  exact hf.trans (goesOn_settle (hf.group.calm h))

theorem GoesOn.cur (h : GoesOn s t c k g) (p : Cur) : GoesOn s { t with cur := p } c k g := h.trans (.of_cores rfl rfl)

theorem goesOn_finishWord (e : Env) (hd : Hdr) (n : Nat) (h : Calm (e.s.group e.core e.k e.gi)) (hg : e.g = e.s.group e.core e.k e.gi) :
    GoesOn e.s (finishWord e hd n .none (.go e.s e.g [])) e.core e.k e.gi := by
  have hpast : FurtherOn (e.s.group e.core e.k e.gi) ((withWrites e.g n []).slots n) := by
    rw [hg]
    exact (furtherOn_withWrites _ n []).trans (passed_slots n _).furtherOn
  have hslots := goesOn_setGroup e.s hpast
  have heq : finishWord e hd n .none (.go e.s e.g []) = if hd.fin || hd.bnd then
      endRun (e.s.setGroup e.core e.k e.gi ((withWrites e.g n []).slots n)) e.core e.k e.gi hd .none
      else e.s.setGroup e.core e.k e.gi ((withWrites e.g n []).slots n) := rfl
  rw [heq]
  split
  · exact hslots.trans (goesOn_endRun hd (hslots.group.calm h))
  · exact hslots

/-- A word with no effect keeps its slots, and ends its run where its flags say so (10 R283). -/
theorem goesOn_passOver (h : Calm (s.group c k g)) : GoesOn s (passOver s c k g) c k g := by
  let w : State := { s with cur := { core := c, ctx := k, group := g } }
  let e : Env := Env.of w (w.ctx c k) (w.group c k g)
  have hw : GoesOn s w c k g := .of_cores rfl rfl
  exact (hw.trans (goesOn_finishWord e e.skipShape.1 e.skipShape.2 h rfl)).cur s.cur

end

end Sys2Proof.Claims
end

