-- ==== Sys2Proof/Proofs/Gatherer.lean ====
section
/-! The gatherer: a record it holds stays held, alone or in a formed team, whatever forms (03 R91, R92). -/

namespace Sys2Proof.Claims

open Machine

/-! ### Sequences -/

theorem sameSeq_self (r : SpawnRec) : sameSeq r r = true := by simp [sameSeq]

/-- Every record of a list stands in one of its pieces. -/
theorem mem_pieces32 {n : Nat} {l : List SpawnRec} {r : SpawnRec} (hn : l.length ≤ n) (hr : r ∈ l) : ∃ f ∈ pieces32 n l, r ∈ f := by
  induction n generalizing l with
  | zero =>
    obtain rfl := List.length_eq_zero_iff.mp (Nat.le_zero.mp hn)
    cases hr
  | succ n ih =>
    cases l with
    | nil => cases hr
    | cons q l =>
      rw [pieces32]
      rw [← List.take_append_drop 32 (q :: l), List.mem_append] at hr
      rcases hr with hr | hr
      · exact ⟨_, List.mem_cons_self, hr⟩
      · have hd : ((q :: l).drop 32).length ≤ n := by
          rw [List.length_drop]
          rw [List.length_cons] at hn ⊢
          omega
        obtain ⟨f, hf, h⟩ := ih hd hr
        exact ⟨f, List.mem_cons_of_mem _ hf, h⟩
      · exact fun h => by cases h

/-- What is not taken out of a list is among the first that are selected. -/
theorem mem_dropFirst_or {α : Type} {p : α → Bool} {n : Nat} {l : List α} {a : α} (h : a ∈ l) :
    a ∈ dropFirst p n l ∨ a ∈ (l.filter p).take n := by
  induction l generalizing n with
  | nil => cases h
  | cons b l ih =>
    cases n with
    | zero => exact .inl h
    | succ n =>
      rw [dropFirst]
      by_cases hb : p b = true
      · rw [if_pos hb, List.filter_cons_of_pos hb, List.take_succ_cons]
        rcases List.mem_cons.mp h with rfl | h
        · exact .inr List.mem_cons_self
        · exact (ih h).imp_right (List.mem_cons_of_mem _)
      · rw [if_neg hb, List.filter_cons_of_neg hb]
        rcases List.mem_cons.mp h with rfl | h
        · exact .inl List.mem_cons_self
        · exact (ih h).imp_left (List.mem_cons_of_mem _)

/-! ### One core -/

/-- A core's gatherer holds a record, alone or in a formed team. -/
def Holds (co : Core) (r : SpawnRec) : Prop := r ∈ co.gather ∨ ∃ f ∈ co.formed, r ∈ f

section
variable {co : Core} {r q : SpawnRec}

theorem holds_add {fs : List (List SpawnRec)} {gs : List SpawnRec} (h : Holds co r) (hg : r ∈ co.gather → r ∈ gs ∨ ∃ f ∈ fs, r ∈ f) :
    Holds { co with gather := gs, formed := co.formed ++ fs } r := by
  rcases h with h | ⟨f, hf, hr⟩
  · rcases hg h with h | ⟨f, hf, hr⟩
    · exact .inl h
    · exact .inr ⟨f, List.mem_append_right _ hf, hr⟩
  · exact .inr ⟨f, List.mem_append_left _ hf, hr⟩

theorem holds_formSeq (h : Holds co r) (q : SpawnRec) : Holds (formSeq co q) r := by
  refine holds_add h fun hr => ?_
  by_cases hq : sameSeq q r = true
  · exact .inr (mem_pieces32 (Nat.le_refl _) (List.mem_filter.mpr ⟨hr, hq⟩))
  · exact .inl (List.mem_filter.mpr ⟨hr, by simp [hq]⟩)

theorem holds_formFull (h : Holds co r) (q : SpawnRec) : Holds (formFull co q) r := by
  unfold formFull
  dsimp only
  split
  · exact h
  · exact holds_add h fun hr => (mem_dropFirst_or hr).imp_right fun h => ⟨_, List.mem_singleton_self _, h⟩

/-- The contexts and the scratchpad are not the gatherer's. -/
theorem formFull_keeps (co : Core) (q : SpawnRec) : (formFull co q).ctxs = co.ctxs ∧ (formFull co q).scr = co.scr := by
  unfold formFull
  dsimp only
  split <;> exact ⟨rfl, rfl⟩

theorem holds_enter (h : Holds co r ∨ r = q) : Holds { co with gather := co.gather ++ [q] } r := by
  rcases h with (h | h) | rfl
  · exact .inl (List.mem_append_left _ h)
  · exact .inr h
  · exact .inl (List.mem_append_right _ (List.mem_singleton_self _))

theorem holds_gatherRecord (h : Holds co r ∨ r = q) : Holds (gatherRecord co q) r := holds_formFull (holds_enter h) q

/-- One partial sequence forms, if it holds a selected record. -/
def formPartial (p : SpawnRec → Bool) (co : Core) (r : SpawnRec) : Core :=
  if co.gather.any (fun x => sameSeq r x && p x) then formSeq co r else co

theorem formPartials_eq (co : Core) (p : SpawnRec → Bool) : formPartials co p = co.gather.foldl (formPartial p) co := rfl

theorem holds_formPartial {p : SpawnRec → Bool} (h : Holds co r) (q : SpawnRec) : Holds (formPartial p co q) r := by
  unfold formPartial
  split
  · exact holds_formSeq h q
  · exact h

theorem formPartial_gather {p : SpawnRec → Bool} (h : r ∈ (formPartial p co q).gather) :
    r ∈ co.gather ∧ (sameSeq q r = true → p r = false) := by
  unfold formPartial at h
  split at h
  case isTrue =>
    obtain ⟨hr, hs⟩ := List.mem_filter.mp h
    exact ⟨hr, fun hq => by simp [hq] at hs⟩
  case isFalse ha =>
    refine ⟨h, fun hq => Bool.eq_false_iff.mpr fun hp => ha ?_⟩
    exact List.any_eq_true.mpr ⟨r, h, by simp [hq, hp]⟩

theorem holds_formPartials {p : SpawnRec → Bool} (h : Holds co r) : Holds (formPartials co p) r := by
  rw [formPartials_eq]
  generalize co.gather = l
  induction l generalizing co with
  | nil => exact h
  | cons q l ih => exact ih (holds_formPartial h q)

theorem foldl_formPartial_gather {p : SpawnRec → Bool} {l : List SpawnRec} (h : r ∈ (l.foldl (formPartial p) co).gather) :
    r ∈ co.gather ∧ ∀ q ∈ l, sameSeq q r = true → p r = false := by
  induction l generalizing co with
  | nil => exact ⟨h, fun _ hq => by cases hq⟩
  | cons q l ih =>
    obtain ⟨hr, hl⟩ := ih h
    obtain ⟨hr, hq⟩ := formPartial_gather hr
    refine ⟨hr, fun u hu => ?_⟩
    rcases List.mem_cons.mp hu with rfl | hu
    · exact hq
    · exact hl u hu

/-- Afterwards no record that was selected gathers still. -/
theorem formPartials_gather {p : SpawnRec → Bool} (h : r ∈ (formPartials co p).gather) : p r = false := by
  obtain ⟨hr, hl⟩ := foldl_formPartial_gather h
  exact hl r hr (sameSeq_self r)

end

/-! ### The state -/

section
variable {s t : State} {c : Nat} {r q : SpawnRec}

theorem gathered_iff : Gathered s c r ↔ Holds (s.core c) r := Iff.rfl

/-- The gatherer of a core as a record enters. -/
def recordEntered (s : State) (q : SpawnRec) (co : Core) : Core :=
  if forming s q.part q.launch then gatherRecord co q else { co with gather := co.gather ++ [q] }

theorem gatherAt_eq (s : State) (c : Nat) (q : SpawnRec) : gatherAt s c q = s.updCore c (recordEntered s q) := rfl

theorem gathered_gatherAt (hc : c < s.cores.length) (h : Gathered s c r ∨ r = q) : Gathered (gatherAt s c q) c r := by
  rw [gathered_iff, gatherAt_eq, core_updCore, if_pos ⟨rfl, hc⟩, recordEntered]
  split
  · exact holds_gatherRecord h
  · exact holds_enter h

theorem recordEntered_keeps (s : State) (q : SpawnRec) (co : Core) :
    (recordEntered s q co).ctxs = co.ctxs ∧ (recordEntered s q co).scr = co.scr := by
  unfold recordEntered
  split
  · exact formFull_keeps _ q
  · exact ⟨rfl, rfl⟩

theorem Gathered.of_core (h : Gathered s c r) (hg : (t.core c).gather = (s.core c).gather) (hf : (t.core c).formed = (s.core c).formed) :
    Gathered t c r := by
  rw [Gathered, hg, hf]
  exact h

theorem storesOnly_joinInc (s : State) (a : Agent) (q : SpawnRec) : StoresOnly s (joinInc a s q) := by
  unfold joinInc
  split
  · exact .refl s
  · exact storesOnly_joinWrite s _ _ _

theorem StoresOnly.gathered (h : StoresOnly s t) (k : Gathered s c r) : Gathered t c r :=
  k.of_core (by rw [h.core c]) (by rw [h.core c])

theorem sameCtxs_gatherAt (s : State) (c : Nat) (q : SpawnRec) : SameCtxs s (gatherAt s c q) :=
  sameCtxs_updCore s c (recordEntered_keeps s q _).1

theorem sameCtxs_acceptAll (s : State) (a : Agent) (c : Nat) (rs : List SpawnRec) : SameCtxs s (acceptAll s a c rs) :=
  SameCtxs.foldl (fun s q => (storesOnly_joinInc s a q).sameCtxs.trans (sameCtxs_gatherAt _ c q)) rs s

theorem sameShape_gatherAt (s : State) (c : Nat) (q : SpawnRec) : SameShape s (gatherAt s c q) :=
  sameShape_updCore (f := recordEntered s q) s c (by rw [(recordEntered_keeps s q _).1])

theorem sameShape_acceptAll (s : State) (a : Agent) (c : Nat) (rs : List SpawnRec) : SameShape s (acceptAll s a c rs) :=
  SameShape.foldl (fun s q => (storesOnly_joinInc s a q).sameShape.trans (sameShape_gatherAt _ c q)) rs s

/-- Every accepted record is held, and what was held stays so. -/
theorem gathered_acceptAll (a : Agent) (hc : c < s.cores.length) (rs : List SpawnRec) (h : Gathered s c r ∨ r ∈ rs) :
    Gathered (acceptAll s a c rs) c r := by
  unfold acceptAll
  induction rs generalizing s with
  | nil => simpa using h
  | cons q rs ih =>
    have hj := storesOnly_joinInc s a q
    have hcj : c < (joinInc a s q).cores.length := hj.count.symm ▸ hc
    refine ih ((sameShape_gatherAt _ c q).cores.symm ▸ hcj) ?_
    rcases h with h | h
    · exact .inl (gathered_gatherAt hcj (.inl (hj.gathered h)))
    · exact (List.mem_cons.mp h).imp (fun h => gathered_gatherAt hcj (.inr h)) id

end

end Sys2Proof.Claims
end

