-- ==== Sys2Proof/Proofs/SpawnAccepted.lean ====
section
/-! O44, records accepted: a group that goes on with nothing to start moves no byte, and a SPAWN's records enter the gatherer (03 R89,
R91, 08 R220). -/

namespace Sys2Proof.Claims

open Machine

/-! ### Bytes and releases stay -/

/-- t is s but for its contexts and lane sets, and for events ordered further. -/
structure Undisturbed (s t : State) : Prop where
  state : t = { s with cores := t.cores, late := t.late, stamp := t.stamp }
  scr : ∀ d, (t.core d).scr = (s.core d).scr
  late : Orders s.late t.late

section
variable {s t u : State}

theorem Undisturbed.refl (s : State) : Undisturbed s s := ⟨rfl, fun _ => rfl, .refl _⟩

theorem Undisturbed.trans (h : Undisturbed s t) (k : Undisturbed t u) : Undisturbed s u :=
  ⟨by rw [k.state, h.state], fun d => (k.scr d).trans (h.scr d), h.late.trans k.late⟩

theorem OnlyOrders.undisturbed (h : OnlyOrders s t) : Undisturbed s t :=
  ⟨by rw [h.1], fun d => by rw [h.storesOnly.state, h.1]; rfl, h.2⟩

theorem undisturbed_updCore (s : State) (c : Nat) {f : Core → Core} (h : (f (s.core c)).scr = (s.core c).scr) : Undisturbed s (s.updCore c f) := by
  refine ⟨rfl, fun d => ?_, .refl _⟩
  rw [core_updCore]
  split
  case isTrue hd => rw [h, hd.1]
  case isFalse => rfl

theorem undisturbed_setGroup (s : State) (c k g : Nat) (r : Machine.Group) : Undisturbed s (s.setGroup c k g r) := by
  rw [State.setGroup, State.setCtx]
  exact undisturbed_updCore s c rfl

theorem undisturbed_makeEligible (s : State) (c k g : Nat) : Undisturbed s (makeEligible s c k g) := by
  obtain ⟨hs, hc, hl⟩ := undisturbed_setGroup s c k g (awake (s.group c k g) s.stamp)
  exact ⟨rfl, hc, hl⟩

theorem Undisturbed.releases (h : Undisturbed s t) : t.releases = s.releases := by rw [h.state]

theorem Undisturbed.readByte (h : Undisturbed s t) (a : Nat) : readByte t a = readByte s a := by
  refine readByte_congr a ?_ ?_ ?_ ?_ ?_ <;> rw [h.state]

theorem Undisturbed.tierOf (h : Undisturbed s t) (a : Nat) : tierOf t a = tierOf s a := by
  rw [h.state]
  rfl

/-- What was stored stays. -/
theorem Stored.undisturbed {pa n v : Nat} (h : Stored s t pa n v) (k : Undisturbed t u) : Stored s u pa n v := by
  obtain ⟨h1, h2, h3⟩ := h
  exact ⟨fun i hi ht => (k.readByte _).trans (h1 i hi ht), fun a ha => (k.readByte _).trans (h2 a ha),
    fun c a => by rw [k.scr]; exact h3 c a⟩

/-- A store from a state that holds the same bytes. -/
theorem Undisturbed.stored {pa n v : Nat} (k : Undisturbed s t) (h : Stored t u pa n v) : Stored s u pa n v := by
  obtain ⟨h1, h2, h3⟩ := h
  exact ⟨fun i hi ht => h1 i hi (by rwa [k.tierOf]), fun a ha => (h2 a ha).trans (k.readByte a), fun c a => by rw [h3, k.scr]⟩

theorem Undisturbed.leValue (k : Undisturbed s t) (pa n : Nat) : leValue t pa n = leValue s pa n := by
  simp only [Claims.leValue, k.readByte]

theorem Undisturbed.severedAt (k : Undisturbed s t) (pa : Nat) : severedAt t pa = severedAt s pa := by
  rw [k.state]
  rfl

theorem WritesGrow.undisturbed {me : Agent} {p : Nat → Prop} (h : WritesGrow s t me p) (k : Undisturbed t u) : WritesGrow s u me p := by
  obtain ⟨m, w, hl, hm, hw⟩ := h
  have ho := k.late
  rw [hl] at ho
  obtain ⟨n, v, he, hn, hv⟩ := ho.split
  refine ⟨n, v, he, hm.trans hn, fun f hf => ?_⟩
  obtain ⟨i, hi⟩ := List.getElem?_of_mem hf
  obtain ⟨e, he, hef⟩ := hv.exists_left hi
  obtain ⟨ha, hc⟩ := hw e (List.mem_of_getElem? he)
  exact ⟨hef.agent ▸ ha, hef.cells ▸ hc⟩

theorem Undisturbed.writesGrow {me : Agent} {p : Nat → Prop} (k : Undisturbed s t) (h : WritesGrow t u me p) : WritesGrow s u me p := by
  obtain ⟨m, w, hl, hm, hw⟩ := h
  exact ⟨m, w, hl, k.late.trans hm, hw⟩

end

/-! ### A group that may start nothing -/

section
variable {s : State} {c k g : Nat} {x : Ctx} {r q : Machine.Group}

/-- The descriptor after a completed one is not seen, whatever else of the group moved. -/
theorem Unseen.startable (hu : Unseen x r g) (hg : g < x.groups.length) (hst : q.pos.st = r.pos.st) (hseq : q.pos.seq = r.pos.seq)
    (hd : r.pos.st = .done) : (x.setGroup g q).startable g = none := by
  cases h : (x.setGroup g q).startable g with
  | none => rfl
  | some e =>
    obtain ⟨he, -, -, -, hseen, -⟩ := startable_eq_some.mp h
    have hq : (x.setGroup g q).group g = q := by simp [Ctx.group, Ctx.setGroup, List.getD, hg]
    have hn : nextNumber q = nextNumber r := by rw [nextNumber, nextNumber, hst, hseq]
    rw [hq, nextSeq_eq, hn] at he
    exact absurd hseen (by rw [hu hd e he]; exact Bool.false_ne_true)

theorem undisturbed_pastBoundary (s : State) (c k g : Nat) : Undisturbed s (pastBoundary s c k g) :=
  (onlyOrders_spawnsCovered s c k g).undisturbed.trans (undisturbed_setGroup _ _ _ _ _)

theorem undisturbed_settle (hi : InRange s c k) (hx : s.ctx c k = x) (hr : x.groups[g]? = some r) (hc : Calm r) (hu : Unseen x r g) :
    Undisturbed s (settle s c k g) := by
  have hgr : s.group c k g = r := by
    rw [State.group, hx]
    exact group_of_getElem? hr
  have hp := undisturbed_pastBoundary s c k g
  have hon : onward s c k g = leavesBoundary (spawnsCovered s c k g) r := by rw [onward, hgr]
  obtain ⟨-, hst, hseq, -⟩ := leavesBoundary_keeps (spawnsCovered s c k g) r
  rw [settle_calm (hgr.symm ▸ hc)]
  split
  · split
    · exact hp
    · split
      case isTrue => exact hp.trans (undisturbed_makeEligible _ c k g)
      case isFalse hdone =>
        have ho := (onlyOrders_spawnsCovered s c k g).storesOnly
        have hd : r.pos.st = .done := by simpa [hon, hst] using hdone
        have hctx : (pastBoundary s c k g).ctx c k = x.setGroup g (onward s c k g) := by
          rw [pastBoundary, State.setGroup, (hi.of_shape ho.sameShape).ctx_setCtx, ho.ctx, hx]
        have hnone : ((pastBoundary s c k g).ctx c k).startable g = none := by
          rw [hctx, hon]
          exact hu.startable (List.getElem?_eq_some_iff.mp hr).1 hst hseq hd
        rw [startVisible_none hnone]
        exact hp
  · exact undisturbed_setGroup s c k g _

theorem undisturbed_unpark (hi : InRange s c k) (hx : s.ctx c k = x) (hr : x.groups[g]? = some r) (hc : Calm r) (hu : Unseen x r g) :
    Undisturbed s (unpark s c k g) := by
  unfold unpark
  split
  · exact undisturbed_settle hi hx hr hc hu
  · exact .refl s

end

/-! ### The step -/

theorem undisturbed_gatherAt (s : State) (c : Nat) (q : SpawnRec) : Undisturbed s (gatherAt s c q) :=
  undisturbed_updCore (f := recordEntered s q) s c (recordEntered_keeps s q _).2

theorem addViews_nil (vs : List View) (n : Nat) : addViews [] vs n = vs.map (fun v => { view := v, time := n }) := by
  simp [addViews]

theorem RemoteOver.ready {r : Machine.Group} (h : RemoteOver r) : r.releaseReady = true := by
  obtain ⟨h1, h2⟩ := h
  simp only [Machine.Group.releaseReady, h1, List.isEmpty_nil, Bool.true_and, List.all_eq_true, List.isEmpty_iff]
  exact h2

theorem FirstOf.firstIssued {s : State} {c : Nat} {batch : List SpawnRec} (h : FirstOf s c batch) : firstIssued s c batch = true := by
  simp only [Machine.firstIssued, List.all_eq_true, decide_eq_true_eq]
  exact h

/-- With no faults of stores held, only the rest of the step is left. -/
theorem raiseStores_nil (s : State) (c k g : Nat) (f : State → State) : raiseStores s c k g [] f = f s := rfl

section
variable {s : State} {c k g : Nat} {x : Ctx} {r : Machine.Group} {batch : List SpawnRec}

theorem Moves.onIssuing (h : Moves s c k g x r) (f : Ctx → Machine.Group → State) : onIssuing s c k g f = .next (f x r) := by
  obtain ⟨⟨hx, hr, hg⟩, hi⟩ := h
  simp [Machine.onIssuing, onTeamGroup, hx, hg, hr, issuing_of_Issuing hi]

theorem Moves.inRange (h : Moves s c k g x r) : InRange s c k := by
  obtain ⟨⟨hx, hr, -⟩, -⟩ := h
  obtain ⟨hc, hk⟩ := resident_in_range hx hr
  exact ⟨hc, hk⟩

/-- The state once a SPAWN's release is performed and its records are no longer the group's. -/
def taken (s : State) (c k g : Nat) (batch : List SpawnRec) (f : Machine.Group → Machine.Group) : State :=
  (releaseSpawn s c k g batch).updGroup c k g f

theorem goesOn_releaseSpawn (s : State) (c k g : Nat) (batch : List SpawnRec) (h : Nat) : GoesOn s (releaseSpawn s c k g batch) c k h := by
  unfold releaseSpawn
  split
  · exact .refl s c k h
  · exact (storesOnly_flushWhere s _).goesOn.trans (.of_cores rfl rfl)

theorem sameCtxs_releaseSpawn (s : State) (c k g : Nat) (batch : List SpawnRec) : SameCtxs s (releaseSpawn s c k g batch) := by
  unfold releaseSpawn
  split
  · exact .refl s
  · exact (sameCtxs_flushWhere s _).trans (sameCtxs_release _ _ _ _ _)

theorem taken_ctx (hi : InRange s c k) (hx : s.ctx c k = x) (hr : x.groups[g]? = some r) (f : Machine.Group → Machine.Group) :
    InRange (taken s c k g batch f) c k ∧ (taken s c k g batch f).ctx c k = x.setGroup g (f r) := by
  have hs := sameCtxs_releaseSpawn s c k g batch
  have hin := hi.of_shape (goesOn_releaseSpawn s c k g batch g).shape
  have hg : (releaseSpawn s c k g batch).group c k g = r := by
    rw [hs.group, State.group, hx]
    exact group_of_getElem? hr
  refine ⟨hin.of_shape (sameShape_updGroup _ c k g f), ?_⟩
  rw [taken, State.updGroup, State.setGroup, hin.ctx_setCtx, hs.ctx, hx, hg]

/-- The group without its oldest SPAWN's records. -/
def firstTaken (r : Machine.Group) : Machine.Group := { r with spawnPend := r.spawnPend.tail }

/-- The state once a SPAWN's records are in the gatherer. -/
def accepted (s : State) (c k g : Nat) (batch : List SpawnRec) : State :=
  acceptAll (taken s c k g batch firstTaken) (grpAgent c k g .s) c batch

theorem exec_spawnRecordsAccepted {rest : List (List SpawnRec)} (h : Moves s c k g x r) (hp : r.spawnPend = batch :: rest)
    (hs : r.pos.status = .suspended .spill → rest ≠ []) (ho : RemoteOver r) (hf : FirstOf s c batch) (ha : r.async = []) :
    exec (.spawnRecordsAccepted c k g) s = .next (unpark (accepted s c k g batch) c k g) := by
  obtain ⟨l, hb⟩ : ∃ l, r.batches = batch :: l := by
    unfold Machine.Group.batches
    split
    case isTrue hst =>
      have hne := hs (by simpa using hst)
      exact ⟨rest.dropLast, by rw [hp, List.dropLast_cons_of_ne_nil hne]⟩
    case isFalse => exact ⟨rest, hp⟩
  simp only [exec, execSpawnRecordsAccepted, h.onIssuing, hb, ho.ready, hf.firstIssued, ha, raiseStores_nil]
  rfl

theorem accepted_ctx (hi : InRange s c k) (hx : s.ctx c k = x) (hr : x.groups[g]? = some r) :
    InRange (accepted s c k g batch) c k ∧ (accepted s c k g batch).ctx c k = x.setGroup g (firstTaken r) := by
  obtain ⟨hin, hctx⟩ := taken_ctx (batch := batch) hi hx hr firstTaken
  exact ⟨hin.of_shape (sameShape_acceptAll _ _ _ _), ((sameCtxs_acceptAll _ _ _ _).ctx c k).trans hctx⟩

theorem acceptAll_releases (s : State) (a : Agent) (c : Nat) (rs : List SpawnRec) : (acceptAll s a c rs).releases = s.releases := by
  unfold acceptAll
  induction rs generalizing s with
  | nil => rfl
  | cons q rs ih => exact (ih _).trans ((undisturbed_gatherAt _ c q).releases.trans (storesOnly_joinInc s a q).releases)

theorem accepted_releases {b : SpawnRec} (hb : batch.head? = some b) : (accepted s c k g batch).releases = s.releases ++
    [releasing s (.spawn b.order) [groupPath c k g .l] [.one (groupPath c k g .l)] .all] := by
  obtain ⟨l, rfl⟩ := List.head?_eq_some_iff.mp hb
  have hs : StoresOnly s (flushAgent s (grpAgent c k g .l) false) := storesOnly_flushWhere s _
  refine (acceptAll_releases _ _ _ _).trans ?_
  show (flushAgent s _ _).releases ++ _ = _
  rw [hs.releases, hs.freeCtr, addViews_nil]
  rfl

/-- The state before a SPAWN's release: its stores have left their queue. -/
def spawnFlushed (s : State) (c k g : Nat) : State := flushWhere s (fun q => q.agent == groupPath c k g .l && q.host == false)

/-- One record's increment is a write of four bytes, and the gatherer writes none. -/
theorem accepted_stores {b : SpawnRec} (hv : severedAt s b.joinPa = false) (hm : MemoryOk (spawnFlushed s c k g)) :
    Stored (spawnFlushed s c k g) (accepted s c k g [b]) b.joinPa 4 (leValue (spawnFlushed s c k g) b.joinPa 4 + 1) ∧
    WritesGrow (spawnFlushed s c k g) (accepted s c k g [b]) (groupPath c k g .s) (fun a => b.joinPa ≤ a ∧ a < b.joinPa + 4) := by
  let v := releaseSpawn s c k g [b]
  let w := taken s c k g [b] firstTaken
  have hvw : Undisturbed v w := undisturbed_setGroup _ _ _ _ _
  have hwm : MemoryOk w := ⟨Memory.wf_updCore c _ id hm.1, hm.2⟩
  have hsev : severedAt w b.joinPa = false := by
    rw [hvw.severedAt, ← hv]
    show severedAt (spawnFlushed s c k g) b.joinPa = severedAt s b.joinPa
    rw [spawnFlushed, (storesOnly_flushWhere s _).state]
    rfl
  have hj : joinInc (grpAgent c k g .s) w b = joinWrite w (grpAgent c k g .s) b.joinPa 1 := by
    rw [joinInc, hsev]
    exact if_neg Bool.false_ne_true
  have hacc : accepted s c k g [b] = gatherAt (joinWrite w (grpAgent c k g .s) b.joinPa 1) c b := by
    rw [← hj]
    rfl
  have hend := undisturbed_gatherAt (joinWrite w (grpAgent c k g .s) b.joinPa 1) c b
  have hs : Stored v (accepted s c k g [b]) b.joinPa 4 (leValue v b.joinPa 4 + 1) := by
    rw [hacc, ← hvw.leValue]
    exact hvw.stored ((stored_joinWrite hwm _ _ _).undisturbed hend)
  have hg : WritesGrow v (accepted s c k g [b]) (groupPath c k g .s) (fun a => b.joinPa ≤ a ∧ a < b.joinPa + 4) := by
    rw [hacc]
    exact hvw.writesGrow ((writesGrow_joinWrite w _ _ _).undisturbed hend)
  exact ⟨hs, hg⟩

/-- The first clause of O44: records accepted. -/
theorem recordsAccepted {rest : List (List SpawnRec)} (h : Moves s c k g x r) (hp : r.spawnPend = batch :: rest)
    (hs : r.pos.status = .suspended .spill → rest ≠ []) (ho : RemoteOver r) (hf : FirstOf s c batch) (hc : Calm r) :
    ∃ t, exec (.spawnRecordsAccepted c k g) s = .next t ∧ (t.group c k g).spawnPend = rest ∧ (∀ b ∈ batch, Gathered t c b) ∧
      (Unseen x r g → Undisturbed (accepted s c k g batch) t) := by
  refine ⟨_, exec_spawnRecordsAccepted h hp hs ho hf hc.1, ?_⟩
  have hi := h.inRange
  obtain ⟨⟨hx, -, hr⟩, -⟩ := h
  obtain ⟨hin, hctx⟩ := accepted_ctx (batch := batch) hi hx hr
  have hlt := (List.getElem?_eq_some_iff.mp hr).1
  have hgr : (accepted s c k g batch).group c k g = firstTaken r := by
    rw [State.group, hctx]
    simp [Ctx.group, Ctx.setGroup, List.getD, hlt]
  have hcalm : Calm ((accepted s c k g batch).group c k g) := hgr ▸ hc
  have hgo := goesOn_unpark hcalm
  refine ⟨?_, fun b hb => ?_, fun hu => ?_⟩
  · rw [hgo.group.pend, hgr, firstTaken, hp]
    rfl
  · have hlen : c < (taken s c k g batch firstTaken).cores.length :=
      (taken_ctx hi hx hr _).1.core
    exact (gathered_acceptAll _ hlen batch (.inr hb)).of_core (hgo.gather c) (hgo.formed c)
  · refine undisturbed_unpark (r := firstTaken r) hin hctx ?_ hc hu
    simp [Ctx.setGroup, hlt]

end

end Sys2Proof.Claims
end

