-- ==== Sys2Proof/Proofs/SpawnSpilled.lean ====
section
/-! O44, records spilled and read back: the free places of the buffer, the writes there and what they leave, and a refill (03 R97). -/

namespace Sys2Proof.Claims

open Machine

/-! ### Launches -/

section
variable {s t : State}

theorem GoesOn.launch_field {c k g : Nat} (h : GoesOn s t c k g) {α : Type} (f : Launch → α) (hf : ∀ l, f (unmarked l) = f l) (p : Nat)
    (id : W32) : (t.launch? p id).map f = (s.launch? p id).map f :=
  StoresOnly.launch_field (t := { s with launches := t.launches }) ⟨rfl, rfl, fun _ => rfl, h.launches⟩ f hf p id

theorem isLaunch_of_launch? {p : Nat} {id : W32} {l : Launch} (h : s.launch? p id = some l) : l.part = p ∧ l.id = id := by
  have hl := List.find?_some h
  simpa [isLaunch] using hl

theorem launch?_updLaunch (s : State) (p : Nat) (id : W32) {f : Launch → Launch} (hp : ∀ l, (f l).part = l.part) (hi : ∀ l, (f l).id = l.id) :
    (s.updLaunch p id f).launch? p id = (s.launch? p id).map f := by
  have hf : isLaunch p id ∘ (fun l => if isLaunch p id l then f l else l) = isLaunch p id := by
    funext l
    simp only [Function.comp_apply]
    split
    · simp only [isLaunch, hp, hi]
    · rfl
  rw [State.launch?, State.updLaunch, List.find?_map, hf, State.launch?]
  cases h : s.launches.find? (isLaunch p id) with
  | none => rfl
  | some l =>
    have hl := List.find?_some h
    simp [hl]

/-- The records of a launch in its spill buffer. -/
def recordsOf (l : Launch) : List SpawnRec := l.spilled.map (·.record)

theorem recordsOf_unmarked (l : Launch) : recordsOf (unmarked l) = recordsOf l := by
  rw [recordsOf, unmarked, List.map_map]
  rfl

theorem StoresOnly.checkAccess (h : StoresOnly s t) (p a : Nat) (k : Kind) (path : Nat) (va : W64) (n : Nat) (b : Bool) :
    checkAccess t p a k path va n b = checkAccess s p a k path va n b := by
  rw [h.state]
  rfl

end

/-! ### Free places -/

/-- At most as many places are taken as the buffer holds records. -/
theorem length_taken_le (l : Launch) (n : Nat) :
    ((List.range n).filter (fun i => l.spilled.any (fun r => r.slot == i))).length ≤ l.spilled.length := by
  have hsub : (List.range n).filter (fun i => l.spilled.any (fun r => r.slot == i)) ⊆ l.spilled.map (·.slot) := by
    intro i hi
    obtain ⟨r, hr, he⟩ := List.any_eq_true.mp (List.mem_filter.mp hi).2
    exact List.mem_map.mpr ⟨r, hr, by simpa using he⟩
  have hle := ((List.nodup_range.filter _).subperm hsub).length_le
  rwa [List.length_map] at hle

theorem length_freeSlots (l : Launch) (n : Nat) : (freeSlots l 0 n).length = n := by
  have htaken := length_taken_le l (l.spilled.length + 0 + n)
  have hsum := (List.length_eq_length_filter_add (l := List.range (l.spilled.length + 0 + n)) (fun i => l.spilled.any (fun r => r.slot == i)))
  rw [List.length_range] at hsum
  rw [freeSlots, List.drop_zero, List.length_take]
  omega

/-! ### The writes -/

/-- t is s but for bytes, with records added to those of one launch in the buffer. -/
structure Spills (s t : State) (p : Nat) (id : W32) (rs : List SpawnRec) : Prop where
  ctxs : SameCtxs s t
  shape : SameShape s t
  records : (t.launch? p id).map recordsOf = (s.launch? p id).map (fun l => recordsOf l ++ rs)

section
variable {s : State} {a : Agent} {l : Launch} {c : Nat}

theorem Spills.of_storesOnly {t : State} (h : StoresOnly s t) (p : Nat) (id : W32) : Spills s t p id [] :=
  ⟨h.sameCtxs, h.sameShape, by simpa using h.launch_field recordsOf recordsOf_unmarked p id⟩

theorem Spills.trans {t u : State} {p : Nat} {id : W32} {rs qs : List SpawnRec} (h : Spills s t p id rs) (k : Spills t u p id qs) :
    Spills s u p id (rs ++ qs) := by
  refine ⟨h.ctxs.trans k.ctxs, h.shape.trans k.shape, ?_⟩
  have hm (o : Option Launch) (qs : List SpawnRec) : o.map (fun l => recordsOf l ++ qs) = (o.map recordsOf).map (· ++ qs) := by
    cases o <;> rfl
  rw [k.records, hm, h.records, hm, hm, Option.map_map]
  congr 1
  funext r
  exact List.append_assoc _ _ _

/-- A launch with one more record in its buffer. -/
def withSpill (n c slot : Nat) (r : SpawnRec) (l : Launch) : Launch :=
  { l with spilled := l.spilled ++ [{ core := c, slot := slot, record := r, order := n, overwritten := false }] }

/-- A record noted in the buffer. -/
def noteSpill (s : State) (l : Launch) (c slot : Nat) (r : SpawnRec) : State :=
  { s.updLaunch l.part l.id (withSpill s.stamp c slot r) with stamp := s.stamp + 1 }

/-- A record's bytes in the buffer, free, and the event of the write. -/
def spillBytes (s : State) (a : Agent) (slot pa : Nat) : State :=
  let t := writePhys s pa ((List.range 32).map (fun i => fld (s.free 15 (32 * slot + i)) 0 8))
  if inHost t pa then t else { t with late := t.late ++ [newLate s a s.freeCtr false [] none (span pa 32)] }

theorem storesOnly_spillBytes (s : State) (a : Agent) (slot pa : Nat) : StoresOnly s (spillBytes s a slot pa) := by
  unfold spillBytes
  dsimp only
  split
  · exact storesOnly_writePhys s _ _
  · exact (storesOnly_writePhys s _ _).trans (.of_eq rfl)

theorem spills_noteSpill (s : State) (l : Launch) (c slot : Nat) (r : SpawnRec) : Spills s (noteSpill s l c slot r) l.part l.id [r] := by
  refine ⟨.of_cores rfl rfl, .of_cores rfl, ?_⟩
  refine (congrArg (Option.map recordsOf)
    (launch?_updLaunch (f := withSpill s.stamp c slot r) s l.part l.id (fun _ => rfl) (fun _ => rfl))).trans ?_
  rw [Option.map_map]
  congr 1
  funext m
  simp [recordsOf, withSpill]

/-- A record is written where its check passes. -/
theorem spillWrites_cons {slot pa : Nat} {r : SpawnRec} {rest : List (Nat × SpawnRec)}
    (h : checkAccess s l.part l.asid .sp pathS (l.spillBase + BitVec.ofNat 64 (32 * slot)) 1 false = .ok pa) :
    spillWrites s a l c ((slot, r) :: rest) = spillWrites (noteSpill (spillBytes s a slot pa) l c slot r) a l c rest := by
  rw [spillWrites, h]
  rfl

theorem spillWrites_ok (ps : List (Nat × SpawnRec)) (h : ∀ p ∈ ps, ∃ pa,
    checkAccess s l.part l.asid .sp pathS (l.spillBase + BitVec.ofNat 64 (32 * p.1)) 1 false = .ok pa) :
    ∃ t, spillWrites s a l c ps = .ok t ∧ Spills s t l.part l.id (ps.map (·.2)) := by
  induction ps generalizing s with
  | nil => exact ⟨s, rfl, .of_storesOnly (.refl s) _ _⟩
  | cons p ps ih =>
    obtain ⟨slot, r⟩ := p
    obtain ⟨pa, hpa⟩ := h _ List.mem_cons_self
    have hb := storesOnly_spillBytes s a slot pa
    have hw : Spills s (noteSpill (spillBytes s a slot pa) l c slot r) l.part l.id [r] :=
      (Spills.of_storesOnly hb _ _).trans (spills_noteSpill _ l c slot r)
    obtain ⟨t, ht, hsp⟩ := ih (s := noteSpill (spillBytes s a slot pa) l c slot r) fun p hp => by
      obtain ⟨pa', hpa'⟩ := h p (List.mem_cons_of_mem _ hp)
      exact ⟨pa', (hb.checkAccess ..).trans hpa'⟩
    exact ⟨t, (spillWrites_cons hpa).trans ht, hw.trans hsp⟩

end

/-! ### The step -/

section
variable {s : State} {c k g : Nat} {x : Ctx} {r : Machine.Group} {batch : List SpawnRec} {l : Launch}

/-- The group without its SPAWN's records. -/
def allTaken (r : Machine.Group) : Machine.Group := { r with spawnPend := [] }

theorem checkAccess_taken (f : Machine.Group → Machine.Group) (p a : Nat) (kd : Kind) (path : Nat) (va : W64) (n : Nat) (b : Bool) :
    checkAccess (taken s c k g batch f) p a kd path va n b = checkAccess s p a kd path va n b := by
  cases batch with
  | nil => rfl
  | cons q qs => exact (storesOnly_flushWhere s (fun q => q.agent == grpAgent c k g .l && q.host == false)).checkAccess ..

/-- The state once a spilled SPAWN's join counters have risen, and the group is Eligible. -/
def counted (s : State) (c k g : Nat) (batch : List SpawnRec) : State := makeEligible (batch.foldl (joinInc (grpAgent c k g .s)) s) c k g

theorem exec_spillWriteComplete {t : State} (h : Moves s c k g x r) (hp : r.spawnPend = [batch]) (hs : r.pos.status = .suspended .spill)
    (ho : RemoteOver r) (hf : FirstOf s c batch) (hl : x.launch? s = some l) (ha : r.async = [])
    (hw : spillWrites (taken s c k g batch allTaken) (grpAgent c k g .s) l c ((freeSlots l 0 batch.length).zip batch) = .ok t) :
    exec (.spillWriteComplete c k g) s = .next (passOver (counted t c k g batch) c k g) := by
  have hw' : spillWrites ((releaseSpawn s c k g batch).updGroup c k g (fun r => { r with spawnPend := [] })) (grpAgent c k g .s) l c
      ((freeSlots l 0 batch.length).zip batch) = .ok t := hw
  simp only [exec, execSpillWriteComplete, h.onIssuing, hp, hl, hs, ho.ready, hf.firstIssued, hw', ha, raiseStores_nil]
  rfl

theorem goesOn_counted (s : State) (c k g : Nat) (batch : List SpawnRec) : GoesOn s (counted s c k g batch) c k g :=
  (StoresOnly.foldl (fun s q => storesOnly_joinInc s _ q) batch s).goesOn.trans (goesOn_makeEligible _ c k g)

theorem counted_awake (hi : InRange s c k) (hr : (s.ctx c k).groups[g]? = some r) :
    ((counted s c k g batch).group c k g).pos.status = .eligible := by
  have hs := StoresOnly.foldl (fun s q => storesOnly_joinInc s (grpAgent c k g .s) q) batch s
  have hin := hi.of_shape hs.sameShape
  rw [counted, group_makeEligible hin.core hin.ctx (r := r) (by rw [hs.ctx]; exact hr)]
  rfl

/-- The second clause of O44: records spilled. -/
theorem recordsSpilled (h : Moves s c k g x r) (hp : r.spawnPend = [batch]) (hs : r.pos.status = .suspended .spill)
    (ho : RemoteOver r) (hf : FirstOf s c batch) (hl : x.launch? s = some l) (hc : Calm r)
    (hok : ∀ slot ∈ freeSlots l 0 batch.length,
      ∃ pa, checkAccess s l.part l.asid .sp pathS (l.spillBase + BitVec.ofNat 64 (32 * slot)) 1 false = .ok pa) :
    ∃ t l', exec (.spillWriteComplete c k g) s = .next t ∧ (t.group c k g).spawnPend = [] ∧
      (t.group c k g).pos.status ≠ .suspended .spill ∧
      t.launch? x.part x.launch = some l' ∧ l'.spilled.map (·.record) = l.spilled.map (·.record) ++ batch := by
  have hi := h.inRange
  obtain ⟨hpart, hid⟩ := isLaunch_of_launch? hl
  obtain ⟨t, ht, hsp⟩ := spillWrites_ok (s := taken s c k g batch allTaken) (a := grpAgent c k g .s) (c := c)
    ((freeSlots l 0 batch.length).zip batch) fun p hp => by
      obtain ⟨pa, hpa⟩ := hok p.1 (List.of_mem_zip hp).1
      exact ⟨pa, (checkAccess_taken ..).trans hpa⟩
  have hex := exec_spillWriteComplete h hp hs ho hf hl hc.1 ht
  obtain ⟨⟨hx, -, hr⟩, -⟩ := h
  obtain ⟨hin, hctx⟩ := taken_ctx (batch := batch) hi hx hr allTaken
  have hlt := (List.getElem?_eq_some_iff.mp hr).1
  have htr : (t.ctx c k).groups[g]? = some (allTaken r) := by
    rw [hsp.ctxs.ctx, hctx]
    simp [Ctx.setGroup, hlt]
  have htg : t.group c k g = allTaken r := group_of_getElem? htr
  have hcount := goesOn_counted t c k g batch
  have hpass := goesOn_passOver (hcount.group.calm (htg ▸ hc))
  have hrec : ((passOver (counted t c k g batch) c k g).launch? x.part x.launch).map recordsOf = some (recordsOf l ++ batch) := by
    have hzip : ((freeSlots l 0 batch.length).zip batch).map (·.2) = batch := List.map_snd_zip (by rw [length_freeSlots])
    have hstart : ((taken s c k g batch allTaken).launch? x.part x.launch).map recordsOf = some (recordsOf l) := by
      refine ((goesOn_releaseSpawn s c k g batch g).launch_field recordsOf recordsOf_unmarked _ _).trans ?_
      rw [show s.launch? x.part x.launch = some l from hl]
      rfl
    have hspill := hsp.records
    rw [hzip, hpart, hid] at hspill
    rw [(hcount.trans hpass).launch_field recordsOf recordsOf_unmarked, hspill]
    obtain ⟨m, hm, hmr⟩ := Option.map_eq_some_iff.mp hstart
    rw [hm, ← hmr]
    rfl
  obtain ⟨l', hl', hrl⟩ := Option.map_eq_some_iff.mp hrec
  refine ⟨_, l', hex, ?_, ?_, hl', hrl⟩
  · rw [(hcount.trans hpass).group.pend, htg]
    rfl
  · refine hpass.group.awake ?_
    rw [counted_awake (hin.of_shape hsp.shape) htr]
    exact GStatus.noConfusion

/-! ### A refill -/

/-- A launch without a record of its buffer. -/
def withoutSpill (n : Nat) (l : Launch) : Launch := { l with spilled := l.spilled.filter (fun y => y.order != n) }

theorem leaveSpilling_keeps (s : State) (c : Nat) : (leaveSpilling s c).launches = s.launches ∧
    ((leaveSpilling s c).core c).gather = (s.core c).gather ∧ ((leaveSpilling s c).core c).formed = (s.core c).formed := by
  unfold leaveSpilling
  split
  · exact ⟨rfl, rfl, rfl⟩
  · refine ⟨rfl, ?_, ?_⟩ <;> rw [core_updCore] <;> split <;> rfl

theorem setChildRes_keeps (s : State) (c d : Nat) (v : Option (Nat × Nat × Nat)) :
    ((s.updCore c (fun co => { co with childRes := v })).core d).gather = (s.core d).gather ∧
    ((s.updCore c (fun co => { co with childRes := v })).core d).formed = (s.core d).formed := by
  rw [core_updCore]
  split
  case isTrue h => exact ⟨by rw [h.1], by rw [h.1]⟩
  case isFalse => exact ⟨rfl, rfl⟩

theorem releaseReservation_keeps (s : State) (c d : Nat) : (releaseReservation s c).launches = s.launches ∧
    ((releaseReservation s c).core d).gather = (s.core d).gather ∧ ((releaseReservation s c).core d).formed = (s.core d).formed := by
  unfold releaseReservation
  dsimp only
  split
  · exact ⟨rfl, setChildRes_keeps s c d _⟩
  · exact ⟨rfl, setChildRes_keeps s c d _⟩

/-- The third clause of O44: a record read back. -/
theorem recordRefilled {q : SpillRec} {pa : Nat} (hc : c < s.cores.length) (ho : oldestSpill s c = some (l, q)) (hw : q.overwritten = false)
    (hg : gatherLoad s c < 4096) (hl : s.launch? l.part l.id = some l)
    (hok : checkAccess s l.part l.asid .sp pathS (l.spillBase + BitVec.ofNat 64 (32 * q.slot)) 1 false = .ok pa)
    (he : q.record.entry ∈ l.img.entries) :
    ∃ t l', exec (.gathererRefill c) s = .next t ∧ Gathered t c q.record ∧ t.launch? l.part l.id = some l' ∧
      l'.spilled = l.spilled.filter (fun o => decide (o.order ≠ q.order)) := by
  let u := s.updLaunch l.part l.id (withoutSpill q.order)
  have hback : q.readBack s = q.record := by rw [SpillRec.readBack, hw]; rfl
  have hex : exec (.gathererRefill c) s = .next (releaseReservation (leaveSpilling (gatherAt u c q.record) c) c) := by
    simp only [exec, execGathererRefill, ho, if_neg (Nat.not_le.mpr hg), hok, hback, List.contains_iff_mem.mpr he]
    rfl
  obtain ⟨h1, h2, h3⟩ := leaveSpilling_keeps (gatherAt u c q.record) c
  obtain ⟨k1, k2, k3⟩ := releaseReservation_keeps (leaveSpilling (gatherAt u c q.record) c) c c
  have hheld : Gathered (gatherAt u c q.record) c q.record := gathered_gatherAt hc (.inr rfl)
  refine ⟨_, withoutSpill q.order l, hex, hheld.of_core (k2.trans h2) (k3.trans h3), ?_, ?_⟩
  · have hu : u.launch? l.part l.id = some (withoutSpill q.order l) := by
      rw [launch?_updLaunch (f := withoutSpill q.order) s _ _ (fun _ => rfl) (fun _ => rfl), hl]
      rfl
    rw [State.launch?, k1, h1]
    exact hu
  · refine List.filter_congr fun o _ => ?_
    simp [bne, Bool.beq_eq_decide_eq]

end

end Sys2Proof.Claims
end

