-- ==== Sys2Proof/Proofs/SpawnedRecords.lean ====
section
/-! O44: partial sequences form when the gatherer is idle, a formed team starts, and the obligation (03 R92, R94, R99, 08 R220). -/

namespace Sys2Proof.Claims

open Machine

/-! ### An idle gatherer -/

section
variable {s : State} {c : Nat}

/-- The fourth clause of O44: partial sequences form. -/
theorem partialsForm (hc : c < s.cores.length) : ∃ t, exec (.gathererIdleTimeout c) s = .next t ∧
    (∀ r ∈ (s.core c).gather, Gathered t c r) ∧ ∀ r ∈ (t.core c).gather, forming s r.part r.launch = false := by
  have hcore : (s.updCore c (fun co => formPartials co (fun r => forming s r.part r.launch))).core c =
      formPartials (s.core c) (fun r => forming s r.part r.launch) := by rw [core_updCore, if_pos ⟨rfl, hc⟩]
  refine ⟨_, rfl, fun r hr => ?_, fun r hr => ?_⟩
  · rw [gathered_iff, hcore]
    exact holds_formPartials (.inl hr)
  · rw [hcore] at hr
    exact formPartials_gather hr

end

/-! ### A child team -/

theorem le_foldl_max {l : List Nat} {a n : Nat} (h : n ≤ a ∨ n ∈ l) : n ≤ l.foldl max a := by
  induction l generalizing a with
  | nil => simpa using h
  | cons b l ih =>
    refine ih ?_
    rcases h with h | h
    · exact .inl (Nat.le_trans h (Nat.le_max_left a b))
    · refine (List.mem_cons.mp h).imp_left fun hb => ?_
      rw [hb]
      exact Nat.le_max_right a b

section
variable {s : State} {l : Launch} {c k b : Nat} {rs : List SpawnRec}

theorem childTeam_masks (s : State) (l : Launch) (c k b : Nat) (rs : List SpawnRec) :
    (∀ i, i < 1024 → (childTeam s l c k b rs).strm.active.getLsbD i = decide (i < rs.length)) ∧
    (childTeam s l c k b rs).mask 0 = (childTeam s l c k b rs).strm.active := ⟨fun _ hi => getLsbD_lowMask hi, rfl⟩

/-- Each lane has its record's payload. -/
theorem childTeam_payload (s : State) (l : Launch) (c k b : Nat) (h32 : rs.length ≤ 32) {i j : Nat} {r : SpawnRec} {p : W32}
    (hr : rs[i]? = some r) (hp : r.payload[j]? = some p) (hj : j < l.img.n) :
    ∃ v, ((childTeam s l c k b rs).group 0).vregs[j]? = some v ∧ v[i]? = some ((p.zeroExtend 36 : Elem)) := by
  have hi : i < 32 := Nat.lt_of_lt_of_le (List.getElem?_eq_some_iff.mp hr).1 h32
  have hmax : j < (rs.map (fun r => r.payload.length)).foldl max 0 :=
    Nat.lt_of_lt_of_le (List.getElem?_eq_some_iff.mp hp).1
      (le_foldl_max (.inr (List.mem_map.mpr ⟨r, List.mem_of_getElem? hr, rfl⟩)))
  refine ⟨payloadReg rs j, ?_, ?_⟩
  · have hv : (indexed (Machine.Group.fresh l.img.n l.img.q 0).vregs)[j]? = some (j, VReg.zero) := by
      rw [getElem?_indexed]
      simp [Machine.Group.fresh, hj]
    show ((indexed (Machine.Group.fresh l.img.n l.img.q 0).vregs).map _)[j]? = _
    rw [List.getElem?_map, hv, Option.map_some]
    exact congrArg some (if_pos hmax)
  · simp [payloadReg, hi, hr, List.getD, hp]

/-- The state once a core's one formed team has taken context k. -/
def seated (s : State) (l : Launch) (c k b : Nat) (rs : List SpawnRec) : State :=
  let s := s.updCore c (fun co => { co with formed := co.formed.eraseIdx 0 })
  s.setCtx c k (childTeam s l c k b rs)

/-- The releases of a team's SPAWN words. -/
def ofSpawns (rs : List SpawnRec) (r : Release) : Bool :=
  match r.link with
  | .spawn o => rs.any (fun r => r.order == o)
  | _ => false

/-- The state once the team has acquired. -/
def joined (s : State) (l : Launch) (c k b : Nat) (rs : List SpawnRec) : State :=
  refresh (acquire (seated s l c k b rs) c (ofSpawns rs) [.team c k]) true [.team c k]

theorem exec_childTeamStart (hf : (s.core c).formed = [rs]) (hne : rs ≠ [])
    (hl : ∀ r ∈ rs, s.launch? r.part r.launch = some l) (hst : l.status = .placed) (hp : ∀ r ∈ rs, powerStopped s r.part = false) (hpl : childPlace (s.core c) l.img.n = some (k, b)) :
    exec (.childTeamStart c) s = .next (releaseReservation (joined s l c k b rs) c) := by
  obtain ⟨r, q, rfl⟩ := List.exists_cons_of_ne_nil hne
  have hr := hl r List.mem_cons_self
  have hfirst : (indexed (s.core c).formed).find? (fun f => f.2.any (fun r => forming s r.part r.launch)) = some (0, r :: q) := by
    rw [hf]
    simp [indexed, forming, hr, hst]
  have hseat (cs : List Nat) : childCore s l.img.n (c :: cs) = some (c, k, b) := by simp [childCore, hpl]
  simp only [exec, execChildTeamStart, hfirst, List.head?_cons, Option.bind_some, hr, Option.map_some, hp r List.mem_cons_self,
    Bool.false_eq_true, if_false, hseat]
  rfl

theorem seated_core (hc : c < s.cores.length) (hk : k < (s.core c).ctxs.length) (hf : (s.core c).formed = [rs]) :
    (∃ u, (seated s l c k b rs).ctx c k = childTeam u l c k b rs) ∧ ((seated s l c k b rs).core c).formed = [] := by
  let u := s.updCore c (fun co => { co with formed := co.formed.eraseIdx 0 })
  have hi : InRange u c k := (InRange.mk hc hk).of_shape (sameShape_updCore s c rfl)
  refine ⟨⟨u, hi.ctx_setCtx _⟩, ?_⟩
  have hu : (u.core c).formed = [] := by
    rw [core_updCore, if_pos ⟨rfl, hc⟩]
    simp [hf]
  rw [seated, State.setCtx, core_updCore, if_pos ⟨rfl, hi.core⟩]
  exact hu

theorem onlyOrders_joined (s : State) (l : Launch) (c k b : Nat) (rs : List SpawnRec) :
    OnlyOrders (seated s l c k b rs) (joined s l c k b rs) := (onlyOrders_acquire _ _ _ _).trans (onlyOrders_refresh _ _ _)

theorem team_has {a : Agent} (ha : a.of c k = true) : (View.team c k).has a = true := ha

/-- The team acquires what its records' SPAWN words released, and reads memory anew (08 R215, R220). -/
theorem covers_joined {a : Agent} (ha : a.of c k = true) :
    Covers s (joined s l c k b rs) (Released s (fun l => ∃ r ∈ rs, l = .spawn r.order) c) a ∧ Covers s (joined s l c k b rs) InMemory a := by
  let u := acquire (seated s l c k b rs) c (ofSpawns rs) [.team c k]
  have hu : OnlyOrders (seated s l c k b rs) u := onlyOrders_acquire _ _ _ _
  have hv : View.team c k ∈ [View.team c k] := List.mem_singleton_self _
  constructor
  · have hacq : Covers (seated s l c k b rs) u (Released (seated s l c k b rs) (fun l => ∃ r ∈ rs, l = .spawn r.order) c) a := by
      refine covers_acquire hv (team_has ha) fun q _ hq => ?_
      obtain ⟨r, hr, he⟩ := hq
      simp only [ofSpawns, he]
      exact List.any_eq_true.mpr ⟨r, hr, beq_self_eq_true _⟩
    exact hacq.mono (onlyOrders_refresh u true [.team c k])
  · have hmem : Covers u (joined s l c k b rs) InMemory a :=
      covers_acquireWhere hv (team_has ha) fun e _ he => by simp [he.1, he.2]
    refine Covers.of_grows (t := u) (.of_orders hu.2) hmem fun e f hef he => ?_
    exact ⟨hef.scratch ▸ he.1, hef.cells ▸ he.2⟩

theorem releaseReservation_late (s : State) (c : Nat) : (releaseReservation s c).late = s.late := by
  unfold releaseReservation
  dsimp only
  split <;> rfl

theorem Covers.of_late {s t u : State} {p : Late → Prop} {a : Agent} (h : Covers s t p a) (hl : u.late = t.late) : Covers s u p a := by
  intro i e f he hf
  rw [hl] at hf
  exact h i e f he hf

/-- The last clause of O44: a formed team starts. -/
theorem childStarts (hf : (s.core c).formed = [rs]) (hne : rs ≠ [])
    (hl : ∀ r ∈ rs, s.launch? r.part r.launch = some l) (hst : l.status = .placed)
    (hp : ∀ r ∈ rs, powerStopped s r.part = false)
    (hpl : childPlace (s.core c) l.img.n = some (k, b)) (hc : c < s.cores.length) (hk : k < (s.core c).ctxs.length) :
    ∃ t u, exec (.childTeamStart c) s = .next t ∧ t.ctx c k = childTeam u l c k b rs ∧ (t.core c).formed = [] ∧
      ∀ a : Agent, a.of c k = true →
        Covers s t (Released s (fun l => ∃ r ∈ rs, l = .spawn r.order) c) a ∧ Covers s t InMemory a := by
  obtain ⟨⟨u, hu⟩, hnone⟩ := seated_core (l := l) (b := b) hc hk hf
  have ho := (onlyOrders_joined s l c k b rs).storesOnly
  have hrel := sameCtxs_releaseReservation (joined s l c k b rs) c
  have hlate := releaseReservation_late (joined s l c k b rs) c
  refine ⟨_, u, exec_childTeamStart hf hne hl hst hp hpl, ?_, ?_, fun a ha => ?_⟩
  · rw [hrel.ctx, ho.ctx, hu]
  · rw [(releaseReservation_keeps _ c c).2.2, ho.core c]
    exact hnone
  · obtain ⟨h1, h2⟩ := covers_joined (s := s) (l := l) (b := b) (rs := rs) ha
    exact ⟨h1.of_late hlate, h2.of_late hlate⟩

end

/-- Settles O44: each of the five steps does what its clause says. -/
theorem spawnedRecordsMove : Obligations.SpawnedRecordsMove := by
  intro s c hc
  refine ⟨?_, ?_, ?_, partialsForm hc, ?_⟩
  · intro k g x r batch rest hM hp hs ho hf hcalm
    obtain ⟨t, ht, hpend, hheld, hquiet⟩ := recordsAccepted hM hp hs ho hf hcalm
    refine ⟨t, ht, hpend, hheld, fun b hb hu => ?_, fun b hb hv hm hu => ?_⟩
    · rw [(hquiet hu).releases, accepted_releases hb]
    · subst hb
      obtain ⟨h1, h2⟩ := accepted_stores hv hm
      exact ⟨h1.undisturbed (hquiet hu), h2.undisturbed (hquiet hu)⟩
  · intro k g x r batch l hM hp hs ho hf hl hcalm hok
    exact recordsSpilled hM hp hs ho hf hl hcalm hok
  · intro l r pa ho hw hg _ hone hok he
    have hl : s.launch? l.part l.id = some l := by
      rw [State.launch?, ← List.head?_filter]
      exact congrArg List.head? hone
    exact recordRefilled hc ho hw hg hl hok he
  · intro rs l k ls hf hne h32 hl hst hp hpl hk
    obtain ⟨t, u, ht, hctx, hnone, hcov⟩ := childStarts hf hne hl hst hp hpl hc hk
    obtain ⟨hact, hmask⟩ := childTeam_masks u l c k ls rs
    refine ⟨t, _, ht, hctx, hnone, rfl, rfl, hcov, rfl, rfl, rfl, ?_, rfl, rfl, ⟨_, rfl, rfl, rfl, fun r hr => ?_⟩, hact, hmask, rfl,
      fun i j r p hr hp hj => childTeam_payload u l c k ls h32 hr hp hj⟩
    · cases rs with
      | nil => exact absurd rfl hne
      | cons r rs => rfl
    · exact le_foldl_max (.inr (List.mem_map.mpr ⟨r, hr, rfl⟩))

end Sys2Proof.Claims
end

