-- ==== Sys2Proof/Proofs/Triggers.lean ====
section
/-! O20: KTRIG, KWAIT and JWAIT, what they wait for and what they release and acquire (03 R100, 04 R116, R117, 08 R220, R222). -/

namespace Sys2Proof.Claims

open Machine

/-! ### Orders and the acting context -/

section
variable (s : State) (y : Ctx)

theorem acquireWhere_setMe (p : Late → Bool) (vs : List View) : acquireWhere (s.setMe y) p vs = (acquireWhere s p vs).setMe y := by
  unfold acquireWhere
  rw [State.setMe_late]
  split <;> rfl

theorem acquire_setMe (c : Nat) (p : Release → Bool) (vs : List View) : acquire (s.setMe y) c p vs = (acquire s c p vs).setMe y :=
  acquireWhere_setMe s y _ vs

theorem refresh_setMe (wide : Bool) (vs : List View) : refresh (s.setMe y) wide vs = (refresh s wide vs).setMe y := by
  unfold refresh
  split
  · exact acquireWhere_setMe s y _ vs
  · rfl

theorem noteRead_setMe (o : Agent) (n : Nat) (sc : Option Nat) (as_ : List Nat) :
    noteRead (s.setMe y) o n sc as_ = (noteRead s o n sc as_).setMe y := by
  unfold noteRead
  rw [State.setMe_late]
  split <;> rfl

end

/-! ### What an acquire at device scope covers (07 R193, 08 R215, R219) -/

theorem Further.inMemory {e f : Late} (h : Further e f) (he : InMemory e) : InMemory f := ⟨h.scratch ▸ he.1, h.cells ▸ he.2⟩

/-- A refresh after orders covers every write of memory. -/
theorem OnlyOrders.covers_refresh {s t : State} (h : OnlyOrders s t) {vs : List View} {v : View} {a : Agent} (hv : v ∈ vs)
    (ha : v.has a = true) : Covers s (refresh t true vs) InMemory a :=
  Covers.of_grows (.of_orders h.2) (covers_acquireWhere (s := t) hv ha fun _ _ he => by simp [he.1, he.2]) fun _ _ hef => hef.inMemory

section
variable {s : State} {x : Ctx}

theorem own_has (s : State) (p : Path) : (View.one (ctxAgent s.cur.core s.cur.ctx p)).has (myPath s p) = true :=
  beq_self_eq_true (myPath s p)

/-! ### KTRIG (04 R116, R117) -/

/-- A launch after a team of a cluster has set its trigger. -/
def withTrigger (cluster team : Nat) (l : Launch) : Launch :=
  { l with placed := modifyAt l.placed cluster (fun c => { c with triggers := c.triggers.set team true }) }

/-- KTRIG's release, the team's stores having left their queues. -/
def triggerReleased (s : State) (x : Ctx) : State := { teamFlush s with releases := (teamFlush s).releases ++ [kernelRelease s x] }

theorem releaseTrigger_eq (s : State) (x : Ctx) : releaseTrigger s x s.cur.core s.cur.ctx = triggerReleased s x := by
  rw [triggerReleased, kernelRelease, releasing, ← show (teamFlush s).freeCtr = s.freeCtr from (storesOnly_flushWhere s _).freeCtr]
  rfl

theorem sameCtxs_triggerReleased (s : State) (x : Ctx) : SameCtxs s (triggerReleased s x) :=
  SameCtxs.trans (t := teamFlush s) (sameCtxs_flushWhere s _) (.of_cores rfl rfl)

/-- The state after a KTRIG that sets its team's trigger. -/
def triggerSet (s : State) (x : Ctx) : State :=
  ((triggerReleased s x).updLaunch x.part x.launch (withTrigger x.cluster x.team)).setMe (retired { x with trigger := true } (x.pc + 1))

theorem triggerSet_mine (h : s.me? = some x) : mine (triggerSet s x) = retired { x with trigger := true } (x.pc + 1) := by
  have hk := sameCtxs_triggerReleased s x
  rw [mine, triggerSet, State.setMe_cur, State.updLaunch_cur, hk.cur]
  exact (hk.trans (sameCtxs_updLaunch _ _ _ _)).ctx_setMe h _

theorem sameBytes_triggerSet (s : State) (x : Ctx) : SameBytes (teamFlush s) (triggerSet s x) := by
  have hset := sameBytes_setMe ((triggerReleased s x).updLaunch x.part x.launch (withTrigger x.cluster x.team))
    (retired { x with trigger := true } (x.pc + 1))
  have hmem (a : Nat) : readByte ((triggerReleased s x).updLaunch x.part x.launch (withTrigger x.cluster x.team)) a =
      readByte (teamFlush s) a := readByte_congr a rfl rfl rfl rfl rfl
  exact ⟨fun a => (hset.1 a).trans (hmem a), hset.2⟩

/-- Beside the stores that have left, KTRIG adds its release and no event. -/
theorem triggerSet_events (s : State) (x : Ctx) : (triggerSet s x).queue = (teamFlush s).queue ∧
    (triggerSet s x).late = (teamFlush s).late ∧ (triggerSet s x).releases = (teamFlush s).releases ++ [kernelRelease s x] := by
  simp [triggerSet, triggerReleased]

theorem triggerSet_placed {l : Launch} {cl : Cluster} (hl : (teamFlush s).launch? x.part x.launch = some l)
    (hc : l.placed[x.cluster]? = some cl) :
    (triggerSet s x).launch? x.part x.launch = some (withTrigger x.cluster x.team l) ∧
      (withTrigger x.cluster x.team l).placed[x.cluster]? = some { cl with triggers := cl.triggers.set x.team true } := by
  constructor
  · have hu := launch?_updLaunch (f := withTrigger x.cluster x.team) (teamFlush s) x.part x.launch (fun _ => rfl) (fun _ => rfl)
    rw [hl] at hu
    exact hu
  · rw [withTrigger, getElem?_modifyAt, if_pos rfl, hc]
    rfl

theorem ktrigReady_iff : (x.strm.blockQ.isEmpty && storesDone x && readsDone x) = true ↔
    x.strm.blockQ = [] ∧ StoresAcked x ∧ ReadsDone x := by
  rw [Bool.and_eq_true, Bool.and_eq_true, List.isEmpty_iff, storesDone_iff, readsDone_iff, and_assoc]

/-- KTRIG outside a routine, once its release's work is done. -/
theorem exec_ktrig_ready (h : s.me? = some x) (hm : x.mode = .user) (hq : x.strm.blockQ = []) (hs : StoresAcked x) (hr : ReadsDone x) :
    exec .ktrig s = .next (if x.child.isSome || x.trigger then s.setMe (retired x (x.pc + 1)) else triggerSet s x) := by
  have hpriv : ¬ x.priv = true := by simp [Ctx.priv, hm]
  simp only [exec]
  rw [execKtrig, onCtx_some _ h, if_neg hpriv, if_pos (ktrigReady_iff.mpr ⟨hq, hs, hr⟩), releaseTrigger_eq]
  split <;> rfl

theorem exec_ktrig_waits (h : s.me? = some x) (hm : x.mode = .user)
    (hn : x.strm.blockQ ≠ [] ∨ ¬ StoresAcked x ∨ ¬ ReadsDone x) : exec .ktrig s = .next (s.setMe (waiting x .ktrig)) := by
  have hpriv : ¬ x.priv = true := by simp [Ctx.priv, hm]
  have hready : ¬ (x.strm.blockQ.isEmpty && storesDone x && readsDone x) = true := by
    rw [ktrigReady_iff]
    tauto
  simp only [exec]
  rw [execKtrig, onCtx_some _ h, if_neg hpriv, if_neg hready]
  rfl

/-- A privileged word's cause PRIVOP in a routine ends the team (10 R273, R285). -/
theorem trapHere_routine (h : s.me? = some x) (hm : x.mode ≠ .user) : 
    trapHere s x cPRIVOP = terminate s s.cur.core s.cur.ctx 0x025 0x026 := by
  rw [trapHere, ctrlTrap, takeTrap_routine _ ((State.ctx_of_me? h).symm ▸ hm)]
  rfl

theorem exec_ktrig_routine (h : s.me? = some x) (hm : x.mode ≠ .user) :
    exec .ktrig s = .next (terminate s s.cur.core s.cur.ctx 0x025 0x026) := by
  have hpriv : x.priv = true := by simp [Ctx.priv, hm]
  simp only [exec]
  rw [execKtrig, onCtx_some _ h, if_pos hpriv, trapHere_routine h hm]

/-! ### KWAIT (04 R116) -/

theorem exec_kwait_routine (h : s.me? = some x) (hm : x.mode ≠ .user) :
    exec .kwait s = .next (terminate s s.cur.core s.cur.ctx 0x025 0x026) := by
  have hpriv : x.priv = true := by simp [Ctx.priv, hm]
  simp only [exec]
  rw [execKwait, onCtx_some _ h]
  dsimp only
  rw [if_pos hpriv, trapHere_routine h hm]

theorem producersReady_iff : (((x.launch? s).map (·.producers)).getD []).all (fun p => p == 0 || producerReady s x.part p) = true ↔
    ∀ l, s.launch? x.part x.launch = some l → ∀ p ∈ l.producers, p = 0 ∨ producerReady s x.part p = true := by
  rw [Ctx.launch?]
  cases s.launch? x.part x.launch with
  | none => simp
  | some l => simp

theorem exec_kwait_waits (h : s.me? = some x) (hm : x.mode = .user)
    (hp : ∃ l, s.launch? x.part x.launch = some l ∧ ∃ p ∈ l.producers, p ≠ 0 ∧ producerReady s x.part p = false) :
    exec .kwait s = .next (s.setMe (waiting x .kwait)) := by
  have hpriv : ¬ x.priv = true := by simp [Ctx.priv, hm]
  obtain ⟨l, hl, p, hmem, hne, hnot⟩ := hp
  have hall : ¬ (((x.launch? s).map (·.producers)).getD []).all (fun p => p == 0 || producerReady s x.part p) = true := by
    rw [producersReady_iff]
    intro hready
    rcases hready l hl p hmem with h0 | hr
    · exact hne h0
    · simp [hnot] at hr
  simp only [exec]
  rw [execKwait, onCtx_some _ h]
  dsimp only
  rw [if_neg hpriv, if_neg hall]
  rfl

/-- KWAIT's acquire selects the trigger releases of the launch's producers. -/
theorem exec_kwait_acquires (h : s.me? = some x) (hm : x.mode = .user)
    (hp : ∀ l, s.launch? x.part x.launch = some l → ∀ p ∈ l.producers, p = 0 ∨ producerReady s x.part p = true) :
    ∃ q : Release → Bool,
      (∀ r, (∃ l p, s.launch? x.part x.launch = some l ∧ p ∈ l.producers ∧ r.link = .trigger x.part p) → q r = true) ∧
      exec .kwait s = .next ((refresh (acquire s s.cur.core q [.one (ctxAgent s.cur.core s.cur.ctx .c)]) true
        [.one (ctxAgent s.cur.core s.cur.ctx .c)]).setMe (retired x (x.pc + 1))) := by
  have hpriv : ¬ x.priv = true := by simp [Ctx.priv, hm]
  have hall := producersReady_iff.mpr hp
  refine ⟨?q, ?sel, ?run⟩
  case run =>
    simp only [exec]
    rw [execKwait, onCtx_some _ h]
    dsimp only
    rw [if_neg hpriv, if_pos hall, acquire_setMe, refresh_setMe]
    rfl
  case sel =>
    rintro r ⟨l, p, hl, hmem, hr⟩
    have hlx : x.launch? s = some l := hl
    simp [hr, hlx, hmem]

theorem kwaitRetires (h : s.me? = some x) (hm : x.mode = .user)
    (hp : ∀ l, s.launch? x.part x.launch = some l → ∀ p ∈ l.producers, p = 0 ∨ producerReady s x.part p = true) :
    ∃ t, exec .kwait s = .next (t.setMe (retired x (x.pc + 1))) ∧ OnlyOrders s t ∧
      Covers s t (Released s (fun k => ∃ l p, s.launch? x.part x.launch = some l ∧ p ∈ l.producers ∧ k = .trigger x.part p)
        s.cur.core) (myPath s .c) ∧ Covers s t InMemory (myPath s .c) := by
  obtain ⟨q, hq, hex⟩ := exec_kwait_acquires h hm hp
  have hacq := onlyOrders_acquire s s.cur.core q [.one (ctxAgent s.cur.core s.cur.ctx .c)]
  have href := onlyOrders_refresh (acquire s s.cur.core q [.one (ctxAgent s.cur.core s.cur.ctx .c)]) true
    [.one (ctxAgent s.cur.core s.cur.ctx .c)]
  exact ⟨_, hex, hacq.trans href,
    (covers_acquire (List.mem_singleton_self _) (own_has s .c) fun r _ hr => hq r hr).mono href,
    hacq.covers_refresh (List.mem_singleton_self _) (own_has s .c)⟩

/-! ### JWAIT (03 R100, 13 R373) -/

section
variable {a : BitVec 5} {o : BitVec 16} {pa : Nat}

theorem natOf_loadBytes {ag : Agent} {n : Nat} (hs : spillHit s pa n = []) : natOf (loadBytes s ag pa n) = seenValue s ag pa n := by
  rw [loadBytes, hs, if_neg (by simp)]
  exact natOf_map_range n _

theorem acquireJoins_setMe (s : State) (y : Ctx) (c k pa : Nat) : acquireJoins (s.setMe y) c k pa = (acquireJoins s c k pa).setMe y := by
  rw [acquireJoins, noteRead_setMe, acquire_setMe, refresh_setMe]
  rfl

/-- JWAIT of a launched team that meets no cause and no TLB miss looks at its counter. -/
theorem exec_jwait_reads (hA : Acts s x [a] []) (hc : x.child = none)
    (hok : checkAccess s x.part (x.asid s) .sp pathS (x.rd a + o.signExtend 64) 4 false = .ok pa)
    (ht : tlbMisses s s.cur.core (x.asid s) [x.rd a + o.signExtend 64] = []) (hlp : loadPoison s (myPath s .s) pa 4 = none)
    (hs : spillHit s pa 4 = [])
    (hl : ∀ l, s.launch? x.part x.launch = some l → l.refillCause = none ∧ ∀ f ∈ l.joinFails, f.1 ≠ x.rd a + o.signExtend 64) :
    exec (.jwait a o) s = .next (if seenValue s (myPath s .s) pa 4 = 0 then
      (acquireJoins s s.cur.core s.cur.ctx pa).setMe (retired x (x.pc + 1)) else s.setMe (waiting x (.jwait a o))) := by
  have hlp' : loadPoison s (ctxAgent s.cur.core s.cur.ctx .s) pa 4 = none := hlp
  have hv : natOf (loadBytes s (ctxAgent s.cur.core s.cur.ctx .s) pa 4) = seenValue s (myPath s .s) pa 4 := natOf_loadBytes hs
  simp only [exec]
  rw [execJwait, reading_clean _ hA.1 hA.2.1]
  simp only [hc, Option.isSome_none, Bool.false_eq_true, if_false, hok, joinCause_eq_none hl, ht, hlp', hv, acquireJoins_setMe]
  rfl

theorem onlyOrders_acquireJoins (s : State) (c k pa : Nat) : OnlyOrders s (acquireJoins s c k pa) :=
  ((onlyOrders_noteRead _ _ _ _ _).trans (onlyOrders_acquire _ _ _ _)).trans (onlyOrders_refresh _ _ _)

theorem exec_jwait_child (hA : Acts s x [a] []) (hc : x.child.isSome) (ht : Trappable x) :
    exec (.jwait a o) s = .next (s.setMe (triggered x (ctrlTrig 0x144 false x.pc 0 0 0))) := by
  simp only [exec]
  rw [execJwait, reading_clean _ hA.1 hA.2.1]
  dsimp only
  rw [if_pos hc, trapHere_trappable hA.1 ht]
  rfl

/-- A release of a join link that covers the event was performed with a decrement that the counter's read returned (03 R100). -/
def JoinReturned (s : State) (pa : Nat) (e : Late) : Prop :=
  ∃ r ∈ s.releases, (∃ part l, r.link = .join part l) ∧ r.reach.has s.cur.core = true ∧ r.covers e = true ∧
    ∃ i w, i ∈ returned s (myPath s .s) none (placesOn pa 4) ∧ s.late[i]? = some w ∧ w.order = r.time ∧ w.agent ∈ r.agents

theorem acquireJoins_covers {p : Path} (hp : p ∈ [Path.c, .gotS]) :
    Covers s (acquireJoins s s.cur.core s.cur.ctx pa) (JoinReturned s pa) (myPath s p) := by
  have hn : OnlyOrders s (noteRead s (ctxAgent s.cur.core s.cur.ctx .s) s.freeCtr none (span pa 4)) := onlyOrders_noteRead _ _ _ _ _
  have hv : View.one (ctxAgent s.cur.core s.cur.ctx p) ∈
      [View.one (ctxAgent s.cur.core s.cur.ctx .c), .one (ctxAgent s.cur.core s.cur.ctx .gotS)] :=
    List.mem_map_of_mem (f := fun p => View.one (ctxAgent s.cur.core s.cur.ctx p)) hp
  refine Covers.mono (Covers.of_grows (.of_orders hn.2) (covers_acquireWhere hv (own_has s p) (p := fun f =>
    ∃ e, Further e f ∧ JoinReturned s pa e) ?_) fun e f hef he => ⟨e, hef, he⟩) (onlyOrders_refresh _ _ _)
  rintro f - ⟨e, hef, r, hr, ⟨part, l, hlink⟩, hreach, hcov, i, w, hi, hw, hord, hag⟩
  have hr' : r ∈ (noteRead s (ctxAgent s.cur.core s.cur.ctx .s) s.freeCtr none (span pa 4)).releases := by rw [hn.1]; exact hr
  refine List.any_eq_true.mpr ⟨r, List.mem_filter.mpr ⟨hr', ?_⟩, Release.covers_further rfl rfl hef hcov⟩
  have hgot : w ∈ (returned s (ctxAgent s.cur.core s.cur.ctx .s) none (span pa 4)).filterMap (s.late[·]?) :=
    List.mem_filterMap.mpr ⟨i, hi, hw⟩
  simp only [hlink, Bool.and_eq_true, List.any_eq_true, beq_iff_eq, List.contains_iff_mem, hreach, and_true, true_and]
  exact ⟨w, hgot, hord, hag⟩

theorem acquireJoins_inMemory (s : State) (pa : Nat) : Covers s (acquireJoins s s.cur.core s.cur.ctx pa) InMemory (myPath s .c) :=
  ((onlyOrders_noteRead _ _ _ _ _).trans (onlyOrders_acquire _ _ _ _)).covers_refresh (List.mem_singleton_self _) (own_has s .c)

end

end

/-- Settles O20: the answers of the three words, each as its condition selects it. -/
theorem triggersAndWaits : Obligations.TriggersAndWaits := by
  refine ⟨fun s x h => ⟨?_, ?_, fun hm hn => exec_ktrig_waits h hm hn, fun hm hp => kwaitRetires h hm hp,
    fun hm hp => exec_kwait_waits h hm hp, fun hm => ⟨exec_ktrig_routine h hm, exec_kwait_routine h hm⟩⟩,
    fun s x a o pa hA => ⟨fun hc hok ht hlp hs hl => ?_, fun hc ht => exec_jwait_child hA hc ht⟩⟩
  · intro hm hq hs hr hc ht
    have hex : exec .ktrig s = .next (triggerSet s x) := by
      rw [exec_ktrig_ready h hm hq hs hr, if_neg (by simp [hc, ht])]
    obtain ⟨hqueue, hlate, hrel⟩ := triggerSet_events s x
    exact ⟨_, hex, triggerSet_mine h, sameBytes_triggerSet s x, hqueue, hlate, hrel,
      fun l cl hl hcl => ⟨_, triggerSet_placed hl hcl⟩⟩
  · intro hm hq hs hr hc
    rw [exec_ktrig_ready h hm hq hs hr, if_pos (by simpa using hc)]
  · have hex := exec_jwait_reads hA hc hok ht hlp hs hl
    refine ⟨fun hv => ⟨acquireJoins s s.cur.core s.cur.ctx pa, ?_, onlyOrders_acquireJoins _ _ _ _,
      fun p hp => acquireJoins_covers hp, acquireJoins_inMemory s pa⟩, fun hv => ?_⟩
    · rw [hex, if_pos hv]
    · rw [hex, if_neg hv]

end Sys2Proof.Claims
end

