-- ==== Sys2Proof/Proofs/Turns.lean ====
section
/-! O55: whose turn it is, and what the turn comes to (04 R120, R121, 08 R214, R216, 09 R241, R244, 14 R398, log entry 2). -/

namespace Sys2Proof.Claims

open Machine

/-- A step is its turn, taken once the turn has left the agenda. -/
theorem step_turn {s : State} {t : Turn} {rest : List Turn} (h : s.agenda = t :: rest) :
    step s = (turnMove (s.tookTurn rest) t).outcome := by
  rw [step, h]

/-! ### The control slice's turn (04 R120) -/

section
variable {s : State} {c k : Nat}

/-- The fetch goes round the contexts from the one after the last: the first of them that can fetch is next. -/
theorem nextFetch_some (h : nextFetch s c = some k) :
    ∃ i, i < 8 ∧ k = ((s.core c).lastFetch + 1 + i) % 8 ∧ canFetch s (s.ctx c k) = true ∧
      ∀ j, j < i → canFetch s (s.ctx c (((s.core c).lastFetch + 1 + j) % 8)) = false := by
  rw [nextFetch, List.find?_map, Option.map_eq_some_iff] at h
  obtain ⟨i, hi, rfl⟩ := h
  obtain ⟨hcan, hlt, hfirst⟩ := List.find?_range_eq_some.mp hi
  exact ⟨i, List.mem_range.mp hlt, rfl, hcan, fun j hj => by simpa using hfirst j hj⟩

theorem ctrlTurn_runs {w : BitVec 32} (hn : nextFetch s c = some k)
    (hw : fetchCtrl (fetching s c k) ((fetching s c k).ctx c k) = .ok w) : ctrlTurn s c = .run (fetching s c k) (decodeCtrl w) := by
  have hf : ({ s.updCore c (fun co => { co with lastFetch := k }) with cur := { core := c, ctx := k, group := 0 } } : State) =
      fetching s c k := rfl
  simp only [ctrlTurn, hn, hf, hw]

end

/-! ### A lane set's turn (04 R121, 08 R214, 09 R241, R244) -/

section
variable {e : Env} {w y : LaneBits} {i : Instr}

theorem nextInstr_single (hw : e.fetchAt 0 = .ok w) (hd : decodeLane w none = some i) : e.nextInstr = .ok i := by
  simp only [Env.nextInstr, hw, hd]

theorem nextInstr_double (hw : e.fetchAt 0 = .ok w) (hn : decodeLane w none = none) (hy : e.fetchAt 1 = .ok y)
    (hd : decodeLane w (some y) = some i) : e.nextInstr = .ok i := by
  simp only [Env.nextInstr, hw, hn, hy, hd, Option.getD_some]

end

section
variable {s : State} {c ls k g : Nat}

theorem issueStopped_false (h : Issuing s (s.ctx c k).part) : issueStopped s (s.ctx c k).part = false := by
  simpa [Machine.issuing] using issuing_of_Issuing h

/-- With no read-modify-write of its own left, the running group's next word runs. -/
theorem laneMove_runs {i : Instr} (hr : (s.laneSetAt c ls).running = some (k, g)) (hi : Issuing s (s.ctx c k).part)
    (ha : (s.group c k g).atomicsLeft c = false)
    (hn : (Env.of (issuing s c k g) (s.ctx c k) ((s.ctx c k).group g)).nextInstr = .ok i) :
    laneMove s c ls = .run (issuing s c k g) i := by
  have hs : ({ s with cur := { core := c, ctx := k, group := g } } : State) = issuing s c k g := rfl
  simp only [laneMove, laneTurn, hr, ha, issueStopped_false hi, hs, hn, Bool.false_and, Bool.false_eq_true, if_false]

/-- A read-modify-write of a lane comes before the group's next word. -/
theorem laneMove_performs (hr : (s.laneSetAt c ls).running = some (k, g)) (hi : Issuing s (s.ctx c k).part)
    (ha : (s.group c k g).atomicsLeft c = true) : laneMove s c ls = .idle (performOldest s c k g) := by
  simp only [laneMove, hr, ha, issueStopped_false hi, Bool.not_false, Bool.and_self, if_true]

end

/-- Settles O55: the step is the turn at the head of the agenda, and each turn comes to what its own rule gives. -/
theorem stepRunsDecodedInstruction : Obligations.StepRunsDecodedInstruction := by
  intro s rest s'
  refine ⟨fun c k w h hn hw => ?_, fun c k hn => nextFetch_some hn, fun c ls k g h hr hi ha => ⟨fun w i hw hd => ?_,
    fun w y i hw hno hy hd => ?_⟩, fun i h he => ?_, fun c ls k g h hr hi ha => ?_, fun c k g host h => step_turn h,
    fun c k h => step_turn h, fun i a h => step_turn h, fun a b => ⟨fun h => step_turn h, fun h => step_turn h⟩,
    fun l h => step_turn h, fun h => ?_⟩
  · rw [step_turn h, turnMove, ctrlTurn_runs hn hw, Move.outcome]
  · rw [step_turn h, turnMove, laneMove_runs hr hi ha (nextInstr_single hw hd), Move.outcome]
  · rw [step_turn h, turnMove, laneMove_runs hr hi ha (nextInstr_double hw hno hy hd), Move.outcome]
  · rw [step_turn h, turnMove, if_pos he, Move.outcome]
  · rw [step_turn h, turnMove, laneMove_performs hr hi ha, Move.outcome]
  · rw [step, h]

end Sys2Proof.Claims
end

