-- ==== Sys2Proof/Proofs/ElementIssue.lean ====
section
/-! How an elementwise word issues or traps once its shared checks pass (09 R251): its form from its uses, the flags of its lanes and the
exceptions they enable (05 R131, R132), and what it writes (02 R60). -/

namespace Sys2Proof.Claims

open Machine

/-! ### The form of a word that may be a tile word (06 R172, 12 R338) -/

/-- The form of a word whose sources have a stride each, from its uses. -/
def tileForm (u : Uses) : Form :=
  { d := u.d, a := u.a, b := u.b, c := u.c, ty := u.ty, md := u.md, tile := u.tile, sa := u.a, sb := u.b, sc := u.strideC, x := u.x,
    lit := u.lit, values := true, pair := true }

section
variable {u : Uses} {w : LaneWord}

theorem tileForm_clean (h : u.clean w) : (tileForm u).clean w = true := by
  obtain ⟨hd, ha, hb, hc, hl, hx, hty, hmd, htl, hsa, hsb, hsc⟩ := h
  have or_of {n : Nat} {b : Bool} {v : BitVec n} (h : b = false → v = 0) : (b || v == 0) = true := by
    cases b with
    | true => rfl
    | false => simp [h rfl]
  have hlb : (if w.lit then u.lit && w.b == 0 else u.b || w.b == 0) = true := by
    split
    case isTrue hw => simp [hl hw]
    case isFalse => exact or_of hb
  have hxx : (w.lit || w.x &&& ~~~u.x == 0) = true := or_of hx
  have htt : (!u.ty.isEmpty || w.ty == 0) = true := or_of fun h => hty (by simpa using h)
  have hmm : u.md.contains w.md.toNat = true := by simpa using hmd
  have htile : (!w.tl || u.tile) = true := by
    cases hw : w.tl with
    | false => rfl
    | true => simpa using htl hw
  have h1 : (w.tl && u.a || w.sa == 0) = true := or_of fun h => hsa (by simpa using h)
  have h2 : (w.tl && u.b && !w.lit || w.sb == 0) = true := or_of fun h => hsb fun ⟨p, q, r⟩ => by simp [p, q, r] at h
  have h3 : (w.tl && u.strideC || w.sc == 0) = true := or_of fun h => hsc (by simpa using h)
  simp only [Form.clean, tileForm, or_of hd, or_of ha, or_of hc, hlb, hxx, htt, hmm, htile, h1, h2, h3, Bool.and_self]

theorem tileForm_typed (h : u.typed w) : (tileForm u).typed w = true := formOf_typed h

end

theorem checked_tile {s : State} {x : Ctx} {g : Machine.Group} {w : LaneWord} {u : Uses} {ops : List Opd} {en : Entry} (hu : u.ok w)
    (ho : OperandsReady (Env.of s x g) ops) (hd : x.debug = false) (hf : en.form = tileForm u) (hops : en.ops = ops)
    (hr : en.reads = none) : Checked s x g w en := by
  subst hops
  exact ⟨hd, hf ▸ tileForm_clean hu.1, hf ▸ tileForm_typed hu.2, regCheck_none ho.1, quiet_of ho hr⟩

/-! ### Flags and enabled exceptions (05 R131, R132) -/

section
variable {ps : List (Nat × W32)} {k : Nat}

theorem getLsbD_foldl_or (m : W32) :
    (ps.foldl (fun (m : W32) p => m ||| p.2) m).getLsbD k = true ↔ m.getLsbD k = true ∨ ∃ p ∈ ps, p.2.getLsbD k = true := by
  induction ps generalizing m with
  | nil => simp
  | cons p r ih => simp [ih, or_assoc]

theorem getLsbD_foldl_mark (b : W32) (m : Lanes) (hk : ∀ p ∈ ps, p.1 < 32) :
    (ps.foldl (fun (m : Lanes) p => if p.2 &&& b = 0 then m else putBit m p.1 true) m).getLsbD k = true ↔
      m.getLsbD k = true ∨ ∃ p ∈ ps, p.1 = k ∧ p.2 &&& b ≠ 0 := by
  induction ps generalizing m with
  | nil => simp
  | cons p r ih =>
    rw [List.foldl_cons, ih _ fun q hq => hk q (List.mem_cons_of_mem _ hq)]
    by_cases hb : p.2 &&& b = 0
    · simp [hb]
    · rw [if_neg hb, getLsbD_putBit _ _ _ _ (hk p List.mem_cons_self)]
      by_cases hpk : p.1 = k
      · have hb' : ∃ q ∈ p :: r, q.1 = k ∧ q.2 &&& b ≠ 0 := ⟨p, List.mem_cons_self, hpk, hb⟩
        simp only [hpk, hb', if_true, true_or, or_true]
      · have : ¬ k = p.1 := fun h => hpk h.symm
        simp [hpk, this]

theorem and_pow_ne_zero {b : W32} (hk : k < 32) : b &&& BitVec.ofNat 32 (2 ^ k) ≠ 0 ↔ b.getLsbD k = true := by
  have hp : BitVec.ofNat 32 (2 ^ k) = BitVec.twoPow 32 k := BitVec.eq_of_toNat_eq (by simp [BitVec.toNat_twoPow])
  have hz : BitVec.twoPow 32 k ≠ 0 := fun h => by simpa [BitVec.getLsbD_twoPow, hk] using congrArg (·.getLsbD k) h
  rw [hp, BitVec.and_twoPow]
  split
  case isTrue h => exact iff_of_true hz h
  case isFalse h => simp [h]

end

theorem enabledCause_eq (gstat fl : W32) :
    enabledCause gstat fl = (firstEnabled gstat fl).map (fun i => (cFINVALID + i, BitVec.ofNat 32 (2 ^ i))) := rfl

theorem firstEnabled_lt {gstat fl : W32} {k : Nat} (h : firstEnabled gstat fl = some k) : k < 5 :=
  List.mem_range.mp (List.mem_of_find?_eq_some h)

/-- Lanes and their flags, for every row of an elementwise word. -/
def raisedFlags (e : Env) (w : LaneWord) (res : Nat → Nat → Res) : List (Nat × W32) :=
  ((List.range (e.rows w)).map (fun r => (r, (List.range 32).map (fun i => if (e.lanes w).getLsbD i then res r i else (0, 0))))).flatMap
    (fun r => indexed (r.2.map (·.2)))

section
variable {e : Env} {w : LaneWord} {res : Nat → Nat → Res} {fl : W32} {k : Nat}

theorem mem_raisedFlags {p : Nat × W32} : p ∈ raisedFlags e w res ↔
    ∃ r, r < e.rows w ∧ p.1 < 32 ∧ p.2 = if (e.lanes w).getLsbD p.1 then (res r p.1).2 else 0 := by
  simp only [raisedFlags, List.mem_flatMap, List.mem_map, List.mem_range, mem_indexed_iff]
  constructor
  · rintro ⟨_, ⟨r, hr, rfl⟩, hp⟩
    obtain ⟨hi, hv⟩ := List.getElem?_eq_some_iff.mp hp
    refine ⟨r, hr, by simpa using hi, ?_⟩
    rw [← hv]
    simp only [List.getElem_map, List.getElem_range]
    split <;> rfl
  · rintro ⟨r, hr, hi, hv⟩
    refine ⟨_, ⟨r, hr, rfl⟩, ?_⟩
    rw [hv]
    simp only [List.map_map, List.getElem?_map, List.getElem?_range hi, Option.map_some, Function.comp_apply]
    split <;> rfl

theorem raised_bit : (∃ p ∈ raisedFlags e w res, p.2.getLsbD k = true) ↔
    ∃ r i, r < e.rows w ∧ i < 32 ∧ (e.lanes w).getLsbD i = true ∧ ((res r i).2).getLsbD k = true := by
  constructor
  · rintro ⟨p, hp, hk⟩
    obtain ⟨r, hr, hi, hv⟩ := mem_raisedFlags.mp hp
    rw [hv] at hk
    split at hk
    case isTrue hm => exact ⟨r, p.1, hr, hi, hm, hk⟩
    case isFalse => simp at hk
  · rintro ⟨r, i, hr, hi, hm, hk⟩
    exact ⟨(i, (res r i).2), mem_raisedFlags.mpr ⟨r, hr, hi, by simp [hm]⟩, hk⟩

/-- The flags a word collects are those the statements speak of. -/
theorem foldl_raisedFlags (h : FlagsOf e w (fun r i => (res r i).2) fl) :
    (raisedFlags e w res).foldl (fun (m : W32) p => m ||| p.2) 0 = fl := by
  refine BitVec.eq_of_getLsbD_eq fun k _ => Bool.eq_iff_iff.mpr ?_
  rw [getLsbD_foldl_or, raised_bit, h k]
  simp

/-- The lanes that raised an exception. -/
def raisedLanes (e : Env) (w : LaneWord) (res : Nat → Nat → Res) (k : Nat) : Lanes :=
  (raisedFlags e w res).foldl (fun (m : Lanes) p => if p.2 &&& BitVec.ofNat 32 (2 ^ k) = 0 then m else putBit m p.1 true) 0

theorem getLsbD_raisedLanes (hk : k < 32) {i : Nat} (hi : i < 32) : (raisedLanes e w res k).getLsbD i = true ↔
    (e.lanes w).getLsbD i = true ∧ ∃ r, r < e.rows w ∧ ((res r i).2).getLsbD k = true := by
  rw [raisedLanes, getLsbD_foldl_mark _ _ fun p hp => (mem_raisedFlags.mp hp).choose_spec.2.1]
  simp only [and_pow_ne_zero hk]
  constructor
  · rintro (h | ⟨p, hp, rfl, hb⟩)
    · simp at h
    · obtain ⟨r, hr, -, hv⟩ := mem_raisedFlags.mp hp
      rw [hv] at hb
      split at hb
      case isTrue hm => exact ⟨hm, r, hr, hb⟩
      case isFalse => simp at hb
  · rintro ⟨hm, r, hr, hb⟩
    exact .inr ⟨(i, (res r i).2), mem_raisedFlags.mpr ⟨r, hr, hi, by simp [hm]⟩, rfl, hb⟩

theorem fpOutcome_clear {traps : Bool} (h : FlagsOf e w (fun r i => (res r i).2) fl)
    (hn : traps = true → firstEnabled e.g.gstat fl = none) : fpOutcome e traps (raisedFlags e w res) = .inl fl := by
  simp only [fpOutcome, foldl_raisedFlags h]
  cases ht : traps with
  | false => simp
  | true => simp [enabledCause_eq, hn ht]

theorem fpOutcome_enabled (hj : e.junk = false) (h : FlagsOf e w (fun r i => (res r i).2) fl)
    (hn : firstEnabled e.g.gstat fl = some k) :
    fpOutcome e true (raisedFlags e w res) = .inr (cFINVALID + k, raisedLanes e w res k) := by
  simp only [fpOutcome, foldl_raisedFlags h, hj, enabledCause_eq, hn]
  rfl

end

/-! ### What an elementwise word writes -/

/-- The pending results of an elementwise word. -/
def elementWrites (w : LaneWord) (h : Shape) (f : Env → Inp → Res) (e : Env) : List Pend :=
  (List.range (e.rows w)).flatMap (fun r =>
    e.write (w.d.toNat + r) h.lat h.wide (e.lanes w)
      ((List.range 32).map (fun i => if (e.lanes w).getLsbD i then (f e (h.inputs e w r i)).1 else 0))
      (e.taints ((h.sources e w).map (fun o => o.row r))) (e.poisons ((h.sources e w).map (fun o => o.row r))))

section
variable {e : Env} {w : LaneWord} {h : Shape} {f : Env → Inp → Res} {fl : W32} {k : Nat}

theorem elementwise_go (hfl : FlagsOf e w (fun r i => (f e (h.inputs e w r i)).2) fl)
    (hn : h.traps = true → firstEnabled e.g.gstat fl = none) :
    elementwise w h f e = .go e.s e.g (elementWrites w h f e ++ Pend.flags h.lat fl) := by
  have ho := fpOutcome_clear (res := fun r i => f e (h.inputs e w r i)) hfl hn
  unfold raisedFlags at ho
  have hv (r : Nat) : ((List.range 32).map (fun i => if (e.lanes w).getLsbD i then f e (h.inputs e w r i) else (0, 0))).map (·.1) =
      (List.range 32).map (fun i => if (e.lanes w).getLsbD i then (f e (h.inputs e w r i)).1 else 0) := by
    simp only [List.map_map, Function.comp_def, apply_ite Prod.fst]
  unfold elementwise
  dsimp only
  rw [ho]
  simp only [elementWrites, List.flatMap_map, hv]

theorem elementwise_trap (hj : e.junk = false) (ht : h.traps = true) (hfl : FlagsOf e w (fun r i => (f e (h.inputs e w r i)).2) fl)
    (hn : firstEnabled e.g.gstat fl = some k) :
    elementwise w h f e = .trap (cFINVALID + k) false 0 (raisedLanes e w (fun r i => f e (h.inputs e w r i)) k) 0 := by
  have ho := fpOutcome_enabled (res := fun r i => f e (h.inputs e w r i)) hj hfl hn
  unfold raisedFlags at ho
  simp only [elementwise, ht, ho]

/-- The poison that one register of an operand adds. -/
def namePoison (e : Env) (vec : Bool) (k : Nat) : Lanes :=
  if vec then (e.g.vpoison.getD (e.vmap k) Poison.none).lanes
  else
    let q := (e.g.gpoison.getD (e.gmap k) Poison.none).lanes
    if q = 0 then q else BitVec.allOnes 32

/-- An operand is clean where each register it names is. -/
theorem poisonOf_lanes_zero {o : Opd} : (e.poisonOf o).lanes = 0 ↔ ∀ k ∈ o.names, namePoison e o.vec k = 0 := by
  unfold Env.poisonOf
  have key (l : List Nat) (p : Poison) : (l.foldl (fun p k =>
      if o.vec then p.join (e.g.vpoison.getD (e.vmap k) Poison.none)
      else
        let q := e.g.gpoison.getD (e.gmap k) Poison.none
        p.join (if q.lanes = 0 then q else { q with lanes := BitVec.allOnes 32 })) p).lanes = 0 ↔
      p.lanes = 0 ∧ ∀ k ∈ l, namePoison e o.vec k = 0 := by
    induction l generalizing p with
    | nil => simp
    | cons k r ih =>
      rw [List.foldl_cons, ih]
      have hj : (if o.vec then p.join (e.g.vpoison.getD (e.vmap k) Poison.none)
          else
            let q := e.g.gpoison.getD (e.gmap k) Poison.none
            p.join (if q.lanes = 0 then q else { q with lanes := BitVec.allOnes 32 })).lanes = p.lanes ||| namePoison e o.vec k := by
        unfold namePoison
        split
        · rw [Poison.join_lanes]
        · rw [Poison.join_lanes, apply_ite Poison.lanes]
      rw [hj, show p.lanes ||| namePoison e o.vec k = 0 ↔ _ from BitVec.or_eq_zero_iff]
      simp [and_assoc]
  exact (key o.names Poison.none).trans (and_iff_right rfl)

theorem poisonOf_row {o : Opd} {r : Nat} (hr : r < o.rows) (h : (e.poisonOf o).lanes = 0) : (e.poisonOf (o.row r)).lanes = 0 := by
  unfold Opd.row
  split
  case isFalse => exact h
  case isTrue hv =>
    rw [poisonOf_lanes_zero] at h ⊢
    intro k hk
    refine h k (List.mem_flatMap.mpr ⟨r, List.mem_range.mpr hr, ?_⟩)
    simpa [Opd.names] using hk

theorem mem_sources {o : Opd} (ho : o ∈ h.sources e w) : (∃ k st, o = e.tile w (Opd.vr k h.wide) st) ∨ o = Opd.gr w.c false := by
  simp only [Shape.sources, Shape.opA, Shape.opB, Shape.opC, List.mem_append] at ho
  rcases ho with (hA | hB) | hC
  · split at hA
    case isTrue => exact .inl ⟨_, _, List.mem_singleton.mp hA⟩
    case isFalse => cases hA
  · split at hB
    case isTrue => exact .inl ⟨_, _, List.mem_singleton.mp hB⟩
    case isFalse => cases hB
  · split at hC
    case isTrue => exact .inl ⟨_, _, List.mem_singleton.mp hC⟩
    case isFalse =>
      split at hC
      case isTrue => exact .inr (List.mem_singleton.mp hC)
      case isFalse => cases hC

theorem tile_rows (o : Opd) (st : BitVec 3) (h1 : o.rows = 1) : (e.tile w o st).rows = e.rows w := by
  unfold Env.tile
  split
  case isTrue => rfl
  case isFalse ht => simp [h1, Env.rows, ht]

/-- Where the sources are clean, so are those of each row. -/
theorem poisons_row (hp : ∀ o ∈ h.sources e w, (e.poisonOf o).lanes = 0) {r : Nat} (hr : r < e.rows w) :
    (e.poisons ((h.sources e w).map (fun o => o.row r))).lanes = 0 := by
  refine e.poisons_lanes_zero _ fun o' ho' => ?_
  obtain ⟨o, ho, rfl⟩ := List.mem_map.mp ho'
  rcases mem_sources ho with ⟨k, st, heq⟩ | heq
  · refine poisonOf_row ?_ (hp o ho)
    rwa [heq, tile_rows _ _ rfl]
  · have hrow : o.row r = o := by rw [heq]; rfl
    rw [hrow]
    exact hp o ho

theorem mem_write {k lat : Nat} {wide : Bool} {m : Lanes} {vals : List Nat} {t : Bool} {q : Poison} {p : Pend}
    (hp : p ∈ e.write k lat wide m vals t q) : p.kind = .vec ∧ p.left = lat ∧ p.lanes = m ∧ p.poison.lanes = q.lanes &&& m ∧
      (p.reg = e.vmap k ∨ (wide = true ∧ p.reg = e.vmap (k + 1))) := by
  unfold Env.write at hp
  split_ifs at hp with hm hw
  · cases hp
  · rcases List.mem_pair.mp hp with rfl | rfl
    · exact ⟨rfl, rfl, rfl, rfl, .inl rfl⟩
    · exact ⟨rfl, rfl, rfl, rfl, .inr ⟨hw, rfl⟩⟩
  · obtain rfl := List.mem_singleton.mp hp
    exact ⟨rfl, rfl, rfl, rfl, .inl rfl⟩

/-- The results of an elementwise word whose sources are clean are those of its lanes. -/
theorem laneWrites_elementWrites {val : Nat → Nat → Nat} (hp : ∀ o ∈ h.sources e w, (e.poisonOf o).lanes = 0)
    (hv : ∀ r i, (f e (h.inputs e w r i)).1 = val r i) (hb : h.wide = false → ∀ r i, val r i < 2 ^ 32) :
    LaneWrites e w h.wide h.lat val (elementWrites w h f e) := by
  refine ⟨fun p hmem => ?_, fun r i hr hi hm => ?_⟩
  · obtain ⟨r, hr, hw⟩ := List.mem_flatMap.mp hmem
    rw [List.mem_range] at hr
    obtain ⟨hk, hl, hla, hpo, hreg⟩ := mem_write hw
    exact ⟨hk, hl, hla, by rw [hpo, poisons_row hp hr]; exact BitVec.zero_and, r, hr, hreg⟩
  · have hm0 : e.lanes w ≠ 0 := fun h => by simp [h] at hm
    have hin (p : Pend) (hw : p ∈ e.write (w.d.toNat + r) h.lat h.wide (e.lanes w)
        ((List.range 32).map (fun i => if (e.lanes w).getLsbD i then (f e (h.inputs e w r i)).1 else 0))
        (e.taints ((h.sources e w).map (fun o => o.row r))) (e.poisons ((h.sources e w).map (fun o => o.row r)))) :
        p ∈ elementWrites w h f e := List.mem_flatMap.mpr ⟨r, List.mem_range.mpr hr, hw⟩
    have hat (g : Nat → Nat) : (((List.range 32).map (fun i => if (e.lanes w).getLsbD i then (f e (h.inputs e w r i)).1 else 0)).map g)[i]? =
        some (g (val r i)) := by
      simp [hi, hm, hv]
    unfold Env.write at hin
    rw [if_neg hm0] at hin
    cases hw : h.wide with
    | true =>
      rw [if_pos hw] at hin
      exact ⟨⟨_, hin _ List.mem_cons_self, rfl, by simp only [Pend.vec, List.getElem?_map, hat, Option.map_some]⟩,
        fun _ => ⟨_, hin _ (List.mem_cons_of_mem _ List.mem_cons_self), rfl,
          by simp only [Pend.vec, List.getElem?_map, hat, Option.map_some]⟩⟩
    | false =>
      rw [if_neg (by simp [hw])] at hin
      refine ⟨⟨_, hin _ List.mem_cons_self, rfl, ?_⟩, fun h => by cases h⟩
      have := hat id
      rw [List.map_id] at this
      simp only [Pend.vec, List.getElem?_map, this, Option.map_some, id, Nat.mod_eq_of_lt (hb hw r i)]

theorem mem_flags {lat : Nat} {p : Pend} (hp : p ∈ Pend.flags lat fl) : p.kind = .flag := by
  unfold Pend.flags at hp
  split at hp
  case isTrue => cases hp
  case isFalse => rw [List.mem_singleton.mp hp]

theorem mem_names_opD {r : Nat} (hr : r < e.rows w) (n : Nat) (hn : n = w.d.toNat + r ∨ (h.wide = true ∧ n = w.d.toNat + r + 1)) :
    n ∈ (h.opD e w).names := by
  have hrows : (h.opD e w).rows = e.rows w := by
    unfold Shape.opD Env.tileD
    split
    case isTrue => rfl
    case isFalse ht => simp [Opd.vw, Env.rows, ht]
  have hnum : (h.opD e w).num = w.d.toNat ∧ (h.opD e w).stride = 1 ∧ (h.opD e w).pair = h.wide := by
    unfold Shape.opD Env.tileD
    split <;> exact ⟨rfl, rfl, rfl⟩
  obtain ⟨h1, h2, h3⟩ := hnum
  refine List.mem_flatMap.mpr ⟨r, List.mem_range.mpr (by rwa [hrows]), ?_⟩
  simp only [h1, h2, h3, Nat.mul_one]
  split
  case isTrue hw => simpa [hw] using hn
  case isFalse hw => simpa [hw] using hn

theorem tidy_element {en : Entry} (ho : en.ops = h.opD e w :: h.sources e w) :
    Tidy e en e.g (elementWrites w h f e ++ Pend.flags h.lat fl) := by
  refine ⟨⟨[], (List.append_nil _).symm⟩, rfl, fun p hp hk => ?_⟩
  rcases List.mem_append.mp hp with hw | hfl
  · obtain ⟨r, hr, hw⟩ := List.mem_flatMap.mp hw
    obtain ⟨-, -, -, -, hreg⟩ := mem_write hw
    have hvec : (h.opD e w).vec = true := by
      unfold Shape.opD Env.tileD
      split <;> rfl
    refine List.mem_flatMap.mpr ⟨h.opD e w, List.mem_filter.mpr ⟨ho ▸ List.mem_cons_self, by simp [hvec]⟩, ?_⟩
    rw [if_pos rfl, List.mem_map]
    rcases hreg with heq | ⟨hw, heq⟩
    · exact ⟨_, mem_names_opD (List.mem_range.mp hr) _ (.inl rfl), heq.symm⟩
    · exact ⟨_, mem_names_opD (List.mem_range.mp hr) _ (.inr ⟨hw, rfl⟩), heq.symm⟩
  · rw [mem_flags hfl] at hk
    cases hk

end

/-! ### The words -/

/-- An elementwise word about to issue: its operands are those the statements name, its checks pass, and `val` and `fls` are what each
lane gets. -/
structure ElementReady (s : State) (x : Ctx) (g : Machine.Group) (w : LaneWord) (h : Shape) (f : Env → Inp → Res) (en : Env → Entry)
    (res : Nat → Nat → Nat × W32) : Prop where
  acts : LaneActs s x g w.hdr false
  checked : Checked s x g w (en (Env.of s x g))
  ops : (en (Env.of s x g)).ops = h.opD (Env.of s x g) w :: h.sources (Env.of s x g) w
  clean : ∀ o ∈ h.sources (Env.of s x g) w, ((Env.of s x g).poisonOf o).lanes = 0
  effect : (en (Env.of s x g)).effect (Env.of s x g) = elementwise w h f (Env.of s x g)
  res_eq : ∀ r i, f (Env.of s x g) (h.inputs (Env.of s x g) w r i) = res r i

section
variable {s : State} {x : Ctx} {g : Machine.Group} {w : LaneWord} {h : Shape} {f : Env → Inp → Res} {en : Env → Entry}
  {res : Nat → Nat → Nat × W32} {fl : W32} {k : Nat}

theorem ElementReady.issues (hr : ElementReady s x g w h f en res) (hfl : FlagsOf (Env.of s x g) w (fun r i => (res r i).2) fl)
    (hn : h.traps = true → firstEnabled g.gstat fl = none) (hb : h.wide = false → ∀ r i, (res r i).1 < 2 ^ 32) :
    ∃ wr, word s w en = .next (issued s x g w.hdr 1 .none s g (wr ++ Pend.flags h.lat fl)) ∧
      LaneWrites (Env.of s x g) w h.wide h.lat (fun r i => (res r i).1) wr := by
  obtain ⟨ha, hc, ho, hp, hef, hres⟩ := hr
  refine ⟨elementWrites w h f (Env.of s x g), laneWord_issues ha hc ?_ (tidy_element ho),
    laneWrites_elementWrites hp (fun r i => by rw [hres]) hb⟩
  rw [hef]
  exact elementwise_go (by simpa only [hres] using hfl) hn

theorem ElementReady.traps (hr : ElementReady s x g w h f en res) (hfl : FlagsOf (Env.of s x g) w (fun r i => (res r i).2) fl)
    (ht : h.traps = true) (hn : firstEnabled g.gstat fl = some k) :
    ∃ m : Lanes, word s w en = .next (laneTrap s s.cur.core s.cur.ctx s.cur.group (cFINVALID + k) false true 0 m 0) ∧
      ∀ i, i < 32 → (m.getLsbD i = true ↔ ((Env.of s x g).lanes w).getLsbD i = true ∧
        ∃ r, r < (Env.of s x g).rows w ∧ ((res r i).2).getLsbD k = true) := by
  obtain ⟨ha, hc, -, -, hef, hres⟩ := hr
  have hk := firstEnabled_lt hn
  refine ⟨raisedLanes (Env.of s x g) w res k, ?_, fun i hi => getLsbD_raisedLanes (by omega) hi⟩
  have htrap : elementwise w h f (Env.of s x g) = .trap (cFINVALID + k) false 0 (raisedLanes (Env.of s x g) w res k) 0 := by
    have := elementwise_trap (w := w) (f := f) (h := h) (e := Env.of s x g) rfl ht (by simpa only [hres] using hfl) hn
    simpa only [hres] using this
  rw [word, laneWord_stops ha hc (hef.trans htrap) fun _ _ _ h => Issue.noConfusion h]
  rfl

end

end Sys2Proof.Claims
end

