-- ==== Sys2Proof/Proofs/FloatPatterns.lean ====
section
/-! Bit patterns of the floating formats: what a rounded result, a written number and a special result fit in (05 R124, R127, R128). -/

namespace Sys2Proof.Machine

/-! ### Sizes -/

/-- A format with a fraction: every one the part has. -/
theorem tyFmt_size (ty : Nat) : 1 ≤ (tyFmt ty).fb ∧ (tyFmt ty).eb + (tyFmt ty).fb + 1 ≤ 32 := by
  unfold tyFmt
  split_ifs <;> decide

section
variable {f : Fmt} {r : Round} {sat neg st : Bool} {m : Nat} {e : Int}

theorem Fmt.zero_le (f : Fmt) (neg : Bool) : f.zero neg ≤ 2 ^ (f.eb + f.fb) := by
  unfold Fmt.zero
  split <;> simp

theorem Fmt.top_mul (f : Fmt) : f.top * 2 ^ f.fb + 2 ^ f.fb = 2 ^ (f.eb + f.fb) := by
  have : 0 < 2 ^ f.eb := Nat.two_pow_pos _
  rw [← Nat.succ_mul, Fmt.top, Nat.succ_eq_add_one, Nat.sub_add_cancel this, pow_add]

theorem Fmt.inf_eq (f : Fmt) (neg : Bool) : f.inf neg = f.zero neg + f.top * 2 ^ f.fb := rfl

theorem Fmt.inf_lt (f : Fmt) (neg : Bool) : f.inf neg < 2 ^ (f.eb + f.fb + 1) := by
  have h1 := f.zero_le neg
  have h2 := f.top_mul
  have h3 : 0 < 2 ^ f.fb := Nat.two_pow_pos _
  rw [Fmt.inf_eq, pow_succ]
  omega

theorem Fmt.infinite_lt (f : Fmt) (sat neg : Bool) : f.infinite sat neg < 2 ^ (f.eb + f.fb + 1) := by
  have := f.inf_lt neg
  unfold Fmt.infinite Fmt.largest
  split <;> omega

theorem Fmt.nan_lt (h : 1 ≤ f.fb) : f.nan < 2 ^ (f.eb + f.fb + 1) := by
  have h1 := f.top_mul
  have h2 : 2 ^ f.fb = 2 ^ (f.fb - 1) * 2 := by rw [← pow_succ, Nat.sub_add_cancel h]
  have h3 : 0 < 2 ^ (f.fb - 1) := Nat.two_pow_pos _
  rw [Fmt.nan, pow_succ]
  omega

theorem Fmt.round_lt : (f.round r sat neg m e st).1 < 2 ^ (f.eb + f.fb + 1) := by
  have hz := f.zero_le neg
  have ht := f.top_mul
  have hp : 0 < 2 ^ (f.eb + f.fb) := Nat.two_pow_pos _
  have hi := f.infinite_lt sat neg
  unfold Fmt.infinite at hi
  unfold Fmt.round
  split
  case isTrue => rw [pow_succ]; omega
  case isFalse =>
    dsimp only
    generalize (roundAt r neg m e st _).1 = k
    generalize hfield : (if k < 2 ^ f.fb then (0 : Int) else _) = field
    split
    case isTrue => exact hi
    case isFalse hlt =>
      dsimp only
      have hk : k % 2 ^ f.fb < 2 ^ f.fb := Nat.mod_lt _ (Nat.two_pow_pos _)
      have hf : field.toNat * 2 ^ f.fb + 2 ^ f.fb ≤ f.top * 2 ^ f.fb := by
        rw [← Nat.succ_mul]
        exact Nat.mul_le_mul_right _ (by omega)
      rw [pow_succ]
      omega

theorem Fmt.write_lt (h : 1 ≤ f.fb) (v : FVal) (fl : W32) : (f.write r sat v fl).1 < 2 ^ (f.eb + f.fb + 1) := by
  cases v with
  | nan => exact Fmt.nan_lt h
  | inf n => exact f.infinite_lt sat n
  | fin n m e => exact Fmt.round_lt

theorem exp2Fin_lt : (exp2Fin f sat neg m e).1 < 2 ^ (f.eb + f.fb + 1) := by
  unfold exp2Fin
  dsimp only
  split_ifs <;> exact Fmt.round_lt

theorem log2Fin_lt : (log2Fin f sat m e).1 < 2 ^ (f.eb + f.fb + 1) := by
  unfold log2Fin
  dsimp only
  split_ifs <;> exact Fmt.round_lt

theorem Fmt.trans_lt (h : 1 ≤ f.fb) (t : Trans) (v : FVal) : (f.trans t sat v).1 < 2 ^ (f.eb + f.fb + 1) := by
  have hz (n : Bool) : f.zero n < 2 ^ (f.eb + f.fb + 1) :=
    (f.zero_le n).trans_lt (Nat.pow_lt_pow_right (by omega) (by omega))
  have hi (n : Bool) := f.infinite_lt sat n
  have hn := Fmt.nan_lt h
  cases v with
  | nan s => cases t <;> exact hn
  | inf n =>
    cases t with
    | rcp => exact hz n
    | rsq =>
      cases n with
      | false => exact hz false
      | true => exact hn
    | exp2 =>
      cases n with
      | false => exact hi false
      | true => exact hz false
    | log2 =>
      cases n with
      | false => exact hi false
      | true => exact hn
  | fin n m e =>
    cases t with
    | rcp =>
      simp only [Fmt.trans]
      split
      · exact hi n
      · exact Fmt.round_lt
    | rsq =>
      simp only [Fmt.trans]
      split_ifs
      · exact hi n
      · exact hn
      · exact Fmt.round_lt
    | exp2 => exact exp2Fin_lt
    | log2 =>
      simp only [Fmt.trans]
      split_ifs
      · exact hi true
      · exact hn
      · exact log2Fin_lt

theorem l6Code_lt (neg : Bool) (t : Int) : l6Code neg t < 64 := by
  unfold l6Code
  split_ifs <;> omega

theorem toL6_lt (v : FVal) (scale : Int) : (toL6 v scale).1 < 64 := by
  cases v with
  | nan => exact (by decide : 16 < 64)
  | inf n => exact l6Code_lt n 15
  | fin n m e =>
    unfold toL6
    dsimp only
    split_ifs
    · decide
    · exact l6Code_lt n 15
    · decide
    · exact l6Code_lt n _
    · exact l6Code_lt n _

theorem intPattern_lt {ty : Nat} (h : tyWide ty = false) (x : Int) : intPattern ty x < 2 ^ 32 := by
  unfold intPattern
  rw [h, if_neg Bool.false_ne_true]
  omega

end

end Sys2Proof.Machine
end

