-- ==== Sys2Proof/Proofs/FloatWords.lean ====
section
/-! O28 and O29: the floating and conversion words and ACVT run as elementwise words (05 R127-R134, R139, R144, R145, 12 R340, R341, R355-R365,
13 R376, R377). -/

namespace Sys2Proof.Claims

open Machine

/-! ### Each word as an elementwise word -/

section
variable {s : State} {x : Ctx} {g : Machine.Group} {w : LaneWord} {u : Uses} {ops : List Opd} {h : Shape} {f : Env → Inp → Res}
  {en : Env → Entry} {res : Nat → Nat → Nat × W32}

theorem elementReady_of (ha : LaneActs s x g w.hdr false) (hu : u.ok w) (ho : OperandsReady (Env.of s x g) ops)
    (hform : (en (Env.of s x g)).form = tileForm u) (hreads : (en (Env.of s x g)).reads = none)
    (hen : (en (Env.of s x g)).ops = h.opD (Env.of s x g) w :: h.sources (Env.of s x g) w)
    (hops : h.opD (Env.of s x g) w :: h.sources (Env.of s x g) w = ops)
    (hef : (en (Env.of s x g)).effect (Env.of s x g) = elementwise w h f (Env.of s x g))
    (hres : ∀ r i, f (Env.of s x g) (h.inputs (Env.of s x g) w r i) = res r i) : ElementReady s x g w h f en res := by
  refine ⟨ha, checked_tile hu ho ha.2.1 hform (hen.trans hops) hreads, hen, fun o hm => ho.2.1 o ?_ ?_, hef, hres⟩
  · rw [← hops]
    exact List.mem_cons_of_mem _ hm
  · rcases mem_sources hm with ⟨k, st, rfl⟩ | rfl
    · unfold Env.tile
      split <;> rfl
    · rfl

/-- A floating or conversion word issues or traps as an elementwise word of latency `l.lat` with the results of `l`. -/
def RunsAs (i : Instr) (s : State) (x : Ctx) (g : Machine.Group) (l : FloatLane) : Prop :=
  ∃ h f en, exec i s = word s l.w en ∧ h.wide = false ∧ h.lat = l.lat ∧ h.traps = true ∧
    ElementReady s x g l.w h f en (l.res (Env.of s x g))

/-- The shape of the arithmetic group. -/
def fpShape (o : FpOp) : Shape :=
  { useA := true, useB := true, useC := o == .fma, selC := false, wide := false, lat := Config.latFloat, traps := true }

theorem runsAs_fp (o : FpOp) {i : Instr} {l : FloatLane} (hi : exec i s = word s l.w (fpEntry o l.w))
    (ha : LaneActs s x g l.w.hdr false) (hu : l.uses.ok l.w) (ho : OperandsReady (Env.of s x g) (l.ops (Env.of s x g)))
    (hform : (fpEntry o l.w (Env.of s x g)).form = tileForm l.uses) (hlat : l.lat = Config.latFloat)
    (hops : (fpShape o).opD (Env.of s x g) l.w :: (fpShape o).sources (Env.of s x g) l.w = l.ops (Env.of s x g))
    (hres : ∀ r i, o.res l.w ((fpShape o).inputs (Env.of s x g) l.w r i) = l.res (Env.of s x g) r i) : RunsAs i s x g l :=
  ⟨fpShape o, fun _ p => o.res l.w p, fpEntry o l.w, hi, rfl, hlat.symm, rfl,
    elementReady_of ha hu ho hform rfl rfl hops rfl hres⟩

theorem runsAs_un {i : Instr} {l : FloatLane} (hi : exec i s = word s l.w en)
    (ha : LaneActs s x g l.w.hdr false) (hu : u.ok l.w) (ho : OperandsReady (Env.of s x g) (l.ops (Env.of s x g)))
    (hform : (en (Env.of s x g)).form = tileForm u) (hreads : (en (Env.of s x g)).reads = none)
    (hen : (en (Env.of s x g)).ops = (unShape l.w false l.lat true).opD (Env.of s x g) l.w ::
      (unShape l.w false l.lat true).sources (Env.of s x g) l.w)
    (hops : (unShape l.w false l.lat true).opD (Env.of s x g) l.w :: (unShape l.w false l.lat true).sources (Env.of s x g) l.w =
      l.ops (Env.of s x g))
    (hef : (en (Env.of s x g)).effect (Env.of s x g) = elementwise l.w (unShape l.w false l.lat true) f (Env.of s x g))
    (hres : ∀ r i, f (Env.of s x g) ((unShape l.w false l.lat true).inputs (Env.of s x g) l.w r i) = l.res (Env.of s x g) r i) :
    RunsAs i s x g l :=
  ⟨unShape l.w false l.lat true, f, en, hi, rfl, rfl, rfl, elementReady_of ha hu ho hform hreads hen hops hef hres⟩

theorem runsAs_trans (t : Trans) {i : Instr} {l : FloatLane} (hi : exec i s = word s l.w (transEntry t l.w))
    (ha : LaneActs s x g l.w.hdr false) (hu : l.uses.ok l.w) (ho : OperandsReady (Env.of s x g) (l.ops (Env.of s x g)))
    (hform : (transEntry t l.w (Env.of s x g)).form = tileForm l.uses) (hlat : l.lat = Config.latTrans)
    (hops : (unShape l.w false Config.latTrans true).opD (Env.of s x g) l.w ::
      (unShape l.w false Config.latTrans true).sources (Env.of s x g) l.w = l.ops (Env.of s x g))
    (hres : ∀ a b c, (tyFmt l.w.ty.toNat).trans t (Fp.sat l.w) (readFp l.w.ty.toNat a) = l.f a b c) : RunsAs i s x g l :=
  runsAs_un (f := fun _ p => (tyFmt l.w.ty.toNat).trans t (Fp.sat l.w) (readFp l.w.ty.toNat p.a)) hi ha hu ho hform rfl (hlat ▸ rfl)
    (hlat ▸ hops) (hlat ▸ rfl) fun _ _ => hres _ _ _

/-- The form of a conversion whose types go together. -/
theorem cvtForm_eq {tys md : List Nat} {pair : Bool} (hp : pair = true) (hx : w.x.toNat % 16 ≤ 11) :
    cvtForm w tys md pair =
      tileForm { noUses with d := true, a := true, ty := tys, md := md, tile := true, x := 0xF } := by
  have hsrc : decide (12 ≤ (fld w.x 0 4).toNat) = false := by
    rw [decide_eq_false_iff_not, fld_low_eq_mod w.x 4]
    omega
  rw [cvtForm, hp, hsrc]
  rfl

theorem tyFloat_iff (ty : Nat) : tyFloat ty = true ↔ 6 ≤ ty ∧ ty ≤ 8 := by
  simp only [tyFloat, Bool.or_eq_true, beq_iff_eq]
  omega

theorem runsAs_fcvt {l : FloatLane} (hl : floatLane g.fmt (.fcvt w) = some l) (ha : LaneActs s x g l.w.hdr false) (hu : l.uses.ok l.w)
    (ho : OperandsReady (Env.of s x g) (l.ops (Env.of s x g))) : RunsAs (.fcvt w) s x g l := by
  have hsrc : (fld w.x 0 4).toNat = w.x.toNat % 16 := fld_low_eq_mod w.x 4
  simp only [floatLane, Option.ite_none_right_eq_some] at hl
  obtain ⟨⟨h8, hfl⟩, heq⟩ := hl
  obtain rfl := Option.some.inj heq
  refine runsAs_un (en := fcvtEntry w) (f := fun _ p => fcvtRes w.ty.toNat (fld w.x 0 4).toNat (Round.ofMod w.md) (Fp.sat w) p.a)
    rfl ha hu ho (cvtForm_eq ?_ (by omega)) rfl rfl rfl rfl fun r i => ?_
  · simp only [hsrc, Bool.and_eq_true, Bool.or_eq_true, decide_eq_true_eq, tyFloat_iff]
    omega
  · rw [hsrc]
    rfl

/-- The uses of LCVT's entry: a float type or L6 as its type (13 R377). -/
def lcvtUses (w : LaneWord) : Uses :=
  { noUses with d := true, a := true, ty := [6, 7, 8, 9], md := convModes w, tile := true, x := 0xF }

/-- A word whose type is one of an entry's is one of an entry with more types. -/
theorem ok_moreTypes {v : Uses} (h : u.ok w) (htys : ∀ t ∈ u.ty, t ∈ v.ty) (hne : u.ty ≠ []) (hv : v = { u with ty := v.ty }) : v.ok w := by
  obtain ⟨⟨hd, ha, hb, hc, hl, hx, hty, hmd, htl, hsa, hsb, hsc⟩, ht, hwide⟩ := h
  have hmem := ht hne
  rw [hv]
  exact ⟨⟨hd, ha, hb, hc, hl, hx, fun h => absurd (h ▸ htys _ hmem) List.not_mem_nil, hmd, htl, hsa, hsb, hsc⟩, fun _ => htys _ hmem, hwide⟩

/-- LCVT's result under the group's scale. -/
def lcvtRes (w : LaneWord) (e : Env) (p : Inp) : Res :=
  if w.ty.toNat = 9 then toL6 (readVal (fld w.x 0 4).toNat p.a) (fmtEA e.g.fmt)
  else (tyFmt w.ty.toNat).write (Round.ofMod w.md) (Fp.sat w) (l6Value (p.a % 64) (fmtEA e.g.fmt)) 0

theorem runsAs_lcvt {l : FloatLane} (hl : floatLane g.fmt (.lcvt w) = some l) (ha : LaneActs s x g l.w.hdr false) (hu : l.uses.ok l.w)
    (ho : OperandsReady (Env.of s x g) (l.ops (Env.of s x g))) : RunsAs (.lcvt w) s x g l := by
  have hsrc : (fld w.x 0 4).toNat = w.x.toNat % 16 := fld_low_eq_mod w.x 4
  have hnum : w.ty = 9 ↔ w.ty.toNat = 9 := BitVec.toNat_inj.symm
  have hmodes : (if w.ty.toNat = 9 then [0, 4] else [0, 1, 2, 3, 4, 5, 6, 7]) = convModes w := by
    simp only [convModes, hnum]
  simp only [floatLane] at hl
  split_ifs at hl with hto hfrom
  · obtain ⟨h9, h8⟩ := hto
    obtain rfl := Option.some.inj hl
    have hmd : convModes w = [0, 4] := if_pos h9
    have hok : (lcvtUses w).ok w := ok_moreTypes hu (by simp [lcvtUses]) (by simp) (by simp [lcvtUses, hmd, noUses])
    refine runsAs_un (en := lcvtEntry w) (f := lcvtRes w) rfl ha hok ho ?_ rfl rfl rfl rfl fun r i => ?_
    · refine (cvtForm_eq ?_ (by omega)).trans (by rw [hmodes]; rfl)
      simp [hsrc, h8, hnum.mp h9]
    · rw [lcvtRes, if_pos (hnum.mp h9), hsrc]
      rfl
  · obtain ⟨h9, hsrc9⟩ := hfrom
    obtain rfl := Option.some.inj hl
    have hmd : convModes w = [0, 1, 2, 3, 4, 5, 6, 7] := if_neg h9
    have hok : (lcvtUses w).ok w := ok_moreTypes hu (by simp [lcvtUses]) (by simp) (by simp [lcvtUses, hmd, noUses])
    have hty : w.ty.toNat ∈ [6, 7, 8] := hu.2.1 (by simp)
    refine runsAs_un (en := lcvtEntry w) (f := lcvtRes w) rfl ha hok ho ?_ rfl rfl rfl rfl fun r i => ?_
    · refine (cvtForm_eq ?_ (by omega)).trans (by rw [hmodes]; rfl)
      simp only [List.mem_cons, List.not_mem_nil, or_false] at hty
      have hf : tyFloat w.ty.toNat = true := (tyFloat_iff _).mpr (by omega)
      simp [hsrc, hsrc9, hf]
    · rw [lcvtRes, if_neg (mt hnum.mpr h9)]
      rfl

theorem floatLane_runs {i : Instr} {l : FloatLane} (hl : floatLane g.fmt i = some l)
    (ha : LaneActs s x g l.w.hdr false) (hu : l.uses.ok l.w) (ho : OperandsReady (Env.of s x g) (l.ops (Env.of s x g))) :
    RunsAs i s x g l := by
  have some_inj {l' : FloatLane} (h : some l' = some l) : l' = l := Option.some.inj h
  cases i
  case fadd => cases some_inj hl; exact runsAs_fp .add rfl ha hu ho rfl rfl rfl fun r i => rfl
  case fsub => cases some_inj hl; exact runsAs_fp .sub rfl ha hu ho rfl rfl rfl fun r i => rfl
  case fmul => cases some_inj hl; exact runsAs_fp .mul rfl ha hu ho rfl rfl rfl fun r i => rfl
  case ffma => cases some_inj hl; exact runsAs_fp .fma rfl ha hu ho rfl rfl rfl fun r i => rfl
  case fmin => cases some_inj hl; exact runsAs_fp .min rfl ha hu ho rfl rfl rfl fun r i => rfl
  case fmax => cases some_inj hl; exact runsAs_fp .max rfl ha hu ho rfl rfl rfl fun r i => rfl
  case frcp => cases some_inj hl; exact runsAs_trans .rcp rfl ha hu ho rfl rfl rfl fun _ _ _ => rfl
  case frsq => cases some_inj hl; exact runsAs_trans .rsq rfl ha hu ho rfl rfl rfl fun _ _ _ => rfl
  case fexp2 => cases some_inj hl; exact runsAs_trans .exp2 rfl ha hu ho rfl rfl rfl fun _ _ _ => rfl
  case flog2 => cases some_inj hl; exact runsAs_trans .log2 rfl ha hu ho rfl rfl rfl fun _ _ _ => rfl
  case fcvt => exact runsAs_fcvt hl ha hu ho
  case lcvt => exact runsAs_lcvt hl ha hu ho
  all_goals cases hl

end

/-! ### Results fit their registers (05 R124) -/

theorem pattern_lt {ty n : Nat} (h : n < 2 ^ ((tyFmt ty).eb + (tyFmt ty).fb + 1)) : n < 2 ^ 32 :=
  h.trans_le (Nat.pow_le_pow_right (by omega) (tyFmt_size ty).2)

theorem fcvtRes_lt {dst : Nat} (hw : tyWide dst = false) (src : Nat) (r : Round) (sat : Bool) (v : Nat) :
    (fcvtRes dst src r sat v).1 < 2 ^ 32 := by
  unfold fcvtRes
  dsimp only
  split
  · exact pattern_lt (Fmt.write_lt (tyFmt_size dst).1 _ _)
  · exact intPattern_lt hw _

theorem floatLane_lt {fmt : W32} {i : Instr} {l : FloatLane} (hl : floatLane fmt i = some l) (hw : tyWide l.w.ty.toNat = false)
    (a b c : Nat) : (l.f a b c).1 < 2 ^ 32 := by
  have some_inj {l' : FloatLane} (h : some l' = some l) : l' = l := Option.some.inj h
  have hwrite (w : LaneWord) (r : Round) (sat : Bool) (v : FVal) (fl : W32) : ((tyFmt w.ty.toNat).write r sat v fl).1 < 2 ^ 32 :=
    pattern_lt (Fmt.write_lt (tyFmt_size _).1 v fl)
  have htrans (w : LaneWord) (t : Trans) (sat : Bool) (v : FVal) : ((tyFmt w.ty.toNat).trans t sat v).1 < 2 ^ 32 :=
    pattern_lt (Fmt.trans_lt (tyFmt_size _).1 t v)
  cases i
  case fadd | fsub | fmul | ffma | fmin | fmax => cases some_inj hl; exact hwrite _ _ _ _ _
  case frcp | frsq | fexp2 | flog2 => cases some_inj hl; exact htrans _ _ _ _
  case fcvt =>
    simp only [floatLane, Option.ite_none_right_eq_some] at hl
    cases some_inj hl.2
    exact fcvtRes_lt hw _ _ _ _
  case lcvt =>
    simp only [floatLane] at hl
    split_ifs at hl
    · cases some_inj hl
      exact (toL6_lt _ _).trans (by decide)
    · cases some_inj hl
      exact hwrite _ _ _ _ _
  all_goals cases hl

theorem floatLane_types {fmt : W32} {i : Instr} {l : FloatLane} (hl : floatLane fmt i = some l) :
    l.uses.ty = [6, 7, 8] ∨ l.uses.ty = [0, 1, 2, 3, 4, 5, 6, 7, 8] ∨ l.uses.ty = [9] := by
  have some_inj {l' : FloatLane} (h : some l' = some l) : l' = l := Option.some.inj h
  cases i
  case fadd | fsub | fmul | ffma | fmin | fmax | frcp | frsq | fexp2 | flog2 => cases some_inj hl; exact .inl rfl
  case fcvt =>
    simp only [floatLane, Option.ite_none_right_eq_some] at hl
    cases some_inj hl.2
    exact .inr (.inl rfl)
  case lcvt =>
    simp only [floatLane] at hl
    split_ifs at hl
    · cases some_inj hl
      exact .inr (.inr rfl)
    · cases some_inj hl
      exact .inl rfl
  all_goals cases hl

theorem tyWide_of_le {ty : Nat} (h : ty ≤ 9) : tyWide ty = false := by
  simp only [tyWide, Bool.or_eq_false_iff, beq_eq_false_iff_ne]
  omega

theorem floatLane_narrow {fmt : W32} {i : Instr} {l : FloatLane} (hl : floatLane fmt i = some l) (hu : l.uses.ok l.w) :
    tyWide l.w.ty.toNat = false := by
  obtain ⟨-, hty, -⟩ := hu
  refine tyWide_of_le ?_
  rcases floatLane_types hl with h | h | h
  all_goals
    rw [h] at hty
    have := hty (List.cons_ne_nil _ _)
    simp only [List.mem_cons, List.not_mem_nil, or_false] at this
    omega

/-- Settles O28: each word runs as an elementwise word, which issues with its flags or traps at the first enabled exception. -/
theorem floatLaneResults : Obligations.FloatLaneResults := by
  unfold Obligations.FloatLaneResults
  refine ⟨fun i s x g l hl ha hu ho fl hfl hn => ?_, fun i s x g l k hl ha hu ho fl hfl hn => ?_⟩
  · obtain ⟨h, f, en, hex, hwide, hlat, -, hr⟩ := floatLane_runs hl ha hu ho
    rw [hex, ← hlat, ← hwide]
    exact hr.issues hfl (fun _ => hn) fun _ r i => floatLane_lt hl (floatLane_narrow hl hu) _ _ _
  · obtain ⟨h, f, en, hex, -, -, ht, hr⟩ := floatLane_runs hl ha hu ho
    rw [hex]
    exact hr.traps hfl ht hn

/-! ### ACVT (05 R144, R145, 12 R340, R341) -/

theorem acvtRes_lt {ty : Nat} (md : BitVec 3) (scale : Int) (x : FVal) : (acvtRes ty md scale x).1 < 2 ^ 32 := by
  unfold acvtRes
  split_ifs with h9 h0
  · exact (toL6_lt _ _).trans (by decide)
  · cases x with
    | nan => exact (by decide : 0 < 2 ^ 32)
    | inf n => exact intPattern_lt rfl _
    | fin n m e => exact intPattern_lt rfl _
  · exact pattern_lt (Fmt.write_lt (tyFmt_size ty).1 _ _)

/-- The shape of ACVT: its source is read with its extension, and its exceptions never trap. -/
def acvtShape (w : LaneWord) : Shape := { unShape w false Config.latAcvt false with ext := true }

/-- Settles O29: with a row for FMT the word is elementwise and its exceptions do not trap; without one its entry traps. -/
theorem acvtResults : Obligations.AcvtResults := by
  unfold Obligations.AcvtResults
  intro w s x g ha hu e ho
  have hnum : w.ty = 9 ↔ w.ty.toNat = 9 := BitVec.toNat_inj.symm
  have hform : (acvtEntry w e).form =
      tileForm { noUses with d := true, a := true, ty := [0, 6, 8, 9], md := convModes w, tile := true } := by
    simp only [acvtEntry, convModes, hnum]
    rfl
  refine ⟨fun p hp => ?_, fun hp => ?_⟩
  · intro res fl hfl
    have hrow : productOf (Env.of s x g).g.fmt = some p := hp
    have hr : ElementReady s x g w (acvtShape w) (fun e i => acvtRes w.ty.toNat w.md (fmtEA e.g.fmt) (accValue p i.a)) (acvtEntry w) res :=
      elementReady_of ha hu ho hform rfl rfl rfl (by simp only [acvtEntry, hrow, acvtShape]) fun r i => rfl
    exact hr.issues hfl (fun h => by cases h) fun _ r i => acvtRes_lt _ _ _
  · have hrow : productOf (Env.of s x g).g.fmt = none := hp
    exact laneWord_traps (g := g) (c := cFMTTYPE) ha (checked_tile hu ho ha.2.1 hform rfl rfl) (by simp only [acvtEntry, hrow])

end Sys2Proof.Claims
end

