-- ==== Sys2Proof/Proofs/IntegerRounding.lean ====
section
/-! Rounding to integers as MOD says (05 R128): what the model's rounding to multiples of a power of two gives. -/

namespace Sys2Proof.Claims

open Machine

/-! ### Signs and modes -/

/-- The sign of a number as a factor. -/
def sgn (neg : Bool) : ℚ := if neg then -1 else 1

theorem sgn_ne_zero (neg : Bool) : sgn neg ≠ 0 := by cases neg <;> simp [sgn]

theorem sgn_mul_self (neg : Bool) : sgn neg * sgn neg = 1 := by cases neg <;> simp [sgn]

theorem abs_sgn_mul (neg : Bool) (x : ℚ) : |sgn neg * x| = |x| := by
  cases neg <;> simp [sgn]

theorem sgn_mul_neg_iff {neg : Bool} {x : ℚ} (hx : 0 < x) : sgn neg * x < 0 ↔ neg = true := by
  cases neg
  · simpa [sgn] using hx.le
  · simpa [sgn] using hx

theorem sgn_mul_pos_iff {neg : Bool} {x : ℚ} (hx : 0 < x) : 0 < sgn neg * x ↔ neg = false := by
  cases neg
  · simpa [sgn] using hx
  · simpa [sgn] using hx.le

/-- An integer of a sign and a magnitude. -/
def signedInt (neg : Bool) (k : ℕ) : ℤ := if neg then -(k : ℤ) else k

theorem signedInt_cast (neg : Bool) (k : ℕ) : (signedInt neg k : ℚ) = sgn neg * k := by
  cases neg <;> simp [signedInt, sgn]

theorem ofMod_cases (md : BitVec 3) : (md.toNat % 4 = 0 ∧ Round.ofMod md = .rne) ∨ (md.toNat % 4 = 1 ∧ Round.ofMod md = .rz) ∨
    (md.toNat % 4 = 2 ∧ Round.ofMod md = .rd) ∨ (md.toNat % 4 = 3 ∧ Round.ofMod md = .ru) := by
  have h : (fld md 0 2).toNat = md.toNat % 4 := fld_low_eq_mod md 2
  have hlt : md.toNat % 4 < 4 := Nat.mod_lt _ (by decide)
  unfold Round.ofMod
  rw [h]
  interval_cases md.toNat % 4 <;> simp

theorem ofMod_nearest {md : BitVec 3} (h : md.toNat % 4 = 0) : Round.ofMod md = .rne := by
  rcases ofMod_cases md with ⟨-, h'⟩ | ⟨h', -⟩ | ⟨h', -⟩ | ⟨h', -⟩
  · exact h'
  all_goals omega

/-! ### What an integer rounded by MOD satisfies -/

section
variable {md : BitVec 3} {v : ℚ} {k n : ℤ}

/-- Nearest: at most one half away, the even one of two. -/
theorem roundedInt_iff_nearest (h : md.toNat % 4 = 0) : RoundedInt md v k ↔ |v - k| ≤ 1 / 2 ∧ (|v - k| = 1 / 2 → k % 2 = 0) := by
  simp only [RoundedInt, h]

theorem roundedInt_iff_zero (h : md.toNat % 4 = 1) : RoundedInt md v k ↔ |(k : ℚ)| ≤ |v| ∧ |v - k| < 1 := by
  simp only [RoundedInt, h]

theorem roundedInt_iff_down (h : md.toNat % 4 = 2) : RoundedInt md v k ↔ (k : ℚ) ≤ v ∧ v < k + 1 := by
  simp only [RoundedInt, h]

theorem roundedInt_iff_up (h : md.toNat % 4 = 3) : RoundedInt md v k ↔ v ≤ k ∧ (k : ℚ) < v + 1 := by
  simp only [RoundedInt, h]

end

theorem roundedInt_self (md : BitVec 3) (k : ℤ) : RoundedInt md k k := by
  rcases ofMod_cases md with ⟨h, -⟩ | ⟨h, -⟩ | ⟨h, -⟩ | ⟨h, -⟩
  · simp [roundedInt_iff_nearest h]
  · simp [roundedInt_iff_zero h]
  · simp [roundedInt_iff_down h]
  · simp [roundedInt_iff_up h]

section
variable {md : BitVec 3} {v : ℚ} {k n : ℤ}

/-- An integer rounded by MOD is less than one away. -/
theorem RoundedInt.abs_lt_one (h : RoundedInt md v k) : |v - k| < 1 := by
  rcases ofMod_cases md with ⟨hm, -⟩ | ⟨hm, -⟩ | ⟨hm, -⟩ | ⟨hm, -⟩
  · have := ((roundedInt_iff_nearest hm).mp h).1
    linarith
  · exact ((roundedInt_iff_zero hm).mp h).2
  · obtain ⟨h1, h2⟩ := (roundedInt_iff_down hm).mp h
    rw [abs_lt]
    constructor <;> linarith
  · obtain ⟨h1, h2⟩ := (roundedInt_iff_up hm).mp h
    rw [abs_lt]
    constructor <;> linarith

theorem RoundedInt.le_of_le (h : RoundedInt md v k) (hn : v ≤ n) : k ≤ n := by
  have h1 := abs_lt.mp h.abs_lt_one
  by_contra hc
  have hk : n + 1 ≤ k := by omega
  have hk' : (n : ℚ) + 1 ≤ k := by exact_mod_cast hk
  linarith

theorem RoundedInt.ge_of_ge (h : RoundedInt md v k) (hn : n ≤ v) : n ≤ k := by
  have h1 := abs_lt.mp h.abs_lt_one
  by_contra hc
  have hk : k + 1 ≤ n := by omega
  have hk' : (k : ℚ) + 1 ≤ n := by exact_mod_cast hk
  linarith

end

/-! ### Magnitudes with a dropped part -/

/-- A magnitude that m * 2^e stands for, with more below its last bit where `sticky`. -/
def Held (m : ℕ) (e : ℤ) (sticky : Bool) (μ : ℚ) : Prop :=
  if sticky then (m : ℚ) * 2 ^ e < μ ∧ μ < (m + 1) * 2 ^ e else μ = m * 2 ^ e

section
variable {md : BitVec 3} {neg sticky : Bool} {m : ℕ} {e q : ℤ} {μ : ℚ}

theorem abs_sub_signedInt (neg : Bool) (x : ℚ) (k : ℕ) : |sgn neg * x - signedInt neg k| = |x - k| := by
  rw [signedInt_cast, ← mul_sub, abs_sgn_mul]

theorem signedInt_mod_two (neg : Bool) (k : ℕ) : signedInt neg k % 2 = 0 ↔ k % 2 = 0 := by
  cases neg
  · simp only [signedInt, Bool.false_eq_true, if_false]
    omega
  · simp only [signedInt, if_true]
    omega

section
variable {K : ℕ} {φ : ℚ} {half : Ordering} {exact : Bool}

/-- To nearest: down below one half, up above it, and at one half away from an odd integer. -/
theorem roundedInt_nearest (hm : md.toNat % 4 = 0) (h0 : 0 ≤ φ) (h1 : φ < 1) (hh : half = compare φ (1 / 2)) :
    RoundedInt md (sgn neg * (K + φ)) (signedInt neg (if Round.rne.up neg (decide (K % 2 = 1)) half exact then K + 1 else K)) := by
  rw [roundedInt_iff_nearest hm, abs_sub_signedInt, signedInt_mod_two]
  rcases lt_trichotomy φ (1 / 2) with h | h | h
  · have hlt : half = .lt := hh.trans (compare_lt_iff_lt.mpr h)
    have ha : |(K : ℚ) + φ - K| = φ := by rw [add_sub_cancel_left, abs_of_nonneg h0]
    have hup : Round.rne.up neg (decide (K % 2 = 1)) half exact = false := by simp [hlt, Round.up]
    rw [hup, if_neg Bool.false_ne_true, ha]
    exact ⟨h.le, fun h' => absurd h' h.ne⟩
  · have heq : half = .eq := hh.trans (compare_eq_iff_eq.mpr h)
    by_cases hodd : K % 2 = 1
    · have ha : |(K : ℚ) + φ - (K + 1 : ℕ)| = 1 / 2 := by
        rw [h]; push_cast; rw [abs_of_nonpos (by linarith)]; linarith
      have hup : Round.rne.up neg (decide (K % 2 = 1)) half exact = true := by simp [heq, Round.up, hodd]
      rw [hup, if_pos rfl, ha]
      exact ⟨le_rfl, fun _ => by omega⟩
    · have ha : |(K : ℚ) + φ - K| = 1 / 2 := by rw [add_sub_cancel_left, abs_of_nonneg h0, h]
      have hup : Round.rne.up neg (decide (K % 2 = 1)) half exact = false := by simp [heq, Round.up, hodd]
      rw [hup, if_neg Bool.false_ne_true, ha]
      exact ⟨le_rfl, fun _ => by omega⟩
  · have hgt : half = .gt := hh.trans (compare_gt_iff_gt.mpr h)
    have ha : |(K : ℚ) + φ - (K + 1 : ℕ)| = 1 - φ := by
      push_cast; rw [abs_of_nonpos (by linarith)]; linarith
    have hup : Round.rne.up neg (decide (K % 2 = 1)) half exact = true := by simp [hgt, Round.up]
    rw [hup, if_pos rfl, ha]
    exact ⟨by linarith, fun h' => by linarith⟩

/-- The rounding of an integer part K with a fraction φ. -/
theorem roundedInt_up (h0 : 0 ≤ φ) (h1 : φ < 1) (hh : half = compare φ (1 / 2)) (he : exact = decide (φ = 0)) :
    RoundedInt md (sgn neg * (K + φ))
      (signedInt neg (if (Round.ofMod md).up neg (decide (K % 2 = 1)) half exact then K + 1 else K)) := by
  have hz (h : exact = true) : φ = 0 := by simpa [he] using h
  have hp (h : exact = false) : 0 < φ := lt_of_le_of_ne h0 fun h' => by simp [he, ← h'] at h
  rcases ofMod_cases md with ⟨hm, hr⟩ | ⟨hm, hr⟩ | ⟨hm, hr⟩ | ⟨hm, hr⟩
  · rw [hr]
    exact roundedInt_nearest hm h0 h1 hh
  · have hn : |(K : ℚ) + φ - K| < 1 := by rwa [add_sub_cancel_left, abs_of_nonneg h0]
    have hK : (0 : ℚ) ≤ K := Nat.cast_nonneg K
    rw [hr, roundedInt_iff_zero hm, abs_sub_signedInt, signedInt_cast, abs_sgn_mul, abs_sgn_mul, Nat.abs_cast, abs_of_nonneg (by linarith)]
    exact ⟨by simp [Round.up, h0], by simpa [Round.up] using hn⟩
  · rw [hr, roundedInt_iff_down hm, signedInt_cast]
    cases neg
    · simp only [Round.up, sgn, Bool.false_and, Bool.false_eq_true, if_false]
      constructor <;> linarith
    · cases hx : exact with
      | true =>
        simp only [Round.up, sgn, Bool.not_true, Bool.and_false, Bool.false_eq_true, if_false, if_true, hz hx]
        constructor <;> linarith
      | false =>
        have := hp hx
        simp only [Round.up, sgn, Bool.not_false, Bool.and_true, if_true]
        push_cast
        constructor <;> linarith
  · rw [hr, roundedInt_iff_up hm, signedInt_cast]
    cases neg
    · cases hx : exact with
      | true =>
        simp only [Round.up, sgn, Bool.not_true, Bool.and_false, Bool.false_eq_true, if_false, hz hx]
        constructor <;> linarith
      | false =>
        have := hp hx
        simp only [Round.up, sgn, Bool.not_false, Bool.and_true, Bool.false_eq_true, if_false, if_true]
        push_cast
        constructor <;> linarith
    · simp only [Round.up, sgn, Bool.not_true, Bool.false_and, Bool.false_eq_true, if_false, if_true]
      constructor <;> linarith

/-- A result is exact where the fraction is zero. -/
theorem exact_iff_up {r : Round} (h0 : 0 ≤ φ) (h1 : φ < 1) (hh : half = compare φ (1 / 2)) (he : exact = decide (φ = 0)) :
    exact = true ↔ ((if r.up neg (decide (K % 2 = 1)) half exact then K + 1 else K : ℕ) : ℚ) = K + φ := by
  by_cases hφ : φ = 0
  · have hx : exact = true := by simp [he, hφ]
    have hlt : half = .lt := hh.trans (compare_lt_iff_lt.mpr (by rw [hφ]; norm_num))
    have hup : r.up neg (decide (K % 2 = 1)) half exact = false := by cases r <;> simp [Round.up, hx, hlt]
    rw [hup, hx, if_neg Bool.false_ne_true, hφ, add_zero]
    exact iff_of_true rfl rfl
  · have hx : exact = false := by simp [he, hφ]
    have hpos : 0 < φ := lt_of_le_of_ne h0 (Ne.symm hφ)
    rw [hx]
    refine iff_of_false Bool.false_ne_true fun h => ?_
    split at h
    · push_cast at h
      linarith
    · linarith

end

/-! ### Rounding to a multiple of a power of two -/

/-- One half against a fraction of 2^n, for an integer part and less than one unit more. -/
theorem half_eq {n rem : ℕ} {δ : ℚ} (hn : 1 ≤ n) (h0 : 0 ≤ δ) (h1 : δ < 1) (hs : sticky = true ↔ δ ≠ 0) :
    (if rem = 2 ^ (n - 1) then (if sticky then Ordering.gt else .eq) else compare rem (2 ^ (n - 1))) =
      compare ((rem + δ) / 2 ^ n) (1 / 2) := by
  have hpow : (2 : ℚ) ^ n = 2 * ((2 ^ (n - 1) : ℕ) : ℚ) := by
    push_cast
    rw [← pow_succ', Nat.sub_add_cancel hn]
  have hpos : (0 : ℚ) < ((2 ^ (n - 1) : ℕ) : ℚ) := by positivity
  generalize 2 ^ (n - 1) = H at hpow hpos
  rw [hpow]
  rcases lt_trichotomy rem H with h | h | h
  · have hle : (rem : ℚ) + 1 ≤ H := by exact_mod_cast h
    rw [if_neg h.ne, compare_lt_iff_lt.mpr h]
    refine (compare_lt_iff_lt.mpr ?_).symm
    rw [div_lt_div_iff₀ (by linarith) two_pos]
    linarith
  · rw [if_pos h, h]
    cases sticky with
    | true =>
      have hδ : 0 < δ := lt_of_le_of_ne h0 (Ne.symm (hs.mp rfl))
      refine (compare_gt_iff_gt.mpr ?_).symm
      rw [div_lt_div_iff₀ two_pos (by linarith)]
      linarith
    | false =>
      have hδ : δ = 0 := by
        by_contra hc
        exact Bool.false_ne_true (hs.mpr hc)
      refine (compare_eq_iff_eq.mpr ?_).symm
      rw [hδ, add_zero, div_eq_div_iff (by linarith) two_ne_zero]
      ring
  · have hlt : (H : ℚ) < rem := by exact_mod_cast h
    rw [if_neg h.ne', compare_gt_iff_gt.mpr h]
    refine (compare_gt_iff_gt.mpr ?_).symm
    rw [div_lt_div_iff₀ two_pos (by linarith)]
    linarith

/-- A magnitude over the unit of its last bit, and what stands below that bit. -/
theorem Held.unit_part (hμ : Held m e sticky μ) : ∃ δ : ℚ, 0 ≤ δ ∧ δ < 1 ∧ (sticky = true ↔ δ ≠ 0) ∧ μ = (m + δ) * 2 ^ e := by
  have hp : (0 : ℚ) < 2 ^ e := zpow_pos two_pos e
  cases sticky with
  | false =>
    rw [Held, if_neg Bool.false_ne_true] at hμ
    exact ⟨0, le_rfl, one_pos, by simp, by rw [hμ, add_zero]⟩
  | true =>
    rw [Held, if_pos rfl] at hμ
    obtain ⟨hlo, hhi⟩ := hμ
    have h1 : (m : ℚ) < μ / 2 ^ e := (lt_div_iff₀ hp).mpr hlo
    have h2 : μ / 2 ^ e < m + 1 := (div_lt_iff₀ hp).mpr hhi
    refine ⟨μ / 2 ^ e - m, by linarith, by linarith, ?_, ?_⟩
    · simp only [true_iff]
      linarith
    · rw [add_sub_cancel, div_mul_cancel₀ _ hp.ne']

/-- The integer part and the fraction of a magnitude over 2^q. -/
theorem exists_fraction (hq : e < q) (hμ : Held m e sticky μ) : ∃ φ : ℚ, 0 ≤ φ ∧ φ < 1 ∧ μ / 2 ^ q = (m / 2 ^ (q - e).toNat : ℕ) + φ ∧
    (if m % 2 ^ (q - e).toNat = 2 ^ ((q - e).toNat - 1) then (if sticky then Ordering.gt else .eq)
      else compare (m % 2 ^ (q - e).toNat) (2 ^ ((q - e).toNat - 1))) = compare φ (1 / 2) ∧
    (decide (m % 2 ^ (q - e).toNat = 0) && !sticky) = decide (φ = 0) := by
  obtain ⟨n, rfl⟩ := Int.le.dest hq.le
  have hn : 1 ≤ n := by omega
  simp only [add_sub_cancel_left, Int.toNat_natCast]
  obtain ⟨δ, h0, h1, hs, rfl⟩ := hμ.unit_part
  have hp : (0 : ℚ) < 2 ^ n := by positivity
  have hm : (m : ℚ) = 2 ^ n * (m / 2 ^ n : ℕ) + (m % 2 ^ n : ℕ) := by exact_mod_cast (Nat.div_add_mod m (2 ^ n)).symm
  have hrem : ((m % 2 ^ n : ℕ) : ℚ) + 1 ≤ 2 ^ n := by exact_mod_cast Nat.mod_lt m (Nat.two_pow_pos n)
  have hrem0 : (0 : ℚ) ≤ (m % 2 ^ n : ℕ) := Nat.cast_nonneg _
  refine ⟨((m % 2 ^ n : ℕ) + δ) / 2 ^ n, by positivity, (div_lt_one hp).mpr (by linarith), ?_, half_eq hn h0 h1 hs, ?_⟩
  · rw [zpow_add₀ two_ne_zero, zpow_natCast, mul_comm ((2 : ℚ) ^ e), mul_div_mul_right _ _ (zpow_ne_zero _ two_ne_zero)]
    conv_lhs => rw [hm]
    field_simp
    ring
  · have hz : ((m % 2 ^ n : ℕ) + δ) / 2 ^ n = 0 ↔ m % 2 ^ n = 0 ∧ δ = 0 := by
      rw [div_eq_zero_iff, or_iff_left hp.ne', add_eq_zero_iff_of_nonneg hrem0 h0, Nat.cast_eq_zero]
    have hst : sticky = false ↔ δ = 0 := by
      rw [← Bool.not_eq_true, hs, not_not]
    rw [Bool.eq_iff_iff]
    simp only [Bool.and_eq_true, decide_eq_true_eq, Bool.not_eq_true', hz, hst]

/-- Rounding to a multiple of 2^q gives the integer that MOD gives for the magnitude over 2^q. -/
theorem roundAt_spec (hs : sticky = true → e < q) (hμ : Held m e sticky μ) :
    RoundedInt md (sgn neg * (μ / 2 ^ q)) (signedInt neg (roundAt (Round.ofMod md) neg m e sticky q).1) ∧
    ((roundAt (Round.ofMod md) neg m e sticky q).2 = true ↔ ((roundAt (Round.ofMod md) neg m e sticky q).1 : ℚ) = μ / 2 ^ q) := by
  unfold roundAt
  split
  case isTrue hle =>
    have hst : sticky = false := by
      cases hc : sticky with
      | false => rfl
      | true => exact absurd (hs hc) (by omega)
    have hx : μ / 2 ^ q = (m * 2 ^ (e - q).toNat : ℕ) := by
      obtain ⟨n, rfl⟩ := Int.le.dest hle
      rw [hst, Held, if_neg Bool.false_ne_true] at hμ
      rw [hμ, add_sub_cancel_left, Int.toNat_natCast, zpow_add₀ two_ne_zero, zpow_natCast]
      push_cast
      field_simp
    rw [hst, hx, ← signedInt_cast]
    exact ⟨roundedInt_self md _, iff_of_true rfl rfl⟩
  case isFalse hlt =>
    obtain ⟨φ, h0, h1, hx, hh, he⟩ := exists_fraction (not_le.mp hlt) hμ
    dsimp only
    rw [hx]
    exact ⟨roundedInt_up h0 h1 hh he, exact_iff_up h0 h1 hh he⟩

end

end Sys2Proof.Claims
end

