-- ==== Sys2Proof/Proofs/MagnitudeRounding.lean ====
section
/-! Correct rounding to a floating format (05 R127, R128): the finite numbers of a format, and that the model's rounding gives the one
that MOD chooses, with the flags of 12 R358. -/

namespace Sys2Proof.Claims

open Machine

/-! ### How far an integer rounded by MOD lies from others -/

section
variable {md : BitVec 3} {neg : Bool} {x X Y : ℚ} {k T : ℕ} {K : ℤ}

/-- Directed rounding of a magnitude: away from zero or toward it. -/
theorem roundedInt_magnitude (hx : 0 < x) (hm : md.toNat % 4 ≠ 0) (h : RoundedInt md (sgn neg * x) (signedInt neg k)) :
    (RoundsAway md (sgn neg * x) → x ≤ k ∧ (k : ℚ) < x + 1) ∧ (¬ RoundsAway md (sgn neg * x) → (k : ℚ) ≤ x ∧ x < k + 1) := by
  unfold RoundsAway
  rw [sgn_mul_neg_iff hx, sgn_mul_pos_iff hx]
  rcases ofMod_cases md with ⟨hm', -⟩ | ⟨hm', -⟩ | ⟨hm', -⟩ | ⟨hm', -⟩
  · exact absurd hm' hm
  · obtain ⟨h1, h2⟩ := (roundedInt_iff_zero hm').mp h
    rw [abs_sub_signedInt] at h2
    rw [signedInt_cast, abs_sgn_mul, abs_sgn_mul, Nat.abs_cast, abs_of_pos hx] at h1
    rw [abs_lt] at h2
    exact ⟨fun h => by omega, fun _ => ⟨h1, by linarith⟩⟩
  · obtain ⟨h1, h2⟩ := (roundedInt_iff_down hm').mp h
    rw [signedInt_cast] at h1 h2
    cases neg
    · simp only [sgn, Bool.false_eq_true, if_false, one_mul] at h1 h2
      exact ⟨fun h => by simp [hm'] at h, fun _ => ⟨h1, h2⟩⟩
    · simp only [sgn, if_true, neg_one_mul] at h1 h2
      exact ⟨fun _ => ⟨by linarith, by linarith⟩, fun h => by simp [hm'] at h⟩
  · obtain ⟨h1, h2⟩ := (roundedInt_iff_up hm').mp h
    rw [signedInt_cast] at h1 h2
    cases neg
    · simp only [sgn, Bool.false_eq_true, if_false, one_mul] at h1 h2
      exact ⟨fun _ => ⟨h1, h2⟩, fun h => by simp [hm'] at h⟩
    · simp only [sgn, if_true, neg_one_mul] at h1 h2
      exact ⟨fun h => by simp [hm'] at h, fun _ => ⟨by linarith, by linarith⟩⟩

/-- A magnitude whose rounding by MOD reaches T, for T even. -/
def RoundsUpTo (md : BitVec 3) (away : Prop) (T : ℕ) (x : ℚ) : Prop :=
  (md.toNat % 4 = 0 → (T : ℚ) - 1 / 2 ≤ x) ∧ (md.toNat % 4 ≠ 0 → away → (T : ℚ) - 1 < x) ∧ (md.toNat % 4 ≠ 0 → ¬ away → (T : ℚ) ≤ x)

theorem roundsUpTo_iff (hx : 0 < x) (hT : T % 2 = 0) (h : RoundedInt md (sgn neg * x) (signedInt neg k)) :
    T ≤ k ↔ RoundsUpTo md (RoundsAway md (sgn neg * x)) T x := by
  by_cases hm : md.toNat % 4 = 0
  · obtain ⟨h1, h2⟩ := (roundedInt_iff_nearest hm).mp h
    rw [abs_sub_signedInt] at h1 h2
    rw [signedInt_mod_two] at h2
    have h1' := abs_le.mp h1
    simp only [RoundsUpTo, hm, ne_eq, not_true_eq_false, false_implies, and_true, true_implies]
    constructor
    · intro hk
      have : (T : ℚ) ≤ k := by exact_mod_cast hk
      linarith
    · intro hle
      by_contra hc
      have hk : (k : ℚ) + 1 ≤ T := by exact_mod_cast not_le.mp hc
      have heq : |x - k| = 1 / 2 := by
        rw [abs_of_nonneg (by linarith)]
        linarith
      have hk1 : (k : ℚ) + 1 = T := by
        rw [abs_of_nonneg (by linarith)] at heq
        linarith
      have hk2 : k + 1 = T := by exact_mod_cast hk1
      have := h2 heq
      omega
  · obtain ⟨ha, hn⟩ := roundedInt_magnitude hx hm h
    simp only [RoundsUpTo, hm, ne_eq, not_false_eq_true, false_implies, true_and, true_implies]
    by_cases hw : RoundsAway md (sgn neg * x)
    · obtain ⟨h1, h2⟩ := ha hw
      simp only [hw, true_implies, not_true_eq_false, false_implies, and_true]
      constructor
      · intro hk
        have : (T : ℚ) ≤ k := by exact_mod_cast hk
        linarith
      · intro hlt
        by_contra hc
        have hk : (k : ℚ) + 1 ≤ T := by exact_mod_cast not_le.mp hc
        linarith
    · obtain ⟨h1, h2⟩ := hn hw
      simp only [hw, false_implies, not_false_eq_true, true_implies, true_and]
      constructor
      · intro hk
        have : (T : ℚ) ≤ k := by exact_mod_cast hk
        linarith
      · intro hle
        by_contra hc
        have hk : (k : ℚ) + 1 ≤ T := by exact_mod_cast not_le.mp hc
        linarith

theorem roundsUpTo_of_le {away : Prop} (h : (T : ℚ) ≤ x) : RoundsUpTo md away T x :=
  ⟨fun _ => by linarith, fun _ _ => by linarith, fun _ _ => h⟩

theorem not_roundsUpTo_of_le {away : Prop} (h : x ≤ (T : ℚ) - 1) : ¬ RoundsUpTo md away T x := by
  rintro ⟨h0, ha, hn⟩
  by_cases hm : md.toNat % 4 = 0
  · have := h0 hm
    linarith
  · by_cases hw : away
    · have := ha hm hw
      linarith
    · have := hn hm hw
      linarith

/-- Among the integers, and the numbers nearer to zero than an integer that X is not nearer than, the rounded integer is best. -/
theorem nearest_le (hm : md.toNat % 4 = 0) (h : RoundedInt md X K) (hY : (∃ j : ℤ, Y = j) ∨ ∃ n : ℕ, |Y| < n ∧ (n : ℚ) ≤ |X|) :
    |X - K| ≤ |X - Y| ∧ (|X - Y| = |X - K| → Y = K ∨ K % 2 = 0) := by
  obtain ⟨h1, h2⟩ := (roundedInt_iff_nearest hm).mp h
  have hint (j : ℤ) : |X - K| ≤ |X - j| ∧ (|X - j| = |X - K| → (j : ℚ) = K ∨ K % 2 = 0) := by
    by_cases hj : j = K
    · rw [hj]
      exact ⟨le_rfl, fun _ => .inl rfl⟩
    · have hd : (1 : ℚ) ≤ |(j : ℚ) - K| := by exact_mod_cast Int.one_le_abs (sub_ne_zero.mpr hj)
      have htri : |(j : ℚ) - K| ≤ |X - j| + |X - K| := by
        calc |(j : ℚ) - K| = |(X - K) - (X - j)| := by ring_nf
          _ ≤ |X - K| + |X - j| := abs_sub _ _
          _ = |X - j| + |X - K| := add_comm _ _
      exact ⟨by linarith, fun heq => .inr (h2 (by linarith))⟩
  rcases hY with ⟨j, rfl⟩ | ⟨n, hYn, hn⟩
  · exact hint j
  · have hlt : |X - K| < |X - Y| := by
      rcases le_total 0 X with hX | hX
      · have := (hint n).1
        rw [abs_of_nonneg hX] at hn
        push_cast at this
        rw [abs_of_nonneg (by linarith : (0 : ℚ) ≤ X - n)] at this
        have hY' := (abs_lt.mp hYn).2
        rw [abs_of_nonneg (by linarith : (0 : ℚ) ≤ X - Y)]
        linarith
      · have := (hint (-n)).1
        rw [abs_of_nonpos hX] at hn
        push_cast at this
        rw [abs_of_nonpos (by linarith : X - -(n : ℚ) ≤ 0)] at this
        have hY' := (abs_lt.mp hYn).1
        rw [abs_of_nonpos (by linarith : X - Y ≤ 0)]
        linarith
    exact ⟨hlt.le, fun h => absurd h hlt.ne'⟩

theorem toward_zero_le (hm : md.toNat % 4 = 1) (h : RoundedInt md X K) (hY : (∃ j : ℤ, Y = j) ∨ ∃ n : ℕ, |Y| < n ∧ (n : ℚ) ≤ |X|) :
    |(K : ℚ)| ≤ |X| ∧ (|Y| ≤ |X| → |Y| ≤ |(K : ℚ)|) := by
  obtain ⟨h1, h2⟩ := (roundedInt_iff_zero hm).mp h
  have hlt : |X| < |(K : ℚ)| + 1 := by
    have := abs_sub_abs_le_abs_sub X K
    linarith
  have hint (j : ℤ) (hj : |(j : ℚ)| ≤ |X|) : |(j : ℚ)| ≤ |(K : ℚ)| := by
    have h3 : ((|j| : ℤ) : ℚ) < (|K| : ℤ) + 1 := by push_cast; linarith
    have h4 : |j| ≤ |K| := Int.lt_add_one_iff.mp (by exact_mod_cast h3)
    exact_mod_cast h4
  refine ⟨h1, fun hle => ?_⟩
  rcases hY with ⟨j, rfl⟩ | ⟨n, hYn, hn⟩
  · exact hint j hle
  · have := hint n (by simpa using hn)
    rw [Int.cast_natCast, Nat.abs_cast] at this
    linarith

theorem below_le (hm : md.toNat % 4 = 2) (h : RoundedInt md X K) (hY : (∃ j : ℤ, Y = j) ∨ ∃ n : ℕ, |Y| < n ∧ (n : ℚ) ≤ |X|) :
    (K : ℚ) ≤ X ∧ (Y ≤ X → Y ≤ K) := by
  refine ⟨((roundedInt_iff_down hm).mp h).1, fun hle => ?_⟩
  rcases hY with ⟨j, rfl⟩ | ⟨n, hYn, hn⟩
  · exact_mod_cast h.ge_of_ge hle
  · have hY' := abs_lt.mp hYn
    rcases le_total 0 X with hX | hX
    · rw [abs_of_nonneg hX] at hn
      have : ((n : ℤ) : ℚ) ≤ K := by exact_mod_cast h.ge_of_ge (n := n) (by exact_mod_cast hn)
      push_cast at this
      linarith
    · rw [abs_of_nonpos hX] at hn
      linarith

theorem above_le (hm : md.toNat % 4 = 3) (h : RoundedInt md X K) (hY : (∃ j : ℤ, Y = j) ∨ ∃ n : ℕ, |Y| < n ∧ (n : ℚ) ≤ |X|) :
    X ≤ K ∧ (X ≤ Y → (K : ℚ) ≤ Y) := by
  refine ⟨((roundedInt_iff_up hm).mp h).1, fun hle => ?_⟩
  rcases hY with ⟨j, rfl⟩ | ⟨n, hYn, hn⟩
  · exact_mod_cast h.le_of_le hle
  · have hY' := abs_lt.mp hYn
    rcases le_total 0 X with hX | hX
    · rw [abs_of_nonneg hX] at hn
      linarith
    · rw [abs_of_nonpos hX] at hn
      have : (K : ℚ) ≤ ((-n : ℤ) : ℚ) := by exact_mod_cast h.le_of_le (n := -n) (by push_cast; linarith)
      push_cast at this
      linarith

end

end Sys2Proof.Claims
end

