-- ==== Sys2Proof/Proofs/FloatNumbers.lean ====
section
/-! The finite numbers of a floating format: what a pattern stands for, and which numbers the format has (05 R127, R142). -/

namespace Sys2Proof.Claims

open Machine

/-! ### The format of a type -/

/-- The format of a floating type, and F36 as type 36 (05 R127, R142). -/
def fmtOf (ty : ℕ) : Fmt := if ty = 36 then Fmt.f36 else tyFmt ty

theorem fmtOf_tyFmt {ty : ℕ} (h : ty ≠ 36) : fmtOf ty = tyFmt ty := if_neg h

theorem floatForm_eq (ty : ℕ) : floatForm ty = ((fmtOf ty).eb, (fmtOf ty).fb, (fmtOf ty).bias) := by
  unfold floatForm fmtOf tyFmt
  by_cases h36 : ty = 36
  · subst h36
    rfl
  · simp only [h36, if_false]
    split_ifs <;> rfl

/-- What the proofs need of a format's sizes. -/
structure Fmt.Sized (f : Fmt) : Prop where
  fb_pos : 1 ≤ f.fb
  fb_ge : 7 ≤ f.fb
  fb_lt : f.fb < 32
  bias_ge : f.fb + 4 ≤ f.bias
  bias_lt : f.bias < 128
  bias_pos : 1 ≤ f.bias
  top_eq : f.top = 2 * f.bias + 1
  pow_eb : 2 ^ f.eb = 2 * f.bias + 2

theorem fmtOf_sized (ty : ℕ) : Fmt.Sized (fmtOf ty) := by
  unfold fmtOf tyFmt
  split_ifs <;> constructor <;> decide

section
variable {ty p : ℕ}

/-- The exponent field and the fraction of a pattern. -/
def expField (f : Fmt) (p : ℕ) : ℕ := p / 2 ^ f.fb % 2 ^ f.eb
def fraction (f : Fmt) (p : ℕ) : ℕ := p % 2 ^ f.fb

theorem finiteFloat_iff : FiniteFloat ty p ↔ expField (fmtOf ty) p ≠ (fmtOf ty).top := by
  unfold FiniteFloat
  rw [floatForm_eq]
  rfl

theorem negative_iff : negative ty p = true ↔ p / 2 ^ ((fmtOf ty).eb + (fmtOf ty).fb) % 2 = 1 := by
  unfold negative
  rw [floatForm_eq]
  simp

/-- A magnitude and exponent of a finite number as a format holds it: a subnormal number, or one with its leading bit. -/
structure Normal (f : Fmt) (M : ℕ) (E : ℤ) : Prop where
  lt : M < 2 ^ (f.fb + 1)
  ge_min : 1 - (f.bias : ℤ) - f.fb ≤ E
  le_max : E ≤ (f.bias : ℤ) - f.fb
  lead : E = 1 - (f.bias : ℤ) - f.fb ∨ 2 ^ f.fb ≤ M

/-- Magnitude and exponent of a finite pattern. -/
def magOf (f : Fmt) (p : ℕ) : ℕ := if expField f p = 0 then fraction f p else 2 ^ f.fb + fraction f p
def expOf (f : Fmt) (p : ℕ) : ℤ :=
  if expField f p = 0 then 1 - (f.bias : ℤ) - f.fb else (expField f p : ℤ) - f.bias - f.fb

theorem floatValue_eq : floatValue ty p =
    sgn (negative ty p) * ((magOf (fmtOf ty) p : ℚ) * 2 ^ expOf (fmtOf ty) p) := by
  unfold floatValue negative sgn
  rw [floatForm_eq]
  simp only [decide_eq_true_eq, magOf, expOf, expField, fraction]
  by_cases h0 : p / 2 ^ (fmtOf ty).fb % 2 ^ (fmtOf ty).eb = 0
  · simp only [h0, if_true]
  · simp only [h0, if_false]

theorem read_finite (h : FiniteFloat ty p) :
    (fmtOf ty).read p = .fin (negative ty p) (magOf (fmtOf ty) p) (expOf (fmtOf ty) p) := by
  rw [finiteFloat_iff] at h
  unfold negative
  rw [floatForm_eq]
  unfold Fmt.read magOf expOf
  simp only [expField, fraction] at h ⊢
  rw [if_neg h]
  by_cases h0 : p / 2 ^ (fmtOf ty).fb % 2 ^ (fmtOf ty).eb = 0
  · simp only [h0, if_true]
  · simp only [h0, if_false]

theorem normal_of_finite (h : FiniteFloat ty p) : Normal (fmtOf ty) (magOf (fmtOf ty) p) (expOf (fmtOf ty) p) := by
  rw [finiteFloat_iff] at h
  have hs := fmtOf_sized ty
  generalize fmtOf ty = f at h hs ⊢
  have hb := hs.bias_pos
  have hfrac : fraction f p < 2 ^ f.fb := Nat.mod_lt _ (Nat.two_pow_pos _)
  have hexp : expField f p < f.top := by
    have : expField f p < 2 ^ f.eb := Nat.mod_lt _ (Nat.two_pow_pos _)
    have := hs.top_eq
    have := hs.pow_eb
    omega
  have htop := hs.top_eq
  have hpow : 2 ^ (f.fb + 1) = 2 ^ f.fb + 2 ^ f.fb := by rw [pow_succ]; omega
  unfold magOf expOf
  by_cases h0 : expField f p = 0
  · simp only [h0, if_true]
    exact ⟨by omega, le_rfl, by omega, .inl rfl⟩
  · simp only [h0, if_false]
    exact ⟨by omega, by omega, by omega, .inr (by omega)⟩

end

/-! ### Which numbers stand on a grid -/

section
variable {f : Fmt} {M : ℕ} {E q : ℤ}

/-- On a grid of units 2^q: a number of the format is a multiple of the unit, or smaller than every normal number of that unit. -/
theorem Normal.multiple_or_small (h : Normal f M E) : (∃ j : ℕ, (M : ℚ) * 2 ^ E = j * 2 ^ q) ∨
    ((M : ℚ) * 2 ^ E < 2 ^ f.fb * 2 ^ q ∧ 1 - (f.bias : ℤ) - f.fb < q) := by
  rcases le_or_gt q E with hle | hlt
  · obtain ⟨n, rfl⟩ := Int.le.dest hle
    exact .inl ⟨M * 2 ^ n, by rw [zpow_add₀ two_ne_zero, zpow_natCast]; push_cast; ring⟩
  · refine .inr ⟨?_, lt_of_le_of_lt h.ge_min hlt⟩
    have hM : (M : ℚ) < 2 ^ (f.fb + 1) := by exact_mod_cast h.lt
    have hE : (2 : ℚ) ^ E * 2 ≤ 2 ^ q := by
      rw [← zpow_add_one₀ two_ne_zero]
      exact zpow_le_zpow_right₀ one_le_two hlt
    have hpos : (0 : ℚ) < 2 ^ E := zpow_pos two_pos E
    calc (M : ℚ) * 2 ^ E < 2 ^ (f.fb + 1) * 2 ^ E := mul_lt_mul_of_pos_right hM hpos
      _ = 2 ^ f.fb * (2 ^ E * 2) := by ring
      _ ≤ 2 ^ f.fb * 2 ^ q := mul_le_mul_of_nonneg_left hE (by positivity)

end

/-! ### Patterns put together -/

section
variable {f : Fmt} {neg : Bool} {F r : ℕ}

/-- A pattern of a sign, an exponent field and a fraction. -/
def packed (f : Fmt) (neg : Bool) (F r : ℕ) : ℕ := f.zero neg + F * 2 ^ f.fb + r

theorem packed_high (hr : r < 2 ^ f.fb) : packed f neg F r / 2 ^ f.fb = (if neg then 2 ^ f.eb else 0) + F := by
  have hz : f.zero neg = (if neg then 2 ^ f.eb else 0) * 2 ^ f.fb := by
    unfold Fmt.zero
    split
    · rw [pow_add]
    · rw [zero_mul]
  rw [packed, hz, ← Nat.add_mul, Nat.add_comm _ r, Nat.add_mul_div_right _ _ (Nat.two_pow_pos _), Nat.div_eq_of_lt hr, Nat.zero_add]

theorem packed_fraction (hr : r < 2 ^ f.fb) : fraction f (packed f neg F r) = r := by
  have hd := Nat.div_add_mod (packed f neg F r) (2 ^ f.fb)
  have hz : f.zero neg = 2 ^ f.fb * (if neg then 2 ^ f.eb else 0) := by
    unfold Fmt.zero
    split
    · rw [Nat.add_comm, pow_add]
    · rw [mul_zero]
  rw [packed_high hr, Nat.mul_add, ← hz] at hd
  rw [fraction]
  unfold packed at hd ⊢
  rw [Nat.mul_comm (2 ^ f.fb) F] at hd
  omega

theorem packed_expField (hF : F < 2 ^ f.eb) (hr : r < 2 ^ f.fb) : expField f (packed f neg F r) = F := by
  rw [expField, packed_high hr]
  split
  · rw [Nat.add_mod_left, Nat.mod_eq_of_lt hF]
  · rw [Nat.zero_add, Nat.mod_eq_of_lt hF]

theorem packed_sign (hF : F < 2 ^ f.eb) (hr : r < 2 ^ f.fb) : packed f neg F r / 2 ^ (f.eb + f.fb) = if neg then 1 else 0 := by
  rw [Nat.add_comm f.eb, pow_add, ← Nat.div_div_eq_div_mul, packed_high hr]
  split
  · rw [Nat.add_div_left _ (Nat.two_pow_pos _), Nat.div_eq_of_lt hF]
  · rw [Nat.zero_add, Nat.div_eq_of_lt hF]

theorem packed_lt (hF : F < 2 ^ f.eb) (hr : r < 2 ^ f.fb) : packed f neg F r < 2 ^ (f.eb + f.fb + 1) := by
  refine Nat.lt_of_div_lt_div (c := 2 ^ (f.eb + f.fb)) ?_
  rw [packed_sign hF hr, pow_succ, Nat.mul_div_cancel_left _ (Nat.two_pow_pos _)]
  split <;> decide

end

/-- The pattern of a multiple k of the unit 2^q, k at most 2^(fb + 1): a carry out of the fraction goes into the exponent field. -/
def fieldOf (f : Fmt) (k : ℕ) (q : ℤ) : ℤ :=
  if k < 2 ^ f.fb then 0 else q + f.fb + f.bias + (if k = 2 ^ (f.fb + 1) then 1 else 0)

/-- A pattern and the number it stands for. -/
structure StandsFor (ty : ℕ) (neg : Bool) (k : ℕ) (q : ℤ) (p : ℕ) : Prop where
  finite : FiniteFloat ty p
  lt : p < 2 ^ ((fmtOf ty).eb + (fmtOf ty).fb + 1)
  sign : p / 2 ^ ((fmtOf ty).eb + (fmtOf ty).fb) = if neg then 1 else 0
  value : floatValue ty p = sgn neg * ((k : ℚ) * 2 ^ q)
  parity : p % 2 = k % 2

section
variable {ty : ℕ} {neg : Bool} {k : ℕ} {q : ℤ}

/-- The fields of a pattern put together hold its multiple of the unit. -/
theorem fieldOf_value {f : Fmt} (hk : k ≤ 2 ^ (f.fb + 1)) (hq : 1 - (f.bias : ℤ) - f.fb ≤ q)
    (hl : q = 1 - (f.bias : ℤ) - f.fb ∨ 2 ^ f.fb ≤ k) :
    ((if (fieldOf f k q).toNat = 0 then k % 2 ^ f.fb else 2 ^ f.fb + k % 2 ^ f.fb : ℕ) : ℚ) *
      2 ^ (if (fieldOf f k q).toNat = 0 then 1 - (f.bias : ℤ) - f.fb else ((fieldOf f k q).toNat : ℤ) - f.bias - f.fb) =
    (k : ℚ) * 2 ^ q := by
  unfold fieldOf
  rcases lt_or_ge k (2 ^ f.fb) with hlt | hge
  · have hq' : q = 1 - (f.bias : ℤ) - f.fb := hl.resolve_right (not_le.mpr hlt)
    simp only [hlt, if_true, Int.toNat_zero, Nat.mod_eq_of_lt hlt, hq']
  · rcases hk.lt_or_eq with hlt' | heq
    · have hF : ((q + f.fb + f.bias + 0).toNat : ℤ) = q + f.fb + f.bias := by omega
      have h0 : (q + f.fb + f.bias + 0).toNat ≠ 0 := by omega
      have hr : k % 2 ^ f.fb = k - 2 ^ f.fb := by
        rw [pow_succ] at hlt'
        rw [Nat.mod_eq_sub_mod hge, Nat.mod_eq_of_lt (by omega)]
      rw [if_neg (not_lt.mpr hge), if_neg hlt'.ne, if_neg h0, if_neg h0, hF, hr, Nat.add_sub_cancel' hge]
      congr 2
      ring
    · have hF : ((q + f.fb + f.bias + 1).toNat : ℤ) = q + f.fb + f.bias + 1 := by omega
      have h0 : (q + f.fb + f.bias + 1).toNat ≠ 0 := by omega
      have hr : k % 2 ^ f.fb = 0 := by rw [heq, pow_succ, Nat.mul_mod_right]
      rw [if_neg (not_lt.mpr hge), if_pos heq, if_neg h0, if_neg h0, hF, hr, heq, Nat.add_zero,
        show q + f.fb + f.bias + 1 - f.bias - f.fb = q + 1 by ring, zpow_add_one₀ two_ne_zero, pow_succ]
      push_cast
      ring

theorem packed_parity {f : Fmt} {F : ℕ} (hfb : 1 ≤ f.fb) : packed f neg F (k % 2 ^ f.fb) % 2 = k % 2 := by
  have h2 : 2 ∣ 2 ^ f.fb := dvd_pow_self 2 (by omega)
  have hz : f.zero neg % 2 = 0 := by
    unfold Fmt.zero
    split
    · exact Nat.mod_eq_zero_of_dvd (dvd_pow_self 2 (by omega))
    · rfl
  have hF : F * 2 ^ f.fb % 2 = 0 := Nat.mod_eq_zero_of_dvd (h2.mul_left F)
  have hr := Nat.mod_mod_of_dvd k h2
  unfold packed
  omega

theorem stands_packed (hk : k ≤ 2 ^ ((fmtOf ty).fb + 1)) (hq : 1 - ((fmtOf ty).bias : ℤ) - (fmtOf ty).fb ≤ q)
    (hl : q = 1 - ((fmtOf ty).bias : ℤ) - (fmtOf ty).fb ∨ 2 ^ (fmtOf ty).fb ≤ k) (hf : fieldOf (fmtOf ty) k q < (fmtOf ty).top) :
    StandsFor ty neg k q (packed (fmtOf ty) neg (fieldOf (fmtOf ty) k q).toNat (k % 2 ^ (fmtOf ty).fb)) := by
  have hs := fmtOf_sized ty
  have hr : k % 2 ^ (fmtOf ty).fb < 2 ^ (fmtOf ty).fb := Nat.mod_lt _ (Nat.two_pow_pos _)
  have hF : (fieldOf (fmtOf ty) k q).toNat < (fmtOf ty).top := by
    have : 0 < (fmtOf ty).top := by rw [hs.top_eq]; omega
    omega
  have hF' : (fieldOf (fmtOf ty) k q).toNat < 2 ^ (fmtOf ty).eb := by
    rw [hs.pow_eb]
    rw [hs.top_eq] at hF
    omega
  have hneg : negative ty (packed (fmtOf ty) neg (fieldOf (fmtOf ty) k q).toNat (k % 2 ^ (fmtOf ty).fb)) = neg := by
    rw [Bool.eq_iff_iff, negative_iff, packed_sign hF' hr]
    cases neg <;> simp
  refine ⟨finiteFloat_iff.mpr ?_, packed_lt hF' hr, packed_sign hF' hr, ?_, ?_⟩
  · rw [packed_expField hF' hr]
    exact hF.ne
  · rw [floatValue_eq, hneg, magOf, expOf, packed_expField hF' hr, packed_fraction hr]
    rw [fieldOf_value hk hq hl]
  · exact packed_parity hs.fb_pos

end

end Sys2Proof.Claims
end

