-- ==== Sys2Proof/Proofs/FloatRounding.lean ====
section
/-! The model's rounding to a floating format is correct rounding: the number that MOD chooses, its overflow and its flags (05 R127, R128,
R131, 12 R358). -/

namespace Sys2Proof.Claims

open Machine

/-! ### The number MOD chooses -/

section
variable {ty k p : ℕ} {md : BitVec 3} {neg : Bool} {μ : ℚ} {q : ℤ}

/-- A finite number over the unit of a result: an integer, or nearer to zero than a power of two that the rounded number is not. -/
theorem over_unit {c : ℕ} (hc : FiniteFloat ty c)
    (hl : q = 1 - ((fmtOf ty).bias : ℤ) - (fmtOf ty).fb ∨ (2 : ℚ) ^ (fmtOf ty).fb ≤ μ / 2 ^ q) :
    (∃ j : ℤ, floatValue ty c / 2 ^ q = j) ∨ ∃ n : ℕ, |floatValue ty c / 2 ^ q| < n ∧ (n : ℚ) ≤ |sgn neg * (μ / 2 ^ q)| := by
  have hu : (0 : ℚ) < 2 ^ q := zpow_pos two_pos q
  rw [floatValue_eq]
  rcases (normal_of_finite hc).multiple_or_small (q := q) with ⟨j, hj⟩ | ⟨hlt, hq⟩
  · exact .inl ⟨signedInt (negative ty c) j, by rw [hj, signedInt_cast, ← mul_assoc, mul_div_cancel_right₀ _ hu.ne']⟩
  · refine .inr ⟨2 ^ (fmtOf ty).fb, ?_, ?_⟩
    · rw [mul_div_assoc, abs_sgn_mul, abs_of_nonneg (by positivity), div_lt_iff₀ hu]
      exact_mod_cast hlt
    · have := hl.resolve_left (by omega)
      rw [abs_sgn_mul]
      exact_mod_cast this.trans (le_abs_self _)

theorem nearest_of_roundedInt (hμ : 0 < μ)
    (hl : q = 1 - ((fmtOf ty).bias : ℤ) - (fmtOf ty).fb ∨ (2 : ℚ) ^ (fmtOf ty).fb ≤ μ / 2 ^ q)
    (hr : RoundedInt md (sgn neg * (μ / 2 ^ q)) (signedInt neg k)) (hp : StandsFor ty neg k q p) :
    Nearest ty md (sgn neg * μ) p := by
  have hu : (0 : ℚ) < 2 ^ q := zpow_pos two_pos q
  have hv : sgn neg * μ = sgn neg * (μ / 2 ^ q) * 2 ^ q := by rw [mul_assoc, div_mul_cancel₀ _ hu.ne']
  have hpv : floatValue ty p = signedInt neg k * 2 ^ q := by rw [hp.value, signedInt_cast, mul_assoc]
  have hev : signedInt neg k % 2 = 0 ↔ p % 2 = 0 := by rw [signedInt_mod_two, hp.parity]
  have hsign : p / 2 ^ ((fmtOf ty).eb + (fmtOf ty).fb) = 1 ↔ sgn neg * μ < 0 := by
    rw [sgn_mul_neg_iff hμ, hp.sign]
    cases neg <;> simp
  unfold Nearest
  rw [floatForm_eq]
  refine ⟨hp.finite, hp.lt, hsign, fun c hc => ?_⟩
  have hcv : floatValue ty c = floatValue ty c / 2 ^ q * 2 ^ q := (div_mul_cancel₀ _ hu.ne').symm
  have hY := over_unit (neg := neg) hc hl
  have hscale (a b : ℚ) : |a * 2 ^ q - b * 2 ^ q| = |a - b| * 2 ^ q := by rw [← sub_mul, abs_mul, abs_of_pos hu]
  rw [hv, hpv, hcv]
  generalize sgn neg * (μ / 2 ^ q) = X at hr hY ⊢
  generalize floatValue ty c / 2 ^ q = Y at hY ⊢
  rcases ofMod_cases md with ⟨hm, -⟩ | ⟨hm, -⟩ | ⟨hm, -⟩ | ⟨hm, -⟩
  · obtain ⟨h1, h2⟩ := nearest_le hm hr hY
    simp only [hm, hscale, mul_le_mul_iff_left₀ hu, mul_left_inj' hu.ne', ← hev]
    exact ⟨h1, h2⟩
  · obtain ⟨h1, h2⟩ := toward_zero_le hm hr hY
    simp only [hm, abs_mul, abs_of_pos hu, mul_le_mul_iff_left₀ hu]
    exact ⟨h1, h2⟩
  · obtain ⟨h1, h2⟩ := below_le hm hr hY
    simp only [hm, mul_le_mul_iff_left₀ hu]
    exact ⟨h1, h2⟩
  · obtain ⟨h1, h2⟩ := above_le hm hr hY
    simp only [hm, mul_le_mul_iff_left₀ hu]
    exact ⟨h1, h2⟩

end

/-! ### Overflow and tininess -/

section
variable {ty : ℕ} {md : BitVec 3} {v : ℚ}

theorem overflows_iff : Overflows ty md v ↔
    RoundsUpTo md (RoundsAway md v) (2 ^ ((fmtOf ty).fb + 1)) (|v| / 2 ^ (((fmtOf ty).bias : ℤ) - (fmtOf ty).fb)) := by
  have hu : (0 : ℚ) < 2 ^ (((fmtOf ty).bias : ℤ) - (fmtOf ty).fb) := zpow_pos two_pos _
  have htop : (2 : ℚ) ^ (((fmtOf ty).bias : ℤ) + 1) = (2 ^ ((fmtOf ty).fb + 1) : ℕ) * 2 ^ (((fmtOf ty).bias : ℤ) - (fmtOf ty).fb) := by
    push_cast
    rw [← zpow_natCast, ← zpow_add₀ two_ne_zero]
    congr 1
    push_cast
    ring
  unfold Overflows RoundsUpTo
  rw [floatForm_eq]
  dsimp only
  rw [htop]
  simp only [le_div_iff₀ hu, lt_div_iff₀ hu, sub_mul, one_mul, one_div_mul_eq_div]

theorem tiny_iff : Tiny ty md v ↔
    ¬ RoundsUpTo md (RoundsAway md v) (2 ^ ((fmtOf ty).fb + 1)) (|v| / 2 ^ (-((fmtOf ty).bias : ℤ) - (fmtOf ty).fb)) := by
  have hu : (0 : ℚ) < 2 ^ (-((fmtOf ty).bias : ℤ) - (fmtOf ty).fb) := zpow_pos two_pos _
  have hleast : (2 : ℚ) ^ (1 - ((fmtOf ty).bias : ℤ)) = (2 ^ ((fmtOf ty).fb + 1) : ℕ) * 2 ^ (-((fmtOf ty).bias : ℤ) - (fmtOf ty).fb) := by
    push_cast
    rw [← zpow_natCast, ← zpow_add₀ two_ne_zero]
    congr 1
    push_cast
    ring
  unfold Tiny RoundsUpTo
  rw [floatForm_eq]
  dsimp only
  rw [hleast]
  simp only [le_div_iff₀ hu, lt_div_iff₀ hu, sub_mul, one_mul, one_div_mul_eq_div]
  by_cases hm : md.toNat % 4 = 0
  · simp only [hm, true_implies, ne_eq, not_true_eq_false, false_implies, and_true, not_le]
  · by_cases hw : RoundsAway md v
    · simp only [hm, hw, false_implies, ne_eq, not_false_eq_true, true_implies, not_true_eq_false, and_true, true_and, not_lt]
    · simp only [hm, hw, false_implies, ne_eq, not_false_eq_true, true_implies, true_and, not_le]

end

/-! ### Magnitudes and their leading bit -/

section
variable {m : ℕ} {e q : ℤ} {sticky : Bool} {μ : ℚ}

theorem bitLen_pos (hm : m ≠ 0) : 1 ≤ bitLen m := by
  rw [bitLen, if_neg hm]
  omega

theorem two_pow_le_of_bitLen (hm : m ≠ 0) : 2 ^ (bitLen m - 1) ≤ m := by
  rw [bitLen, if_neg hm, Nat.add_sub_cancel]
  exact Nat.log2_self_le hm

theorem lt_two_pow_bitLen (m : ℕ) : m < 2 ^ bitLen m := by
  unfold bitLen
  split
  case isTrue h => simp [h]
  case isFalse => exact Nat.lt_log2_self

theorem le_bitLen {n : ℕ} (h : 2 ^ n ≤ m) : n + 1 ≤ bitLen m := by
  have := h.trans_lt (lt_two_pow_bitLen m)
  exact (Nat.pow_lt_pow_iff_right (by decide)).mp this

theorem bitLen_le {n : ℕ} (hm : m ≠ 0) (h : m < 2 ^ n) : bitLen m ≤ n := by
  have := (Nat.pow_lt_pow_iff_right (a := 2) (by decide)).mp ((two_pow_le_of_bitLen hm).trans_lt h)
  omega

theorem Held.pos (hm : m ≠ 0) (h : Held m e sticky μ) : 0 < μ := by
  obtain ⟨δ, h0, -, -, rfl⟩ := h.unit_part
  have : (0 : ℚ) < m := by exact_mod_cast Nat.pos_of_ne_zero hm
  positivity

/-- A magnitude lies between the power of two of its leading bit and the next. -/
theorem Held.lead (hm : m ≠ 0) (h : Held m e sticky μ) :
    (2 : ℚ) ^ (e + bitLen m - 1) ≤ μ ∧ μ < 2 ^ (e + bitLen m) := by
  obtain ⟨δ, h0, h1, -, rfl⟩ := h.unit_part
  have hp : (0 : ℚ) < 2 ^ e := zpow_pos two_pos e
  have hlo : ((2 ^ (bitLen m - 1) : ℕ) : ℚ) ≤ m := by exact_mod_cast two_pow_le_of_bitLen hm
  have hhi : (m : ℚ) + 1 ≤ (2 ^ bitLen m : ℕ) := by exact_mod_cast lt_two_pow_bitLen m
  have hb := bitLen_pos hm
  constructor
  · rw [show e + bitLen m - 1 = ((bitLen m - 1 : ℕ) : ℤ) + e by omega, zpow_add₀ two_ne_zero, zpow_natCast]
    push_cast at hlo
    exact mul_le_mul_of_nonneg_right (by linarith) hp.le
  · rw [add_comm e, zpow_add₀ two_ne_zero, zpow_natCast]
    push_cast at hhi
    exact mul_lt_mul_of_pos_right (by linarith) hp

end

/-! ### The model's rounding -/

/-- The exponent of the unit that a magnitude is rounded to. -/
def unitExp (f : Fmt) (m : ℕ) (e : ℤ) : ℤ := max (e + bitLen m - 1 - f.fb) (1 - (f.bias : ℤ) - f.fb)

/-- Whether the model takes a magnitude as tiny: its rounding with no bound on the exponent stays below the least normal number. -/
def takenTiny (f : Fmt) (r : Round) (neg : Bool) (m : ℕ) (e : ℤ) (sticky : Bool) : Bool :=
  if e + bitLen m - 1 ≥ 1 - (f.bias : ℤ) then false
  else if e + bitLen m - 1 < 1 - (f.bias : ℤ) - 1 then true
  else (roundAt r neg m e sticky (e + bitLen m - 1 - f.fb)).1 < 2 ^ (f.fb + 1)

theorem round_eq {f : Fmt} {r : Round} {sat neg sticky : Bool} {m : ℕ} {e : ℤ} (hm : m ≠ 0) :
    f.round r sat neg m e sticky =
      if (f.top : ℤ) ≤ fieldOf f (roundAt r neg m e sticky (unitExp f m e)).1 (unitExp f m e) then (f.infinite sat neg, 0x14)
      else
        (packed f neg (fieldOf f (roundAt r neg m e sticky (unitExp f m e)).1 (unitExp f m e)).toNat
          ((roundAt r neg m e sticky (unitExp f m e)).1 % 2 ^ f.fb),
         (if (roundAt r neg m e sticky (unitExp f m e)).2 then 0 else fNX) |||
           (if takenTiny f r neg m e sticky && !(roundAt r neg m e sticky (unitExp f m e)).2 then fUF else 0)) := by
  unfold Fmt.round
  rw [if_neg hm]
  rfl

section
variable {ty : ℕ} {md : BitVec 3} {sat neg sticky : Bool} {m : ℕ} {e q : ℤ} {μ x : ℚ} {k n : ℕ}

theorem roundedInt_magnitude_bounds (h : RoundedInt md (sgn neg * x) (signedInt neg k)) : (x ≤ n → k ≤ n) ∧ ((n : ℚ) ≤ x → n ≤ k) := by
  have ha := h.abs_lt_one
  rw [abs_sub_signedInt] at ha
  obtain ⟨h1, h2⟩ := abs_lt.mp ha
  constructor
  · intro hx
    have : (k : ℚ) < n + 1 := by linarith
    exact Nat.lt_succ_iff.mp (by exact_mod_cast this)
  · intro hx
    have : (n : ℚ) < k + 1 := by linarith
    exact Nat.lt_succ_iff.mp (by exact_mod_cast this)

theorem roundsAway_div {u : ℚ} (hu : 0 < u) (md : BitVec 3) (neg : Bool) (μ : ℚ) :
    RoundsAway md (sgn neg * (μ / u)) ↔ RoundsAway md (sgn neg * μ) := by
  unfold RoundsAway
  rw [← mul_div_assoc, div_neg_iff, div_pos_iff]
  simp [hu, not_lt.mpr hu.le]

/-- A number over the unit 2^q of its rounding. -/
theorem unit_bounds {f : Fmt} (hm : m ≠ 0) (hμ : Held m e sticky μ) :
    μ / 2 ^ unitExp f m e < 2 ^ (f.fb + 1) ∧
      (unitExp f m e = 1 - (f.bias : ℤ) - f.fb ∨
        unitExp f m e = e + bitLen m - 1 - f.fb ∧ (2 : ℚ) ^ f.fb ≤ μ / 2 ^ unitExp f m e) := by
  obtain ⟨hlo, hhi⟩ := hμ.lead hm
  have hu : (0 : ℚ) < 2 ^ unitExp f m e := zpow_pos two_pos _
  constructor
  · rw [div_lt_iff₀ hu, ← zpow_natCast, ← zpow_add₀ two_ne_zero]
    refine hhi.trans_le (zpow_le_zpow_right₀ one_le_two ?_)
    unfold unitExp
    push_cast
    omega
  · rcases le_total (e + bitLen m - 1 - f.fb) (1 - (f.bias : ℤ) - f.fb) with h | h
    · exact .inl (max_eq_right h)
    · have hq : unitExp f m e = e + bitLen m - 1 - f.fb := max_eq_left h
      refine .inr ⟨hq, ?_⟩
      rw [le_div_iff₀ hu, ← zpow_natCast, ← zpow_add₀ two_ne_zero, hq]
      refine le_trans (zpow_le_zpow_right₀ one_le_two ?_) hlo
      omega

theorem sticky_lt_unitExp {f : Fmt} (hs : sticky = true → f.fb + 2 ≤ bitLen m) (h : sticky = true) : e < e + bitLen m - 1 - f.fb := by
  have := hs h
  omega

/-- The pattern overflows where the number does. -/
theorem top_le_fieldOf_iff (hm : m ≠ 0) (hμ : Held m e sticky μ)
    (hr : RoundedInt md (sgn neg * (μ / 2 ^ unitExp (fmtOf ty) m e)) (signedInt neg k)) :
    ((fmtOf ty).top : ℤ) ≤ fieldOf (fmtOf ty) k (unitExp (fmtOf ty) m e) ↔ Overflows ty md (sgn neg * μ) := by
  rw [overflows_iff, abs_sgn_mul, abs_of_pos (hμ.pos hm)]
  have hsz := fmtOf_sized ty
  obtain ⟨hlo, hhi⟩ := hμ.lead hm
  obtain ⟨hlt, hl⟩ := unit_bounds (f := fmtOf ty) hm hμ
  obtain ⟨hle, hge⟩ := roundedInt_magnitude_bounds (n := 2 ^ ((fmtOf ty).fb + 1)) hr
  have hge' := (roundedInt_magnitude_bounds (n := 2 ^ (fmtOf ty).fb) hr).2
  have hex : unitExp (fmtOf ty) m e ≥ e + bitLen m - 1 - (fmtOf ty).fb := le_max_left _ _
  generalize fmtOf ty = f at *
  have htop : (f.top : ℤ) = 2 * f.bias + 1 := by exact_mod_cast hsz.top_eq
  have hbias := hsz.bias_pos
  have hk : k ≤ 2 ^ (f.fb + 1) := hle (by exact_mod_cast hlt.le)
  have hub : (0 : ℚ) < 2 ^ ((f.bias : ℤ) - f.fb) := zpow_pos two_pos _
  have hpow : 2 ^ (f.fb + 1) = 2 * 2 ^ f.fb := pow_succ' 2 f.fb
  have hpos : 0 < 2 ^ f.fb := Nat.two_pow_pos _
  rcases lt_trichotomy (unitExp f m e) ((f.bias : ℤ) - f.fb) with h | h | h
  · refine iff_of_false ?_ (not_roundsUpTo_of_le ?_)
    · unfold fieldOf
      split_ifs <;> omega
    · have h1 : μ / 2 ^ ((f.bias : ℤ) - f.fb) ≤ 2 ^ f.fb := by
        rw [div_le_iff₀ hub, ← zpow_natCast, ← zpow_add₀ two_ne_zero]
        refine hhi.le.trans (zpow_le_zpow_right₀ one_le_two ?_)
        omega
      have h2 : (1 : ℚ) ≤ 2 ^ f.fb := one_le_pow₀ one_le_two
      push_cast
      rw [pow_succ]
      linarith
  · have hx : 0 < μ / 2 ^ ((f.bias : ℤ) - f.fb) := div_pos (hμ.pos hm) hub
    rw [h] at hr
    rw [← roundsAway_div hub, ← roundsUpTo_iff hx (by omega) hr, h]
    unfold fieldOf
    split_ifs <;> omega
  · have hq : unitExp f m e = e + bitLen m - 1 - f.fb ∧ (2 : ℚ) ^ f.fb ≤ μ / 2 ^ unitExp f m e := hl.resolve_left (by omega)
    refine iff_of_true ?_ (roundsUpTo_of_le ?_)
    · have := hge' (by exact_mod_cast hq.2)
      unfold fieldOf
      split_ifs <;> omega
    · rw [le_div_iff₀ hub]
      push_cast
      rw [← zpow_natCast, ← zpow_add₀ two_ne_zero]
      refine le_trans (zpow_le_zpow_right₀ one_le_two ?_) hlo
      push_cast
      omega

theorem takenTiny_iff (hm : m ≠ 0) (hs : sticky = true → (fmtOf ty).fb + 2 ≤ bitLen m) (hμ : Held m e sticky μ) :
    takenTiny (fmtOf ty) (Round.ofMod md) neg m e sticky = true ↔ Tiny ty md (sgn neg * μ) := by
  rw [tiny_iff, abs_sgn_mul, abs_of_pos (hμ.pos hm)]
  obtain ⟨hlo, hhi⟩ := hμ.lead hm
  generalize fmtOf ty = f at *
  have hub : (0 : ℚ) < 2 ^ (-(f.bias : ℤ) - f.fb) := zpow_pos two_pos _
  unfold takenTiny
  split_ifs with h1 h2
  · refine iff_of_false not_false (not_not_intro (roundsUpTo_of_le ?_))
    rw [le_div_iff₀ hub]
    push_cast
    rw [← zpow_natCast, ← zpow_add₀ two_ne_zero]
    refine le_trans (zpow_le_zpow_right₀ one_le_two ?_) hlo
    push_cast
    omega
  · refine iff_of_true rfl (not_roundsUpTo_of_le ?_)
    have h3 : μ / 2 ^ (-(f.bias : ℤ) - f.fb) ≤ 2 ^ f.fb := by
      rw [div_le_iff₀ hub, ← zpow_natCast, ← zpow_add₀ two_ne_zero]
      refine hhi.le.trans (zpow_le_zpow_right₀ one_le_two ?_)
      omega
    have h4 : (1 : ℚ) ≤ 2 ^ f.fb := one_le_pow₀ one_le_two
    push_cast
    rw [pow_succ]
    linarith
  · have hq : e + bitLen m - 1 - f.fb = -(f.bias : ℤ) - f.fb := by omega
    obtain ⟨hr, -⟩ := roundAt_spec (md := md) (neg := neg) (sticky_lt_unitExp hs) hμ
    rw [hq] at hr ⊢
    rw [decide_eq_true_iff, ← not_le,
      roundsUpTo_iff (div_pos (hμ.pos hm) hub) (by rw [pow_succ, Nat.mul_mod_left]) hr, roundsAway_div hub]

theorem infinite_eq (ty : ℕ) (sat : Bool) {v : ℚ} (hv : v < 0 ↔ neg = true) : (fmtOf ty).infinite sat neg =
    (if v < 0 then 2 ^ ((fmtOf ty).eb + (fmtOf ty).fb) else 0) + (2 ^ (fmtOf ty).eb - 1) * 2 ^ (fmtOf ty).fb -
      (if sat = true then 1 else 0) := by
  simp only [hv]
  unfold Fmt.infinite Fmt.largest
  split <;> rfl

/-- A number of the format in the place of one that does not overflow, with the flags that say whether it is exact and tiny. -/
theorem rounded_of_stands {p : ℕ} {exact tiny : Bool} (ho : ¬ Overflows ty md (sgn neg * μ)) (hn : Nearest ty md (sgn neg * μ) p)
    (hp : StandsFor ty neg k q p) (he : exact = true ↔ (k : ℚ) = μ / 2 ^ q) (ht : tiny = true ↔ Tiny ty md (sgn neg * μ)) :
    Rounded ty md (sgn neg * μ) (p, (if exact then 0 else fNX) ||| (if tiny && !exact then fUF else 0)) := by
  have hu : (0 : ℚ) < 2 ^ q := zpow_pos two_pos _
  have hsgn : sgn neg ≠ 0 := by cases neg <;> simp [sgn]
  have hiff : floatValue ty p = sgn neg * μ ↔ exact = true := by rw [hp.value, he, mul_right_inj' hsgn, eq_div_iff hu.ne']
  refine ⟨fun h => absurd h ho, fun _ => ⟨hn, fun h => ?_, fun h => ?_⟩⟩
  · simp [hiff.mp h]
  · have hx : exact = false := Bool.eq_false_iff.mpr (mt hiff.mpr h)
    rw [hx]
    refine ⟨fun h => ?_, fun h => ?_⟩
    · rw [ht.mpr h]
      rfl
    · rw [Bool.eq_false_iff.mpr (mt ht.mp h)]
      rfl

/-- The model's rounding of a magnitude is the number rounded once, with its flags. -/
theorem round_rounded (hm : m ≠ 0) (hs : sticky = true → (fmtOf ty).fb + 2 ≤ bitLen m) (hμ : Held m e sticky μ) :
    Rounded ty md (sgn neg * μ) ((fmtOf ty).round (Round.ofMod md) (md.getLsbD 2) neg m e sticky) := by
  have hpos := hμ.pos hm
  have hq : 1 - ((fmtOf ty).bias : ℤ) - (fmtOf ty).fb ≤ unitExp (fmtOf ty) m e := le_max_right _ _
  have hst (h : sticky = true) : e < unitExp (fmtOf ty) m e := (sticky_lt_unitExp hs h).trans_le (le_max_left _ _)
  obtain ⟨hr, hexact⟩ := roundAt_spec (md := md) (neg := neg) hst hμ
  have hov := top_le_fieldOf_iff hm hμ hr
  obtain ⟨hlt, hl⟩ := unit_bounds (f := fmtOf ty) hm hμ
  have hl' := hl.imp_right And.right
  have hk := (roundedInt_magnitude_bounds (n := 2 ^ ((fmtOf ty).fb + 1)) hr).1 (by exact_mod_cast hlt.le)
  have hlead := hl'.imp_right fun h => (roundedInt_magnitude_bounds (n := 2 ^ (fmtOf ty).fb) hr).2 (by exact_mod_cast h)
  rw [round_eq hm]
  by_cases ho : Overflows ty md (sgn neg * μ)
  · rw [if_pos (hov.mpr ho)]
    unfold Rounded
    rw [floatForm_eq]
    exact ⟨fun _ => Prod.ext (infinite_eq ty _ (sgn_mul_neg_iff hpos)) rfl, fun h => absurd ho h⟩
  · rw [if_neg (mt hov.mp ho)]
    have hstand := stands_packed (neg := neg) hk hq hlead (not_le.mp (mt hov.mp ho))
    exact rounded_of_stands ho (nearest_of_roundedInt hpos hl' hr hstand) hstand hexact (takenTiny_iff hm hs hμ)

end

end Sys2Proof.Claims
end

