-- ==== Sys2Proof/Proofs/ExactValues.lean ====
section
/-! Exact values in the model's arithmetic, and what its reads and writes of patterns give (05 R127, R128, R134, 12 R358). -/

namespace Sys2Proof.Claims

open Machine

/-! ### Exact values -/

section
variable {x y : FVal} {u v : ℚ} {r : Round}

theorem exactValue_fin (n : Bool) (m : ℕ) (e : ℤ) : ExactValue (.fin n m e) (sgn n * (m * 2 ^ e)) :=
  ⟨n, m, e, rfl, by unfold sgn; ring⟩

theorem exactValue_iff : ExactValue x v ↔ ∃ n m e, x = .fin n m e ∧ v = sgn n * (m * 2 ^ e) := by
  unfold ExactValue sgn
  simp only [mul_assoc]

theorem sgn_not (n : Bool) : sgn (!n) = -sgn n := by cases n <;> simp [sgn]

theorem sgn_bne (a b : Bool) : sgn (a != b) = sgn a * sgn b := by cases a <;> cases b <;> simp [sgn]

theorem ExactValue.sig_eq (h : ExactValue x v) : x.sig = false := by
  obtain ⟨n, m, e, rfl, -⟩ := h
  rfl

theorem ExactValue.isNan_eq (h : ExactValue x v) : x.isNan = false := by
  obtain ⟨n, m, e, rfl, -⟩ := h
  rfl

theorem ExactValue.neg (h : ExactValue x v) : ExactValue x.neg (-v) := by
  obtain ⟨n, m, e, rfl, rfl⟩ := exactValue_iff.mp h
  exact exactValue_iff.mpr ⟨!n, m, e, rfl, by rw [sgn_not, neg_mul]⟩

theorem ExactValue.mul (hx : ExactValue x u) (hy : ExactValue y v) : ExactValue (x.mul y).1 (u * v) ∧ (x.mul y).2 = 0 := by
  obtain ⟨na, ma, ea, rfl, rfl⟩ := exactValue_iff.mp hx
  obtain ⟨nb, mb, eb, rfl, rfl⟩ := exactValue_iff.mp hy
  refine ⟨exactValue_iff.mpr ⟨na != nb, ma * mb, ea + eb, rfl, ?_⟩, rfl⟩
  rw [sgn_bne, zpow_add₀ two_ne_zero]
  push_cast
  ring

/-- A number as an integer over a unit below its own. -/
theorem scaled_mul {n : Bool} {m : ℕ} {e lo : ℤ} (h : lo ≤ e) : (scaled n m e lo : ℚ) * 2 ^ lo = sgn n * (m * 2 ^ e) := by
  obtain ⟨k, rfl⟩ := Int.le.dest h
  have hs : scaled n m (lo + k) lo = signedInt n (m * 2 ^ k) := by simp only [scaled, signedInt, add_sub_cancel_left, Int.toNat_natCast]
  rw [hs, signedInt_cast, zpow_add₀ two_ne_zero, zpow_natCast]
  push_cast
  ring

theorem ExactValue.add (hx : ExactValue x u) (hy : ExactValue y v) : ExactValue (x.add r y).1 (u + v) ∧ (x.add r y).2 = 0 := by
  obtain ⟨na, ma, ea, rfl, rfl⟩ := exactValue_iff.mp hx
  obtain ⟨nb, mb, eb, rfl, rfl⟩ := exactValue_iff.mp hy
  have hsum : sgn na * (ma * 2 ^ ea) + sgn nb * (mb * 2 ^ eb) =
      ((scaled na ma ea (min ea eb) + scaled nb mb eb (min ea eb) : ℤ) : ℚ) * 2 ^ min ea eb := by
    rw [← scaled_mul (min_le_left ea eb), ← scaled_mul (min_le_right ea eb)]
    push_cast
    ring
  rw [hsum]
  unfold FVal.add
  dsimp only
  generalize scaled na ma ea (min ea eb) + scaled nb mb eb (min ea eb) = z
  split
  case isTrue hz => exact ⟨exactValue_iff.mpr ⟨_, 0, 0, rfl, by rw [hz]; simp⟩, rfl⟩
  case isFalse hz =>
    refine ⟨exactValue_iff.mpr ⟨_, z.natAbs, min ea eb, rfl, ?_⟩, rfl⟩
    rw [← mul_assoc, ← signedInt_cast]
    congr 2
    unfold signedInt
    split
    case isTrue h =>
      have := of_decide_eq_true h
      omega
    case isFalse h =>
      have := of_decide_eq_false (Bool.eq_false_iff.mpr h)
      omega

theorem exactValue_ofInt (z : ℤ) : ExactValue (FVal.ofInt z) z := by
  refine exactValue_iff.mpr ⟨_, z.natAbs, 0, rfl, ?_⟩
  rw [zpow_zero, mul_one, ← signedInt_cast]
  congr 1
  unfold signedInt
  split
  case isTrue h =>
    have := of_decide_eq_true h
    omega
  case isFalse h =>
    have := of_decide_eq_false (Bool.eq_false_iff.mpr h)
    omega

end

/-! ### Writing an exact value -/

/-- A result is v rounded once; where v is zero, it is a zero with no flag. -/
def Rounds (ty : ℕ) (md : BitVec 3) (v : ℚ) (r : ℕ × W32) : Prop :=
  (v ≠ 0 → Rounded ty md v r) ∧ (v = 0 → FiniteFloat ty r.1 ∧ floatValue ty r.1 = 0 ∧ r.2 = 0)

section
variable {ty : ℕ} {md : BitVec 3} {x : FVal} {v : ℚ}

theorem held_exact (m : ℕ) (e : ℤ) : Held m e false (m * 2 ^ e) := by
  rw [Held, if_neg Bool.false_ne_true]

theorem round_exact {neg : Bool} {m : ℕ} (e : ℤ) (hm : m ≠ 0) :
    Rounded ty md (sgn neg * (m * 2 ^ e)) ((fmtOf ty).round (Round.ofMod md) (md.getLsbD 2) neg m e false) :=
  round_rounded hm (fun h => absurd h Bool.false_ne_true) (held_exact m e)

theorem standsFor_zero (ty : ℕ) (neg : Bool) : StandsFor ty neg 0 (1 - ((fmtOf ty).bias : ℤ) - (fmtOf ty).fb) ((fmtOf ty).zero neg) := by
  have hs := fmtOf_sized ty
  have hf : fieldOf (fmtOf ty) 0 (1 - ((fmtOf ty).bias : ℤ) - (fmtOf ty).fb) = 0 := if_pos (Nat.two_pow_pos _)
  have h := stands_packed (ty := ty) (neg := neg) (k := 0) (Nat.zero_le _) le_rfl (.inl rfl) (by rw [hf, hs.top_eq]; omega)
  rw [hf] at h
  simpa [packed] using h

theorem floatValue_zero (ty : ℕ) (neg : Bool) : FiniteFloat ty ((fmtOf ty).zero neg) ∧ floatValue ty ((fmtOf ty).zero neg) = 0 := by
  have h := standsFor_zero ty neg
  exact ⟨h.finite, by rw [h.value]; simp⟩

theorem write_fin (f : Fmt) (r : Round) (sat n : Bool) (m : ℕ) (e : ℤ) (fl : W32) :
    f.write r sat (.fin n m e) fl = ((f.round r sat n m e false).1, fl ||| (f.round r sat n m e false).2) := rfl

theorem write_exact (hx : ExactValue x v) : Rounds ty md v ((fmtOf ty).write (Round.ofMod md) (md.getLsbD 2) x 0) := by
  obtain ⟨n, m, e, rfl, rfl⟩ := exactValue_iff.mp hx
  have hw : (fmtOf ty).write (Round.ofMod md) (md.getLsbD 2) (.fin n m e) 0 =
      (fmtOf ty).round (Round.ofMod md) (md.getLsbD 2) n m e false := Prod.ext rfl BitVec.zero_or
  rw [hw]
  have h2 : (2 : ℚ) ^ e ≠ 0 := zpow_ne_zero _ two_ne_zero
  constructor
  · intro hv
    refine round_exact e fun hm => hv ?_
    simp [hm]
  · intro hv
    have hm : m = 0 := by simpa [sgn_ne_zero n, h2] using hv
    have hz : (fmtOf ty).round (Round.ofMod md) (md.getLsbD 2) n m e false = ((fmtOf ty).zero n, 0) := by
      unfold Fmt.round
      rw [if_pos hm]
    obtain ⟨h1, h2⟩ := floatValue_zero ty n
    rw [hz]
    exact ⟨h1, h2, rfl⟩

end

/-! ### Reading patterns -/

section
variable {ty p : ℕ}

theorem exactValue_read (h : FiniteFloat ty p) : ExactValue ((fmtOf ty).read p) (floatValue ty p) := by
  rw [read_finite h, floatValue_eq]
  exact exactValue_fin _ _ _

theorem infFloat_eq (ty : ℕ) (neg : Bool) : infFloat ty neg = (fmtOf ty).inf neg := by
  unfold infFloat
  rw [floatForm_eq]
  rfl

theorem nanFloat_eq (ty : ℕ) : nanFloat ty = (fmtOf ty).nan := by
  unfold nanFloat
  rw [floatForm_eq, infFloat_eq, Fmt.inf_eq]
  simp [Fmt.zero, Fmt.nan]

theorem infResult_eq (ty : ℕ) (md : BitVec 3) (neg : Bool) : infResult ty md neg = (fmtOf ty).infinite (md.getLsbD 2) neg := by
  unfold infResult Fmt.infinite Fmt.largest
  rw [infFloat_eq]
  split <;> rfl

theorem ownBits_eq (ty p : ℕ) : ownBits ty p = p % 2 ^ ((fmtOf ty).eb + (fmtOf ty).fb + 1) := by
  unfold ownBits
  rw [floatForm_eq]

theorem isNan_iff : IsNan ty p ↔ expField (fmtOf ty) p = (fmtOf ty).top ∧ fraction (fmtOf ty) p ≠ 0 := by
  unfold IsNan
  rw [floatForm_eq, finiteFloat_iff, not_not]
  rfl

/-- A pattern's own bits, put together again. -/
theorem ownBits_packed (ty p : ℕ) : ownBits ty p = packed (fmtOf ty) (negative ty p) (expField (fmtOf ty) p) (fraction (fmtOf ty) p) := by
  have hz : (fmtOf ty).zero (negative ty p) = 2 ^ (fmtOf ty).fb * (2 ^ (fmtOf ty).eb * (p / 2 ^ (fmtOf ty).fb / 2 ^ (fmtOf ty).eb % 2)) := by
    have hn := @negative_iff ty p
    rw [Nat.add_comm, pow_add, ← Nat.div_div_eq_div_mul] at hn
    unfold Fmt.zero
    split
    case isTrue h => rw [hn.mp h, mul_one, ← pow_add, Nat.add_comm]
    case isFalse h => rw [show p / 2 ^ (fmtOf ty).fb / 2 ^ (fmtOf ty).eb % 2 = 0 by have := mt hn.mpr h; omega, mul_zero, mul_zero]
  rw [ownBits_eq, show 2 ^ ((fmtOf ty).eb + (fmtOf ty).fb + 1) = 2 ^ (fmtOf ty).fb * (2 ^ (fmtOf ty).eb * 2) by
    rw [← pow_succ, ← pow_add]; congr 1; omega, Nat.mod_mul, Nat.mod_mul, packed, hz, expField, fraction]
  ring

theorem read_mod (f : Fmt) (p : ℕ) : f.read (p % 2 ^ (f.eb + f.fb + 1)) = f.read p := by
  have hfrac : p % 2 ^ (f.eb + f.fb + 1) % 2 ^ f.fb = p % 2 ^ f.fb := Nat.mod_mod_of_dvd _ (pow_dvd_pow 2 (by omega))
  have hexp : p % 2 ^ (f.eb + f.fb + 1) / 2 ^ f.fb % 2 ^ f.eb = p / 2 ^ f.fb % 2 ^ f.eb := by
    rw [show f.eb + f.fb + 1 = f.fb + (f.eb + 1) by omega, pow_add, Nat.mod_mul_right_div_self, Nat.mod_mod_of_dvd _ (pow_dvd_pow 2 (by omega))]
  have hsign : p % 2 ^ (f.eb + f.fb + 1) / 2 ^ (f.eb + f.fb) % 2 = p / 2 ^ (f.eb + f.fb) % 2 := by
    rw [pow_succ, Nat.mod_mul_right_div_self, Nat.mod_mod]
  simp only [Fmt.read, hfrac, hexp, hsign]

theorem read_ownBits (ty p : ℕ) : (fmtOf ty).read (ownBits ty p) = (fmtOf ty).read p := by
  rw [ownBits_eq, read_mod]

theorem read_nan (h : IsNan ty p) : (fmtOf ty).read p = .nan (signalled ty p) := by
  obtain ⟨he, hf⟩ := isNan_iff.mp h
  have hs : signalled ty p = decide (fraction (fmtOf ty) p < 2 ^ ((fmtOf ty).fb - 1)) := by
    unfold signalled
    rw [floatForm_eq, Bool.eq_iff_iff, decide_eq_true_iff, decide_eq_true_iff]
    exact ⟨fun h => h.2.2, fun h => ⟨he, hf, h⟩⟩
  unfold expField fraction at *
  unfold Fmt.read
  rw [hs]
  simp only [he, hf, if_true, if_false]

theorem read_infinite {neg : Bool} (h : ownBits ty p = infFloat ty neg) : (fmtOf ty).read p = .inf neg := by
  have hs := fmtOf_sized ty
  have hp : infFloat ty neg = packed (fmtOf ty) neg (fmtOf ty).top 0 := infFloat_eq ty neg
  have htop : (fmtOf ty).top < 2 ^ (fmtOf ty).eb := by rw [hs.top_eq, hs.pow_eb]; omega
  have h0 : 0 < 2 ^ (fmtOf ty).fb := Nat.two_pow_pos _
  have he := packed_expField (neg := neg) htop h0
  have hf := packed_fraction (f := fmtOf ty) (neg := neg) (F := (fmtOf ty).top) h0
  have hn := packed_sign (neg := neg) htop h0
  unfold expField fraction at *
  rw [← read_ownBits, h, hp]
  unfold Fmt.read
  simp only [he, hf, hn, if_true]
  cases neg <;> rfl

/-- Every pattern is finite, infinite or no number. -/
theorem finite_or_inf_or_nan (ty p : ℕ) : FiniteFloat ty p ∨ (∃ neg, ownBits ty p = infFloat ty neg) ∨ IsNan ty p := by
  by_cases he : expField (fmtOf ty) p = (fmtOf ty).top
  · by_cases hf : fraction (fmtOf ty) p = 0
    · refine .inr (.inl ⟨negative ty p, ?_⟩)
      rw [ownBits_packed, he, hf, infFloat_eq]
      rfl
    · exact .inr (.inr (isNan_iff.mpr ⟨he, hf⟩))
  · exact .inl (finiteFloat_iff.mpr he)

end

/-! ### One pattern for each number but zero -/

section
variable {f : Fmt} {M M' ty p p' : ℕ} {E E' : ℤ}

/-- A number of a unit below is smaller. -/
theorem Normal.exp_le (h : Normal f M E) (h' : Normal f M' E') (heq : (M : ℚ) * 2 ^ E = M' * 2 ^ E') : E' ≤ E := by
  by_contra hlt
  rw [not_le] at hlt
  have hM : (2 : ℚ) ^ f.fb ≤ M' := by exact_mod_cast h'.lead.resolve_left (by have := h.ge_min; omega)
  have hlt' : (M : ℚ) < 2 ^ (f.fb + 1) := by exact_mod_cast h.lt
  have hE : (2 : ℚ) ^ E * 2 ≤ 2 ^ E' := by
    rw [← zpow_add_one₀ two_ne_zero]
    exact zpow_le_zpow_right₀ one_le_two hlt
  have hpos : (0 : ℚ) < 2 ^ E := zpow_pos two_pos E
  have : (M' : ℚ) * 2 ^ E' < M' * 2 ^ E' := by
    calc (M' : ℚ) * 2 ^ E' = M * 2 ^ E := heq.symm
      _ < 2 ^ (f.fb + 1) * 2 ^ E := mul_lt_mul_of_pos_right hlt' hpos
      _ = 2 ^ f.fb * (2 ^ E * 2) := by ring
      _ ≤ 2 ^ f.fb * 2 ^ E' := mul_le_mul_of_nonneg_left hE (by positivity)
      _ ≤ M' * 2 ^ E' := mul_le_mul_of_nonneg_right hM (by positivity)
  exact absurd this (lt_irrefl _)

theorem Normal.unique (h : Normal f M E) (h' : Normal f M' E') (heq : (M : ℚ) * 2 ^ E = M' * 2 ^ E') : M = M' ∧ E = E' := by
  have hE : E = E' := le_antisymm (h'.exp_le h heq.symm) (h.exp_le h' heq)
  subst hE
  rw [mul_left_inj' (zpow_ne_zero _ two_ne_zero)] at heq
  exact ⟨by exact_mod_cast heq, rfl⟩

/-- The fields of a pattern follow from its magnitude and exponent. -/
theorem fields_of_mag {f : Fmt} (hm : magOf f p = magOf f p') (he : expOf f p = expOf f p') :
    expField f p = expField f p' ∧ fraction f p = fraction f p' := by
  have hp : fraction f p < 2 ^ f.fb := Nat.mod_lt _ (Nat.two_pow_pos _)
  have hp' : fraction f p' < 2 ^ f.fb := Nat.mod_lt _ (Nat.two_pow_pos _)
  unfold magOf at hm
  unfold expOf at he
  split_ifs at hm he <;> omega

theorem fields_of_mag_zero {f : Fmt} (h : magOf f p = 0) : expField f p = 0 ∧ fraction f p = 0 := by
  have := Nat.two_pow_pos f.fb
  unfold magOf at h
  split at h <;> omega

theorem floatValue_eq_zero : floatValue ty p = 0 ↔ magOf (fmtOf ty) p = 0 := by
  rw [floatValue_eq]
  have h2 : (2 : ℚ) ^ expOf (fmtOf ty) p ≠ 0 := zpow_ne_zero _ two_ne_zero
  simp [sgn_ne_zero, h2]

theorem floatValue_neg_iff (h0 : floatValue ty p ≠ 0) : floatValue ty p < 0 ↔ negative ty p = true := by
  rw [floatValue_eq]
  refine sgn_mul_neg_iff ?_
  have hm := Nat.pos_of_ne_zero (mt floatValue_eq_zero.mpr h0)
  have : (0 : ℚ) < magOf (fmtOf ty) p := by exact_mod_cast hm
  exact mul_pos this (zpow_pos two_pos _)

theorem ownBits_inj (h : FiniteFloat ty p) (h' : FiniteFloat ty p') (heq : floatValue ty p = floatValue ty p') (h0 : floatValue ty p ≠ 0) :
    ownBits ty p = ownBits ty p' := by
  have hneg : negative ty p = negative ty p' := by
    rw [Bool.eq_iff_iff, ← floatValue_neg_iff h0, ← floatValue_neg_iff (heq ▸ h0), heq]
  have hmag : (magOf (fmtOf ty) p : ℚ) * 2 ^ expOf (fmtOf ty) p = magOf (fmtOf ty) p' * 2 ^ expOf (fmtOf ty) p' := by
    have := congrArg (fun v => |v|) heq
    simp only [floatValue_eq, abs_sgn_mul] at this
    rwa [abs_of_nonneg (by positivity), abs_of_nonneg (by positivity)] at this
  obtain ⟨hM, hE⟩ := (normal_of_finite h).unique (normal_of_finite h') hmag
  obtain ⟨he, hf⟩ := fields_of_mag hM hE
  rw [ownBits_packed, ownBits_packed, hneg, he, hf]

end

end Sys2Proof.Claims
end

