-- ==== Sys2Proof/Proofs/ChosenFloats.lean ====
section
/-! FMIN and FMAX choose an operand (05 R128): comparisons of patterns, and that a finite pattern is written as it was read. -/

namespace Sys2Proof.Claims

open Machine

/-! ### A finite pattern written again -/

section
variable {ty p r : ℕ} {md : BitVec 3} {v : ℚ}

theorem nearest_sign (h : Nearest ty md v r) : negative ty r = true ↔ v < 0 := by
  unfold Nearest at h
  rw [floatForm_eq] at h
  obtain ⟨-, hlt, hsign, -⟩ := h
  have : r / 2 ^ ((fmtOf ty).eb + (fmtOf ty).fb) < 2 := by
    rw [Nat.div_lt_iff_lt_mul (Nat.two_pow_pos _), ← pow_succ']
    exact hlt
  rw [negative_iff, ← hsign, Nat.mod_eq_of_lt this]

/-- A number of the format is its own rounding. -/
theorem nearest_value (h : Nearest ty md v r) (hp : FiniteFloat ty p) (hv : floatValue ty p = v) : floatValue ty r = v := by
  have hs := nearest_sign h
  unfold Nearest at h
  rw [floatForm_eq] at h
  obtain ⟨-, -, -, hbest⟩ := h
  have hb := hbest p hp
  rcases ofMod_cases md with ⟨hm, -⟩ | ⟨hm, -⟩ | ⟨hm, -⟩ | ⟨hm, -⟩
  · simp only [hm, hv, sub_self, abs_zero] at hb
    have := abs_nonpos_iff.mp hb.1
    linarith
  · simp only [hm, hv] at hb
    have habs : |floatValue ty r| = |v| := le_antisymm hb.1 (hb.2 le_rfl)
    rcases abs_eq_abs.mp habs with heq | heq
    · exact heq
    · by_cases h0 : floatValue ty r = 0
      · linarith
      · rw [← floatValue_neg_iff h0, heq, neg_lt_zero] at hs
        have hv0 : v ≠ 0 := fun h => h0 (by rw [heq, h, neg_zero])
        rcases lt_or_gt_of_ne hv0 with hlt | hgt
        · exact absurd (hs.mpr hlt) (not_lt.mpr hlt.le)
        · exact absurd (hs.mp hgt) (not_lt.mpr hgt.le)
  · simp only [hm, hv] at hb
    exact le_antisymm hb.1 (hb.2 le_rfl)
  · simp only [hm, hv] at hb
    exact le_antisymm (hb.2 le_rfl) hb.1

theorem finite_not_overflows (hp : FiniteFloat ty p) : ¬ Overflows ty md (floatValue ty p) := by
  have hn := normal_of_finite hp
  rw [overflows_iff, floatValue_eq, abs_sgn_mul, abs_of_nonneg (by positivity)]
  refine not_roundsUpTo_of_le ?_
  have hu : (0 : ℚ) < 2 ^ (((fmtOf ty).bias : ℤ) - (fmtOf ty).fb) := zpow_pos two_pos _
  have hM : (magOf (fmtOf ty) p : ℚ) + 1 ≤ (2 ^ ((fmtOf ty).fb + 1) : ℕ) := by exact_mod_cast hn.lt
  rw [div_le_iff₀ hu]
  exact mul_le_mul (by linarith) (zpow_le_zpow_right₀ one_le_two hn.le_max) (zpow_pos two_pos _).le (by
    have : (0 : ℚ) ≤ magOf (fmtOf ty) p := Nat.cast_nonneg _
    linarith)

theorem round_zero (f : Fmt) (m : Round) (sat neg : Bool) (e : ℤ) (sticky : Bool) : f.round m sat neg 0 e sticky = (f.zero neg, 0) := if_pos rfl

theorem nearest_lt (h : Nearest ty md v r) : FiniteFloat ty r ∧ ownBits ty r = r := by
  unfold Nearest at h
  rw [floatForm_eq] at h
  obtain ⟨hf, hlt, -, -⟩ := h
  exact ⟨hf, by rw [ownBits_eq, Nat.mod_eq_of_lt hlt]⟩

/-- A finite pattern is written as it was read, whatever MOD says. -/
theorem write_read (hp : FiniteFloat ty p) (fl : W32) :
    (fmtOf ty).write (Round.ofMod md) (md.getLsbD 2) ((fmtOf ty).read p) fl = (ownBits ty p, fl) := by
  have hw : (fmtOf ty).round (Round.ofMod md) (md.getLsbD 2) (negative ty p) (magOf (fmtOf ty) p) (expOf (fmtOf ty) p) false =
      (ownBits ty p, 0) := by
    by_cases h0 : magOf (fmtOf ty) p = 0
    · obtain ⟨he, hf⟩ := fields_of_mag_zero h0
      rw [h0, round_zero, ownBits_packed, he, hf]
      simp [packed]
    · have hne : floatValue ty p ≠ 0 := mt floatValue_eq_zero.mp h0
      have hr := round_exact (ty := ty) (md := md) (neg := negative ty p) (expOf (fmtOf ty) p) h0
      rw [← floatValue_eq] at hr
      obtain ⟨-, hr⟩ := hr
      obtain ⟨hn, hexact, -⟩ := hr (finite_not_overflows hp)
      have hv := nearest_value hn hp rfl
      obtain ⟨hfin, hown⟩ := nearest_lt hn
      refine Prod.ext ?_ (hexact hv)
      rw [← hown]
      exact ownBits_inj hfin hp hv (hv ▸ hne)
  rw [read_finite hp, write_fin, hw]
  exact Prod.ext rfl BitVec.or_zero

/-- Writing what was read raises no flag of its own. -/
theorem write_read_flags (ty p : ℕ) (fl : W32) :
    ((fmtOf ty).write (Round.ofMod md) (md.getLsbD 2) ((fmtOf ty).read p) fl).2 = fl := by
  rcases finite_or_inf_or_nan ty p with h | ⟨neg, h⟩ | h
  · rw [write_read h]
  · rw [read_infinite h]
    rfl
  · rw [read_nan h]
    rfl

theorem sig_read (ty p : ℕ) : ((fmtOf ty).read p).sig = signalled ty p := by
  have hsig : signalled ty p = true → IsNan ty p := by
    unfold signalled
    rw [floatForm_eq, decide_eq_true_iff]
    exact fun h => isNan_iff.mpr ⟨h.1, h.2.1⟩
  have hnot (h : ¬ IsNan ty p) : signalled ty p = false := Bool.eq_false_iff.mpr (mt hsig h)
  rcases finite_or_inf_or_nan ty p with h | ⟨neg, h⟩ | h
  · rw [read_finite h, hnot fun hn => finiteFloat_iff.mp h (isNan_iff.mp hn).1]
    rfl
  · have hr := read_infinite h
    rw [hr, hnot fun hn => by rw [read_nan hn] at hr; cases hr]
    rfl
  · rw [read_nan h]
    rfl

end

/-! ### Comparing and choosing -/

section
variable {x y : FVal} {u v : ℚ}

theorem ExactValue.cmp_eq (hx : ExactValue x u) (hy : ExactValue y v) : x.cmp y = compare u v := by
  obtain ⟨na, ma, ea, rfl, rfl⟩ := exactValue_iff.mp hx
  obtain ⟨nb, mb, eb, rfl, rfl⟩ := exactValue_iff.mp hy
  rw [← scaled_mul (min_le_left ea eb), ← scaled_mul (min_le_right ea eb)]
  have hp : (0 : ℚ) < 2 ^ min ea eb := zpow_pos two_pos _
  unfold FVal.cmp
  dsimp only
  generalize scaled na ma ea (min ea eb) = a
  generalize scaled nb mb eb (min ea eb) = b
  rcases lt_trichotomy a b with h | h | h
  · rw [compare_lt_iff_lt.mpr h, compare_lt_iff_lt.mpr (mul_lt_mul_of_pos_right (by exact_mod_cast h) hp)]
  · rw [h, compare_eq_iff_eq.mpr rfl, compare_eq_iff_eq.mpr rfl]
  · rw [compare_gt_iff_gt.mpr h, compare_gt_iff_gt.mpr (mul_lt_mul_of_pos_right (by exact_mod_cast h) hp)]

/-- Of two numbers, the one chosen: the smaller for `big = false`; of equal ones the first where it is negative. -/
theorem minmax_exact {big : Bool} (hx : ExactValue x u) (hy : ExactValue y v) : x.minmax big y =
    (if (if u < v then true else if v < u then false else x.isNeg) != big then x else y, 0) := by
  unfold FVal.minmax
  rw [hx.isNan_eq, hy.isNan_eq, hx.sig_eq, hy.sig_eq, hx.cmp_eq hy]
  rcases lt_trichotomy u v with h | h | h
  · simp [compare_lt_iff_lt.mpr h, h]
  · simp [h]
  · simp [compare_gt_iff_gt.mpr h, h, not_lt.mpr h.le]

end

section
variable {ty a b : ℕ} {md : BitVec 3} {big : Bool}

/-- Of two zeros the pattern of the sign that is sought. -/
theorem ownBits_zero (ha : floatValue ty a = 0) : ownBits ty a = (fmtOf ty).zero (negative ty a) := by
  obtain ⟨he, hf⟩ := fields_of_mag_zero (floatValue_eq_zero.mp ha)
  rw [ownBits_packed, he, hf]
  simp [packed]

/-- Of two patterns of one number, the one chosen: for the least the greater pattern, which is −0. -/
theorem chosen_of_eq (ha : FiniteFloat ty a) (hb : FiniteFloat ty b) (h : floatValue ty a = floatValue ty b) :
    ownBits ty (if (negative ty a != big) = true then a else b) =
      if big then min (ownBits ty a) (ownBits ty b) else max (ownBits ty a) (ownBits ty b) := by
  by_cases h0 : floatValue ty a = 0
  · have hza := ownBits_zero h0
    have hzb := ownBits_zero (h ▸ h0)
    rw [apply_ite (ownBits ty), hza, hzb]
    cases negative ty a <;> cases negative ty b <;> cases big <;> simp [Fmt.zero]
  · have := ownBits_inj ha hb h h0
    rw [apply_ite (ownBits ty), this, ite_self, min_self, max_self, ite_self]

theorem chosenFloat_minmax (ty : ℕ) (md : BitVec 3) (big : Bool) (a b : ℕ) :
    ChosenFloat ty big a b ((fmtOf ty).write (Round.ofMod md) (md.getLsbD 2)
      (((fmtOf ty).read a).minmax big ((fmtOf ty).read b)).1 (((fmtOf ty).read a).minmax big ((fmtOf ty).read b)).2) := by
  have hnan {p : ℕ} (h : IsNan ty p) : ((fmtOf ty).read p).isNan = true := by rw [read_nan h]; rfl
  have hnum {p : ℕ} (h : FiniteFloat ty p) : ((fmtOf ty).read p).isNan = false := (exactValue_read h).isNan_eq
  have hfl : (((fmtOf ty).read a).minmax big ((fmtOf ty).read b)).2 = if signalled ty a || signalled ty b then 1 else 0 := by
    simp only [FVal.minmax, sig_read]
    split_ifs <;> rfl
  have hval : (((fmtOf ty).read a).minmax big ((fmtOf ty).read b)).1 = .nan false ∨
      ∃ p, (((fmtOf ty).read a).minmax big ((fmtOf ty).read b)).1 = (fmtOf ty).read p := by
    simp only [FVal.minmax]
    split
    case isTrue => exact .inl rfl
    case isFalse =>
      right
      split_ifs
      all_goals exact ⟨_, rfl⟩
  refine ⟨fun ha hb => ?_, fun _ => ?_, fun ha hb => ?_, fun ha hb => ?_, fun ha hb => ?_⟩
  · have hchoice (c : Bool) : FiniteFloat ty (if c = true then a else b) := by cases c <;> assumption
    rw [minmax_exact (exactValue_read ha) (exactValue_read hb), ← apply_ite (fmtOf ty).read,
      write_read (hchoice _)]
    refine ⟨rfl, fun h => ?_, fun h => ?_, fun h => ?_⟩
    · simp only [h, if_true]
      cases big <;> rfl
    · simp only [h, not_lt.mpr h.le, if_true, if_false]
      cases big <;> rfl
    · have hneg : ((fmtOf ty).read a).isNeg = negative ty a := by rw [read_finite ha]; rfl
      simp only [h, lt_irrefl, if_false, hneg]
      exact chosen_of_eq ha hb h
  · rw [← hfl]
    rcases hval with h | ⟨p, h⟩
    · rw [h]
      rfl
    · rw [h]
      exact write_read_flags ty p _
  · simp only [FVal.minmax, hnan ha, hnum hb, Bool.and_false, Bool.false_eq_true, if_false, if_true]
    rw [write_read hb]
  · simp only [FVal.minmax, hnum ha, hnan hb, Bool.false_and, Bool.false_eq_true, if_false, if_true]
    rw [write_read ha]
  · simp only [FVal.minmax, hnan ha, hnan hb, Bool.and_self, if_true]
    exact (nanFloat_eq ty).symm

end

end Sys2Proof.Claims
end

