-- ==== Sys2Proof/Proofs/Conversions.lean ====
section
/-! Conversions: a number rounded to an integer type (05 R134, 12 R363), and an L6 code's value (05 R137, R138). -/

namespace Sys2Proof.Claims

open Machine

/-! ### Integer types (05 R124) -/

section
variable {ty : ℕ} {md : BitVec 3} {v : ℚ} {x : FVal}

theorem intType_eq (h : ty ≤ 5) : intType ty = (tyBits ty, tySigned ty) := by
  interval_cases ty <;> rfl

theorem readInt_eq (h : ty ≤ 5) (p : ℕ) : readInt ty p = intOf (tyBits ty) (tySigned ty) p := by
  rw [readInt, intType_eq h, intOf]

theorem patternOf_eq (h : ty ≤ 5) (z : ℤ) : patternOf ty z = intPattern ty z := by
  interval_cases ty <;> rfl

theorem readFp_eq (h : ty = 6 ∨ ty = 7 ∨ ty = 8) (p : ℕ) : readFp ty p = (fmtOf ty).read p := by
  rw [← read_mod]
  rcases h with rfl | rfl | rfl <;> rfl

/-- The integer a number is rounded to, and whether it is that integer. -/
theorem roundInt_spec (hx : ExactValue x v) : ∃ n m e, x = .fin n m e ∧ RoundedInt md v (roundInt (Round.ofMod md) n m e).1 ∧
    ((roundInt (Round.ofMod md) n m e).2 = true ↔ ((roundInt (Round.ofMod md) n m e).1 : ℚ) = v) := by
  obtain ⟨n, m, e, rfl, rfl⟩ := exactValue_iff.mp hx
  obtain ⟨hr, he⟩ := roundAt_spec (md := md) (neg := n) (q := 0) (fun h => absurd h Bool.false_ne_true) (held_exact m e)
  rw [zpow_zero, div_one] at hr he
  refine ⟨n, m, e, rfl, hr, ?_⟩
  have hk : (roundInt (Round.ofMod md) n m e).1 = signedInt n (roundAt (Round.ofMod md) n m e false 0).1 := rfl
  rw [hk, signedInt_cast, mul_right_inj' (sgn_ne_zero n)]
  exact he

/-- A number converted to an integer type. -/
theorem toInt_exact {w : ℕ} {sg : Bool} (hx : ExactValue x v) : ∃ k, RoundedInt md v k ∧
    (k < intLow w sg → toInt (Round.ofMod md) w sg x = (intLow w sg, 1)) ∧
    (intHigh w sg < k → toInt (Round.ofMod md) w sg x = (intHigh w sg, 1)) ∧
    (intLow w sg ≤ k → k ≤ intHigh w sg → toInt (Round.ofMod md) w sg x = (k, if (k : ℚ) = v then 0 else 0x10)) := by
  obtain ⟨n, m, e, rfl, hr, he⟩ := roundInt_spec (md := md) hx
  have hlo : intLow w sg ≤ intHigh w sg := by
    unfold intLow intHigh
    have h1 : (0 : ℤ) < 2 ^ (w - 1) := by positivity
    have h2 : (0 : ℤ) < 2 ^ w := by positivity
    split <;> omega
  refine ⟨_, hr, fun h => ?_, fun h => ?_, fun h1 h2 => ?_⟩
  · simp only [toInt, h, if_true]
    rfl
  · simp only [toInt, h, not_lt.mpr (hlo.trans h.le), if_true, if_false]
    rfl
  · simp only [toInt, not_lt.mpr h1, not_lt.mpr h2, if_false, he]
    rfl

theorem convertedInt_fcvt {src : ℕ} (hty : ty ≤ 5) (hsrc : src = 6 ∨ src = 7 ∨ src = 8) (sat : Bool) (a : ℕ) :
    ConvertedInt ty src md a (fcvtRes ty src (Round.ofMod md) sat a) := by
  have hf : tyFloat ty = false := by
    simp only [tyFloat, Bool.or_eq_false_iff, beq_eq_false_iff_ne]
    omega
  have hread : readVal src a = (fmtOf src).read a := by
    unfold readVal
    rw [if_pos (by rcases hsrc with rfl | rfl | rfl <;> rfl), readFp_eq hsrc]
  have hres : fcvtRes ty src (Round.ofMod md) sat a =
      (patternOf ty (toInt (Round.ofMod md) (tyBits ty) (tySigned ty) ((fmtOf src).read a)).1,
        (toInt (Round.ofMod md) (tyBits ty) (tySigned ty) ((fmtOf src).read a)).2) := by
    unfold fcvtRes
    rw [hread, patternOf_eq hty]
    simp only [hf, Bool.false_eq_true, if_false]
  rw [hres]
  unfold ConvertedInt
  rw [intType_eq hty]
  refine ⟨fun h => ?_, fun neg h => ?_, fun h => ?_⟩
  · rw [read_nan h]
    interval_cases ty <;> rfl
  · rw [read_infinite h]
    cases neg <;> rfl
  · obtain ⟨k, hr, h1, h2, h3⟩ := toInt_exact (md := md) (w := tyBits ty) (sg := tySigned ty) (exactValue_read h)
    refine ⟨k, hr, fun h => ?_, fun h => ?_, fun h h' => ?_⟩
    · rw [h1 h]
      rfl
    · rw [h2 h]
      rfl
    · rw [h3 h h']

end

/-! ### L6 codes (05 R136-R138) -/

theorem toInt_ofNat_eq_intOf_five (c : ℕ) : (BitVec.ofNat 5 c).toInt = l6t c := by
  rw [BitVec.toInt_eq_toNat_cond, BitVec.toNat_ofNat]
  simp only [l6t, intOf, Bool.true_and, decide_eq_true_eq]
  split_ifs <;> omega

theorem fmtEA_eq (fmt : W32) : (BitVec.ofNat 6 (fmt.toNat / 2 ^ 18)).toInt = fmtEA fmt := by
  rw [BitVec.toInt_eq_toNat_cond, BitVec.toNat_ofNat]
  simp only [fmtEA, fld_eq_ofNat, BitVec.toNat_ofNat, intOf, Bool.true_and, decide_eq_true_eq]
  split_ifs <;> omega

theorem l6T_eq (t : ℤ) : [4096, 4871, 5793, 6889].getD (t % 4).toNat 0 = l6T (t % 4).toNat := by
  have h : (t % 4).toNat < 4 := by omega
  generalize (t % 4).toNat = i at h
  interval_cases i <;> rfl

theorem codeValue_eq (e : ℤ) (c : ℕ) : codeValue e c =
    if c % 32 = 16 then 0 else sgn (decide (c / 32 % 2 = 1)) * (l6T (l6t c % 4).toNat * 2 ^ (l6t c / 4 - 12 + e)) := by
  unfold codeValue sgn
  simp only [toInt_ofNat_eq_intOf_five, l6T_eq, decide_eq_true_eq, mul_assoc]

theorem exactValue_l6Value (c : ℕ) (e : ℤ) : ExactValue (l6Value c e) (codeValue e c) := by
  rw [codeValue_eq]
  unfold l6Value l6IsZero
  by_cases h : c % 32 = 16
  · simp only [h, decide_true, if_true]
    exact exactValue_iff.mpr ⟨false, 0, 0, rfl, by simp⟩
  · simp only [h, decide_false, Bool.false_eq_true, if_false]
    exact exactValue_fin _ _ _

end Sys2Proof.Claims
end

