-- ==== Sys2Proof/Proofs/NearestCode.lean ====
section
/-! Conversion to L6 takes the nearest code (05 R136-R139). -/

namespace Sys2Proof.Claims

open Machine

/-! ### The search for the nearest -/

/-- One step of the model's search: the new candidate where it is nearer, or as near and even. -/
def nearerCode (dist : ℤ → ℕ) (b : ℤ) (i : ℕ) : ℤ :=
  if dist ((i : ℤ) - 15) < dist b || (dist ((i : ℤ) - 15) = dist b && ((i : ℤ) - 15) % 2 = 0) then (i : ℤ) - 15 else b

/-- A candidate among those up to `t`: none is nearer, and of those as near it is the only one or even. -/
structure Foremost (dist : ℤ → ℕ) (t b : ℤ) : Prop where
  ge : -16 ≤ b
  le : b ≤ t
  best : ∀ s, -16 ≤ s → s ≤ t → dist b ≤ dist s ∧ (dist s = dist b → s = b ∨ b % 2 = 0)

/-- Where two candidates are equally near, those between them are nearer, the search ends with the nearest. -/
theorem foremost_search {dist : ℤ → ℕ}
    (h : ∀ b s t, -16 ≤ b → b < s → s < t → t ≤ 15 → dist b = dist t → dist s < dist b) (n : ℕ) (hn : n ≤ 31) :
    Foremost dist ((n : ℤ) - 16) ((List.range n).foldl (nearerCode dist) (-16)) := by
  induction n with
  | zero =>
    refine ⟨by simp, by simp, fun s h1 h2 => ?_⟩
    have : s = -16 := by push_cast at h2; omega
    simp [this]
  | succ n ih =>
    obtain ⟨hge, hle, hbest⟩ := ih (by omega)
    rw [List.range_succ, List.foldl_append, List.foldl_cons, List.foldl_nil]
    generalize (List.range n).foldl (nearerCode dist) (-16) = b at hge hle hbest
    have hcast : ((n + 1 : ℕ) : ℤ) - 16 = (n : ℤ) - 15 := by push_cast; omega
    rw [hcast]
    unfold nearerCode
    simp only [Bool.or_eq_true, Bool.and_eq_true, decide_eq_true_eq]
    generalize ht : (n : ℤ) - 15 = t
    split
    case isTrue hc =>
      have hall (s : ℤ) (h1 : -16 ≤ s) (h2 : s ≤ t - 1) : dist b ≤ dist s := (hbest s h1 (by omega)).1
      refine ⟨by omega, le_rfl, fun s h1 h2 => ?_⟩
      rcases h2.lt_or_eq with hlt | rfl
      · have := hall s h1 (by omega)
        rcases hc with hc | ⟨heq, heven⟩
        · exact ⟨by omega, fun _ => by omega⟩
        · exact ⟨by omega, fun _ => .inr heven⟩
      · exact ⟨le_rfl, fun _ => .inl rfl⟩
    case isFalse hc =>
      rw [not_or, not_and] at hc
      obtain ⟨hnlt, hodd⟩ := hc
      refine ⟨hge, by omega, fun s h1 h2 => ?_⟩
      rcases h2.lt_or_eq with hlt | rfl
      · exact hbest s h1 (by omega)
      · refine ⟨by omega, fun heq => .inr ?_⟩
        have hs := hodd heq
        by_cases hb : b = s - 1
        · omega
        · have h3 := h b (s - 1) s hge (by omega) (by omega) (by omega) heq.symm
          have h4 := (hbest (s - 1) (by omega) (by omega)).1
          omega

/-! ### Magnitudes of codes -/

theorem l6Mag_strictMono {b t : ℤ} (hb : -16 ≤ b) (h : b < t) (ht : t ≤ 15) : l6Mag b < l6Mag t := by
  have key : ∀ i j : Fin 32, i < j → l6Mag ((i : ℕ) - 16 : ℤ) < l6Mag ((j : ℕ) - 16 : ℤ) := by decide +kernel
  have := key ⟨(b + 16).toNat, by omega⟩ ⟨(t + 16).toNat, by omega⟩ (by rw [Fin.mk_lt_mk]; omega)
  rw [Int.toNat_of_nonneg (by omega), Int.toNat_of_nonneg (by omega)] at this
  simpa using this

/-- The magnitude of the codes of a logarithm. -/
def codeMag (scale t : ℤ) : ℚ := l6Mag t * 2 ^ (scale - 17)

theorem codeMag_nonneg (scale t : ℤ) : 0 ≤ codeMag scale t := by unfold codeMag; positivity

theorem codeMag_zero (scale : ℤ) : codeMag scale (-16) = 0 := by simp [codeMag, l6Mag]

theorem codeMag_eq (scale : ℤ) {t : ℤ} (h : -15 ≤ t) : codeMag scale t = l6T (t % 4).toNat * 2 ^ (t / 4 - 12 + scale) := by
  have ht : t ≠ -16 := by omega
  have hexp : ((t / 4 + 5).toNat : ℤ) = t / 4 + 5 := by omega
  rw [codeMag, l6Mag, if_neg ht]
  push_cast
  rw [mul_assoc, ← zpow_natCast, hexp, ← zpow_add₀ two_ne_zero]
  congr 2
  ring

theorem l6t_bounds (c : ℕ) : -16 ≤ l6t c ∧ l6t c ≤ 15 ∧ (l6t c = -16 ↔ c % 32 = 16) := by
  have h : l6t c = if 16 ≤ c % 32 then ((c % 32 : ℕ) : ℤ) - 32 else (c % 32 : ℕ) := by
    simp only [l6t, intOf, Bool.true_and, decide_eq_true_eq]
    rfl
  rw [h]
  split <;> omega

/-- Every code's value is a magnitude with a sign, and its lowest bit that of the logarithm. -/
theorem codeValue_signed (scale : ℤ) (c : ℕ) : ∃ n t, -16 ≤ t ∧ t ≤ 15 ∧ codeValue scale c = sgn n * codeMag scale t := by
  rw [codeValue_eq]
  obtain ⟨h1, h2, h3⟩ := l6t_bounds c
  refine ⟨decide (c / 32 % 2 = 1), l6t c, h1, h2, ?_⟩
  split
  case isTrue h => rw [h3.mpr h, codeMag_zero, mul_zero]
  case isFalse h =>
    have := mt h3.mp h
    rw [codeMag_eq scale (by omega)]

/-- The code of a sign and a logarithm. -/
theorem codeValue_l6Code (scale : ℤ) (n : Bool) {t : ℤ} (h1 : -16 ≤ t) (h2 : t ≤ 15) :
    codeValue scale (l6Code n t) = sgn n * codeMag scale t ∧ l6Code n t ≠ 0x30 ∧ ((l6Code n t % 2 = 0) ↔ t % 2 = 0) ∧
      (l6Code n t = 16 ↔ t = -16) := by
  by_cases h : t = -16
  · subst h
    rw [codeMag_zero, mul_zero, codeValue_eq]
    simp [l6Code]
  · have hc : l6Code n t = (t % 32).toNat + (if n then 32 else 0) := if_neg h
    have ht : l6t (l6Code n t) = t := by
      simp only [l6t, intOf, Bool.true_and, decide_eq_true_eq, hc]
      split_ifs <;> omega
    have hn : decide (l6Code n t / 32 % 2 = 1) = n := by
      rw [hc]
      cases n
      · simp only [Bool.false_eq_true, if_false, decide_eq_false_iff_not]
        omega
      · simp only [if_true, decide_eq_true_eq]
        omega
    have h16 : l6Code n t % 32 ≠ 16 := by
      rw [hc]
      split_ifs <;> omega
    rw [codeValue_eq, if_neg h16, ht, hn, codeMag_eq scale (by omega)]
    refine ⟨rfl, fun h' => h16 (by rw [h']), ?_, iff_of_false (fun h' => h16 (by rw [h'])) h⟩
    rw [hc]
    split_ifs <;> omega

/-! ### The nearest code -/

section
variable {m : ℕ} {e scale : ℤ}

/-- The model compares at a common exponent: its distances are those of the numbers over a unit. -/
def codeDist (m : ℕ) (e scale t : ℤ) : ℕ :=
  (((m * 2 ^ (e - min e (scale - 17)).toNat : ℕ) : ℤ) - ((l6Mag t * 2 ^ (scale - 17 - min e (scale - 17)).toNat : ℕ) : ℤ)).natAbs

theorem natCast_mul_pow_mul {lo : ℤ} (n : ℕ) (h : lo ≤ e) : ((n * 2 ^ (e - lo).toNat : ℕ) : ℚ) * 2 ^ lo = n * 2 ^ e := by
  obtain ⟨k, rfl⟩ := Int.le.dest h
  rw [add_sub_cancel_left, Int.toNat_natCast, zpow_add₀ two_ne_zero, zpow_natCast]
  push_cast
  ring

theorem codeDist_mul (t : ℤ) : (codeDist m e scale t : ℚ) * 2 ^ min e (scale - 17) = |(m : ℚ) * 2 ^ e - codeMag scale t| := by
  have hp : (0 : ℚ) < 2 ^ min e (scale - 17) := zpow_pos two_pos _
  rw [codeMag, ← natCast_mul_pow_mul m (min_le_left e (scale - 17)), ← natCast_mul_pow_mul (l6Mag t) (min_le_right e (scale - 17)),
    ← sub_mul, abs_mul, abs_of_pos hp, codeDist, Nat.cast_natAbs]
  push_cast
  rfl

theorem codeDist_le_iff (s t : ℤ) : codeDist m e scale s ≤ codeDist m e scale t ↔
    |(m : ℚ) * 2 ^ e - codeMag scale s| ≤ |(m : ℚ) * 2 ^ e - codeMag scale t| := by
  rw [← codeDist_mul, ← codeDist_mul, mul_le_mul_iff_left₀ (zpow_pos two_pos _), Nat.cast_le]

theorem codeDist_eq_iff (s t : ℤ) : codeDist m e scale s = codeDist m e scale t ↔
    |(m : ℚ) * 2 ^ e - codeMag scale s| = |(m : ℚ) * 2 ^ e - codeMag scale t| := by
  rw [← codeDist_mul, ← codeDist_mul, mul_left_inj' (zpow_pos two_pos _).ne', Nat.cast_inj]

theorem codeDist_between (b s t : ℤ) (hb : -16 ≤ b) (h1 : b < s) (h2 : s < t) (ht : t ≤ 15)
    (h : codeDist m e scale b = codeDist m e scale t) : codeDist m e scale s < codeDist m e scale b := by
  have hbs := l6Mag_strictMono hb h1 (by omega)
  have hst := l6Mag_strictMono (by omega) h2 ht
  have hp : 0 < 2 ^ (scale - 17 - min e (scale - 17)).toNat := Nat.two_pow_pos _
  have hbs' := Nat.mul_lt_mul_of_pos_right hbs hp
  have hst' := Nat.mul_lt_mul_of_pos_right hst hp
  unfold codeDist at h ⊢
  omega

theorem l6Nearest_eq : l6Nearest m e scale = ((List.range 31).foldl (nearerCode (codeDist m e scale)) (-16),
    decide (codeDist m e scale ((List.range 31).foldl (nearerCode (codeDist m e scale)) (-16)) = 0)) := rfl

theorem l6Nearest_spec : Foremost (codeDist m e scale) 15 (l6Nearest m e scale).1 ∧
    ((l6Nearest m e scale).2 = true ↔ codeMag scale (l6Nearest m e scale).1 = m * 2 ^ e) := by
  have hf := foremost_search (dist := codeDist m e scale) codeDist_between 31 le_rfl
  rw [l6Nearest_eq]
  refine ⟨hf, ?_⟩
  have hp : (2 : ℚ) ^ min e (scale - 17) ≠ 0 := (zpow_pos two_pos _).ne'
  dsimp only
  generalize (List.range 31).foldl (nearerCode (codeDist m e scale)) (-16) = b
  rw [decide_eq_true_iff, ← Nat.cast_eq_zero (R := ℚ), ← mul_eq_zero_iff_right hp, codeDist_mul, abs_eq_zero, sub_eq_zero, eq_comm]

/-- A code's value against a number of a sign: the magnitudes differ, or their sum is the distance. -/
theorem abs_signed_sub {n n' : Bool} {x y : ℚ} (hx : 0 ≤ x) (hy : 0 ≤ y) :
    |sgn n * x - sgn n' * y| = if n = n' then |x - y| else x + y := by
  split
  case isTrue h => rw [h, ← mul_sub, abs_sgn_mul]
  case isFalse h =>
    have hn : n' = !n := by
      cases n <;> cases n' <;> simp_all
    rw [hn, sgn_not, neg_mul, sub_neg_eq_add, ← mul_add, abs_sgn_mul, abs_of_nonneg (by linarith)]

/-- The code of the nearest magnitude is nearest to the number of either sign's codes. -/
theorem l6Code_nearest (n : Bool) {t : ℤ} (hf : Foremost (codeDist m e scale) 15 t) (c : ℕ) :
    |sgn n * (m * 2 ^ e) - codeValue scale (l6Code n t)| ≤ |sgn n * (m * 2 ^ e) - codeValue scale c| ∧
      (|sgn n * (m * 2 ^ e) - codeValue scale c| = |sgn n * (m * 2 ^ e) - codeValue scale (l6Code n t)| →
        codeValue scale c = codeValue scale (l6Code n t) ∨ l6Code n t % 2 = 0) := by
  obtain ⟨hge, hle, hbest⟩ := hf
  obtain ⟨hval, -, hpar, -⟩ := codeValue_l6Code scale n hge hle
  obtain ⟨n', s, hs1, hs2, hs⟩ := codeValue_signed scale c
  have hμ : (0 : ℚ) ≤ m * 2 ^ e := by positivity
  have hzero := hbest (-16) le_rfl (by omega)
  have hsame := hbest s hs1 hs2
  rw [codeDist_le_iff, codeDist_eq_iff] at hzero hsame
  rw [hval, hs, hpar, abs_signed_sub hμ (codeMag_nonneg _ _), abs_signed_sub hμ (codeMag_nonneg _ _), if_pos rfl]
  by_cases hn : n = n'
  · rw [if_pos hn]
    exact ⟨hsame.1, fun h => (hsame.2 h).imp_left fun h' => by rw [h', hn]⟩
  · rw [if_neg hn]
    have hmag := codeMag_nonneg scale s
    rw [codeMag_zero, sub_zero, abs_of_nonneg hμ] at hzero
    refine ⟨by linarith [hzero.1], fun h => .inr ?_⟩
    rcases hzero.2 (by linarith [hzero.1]) with h' | h'
    · omega
    · exact h'

theorem codeOf_zero (scale : ℤ) : CodeOf scale 0 (16, 0) := by
  have hz : codeValue scale 16 = 0 := by rw [codeValue_eq]; rfl
  have htop : (0 : ℚ) ≤ 6889 * 2 ^ (scale - 9) := by positivity
  refine ⟨fun h => ?_, fun _ => ⟨by decide, by decide, by rw [if_pos hz], fun c _ => ⟨?_, fun _ => .inr rfl⟩⟩⟩
  · rw [abs_zero] at h
    exact absurd h (not_lt.mpr htop)
  · rw [hz, sub_zero, abs_zero]
    exact abs_nonneg _

/-- The model's test for a number beyond the largest code. -/
theorem beyond_top_iff : m * 2 ^ (e - min e (scale - 9)).toNat > 6889 * 2 ^ (scale - 9 - min e (scale - 9)).toNat ↔
    6889 * (2 : ℚ) ^ (scale - 9) < m * 2 ^ e := by
  rw [← natCast_mul_pow_mul m (min_le_left e (scale - 9)),
    show (6889 : ℚ) * 2 ^ (scale - 9) = ((6889 : ℕ) : ℚ) * 2 ^ (scale - 9) by norm_num,
    ← natCast_mul_pow_mul 6889 (min_le_right e (scale - 9)), mul_lt_mul_iff_left₀ (zpow_pos two_pos _), Nat.cast_lt]

/-- Conversion to L6 of a number (05 R139). -/
theorem codeOf_toL6 {x : FVal} {v : ℚ} (hx : ExactValue x v) : CodeOf scale v (toL6 x scale) := by
  obtain ⟨n, m, e, rfl, rfl⟩ := exactValue_iff.mp hx
  by_cases hm : m = 0
  · have hz : toL6 (.fin n m e) scale = (16, 0) := if_pos hm
    rw [hz, hm, Nat.cast_zero, zero_mul, mul_zero]
    exact codeOf_zero scale
  · have hpos : (0 : ℚ) < m * 2 ^ e := mul_pos (by exact_mod_cast Nat.pos_of_ne_zero hm) (zpow_pos two_pos _)
    obtain ⟨hf, hexact⟩ := l6Nearest_spec (m := m) (e := e) (scale := scale)
    unfold toL6 CodeOf
    simp only [if_neg hm, beyond_top_iff, abs_sgn_mul, abs_of_pos hpos, sgn_mul_neg_iff hpos]
    generalize (l6Nearest m e scale).1 = t at hf hexact
    generalize (l6Nearest m e scale).2 = exact at hexact
    obtain ⟨hval, hne, -, h16⟩ := codeValue_l6Code scale n hf.ge hf.le
    have hcode : (if t = -16 then (16, fUF ||| fNX) else (l6Code n t, if exact = true then 0 else fNX)) =
        (l6Code n t, if codeValue scale (l6Code n t) = sgn n * (m * 2 ^ e) then 0 else if l6Code n t = 0x10 then 0x18 else 0x10) := by
      have heq : codeValue scale (l6Code n t) = sgn n * (m * 2 ^ e) ↔ exact = true := by rw [hval, mul_right_inj' (sgn_ne_zero n), hexact]
      simp only [heq]
      by_cases ht : t = -16
      · have hx : exact ≠ true := fun h => by
          have := hexact.mp h
          rw [ht, codeMag_zero] at this
          exact hpos.ne this
        rw [if_pos ht, if_neg hx, if_pos (h16.mpr ht), h16.mpr ht]
        rfl
      · rw [if_neg ht, if_neg (mt h16.mp ht)]
        rfl
    refine ⟨fun h => ?_, fun h => ?_⟩
    · rw [if_pos h]
      cases n <;> rfl
    · rw [if_neg (not_lt.mpr h), hcode]
      exact ⟨l6Code_lt n t, hne, rfl, fun c _ => l6Code_nearest n hf c⟩

end

end Sys2Proof.Claims
end

