-- ==== Sys2Proof/Proofs/Reciprocals.lean ====
section
/-! FRCP and FRSQ (05 R129, 12 R364, R365), and the special operands of the transcendental group. -/

namespace Sys2Proof.Claims

open Machine

/-! ### Special operands -/

/-- The number of a word in the statement's list of special operands. -/
def transNumber : Trans → ℕ
  | .rcp => 0
  | .rsq => 1
  | .exp2 => 2
  | .log2 => 3

section
variable {ty a : ℕ} {md : BitVec 3}

theorem trans_nan (f : Fmt) (t : Trans) (sat s : Bool) : f.trans t sat (.nan s) = (f.nan, if s then 1 else 0) := by
  cases t <;> rfl

/-- A finite pattern that stands for zero is read as one. -/
theorem read_zero (h : FiniteFloat ty a) (h0 : floatValue ty a = 0) : ∃ e, (fmtOf ty).read a = .fin (negative ty a) 0 e :=
  ⟨_, by rw [read_finite h, floatValue_eq_zero.mp h0]⟩

/-- A finite pattern below or above zero is read with a magnitude. -/
theorem read_nonzero (h : FiniteFloat ty a) (h0 : floatValue ty a ≠ 0) :
    ∃ m e, m ≠ 0 ∧ (fmtOf ty).read a = .fin (decide (floatValue ty a < 0)) m e ∧
      floatValue ty a = sgn (decide (floatValue ty a < 0)) * (m * 2 ^ e) ∧ Normal (fmtOf ty) m e := by
  have hn : decide (floatValue ty a < 0) = negative ty a := by
    rw [Bool.eq_iff_iff, decide_eq_true_iff, floatValue_neg_iff h0]
  rw [hn]
  exact ⟨_, _, mt floatValue_eq_zero.mpr h0, read_finite h, floatValue_eq, normal_of_finite h⟩

theorem transSpecial_trans (t : Trans) :
    TransSpecial ty md (transNumber t) a ((fmtOf ty).trans t (md.getLsbD 2) ((fmtOf ty).read a)) := by
  refine ⟨fun h => ?_, fun h => ?_, fun hf h0 hop => ?_, fun hf h0 hop => ?_, fun hf h0 hop => ?_⟩
  · rw [read_nan h, trans_nan, nanFloat_eq]
  · rw [read_infinite h, h, infFloat_eq, infFloat_eq, infResult_eq, nanFloat_eq]
    cases t with
    | rcp =>
      refine Prod.ext ?_ rfl
      change (fmtOf ty).zero _ = _
      rw [Fmt.inf_eq, Fmt.inf_eq]
      simp [Fmt.zero, transNumber]
    | rsq => cases negative ty a <;> rfl
    | exp2 => cases negative ty a <;> rfl
    | log2 => cases negative ty a <;> rfl
  · obtain ⟨e, he⟩ := read_zero hf h0
    rw [he, infResult_eq]
    cases t with
    | rcp => rfl
    | rsq => rfl
    | exp2 => exact absurd hop (by decide)
    | log2 => exact absurd hop (by decide)
  · obtain ⟨e, he⟩ := read_zero hf h0
    rw [he, infResult_eq]
    cases t with
    | log2 => rfl
    | rcp => exact absurd hop (by decide)
    | rsq => exact absurd hop (by decide)
    | exp2 => exact absurd hop (by decide)
  · obtain ⟨m, e, hm, he, -, -⟩ := read_nonzero hf h0.ne
    rw [he, nanFloat_eq, decide_eq_true h0]
    cases t with
    | rsq => exact if_neg hm
    | log2 => exact if_neg hm
    | rcp => exact absurd hop (by decide)
    | exp2 => exact absurd hop (by decide)

/-! ### The reciprocal -/

theorem held_recip {m : ℕ} (hm : m ≠ 0) (e : ℤ) : Held (recip m e).1 (recip m e).2.1 (recip m e).2.2 (1 / (m * 2 ^ e)) := by
  have hmq : (m : ℚ) ≠ 0 := by exact_mod_cast hm
  have he : (2 : ℚ) ^ e ≠ 0 := zpow_ne_zero _ two_ne_zero
  have hdm : ((2 ^ (160 + bitLen m) : ℕ) : ℚ) = m * (2 ^ (160 + bitLen m) / m : ℕ) + (2 ^ (160 + bitLen m) % m : ℕ) := by
    exact_mod_cast (Nat.div_add_mod (2 ^ (160 + bitLen m)) m).symm
  have hlt : ((2 ^ (160 + bitLen m) % m : ℕ) : ℚ) < m := by exact_mod_cast Nat.mod_lt _ (Nat.pos_of_ne_zero hm)
  unfold recip
  dsimp only
  generalize hk : 160 + bitLen m = k at *
  have hval : 1 / ((m : ℚ) * 2 ^ e) = (2 ^ k : ℕ) / m * 2 ^ (-e - k : ℤ) := by
    have h2 : (2 : ℚ) ^ (-e - k : ℤ) = 1 / (2 ^ e * 2 ^ k) := by
      rw [show -e - (k : ℤ) = -(e + k) by ring, zpow_neg, zpow_add₀ two_ne_zero, zpow_natCast, one_div]
    rw [h2]
    push_cast
    field_simp
  have hpos : (0 : ℚ) < 2 ^ (-e - k : ℤ) := zpow_pos two_pos _
  have hm0 : (0 : ℚ) < m := by exact_mod_cast Nat.pos_of_ne_zero hm
  generalize 2 ^ k / m = Q at *
  generalize 2 ^ k % m = R at *
  rw [hval, hdm]
  have hq : ((m : ℚ) * Q + R) / m = Q + R / m := by rw [add_div, mul_div_cancel_left₀ _ hmq]
  rw [hq, Held]
  split
  case isTrue h =>
    have hR : (0 : ℚ) < R := by exact_mod_cast Nat.pos_of_ne_zero (of_decide_eq_true h)
    constructor
    · exact mul_lt_mul_of_pos_right (by linarith [div_pos hR hm0]) hpos
    · exact mul_lt_mul_of_pos_right (by linarith [(div_lt_one hm0).mpr hlt]) hpos
  case isFalse h =>
    have hR : R = 0 := by simpa using h
    rw [hR, Nat.cast_zero, zero_div, add_zero]

theorem le_recip {m : ℕ} (hm : m ≠ 0) (e : ℤ) : 2 ^ 160 ≤ (recip m e).1 := by
  change 2 ^ 160 ≤ 2 ^ (160 + bitLen m) / m
  rw [Nat.le_div_iff_mul_le (Nat.pos_of_ne_zero hm), pow_add]
  exact Nat.mul_le_mul_left _ (lt_two_pow_bitLen m).le

/-- A magnitude of so many bits is longer than every format's fraction. -/
theorem fb_le_bitLen {m : ℕ} (ty : ℕ) (h : 2 ^ 40 ≤ m) : (fmtOf ty).fb + 2 ≤ bitLen m := by
  have := (fmtOf_sized ty).fb_lt
  have := le_bitLen h
  omega

theorem rounds_rcp (hmd : md.toNat % 4 = 0) (hf : FiniteFloat ty a) (h0 : floatValue ty a ≠ 0) :
    Rounds ty md (1 / floatValue ty a) ((fmtOf ty).trans .rcp (md.getLsbD 2) ((fmtOf ty).read a)) := by
  obtain ⟨m, e, hm, hread, hval, -⟩ := read_nonzero hf h0
  generalize decide (floatValue ty a < 0) = n at hread hval
  have hsgn : (sgn n)⁻¹ = sgn n := inv_eq_of_mul_eq_one_left (sgn_mul_self n)
  have hinv : 1 / floatValue ty a = sgn n * (1 / (m * 2 ^ e)) := by rw [hval, one_div, mul_inv, hsgn, one_div]
  have ht : (fmtOf ty).trans .rcp (md.getLsbD 2) (.fin n m e) =
      (fmtOf ty).round (Round.ofMod md) (md.getLsbD 2) n (recip m e).1 (recip m e).2.1 (recip m e).2.2 := by
    rw [ofMod_nearest hmd]
    exact if_neg hm
  refine ⟨fun _ => ?_, fun h => absurd h (one_div_ne_zero h0)⟩
  rw [hread, ht, hinv]
  have hle := le_recip hm e
  have hne : (recip m e).1 ≠ 0 := by
    intro h
    rw [h] at hle
    exact absurd hle (by decide)
  exact round_rounded hne (fun _ => fb_le_bitLen ty (le_trans (by decide) hle)) (held_recip hm e)

end

/-! ### The inverse root -/

/-- One bit at a time: the bounds of the root so far. -/
theorem isqrtFrom_spec (n k acc : ℕ) (hlo : acc * acc ≤ n) (hhi : n < (acc + 2 ^ k) * (acc + 2 ^ k)) :
    isqrtFrom n k acc * isqrtFrom n k acc ≤ n ∧ n < (isqrtFrom n k acc + 1) * (isqrtFrom n k acc + 1) := by
  induction k generalizing acc with
  | zero => exact ⟨hlo, hhi⟩
  | succ k ih =>
    rw [isqrtFrom]
    split
    case isTrue h =>
      refine ih _ h ?_
      rwa [Nat.add_assoc, ← Nat.two_mul, ← pow_succ']
    case isFalse h => exact ih _ hlo (not_le.mp h)

section
variable {m : ℕ} {e : ℤ}

/-- The magnitude with an even exponent, whose root the model takes. -/
def evenMag (m : ℕ) (e : ℤ) : ℕ × ℤ := if e % 2 = 0 then (m, e) else (2 * m, e - 1)

theorem evenMag_spec (m : ℕ) (e : ℤ) : ((evenMag m e).1 : ℚ) * 2 ^ (evenMag m e).2 = m * 2 ^ e ∧ (evenMag m e).2 % 2 = 0 ∧
    ((evenMag m e).1 = 0 ↔ m = 0) := by
  unfold evenMag
  split
  case isTrue h => exact ⟨rfl, h, Iff.rfl⟩
  case isFalse h =>
    refine ⟨?_, ?_, ?_⟩
    · dsimp only
      rw [zpow_sub_one₀ two_ne_zero]
      push_cast
      ring
    · dsimp only
      omega
    · dsimp only
      omega

/-- The root that the model takes of a magnitude with an even exponent: 2^(2k) over it, to the bit. -/
theorem sqrt_spec {M : ℕ} (hM : M ≠ 0) : ∃ y, isqrtFrom (2 ^ (2 * (160 + bitLen M)) / M) (160 + bitLen M + 2) 0 = y ∧
    M * (y * y) ≤ 2 ^ (2 * (160 + bitLen M)) ∧ 2 ^ (2 * (160 + bitLen M)) < M * ((y + 1) * (y + 1)) ∧ 2 ^ 160 ≤ y ∧
    ((y * y = 2 ^ (2 * (160 + bitLen M)) / M ∧ 2 ^ (2 * (160 + bitLen M)) % M = 0) ↔ M * (y * y) = 2 ^ (2 * (160 + bitLen M))) := by
  have hpos := Nat.pos_of_ne_zero hM
  have hlen := lt_two_pow_bitLen M
  have hdm := Nat.div_add_mod (2 ^ (2 * (160 + bitLen M))) M
  have hmod := Nat.mod_lt (2 ^ (2 * (160 + bitLen M))) hpos
  have hbig : 2 ^ 160 * 2 ^ 160 ≤ 2 ^ (2 * (160 + bitLen M)) / M := by
    rw [Nat.le_div_iff_mul_le hpos]
    calc 2 ^ 160 * 2 ^ 160 * M ≤ 2 ^ 160 * 2 ^ 160 * 2 ^ bitLen M := Nat.mul_le_mul_left _ hlen.le
      _ = 2 ^ (320 + bitLen M) := by rw [← pow_add, ← pow_add]
      _ ≤ 2 ^ (2 * (160 + bitLen M)) := Nat.pow_le_pow_right (by decide) (by omega)
  have hsmall : 2 ^ (2 * (160 + bitLen M)) / M < (0 + 2 ^ (160 + bitLen M + 2)) * (0 + 2 ^ (160 + bitLen M + 2)) := by
    rw [Nat.zero_add, ← pow_add]
    exact (Nat.div_le_self _ _).trans_lt (Nat.pow_lt_pow_right (by decide) (by omega))
  obtain ⟨h1, h2⟩ := isqrtFrom_spec _ _ 0 (Nat.zero_le _) hsmall
  generalize isqrtFrom (2 ^ (2 * (160 + bitLen M)) / M) (160 + bitLen M + 2) 0 = y at h1 h2
  generalize 2 ^ (2 * (160 + bitLen M)) = N at *
  generalize N / M = Q at *
  refine ⟨y, rfl, ?_, ?_, ?_, ?_⟩
  · have := Nat.mul_le_mul_left M h1
    omega
  · have := Nat.mul_le_mul_left M (Nat.succ_le_of_lt h2)
    rw [Nat.succ_eq_add_one, Nat.mul_add] at this
    omega
  · by_contra hlt
    have : (y + 1) * (y + 1) ≤ 2 ^ 160 * 2 ^ 160 := Nat.mul_le_mul (by omega) (by omega)
    omega
  · constructor
    · rintro ⟨h, h'⟩
      rw [h]
      omega
    · intro h
      have hle := Nat.mul_le_mul_left M h1
      have hQ : M * Q = M * (y * y) := by omega
      exact ⟨(Nat.eq_of_mul_eq_mul_left hpos hQ).symm, by omega⟩

/-- The model's root y * 2^x and its sticky bit: the inverse root lies in the cell of y. -/
theorem rsqrt_spec (hm : m ≠ 0) : 2 ^ 160 ≤ (rsqrt m e).1 ∧
    (m * 2 ^ e : ℚ) * (((rsqrt m e).1 : ℚ) * 2 ^ (rsqrt m e).2.1) ^ 2 ≤ 1 ∧
    1 < (m * 2 ^ e : ℚ) * (((rsqrt m e).1 + 1 : ℚ) * 2 ^ (rsqrt m e).2.1) ^ 2 ∧
    ((rsqrt m e).2.2 = false ↔ (m * 2 ^ e : ℚ) * (((rsqrt m e).1 : ℚ) * 2 ^ (rsqrt m e).2.1) ^ 2 = 1) := by
  obtain ⟨hval, heven, hzero⟩ := evenMag_spec m e
  have hr : rsqrt m e = (isqrtFrom (2 ^ (2 * (160 + bitLen (evenMag m e).1)) / (evenMag m e).1) (160 + bitLen (evenMag m e).1 + 2) 0,
      -((evenMag m e).2 / 2) - (160 + bitLen (evenMag m e).1 : ℕ),
      !(decide (isqrtFrom (2 ^ (2 * (160 + bitLen (evenMag m e).1)) / (evenMag m e).1) (160 + bitLen (evenMag m e).1 + 2) 0 *
          isqrtFrom (2 ^ (2 * (160 + bitLen (evenMag m e).1)) / (evenMag m e).1) (160 + bitLen (evenMag m e).1 + 2) 0 =
            2 ^ (2 * (160 + bitLen (evenMag m e).1)) / (evenMag m e).1) &&
        decide (2 ^ (2 * (160 + bitLen (evenMag m e).1)) % (evenMag m e).1 = 0))) := rfl
  rw [hr, ← hval]
  obtain ⟨y, hy, h1, h2, h3, h4⟩ := sqrt_spec (mt hzero.mp hm)
  rw [hy]
  generalize (evenMag m e).1 = M at *
  generalize (evenMag m e).2 = E at *
  generalize 160 + bitLen M = k at *
  have hsq (t : ℚ) : (M * 2 ^ E : ℚ) * (t * 2 ^ (-(E / 2) - (k : ℤ))) ^ 2 = M * (t * t) / (2 ^ (2 * k) : ℕ) := by
    have hE : (2 : ℚ) ^ E = 2 ^ (E / 2) * 2 ^ (E / 2) := by
      rw [← zpow_add₀ two_ne_zero]
      congr 1
      omega
    have hx : (2 : ℚ) ^ (-(E / 2) - (k : ℤ)) = 1 / (2 ^ (E / 2) * 2 ^ k) := by
      rw [show -(E / 2) - (k : ℤ) = -(E / 2 + k) by ring, zpow_neg, zpow_add₀ two_ne_zero, zpow_natCast, one_div]
    have hne : (2 : ℚ) ^ (E / 2) ≠ 0 := zpow_ne_zero _ two_ne_zero
    rw [hE, hx]
    push_cast
    rw [two_mul k, pow_add]
    field_simp
  have hN : (0 : ℚ) < (2 ^ (2 * k) : ℕ) := by exact_mod_cast Nat.two_pow_pos _
  refine ⟨h3, ?_, ?_, ?_⟩
  · rw [hsq, div_le_one hN]
    exact_mod_cast h1
  · rw [hsq, one_lt_div hN]
    exact_mod_cast h2
  · rw [hsq, div_eq_one_iff_eq hN.ne', Bool.not_eq_false', Bool.and_eq_true, decide_eq_true_iff, decide_eq_true_iff, h4]
    exact_mod_cast Iff.rfl

end

/-! ### What a result rounded to nearest tells -/

section
variable {ty p c : ℕ} {md : BitVec 3} {v : ℚ} {r : ℕ × W32}

theorem Nearest.finite (h : Nearest ty md v p) : FiniteFloat ty p := (nearest_lt h).1

/-- No number of the format is nearer, and of two as near the pattern is even. -/
theorem Nearest.best (h : Nearest ty md v p) (hm : md.toNat % 4 = 0) (hc : FiniteFloat ty c) :
    |v - floatValue ty p| ≤ |v - floatValue ty c| ∧
      (|v - floatValue ty c| = |v - floatValue ty p| → floatValue ty c = floatValue ty p ∨ p % 2 = 0) := by
  unfold Nearest at h
  rw [floatForm_eq] at h
  obtain ⟨-, -, -, hbest⟩ := h
  have := hbest c hc
  simpa only [hm] using this

theorem Nearest.ge_of_ge (h : Nearest ty md v p) (hm : md.toNat % 4 = 0) (hc : FiniteFloat ty c) (hle : floatValue ty c ≤ v) :
    floatValue ty c ≤ floatValue ty p := by
  by_contra hlt
  have := (h.best hm hc).1
  rw [abs_of_nonneg (by linarith), abs_of_nonneg (by linarith)] at this
  linarith

theorem Nearest.le_of_le (h : Nearest ty md v p) (hm : md.toNat % 4 = 0) (hc : FiniteFloat ty c) (hle : v ≤ floatValue ty c) :
    floatValue ty p ≤ floatValue ty c := by
  by_contra hlt
  have := (h.best hm hc).1
  rw [abs_of_nonpos (by linarith), abs_of_nonpos (by linarith)] at this
  linarith

/-- A number beyond the middle to another of the format is nearer to that one. -/
theorem Nearest.le_mid (h : Nearest ty md v p) (hm : md.toNat % 4 = 0) (hc : FiniteFloat ty c) (hlt : floatValue ty p < floatValue ty c) :
    v ≤ (floatValue ty p + floatValue ty c) / 2 := by
  by_contra hgt
  rw [not_le] at hgt
  have := (h.best hm hc).1
  rw [abs_of_nonneg (by linarith : (0 : ℚ) ≤ v - floatValue ty p)] at this
  rcases abs_cases (v - floatValue ty c) with ⟨h1, -⟩ | ⟨h1, -⟩ <;> linarith

theorem Nearest.mid_le (h : Nearest ty md v p) (hm : md.toNat % 4 = 0) (hc : FiniteFloat ty c) (hlt : floatValue ty c < floatValue ty p) :
    (floatValue ty p + floatValue ty c) / 2 ≤ v := by
  by_contra hgt
  rw [not_le] at hgt
  have := (h.best hm hc).1
  rw [abs_of_nonpos (by linarith : v - floatValue ty p ≤ 0)] at this
  rcases abs_cases (v - floatValue ty c) with ⟨h1, -⟩ | ⟨h1, -⟩ <;> linarith

/-- At the middle the pattern is even. -/
theorem Nearest.even_of_mid (h : Nearest ty md ((floatValue ty p + floatValue ty c) / 2) p) (hm : md.toNat % 4 = 0)
    (hc : FiniteFloat ty c) (hne : floatValue ty c ≠ floatValue ty p) : p % 2 = 0 := by
  refine ((h.best hm hc).2 ?_).resolve_left hne
  rw [show (floatValue ty p + floatValue ty c) / 2 - floatValue ty c = -((floatValue ty p + floatValue ty c) / 2 - floatValue ty p) by ring,
    abs_neg]

theorem not_overflows_of_le (h : |v| ≤ 2 ^ ((fmtOf ty).bias : ℤ)) : ¬ Overflows ty md v := by
  rw [overflows_iff]
  refine not_roundsUpTo_of_le ?_
  have h1 : (1 : ℚ) ≤ 2 ^ (fmtOf ty).fb := one_le_pow₀ one_le_two
  rw [div_le_iff₀ (zpow_pos two_pos _)]
  calc |v| ≤ 2 ^ ((fmtOf ty).bias : ℤ) := h
    _ = 2 ^ (fmtOf ty).fb * 2 ^ (((fmtOf ty).bias : ℤ) - (fmtOf ty).fb) := by
      rw [← zpow_natCast, ← zpow_add₀ two_ne_zero]
      congr 1
      ring
    _ ≤ ((2 ^ ((fmtOf ty).fb + 1) : ℕ) - 1) * 2 ^ (((fmtOf ty).bias : ℤ) - (fmtOf ty).fb) := by
      refine mul_le_mul_of_nonneg_right ?_ (zpow_pos two_pos _).le
      push_cast
      rw [pow_succ]
      linarith

theorem not_tiny_of_ge (h : 2 ^ (1 - ((fmtOf ty).bias : ℤ)) ≤ |v|) : ¬ Tiny ty md v := by
  rw [tiny_iff, not_not]
  refine roundsUpTo_of_le ?_
  rw [le_div_iff₀ (zpow_pos two_pos _)]
  refine le_trans (le_of_eq ?_) h
  push_cast
  rw [← zpow_natCast, ← zpow_add₀ two_ne_zero]
  congr 1
  push_cast
  ring

theorem exists_least_normal (ty : ℕ) : ∃ c, FiniteFloat ty c ∧ floatValue ty c = 2 ^ (1 - ((fmtOf ty).bias : ℤ)) := by
  have hs := fmtOf_sized ty
  have hpow : 2 ^ ((fmtOf ty).fb + 1) = 2 * 2 ^ (fmtOf ty).fb := pow_succ' _ _
  have hpos : 0 < 2 ^ (fmtOf ty).fb := Nat.two_pow_pos _
  have h := stands_packed (ty := ty) (neg := false) (k := 2 ^ (fmtOf ty).fb) (q := 1 - ((fmtOf ty).bias : ℤ) - (fmtOf ty).fb) (by omega)
    le_rfl (.inl rfl) (by
      unfold fieldOf
      rw [if_neg (lt_irrefl _), if_neg (by omega), hs.top_eq]
      have := hs.bias_ge
      push_cast
      omega)
  refine ⟨_, h.finite, ?_⟩
  rw [h.value]
  push_cast
  rw [← zpow_natCast, ← zpow_add₀ two_ne_zero, sgn, if_neg Bool.false_ne_true, one_mul]
  congr 1
  ring

end

/-! ### The nearest number to an inverse root -/

section
variable {ty y : ℕ} {md : BitVec 3} {v lo hi : ℚ} {x : ℤ} {sticky : Bool}

/-- The numbers of a cell: those that a root's bits may stand for. -/
structure RootCell (v : ℚ) (y : ℕ) (x : ℤ) (sticky : Bool) : Prop where
  pos : 0 < v
  big : 1 ≤ y
  lower : v * ((y : ℚ) * 2 ^ x) ^ 2 ≤ 1
  upper : 1 < v * (((y : ℚ) + 1) * 2 ^ x) ^ 2
  exact : sticky = false ↔ v * ((y : ℚ) * 2 ^ x) ^ 2 = 1

theorem mul_sq_lt_mul_sq {a b : ℚ} (hv : 0 < v) (hb : 0 ≤ b) (h : v * a ^ 2 < v * b ^ 2) : a < b :=
  lt_of_pow_lt_pow_left₀ 2 hb (lt_of_mul_lt_mul_left h hv.le)

/-- Below the inverse root: some number of the cell is greater. -/
theorem RootCell.exists_gt (h : RootCell v y x sticky) {t : ℚ} (ht : v * t ^ 2 < 1) : ∃ μ, Held y x sticky μ ∧ t < μ := by
  have hp : (0 : ℚ) < 2 ^ x := zpow_pos two_pos x
  unfold Held
  cases hs : sticky with
  | false =>
    have := h.exact.mp hs
    exact ⟨_, rfl, mul_sq_lt_mul_sq h.pos (by positivity) (by rw [this]; exact ht)⟩
  | true =>
    have hthi : t < (y + 1) * 2 ^ x := mul_sq_lt_mul_sq h.pos (by positivity) (ht.trans h.upper)
    have hlohi : (y : ℚ) * 2 ^ x < (y + 1) * 2 ^ x := mul_lt_mul_of_pos_right (by linarith) hp
    obtain ⟨μ, h1, h2⟩ := exists_between (max_lt hthi hlohi)
    exact ⟨μ, ⟨(le_max_right _ _).trans_lt h1, h2⟩, (le_max_left _ _).trans_lt h1⟩

/-- Above it: some number of the cell is smaller. -/
theorem RootCell.exists_lt (h : RootCell v y x sticky) {t : ℚ} (ht0 : 0 ≤ t) (ht : 1 < v * t ^ 2) : ∃ μ, Held y x sticky μ ∧ μ < t := by
  have hp : (0 : ℚ) < 2 ^ x := zpow_pos two_pos x
  unfold Held
  cases hs : sticky with
  | false =>
    have := h.exact.mp hs
    exact ⟨_, rfl, mul_sq_lt_mul_sq h.pos ht0 (by rw [this]; exact ht)⟩
  | true =>
    have hlot : (y : ℚ) * 2 ^ x < t := mul_sq_lt_mul_sq h.pos ht0 (h.lower.trans_lt ht)
    have hlohi : (y : ℚ) * 2 ^ x < (y + 1) * 2 ^ x := mul_lt_mul_of_pos_right (by linarith) hp
    obtain ⟨μ, h1, h2⟩ := exists_between (lt_min hlot hlohi)
    exact ⟨μ, ⟨h1, h2.trans_le (min_le_right _ _)⟩, h2.trans_le (min_le_left _ _)⟩

/-- The inverse root itself, where it is a number, is in the cell. -/
theorem RootCell.held (h : RootCell v y x sticky) {t : ℚ} (ht0 : 0 ≤ t) (ht : v * t ^ 2 = 1) : Held y x sticky t := by
  have hp : (0 : ℚ) < 2 ^ x := zpow_pos two_pos x
  unfold Held
  cases hs : sticky with
  | false =>
    have heq := mul_left_cancel₀ h.pos.ne' (ht.trans (h.exact.mp hs).symm)
    exact (pow_left_inj₀ ht0 (by positivity) two_ne_zero).mp heq
  | true =>
    have hne : v * ((y : ℚ) * 2 ^ x) ^ 2 ≠ 1 := fun h' => by simpa [hs] using h.exact.mpr h'
    exact ⟨mul_sq_lt_mul_sq h.pos ht0 (ht ▸ lt_of_le_of_ne h.lower hne),
      mul_sq_lt_mul_sq h.pos (by positivity) (ht ▸ h.upper)⟩

/-- For a number of the format's range the cell lies where no result overflows or is tiny. -/
theorem RootCell.range (h : RootCell v y x sticky) (hlo : 2 ^ (1 - ((fmtOf ty).bias : ℤ) - (fmtOf ty).fb) ≤ v)
    (hhi : v < 2 ^ (((fmtOf ty).bias : ℤ) + 1)) {μ : ℚ} (hμ : Held y x sticky μ) :
    2 ^ (1 - ((fmtOf ty).bias : ℤ)) ≤ μ ∧ μ ≤ 2 ^ ((fmtOf ty).bias : ℤ) := by
  have hb := (fmtOf_sized ty).bias_ge
  have hp : (0 : ℚ) < 2 ^ x := zpow_pos two_pos x
  have hy : (1 : ℚ) ≤ y := by exact_mod_cast h.big
  obtain ⟨δ, hδ0, hδ1, -, rfl⟩ := hμ.unit_part
  have hsq (n : ℤ) : ((2 : ℚ) ^ n) ^ 2 = 2 ^ (2 * n) := by rw [mul_comm, zpow_mul, zpow_ofNat]
  have hlow : (2 : ℚ) ^ (2 - ((fmtOf ty).bias : ℤ)) < (y + 1) * 2 ^ x := by
    refine mul_sq_lt_mul_sq h.pos (by positivity) (lt_of_le_of_lt ?_ h.upper)
    rw [hsq]
    calc v * 2 ^ (2 * (2 - ((fmtOf ty).bias : ℤ))) ≤ 2 ^ (((fmtOf ty).bias : ℤ) + 1) * 2 ^ (2 * (2 - ((fmtOf ty).bias : ℤ))) :=
          mul_le_mul_of_nonneg_right hhi.le (zpow_pos two_pos _).le
      _ = 2 ^ (5 - ((fmtOf ty).bias : ℤ)) := by rw [← zpow_add₀ two_ne_zero]; congr 1; ring
      _ ≤ 1 := zpow_le_one_of_nonpos₀ one_le_two (by have := (fmtOf_sized ty).fb_pos; omega)
  have hhigh : (y : ℚ) * 2 ^ x < 2 ^ (((fmtOf ty).bias : ℤ) - 1) := by
    refine mul_sq_lt_mul_sq h.pos (zpow_pos two_pos _).le (lt_of_le_of_lt h.lower ?_)
    rw [hsq]
    calc (1 : ℚ) < 2 ^ (((fmtOf ty).bias : ℤ) - 1 - (fmtOf ty).fb) := one_lt_zpow₀ one_lt_two (by omega)
      _ = 2 ^ (1 - ((fmtOf ty).bias : ℤ) - (fmtOf ty).fb) * 2 ^ (2 * (((fmtOf ty).bias : ℤ) - 1)) := by
        rw [← zpow_add₀ two_ne_zero]; congr 1; ring
      _ ≤ v * 2 ^ (2 * (((fmtOf ty).bias : ℤ) - 1)) := mul_le_mul_of_nonneg_right hlo (zpow_pos two_pos _).le
  rw [show 2 - ((fmtOf ty).bias : ℤ) = 1 - (fmtOf ty).bias + 1 by ring, zpow_add_one₀ two_ne_zero] at hlow
  rw [zpow_sub_one₀ two_ne_zero] at hhigh
  have h1 : (y + 1 : ℚ) * 2 ^ x ≤ 2 * (y * 2 ^ x) := by nlinarith
  have h2 : (y + δ : ℚ) * 2 ^ x ≤ (y + 1) * 2 ^ x := mul_le_mul_of_nonneg_right (by linarith) hp.le
  have h3 : (y : ℚ) * 2 ^ x ≤ (y + δ) * 2 ^ x := mul_le_mul_of_nonneg_right (by linarith) hp.le
  exact ⟨by linarith, by linarith⟩

/-- The number that the cell's numbers round to is nearest to the inverse root. -/
theorem RootCell.inverseRoot {r : ℕ × W32} (h : RootCell v y x sticky) (hmd : md.toNat % 4 = 0)
    (hlo : 2 ^ (1 - ((fmtOf ty).bias : ℤ) - (fmtOf ty).fb) ≤ v) (hhi : v < 2 ^ (((fmtOf ty).bias : ℤ) + 1))
    (hr : ∀ μ, Held y x sticky μ → Rounded ty md μ r) : InverseRoot ty v r := by
  have hnear {μ : ℚ} (hμ : Held y x sticky μ) : Nearest ty md μ r.1 ∧ (floatValue ty r.1 = μ → r.2 = 0) ∧
      (floatValue ty r.1 ≠ μ → r.2 = 0x10) := by
    obtain ⟨h1, h2⟩ := h.range hlo hhi hμ
    have hpos : 0 ≤ μ := (zpow_pos two_pos _).le.trans h1
    obtain ⟨-, hn⟩ := hr μ hμ
    obtain ⟨hn, he, hi⟩ := hn (not_overflows_of_le (by rwa [abs_of_nonneg hpos]))
    exact ⟨hn, he, fun hne => (hi hne).2 (not_tiny_of_ge (by rwa [abs_of_nonneg hpos]))⟩
  obtain ⟨μ₀, hμ₀, -⟩ := h.exists_gt (t := 0) (by norm_num)
  have hfin := (hnear hμ₀).1.finite
  have hypos : 0 < floatValue ty r.1 := by
    obtain ⟨c, hc, hval⟩ := exists_least_normal ty
    have := (hnear hμ₀).1.ge_of_ge hmd hc (hval ▸ (h.range hlo hhi hμ₀).1)
    exact (hval ▸ zpow_pos two_pos _ : 0 < floatValue ty c).trans_le this
  refine ⟨hfin, hypos, ?_, fun c hc => ⟨fun hlt => ⟨?_, fun heq => ?_⟩, fun hlt h0 => ⟨?_, fun heq => ?_⟩⟩⟩
  · split
    case isTrue heq => exact (hnear (h.held hypos.le heq)).2.1 rfl
    case isFalse hne =>
      rcases lt_or_gt_of_ne hne with hlt | hgt
      · obtain ⟨μ, hμ, hgt⟩ := h.exists_gt hlt
        exact (hnear hμ).2.2 hgt.ne
      · obtain ⟨μ, hμ, hlt⟩ := h.exists_lt hypos.le hgt
        exact (hnear hμ).2.2 hlt.ne'
  · by_contra hc'
    obtain ⟨μ, hμ, hgt⟩ := h.exists_gt (not_le.mp hc')
    exact absurd ((hnear hμ).1.le_mid hmd hc hlt) (not_le.mpr hgt)
  · exact (hnear (h.held (by linarith) heq)).1.even_of_mid hmd hc hlt.ne'
  · by_contra hc'
    obtain ⟨μ, hμ, hlt'⟩ := h.exists_lt h0 (not_le.mp hc')
    exact absurd ((hnear hμ).1.mid_le hmd hc hlt) (not_le.mpr hlt')
  · exact (hnear (h.held h0 heq)).1.even_of_mid hmd hc hlt.ne

/-- A positive number of a format lies between its least subnormal number and twice its greatest power of two. -/
theorem Normal.range {f : Fmt} {m : ℕ} {e : ℤ} (h : Normal f m e) (hm : m ≠ 0) :
    (2 : ℚ) ^ (1 - (f.bias : ℤ) - f.fb) ≤ m * 2 ^ e ∧ (m * 2 ^ e : ℚ) < 2 ^ ((f.bias : ℤ) + 1) := by
  have h1 : (1 : ℚ) ≤ m := by exact_mod_cast Nat.one_le_iff_ne_zero.mpr hm
  have h2 : (m : ℚ) < 2 ^ (f.fb + 1) := by exact_mod_cast h.lt
  have hlo := zpow_le_zpow_right₀ (one_le_two (α := ℚ)) h.ge_min
  have hhi := zpow_le_zpow_right₀ (one_le_two (α := ℚ)) h.le_max
  have hp : (0 : ℚ) < 2 ^ e := zpow_pos two_pos e
  constructor
  · calc (2 : ℚ) ^ (1 - (f.bias : ℤ) - f.fb) ≤ 1 * 2 ^ e := by rwa [one_mul]
      _ ≤ m * 2 ^ e := mul_le_mul_of_nonneg_right h1 hp.le
  · calc (m * 2 ^ e : ℚ) < 2 ^ (f.fb + 1) * 2 ^ e := mul_lt_mul_of_pos_right h2 hp
      _ ≤ 2 ^ (f.fb + 1) * 2 ^ ((f.bias : ℤ) - f.fb) := mul_le_mul_of_nonneg_left hhi (by positivity)
      _ = 2 ^ ((f.bias : ℤ) + 1) := by
        rw [← zpow_natCast, ← zpow_add₀ two_ne_zero]
        congr 1
        push_cast
        ring

theorem inverseRoot_rsq {a : ℕ} (hmd : md.toNat % 4 = 0) (hf : FiniteFloat ty a) (h0 : 0 < floatValue ty a) :
    InverseRoot ty (floatValue ty a) ((fmtOf ty).trans .rsq (md.getLsbD 2) ((fmtOf ty).read a)) := by
  obtain ⟨m, e, hm, hread, hval, hn⟩ := read_nonzero hf h0.ne'
  rw [decide_eq_false (not_lt.mpr h0.le)] at hread hval
  rw [sgn, if_neg Bool.false_ne_true, one_mul] at hval
  obtain ⟨hbig, h1, h2, h3⟩ := rsqrt_spec (e := e) hm
  obtain ⟨hlo, hhi⟩ := hn.range hm
  have ht : (fmtOf ty).trans .rsq (md.getLsbD 2) (.fin false m e) =
      (fmtOf ty).round (Round.ofMod md) (md.getLsbD 2) false (rsqrt m e).1 (rsqrt m e).2.1 (rsqrt m e).2.2 := by
    rw [ofMod_nearest hmd]
    exact if_neg hm
  have hcell : RootCell (floatValue ty a) (rsqrt m e).1 (rsqrt m e).2.1 (rsqrt m e).2.2 :=
    ⟨h0, le_trans (by decide) hbig, hval ▸ h1, hval ▸ h2, hval ▸ h3⟩
  rw [hread, ht]
  refine hcell.inverseRoot hmd (hval ▸ hlo) (hval ▸ hhi) fun μ hμ => ?_
  have := round_rounded (ty := ty) (md := md) (neg := false) (Nat.one_le_iff_ne_zero.mp (le_trans (by decide) hbig))
    (fun _ => fb_le_bitLen ty (le_trans (by decide) hbig)) hμ
  rwa [sgn, if_neg Bool.false_ne_true, one_mul] at this

end

end Sys2Proof.Claims
end

