-- ==== Sys2Proof/Proofs/PowersAndLogarithms.lean ====
section
/-! FEXP2 and FLOG2: exact at integers and at powers of two, and between those on both sides else (05 R129, 12 R365). -/

namespace Sys2Proof.Claims

open Machine

/-! ### Results of a cell -/

section
variable {ty m : ℕ} {md : BitVec 3} {neg : Bool} {e : ℤ} {r : ℕ × W32} {v w : ℚ}

/-- A cell with a dropped part holds a number other than a given one. -/
theorem exists_held_ne (m : ℕ) (e : ℤ) (t : ℚ) : ∃ μ, Held m e true μ ∧ μ ≠ t := by
  have hp : (0 : ℚ) < 2 ^ e := zpow_pos two_pos e
  have hlt : (m : ℚ) * 2 ^ e < (m + 1) * 2 ^ e := mul_lt_mul_of_pos_right (by linarith) hp
  obtain ⟨μ, h1, h2⟩ := exists_between hlt
  obtain ⟨μ', h3, h4⟩ := exists_between h2
  by_cases h : μ = t
  · exact ⟨μ', ⟨h1.trans h3, h4⟩, fun h' => h3.ne (h.trans h'.symm)⟩
  · exact ⟨μ, ⟨h1, h2⟩, h⟩

theorem overflows_of_ge (h : 2 ^ (((fmtOf ty).bias : ℤ) + 1) ≤ |v|) : Overflows ty md v := by
  rw [overflows_iff]
  refine roundsUpTo_of_le ?_
  rw [le_div_iff₀ (zpow_pos two_pos _)]
  refine le_trans (le_of_eq ?_) h
  push_cast
  rw [← zpow_natCast, ← zpow_add₀ two_ne_zero]
  congr 1
  push_cast
  ring

theorem overflows_mono (hmd : md.toNat % 4 = 0) (h : |v| ≤ |w|) (ho : Overflows ty md v) : Overflows ty md w := by
  rw [overflows_iff] at ho ⊢
  exact ⟨fun h0 => (ho.1 h0).trans (div_le_div_of_nonneg_right h (zpow_pos two_pos _).le), fun h0 => absurd hmd h0, fun h0 => absurd hmd h0⟩

/-- A pattern of zero's sign whose number is below every number of the format is zero. -/
theorem round_tiny {sat : Bool} {n : ℤ} (hn : n ≤ -4096) : (fmtOf ty).round .rne sat false 1 n false = (0, 0x18) := by
  have hs := fmtOf_sized ty
  have hbl : bitLen 1 = 1 := rfl
  have hfb := hs.fb_lt
  have hbias := hs.bias_lt
  have hu : unitExp (fmtOf ty) 1 n = 1 - ((fmtOf ty).bias : ℤ) - (fmtOf ty).fb := by
    unfold unitExp
    rw [hbl]
    push_cast
    omega
  have hround : roundAt .rne false 1 n false (1 - ((fmtOf ty).bias : ℤ) - (fmtOf ty).fb) = (0, false) := by
    obtain ⟨k, hk⟩ : ∃ k : ℕ, (1 - ((fmtOf ty).bias : ℤ) - (fmtOf ty).fb - n).toNat = k + 2 :=
      ⟨(1 - ((fmtOf ty).bias : ℤ) - (fmtOf ty).fb - n).toNat - 2, by omega⟩
    have h1 : 1 < 2 ^ (k + 2) := Nat.one_lt_two_pow (by omega)
    have h2 : 1 < 2 ^ (k + 1) := Nat.one_lt_two_pow (by omega)
    unfold roundAt
    rw [if_neg (by omega)]
    simp only [hk, Nat.mod_eq_of_lt h1, Nat.div_eq_of_lt h1, show k + 2 - 1 = k + 1 by omega, h2.ne, if_false, compare_lt_iff_lt.mpr h2]
    rfl
  have ht : takenTiny (fmtOf ty) .rne false 1 n false = true := by
    unfold takenTiny
    rw [hbl, if_neg (by omega), if_pos (by omega)]
  have hf : fieldOf (fmtOf ty) 0 (1 - ((fmtOf ty).bias : ℤ) - (fmtOf ty).fb) = 0 := if_pos (Nat.two_pow_pos _)
  rw [round_eq one_ne_zero, hu, hround, hf, if_neg (by rw [hs.top_eq]; omega), ht]
  simp [packed, Fmt.zero]
  rfl

end

/-! ### Powers of two -/

theorem expTail_mono {y y' : ℕ} (hy : y ≤ y') (fuel k : ℕ) {t t' sum sum' : ℕ} (ht : t ≤ t') (hsum : sum ≤ sum') :
    expTail y fuel k t sum ≤ expTail y' fuel k t' sum' := by
  induction fuel generalizing k t t' sum sum' with
  | zero => exact hsum
  | succ fuel ih =>
    have hterm : t * y / 2 ^ 256 / k ≤ t' * y' / 2 ^ 256 / k :=
      Nat.div_le_div_right (Nat.div_le_div_right (Nat.mul_le_mul ht hy))
    exact ih (k + 1) hterm (Nat.add_le_add hsum hterm)

theorem le_expTail (y fuel k t sum : ℕ) : sum ≤ expTail y fuel k t sum := by
  induction fuel generalizing k t sum with
  | zero => exact le_rfl
  | succ fuel ih => exact (Nat.le_add_right _ _).trans (ih _ _ _)

/-- The model's power of a fraction lies from one up to, not with, two: at most that of the greatest fraction. -/
theorem exp2Frac_bounds {f : ℕ} (hf : f < 2 ^ 256) : 2 ^ 256 ≤ exp2Frac f ∧ exp2Frac f < 2 ^ 257 := by
  have htop : exp2Frac (2 ^ 256 - 1) < 2 ^ 257 := by decide +kernel
  refine ⟨le_expTail _ _ _ _ _, lt_of_le_of_lt ?_ htop⟩
  exact expTail_mono (Nat.div_le_div_right (Nat.mul_le_mul_right _ (by omega))) _ _ le_rfl le_rfl

section
variable {ty m : ℕ} {md : BitVec 3} {e i : ℤ} {r : ℕ × W32} {v : ℚ}

theorem round_two_pow (i : ℤ) : Rounded ty md ((2 : ℚ) ^ i) ((fmtOf ty).round (Round.ofMod md) (md.getLsbD 2) false 1 i false) := by
  have := round_exact (ty := ty) (md := md) (neg := false) i one_ne_zero
  rwa [sgn, if_neg Bool.false_ne_true, one_mul, Nat.cast_one, one_mul] at this

theorem powerOfTwo_int (hv : v = i) (h : Rounded ty md ((2 : ℚ) ^ i) r) : PowerOfTwo ty md v r := by
  refine ⟨fun n hn => ?_, fun n h1 h2 => ?_⟩
  · have : i = n := by exact_mod_cast hv.symm.trans hn
    rwa [← this]
  · rw [hv] at h1 h2
    have h3 : n < i := by exact_mod_cast h1
    have h4 : i < n + 1 := by exact_mod_cast h2
    omega

/-- Beyond every number of the format the result overflows. -/
theorem powerOfTwo_huge (hv : 4096 ≤ v) :
    PowerOfTwo ty md v ((fmtOf ty).round (Round.ofMod md) (md.getLsbD 2) false 1 4096 false) := by
  have hbias := (fmtOf_sized ty).bias_lt
  have hover (n : ℤ) (hn : 4096 ≤ n) : Overflows ty md ((2 : ℚ) ^ n) := by
    refine overflows_of_ge ?_
    rw [abs_of_pos (zpow_pos two_pos _)]
    exact zpow_le_zpow_right₀ one_le_two (by omega)
  have hneg (n : ℤ) : ¬ (2 : ℚ) ^ n < 0 := not_lt.mpr (zpow_pos two_pos _).le
  refine ⟨fun n hn => ?_, fun n _ h2 hno => ?_⟩
  · have hn' : 4096 ≤ n := by
      rw [hn] at hv
      exact_mod_cast hv
    obtain ⟨h, -⟩ := round_two_pow (ty := ty) (md := md) 4096
    have heq := h (hover 4096 le_rfl)
    simp only [hneg, if_false] at heq
    refine ⟨fun _ => ?_, fun h' => absurd (hover n hn') h'⟩
    simp only [hneg, if_false]
    exact heq
  · have : (4096 : ℚ) < ((n + 1 : ℤ) : ℚ) := by push_cast; linarith
    have : 4096 < n + 1 := by exact_mod_cast this
    exact absurd (hover (n + 1) (by omega)) hno

/-- Below every number of the format the result is zero. -/
theorem powerOfTwo_tiny (hmd : md.toNat % 4 = 0) (hv : v ≤ -4096) :
    PowerOfTwo ty md v ((fmtOf ty).round (Round.ofMod md) (md.getLsbD 2) false 1 (-4096) false) := by
  have hbias := (fmtOf_sized ty).bias_ge
  have hr (n : ℤ) (hn : n ≤ -4096) : Rounded ty md ((2 : ℚ) ^ n) (0, 0x18) := by
    have := round_two_pow (ty := ty) (md := md) n
    rwa [ofMod_nearest hmd, round_tiny hn] at this
  obtain ⟨hfin, hzero⟩ := floatValue_zero ty false
  have hz : (fmtOf ty).zero false = 0 := rfl
  rw [hz] at hfin hzero
  rw [ofMod_nearest hmd, round_tiny le_rfl]
  refine ⟨fun n hn => hr n ?_, fun n h1 _ _ => ⟨hfin, .inr rfl, fun c hc => ⟨fun hle => ?_, fun hle => ?_⟩⟩⟩
  · rw [hn] at hv
    exact_mod_cast hv
  · have hn : n ≤ -4096 := by
      have : (n : ℚ) ≤ (-4096 : ℤ) := by push_cast; linarith
      exact_mod_cast this
    have hno : ¬ Overflows ty md ((2 : ℚ) ^ n) := by
      refine not_overflows_of_le ?_
      rw [abs_of_pos (zpow_pos two_pos _)]
      exact zpow_le_zpow_right₀ one_le_two (by omega)
    exact ((hr n hn).2 hno).1.ge_of_ge hmd hc hle
  · rw [hzero]
    exact (zpow_pos two_pos _).le.trans hle

/-- Between two integers: the bits of the fraction's power lie from 2^i up to 2^(i + 1). -/
theorem powerOfTwo_between {M : ℕ} (hmd : md.toNat % 4 = 0) (hM : 2 ^ 256 ≤ M) (hM' : M < 2 ^ 257) (h1 : (i : ℚ) < v) (h2 : v < i + 1) :
    PowerOfTwo ty md v ((fmtOf ty).round (Round.ofMod md) (md.getLsbD 2) false M (i - 256) true) := by
  have hunique (n : ℤ) (h3 : (n : ℚ) ≤ v) (h4 : v < n + 1) : n = i := by
    have h5 : n < i + 1 := by exact_mod_cast h3.trans_lt h2
    have h6 : i < n + 1 := by exact_mod_cast h1.trans h4
    omega
  have hcell {μ : ℚ} (hμ : Held M (i - 256) true μ) : (2 : ℚ) ^ i < μ ∧ μ < (2 : ℚ) ^ (i + 1) ∧
      Rounded ty md μ ((fmtOf ty).round (Round.ofMod md) (md.getLsbD 2) false M (i - 256) true) := by
    have hp : (0 : ℚ) < 2 ^ (i - 256) := zpow_pos two_pos _
    have hlo : (2 : ℚ) ^ 256 ≤ M := by exact_mod_cast hM
    have hhi : (M : ℚ) + 1 ≤ 2 ^ 257 := by exact_mod_cast hM'
    have hr := round_rounded (ty := ty) (md := md) (neg := false) (Nat.one_le_iff_ne_zero.mp (le_trans (by decide) hM))
      (fun _ => fb_le_bitLen ty (le_trans (by decide) hM)) hμ
    rw [sgn, if_neg Bool.false_ne_true, one_mul] at hr
    obtain ⟨hl, hu⟩ := hμ
    refine ⟨?_, ?_, hr⟩
    · calc (2 : ℚ) ^ i = 2 ^ (256 : ℤ) * 2 ^ (i - 256) := by rw [← zpow_add₀ two_ne_zero]; congr 1; ring
        _ ≤ M * 2 ^ (i - 256) := mul_le_mul_of_nonneg_right (by exact_mod_cast hlo) hp.le
        _ < μ := hl
    · calc μ < (M + 1) * 2 ^ (i - 256) := hu
        _ ≤ 2 ^ (257 : ℤ) * 2 ^ (i - 256) := mul_le_mul_of_nonneg_right (by exact_mod_cast hhi) hp.le
        _ = (2 : ℚ) ^ (i + 1) := by rw [← zpow_add₀ two_ne_zero]; congr 1; ring
  generalize (fmtOf ty).round (Round.ofMod md) (md.getLsbD 2) false M (i - 256) true = r at hcell ⊢
  refine ⟨fun n hn => ?_, fun n h3 h4 hno => ?_⟩
  · have hni := hunique n hn.ge (by linarith)
    rw [hn, hni] at h1
    exact absurd h1 (lt_irrefl _)
  · obtain rfl := hunique n h3.le h4
    obtain ⟨μ, hμ, hne⟩ := exists_held_ne M (n - 256) (floatValue ty r.1)
    obtain ⟨hlo, hhi, -, hr⟩ := hcell hμ
    have hpos : (0 : ℚ) < 2 ^ n := zpow_pos two_pos _
    have hno' : ¬ Overflows ty md μ := fun ho => hno (overflows_mono hmd (by
      rw [abs_of_pos (hpos.trans hlo), abs_of_pos (zpow_pos two_pos _)]
      exact hhi.le) ho)
    obtain ⟨hn, -, hflags⟩ := hr hno'
    refine ⟨hn.finite, ?_, fun c hc => ⟨fun hle => hn.ge_of_ge hmd hc (hle.trans hlo.le), fun hle => hn.le_of_le hmd hc (hhi.le.trans hle)⟩⟩
    by_cases ht : Tiny ty md μ
    · exact .inr ((hflags hne.symm).1 ht)
    · exact .inl ((hflags hne.symm).2 ht)

/-- A finite number as an integer over 2^256. -/
theorem fixed_value {n : Bool} {m : ℕ} {e : ℤ} (he : -256 ≤ e) :
    sgn n * (m * 2 ^ e) * 2 ^ 256 = (((if n = true then -(m : ℤ) else m) * 2 ^ (e + 256).toNat : ℤ) : ℚ) := by
  have hz : ((if n = true then -(m : ℤ) else m : ℤ) : ℚ) = sgn n * m := signedInt_cast n m
  have hk : ((e + 256).toNat : ℤ) = e + 256 := by omega
  have hpow : (2 : ℚ) ^ e * 2 ^ 256 = 2 ^ (e + 256).toNat := by
    rw [← zpow_natCast, ← zpow_natCast, ← zpow_add₀ two_ne_zero, hk]
    rfl
  rw [Int.cast_mul, hz, Int.cast_pow, Int.cast_ofNat, ← hpow]
  ring

/-- A number that is an integer over 2^k lies at or above the quotient, and below the next integer. -/
theorem quotient_bounds {k : ℕ} {z : ℤ} (h : v * 2 ^ k = z) : (z % 2 ^ k = 0 → v = (z / 2 ^ k : ℤ)) ∧
    (z % 2 ^ k ≠ 0 → ((z / 2 ^ k : ℤ) : ℚ) < v ∧ v < (z / 2 ^ k : ℤ) + 1) := by
  have hP : (0 : ℤ) < 2 ^ k := by positivity
  have hPq : (0 : ℚ) < 2 ^ k := by positivity
  have hdm : v * 2 ^ k = (z / 2 ^ k : ℤ) * 2 ^ k + (z % 2 ^ k : ℤ) := by
    rw [h]
    exact_mod_cast (Int.ediv_mul_add_emod z (2 ^ k)).symm
  have h1 : ((z % 2 ^ k : ℤ) : ℚ) < 2 ^ k := by exact_mod_cast Int.emod_lt_of_pos z hP
  have h0 := Int.emod_nonneg z hP.ne'
  constructor
  · intro hz
    rw [hz, Int.cast_zero, add_zero] at hdm
    exact mul_right_cancel₀ hPq.ne' hdm
  · intro hz
    have hpos : (0 : ℚ) < (z % 2 ^ k : ℤ) := by exact_mod_cast lt_of_le_of_ne h0 (Ne.symm hz)
    constructor
    · refine lt_of_mul_lt_mul_right (a := 2 ^ k) ?_ hPq.le
      linarith
    · refine lt_of_mul_lt_mul_right (a := 2 ^ k) ?_ hPq.le
      rw [add_mul, one_mul]
      linarith

/-- FEXP2 of a finite number. -/
theorem powerOfTwo_exp2 {a : ℕ} (hmd : md.toNat % 4 = 0) (hf : FiniteFloat ty a) :
    PowerOfTwo ty md (floatValue ty a) ((fmtOf ty).trans .exp2 (md.getLsbD 2) ((fmtOf ty).read a)) := by
  have hs := fmtOf_sized ty
  have hn := normal_of_finite hf
  rw [read_finite hf, floatValue_eq]
  change PowerOfTwo ty md _ (exp2Fin _ _ _ _ _)
  generalize magOf (fmtOf ty) a = m, expOf (fmtOf ty) a = e, negative ty a = n at hn ⊢
  unfold exp2Fin
  rw [← ofMod_nearest hmd]
  by_cases h0 : m = 0
  · rw [if_pos h0]
    exact powerOfTwo_int (i := 0) (by simp [h0]) (round_two_pow 0)
  rw [if_neg h0]
  by_cases h12 : e + bitLen m > 12
  · rw [if_pos h12]
    have hbig : (4096 : ℚ) ≤ m * 2 ^ e := by
      calc (4096 : ℚ) = 2 ^ (12 : ℤ) := by norm_num
        _ ≤ 2 ^ (e + bitLen m - 1) := zpow_le_zpow_right₀ one_le_two (by omega)
        _ ≤ m * 2 ^ e := ((held_exact m e).lead h0).1
    cases n with
    | true => exact powerOfTwo_tiny hmd (by rw [sgn, if_pos rfl]; linarith)
    | false => exact powerOfTwo_huge (by rw [sgn, if_neg Bool.false_ne_true]; linarith)
  have he : -256 ≤ e := by
    have h1 := hn.ge_min
    have h2 := hs.fb_lt
    have h3 := hs.bias_lt
    omega
  rw [if_neg h12, if_neg (not_lt.mpr he)]
  have hfix := fixed_value (n := n) (m := m) he
  dsimp only
  generalize (if n = true then -(m : ℤ) else m) * 2 ^ (e + 256).toNat = z at hfix ⊢
  obtain ⟨hint, hbetween⟩ := quotient_bounds hfix
  have hmod : 0 ≤ z % 2 ^ 256 := Int.emod_nonneg _ (by decide)
  have hmod' : z % 2 ^ 256 < 2 ^ 256 := Int.emod_lt_of_pos _ (by decide)
  by_cases hfrac : (z % 2 ^ 256).toNat = 0
  · rw [if_pos hfrac]
    exact powerOfTwo_int (hint (by omega)) (round_two_pow _)
  · rw [if_neg hfrac]
    obtain ⟨hlo, hhi⟩ := exp2Frac_bounds (f := (z % 2 ^ 256).toNat) (by omega)
    obtain ⟨h1, h2⟩ := hbetween (by omega)
    exact powerOfTwo_between hmd hlo hhi h1 h2

end

/-! ### Logarithms -/

/-- The bits found so far, followed by n more. -/
theorem log2Bits_bounds (n y acc : ℕ) : acc * 2 ^ n ≤ log2Bits n y acc ∧ log2Bits n y acc < (acc + 1) * 2 ^ n := by
  induction n generalizing y acc with
  | zero => simp [log2Bits]
  | succ n ih =>
    rw [log2Bits]
    split
    · obtain ⟨h1, h2⟩ := ih (y * y / 2 ^ 512 / 2) (2 * acc + 1)
      rw [pow_succ]
      constructor <;> linarith
    · obtain ⟨h1, h2⟩ := ih (y * y / 2 ^ 512) (2 * acc)
      rw [pow_succ]
      constructor <;> linarith

theorem log2Bits_mono (n : ℕ) {y y' : ℕ} (acc : ℕ) (h : y ≤ y') : log2Bits n y acc ≤ log2Bits n y' acc := by
  induction n generalizing y y' acc with
  | zero => exact le_rfl
  | succ n ih =>
    have hz : y * y / 2 ^ 512 ≤ y' * y' / 2 ^ 512 := Nat.div_le_div_right (Nat.mul_le_mul h h)
    rw [log2Bits, log2Bits]
    split_ifs with h1 h2 h2
    · exact ih _ (Nat.div_le_div_right hz)
    · exact absurd (h1.trans hz) h2
    · exact (log2Bits_bounds n _ _).2.le.trans (log2Bits_bounds n _ _).1
    · exact ih _ hz

/-- The model's bits of the logarithm of a number that is no power of two stay away from zero and from one. -/
theorem log2Bits_away {ty m : ℕ} (hty : ty = 6 ∨ ty = 7 ∨ ty = 8) (hm : m < 2 ^ ((fmtOf ty).fb + 1)) (h0 : m ≠ 0)
    (hp : m ≠ 2 ^ (bitLen m - 1)) :
    2 ^ (199 - (fmtOf ty).fb) ≤ log2Bits 200 (m * 2 ^ (513 - bitLen m)) 0 ∧
      log2Bits 200 (m * 2 ^ (513 - bitLen m)) 0 + 2 ^ (199 - (fmtOf ty).fb) ≤ 2 ^ 200 := by
  have hends : 2 ^ (199 - (fmtOf ty).fb) ≤ log2Bits 200 (2 ^ 512 + 2 ^ (512 - (fmtOf ty).fb)) 0 ∧
      log2Bits 200 (2 ^ 513 - 2 ^ (512 - (fmtOf ty).fb)) 0 + 2 ^ (199 - (fmtOf ty).fb) ≤ 2 ^ 200 := by
    rcases hty with rfl | rfl | rfl <;> decide +kernel
  have hfb := (fmtOf_sized ty).fb_lt
  have hlen := bitLen_le h0 hm
  have h1 := bitLen_pos h0
  have hlo : 2 ^ (bitLen m - 1) + 1 ≤ m := lt_of_le_of_ne (two_pow_le_of_bitLen h0) (Ne.symm hp)
  have hhi : m + 1 ≤ 2 ^ bitLen m := lt_two_pow_bitLen m
  have hunit : 2 ^ (512 - (fmtOf ty).fb) ≤ 2 ^ (513 - bitLen m) := Nat.pow_le_pow_right (by decide) (by omega)
  have hlow : 2 ^ 512 + 2 ^ (512 - (fmtOf ty).fb) ≤ m * 2 ^ (513 - bitLen m) := by
    calc 2 ^ 512 + 2 ^ (512 - (fmtOf ty).fb) ≤ 2 ^ 512 + 2 ^ (513 - bitLen m) := Nat.add_le_add_left hunit _
      _ = (2 ^ (bitLen m - 1) + 1) * 2 ^ (513 - bitLen m) := by
        rw [Nat.add_mul, ← pow_add, one_mul]
        congr 2
        omega
      _ ≤ m * 2 ^ (513 - bitLen m) := Nat.mul_le_mul_right _ hlo
  have hhigh : m * 2 ^ (513 - bitLen m) ≤ 2 ^ 513 - 2 ^ (512 - (fmtOf ty).fb) := by
    have h2 := Nat.mul_le_mul_right (2 ^ (513 - bitLen m)) hhi
    rw [Nat.add_mul, one_mul, ← pow_add, show bitLen m + (513 - bitLen m) = 513 by omega] at h2
    omega
  exact ⟨hends.1.trans (log2Bits_mono 200 0 hlow), (Nat.add_le_add_right (log2Bits_mono 200 0 hhigh) _).trans hends.2⟩

section
variable {ty m frac : ℕ} {md : BitVec 3} {e i : ℤ} {r : ℕ × W32} {v μ : ℚ}

/-- The integers that logarithms lie between are numbers of every format. -/
theorem exists_integer (ty : ℕ) {z : ℤ} (hz : z.natAbs < 2 ^ 8) : ∃ c, FiniteFloat ty c ∧ floatValue ty c = z := by
  have hs := fmtOf_sized ty
  have hfb := hs.fb_ge
  have hbias := hs.bias_ge
  by_cases h0 : z.natAbs = 0
  · obtain ⟨h1, h2⟩ := floatValue_zero ty false
    exact ⟨_, h1, by rw [h2, Int.natAbs_eq_zero.mp h0, Int.cast_zero]⟩
  have hL := bitLen_pos h0
  have hlen := bitLen_le h0 hz
  have hlo : 2 ^ (fmtOf ty).fb ≤ z.natAbs * 2 ^ ((fmtOf ty).fb + 1 - bitLen z.natAbs) := by
    calc 2 ^ (fmtOf ty).fb = 2 ^ (bitLen z.natAbs - 1) * 2 ^ ((fmtOf ty).fb + 1 - bitLen z.natAbs) := by
          rw [← pow_add]; congr 1; omega
      _ ≤ _ := Nat.mul_le_mul_right _ (two_pow_le_of_bitLen h0)
  have hhi : z.natAbs * 2 ^ ((fmtOf ty).fb + 1 - bitLen z.natAbs) ≤ 2 ^ ((fmtOf ty).fb + 1) := by
    calc _ ≤ 2 ^ bitLen z.natAbs * 2 ^ ((fmtOf ty).fb + 1 - bitLen z.natAbs) := Nat.mul_le_mul_right _ (lt_two_pow_bitLen _).le
      _ = 2 ^ ((fmtOf ty).fb + 1) := by rw [← pow_add]; congr 1; omega
  have h := stands_packed (ty := ty) (neg := decide (z < 0)) (q := (bitLen z.natAbs : ℤ) - 1 - (fmtOf ty).fb) hhi (by omega)
    (.inr hlo) (by
      unfold fieldOf
      rw [if_neg (not_lt.mpr hlo), hs.top_eq]
      push_cast
      split <;> omega)
  refine ⟨_, h.finite, ?_⟩
  have hk : (((fmtOf ty).fb + 1 - bitLen z.natAbs : ℕ) : ℤ) + ((bitLen z.natAbs : ℤ) - 1 - (fmtOf ty).fb) = 0 := by omega
  rw [h.value, Nat.cast_mul, Nat.cast_pow, Nat.cast_ofNat, mul_assoc, ← zpow_natCast, ← zpow_add₀ two_ne_zero, hk, zpow_zero, mul_one,
    ← signedInt_cast]
  congr 1
  unfold signedInt
  split <;> rename_i hneg <;> simp only [decide_eq_true_eq] at hneg <;> omega

/-- The magnitude of a logarithm's bits, an inexact negative one the next toward zero. -/
def logMag (V : ℤ) : ℕ := if V < 0 then V.natAbs - 1 else V.natAbs

/-- An inexact logarithm lies above the integer V over 2^200, and below the next. -/
theorem logMag_held {V : ℤ} (h : Held (logMag V) (-200) true μ) :
    (V : ℚ) < sgn (decide (V < 0)) * μ * 2 ^ 200 ∧ sgn (decide (V < 0)) * μ * 2 ^ 200 < V + 1 := by
  have hp : (0 : ℚ) < 2 ^ 200 := by positivity
  have hunit (x : ℚ) : x * 2 ^ (-200 : ℤ) * 2 ^ 200 = x := by
    rw [zpow_neg, mul_assoc, show (2 : ℚ) ^ (200 : ℤ) = 2 ^ 200 from rfl, inv_mul_cancel₀ hp.ne', mul_one]
  rw [Held, if_pos rfl] at h
  obtain ⟨h1, h2⟩ := h
  have h1' := mul_lt_mul_of_pos_right h1 hp
  have h2' := mul_lt_mul_of_pos_right h2 hp
  rw [hunit] at h1' h2'
  unfold logMag at h1' h2'
  by_cases hV : V < 0
  · have hM : ((V.natAbs - 1 : ℕ) : ℚ) = -V - 1 := by
      have : ((V.natAbs - 1 : ℕ) : ℤ) = -V - 1 := by omega
      exact_mod_cast congrArg (Int.cast (R := ℚ)) this
    rw [if_pos hV, hM] at h1' h2'
    rw [sgn, if_pos (decide_eq_true hV)]
    constructor <;> linarith
  · have hM : (V.natAbs : ℚ) = V := by rw [Nat.cast_natAbs, abs_of_nonneg (not_lt.mp hV)]
    rw [if_neg hV, hM] at h1' h2'
    rw [sgn, if_neg (by simpa using hV)]
    constructor <;> linarith

/-- Bits away from zero and from one leave a magnitude away from zero. -/
theorem le_logMag {d : ℕ} (hlo : 2 ^ (d + 1) ≤ frac) (hhi : frac + 2 ^ (d + 1) ≤ 2 ^ 200) : 2 ^ d ≤ logMag (i * 2 ^ 200 + frac) := by
  have h1 : 1 ≤ 2 ^ d := Nat.one_le_two_pow
  rw [pow_succ] at hlo hhi
  unfold logMag
  split <;> omega

/-- A logarithm's bits after those of its integer part i lie between i and the next integer. -/
theorem logMag_between (hfrac : frac < 2 ^ 200) (h : Held (logMag (i * 2 ^ 200 + frac)) (-200) true μ) :
    (i : ℚ) < sgn (decide (i * 2 ^ 200 + (frac : ℤ) < 0)) * μ ∧ sgn (decide (i * 2 ^ 200 + (frac : ℤ) < 0)) * μ < i + 1 := by
  obtain ⟨h1, h2⟩ := logMag_held h
  have hP : (0 : ℚ) < 2 ^ 200 := by positivity
  constructor
  · refine lt_of_mul_lt_mul_right (a := 2 ^ 200) (lt_of_le_of_lt ?_ h1) hP.le
    exact_mod_cast Int.le_add_of_nonneg_right (Int.natCast_nonneg frac)
  · refine lt_of_mul_lt_mul_right (a := 2 ^ 200) (lt_of_lt_of_le h2 ?_) hP.le
    have : i * 2 ^ 200 + (frac : ℤ) + 1 ≤ (i + 1) * 2 ^ 200 := by omega
    exact_mod_cast this

/-- Such a logarithm is no smaller than the least normal number. -/
theorem normal_le_held (h : Held m (-200) true μ) (hm : 2 ^ (198 - (fmtOf ty).fb) ≤ m) : 2 ^ (1 - ((fmtOf ty).bias : ℤ)) ≤ μ := by
  have hfb := (fmtOf_sized ty).fb_lt
  have hbias := (fmtOf_sized ty).bias_ge
  have hm' : (2 : ℚ) ^ ((198 - (fmtOf ty).fb : ℕ) : ℤ) ≤ m := by exact_mod_cast hm
  rw [Held, if_pos rfl] at h
  calc (2 : ℚ) ^ (1 - ((fmtOf ty).bias : ℤ)) ≤ 2 ^ (((198 - (fmtOf ty).fb : ℕ) : ℤ) + -200) :=
        zpow_le_zpow_right₀ one_le_two (by omega)
    _ = 2 ^ ((198 - (fmtOf ty).fb : ℕ) : ℤ) * 2 ^ (-200 : ℤ) := zpow_add₀ two_ne_zero _ _
    _ ≤ m * 2 ^ (-200 : ℤ) := mul_le_mul_of_nonneg_right hm' (zpow_pos two_pos _).le
    _ ≤ μ := h.1.le

/-- A normal number between two integers, rounded to another number, stays between them and is inexact. -/
theorem rounded_between (hmd : md.toNat % 4 = 0) (hi : -2 ^ 8 < i) (hi' : i + 1 < 2 ^ 8) (h1 : (i : ℚ) < v) (h2 : v < i + 1)
    (hv : 2 ^ (1 - ((fmtOf ty).bias : ℤ)) ≤ |v|) (hr : Rounded ty md v r) (hne : floatValue ty r.1 ≠ v) :
    FiniteFloat ty r.1 ∧ r.2 = 0x10 ∧ (i : ℚ) ≤ floatValue ty r.1 ∧ floatValue ty r.1 ≤ i + 1 := by
  have hfb := (fmtOf_sized ty).fb_ge
  have hbias := (fmtOf_sized ty).bias_ge
  have hno : ¬ Overflows ty md v := by
    refine not_overflows_of_le ?_
    have h3 : (-2 ^ 8 : ℚ) < i := by exact_mod_cast hi
    have h4 : (i : ℚ) + 1 < 2 ^ 8 := by exact_mod_cast hi'
    calc |v| ≤ 2 ^ (8 : ℤ) := abs_le.mpr ⟨h3.le.trans h1.le, h2.le.trans h4.le⟩
      _ ≤ 2 ^ ((fmtOf ty).bias : ℤ) := zpow_le_zpow_right₀ one_le_two (by omega)
  obtain ⟨hn, -, hflags⟩ := hr.2 hno
  obtain ⟨c, hc, hcv⟩ := exists_integer ty (z := i) (by omega)
  obtain ⟨c', hc', hcv'⟩ := exists_integer ty (z := i + 1) (by omega)
  rw [Int.cast_add, Int.cast_one] at hcv'
  refine ⟨hn.finite, (hflags hne).2 (not_tiny_of_ge hv), ?_, ?_⟩
  · exact hcv ▸ hn.ge_of_ge hmd hc (hcv ▸ h1.le)
  · exact hcv' ▸ hn.le_of_le hmd hc' (hcv' ▸ h2.le)

/-- The rounded logarithm of a number that is no power of two. -/
theorem round_log (hmd : md.toNat % 4 = 0) (hi : -2 ^ 8 < i) (hi' : i + 1 < 2 ^ 8) (hlo : 2 ^ (199 - (fmtOf ty).fb) ≤ frac)
    (hhi : frac + 2 ^ (199 - (fmtOf ty).fb) ≤ 2 ^ 200)
    (hr : r = (fmtOf ty).round (Round.ofMod md) (md.getLsbD 2) (decide (i * 2 ^ 200 + (frac : ℤ) < 0))
      (logMag (i * 2 ^ 200 + frac)) (-200) true) :
    FiniteFloat ty r.1 ∧ r.2 = 0x10 ∧ (i : ℚ) ≤ floatValue ty r.1 ∧ floatValue ty r.1 ≤ i + 1 := by
  have hfb := (fmtOf_sized ty).fb_lt
  have hfrac : frac < 2 ^ 200 := lt_of_lt_of_le (Nat.lt_add_of_pos_right (Nat.two_pow_pos _)) hhi
  have hexp : 199 - (fmtOf ty).fb = 198 - (fmtOf ty).fb + 1 := by omega
  have hmag : 2 ^ (198 - (fmtOf ty).fb) ≤ logMag (i * 2 ^ 200 + frac) := by
    rw [hexp] at hlo hhi
    exact le_logMag hlo hhi
  have hmag0 := Nat.one_le_iff_ne_zero.mp (Nat.one_le_two_pow.trans hmag)
  have hbits : 2 ^ 40 ≤ logMag (i * 2 ^ 200 + frac) := (Nat.pow_le_pow_right (by decide) (by omega)).trans hmag
  obtain ⟨μ, hμ, hne⟩ := exists_held_ne (logMag (i * 2 ^ 200 + frac)) (-200)
    (sgn (decide (i * 2 ^ 200 + (frac : ℤ) < 0)) * floatValue ty r.1)
  obtain ⟨h1, h2⟩ := logMag_between hfrac hμ
  have hround := round_rounded (ty := ty) (md := md) (neg := decide (i * 2 ^ 200 + (frac : ℤ) < 0)) hmag0
    (fun _ => fb_le_bitLen ty hbits) hμ
  refine rounded_between hmd hi hi' h1 h2 ?_ (hr ▸ hround) fun heq => hne ?_
  · rw [abs_sgn_mul, abs_of_pos (hμ.pos hmag0)]
    exact normal_le_held hμ hmag
  · rw [heq, ← mul_assoc, sgn_mul_self, one_mul]

/-- A rounded integer other than zero. -/
theorem round_int (hi : i ≠ 0) : Rounded ty md i ((fmtOf ty).round (Round.ofMod md) (md.getLsbD 2) (decide (i < 0)) i.natAbs 0 false) := by
  have h := round_exact (ty := ty) (md := md) (neg := decide (i < 0)) 0 (Int.natAbs_ne_zero.mpr hi)
  have hv : signedInt (decide (i < 0)) i.natAbs = i := by
    unfold signedInt
    split <;> rename_i hneg <;> simp only [decide_eq_true_eq] at hneg <;> omega
  rwa [zpow_zero, mul_one, ← signedInt_cast, hv] at h

/-- FLOG2 of a power of two. -/
theorem logarithm_pow (hv : v = 2 ^ i) :
    Logarithm ty md v ((fmtOf ty).round (Round.ofMod md) (md.getLsbD 2) (decide (i < 0)) i.natAbs 0 false) := by
  have hinj {n : ℤ} (h : v = 2 ^ n) : i = n := zpow_right_injective₀ two_pos (by norm_num) (hv.symm.trans h)
  refine ⟨fun h1 => ?_, fun n hn h => ?_, fun n h1 h2 => ?_⟩
  · obtain rfl := hinj (n := 0) (by rw [h1, zpow_zero])
    exact round_zero _ _ _ _ _ _
  · obtain rfl := hinj h
    exact round_int hn
  · rw [hv] at h1 h2
    have h3 := (zpow_lt_zpow_iff_right₀ one_lt_two).mp h1
    have h4 := (zpow_lt_zpow_iff_right₀ one_lt_two).mp h2
    omega

/-- Between the powers of two on both sides a result need only lie between their exponents. -/
theorem logarithm_between (h1 : (2 : ℚ) ^ i < v) (h2 : v < 2 ^ (i + 1))
    (h : FiniteFloat ty r.1 ∧ r.2 = 0x10 ∧ (i : ℚ) ≤ floatValue ty r.1 ∧ floatValue ty r.1 ≤ i + 1) : Logarithm ty md v r := by
  have hno (n : ℤ) : v ≠ 2 ^ n := by
    rintro rfl
    have h3 := (zpow_lt_zpow_iff_right₀ one_lt_two).mp h1
    have h4 := (zpow_lt_zpow_iff_right₀ one_lt_two).mp h2
    omega
  refine ⟨fun h1 => absurd (h1.trans (zpow_zero 2).symm) (hno 0), fun n _ hn => absurd hn (hno n), fun n h3 h4 => ?_⟩
  have h5 := (zpow_lt_zpow_iff_right₀ one_lt_two).mp (h1.trans h4)
  have h6 := (zpow_lt_zpow_iff_right₀ one_lt_two).mp (h3.trans h2)
  obtain rfl : n = i := by omega
  exact h

/-- FLOG2 of a number above zero. -/
theorem logarithm_log2 {a : ℕ} (hty : ty = 6 ∨ ty = 7 ∨ ty = 8) (hmd : md.toNat % 4 = 0) (hf : FiniteFloat ty a)
    (h0 : 0 < floatValue ty a) :
    Logarithm ty md (floatValue ty a) ((fmtOf ty).trans .log2 (md.getLsbD 2) ((fmtOf ty).read a)) := by
  obtain ⟨m, e, hm, hread, hval, hn⟩ := read_nonzero hf h0.ne'
  rw [decide_eq_false (not_lt.mpr h0.le)] at hread hval
  rw [sgn, if_neg Bool.false_ne_true, one_mul] at hval
  have ht : (fmtOf ty).trans .log2 (md.getLsbD 2) (.fin false m e) = log2Fin (fmtOf ty) (md.getLsbD 2) m e := if_neg hm
  rw [hread, ht, hval]
  unfold log2Fin
  rw [← ofMod_nearest hmd]
  obtain ⟨hlead, hlead'⟩ := (held_exact m e).lead hm
  have hL := bitLen_pos hm
  dsimp only
  by_cases hp : m = 2 ^ (bitLen m - 1)
  · rw [if_pos hp]
    refine logarithm_pow ?_
    calc (m : ℚ) * 2 ^ e = 2 ^ ((bitLen m - 1 : ℕ) : ℤ) * 2 ^ e := by
          conv_lhs => rw [hp]
          push_cast
          rw [zpow_natCast]
      _ = 2 ^ (e + bitLen m - 1) := by
        rw [← zpow_add₀ two_ne_zero]
        congr 1
        omega
  · rw [if_neg hp]
    obtain ⟨hlo, hhi⟩ := log2Bits_away hty hn.lt hm hp
    generalize log2Bits 200 (m * 2 ^ (513 - bitLen m)) 0 = frac at hlo hhi ⊢
    have hfb := (fmtOf_sized ty).fb_lt
    have hlen := bitLen_le hm hn.lt
    have hbias := (fmtOf_sized ty).bias_lt
    have hmin := hn.ge_min
    have hmax := hn.le_max
    have hne : (2 : ℚ) ^ (e + bitLen m - 1) ≠ m * 2 ^ e := by
      intro heq
      refine hp ?_
      have h1 : (m : ℚ) * 2 ^ e = 2 ^ ((bitLen m - 1 : ℕ) : ℤ) * 2 ^ e := by
        rw [← heq, ← zpow_add₀ two_ne_zero]
        congr 1
        omega
      have h2 := mul_right_cancel₀ (zpow_ne_zero e two_ne_zero) h1
      exact_mod_cast h2
    refine logarithm_between (lt_of_le_of_ne hlead hne) (by rwa [sub_add_cancel]) ?_
    exact round_log hmd (by omega) (by omega) hlo hhi rfl

end

end Sys2Proof.Claims
end

