-- ==== Sys2Proof/Proofs/RoundedFloats.lean ====
section
/-! The results of the floating and conversion words (05 R127-R129, R134, R137, R139, R142, R144). -/

namespace Sys2Proof.Claims

open Machine

/-! ### What each word computes -/

theorem tyFmt_eq {ty : ℕ} (h : ty = 6 ∨ ty = 7 ∨ ty = 8) : tyFmt ty = fmtOf ty := (fmtOf_tyFmt (by omega)).symm

theorem readVal_float {ty : ℕ} (h : ty = 6 ∨ ty = 7 ∨ ty = 8) (p : ℕ) : readVal ty p = (fmtOf ty).read p := by
  rw [readVal, if_pos ((tyFloat_iff ty).mpr (by omega)), readFp_eq h]

theorem readVal_int {ty : ℕ} (h : ty ≤ 5) (p : ℕ) : readVal ty p = FVal.ofInt (readInt ty p) := by
  have hf : ¬ tyFloat ty = true := fun hf => by
    have := (tyFloat_iff ty).mp hf
    omega
  rw [readVal, if_neg hf, readInt_eq h]

/-- An operand of a floating word. -/
def operand (w : LaneWord) (p : ℕ) : FVal := (fmtOf w.ty.toNat).read p

/-- A value and its flags written under a word's type and MOD. -/
def written (w : LaneWord) (v : FVal × W32) : ℕ × W32 := (fmtOf w.ty.toNat).write (Round.ofMod w.md) (w.md.getLsbD 2) v.1 v.2

/-- FFMA's value and flags. -/
def fusedValue (r : Round) (x y z : FVal) : FVal × W32 :=
  let v := (x.mul y).1.add r z
  (v.1, (x.mul y).2 ||| v.2 ||| (if x.sig || y.sig || z.sig then 1 else 0))

section
variable {fmt : W32} {w : LaneWord} {l : FloatLane} {a b c : ℕ} (hty : w.ty.toNat = 6 ∨ w.ty.toNat = 7 ∨ w.ty.toNat = 8)
include hty

theorem readFp_operand : readFp w.ty.toNat = operand w := funext (readFp_eq hty)

theorem write_written (v : FVal × W32) : (tyFmt w.ty.toNat).write (Round.ofMod w.md) (w.md.getLsbD 2) v.1 v.2 = written w v := by
  rw [tyFmt_eq hty, written]

theorem fadd_result (h : floatLane fmt (.fadd w) = some l) :
    l.f a b c = written w ((operand w a).add (Round.ofMod w.md) (operand w b)) := by
  obtain rfl := Option.some.inj h
  simp only [write_written hty, readFp_operand hty]

theorem fsub_result (h : floatLane fmt (.fsub w) = some l) :
    l.f a b c = written w ((operand w a).add (Round.ofMod w.md) (operand w b).neg) := by
  obtain rfl := Option.some.inj h
  simp only [write_written hty, readFp_operand hty]

theorem fmul_result (h : floatLane fmt (.fmul w) = some l) : l.f a b c = written w ((operand w a).mul (operand w b)) := by
  obtain rfl := Option.some.inj h
  simp only [write_written hty, readFp_operand hty]

theorem ffma_result (h : floatLane fmt (.ffma w) = some l) :
    l.f a b c = written w (fusedValue (Round.ofMod w.md) (operand w a) (operand w b) (operand w c)) := by
  obtain rfl := Option.some.inj h
  simp only [readFp_operand hty]
  exact write_written hty (fusedValue _ _ _ _)

theorem fmin_result (h : floatLane fmt (.fmin w) = some l) : l.f a b c = written w ((operand w a).minmax false (operand w b)) := by
  obtain rfl := Option.some.inj h
  simp only [write_written hty, readFp_operand hty]

theorem fmax_result (h : floatLane fmt (.fmax w) = some l) : l.f a b c = written w ((operand w a).minmax true (operand w b)) := by
  obtain rfl := Option.some.inj h
  simp only [write_written hty, readFp_operand hty]

/-- FRCP, FRSQ, FEXP2 and FLOG2. -/
theorem trans_result (t : Trans) {use : Uses} (h : some (FloatLane.mk w use 10 true (fun a _ _ =>
    (tyFmt w.ty.toNat).trans t (w.md.getLsbD 2) (readFp w.ty.toNat a))) = some l) :
    l.f a b c = (fmtOf w.ty.toNat).trans t (w.md.getLsbD 2) (operand w a) := by
  obtain rfl := Option.some.inj h
  simp only [tyFmt_eq hty, readFp_operand hty]

theorem fcvt_result (h : floatLane fmt (.fcvt w) = some l) : w.x.toNat % 16 ≤ 8 ∧
    l.f a b c = written w (readVal (w.x.toNat % 16) a, if (readVal (w.x.toNat % 16) a).sig then 1 else 0) := by
  simp only [floatLane, Option.ite_none_right_eq_some] at h
  obtain ⟨⟨h8, -⟩, heq⟩ := h
  obtain rfl := Option.some.inj heq
  refine ⟨h8, ?_⟩
  rw [← write_written hty]
  exact if_pos ((tyFloat_iff _).mpr (by omega))

theorem lcvt_result (h : floatLane fmt (.lcvt w) = some l) : l.f a b c = written w (l6Value (a % 64) (fmtEA fmt), 0) := by
  have h9 : w.ty ≠ 9 := fun h9 => by
    rw [h9] at hty
    exact absurd hty (by decide)
  simp only [floatLane, h9, false_and, if_false, ne_eq, not_false_eq_true, true_and, Option.ite_none_right_eq_some] at h
  obtain rfl := Option.some.inj h.2
  exact write_written hty (l6Value (a % 64) (fmtEA fmt), 0)

end

/-! ### Exact results rounded once -/

section
variable {fmt : W32} {w : LaneWord} {l : FloatLane} {a b c : ℕ} {x : FVal} {v : ℚ}

theorem rounds_written {fl : W32} (hx : ExactValue x v ∧ fl = 0) : Rounds w.ty.toNat w.md v (written w (x, fl)) := by
  rw [hx.2]
  exact write_exact hx.1

theorem exactValue_operand (h : FiniteFloat w.ty.toNat a) : ExactValue (operand w a) (floatValue w.ty.toNat a) := exactValue_read h

/-- The fused product and sum is exact, and raises no flag of its own. -/
theorem ExactValue.fused {y z : FVal} {u t : ℚ} (r : Round) (hx : ExactValue x u) (hy : ExactValue y v) (hz : ExactValue z t) :
    ExactValue (fusedValue r x y z).1 (u * v + t) ∧ (fusedValue r x y z).2 = 0 := by
  obtain ⟨hm, hfm⟩ := hx.mul hy
  obtain ⟨hv, hfv⟩ := hm.add (r := r) hz
  refine ⟨hv, ?_⟩
  simp [fusedValue, hfm, hfv, hx.sig_eq, hy.sig_eq, hz.sig_eq]

section
variable (hty : w.ty.toNat = 6 ∨ w.ty.toNat = 7 ∨ w.ty.toNat = 8)
include hty

theorem arithmetic_rounds (ha : FiniteFloat w.ty.toNat a) (hb : FiniteFloat w.ty.toNat b) :
    let q := floatValue w.ty.toNat
    (floatLane fmt (.fadd w) = some l → Rounds w.ty.toNat w.md (q a + q b) (l.f a b c)) ∧
    (floatLane fmt (.fsub w) = some l → Rounds w.ty.toNat w.md (q a - q b) (l.f a b c)) ∧
    (floatLane fmt (.fmul w) = some l → Rounds w.ty.toNat w.md (q a * q b) (l.f a b c)) ∧
    (FiniteFloat w.ty.toNat c → floatLane fmt (.ffma w) = some l → Rounds w.ty.toNat w.md (q a * q b + q c) (l.f a b c)) := by
  have hxa := exactValue_operand ha
  have hxb := exactValue_operand hb
  refine ⟨fun h => ?_, fun h => ?_, fun h => ?_, fun hc h => ?_⟩
  · exact fadd_result hty h ▸ rounds_written (hxa.add hxb)
  · rw [sub_eq_add_neg]
    exact fsub_result hty h ▸ rounds_written (hxa.add hxb.neg)
  · exact fmul_result hty h ▸ rounds_written (hxa.mul hxb)
  · exact ffma_result hty h ▸ rounds_written (hxa.fused _ hxb (exactValue_operand hc))

/-- FCVT to a floating type. -/
theorem fcvt_rounds (h : floatLane fmt (.fcvt w) = some l) :
    let src := w.x.toNat % 16
    (src ≤ 5 → Rounds w.ty.toNat w.md (readInt src a) (l.f a b c)) ∧
    (6 ≤ src → FiniteFloat src a → Rounds w.ty.toNat w.md (floatValue src a) (l.f a b c)) ∧
    (6 ≤ src → IsNan src a → l.f a b c = (nanFloat w.ty.toNat, if signalled src a then 1 else 0)) := by
  obtain ⟨h8, hres⟩ := fcvt_result hty h
  rw [hres]
  refine ⟨fun h5 => ?_, fun h6 hf => ?_, fun h6 hn => ?_⟩
  · have hx := exactValue_ofInt (readInt (w.x.toNat % 16) a)
    rw [readVal_int h5, hx.sig_eq]
    exact rounds_written ⟨hx, rfl⟩
  · have hx := exactValue_read hf
    rw [readVal_float (by omega), hx.sig_eq]
    exact rounds_written ⟨hx, rfl⟩
  · rw [readVal_float (by omega), read_nan hn, nanFloat_eq]
    rfl

end

theorem exactValue_signed (z e : ℤ) : ExactValue (.fin (decide (z < 0)) z.natAbs e) (z * 2 ^ e) := by
  obtain ⟨n, m, e', h, hv⟩ := exactValue_iff.mp (exactValue_ofInt z)
  obtain ⟨rfl, rfl, rfl⟩ := FVal.fin.inj h
  rw [zpow_zero, mul_one] at hv
  rw [hv, mul_assoc]
  exact exactValue_fin _ _ _

/-! ### Words with special cases -/

/-- The values of a half and of three. -/
theorem exp2_half (sat : Bool) : Fmt.f32.trans .exp2 sat (Fmt.f32.read 0x3F000000) = (0x3FB504F3, 0x10) := by
  cases sat <;> decide +kernel

theorem log2_three (sat : Bool) : Fmt.f32.trans .log2 sat (Fmt.f32.read 0x40400000) = (0x3FCAE00D, 0x10) := by
  cases sat <;> decide +kernel

theorem nearest_mode {md : BitVec 3} (h : md = 0 ∨ md = 4) : md.toNat % 4 = 0 := by
  rcases h with rfl | rfl <;> rfl

section
variable (hty : w.ty.toNat = 6 ∨ w.ty.toNat = 7 ∨ w.ty.toNat = 8)
include hty

theorem minmax_chosen : (floatLane fmt (.fmin w) = some l → ChosenFloat w.ty.toNat false a b (l.f a b c)) ∧
    (floatLane fmt (.fmax w) = some l → ChosenFloat w.ty.toNat true a b (l.f a b c)) :=
  ⟨fun h => fmin_result hty h ▸ chosenFloat_minmax _ _ _ _ _, fun h => fmax_result hty h ▸ chosenFloat_minmax _ _ _ _ _⟩

theorem lcvt_rounds (h : floatLane fmt (.lcvt w) = some l) :
    Rounds w.ty.toNat w.md (codeValue (BitVec.ofNat 6 (fmt.toNat / 2 ^ 18)).toInt (a % 64)) (l.f a b c) := by
  rw [fmtEA_eq]
  exact lcvt_result hty h ▸ rounds_written ⟨exactValue_l6Value _ _, rfl⟩

theorem frcp_results (hmd : w.md.toNat % 4 = 0) (h : floatLane fmt (.frcp w) = some l) :
    TransSpecial w.ty.toNat w.md 0 a (l.f a b c) ∧
    (FiniteFloat w.ty.toNat a → floatValue w.ty.toNat a ≠ 0 → Rounds w.ty.toNat w.md (1 / floatValue w.ty.toNat a) (l.f a b c)) := by
  rw [trans_result hty .rcp h]
  exact ⟨transSpecial_trans .rcp, rounds_rcp hmd⟩

theorem frsq_results (hmd : w.md.toNat % 4 = 0) (h : floatLane fmt (.frsq w) = some l) :
    TransSpecial w.ty.toNat w.md 1 a (l.f a b c) ∧
    (FiniteFloat w.ty.toNat a → 0 < floatValue w.ty.toNat a → InverseRoot w.ty.toNat (floatValue w.ty.toNat a) (l.f a b c)) := by
  rw [trans_result hty .rsq h]
  exact ⟨transSpecial_trans .rsq, inverseRoot_rsq hmd⟩

theorem fexp2_results (hmd : w.md.toNat % 4 = 0) (h : floatLane fmt (.fexp2 w) = some l) :
    TransSpecial w.ty.toNat w.md 2 a (l.f a b c) ∧
    (FiniteFloat w.ty.toNat a → PowerOfTwo w.ty.toNat w.md (floatValue w.ty.toNat a) (l.f a b c)) ∧
    (w.ty.toNat = 6 → a = 0x3F000000 → l.f a b c = (0x3FB504F3, 0x10)) := by
  rw [trans_result hty .exp2 h]
  refine ⟨transSpecial_trans .exp2, powerOfTwo_exp2 hmd, fun h6 ha => ?_⟩
  rw [operand, h6, ha]
  exact exp2_half _

theorem flog2_results (hmd : w.md.toNat % 4 = 0) (h : floatLane fmt (.flog2 w) = some l) :
    TransSpecial w.ty.toNat w.md 3 a (l.f a b c) ∧
    (FiniteFloat w.ty.toNat a → 0 < floatValue w.ty.toNat a → Logarithm w.ty.toNat w.md (floatValue w.ty.toNat a) (l.f a b c)) ∧
    (w.ty.toNat = 6 → a = 0x40400000 → l.f a b c = (0x3FCAE00D, 0x10)) := by
  rw [trans_result hty .log2 h]
  refine ⟨transSpecial_trans .log2, logarithm_log2 hty hmd, fun h6 ha => ?_⟩
  rw [operand, h6, ha]
  exact log2_three _

end

/-! ### Conversions from and to L6, and to integer types -/

/-- FCVT to an integer type. -/
theorem fcvt_converts (h : floatLane fmt (.fcvt w) = some l) (hty : w.ty.toNat ≤ 5) :
    ConvertedInt w.ty.toNat (w.x.toNat % 16) w.md a (l.f a b c) := by
  simp only [floatLane, Option.ite_none_right_eq_some] at h
  obtain ⟨⟨h8, hsrc⟩, heq⟩ := h
  obtain rfl := Option.some.inj heq
  have hsrc' : w.x.toNat % 16 = 6 ∨ w.x.toNat % 16 = 7 ∨ w.x.toNat % 16 = 8 := by omega
  exact convertedInt_fcvt hty hsrc' _ a

/-- LCVT to L6. -/
theorem lcvt_code (h : floatLane fmt (.lcvt w) = some l) (h9 : w.ty = 9) :
    let src := w.x.toNat % 16
    let code := CodeOf (BitVec.ofNat 6 (fmt.toNat / 2 ^ 18)).toInt
    (src ≤ 5 → code (readInt src a) (l.f a b c)) ∧ (6 ≤ src → FiniteFloat src a → code (floatValue src a) (l.f a b c)) ∧
    (6 ≤ src → IsNan src a → l.f a b c = (0x10, 1)) ∧
    ∀ neg, 6 ≤ src → ownBits src a = infFloat src neg → l.f a b c = (if neg then 0x2F else 0x0F, 0x14) := by
  simp only [floatLane, h9, true_and, ne_eq, not_true_eq_false, false_and, if_false, Option.ite_none_right_eq_some] at h
  obtain ⟨h8, heq⟩ := h
  obtain rfl := Option.some.inj heq
  dsimp only
  rw [fmtEA_eq]
  refine ⟨fun h5 => ?_, fun h6 hf => ?_, fun h6 hn => ?_, fun neg h6 hi => ?_⟩
  · exact readVal_int h5 a ▸ codeOf_toL6 (exactValue_ofInt _)
  · rw [readVal_float (by omega)]
    exact codeOf_toL6 (exactValue_read hf)
  · rw [readVal_float (by omega), read_nan hn]
    rfl
  · rw [readVal_float (by omega), read_infinite hi]
    cases neg <;> rfl

/-- ACVT to F32 and BF16. -/
theorem acvtRes_rounded {ty : ℕ} {md : BitVec 3} (scale : ℤ) (hty : ty = 6 ∨ ty = 8) (hx : ExactValue x v) (hv : v ≠ 0) :
    Rounded ty md v (acvtRes ty md scale x) := by
  have hres : acvtRes ty md scale x = (fmtOf ty).write (Round.ofMod md) (md.getLsbD 2) x 0 := by
    rcases hty with rfl | rfl <;> rfl
  exact hres ▸ (write_exact hx).1 hv

/-- The numbers of an accumulator element. -/
theorem accValue_exact (ha : a < 2 ^ 36) :
    let z : ℤ := if 2 ^ 35 ≤ a then (a : ℤ) - 2 ^ 36 else a
    ExactValue (accValue .l6 a) ((z : ℚ) / 2 ^ 14) ∧ ExactValue (accValue .int8 a) z ∧
    (FiniteFloat 36 a → ExactValue (accValue .bf16 a) (floatValue 36 a)) := by
  intro z
  have hz : intOf 36 true a = z := by
    rw [intOf, Nat.mod_eq_of_lt ha, Bool.true_and]
    simp only [decide_eq_true_eq]
    rfl
  have hl6 : (z : ℚ) / 2 ^ 14 = z * 2 ^ (-14 : ℤ) := by rw [zpow_neg, div_eq_mul_inv]; rfl
  refine ⟨?_, ?_, exactValue_read⟩
  · rw [hl6, ← hz]
    exact exactValue_signed _ _
  · rw [← mul_one (z : ℚ), ← zpow_zero (2 : ℚ), ← hz]
    exact exactValue_signed _ _

end

/-- Settles O60: exact values rounded once, and the roots, powers and logarithms from bounds on the model's bits. -/
theorem roundedFloats : Obligations.RoundedFloats := by
  unfold Obligations.RoundedFloats
  refine ⟨fun fmt w l a b c => ?_, fun fmt w l a b c => ⟨fcvt_converts, lcvt_code⟩,
    fun ty md scale x v hty hx hv => acvtRes_rounded scale hty hx hv, fun a ha => accValue_exact ha⟩
  intro ty q rounds hty
  exact ⟨arithmetic_rounds hty, fun ha h0 hmd h => (frcp_results hty (nearest_mode hmd) h).2 ha h0, fcvt_rounds hty,
    (minmax_chosen hty).1, (minmax_chosen hty).2, fun hmd => ⟨fun h => (frcp_results hty (nearest_mode hmd) h).1,
      frsq_results hty (nearest_mode hmd), fexp2_results hty (nearest_mode hmd), flog2_results hty (nearest_mode hmd)⟩, lcvt_rounds hty⟩

end Sys2Proof.Claims
end
